-- ==== Sys2Proof/Word.lean ====
section
/-! DEFINITION. Words of the part: the widths the manual uses (spec/00_scope.md, Conventions). -/

namespace Sys2Proof

/-- One byte of memory or of a link frame. -/
abbrev Byte := BitVec 8

/-- One 32-bit word (00_scope, Addresses and words). -/
abbrev Word := BitVec 32

/-- A 24-bit byte address (00_scope, Addresses and words). -/
abbrev Addr := BitVec 24

/-- A value of the monotonic count, in units of 10 ms (R34). -/
abbrev Tick := BitVec 32

end Sys2Proof
end

