-- ==== Sys2Proof/Syntax.lean ====
section
/-! DEFINITION. The commands of the part: one constructor of Instr for each row of spec/opcode_table.json. The table gives
no operands; those below are the model's (log 9, 7, 12, 13). -/

namespace Sys2Proof

/-- The two upstream ports (spec/01, Ports and the memory port). -/
inductive Port where
  | a
  | b
deriving DecidableEq, Repr

/-- What a processor presents on its port (R1): address, direction, byte enables (bit n enables byte n), data, and the
LOCK line. -/
structure Access where
  addr : Addr
  write : Bool
  enables : BitVec 4
  data : Word
  lock : Bool
deriving DecidableEq, Repr

/-- The port and the level of its LOCK line, for a whole-word access to a command word. -/
structure PortUse where
  port : Port
  lock : Bool
deriving DecidableEq, Repr

/-- One byte as a receiver takes it from its line, with whether its stop bit was good (R176). -/
structure LineByte where
  value : Byte
  stopGood : Bool
deriving DecidableEq, Repr

/-- LOG_CLEAR is a CONTROL write and, once taken, a tenure of two accesses (R23). -/
inductive LogClearStep where
  | command (use : PortUse)
  | tenure
deriving DecidableEq, Repr

/-- The commands, in the order of spec/opcode_table.json. -/
inductive Instr where
  | portAccess (port : Port) (access : Access)
  | lockRelease (port : Port)
  | memoryCycleComplete
  /-- `writesMade`: how many writes of the running tenure the memory has completed (R7). -/
  | resetAssert (writesMade : Nat)
  | resetRelease
  | autostartCheck
  | start (use : PortUse)
  | stop (use : PortUse)
  | logClear (part : LogClearStep)
  | arm (use : PortUse) (sequence : BitVec 16)
  | feed (use : PortUse) (sequence : BitVec 16)
  | pause (use : PortUse)
  | expire (use : PortUse)
  | disarm (use : PortUse)
  | heartbeatCountdownExpiry
  | take (use : PortUse)
  | takeCancel (use : PortUse)
  | buy (use : PortUse) (subscriber : BitVec 12) (entry : BitVec 7)
  | purchaseCancel (use : PortUse) (subscriber : BitVec 12) (entry : BitVec 7)
  | timeWrite (use : PortUse) (value : Word)
  | release (use : PortUse) (index : Word)
  | periodClose (use : PortUse)
  | causeRead (use : PortUse)
  | causeWrite (use : PortUse) (value : Word)
  /-- `offset`: the unused command word is station word 72 + offset. -/
  | unusedCommandWordAccess (use : PortUse) (offset : BitVec 3) (write : Bool) (value : Word)
  | wallSecondBoundary
  | referencePulse
  | lossWatchExpiry
  | routeReply (bytes : List LineByte)
  | routeByteTimeout
  | routeDeadline
  | mirrorTenure
  | tauTenureEnd
  | tapReply (bytes : List LineByte)
  | tapByteTimeout
  | tapDeadline (subscriber : Nat)
  | evaluate
  | requeue
  | retire
  | sendTenure
  | replyTenure
  | endingFailed
  | endingHeld
  | endingReturned
  | endingUnconfirmed
  | endingConfirmed
  /-- `levels`: bit n is the level of status line n, 1 HIGH. -/
  | statusLineChange (levels : Word)
  | onsetDeadline (node : Nat)
  | holdDeadline (node : Nat)
  | slmWriteTenure
  | sweepStart
  | sweepStartTenure
  | restoreStep
  | eventCloseStep
  | sweepEndTenure
  | evaluationTenure
  | releaseTenure
  | closeTenure
  | reportTenure
  | loadPhase1
  | loadPhase2
  | loadPhase3
  | logCopyLoad
  | outageReconciliation
  | subscriberLoadWalk
  | mapLoadWalk
  | runningEntry
  | stoppedEntry
  | firstSample
deriving DecidableEq, Repr

end Sys2Proof
end

