-- ==== Sys2Proof/Config.lean ====
section
/-! DEFINITION. What is fixed for every JP-40: sizes, limits and intervals, each with the rule that gives it, and the one
memory value the spec leaves open. The profile's own limits are state (a load replaces them), not configuration. -/

namespace Sys2Proof.Config

/-- What a byte of memory that nothing has written reads as. DESIGN CHOICE (log 2): the spec gives no content for memory
that was never written. Unsafe. -/
def blankByte : Byte := 0

/-- The most accesses of a host locked tenure (R5). -/
def lockLimit : Nat := 16

/-- The most accesses of a TAU tenure (R6). -/
def tenureLimit : Nat := 24

/-- The capacity of the tap queue (R79). -/
def tapQueueLimit : Nat := 64

/-- The capacity of the sweep queue (R125). -/
def sweepQueueLimit : Nat := 192

/-- The entries of the fault ring (R173). -/
def ringSize : Nat := 16

/-- The nodes of the plant, the slots of the outage list (R106, R112). -/
def nodeCount : Nat := 32

/-- The slots of the outage list. -/
def slotCount : Nat := 64

/-- The profile's signature (spec/02, the profile). -/
def signature : Word := 0x4A503430

/-- Units of a wall second (R36). -/
def secondUnits : Nat := 100

/-- A pulse nearer than this to the last accepted one is disregarded (R39). -/
def pulseGuard : Tick := 50

/-- The loss watch (R40). -/
def lossUnits : Tick := 300

/-- The longest pause between two bytes of a frame (R176). -/
def byteGap : Tick := 3

/-- The largest duration an outage record holds (R111). -/
def durationLimit : Nat := 524287

/-- The onset filter of each class in monotonic units (spec/06, Filters and node states). -/
def onsetFilter (cls : BitVec 3) : Tick :=
  if cls = 0 then 0 else if cls = 1 then 200 else if cls = 2 then 1500 else 6000

/-- The clear hold of each class in monotonic units (spec/06, Filters and node states). -/
def clearHold (cls : BitVec 3) : Tick :=
  if cls = 0 then 0 else if cls = 1 then 3000 else if cls = 2 then 12000 else 60000

end Sys2Proof.Config
end

