-- ==== Sys2Proof/Machine/State.lean ====
section
/-! DEFINITION. The state of the part, block by block, as the tables of items of spec/01 to spec/11 give it, with the
static memory beside it and the queue of commands. State is plain data. `State.reset` is the part with the reset line
asserted (log 3). -/

namespace Sys2Proof.Machine

/-! ### Names -/

/-- The operating states (R24). -/
inductive Lifecycle where
  | offline
  | loading
  | loadFault
  | running
  | stopping
  | stopped
deriving DecidableEq, Repr

/-- The heartbeat states (spec/03, The heartbeat). -/
inductive Heartbeat where
  | disarmed
  | armed
  | paused
  | expired
deriving DecidableEq, Repr

/-- The pending causes in the order of their ranks (spec/10, Pending causes). -/
inductive Cause where
  | loadFault
  | heartbeatExpired
  | lockBroken
  | accessRefused
  | logLow
  | nodeDown
  | nodeUp
  | tapFailed
  | routeFailed
  | syncLost
  | takeDone
  | purchaseDone
  | sweepDone
  | periodClosed
  | lineEdge
  | lineOverrun
deriving DecidableEq, Repr

/-- The refusal kinds in report order (spec/01, Refusals). -/
inductive RefusalKind where
  | noRight
  | range
  | partialWrite
  | owner
  | badValue
  | recordBusy
  | tableBusy
  | eventLive
  | tableLocked
  | notRunning
  | notReady
  | badCommand
  | noSpace
  | lockBroken
deriving DecidableEq, Repr

/-- The counters of the Report Unit in the order of its table (spec/10, Counters). -/
inductive Counter where
  | refusedAccesses
  | lockBreaks
  | heartbeatExpiries
  | tapFailures
  | staleTapReplies
  | staleRouteReplies
  | tapLineErrors
  | routeLineErrors
  | glitches
  | unrecordedOutages
deriving DecidableEq, Repr

/-- The rights of a port to a region (R11). -/
inductive Right where
  | none
  | read
  | readWrite
deriving DecidableEq, Repr

/-- The five table regions (R10). -/
inductive Table where
  | channelMap
  | subscribers
  | nodes
  | outages
  | chargeLog
deriving DecidableEq, Repr

/-- The claimants of the memory port (R3). -/
inductive Claimant where
  | portA
  | portB
  | tau
deriving DecidableEq, Repr

/-- The blocks that ask the TAU for tenures (R6). -/
inductive Block where
  | lcc
  | lue
  | toe
  | slm
  | swe
  | pcu
  | clu
  | rpu
deriving DecidableEq, Repr

/-- What a tenure asked for is to do; each job belongs to one block (`Job.block`). -/
inductive Job where
  /-- R25: signature and autostart flag. -/
  | autostart
  /-- R23: the two accesses of LOG_CLEAR. -/
  | logClear
  /-- R26, R30: the load fault set to the report area. -/
  | faultSet
  /-- R27: the profile in three parts. -/
  | profile (part : Nat)
  /-- R29: word 0 of the node entries in two parts. -/
  | nodeTable (part : Nat)
  /-- R29: the log indexes. -/
  | logIndexes
  /-- R63. -/
  | mirror
  /-- R75: four entries. -/
  | mapWalk
  /-- R81: the ending or the waiting reply of an in-flight record. -/
  | tapLink (subscriber : Nat)
  /-- R87. -/
  | send
  /-- R83, R84, R78: the oldest request of the evaluation list. -/
  | evaluation
  /-- R103: six channel map entries. -/
  | eventSet
  /-- R103: one subscriber record. -/
  | subscriberWalk
  /-- R114. -/
  | slmWrite
  /-- R121: six records, or the last four. -/
  | outageRead (part : Nat)
  /-- R121: the next outage number. -/
  | nextRead
  /-- R122. -/
  | repair (slot : Nat)
  /-- R126. -/
  | sweepStart
  /-- R127. -/
  | sweepStep
  /-- R131. -/
  | sweepEnd
  /-- R140. -/
  | purchase
  /-- R159. -/
  | release
  /-- R162. -/
  | close
  /-- R165. -/
  | logLoad
  /-- R172. -/
  | report
deriving DecidableEq, Repr

/-! ### The memory path -/

/-- What the ACU tells the owning block when a watched write is in memory (R16). -/
structure Trigger where
  table : Table
  index : Nat
  word : Nat
  value : Word
deriving DecidableEq, Repr

/-- The conditions of an access between its beginning and its end that last (R1); `classified`, `answered` and `refused`
pass within one step. -/
inductive Condition where
  | waiting
  | inMemory (trigger : Option Trigger)
  | held
deriving DecidableEq, Repr

/-- The outstanding access of a port. -/
structure Outstanding where
  access : Access
  condition : Condition
deriving DecidableEq, Repr

/-- How an access ended: READY with or without ERROR, and the read data (R1, R17). -/
structure Answer where
  error : Bool
  data : Word
deriving DecidableEq, Repr

/-- One upstream port. -/
structure PortState where
  out : Option Outstanding
  /-- R5: after a break LOCK is disregarded until it is seen deasserted. -/
  lockIgnored : Bool
  answer : Option Answer
deriving DecidableEq, Repr

/-- The current tenure (R3, R4): for a host tenure, whether it is locked and how many accesses were granted. -/
inductive Holder where
  | free
  | host (port : Port) (locked : Bool) (count : Nat)
  | tau
deriving DecidableEq, Repr

/-- The Path Arbiter. -/
structure Par where
  holder : Holder
  pointer : Claimant
deriving DecidableEq, Repr

/-- A table region as the profile places it (R9). -/
structure Placement where
  base : Nat
  count : Nat
  rightA : Right
  rightB : Right
deriving DecidableEq, Repr

/-- The five table regions (R9). -/
structure Tables where
  channelMap : Placement
  subscribers : Placement
  nodes : Placement
  outages : Placement
  chargeLog : Placement
deriving DecidableEq, Repr

/-- An enabled guard region, in bytes (R9). -/
structure Guard where
  base : Nat
  size : Nat
  rightA : Right
  rightB : Right
deriving DecidableEq, Repr

/-- The region map of the ACU (R9); bit n of a permission set permits station word 64 + n. -/
structure RegionMap where
  memSize : Nat
  tables : Option Tables
  guards : List Guard
  permitA : BitVec 8
  permitB : BitVec 8
deriving DecidableEq, Repr

/-! ### Stamps and requests that pass between blocks -/

/-- A wall time with its two flags as they stood (R41). -/
structure Stamp where
  wall : Word
  unset : Bool
  unlocked : Bool
deriving DecidableEq, Repr

/-- The kinds of request in the evaluation list (R82). -/
inductive EvalKind where
  | evaluate
  | requeue
  | retire
deriving DecidableEq, Repr

/-- A request of the evaluation list (R82). -/
structure EvalRequest where
  subscriber : Nat
  kind : EvalKind
  reassert : Bool
deriving DecidableEq, Repr

/-- The purchase ops (R138). -/
inductive PurchaseOp where
  | buy
  | cancel
deriving DecidableEq, Repr

/-- The purchase results in the order of their codes (R146, spec/11). -/
inductive PurchaseResult where
  | none
  | inProgress
  | accepted
  | fallback
  | timeUnset
  | badSubscriber
  | badEntry
  | notActive
  | levelOff
  | window
  | already
  | gateBusy
  | nodeDown
  | logFull
  | notPurchased
deriving DecidableEq, Repr

/-- What is owed when a running tenure ends; its grant put it there. -/
inductive Owed where
  /-- A cause that becomes pending when the tenure has ended. -/
  | cause (cause : Cause)
  /-- The space notice (R160). -/
  | space
  /-- A request to the TOE (R127, R142, R144). -/
  | request (request : EvalRequest)
  /-- The first attempt of an order sent (R87). -/
  | attempt (subscriber : Nat)
  /-- The deadline of a record whose ending was withdrawn (R91). -/
  | redeadline (subscriber : Nat)
  /-- The tap failure counter (R95). -/
  | tapFailure
  /-- A slot of the outage image written, with the marks it owed at the grant (R115). -/
  | slot (index : Nat) (down restore : Bool)
  /-- A snapshot written (R118). -/
  | snapshot
  /-- Entries written, so that causes may be handed (R63). -/
  | mirrored
  /-- The result of an evaluation (R145). -/
  | purchaseEnd (result : PurchaseResult)
  /-- Nothing: the mark of a step that found no space in RUNNING, so that its sweep, in LOG_WAIT, is not active while the
  tenure still runs (R130). -/
  | spaceWait
deriving DecidableEq, Repr

/-- The tenure that holds the memory port: its job, its writes in the order they are made, what is owed at its end, and
free space as its grant found it (R160). -/
structure Tenure where
  job : Job
  writes : List (Addr × Word)
  owed : List Owed
  freeAtGrant : Nat
deriving DecidableEq, Repr

/-- The Table Access Unit: requests in order of arrival, those that arrived together in one batch (log 8). -/
structure Tau where
  orders : List (List Job)
  running : Option Tenure
deriving DecidableEq, Repr

/-! ### Lifecycle Controller -/

/-- The Lifecycle Controller. -/
structure Lcc where
  lifecycle : Lifecycle
  phase : Nat
  /-- Bits as in report word 81. -/
  faults : BitVec 11
  jobs : List Job
  profile : List Word
  nodeWords : List Word
  logIndexes : Option (Word × Word)
deriving DecidableEq, Repr

/-- The profile fields handed to the blocks at the end of a fault-free first phase (R29); intervals in units of 10 ms
(R35). -/
structure Settings where
  tapTimeout : Tick
  minAttempts : Nat
  maxAttempts : Nat
  window : Nat
  restoreReassert : Bool
  routeTimeout : Tick
  routeAttempts : Nat
  fallbackSource : BitVec 7
  heartbeatPeriod : Tick
  /-- The fallback tap policy: true is FREEZE. -/
  freeze : Bool
  reserve : Nat
  threshold : Nat
deriving DecidableEq, Repr

/-! ### Timebase and Heartbeat Unit -/

/-- The Timebase and Heartbeat Unit (spec/03, its table of items). -/
structure Tbu where
  mono : Tick
  position : Nat
  wall : Word
  set : Bool
  locked : Bool
  lastPulse : Option Tick
  heartbeat : Heartbeat
  expected : BitVec 16
  deadline : Option Tick
deriving DecidableEq, Repr

/-! ### Line-Up Engine -/

/-- The route states (spec/04, Route states and requests). -/
inductive RouteState where
  | settled
  | pending
  | inFlight
  | failed
deriving DecidableEq, Repr

/-- The route request classes, lowest first (R61). -/
inductive RouteClass where
  | take
  | event
  | fallback
deriving DecidableEq, Repr

/-- The phases of an EVENT entry (spec/04, Event window phases). -/
inductive Phase where
  | before
  | inside
  | after
  | closing
deriving DecidableEq, Repr

/-- A channel map entry as the LUE holds it: the image of w0 to w3 (R51) and the part's own record, mirrored in w4. -/
structure Entry where
  w0 : Word
  w1 : Word
  w2 : Word
  w3 : Word
  /-- Set aside by the load walk (R75). -/
  aside : Bool
  applied : BitVec 7
  route : RouteState
  /-- The pending class, or in flight the noted class. -/
  cls : Option RouteClass
  phase : Option Phase
  attempts : BitVec 3
  /-- TIME_UNSET and UNLOCKED of the last completion. -/
  unset : Bool
  unlocked : Bool
  /-- Membership of the mirror set (R63). -/
  dirty : Bool
deriving DecidableEq, Repr

/-- The route order in flight (R62). -/
structure RouteOrder where
  slot : Nat
  source : BitVec 7
  tag : BitVec 3
  deadline : Tick
  cls : RouteClass
deriving DecidableEq, Repr

/-- The take state (R69). -/
inductive TakeState where
  | idle
  | applying
deriving DecidableEq, Repr

/-- The last take result (R74). -/
inductive TakeResult where
  | none
  | complete
  | partialTake
  | cancelled
deriving DecidableEq, Repr

/-- A cause handed to the RPU when the tenure that writes the last of the named entries has ended (R63). -/
structure OwedCause where
  cause : Cause
  entries : List Nat
deriving DecidableEq, Repr

/-- The Line-Up Engine. -/
structure Lue where
  entries : List Entry
  /-- Event number to entry index (R56). -/
  eventMap : List (BitVec 8 × Nat)
  take : TakeState
  takeResult : TakeResult
  takeFailed : Nat
  order : Option RouteOrder
  tag : BitVec 3
  /-- Entries owing w5, oldest completion first (R63). -/
  owesTime : List Nat
  owedCauses : List OwedCause
  /-- The next entry of the load walk (R75). -/
  walk : Option Nat
deriving DecidableEq, Repr

/-! ### Tap Order Engine -/

/-- The order states (spec/05). -/
inductive OrderState where
  | idle
  | queued
  | inFlight
  | held
  | deferred
  | failed
deriving DecidableEq, Repr

/-- An entry of the tap queue (R79). -/
structure QueueEntry where
  subscriber : Nat
  reassert : Bool
  kept : Nat
deriving DecidableEq, Repr

/-- A member of the deferred set (R79). -/
structure DeferredEntry where
  subscriber : Nat
  reassert : Bool
deriving DecidableEq, Repr

/-- The recheck mark of an in-flight record (R83). -/
inductive Recheck where
  | none
  | change
  | reassert
deriving DecidableEq, Repr

/-- What a tap reports: actual level, actual gate (true OPEN), health (true LOW_SIGNAL) (R92). -/
structure TapReport where
  level : BitVec 2
  gate : Bool
  lowSignal : Bool
deriving DecidableEq, Repr

/-- The endings of a tap order (R94 to R99). -/
inductive Ending where
  | failed
  | held
  | returned
  | unconfirmed
  | confirmed
deriving DecidableEq, Repr

/-- A record of the in-flight set (R79). -/
structure Flight where
  subscriber : Nat
  tag : BitVec 4
  level : BitVec 2
  gate : Bool
  sent : Nat
  deadline : Option Tick
  oneWay : Bool
  matched : Bool
  anyReply : Bool
  levelReserved : Bool
  recheck : Recheck
  reply : Option TapReport
  ending : Option Ending
  /-- The count at which the ending was decided or the waiting reply arrived (R81). -/
  workAt : Tick
  /-- Read in the send tenure, carried by every attempt (R90). -/
  tapAddress : BitVec 20
  tapPort : BitVec 2
  /-- The subscriber's node, read in the send tenure: w0 cannot be written while the record is in flight (R76, R94). -/
  node : BitVec 5
deriving DecidableEq, Repr

/-- The load walk of the subscribers (R103): next channel map entry, the temporary set of event numbers with their
entries, next subscriber. -/
structure TapWalk where
  entry : Nat
  events : List (BitVec 8 × Nat)
  subscriber : Nat
deriving DecidableEq, Repr

/-- The Tap Order Engine. -/
structure Toe where
  queue : List QueueEntry
  flights : List Flight
  held : List Nat
  deferred : List DeferredEntry
  evals : List EvalRequest
  tag : BitVec 4
  blocked : Bool
  walk : Option TapWalk
deriving DecidableEq, Repr

/-! ### Status Line Monitor -/

/-- The node states (spec/06). -/
inductive NodeState where
  | up
  | onset
  | down
  | clearing
deriving DecidableEq, Repr

/-- A time kept for later writing, with the count beside it (R108, R110). -/
structure KeptTime where
  stamp : Stamp
  mono : Tick
deriving DecidableEq, Repr

/-- A node as the SLM tracks it. -/
structure Node where
  state : NodeState
  /-- The open outage number, 0 for none. -/
  outage : BitVec 16
  onset : Option KeptTime
  clear : Option KeptTime
  deadline : Option Tick
  change : Stamp
  dirty : Bool
deriving DecidableEq, Repr

/-- The status of a slot of the outage image (spec/06, Outage records). -/
inductive SlotStatus where
  | unused
  | opened
  | closed
  | swept
deriving DecidableEq, Repr

/-- A slot of the outage image. -/
structure Slot where
  status : SlotStatus
  number : BitVec 16
  node : BitVec 5
  start : Word
  finish : Word
  duration : Nat
  progress : Nat
  interrupted : Bool
  unlocked : Bool
  unset : Bool
  /-- Owing NODE_DOWN (R113). -/
  owesDown : Bool
  /-- Owing a RESTORE (R111). -/
  owesRestore : Bool
  dirty : Bool
deriving DecidableEq, Repr

/-- A line snapshot (R117). -/
structure Snapshot where
  levels : Word
  wall : Word
  mono : Tick
deriving DecidableEq, Repr

/-- The Status Line Monitor. -/
structure Slm where
  image : List Word
  nodes : List Node
  slots : List Slot
  next : BitVec 16
  nextDirty : Bool
  lastSample : Option Word
  /-- A sample has been taken in this unit (R107). -/
  sampled : Bool
  edge : Option Snapshot
  /-- The snapshot held has not been put into a report tenure yet (R118). -/
  edgeFresh : Bool
  /-- What is left of phase 4 (R121, R122). -/
  jobs : List Job
deriving DecidableEq, Repr

/-! ### Sweep Engine -/

/-- The two kinds of sweep (R125). -/
inductive SweepKind where
  /-- Node and outage number, 0 for an unrecorded outage. -/
  | restore (node : Nat) (outage : BitVec 16)
  | eventClose (event : BitVec 8)
deriving DecidableEq, Repr

/-- An entry of the sweep queue (R125). -/
structure SweepEntry where
  kind : SweepKind
  resume : Nat
  /-- READY, or LOG_WAIT. -/
  ready : Bool
  repeatMark : Bool
  active : Bool
deriving DecidableEq, Repr

/-- What the SWE keeps of the active sweep (R126): `slot` is the record of a recorded outage. -/
structure SweepWork where
  started : Bool
  slot : Option Nat
  record : Word
  duration : Nat
  minutes : Nat
  qualifies : Bool
deriving DecidableEq, Repr

/-- The Sweep Engine. -/
structure Swe where
  queue : List SweepEntry
  work : Option SweepWork
deriving DecidableEq, Repr

/-! ### Purchase Unit -/

/-- The evaluation in flight (R138). -/
structure Evaluation where
  op : PurchaseOp
  port : Port
  subscriber : BitVec 12
  entry : BitVec 7
deriving DecidableEq, Repr

/-- The result record (R146). -/
structure PurchaseRecord where
  number : BitVec 8
  port : Port
  op : PurchaseOp
  subscriber : BitVec 12
  entry : BitVec 7
  result : PurchaseResult
deriving DecidableEq, Repr

/-- The Purchase Unit; the evaluation-in-flight flag is set exactly while `inFlight` holds one. -/
structure Pcu where
  inFlight : Option Evaluation
  record : PurchaseRecord
  /-- The ports whose PURCHASE writes are held, first held first (R8). -/
  held : List Port
deriving DecidableEq, Repr

/-! ### Charge Log Unit -/

/-- The CLU's copy: the indexes, the release target and the current digest bank. -/
structure LogCopy where
  write : Word
  release : Word
  target : Word
  digest : Word
  count : Word
  period : BitVec 16
deriving DecidableEq, Repr

/-- A taken CLOSE that has not been made (R162). -/
inductive CloseState where
  | none
  | asked
  | waiting
deriving DecidableEq, Repr

/-- The Charge Log Unit. -/
structure Clu where
  copy : Option LogCopy
  reserved : Nat
  low : Bool
  releaseOwed : Bool
  close : CloseState
  loadOwed : Bool
deriving DecidableEq, Repr

/-! ### Report Unit -/

/-- An unwritten refusal note with its number (R173). -/
structure Note where
  number : Word
  kind : RefusalKind
  port : Port
  addr : Addr
  wall : Word
  mono : Tick
deriving DecidableEq, Repr

/-- The Report Unit; bit r − 1 of `causes` and `mask` is the cause of rank r. -/
structure Rpu where
  causes : BitVec 16
  mask : BitVec 16
  noteCount : Word
  notes : List Note
  counters : List Word
  statusDirty : Bool
  copyDirty : Bool
  countDirty : Bool
  counterDirty : List Bool
deriving DecidableEq, Repr

/-! ### Links -/

/-- A receiver: the bytes of the frame so far, none while hunting, and the count of the last byte (R176). -/
structure Receiver where
  got : List Byte
  lastAt : Tick
deriving DecidableEq, Repr

/-- A link: its receiver and the frames handed to its transmitter, in order (R176, log 14). -/
structure Link where
  receiver : Receiver
  sent : List (List Byte)
deriving DecidableEq, Repr

/-! ### The part, the memory and the queue -/

/-- Everything inside the part, with its input pins. -/
structure Chip where
  resetLow : Bool
  lines : Word
  portA : PortState
  portB : PortState
  par : Par
  tau : Tau
  map : RegionMap
  lcc : Lcc
  settings : Settings
  tbu : Tbu
  lue : Lue
  toe : Toe
  slm : Slm
  swe : Swe
  pcu : Pcu
  clu : Clu
  rpu : Rpu
  routeLink : Link
  tapLink : Link
deriving DecidableEq, Repr

/-- The static memory: address and byte pairs in canonical form (`Memory.wf`). -/
abbrev Memory := List Host.Cell

/-- The whole machine. -/
structure State where
  chip : Chip
  mem : Memory
  pending : List Instr
deriving DecidableEq, Repr

/-- Why a step stops with a fault. -/
inductive Fault where
  /-- Raised by every command that presents a port access, when the port's earlier access is outstanding: R1 says a port
  presents its next access only after the previous one has ended, and gives no effect otherwise. Safe (log 6). -/
  | portBusy (port : Port)
deriving DecidableEq, Repr

/-- Why a step is refused. -/
inductive Refusal where
  /-- Raised by an arm of exec whose command has no meaning yet. Safe. -/
  | notModelled (mnemonic : String)
deriving DecidableEq, Repr

/-! ### The state after the reset line -/

/-- A port after the reset line. -/
def PortState.reset : PortState := ⟨none, false, none⟩

/-- The reset map (R9): 16 MiB, no tables, no guard regions, CONTROL, TIME and CAUSE for both ports. -/
def RegionMap.reset : RegionMap := ⟨16777216, none, [], 0b10010001, 0b10010001⟩

/-- The LCC after the reset line (R25). -/
def Lcc.reset : Lcc := ⟨.offline, 0, 0, [], [], [], none⟩

/-- No profile has been handed yet. DESIGN CHOICE (log 4): zeros. -/
def Settings.reset : Settings := ⟨0, 0, 0, 0, false, 0, 0, 0, 0, false, 0, 0⟩

/-- The TBU after the reset line (spec/03, its table). -/
def Tbu.reset : Tbu := ⟨0, 0, 0, false, false, none, .disarmed, 0, none⟩

/-- The LUE after the reset line (spec/04, its table). -/
def Lue.reset : Lue := ⟨[], [], .idle, .none, 0, none, 0, [], [], none⟩

/-- The TOE after the reset line (R102). -/
def Toe.reset : Toe := ⟨[], [], [], [], [], 0, false, none⟩

/-- The SLM after the reset line (R120). -/
def Slm.reset : Slm := ⟨[], [], [], 0, false, none, false, none, false, []⟩

/-- The SWE after the reset line (R135). -/
def Swe.reset : Swe := ⟨[], none⟩

/-- The PCU after the reset line (R146, R150). -/
def Pcu.reset : Pcu := ⟨none, ⟨0, .a, .buy, 0, 0, .none⟩, []⟩

/-- The CLU after the reset line (R158). -/
def Clu.reset : Clu := ⟨none, 0, false, false, .none, false⟩

/-- The RPU after the reset line (spec/10, its table): everything mirrored is dirty but the snapshot and the notes. -/
def Rpu.reset : Rpu :=
  ⟨0, 0xFFFF, 0, [], List.replicate 10 0, true, true, true, List.replicate 10 true⟩

/-- A link after the reset line: its receiver hunts (R176). DESIGN CHOICE (log 43): the frames handed to the transmitter are
given up. -/
def Link.reset : Link := ⟨⟨[], 0⟩, []⟩

/-- The part with the reset line asserted. -/
def Chip.reset : Chip where
  resetLow := true
  lines := 0xFFFFFFFF
  portA := .reset
  portB := .reset
  par := ⟨.free, .tau⟩
  tau := ⟨[], none⟩
  map := .reset
  lcc := .reset
  settings := .reset
  tbu := .reset
  lue := .reset
  toe := .reset
  slm := .reset
  swe := .reset
  pcu := .reset
  clu := .reset
  rpu := .reset
  routeLink := .reset
  tapLink := .reset

/-- The machine after the reset line has been asserted, and before it is released (log 3): memory with nothing listed,
an empty queue. -/
def State.reset : State := ⟨.reset, [], []⟩

end Sys2Proof.Machine
end

