-- ==== Sys2Proof/Machine/Operands.lean ====
section
/-! DEFINITION. The layouts of spec/11_memory_formats_and_link_frames.md: where each field stands in a command word, a
profile word, a table record, a log record and a link frame, and the codes of its values. Unused bits are disregarded when
a word is read and written as 0 (R175). -/

namespace Sys2Proof.Machine

/-! ### Fields of a word -/

/-- Bit n of a word. -/
def bit (w : Word) (n : Nat) : Bool := w.getLsbD n

/-- The field of `width` bits whose lowest bit is `lo`. -/
def field (w : Word) (lo width : Nat) : BitVec width := w.extractLsb' lo width

/-- A field read as a number. -/
def fieldNat (w : Word) (lo width : Nat) : Nat := (field w lo width).toNat

/-- A value placed with its lowest bit at `lo`. -/
def place {n : Nat} (v : BitVec n) (lo : Nat) : Word := v.setWidth 32 <<< lo

/-- A flag placed at bit `n`. -/
def flagAt (b : Bool) (n : Nat) : Word := if b then (1 : Word) <<< n else 0

/-! ### Codes -/

/-- The rank of a cause (spec/10, Pending causes). -/
def Cause.rank : Cause → Nat
  | .loadFault => 1
  | .heartbeatExpired => 2
  | .lockBroken => 3
  | .accessRefused => 4
  | .logLow => 5
  | .nodeDown => 6
  | .nodeUp => 7
  | .tapFailed => 8
  | .routeFailed => 9
  | .syncLost => 10
  | .takeDone => 11
  | .purchaseDone => 12
  | .sweepDone => 13
  | .periodClosed => 14
  | .lineEdge => 15
  | .lineOverrun => 16

/-- The place of a refusal kind in the report order (spec/01, Refusals), which is also its code in a note (spec/11). -/
def RefusalKind.order : RefusalKind → Nat
  | .noRight => 1
  | .range => 2
  | .partialWrite => 3
  | .owner => 4
  | .badValue => 5
  | .recordBusy => 6
  | .tableBusy => 7
  | .eventLive => 8
  | .tableLocked => 9
  | .notRunning => 10
  | .notReady => 11
  | .badCommand => 12
  | .noSpace => 13
  | .lockBroken => 14

/-- The place of a counter in the report area, from word 86 (spec/11). -/
def Counter.index : Counter → Nat
  | .refusedAccesses => 0
  | .lockBreaks => 1
  | .heartbeatExpiries => 2
  | .tapFailures => 3
  | .staleTapReplies => 4
  | .staleRouteReplies => 5
  | .tapLineErrors => 6
  | .routeLineErrors => 7
  | .glitches => 8
  | .unrecordedOutages => 9

/-- The block that a job belongs to (R6). -/
def Job.block : Job → Block
  | .autostart | .logClear | .faultSet | .profile _ | .nodeTable _ | .logIndexes => .lcc
  | .mirror | .mapWalk => .lue
  | .tapLink _ | .send | .evaluation | .eventSet | .subscriberWalk => .toe
  | .slmWrite | .outageRead _ | .nextRead | .repair _ => .slm
  | .sweepStart | .sweepStep | .sweepEnd => .swe
  | .purchase => .pcu
  | .release | .close | .logLoad => .clu
  | .report => .rpu

/-- The lifecycle code of CONTROL and of the status word. -/
def Lifecycle.code : Lifecycle → BitVec 3
  | .offline => 0
  | .loading => 1
  | .loadFault => 2
  | .running => 3
  | .stopping => 4
  | .stopped => 5

/-- The heartbeat code. -/
def Heartbeat.code : Heartbeat → BitVec 2
  | .disarmed => 0
  | .armed => 1
  | .paused => 2
  | .expired => 3

/-- The take state code. -/
def TakeState.code : TakeState → BitVec 1
  | .idle => 0
  | .applying => 1

/-- The last take result code. -/
def TakeResult.code : TakeResult → BitVec 2
  | .none => 0
  | .complete => 1
  | .partialTake => 2
  | .cancelled => 3

/-- The purchase result codes. -/
def PurchaseResult.code : PurchaseResult → BitVec 4
  | .none => 0
  | .inProgress => 1
  | .accepted => 2
  | .fallback => 3
  | .timeUnset => 4
  | .badSubscriber => 5
  | .badEntry => 6
  | .notActive => 7
  | .levelOff => 8
  | .window => 9
  | .already => 10
  | .gateBusy => 11
  | .nodeDown => 12
  | .logFull => 13
  | .notPurchased => 14

/-- The op code of a PURCHASE write; 0 and 3 name none. -/
def purchaseOpOfCode (c : BitVec 2) : Option PurchaseOp :=
  if c = 1 then some .buy else if c = 2 then some .cancel else none

/-- The op bit of a PURCHASE read. -/
def PurchaseOp.isCancel : PurchaseOp → Bool
  | .buy => false
  | .cancel => true

/-- The port bit (0 is Port A). -/
def portIsB : Port → Bool
  | .a => false
  | .b => true

/-- The rights codes; 3 names no right. -/
def rightOfCode (c : BitVec 2) : Option Right :=
  if c = 0 then some .none else if c = 1 then some .read else if c = 2 then some .readWrite else none

/-! ### Command words -/

/-- The byte address of a station word (00_scope, Addresses and words). -/
def stationAddr (n : Nat) : Addr := BitVec.ofNat 24 (4 * n)

/-- The access that reads or writes a whole station word. -/
def stationAccess (n : Nat) (write : Bool) (data : Word) (lock : Bool) : Access :=
  ⟨stationAddr n, write, 0xF, data, lock⟩

/-- A HEARTBEAT write: code in the top byte, sequence in the low 16 bits (R43). -/
def heartbeatWord (code : Byte) (sequence : BitVec 16) : Word := place code 24 ||| place sequence 0

/-- A PURCHASE write. -/
def purchaseWord (op : PurchaseOp) (subscriber : BitVec 12) (entry : BitVec 7) : Word :=
  place subscriber 0 ||| place entry 12 ||| place (if op = .buy then (1 : BitVec 2) else 2) 28

/-! ### Channel map entries -/

/-- In use (w0 bit 31). -/
def Entry.inUse (e : Entry) : Bool := bit e.w0 31
/-- Display channel number. -/
def Entry.display (e : Entry) : Nat := fieldNat e.w0 0 10
/-- Kind EVENT. -/
def Entry.kindEvent (e : Entry) : Bool := bit e.w0 12
/-- Fallback flag. -/
def Entry.fallbackFlag (e : Entry) : Bool := bit e.w0 13
/-- Desired source. -/
def Entry.desired (e : Entry) : BitVec 7 := field e.w0 16 7
/-- Event number. -/
def Entry.number (e : Entry) : BitVec 8 := field e.w1 0 8
/-- Event source. -/
def Entry.eventSource (e : Entry) : BitVec 7 := field e.w1 8 7
/-- Price in cents. -/
def Entry.price (e : Entry) : BitVec 16 := field e.w1 16 16
/-- Window start. -/
def Entry.start (e : Entry) : Word := e.w2
/-- Window end. -/
def Entry.finish (e : Entry) : Word := e.w3

/-- In use and not set aside (R51). -/
def Entry.live (e : Entry) : Bool := e.inUse && !e.aside

/-- An in-use EVENT entry that is not set aside. -/
def Entry.event (e : Entry) : Bool := e.live && e.kindEvent

/-- The image with one host-owned word replaced. -/
def Entry.withWord (e : Entry) (word : Nat) (v : Word) : Entry :=
  match word with
  | 0 => { e with w0 := v }
  | 1 => { e with w1 := v }
  | 2 => { e with w2 := v }
  | 3 => { e with w3 := v }
  | _ => e

/-- The route state code of w4. -/
def RouteState.code : RouteState → BitVec 2
  | .settled => 0
  | .pending => 1
  | .inFlight => 2
  | .failed => 3

/-- The class code of w4. -/
def classCode : Option RouteClass → BitVec 2
  | none => 0
  | some .take => 1
  | some .event => 2
  | some .fallback => 3

/-- The phase code of w4. -/
def phaseCode : Option Phase → BitVec 3
  | none => 0
  | some .before => 1
  | some .inside => 2
  | some .after => 3
  | some .closing => 4

/-- w4 as the part writes it. -/
def Entry.w4 (e : Entry) : Word :=
  place e.applied 0 ||| place e.route.code 8 ||| place (classCode e.cls) 10 ||| place (phaseCode e.phase) 12 |||
    place e.attempts 16 ||| flagAt e.unset 20 ||| flagAt e.unlocked 21

/-! ### Subscriber records -/

/-- In use (w0 bit 31). -/
def subInUse (w0 : Word) : Bool := bit w0 31
/-- Tap address. -/
def subTapAddress (w0 : Word) : BitVec 20 := field w0 0 20
/-- Tap port. -/
def subTapPort (w0 : Word) : BitVec 2 := field w0 20 2
/-- Node. -/
def subNode (w0 : Word) : Nat := fieldNat w0 24 5
/-- Desired level. -/
def subDesired (w1 : Word) : BitVec 2 := field w1 0 2
/-- Account state; 0 is ACTIVE, 3 names none. -/
def subAccount (w1 : Word) : BitVec 2 := field w1 4 2
/-- Gate demand. -/
def subDemand (w3 : Word) : BitVec 8 := field w3 0 8
/-- Delivered flag. -/
def subDelivered (w3 : Word) : Bool := bit w3 8

/-- w3 as the part writes it. -/
def subW3 (demand : BitVec 8) (delivered : Bool) : Word := place demand 0 ||| flagAt delivered 8

/-- The order state code of w2. -/
def OrderState.code : OrderState → BitVec 3
  | .idle => 0
  | .queued => 1
  | .inFlight => 2
  | .held => 3
  | .deferred => 4
  | .failed => 5

/-- The order state read from its code; 6 and 7 are read as IDLE (R175). -/
def orderStateOfCode (c : BitVec 3) : OrderState :=
  if c = 1 then .queued else if c = 2 then .inFlight else if c = 3 then .held else if c = 4 then .deferred
  else if c = 5 then .failed else .idle

/-- The fields of w2. -/
structure TapStatus where
  level : BitVec 2
  gate : Bool
  order : OrderState
  /-- 0 NONE, 1 CONFIRMED, 2 UNCONFIRMED, 3 NO_CHANGE, 4 NO_REPLY, 5 MISMATCH. -/
  result : BitVec 3
  attempts : BitVec 4
  lowSignal : Bool
  unset : Bool
  unlocked : Bool
deriving DecidableEq, Repr

/-- w2 read. -/
def tapStatusOf (w2 : Word) : TapStatus where
  level := field w2 0 2
  gate := bit w2 2
  order := orderStateOfCode (field w2 4 3)
  result := field w2 8 3
  attempts := field w2 12 4
  lowSignal := bit w2 16
  unset := bit w2 20
  unlocked := bit w2 21

/-- w2 as the part writes it. -/
def TapStatus.word (t : TapStatus) : Word :=
  place t.level 0 ||| flagAt t.gate 2 ||| place t.order.code 4 ||| place t.result 8 ||| place t.attempts 12 |||
    flagAt t.lowSignal 16 ||| flagAt t.unset 20 ||| flagAt t.unlocked 21

/-! ### Node table -/

/-- In use (w0 bit 31). -/
def nodeInUse (w0 : Word) : Bool := bit w0 31
/-- Polarity CLOSED_FAULT. -/
def nodeClosedFault (w0 : Word) : Bool := bit w0 0
/-- Onset filter class. -/
def nodeOnsetClass (w0 : Word) : BitVec 3 := field w0 4 3
/-- Clear hold class. -/
def nodeHoldClass (w0 : Word) : BitVec 3 := field w0 8 3
/-- One-way flag. -/
def nodeOneWay (w0 : Word) : Bool := bit w0 12
/-- Report rising edges. -/
def nodeRising (w0 : Word) : Bool := bit w0 16
/-- Report falling edges. -/
def nodeFalling (w0 : Word) : Bool := bit w0 17

/-- The node state code of w1. -/
def NodeState.code : NodeState → BitVec 2
  | .up => 0
  | .onset => 1
  | .down => 2
  | .clearing => 3

/-- Node w1 as the part writes it. -/
def Node.w1 (n : Node) : Word :=
  place n.state.code 0 ||| flagAt n.change.unset 4 ||| flagAt n.change.unlocked 5 ||| place n.outage 16

/-! ### Outage records -/

/-- Outage w0 as the part writes it from a slot of the image. -/
def Slot.w0 (s : Slot) : Word :=
  place s.number 0 ||| place s.node 16 ||| flagAt (s.status = .opened) 24 |||
    flagAt (s.status = .closed || s.status = .swept) 25 ||| flagAt s.interrupted 26 |||
    flagAt (s.status = .swept) 27 ||| flagAt s.unlocked 28 ||| flagAt s.unset 29

/-- Outage w3: duration and sweep progress. -/
def outageW3 (duration progress : Nat) : Word :=
  place (BitVec.ofNat 19 duration) 0 ||| place (BitVec.ofNat 13 progress) 19

/-- Outage number of w0. -/
def outageNumber (w0 : Word) : BitVec 16 := field w0 0 16
/-- Node of w0. -/
def outageNode (w0 : Word) : BitVec 5 := field w0 16 5
/-- OPEN. -/
def outageOpen (w0 : Word) : Bool := bit w0 24
/-- CLOSED. -/
def outageClosed (w0 : Word) : Bool := bit w0 25
/-- SWEPT. -/
def outageSwept (w0 : Word) : Bool := bit w0 27

/-! ### Charge log records -/

/-- The four words of a charge log record. -/
structure LogRecord where
  w0 : Word
  w1 : Word
  w2 : Word
  w3 : Word
deriving DecidableEq, Repr

/-- The first two words of every record (R157): kind, stamp flags, subject, wall time. -/
def logRecord (kind : BitVec 4) (stamp : Stamp) (subject : BitVec 16) (w2 w3 : Word) : LogRecord :=
  ⟨place kind 0 ||| flagAt stamp.unset 4 ||| flagAt stamp.unlocked 5 ||| place subject 16, stamp.wall, w2, w3⟩

/-- LEVEL: result 1 CONFIRMED, 2 UNCONFIRMED, 3 REPORTED. -/
def levelRecord (stamp : Stamp) (subscriber : Nat) (old new : BitVec 2) (result : BitVec 2) : LogRecord :=
  logRecord 1 stamp (BitVec.ofNat 16 subscriber) (place old 0 ||| place new 8) (place result 0)

/-- PURCHASE. -/
def purchaseLogRecord (stamp : Stamp) (subscriber : Nat) (event : BitVec 8) (entry : BitVec 7) (price : BitVec 16) :
    LogRecord :=
  logRecord 2 stamp (BitVec.ofNat 16 subscriber) (place event 0 ||| place entry 8) (place price 0)

/-- REFUND: reason 1 CANCELLED, 2 GATE_FAILED, 3 NOT_DELIVERED. -/
def refundRecord (stamp : Stamp) (subscriber : Nat) (event : BitVec 8) (reason : BitVec 2) (price : BitVec 16) :
    LogRecord :=
  logRecord 3 stamp (BitVec.ofNat 16 subscriber) (place event 0 ||| place reason 8) (place price 0)

/-- CREDIT. -/
def creditRecord (stamp : Stamp) (subscriber : Nat) (outage : BitVec 16) (node : Nat) (minutes : Nat) : LogRecord :=
  logRecord 4 stamp (BitVec.ofNat 16 subscriber) (place outage 0 ||| place (BitVec.ofNat 5 node) 16)
    (place (BitVec.ofNat 16 minutes) 0)

/-- PERIOD. -/
def periodRecord (stamp : Stamp) (period : BitVec 16) (count digest : Word) : LogRecord :=
  logRecord 5 stamp period count digest

/-- The four bytes of a word, least significant first (R156). -/
def wordBytes (w : Word) : List Byte := [field w 0 8, field w 8 8, field w 16 8, field w 24 8]

/-- The sixteen bytes of a record in address order (R156). -/
def LogRecord.bytes (r : LogRecord) : List Byte := wordBytes r.w0 ++ wordBytes r.w1 ++ wordBytes r.w2 ++ wordBytes r.w3

/-! ### Link frames -/

/-- The sum of bytes modulo 256. -/
def byteSum (bs : List Byte) : Byte := bs.foldl (· + ·) 0

/-- A frame closed with its check byte, the two's complement of the sum of the bytes before it (spec/11, Link frames). -/
def closeFrame (bs : List Byte) : List Byte := bs ++ [-(byteSum bs)]

/-- A route order frame. -/
def routeFrame (slot : Nat) (source : BitVec 7) (tag : BitVec 3) : List Byte :=
  closeFrame [0xE1, BitVec.ofNat 8 slot, source.setWidth 8, tag.setWidth 8]

/-- A tap order frame. -/
def tapFrame (address : BitVec 20) (port : BitVec 2) (level : BitVec 2) (gate : Bool) (tag : BitVec 4) : List Byte :=
  closeFrame
    [0xD1, address.extractLsb' 0 8, address.extractLsb' 8 8,
      (address.extractLsb' 16 4).setWidth 8 ||| (port.setWidth 8 <<< 4),
      level.setWidth 8 ||| (if gate then 4 else 0) ||| (tag.setWidth 8 <<< 4)]

/-- The results of a route reply (spec/04, The route link). -/
inductive RouteResult where
  | done
  | noSource
  | slotFault
deriving DecidableEq, Repr

/-- A route reply read from a good frame. -/
structure RouteReply where
  slot : Nat
  tag : BitVec 3
  result : RouteResult
deriving DecidableEq, Repr

/-- The route result code; 3 is unlisted. -/
def routeResultOfCode (c : BitVec 2) : Option RouteResult :=
  if c = 0 then some .done else if c = 1 then some .noSource else if c = 2 then some .slotFault else none

/-- A complete route reply frame: none where its sum fails or its result is unlisted (R176). -/
def parseRouteReply : List Byte → Option RouteReply
  | [b0, b1, b2, b3] =>
    if byteSum [b0, b1, b2, b3] = 0 then
      (routeResultOfCode (b2.extractLsb' 4 2)).map fun r => ⟨b1.toNat, b2.extractLsb' 0 3, r⟩
    else none
  | _ => none

/-- A tap reply read from a good frame. -/
structure TapReply where
  address : BitVec 20
  port : BitVec 2
  tag : BitVec 4
  report : TapReport
deriving DecidableEq, Repr

/-- A complete tap reply frame: none where its sum fails, or its gate or health is unlisted (R176). -/
def parseTapReply : List Byte → Option TapReply
  | [b0, b1, b2, b3, b4, b5, b6] =>
    let gate : BitVec 2 := b5.extractLsb' 2 2
    let health : BitVec 2 := b5.extractLsb' 4 2
    if byteSum [b0, b1, b2, b3, b4, b5, b6] = 0 ∧ gate.toNat < 2 ∧ health.toNat < 2 then
      some ⟨(b3.extractLsb' 0 4 ++ b2 ++ b1 : BitVec 20), b3.extractLsb' 4 2, b4.extractLsb' 0 4,
        ⟨b5.extractLsb' 0 2, gate == 1, health == 1⟩⟩
    else none
  | _ => none

end Sys2Proof.Machine
end

