-- ==== Sys2Proof/Machine/Flags.lean ====
section
/-! DEFINITION. The flags of the part: pending causes and the interrupt line, the status word, counters, refusal notes,
stamps (spec/10_reporting.md, R41). -/

namespace Sys2Proof.Machine

/-! ### Pending causes and the interrupt line -/

/-- The bit of a cause in the pending set, the mask and the pending-cause copy. -/
def Cause.mask (k : Cause) : BitVec 16 := 1 <<< (k.rank - 1)

/-- A kind joins the pending set if it is absent; a change marks the copy dirty (R169). -/
def Rpu.raise (r : Rpu) (k : Cause) : Rpu :=
  if r.causes.getLsbD (k.rank - 1) then r else { r with causes := r.causes ||| k.mask, copyDirty := true }

/-- A kind leaves the pending set (R170). -/
def Rpu.drop (r : Rpu) (k : Cause) : Rpu := { r with causes := r.causes &&& ~~~k.mask, copyDirty := true }

/-- A kind is pending. -/
def Rpu.isPending (r : Rpu) (k : Cause) : Bool := r.causes.getLsbD (k.rank - 1)

/-- All kinds, highest rank first. -/
def allCauses : List Cause :=
  [.loadFault, .heartbeatExpired, .lockBroken, .accessRefused, .logLow, .nodeDown, .nodeUp, .tapFailed, .routeFailed,
    .syncLost, .takeDone, .purchaseDone, .sweepDone, .periodClosed, .lineEdge, .lineOverrun]

/-- The kind a CAUSE read returns: the highest ranked one pending, whatever the mask holds (R170). -/
def Rpu.highest (r : Rpu) : Option Cause := allCauses.find? r.isPending

/-- What a CAUSE read answers: the rank, and MORE if another kind remains (R170, spec/11). DESIGN CHOICE (log 42): the
unused bits answer 0. -/
def Rpu.causeWord (r : Rpu) : Word :=
  match r.highest with
  | none => 0
  | some k => place (BitVec.ofNat 5 k.rank) 0 ||| flagAt ((r.drop k).causes != 0) 8

/-- What a CAUSE read leaves (R170). -/
def Rpu.afterCauseRead (r : Rpu) : Rpu :=
  match r.highest with
  | none => r
  | some k => r.drop k

/-- Make a cause pending. -/
def Chip.raise (k : Cause) (c : Chip) : Chip := { c with rpu := c.rpu.raise k }

/-- The interrupt line is asserted while a pending kind is in the enable mask (R171). -/
def Chip.interrupt (c : Chip) : Bool := (c.rpu.causes &&& c.rpu.mask) != 0

/-! ### The status word -/

/-- A change of a status field marks the status word dirty (R168). -/
def Chip.markStatus (c : Chip) : Chip := { c with rpu := { c.rpu with statusDirty := true } }

/-- Fallback is in force exactly while the heartbeat is EXPIRED (R49). -/
def Chip.fallback (c : Chip) : Bool := c.tbu.heartbeat = .expired

/-- The status image as report word 80 lays it out (R168, spec/11). -/
def Chip.statusWord (c : Chip) : Word :=
  place c.lcc.lifecycle.code 0 ||| place (BitVec.ofNat 3 c.lcc.phase) 4 ||| place c.tbu.heartbeat.code 8 |||
    flagAt c.tbu.set 10 ||| flagAt c.tbu.locked 11 ||| place c.lue.take.code 12 ||| flagAt c.clu.low 13 |||
    flagAt c.toe.blocked 14 ||| flagAt c.swe.work.isSome 15

/-- The status word is marked dirty if a field differs from what it was before. -/
def Chip.marking (before c : Chip) : Chip := if c.statusWord = before.statusWord then c else c.markStatus

/-! ### Counters -/

/-- One increment, wrapping at 2^32 (R174). -/
def Rpu.increment (r : Rpu) (k : Counter) : Rpu :=
  { r with
    counters := r.counters.modify k.index (· + 1)
    counterDirty := r.counterDirty.modify k.index fun _ => true }

/-- Hand the RPU one increment. -/
def Chip.count (k : Counter) (c : Chip) : Chip := { c with rpu := c.rpu.increment k }

/-- The value of a counter. -/
def Rpu.counter (r : Rpu) (k : Counter) : Word := r.counters.getD k.index 0

/-! ### Refusal notes -/

/-- The ring entry of a note. -/
def ringEntry (number : Word) : Nat := number.toNat % Config.ringSize

/-- A note is entered: it takes the ring entry given by the note count, replacing an earlier note still unwritten there
(R173). -/
def Rpu.enter (r : Rpu) (kind : RefusalKind) (port : Port) (addr : Addr) (wall : Word) (mono : Tick) : Rpu :=
  { r with
    notes := (r.notes.filter fun n => ringEntry n.number != ringEntry r.noteCount) ++
      [⟨r.noteCount, kind, port, addr, wall, mono⟩]
    noteCount := r.noteCount + 1
    countDirty := true }

/-- A refused access: the note, the counter, and the cause (R17). -/
def Chip.noteRefusal (kind : RefusalKind) (port : Port) (addr : Addr) (c : Chip) : Chip :=
  Chip.raise (if kind = .lockBroken then .lockBroken else .accessRefused)
    (Chip.count .refusedAccesses { c with rpu := c.rpu.enter kind port addr c.tbu.wall c.tbu.mono })

/-! ### Stamps -/

/-- A stamp of the moment (R41). -/
def Chip.stamp (c : Chip) : Stamp := ⟨c.tbu.wall, !c.tbu.set, !c.tbu.locked⟩

end Sys2Proof.Machine
end

