-- ==== Sys2Proof/Machine/Ops.lean ====
section
/-! DEFINITION. The named operations over memory, ports, regions and the Table Access Unit that every block uses
(spec/01_the_memory_path.md; R152 for free space). -/

namespace Sys2Proof.Machine

/-! ### Memory -/

/-- The byte at an address; an unlisted address reads as `Config.blankByte`. -/
def Memory.readByte : Memory → Nat → Byte
  | [], _ => Config.blankByte
  | (k, v) :: rest, a => if k = a then v else Memory.readByte rest a

/-- Write a byte, keeping the canonical form. -/
def Memory.writeByte : Memory → Nat → Byte → Memory
  | [], a, v => if v = Config.blankByte then [] else [(a, v)]
  | (k, x) :: rest, a, v =>
    if a < k then
      if v = Config.blankByte then (k, x) :: rest else (a, v) :: (k, x) :: rest
    else if a = k then
      if v = Config.blankByte then rest else (k, v) :: rest
    else (k, x) :: Memory.writeByte rest a v

/-- The canonical form: addresses strictly rising and below 2^24, no entry equal to what an unlisted address reads as. -/
def Memory.wf : Memory → Bool
  | [] => true
  | (k, v) :: rest => decide (k < 16777216) && (v != Config.blankByte) && rest.all (fun e => decide (k < e.1)) &&
      Memory.wf rest

/-- The address of the word that holds a byte address: its two lowest bits disregarded (R10). -/
def wordAddr (a : Addr) : Addr := a &&& 0xFFFFFC

/-- The word at a word address; byte 0 lies at the word's address (00_scope, Addresses and words). -/
def Memory.readWord (m : Memory) (a : Addr) : Word :=
  m.readByte (a + 3).toNat ++ m.readByte (a + 2).toNat ++ m.readByte (a + 1).toNat ++ m.readByte a.toNat

/-- Write one byte of a word if its enable is set. -/
def Memory.writeLane (m : Memory) (a : Addr) (enables : BitVec 4) (data : Word) (lane : Nat) : Memory :=
  if enables.getLsbD lane then m.writeByte (a + BitVec.ofNat 24 lane).toNat (field data (8 * lane) 8) else m

/-- A write stores the bytes whose enables are set and leaves the others (R1). -/
def Memory.writeEnabled (m : Memory) (a : Addr) (enables : BitVec 4) (data : Word) : Memory :=
  (((m.writeLane a enables data 0).writeLane a enables data 1).writeLane a enables data 2).writeLane a enables data 3

/-- Write a whole word. -/
def Memory.writeWord (m : Memory) (a : Addr) (v : Word) : Memory := m.writeEnabled a 0xF v

/-- The writes of a tenure, in order. -/
def Memory.applyWrites (m : Memory) (ws : List (Addr × Word)) : Memory :=
  ws.foldl (fun m w => m.writeWord w.1 w.2) m

/-! ### Addresses of the tables and of the report area -/

/-- The bytes of a record of a table (spec/01, The region map). -/
def Table.recordSize : Table → Nat
  | .channelMap => 32
  | .subscribers => 32
  | .nodes => 16
  | .outages => 16
  | .chargeLog => 16

/-- Where the installed map places a table. -/
def Tables.at (t : Tables) : Table → Placement
  | .channelMap => t.channelMap
  | .subscribers => t.subscribers
  | .nodes => t.nodes
  | .outages => t.outages
  | .chargeLog => t.chargeLog

/-- The placement of a table in the installed map; a map with no tables places nothing (log 33). -/
def Chip.placement (c : Chip) (t : Table) : Placement :=
  match c.map.tables with
  | some ts => ts.at t
  | none => ⟨0, 0, .none, .none⟩

/-- The address of a word of a record. -/
def Chip.recordAddr (c : Chip) (t : Table) (index word : Nat) : Addr :=
  BitVec.ofNat 24 ((c.placement t).base + t.recordSize * index + 4 * word)

/-- A word of a record as memory holds it. -/
def Chip.recordWord (c : Chip) (m : Memory) (t : Table) (index word : Nat) : Word :=
  m.readWord (c.recordAddr t index word)

/-- The subscriber count of the profile. -/
def Chip.subscriberCount (c : Chip) : Nat := (c.placement .subscribers).count

/-! ### Ports -/

/-- The claimant of a port. -/
def Port.claimant : Port → Claimant
  | .a => .portA
  | .b => .portB

/-- The state of a port. -/
def Chip.port (c : Chip) : Port → PortState
  | .a => c.portA
  | .b => c.portB

/-- Replace the state of a port. -/
def Chip.withPort (c : Chip) (p : Port) (s : PortState) : Chip :=
  match p with
  | .a => { c with portA := s }
  | .b => { c with portB := s }

/-- The port has an access in the waiting condition (R3). -/
def PortState.waiting (s : PortState) : Bool :=
  match s.out with
  | some o => o.condition = .waiting
  | none => false

/-- The access of a port ends with READY, ERROR and data; an unlocked tenure ends with it (R1, R4). -/
def Chip.endAccess (p : Port) (error : Bool) (data : Word) (c : Chip) : Chip :=
  let c1 := c.withPort p { c.port p with out := none, answer := some ⟨error, data⟩ }
  match c1.par.holder with
  | .host q false _ => if q = p then { c1 with par := { c1.par with holder := .free } } else c1
  | _ => c1

/-! ### Free space -/

/-- Occupancy: the write index less the release index (R151). -/
def LogCopy.occupancy (l : LogCopy) : Nat := (l.write - l.release).toNat

/-- The log capacity in force. -/
def Chip.capacity (c : Chip) : Nat := (c.placement .chargeLog).count

/-- Free space is the capacity less the occupancy less the reservation count (R152); 0 while the copy is not loaded. -/
def Chip.free (c : Chip) : Nat :=
  match c.clu.copy with
  | some l => c.capacity - l.occupancy - c.clu.reserved
  | none => 0

/-! ### Tenures -/

/-- The batch with a job taken out; an empty batch leaves the order. -/
def takeOut (j : Job) (batch : List Job) (rest : List (List Job)) : List (List Job) :=
  if batch.erase j = [] then rest else batch.erase j :: rest

/-- The grant of a TAU tenure (R3, R6): the TAU holds the memory port, runs nothing yet, and a job that `pick` names is
among its oldest requests. Answers the job and the part with that tenure running; a tenure that is not granted does not
happen (log 5, 7). -/
def Chip.grant (pick : Job → Bool) (c : Chip) : Option (Job × Chip) :=
  if c.resetLow = false ∧ c.par.holder = .tau ∧ c.tau.running = none then
    match c.tau.orders with
    | [] => none
    | batch :: rest =>
      match batch.find? pick with
      | none => none
      | some j => some (j, { c with tau := ⟨takeOut j batch rest, some ⟨j, [], [], c.free⟩⟩ })
  else none

/-- Add a write to the running tenure; writes are made in the order they are added (R6). -/
def Chip.write (a : Addr) (v : Word) (c : Chip) : Chip :=
  { c with tau := { c.tau with running := c.tau.running.map fun t => { t with writes := t.writes ++ [(a, v)] } } }

/-- Write a word of a record in the running tenure. -/
def Chip.writeRecord (t : Table) (index word : Nat) (v : Word) (c : Chip) : Chip :=
  c.write (c.recordAddr t index word) v

/-- Write a station word in the running tenure. -/
def Chip.writeStation (n : Nat) (v : Word) (c : Chip) : Chip := c.write (stationAddr n) v

/-- Owe something to the end of the running tenure. -/
def Chip.owe (o : Owed) (c : Chip) : Chip :=
  { c with tau := { c.tau with running := c.tau.running.map fun t => { t with owed := t.owed ++ [o] } } }

/-- The low state as free space gives it, once the copy is loaded (R161). -/
def Chip.findLow (c : Chip) : Chip :=
  match c.clu.copy with
  | none => c
  | some _ =>
    let low := decide (c.free < c.settings.reserve + 2)
    if low = c.clu.low then c else Chip.markStatus { c with clu := { c.clu with low := low } }

/-- The low state is tested at a change of free space; entering it owes LOG_LOW to the end of the running tenure (R161). -/
def Chip.testLow (c : Chip) : Chip :=
  if c.findLow.clu.low && !c.clu.low then c.findLow.owe (.cause .logLow) else c.findLow

/-- What every grant ends with: the low state (R161), and the space notice owed when the tenure raises free space from 0
(R160). -/
def Chip.closeGrant (c : Chip) : Chip :=
  let c1 := c.testLow
  match c1.tau.running with
  | some t => if t.freeAtGrant = 0 ∧ 0 < c1.free then c1.owe .space else c1
  | none => c1

/-- A block has a tenure request at the TAU, or its tenure runs (R6). -/
def Chip.outstanding (c : Chip) (b : Block) : Bool :=
  c.tau.orders.any (fun batch => batch.any fun j => j.block = b) ||
    (match c.tau.running with
      | some t => decide (t.job.block = b)
      | none => false)

/-- The word at an address as the running tenure will leave it. -/
def Chip.peek (c : Chip) (m : Memory) (a : Addr) : Word :=
  match c.tau.running with
  | none => m.readWord a
  | some t =>
    match t.writes.reverse.find? fun w => w.1 = a with
    | some w => w.2
    | none => m.readWord a

/-! ### Lists -/

/-- Insert a number into a strictly rising list. -/
def insertNat (n : Nat) : List Nat → List Nat
  | [] => [n]
  | k :: rest => if n < k then n :: k :: rest else if n = k then k :: rest else k :: insertNat n rest

/-- The part is RUNNING or STOPPING. -/
def Chip.working (c : Chip) : Bool := c.lcc.lifecycle = .running || c.lcc.lifecycle = .stopping

end Sys2Proof.Machine
end

