-- ==== Sys2Proof/Machine/Profile.lean ====
section
/-! DEFINITION. The profile (spec/02, The profile; layout spec/11): its fields, the tests of load phase 1, the map and the
settings built from it (R27 to R29). -/

namespace Sys2Proof.Machine

/-! ### Load faults (R27 to R30; bits as report word 81) -/

/-- The load faults. -/
inductive LoadFault where
  | signature
  | regionOverlap
  | regionRange
  | countRange
  | timingRange
  | attempts
  | fallbackSource
  | guardRegion
  | reserve
  | nodeTable
  | logState
deriving DecidableEq, Repr

/-- The bit of a load fault in report word 81. -/
def LoadFault.bitIndex : LoadFault → Nat
  | .signature => 0
  | .regionOverlap => 1
  | .regionRange => 2
  | .countRange => 3
  | .timingRange => 4
  | .attempts => 5
  | .fallbackSource => 6
  | .guardRegion => 7
  | .reserve => 8
  | .nodeTable => 9
  | .logState => 10

/-- The set that holds one fault, or none. -/
def LoadFault.setIf (f : LoadFault) (failed : Bool) : BitVec 11 := if failed then 1 <<< f.bitIndex else 0

/-! ### Fields -/

/-- A profile as the LCC has read it: words 0 to 63. -/
abbrev Profile := List Word

/-- Word n of a profile. -/
def Profile.word (p : Profile) (n : Nat) : Word := p.getD n 0

/-- A numeric field of word n. -/
def Profile.num (p : Profile) (n lo width : Nat) : Nat := fieldNat (p.word n) lo width

/-- Memory size in MiB. -/
def Profile.mebibytes (p : Profile) : Nat := p.num 1 8 5

/-- The memory size is valid. -/
def Profile.sizeValid (p : Profile) : Bool := decide (1 ≤ p.mebibytes) && decide (p.mebibytes ≤ 16)

/-- The memory size used by the region and guard tests: an invalid one is replaced by 16 MiB (R27). -/
def Profile.testSize (p : Profile) : Nat := 1048576 * (if p.sizeValid then p.mebibytes else 16)

/-- The base of a table. -/
def Profile.base (p : Profile) : Table → Nat
  | .channelMap => p.num 2 0 24
  | .subscribers => p.num 3 0 24
  | .nodes => p.num 5 0 24
  | .outages => p.num 6 0 24
  | .chargeLog => p.num 7 0 24

/-- The count of a table; the node table and the outage list are fixed. -/
def Profile.count (p : Profile) : Table → Nat
  | .channelMap => p.num 2 24 8
  | .subscribers => p.num 4 0 13
  | .nodes => 32
  | .outages => 64
  | .chargeLog => p.num 8 0 16

/-- The capacities of the charge log: the powers of two from 256 to 32,768. -/
def capacities : List Nat := [256, 512, 1024, 2048, 4096, 8192, 16384, 32768]

/-- The count of a table lies in its range. -/
def Profile.countValid (p : Profile) : Table → Bool
  | .channelMap => decide (1 ≤ p.count .channelMap) && decide (p.count .channelMap ≤ 96)
  | .subscribers => decide (1 ≤ p.count .subscribers) && decide (p.count .subscribers ≤ 4096)
  | .nodes => true
  | .outages => true
  | .chargeLog => capacities.contains (p.count .chargeLog)

/-- The lowest bit of a table's rights in word 9. -/
def Table.rightsBit : Table → Nat
  | .channelMap => 0
  | .subscribers => 4
  | .nodes => 8
  | .outages => 12
  | .chargeLog => 16

/-- The rights code of a port to a table. -/
def Profile.rightCode (p : Profile) (t : Table) (port : Port) : BitVec 2 :=
  field (p.word 9) (t.rightsBit + (if port = .a then 0 else 2)) 2

/-- All tables. -/
def allTables : List Table := [.channelMap, .subscribers, .nodes, .outages, .chargeLog]

/-- Minimum attempts. -/
def Profile.minAttempts (p : Profile) : Nat := p.num 27 8 4
/-- Maximum attempts. -/
def Profile.maxAttempts (p : Profile) : Nat := p.num 27 12 4
/-- Purchase reserve. -/
def Profile.reserve (p : Profile) : Nat := p.num 30 0 11

/-- A value lies in a range, both ends included. -/
def within (lo hi n : Nat) : Bool := decide (lo ≤ n) && decide (n ≤ hi)

/-! ### Guard regions -/

/-- Guard g is enabled. -/
def Profile.guardOn (p : Profile) (g : Nat) : Bool := bit (p.word (10 + 2 * g)) 31
/-- Base of guard g in bytes. -/
def Profile.guardBase (p : Profile) (g : Nat) : Nat := 4096 * p.num (10 + 2 * g) 0 12
/-- Size of guard g in bytes. -/
def Profile.guardSize (p : Profile) (g : Nat) : Nat := 4096 * p.num (11 + 2 * g) 0 13
/-- The rights code of a port to guard g. -/
def Profile.guardCode (p : Profile) (g : Nat) (port : Port) : BitVec 2 :=
  field (p.word (11 + 2 * g)) (if port = .a then 16 else 18) 2

/-! ### Placement tests (R28) -/

/-- Two extents share a byte. -/
def overlaps (base1 size1 base2 size2 : Nat) : Bool :=
  decide (base1 < base2 + size2) && decide (base2 < base1 + size1) && decide (0 < size1) && decide (0 < size2)

/-- The extent of a table in bytes. -/
def Profile.extent (p : Profile) (t : Table) : Nat := t.recordSize * p.count t

/-- The tables that take part in the region tests: those whose count has not failed (R27). -/
def Profile.placedTables (p : Profile) : List Table := allTables.filter fun t => p.countValid t

/-- The base field of a table is outside its range, the multiples of the record size (R27, R28). -/
def Profile.misaligned (p : Profile) (t : Table) : Bool := decide (p.base t % t.recordSize ≠ 0)

/-- A table region begins below the station block's end or ends beyond the memory size (R28). -/
def Profile.misplaced (p : Profile) (t : Table) : Bool :=
  decide (p.base t < 0x400) || decide (p.testSize < p.base t + p.extent t)

/-- Two table regions share a byte. -/
def Profile.tablesOverlap (p : Profile) (s t : Table) : Bool :=
  s != t && overlaps (p.base s) (p.extent s) (p.base t) (p.extent t)

/-- An enabled guard region fails. -/
def Profile.guardFails (p : Profile) (g : Nat) : Bool :=
  p.guardOn g &&
    (decide (p.guardSize g = 0) || decide (p.testSize < p.guardBase g + p.guardSize g) || decide (p.guardBase g = 0) ||
      p.placedTables.any (fun t => overlaps (p.guardBase g) (p.guardSize g) (p.base t) (p.extent t)) ||
      (List.range 8).any (fun h => h != g && p.guardOn h &&
        overlaps (p.guardBase g) (p.guardSize g) (p.guardBase h) (p.guardSize h)) ||
      p.guardCode g .a = 3 || p.guardCode g .b = 3)

/-! ### The tests of phase 1 (R27, R28) -/

/-- COUNT_RANGE. -/
def Profile.countFails (p : Profile) : Bool :=
  !p.sizeValid || allTables.any (fun t => !p.countValid t) || !within 1 8 p.minAttempts || !within 1 8 p.maxAttempts ||
    !within 1 4 (p.num 27 16 3) || !within 1 4 (p.num 28 8 3)

/-- ATTEMPTS, tested only when both counts lie in 1 to 8. -/
def Profile.attemptsFail (p : Profile) : Bool :=
  within 1 8 p.minAttempts && within 1 8 p.maxAttempts && decide (p.maxAttempts < p.minAttempts)

/-- TIMING_RANGE. -/
def Profile.timingFails (p : Profile) : Bool :=
  !within 10 200 (p.num 27 0 8) || !within 10 100 (p.num 28 0 8) || decide (p.num 29 0 8 = 0) ||
    decide (1440 < p.num 30 16 11)

/-- RESERVE; the half-capacity limit is tested only when the capacity is valid. -/
def Profile.reserveFails (p : Profile) : Bool :=
  decide (1024 < p.reserve) || (p.countValid .chargeLog && decide (p.count .chargeLog ≤ 2 * p.reserve))

/-- REGION_RANGE: a base or a rights code outside its field's range, tested for every table, or a placement that fails (log
37). -/
def Profile.regionFails (p : Profile) : Bool :=
  allTables.any (fun t => p.misaligned t || p.rightCode t .a = 3 || p.rightCode t .b = 3) ||
    p.placedTables.any fun t => p.misplaced t

/-- The faults of the fields and regions. -/
def Profile.fieldFaults (p : Profile) : BitVec 11 :=
  LoadFault.regionOverlap.setIf (p.placedTables.any fun s => p.placedTables.any fun t => p.tablesOverlap s t) |||
    LoadFault.regionRange.setIf p.regionFails ||| LoadFault.countRange.setIf p.countFails |||
    LoadFault.timingRange.setIf p.timingFails ||| LoadFault.attempts.setIf p.attemptsFail |||
    LoadFault.fallbackSource.setIf (!within 1 64 (p.num 28 16 7)) |||
    LoadFault.guardRegion.setIf ((List.range 8).any fun g => p.guardFails g) |||
    LoadFault.reserve.setIf p.reserveFails

/-- The load fault set of phase 1: a bad signature alone, or every failing field (R27). -/
def Profile.faults (p : Profile) : BitVec 11 :=
  if p.word 0 = Config.signature then p.fieldFaults else LoadFault.signature.setIf true

/-! ### What a fault-free profile gives (R9, R29, R35) -/

/-- The right that a code names; the tests leave no code 3. -/
def rightOf (code : BitVec 2) : Right := (rightOfCode code).getD .none

/-- A table region. -/
def Profile.placement (p : Profile) (t : Table) : Placement :=
  ⟨p.base t, p.count t, rightOf (p.rightCode t .a), rightOf (p.rightCode t .b)⟩

/-- The map built from the profile. -/
def Profile.map (p : Profile) : RegionMap where
  memSize := 1048576 * p.mebibytes
  tables := some ⟨p.placement .channelMap, p.placement .subscribers, p.placement .nodes, p.placement .outages,
    p.placement .chargeLog⟩
  guards := ((List.range 8).filter fun g => p.guardOn g).map fun g =>
    ⟨p.guardBase g, p.guardSize g, rightOf (p.guardCode g .a), rightOf (p.guardCode g .b)⟩
  permitA := field (p.word 26) 0 8
  permitB := field (p.word 26) 8 8

/-- The fields handed to the blocks, intervals converted to units of 10 ms. -/
def Profile.settings (p : Profile) : Settings where
  tapTimeout := BitVec.ofNat 32 (p.num 27 0 8)
  minAttempts := p.minAttempts
  maxAttempts := p.maxAttempts
  window := p.num 27 16 3
  restoreReassert := bit (p.word 27) 20
  routeTimeout := BitVec.ofNat 32 (p.num 28 0 8)
  routeAttempts := p.num 28 8 3
  fallbackSource := field (p.word 28) 16 7
  heartbeatPeriod := BitVec.ofNat 32 (100 * p.num 29 0 8)
  freeze := !bit (p.word 29) 8
  reserve := p.reserve
  threshold := p.num 30 16 11

/-- The cause enable mask of the profile (R171). -/
def Profile.mask (p : Profile) : BitVec 16 := field (p.word 31) 0 16

end Sys2Proof.Machine
end

