-- ==== Sys2Proof/Machine/ChargeLog.lean ====
section
/-! DEFINITION. The Charge Log Unit (spec/09_the_charge_log.md): the digest, the append, reservations, the space notice,
and what its own tenures decide at their grants. -/

namespace Sys2Proof.Machine

/-! ### The digest (R156) -/

/-- One shift of the CRC register. -/
def crcShift (r : Word) : Word := if r.getLsbD 0 then (r >>> 1) ^^^ 0xEDB88320 else r >>> 1

/-- One byte fed through the register. -/
def crcByte (r : Word) (b : Byte) : Word :=
  crcShift (crcShift (crcShift (crcShift (crcShift (crcShift (crcShift (crcShift (r ^^^ b.setWidth 32))))))))

/-- The stored digest with more bytes added: complement, feed, complement (R156). -/
def crcExtend (stored : Word) (bytes : List Byte) : Word := ~~~(bytes.foldl crcByte (~~~stored))

/-! ### Appending (R154, R155) -/

/-- The station word at which a digest bank begins (spec/11). -/
def bankWord (index : Word) : Nat := if index.getLsbD 0 then 101 else 98

/-- The eight writes of an append in their order, with the values that hold after it, and the copy advanced at the grant.
`useReservation` gives up one reservation. -/
def Chip.appendWith (r : LogRecord) (digest count : Word) (period : BitVec 16) (useReservation : Bool) (c : Chip) :
    Chip :=
  match c.clu.copy with
  | none => c
  | some l =>
    let slot := l.write.toNat % c.capacity
    let next := l.write + 1
    let bank := bankWord next
    let c1 := (c.writeRecord .chargeLog slot 0 r.w0).writeRecord .chargeLog slot 1 r.w1
    let c2 := (c1.writeRecord .chargeLog slot 2 r.w2).writeRecord .chargeLog slot 3 r.w3
    let c3 := (c2.writeStation bank digest).writeStation (bank + 1) count
    let c4 := (c3.writeStation (bank + 2) (place period 0)).writeStation 96 next
    { c4 with
      clu := { c4.clu with
        copy := some { l with write := next, digest := digest, count := count, period := period }
        reserved := if useReservation then c4.clu.reserved - 1 else c4.clu.reserved } }

/-- An append of a record that its period's digest and count take in (R155, R157). -/
def Chip.append (r : LogRecord) (useReservation : Bool) (c : Chip) : Chip :=
  match c.clu.copy with
  | none => c
  | some l => c.appendWith r (crcExtend l.digest r.bytes) (l.count + 1) l.period useReservation

/-- A reservation is taken (R152). -/
def Chip.reserve (c : Chip) : Chip := { c with clu := { c.clu with reserved := c.clu.reserved + 1 } }

/-- A reservation is released without an append (R152). -/
def Chip.unreserve (c : Chip) : Chip := { c with clu := { c.clu with reserved := c.clu.reserved - 1 } }

/-! ### The space notice -/

/-- The queue block is released (R88). -/
def Chip.releaseBlock (c : Chip) : Chip :=
  if c.toe.blocked then Chip.markStatus { c with toe := { c.toe with blocked := false } } else c

/-- The space notice, handed in RUNNING and STOPPING: the queue block is released, every sweep waiting for space is
readied, a close waiting for space starts (R160). -/
def Chip.spaceNotice (c : Chip) : Chip :=
  if c.working then
    let c1 := c.releaseBlock
    { c1 with
      swe := { c1.swe with queue := c1.swe.queue.map fun e => { e with ready := true } }
      clu := { c1.clu with close := if c1.clu.close = .waiting then .asked else c1.clu.close } }
  else c

/-! ### The CLU's own tenures at their grants -/

/-- A release tenure: the release index becomes the release target as it stands (R159). -/
def Chip.releaseBody (c : Chip) : Chip :=
  match c.clu.copy with
  | none => c
  | some l =>
    Chip.writeStation 97 l.target
      { c with clu := { c.clu with copy := some { l with release := l.target }, releaseOwed := false } }

/-- A close tenure: a PERIOD record and a new period, or, with no free space, no write: the close waits for space, and in
STOPPING it is dropped (R162, R163). -/
def Chip.closeBody (c : Chip) : Chip :=
  match c.clu.copy with
  | none => c
  | some l =>
    if 0 < c.free then
      let c1 := c.appendWith (periodRecord c.stamp l.period l.count l.digest) 0 0 (l.period + 1) false
      Chip.owe (.cause .periodClosed) { c1 with clu := { c1.clu with close := .none } }
    else
      { c with clu := { c.clu with close := if c.lcc.lifecycle = .running then .waiting else .none } }

/-- The eight reads that load the copy; the write index selects the current bank (R165). -/
def Chip.logLoadBody (m : Memory) (c : Chip) : Chip :=
  let w := m.readWord (stationAddr 96)
  let r := m.readWord (stationAddr 97)
  let bank := bankWord w
  let copy : LogCopy :=
    ⟨w, r, r, m.readWord (stationAddr bank), m.readWord (stationAddr (bank + 1)),
      field (m.readWord (stationAddr (bank + 2))) 0 16⟩
  { c with clu := { c.clu with copy := some copy, loadOwed := false } }

end Sys2Proof.Machine
end

