-- ==== Sys2Proof/Machine/SweepQueue.lean ====
section
/-! DEFINITION. The sweep queue and what other blocks hand it (R125), and the evaluation list and what other blocks hand
it (R82). -/

namespace Sys2Proof.Machine

/-! ### Handing sweeps -/

/-- An entry joins the tail as READY. -/
def Swe.join (s : Swe) (kind : SweepKind) (resume : Nat) : Swe :=
  if s.queue.length < Config.sweepQueueLimit then
    { s with queue := s.queue ++ [⟨kind, resume, true, false, false⟩] }
  else s

/-- A RESTORE handed: with outage number 0 it is merged into one of the same node that is not active, and sets the repeat
mark of one that is (R125). -/
def Swe.handRestore (s : Swe) (node : Nat) (outage : BitVec 16) (resume : Nat) : Swe :=
  if outage = 0 ∧ s.queue.any (fun e => e.kind = .restore node 0) then
    { s with queue := s.queue.map fun e =>
        if e.kind = .restore node 0 ∧ e.active then { e with repeatMark := true } else e }
  else s.join (.restore node outage) resume

/-- An EVENT_CLOSE handed, unless one for that number is queued or running (R58, R125). -/
def Swe.handClose (s : Swe) (event : BitVec 8) : Swe :=
  if s.queue.any (fun e => e.kind = .eventClose event) then s else s.join (.eventClose event) 0

/-- Sweeps are taken in LOADING and RUNNING (R125). -/
def Chip.takesSweeps (c : Chip) : Bool := c.lcc.lifecycle = .running || c.lcc.lifecycle = .loading

/-- Hand a RESTORE to the Sweep Engine. -/
def Chip.handRestore (node : Nat) (outage : BitVec 16) (resume : Nat) (c : Chip) : Chip :=
  if c.takesSweeps then { c with swe := c.swe.handRestore node outage resume } else c

/-- Hand an EVENT_CLOSE to the Sweep Engine. -/
def Chip.handClose (event : BitVec 8) (c : Chip) : Chip :=
  if c.takesSweeps then { c with swe := c.swe.handClose event } else c

/-! ### Handing requests to the Tap Order Engine -/

/-- Of two kinds the one that stands: REQUEUE replaces EVALUATE, RETIRE replaces both (R82). -/
def EvalKind.merge (a b : EvalKind) : EvalKind :=
  if a = .retire ∨ b = .retire then .retire else if a = .requeue ∨ b = .requeue then .requeue else .evaluate

/-- Place a request: merged into the subscriber's older request, which keeps its place, or at the tail (R82). -/
def placeEval (evals : List EvalRequest) (r : EvalRequest) : List EvalRequest :=
  if evals.any (fun q => q.subscriber = r.subscriber) then
    evals.map fun q =>
      if q.subscriber = r.subscriber then ⟨q.subscriber, q.kind.merge r.kind, q.reassert || r.reassert⟩ else q
  else evals ++ [r]

/-- Hand a request to the evaluation list; in any state but RUNNING and STOPPING it is discarded (R82). DESIGN CHOICE (log 48):
no request is placed in LOADING, since the load walk puts its subscribers into the collections itself (R103). -/
def Chip.request (r : EvalRequest) (c : Chip) : Chip :=
  if c.working then { c with toe := { c.toe with evals := placeEval c.toe.evals r } } else c

end Sys2Proof.Machine
end

