-- ==== Sys2Proof/Machine/LineUp.lean ====
section
/-! DEFINITION. The Line-Up Engine (spec/04_channel_line_up.md): the checks of map writes, the event-number map, window
phases, effective targets, route requests and the route link, the take, the mirror tenure and the load walk of the map. -/

namespace Sys2Proof.Machine

/-! ### The entry image and the event-number map -/

/-- The entry that a number is bound to (R56). -/
def Lue.bound (l : Lue) (number : BitVec 8) : Option Nat := (l.eventMap.find? fun b => b.1 = number).map (·.2)

/-- The number names another entry than `i` (R52). -/
def boundElsewhere (eventMap : List (BitVec 8 × Nat)) (number : BitVec 8) (i : Nat) : Bool :=
  eventMap.any fun b => b.1 = number && b.2 != i

/-- The range of the field that a written word carries (R52); w2 and w3 carry whole 32-bit times. DESIGN CHOICE (log 39):
the display number's range is a test on the entry as a whole, so for a set-aside entry it is not made. -/
def wordInRange (word : Nat) (v : Word) : Bool :=
  match word with
  | 0 => decide ((field v 16 7).toNat ≤ 64)
  | 1 => decide ((field v 8 7).toNat ≤ 64)
  | _ => true

/-- The tests of R52 on an entry as a whole, at its index, against the event-number map. -/
def Entry.whole (e : Entry) (eventMap : List (BitVec 8 × Nat)) (i : Nat) : Bool :=
  decide (e.desired.toNat ≤ 64) && decide (e.eventSource.toNat ≤ 64) &&
    (!e.inUse || (decide (1 ≤ e.display) && decide (e.display ≤ 999))) &&
    (!(e.inUse && e.kindEvent) ||
      (e.number != 0 && decide (e.start < e.finish) && !boundElsewhere eventMap e.number i))

/-- A write to w0 to w3 of entry `i` fails R52: the field it carries is out of range, or the entry as it would stand in
use fails a test. For an entry set aside only the field is tested (log 18). -/
def Lue.badValue (l : Lue) (i word : Nat) (v : Word) : Bool :=
  match l.entries[i]? with
  | none => !wordInRange word v
  | some e =>
    let e1 := e.withWord word v
    !wordInRange word v || (!e.aside && e1.inUse && !e1.whole l.eventMap i)

/-- A write to w0 to w3 of entry `i` is refused with EVENT_LIVE (R53). -/
def Lue.eventLive (l : Lue) (i word : Nat) (v : Word) : Bool :=
  match l.entries[i]? with
  | none => false
  | some e =>
    let e1 := e.withWord word v
    let leaves := word = 0 && (!e1.inUse || e1.kindEvent != e.kindEvent)
    match e.phase with
    | some .inside => word != 0 || leaves
    | some .closing => word != 0 || leaves
    | some .before => leaves || (word = 1 && e1.number != e.number)
    | _ => false

/-- Replace entry `i`. -/
def Lue.modify (l : Lue) (i : Nat) (f : Entry → Entry) : Lue := { l with entries := l.entries.modify i f }

/-- Bind a number to entry `i`, which holds at most one (R56). -/
def Lue.bind (l : Lue) (number : BitVec 8) (i : Nat) : Lue :=
  { l with eventMap := (l.eventMap.filter fun b => b.2 != i) ++ [(number, i)] }

/-- Entry `i` leaves the event-number map. -/
def Lue.unbind (l : Lue) (i : Nat) : Lue := { l with eventMap := l.eventMap.filter fun b => b.2 != i }

/-- A change of route state, class, phase, applied source or attempts puts the entry in the mirror set (R63). -/
def Entry.touch (e : Entry) : Entry := { e with dirty := true }

/-! ### Effective target and route requests -/

/-- The effective target of a live entry (R60). -/
def Entry.target (e : Entry) (fallback : Bool) (fallbackSource : BitVec 7) : BitVec 7 :=
  if fallback && e.fallbackFlag then fallbackSource
  else if e.kindEvent && e.phase = some .inside then e.eventSource
  else e.desired

/-- The effective target as it stands now. -/
def Chip.target (c : Chip) (e : Entry) : BitVec 7 := e.target c.fallback c.settings.fallbackSource

/-- The ranks of the classes (R61). -/
def RouteClass.rank : RouteClass → Nat
  | .take => 1
  | .event => 2
  | .fallback => 3

/-- The effect of a request of class `k` on one entry (R61); none on an entry out of use or set aside. -/
def Entry.request (e : Entry) (k : RouteClass) : Entry :=
  if !e.live then e
  else
    match e.route, e.cls with
    | .settled, _ => { e with route := .pending, cls := some k }.touch
    | .failed, _ => { e with route := .pending, cls := some k }.touch
    | .pending, none => { e with cls := some k }.touch
    | .inFlight, none => { e with cls := some k }.touch
    | .pending, some k0 => if k0.rank < k.rank then { e with cls := some k }.touch else e
    | .inFlight, some k0 => if k0.rank < k.rank then { e with cls := some k }.touch else e

/-- The entry is PENDING with a class. -/
def Entry.pendingWith (e : Entry) (k : RouteClass) : Bool := e.route = .pending && e.cls = some k

/-! ### The end of a take -/

/-- TAKE work remains: an entry PENDING with class TAKE, or an order of class TAKE in flight (R72). -/
def Lue.takeWork (l : Lue) : Bool :=
  l.entries.any (fun e => e.pendingWith .take) ||
    (match l.order with
      | some o => o.cls = .take
      | none => false)

/-- The entries that a change has altered. -/
def Lue.alteredSince (after before : Lue) : List Nat :=
  (List.range after.entries.length).filter fun i => decide (before.entries[i]? ≠ after.entries[i]?)

/-- A cause owed until the named entries are written; with none to write it is handed at once (R63, log 20). -/
def Chip.oweRoute (k : Cause) (entries : List Nat) (c : Chip) : Chip :=
  if entries = [] then c.raise k
  else { c with lue := { c.lue with owedCauses := c.lue.owedCauses ++ [⟨k, entries⟩] } }

/-- End the take with a result (R72, R73). -/
def Chip.endTake (result : TakeResult) (entries : List Nat) (c : Chip) : Chip :=
  Chip.oweRoute .takeDone entries
    (Chip.markStatus { c with lue := { c.lue with take := .idle, takeResult := result } })

/-- The take ends at the event that leaves no TAKE work; `entries` names the entry of that event (R72). -/
def Chip.checkTake (entries : List Nat) (c : Chip) : Chip :=
  if c.lue.take = .applying ∧ c.lue.takeWork = false then
    c.endTake (if c.lue.takeFailed = 0 then .complete else .partialTake) entries
  else c

/-- A route request to entry `i` (R61), which may end a take by raising the class of its last work. -/
def Chip.routeRequest (k : RouteClass) (i : Nat) (c : Chip) : Chip :=
  Chip.checkTake [i] { c with lue := c.lue.modify i fun e => e.request k }

/-! ### The route link -/

/-- The entry that the LUE serves next: highest class, then lowest index (R62). -/
def Lue.choice (l : Lue) : Option (Nat × RouteClass) :=
  match l.entries.findIdx? fun e => e.pendingWith .fallback with
  | some i => some (i, .fallback)
  | none =>
    match l.entries.findIdx? fun e => e.pendingWith .event with
    | some i => some (i, .event)
    | none => (l.entries.findIdx? fun e => e.pendingWith .take).map fun i => (i, .take)

/-- Put a frame on the route link. -/
def Chip.sendRoute (slot : Nat) (source : BitVec 7) (tag : BitVec 3) (c : Chip) : Chip :=
  { c with routeLink := { c.routeLink with sent := c.routeLink.sent ++ [routeFrame slot source tag] } }

/-- Send the first attempt of an order for entry `i` (R62). -/
def Chip.startRoute (i : Nat) (k : RouteClass) (source : BitVec 7) (c : Chip) : Chip :=
  let tag := c.lue.tag
  let l1 := c.lue.modify i fun e => { e with route := .inFlight, cls := none, attempts := 1 }.touch
  Chip.sendRoute i source tag
    { c with lue := { l1 with
        order := some ⟨i, source, tag, c.tbu.mono + c.settings.routeTimeout, k⟩
        tag := tag + 1 } }

/-- The choice of R62, made again while the chosen entry already carries its target; `fuel` bounds the entries settled. -/
def Chip.chooseRoute : Nat → Chip → Chip
  | 0, c => c
  | fuel + 1, c =>
    if c.lcc.lifecycle = .running ∧ c.lue.order = none then
      match c.lue.choice with
      | none => c
      | some (i, k) =>
        match c.lue.entries[i]? with
        | none => c
        | some e =>
          if e.applied = c.target e then
            Chip.chooseRoute fuel
              (Chip.checkTake [i] { c with lue := c.lue.modify i fun e => { e with route := .settled, cls := none }.touch })
          else c.startRoute i k (c.target e)
    else c

/-- The choice whenever the link may be free (R62). -/
def Chip.serveRoutes (c : Chip) : Chip := c.chooseRoute (c.lue.entries.length + 1)

/-- The order in flight completes (R64). An entry that has left use becomes SETTLED (R55); DESIGN CHOICE (log 50): one that
is back in use by then is taken as an entry in use. DESIGN CHOICE (log 40): an entry that completes again while it still
owes w5 keeps its older place among those that owe it. -/
def Chip.completeRoute (o : RouteOrder) (c : Chip) : Chip :=
  let finish := fun e : Entry =>
    let e1 := { e with applied := o.source }
    match e1.cls with
    | some k =>
      if e1.live && e1.applied != c.target e1 then { e1 with route := .pending, cls := some k }.touch
      else { e1 with route := .settled, cls := none }.touch
    | none => { e1 with route := .settled }.touch
  let l1 := c.lue.modify o.slot finish
  let owes := if l1.owesTime.contains o.slot then l1.owesTime else l1.owesTime ++ [o.slot]
  Chip.serveRoutes (Chip.checkTake [o.slot] { c with lue := { l1 with order := none, owesTime := owes } })

/-- The order in flight fails (R65, R66). A noted class is applied as a fresh request; an entry that has left use becomes
SETTLED (R55). DESIGN CHOICE (log 50): one that is back in use by then is FAILED as an entry in use. -/
def Chip.failRoute (o : RouteOrder) (c : Chip) : Chip :=
  let fail := fun e : Entry =>
    if e.live then
      let e1 := { e with route := .failed, cls := none }.touch
      match e.cls with
      | some k => e1.request k
      | none => e1
    else { e with route := .settled, cls := none }.touch
  let l1 := c.lue.modify o.slot fail
  let failed := if c.lue.take = .applying ∧ o.cls = .take then l1.takeFailed + 1 else l1.takeFailed
  let c1 := Chip.oweRoute .routeFailed [o.slot] { c with lue := { l1 with order := none, takeFailed := failed } }
  Chip.serveRoutes (c1.checkTake [o.slot])

/-- The deadline of the order in flight expires with attempts remaining, in RUNNING: it is sent again (R66). -/
def Chip.resendRoute (o : RouteOrder) (c : Chip) : Chip :=
  let tag := c.lue.tag
  let l1 := c.lue.modify o.slot fun e => { e with attempts := e.attempts + 1 }.touch
  Chip.sendRoute o.slot o.source tag
    { c with lue := { l1 with
        order := some { o with tag := tag, deadline := c.tbu.mono + c.settings.routeTimeout }
        tag := tag + 1 } }

/-- The higher of an order class and a noted class. -/
def higherClass (a : RouteClass) (b : Option RouteClass) : RouteClass :=
  match b with
  | some k => if a.rank < k.rank then k else a
  | none => a

/-- The deadline expires with attempts remaining, outside RUNNING: the entry becomes PENDING again (R67), or SETTLED if it
has left use (R55). DESIGN CHOICE (log 50): one that is back in use by then is PENDING again. -/
def Chip.returnRoute (o : RouteOrder) (c : Chip) : Chip :=
  let back := fun e : Entry =>
    if e.live then { e with route := .pending, cls := some (higherClass o.cls e.cls) }.touch
    else { e with route := .settled, cls := none }.touch
  { c with lue := { c.lue.modify o.slot back with order := none } }

/-- The deadline of the order in flight expires (R66, R67). -/
def Chip.expireRoute (o : RouteOrder) (c : Chip) : Chip :=
  let used := ((c.lue.entries[o.slot]?.map fun e => e.attempts.toNat).getD 0)
  if used < c.settings.routeAttempts then
    if c.lcc.lifecycle = .running then c.resendRoute o else c.returnRoute o
  else c.failRoute o

/-- A good route reply frame is matched against the order in flight (R68). -/
def Chip.routeReply (r : RouteReply) (c : Chip) : Chip :=
  match c.lue.order with
  | some o =>
    if r.slot = o.slot ∧ r.tag = o.tag then
      match r.result with
      | .done => c.completeRoute o
      | .noSource => c.failRoute o
      | .slotFault => c.failRoute o
    else c.count .staleRouteReplies
  | none => c.count .staleRouteReplies

/-! ### Window phases -/

/-- Where a window stands at a wall time, as plain unsigned numbers (R57). -/
def Entry.phaseAt (e : Entry) (wall : Word) : Phase :=
  if wall < e.start then .before else if wall < e.finish then .inside else .after

/-- Set the phase of entry `i`. -/
def Chip.setPhase (i : Nat) (p : Phase) (c : Chip) : Chip :=
  { c with lue := c.lue.modify i fun e => { e with phase := some p }.touch }

/-- A transition into AFTER puts the entry in CLOSING and, in RUNNING, hands its EVENT_CLOSE (R58). -/
def Chip.closeWindow (i : Nat) (number : BitVec 8) (c : Chip) : Chip :=
  let c1 := c.setPhase i .closing
  if c1.lcc.lifecycle = .running then c1.handClose number else c1

/-- The effects of a phase that differs from the one found (R57). -/
def Chip.movePhase (i : Nat) (e : Entry) (was found : Phase) (c : Chip) : Chip :=
  match was, found with
  | .before, .inside => Chip.routeRequest .event i (c.setPhase i .inside)
  | .inside, .before => Chip.routeRequest .event i (c.setPhase i .before)
  | .before, .after => c.closeWindow i e.number
  | .inside, .after => Chip.routeRequest .event i (c.closeWindow i e.number)
  | .after, .before => c.setPhase i .before
  | .after, .inside => Chip.routeRequest .event i (c.setPhase i .inside)
  | _, _ => c

/-- Evaluate the phase of entry `i` (R57); CLOSING is not moved. -/
def Chip.evaluatePhase (i : Nat) (c : Chip) : Chip :=
  match c.lue.entries[i]? with
  | none => c
  | some e =>
    match e.phase with
    | none => c
    | some .closing => c
    | some p => if e.event then c.movePhase i e p (e.phaseAt c.tbu.wall) else c

/-- A time change: every in-use EVENT entry in order of index (R57), in the states in which the LUE holds phases. DEDUCED
(log 52): its requests wait for a fallback start at the same count, which R70 lets go first; the choice of R62 is made by
then or before time passes (`State.idle`). -/
def Chip.timeChange (c : Chip) : Chip :=
  if c.working then (List.range c.lue.entries.length).foldl (fun c i => c.evaluatePhase i) c else c

/-- In RUNNING a request waits while the link is free: the choice of R62 is still to be made at this count (log 52). -/
def Chip.choiceDue (c : Chip) : Bool :=
  c.lcc.lifecycle = .running && c.lue.order.isNone && c.lue.choice.isSome

/-- The end of an EVENT_CLOSE sweep (R59): an entry bound to the number and CLOSING is evaluated. -/
def Chip.closeEnded (number : BitVec 8) (c : Chip) : Chip :=
  match c.lue.bound number with
  | none => c
  | some i =>
    match c.lue.entries[i]? with
    | none => c
    | some e =>
      if e.phase = some .closing then
        let found := e.phaseAt c.tbu.wall
        let c1 := c.setPhase i found
        if found = .inside then (Chip.routeRequest .event i c1).serveRoutes else c1
      else c

/-! ### Fallback and the take -/

/-- A fallback start or end: a FALLBACK request for every in-use entry whose fallback flag is set (R70). DESIGN CHOICE (log
51): the requests are raised in order of index, so that the last of them to take over TAKE work ends a take. -/
def Chip.fallbackRequests (c : Chip) : Chip :=
  ((List.range c.lue.entries.length).foldl
    (fun c i =>
      match c.lue.entries[i]? with
      | some e => if e.fallbackFlag then c.routeRequest .fallback i else c
      | none => c) c).serveRoutes

/-- The take walk (R71): a TAKE request for every in-use entry whose applied source differs from its effective target. A
take that ends at once waits with TAKE_DONE for the entries that the walk altered (R63). -/
def Chip.takeWalk (c : Chip) : Chip :=
  let l1 := { c.lue with
    take := .applying
    takeFailed := 0
    entries := c.lue.entries.map fun e => if e.applied != c.target e then e.request .take else e }
  Chip.serveRoutes (Chip.checkTake (l1.alteredSince c.lue) (Chip.markStatus { c with lue := l1 }))

/-- The indexes of the entries that satisfy a test. -/
def Lue.indexes (l : Lue) (p : Entry → Bool) : List Nat :=
  (List.range l.entries.length).filter fun i =>
    match l.entries[i]? with
    | some e => p e
    | none => false

/-- CANCEL, and entry into STOPPING, end an applying take (R73); TAKE_DONE waits for the entries so altered (R63). -/
def Chip.cancelTake (c : Chip) : Chip :=
  if c.lue.take = .applying then
    let clear := fun e : Entry =>
      if e.pendingWith .take then { e with route := .settled, cls := none }.touch
      else if e.route = .inFlight ∧ e.cls = some .take then { e with cls := none }.touch
      else e
    let l1 := { c.lue with entries := c.lue.entries.map clear }
    Chip.endTake .cancelled (l1.alteredSince c.lue) { c with lue := l1 }
  else c

/-! ### The trigger of a map write (R55) -/

/-- An entry enters use as an EVENT entry: bound, its phase as found, with no close; INSIDE raises a request (R55, R57). -/
def Chip.enterEvent (i : Nat) (e : Entry) (c : Chip) : Chip :=
  let found := e.phaseAt c.tbu.wall
  let c1 := Chip.setPhase i found { c with lue := c.lue.bind e.number i }
  if found = .inside then c1.routeRequest .event i else c1

/-- What becomes of the route state of an entry that leaves use (R55). -/
def Entry.leaveUse (e : Entry) : Entry :=
  match e.route with
  | .pending => { e with route := .settled, cls := none }.touch
  | .inFlight => if e.cls = none then e else { e with cls := none }.touch
  | _ => e

/-- The trigger of a write to a set-aside entry: taken into use when its image passes every test of R52 (R75). DEDUCED (log 49):
an image with the in-use flag clear passes as an entry out of use does. -/
def Chip.asideWrite (i : Nat) (e1 : Entry) (c : Chip) : Chip :=
  if e1.whole c.lue.eventMap i then
    let e2 := { e1 with aside := false, route := .settled, cls := none }.touch
    let c1 := { c with lue := c.lue.modify i fun _ => e2 }
    if e2.event then c1.enterEvent i e2 else c1
  else { c with lue := c.lue.modify i fun _ => e1 }

/-- The trigger of a write to an entry that is not set aside (R55). -/
def Chip.entryWrite (i word : Nat) (e e1 : Entry) (c : Chip) : Chip :=
  let e2 := if e.inUse && !e1.inUse then e1.leaveUse else e1
  let c1 := Chip.checkTake [i] { c with lue := c.lue.modify i fun _ => e2 }
  if e2.event && !e.event then c1.enterEvent i e2
  else if e.event && !e2.event then
    { c1 with lue := (c1.lue.unbind i).modify i fun e => { e with phase := none }.touch }
  else if e2.event then
    let c2 := if e2.number = e.number then c1 else { c1 with lue := c1.lue.bind e2.number i }
    if word = 2 ∨ word = 3 then c2.evaluatePhase i else c2
  else c1

/-- The trigger of a taken write to w0 to w3 of entry `i` (R51, R55). -/
def Chip.mapTrigger (i word : Nat) (v : Word) (c : Chip) : Chip :=
  match c.lue.entries[i]? with
  | none => c
  | some e =>
    let e1 := e.withWord word v
    Chip.serveRoutes (if e.aside then c.asideWrite i e1 else c.entryWrite i word e e1)

/-! ### The mirror tenure (R63) -/

/-- The entries whose w5 and w4 a mirror tenure writes, and those whose w4 it writes, within 24 accesses. -/
def Lue.mirrorChoice (l : Lue) : List Nat × List Nat :=
  let timed := l.owesTime.take (Config.tenureLimit / 2)
  let others := (l.indexes fun e => e.dirty).filter fun i => !timed.contains i
  (timed, others.take (Config.tenureLimit - 2 * timed.length))

/-- Write w4 of entry `i` and let it leave the mirror set. -/
def Chip.mirrorEntry (i : Nat) (c : Chip) : Chip :=
  match c.lue.entries[i]? with
  | none => c
  | some e => Chip.writeRecord .channelMap i 4 e.w4 { c with lue := c.lue.modify i fun e => { e with dirty := false } }

/-- Write w5 with the stamp of the grant and then w4 of entry `i` (R63, R64). -/
def Chip.mirrorCompletion (i : Nat) (c : Chip) : Chip :=
  let s := c.stamp
  Chip.mirrorEntry i
    (Chip.writeRecord .channelMap i 5 s.wall
      { c with lue := c.lue.modify i fun e => { e with unset := s.unset, unlocked := s.unlocked } })

/-- What a mirror tenure decides at its grant. -/
def Chip.mirrorBody (c : Chip) : Chip :=
  let (timed, others) := c.lue.mirrorChoice
  let c1 := timed.foldl (fun c i => c.mirrorCompletion i) c
  let c2 := others.foldl (fun c i => c.mirrorEntry i) c1
  let written := timed ++ others
  Chip.owe .mirrored
    { c2 with lue := { c2.lue with
        owesTime := c2.lue.owesTime.drop timed.length
        owedCauses := c2.lue.owedCauses.map fun o =>
          { o with entries := o.entries.filter fun i => !written.contains i } } }

/-- At the end of a mirror tenure the causes whose last entry it wrote are handed (R63). -/
def Chip.handRouteCauses (c : Chip) : Chip :=
  (c.lue.owedCauses.filter fun o => o.entries = []).foldl (fun c o => c.raise o.cause)
    { c with lue := { c.lue with owedCauses := c.lue.owedCauses.filter fun o => o.entries != [] } }

/-! ### The load walk of the map (R75) -/

/-- Entry `i` as memory holds it. -/
def Chip.entryInMemory (c : Chip) (m : Memory) (i : Nat) : Entry :=
  let w4 := c.recordWord m .channelMap i 4
  { w0 := c.recordWord m .channelMap i 0
    w1 := c.recordWord m .channelMap i 1
    w2 := c.recordWord m .channelMap i 2
    w3 := c.recordWord m .channelMap i 3
    aside := false
    applied := field w4 0 7
    route := .settled
    cls := none
    phase := none
    attempts := 0
    unset := bit w4 20
    unlocked := bit w4 21
    dirty := true }

/-- Walk one in-use entry that passes its tests. -/
def Chip.walkLive (i : Nat) (e : Entry) (recorded : BitVec 3) (c : Chip) : Chip :=
  let closing := e.kindEvent && (recorded = 4 || e.phaseAt c.tbu.wall = .after)
  let phase := if e.kindEvent then some (if closing then .closing else e.phaseAt c.tbu.wall) else none
  let e1 := { e with phase := phase }
  let e2 :=
    if e1.applied = e1.target false c.settings.fallbackSource then e1
    else { e1 with route := .pending, cls := some .take }
  let l1 := { c.lue with entries := c.lue.entries ++ [e2] }
  let c1 := { c with lue := if e.kindEvent then l1.bind e.number i else l1 }
  if closing then c1.handClose e.number else c1

/-- Walk entry `i` (R75). -/
def Chip.walkEntry (m : Memory) (i : Nat) (c : Chip) : Chip :=
  let e := c.entryInMemory m i
  let recorded := field (c.recordWord m .channelMap i 4) 12 3
  if !e.inUse then { c with lue := { c.lue with entries := c.lue.entries ++ [e] } }
  else if e.whole c.lue.eventMap i then c.walkLive i e recorded
  else { c with lue := { c.lue with entries := c.lue.entries ++ [{ e with aside := true, route := .failed }] } }

/-- The channel map count of the profile. -/
def Chip.mapCount (c : Chip) : Nat := (c.placement .channelMap).count

/-- One tenure of the walk: four entries. After the last, a set-aside entry owes ROUTE_FAILED to the end of the walk's
mirror tenures. -/
def Chip.mapWalkBody (m : Memory) (c : Chip) : Chip :=
  match c.lue.walk with
  | none => c
  | some first =>
    let n := min 4 (c.mapCount - first)
    let c1 : Chip := (List.range n).foldl (fun c k => c.walkEntry m (first + k)) c
    let c2 : Chip := { c1 with lue := { c1.lue with walk := some (first + n) } }
    if c.mapCount ≤ first + n ∧ c2.lue.entries.any (fun e => e.aside) then
      c2.oweRoute .routeFailed (c2.lue.indexes fun e => e.dirty)
    else c2

end Sys2Proof.Machine
end

