-- ==== Sys2Proof/Machine/Nodes.lean ====
section
/-! DEFINITION. The Status Line Monitor (spec/06_status_lines_and_outages.md): node states and filters, outage numbers and
slots, the write set, edges and snapshots, reconciliation at load. -/

namespace Sys2Proof.Machine

/-! ### What the SLM answers (R124) -/

/-- w0 of a node as the image holds it; a node outside the image is not in use. -/
def Slm.word (s : Slm) (n : Nat) : Word := s.image.getD n 0

/-- The node is in use. -/
def Slm.inUse (s : Slm) (n : Nat) : Bool := nodeInUse (s.word n)

/-- The state of a node; a node not in use is answered UP (R106, R124). -/
def Chip.nodeState (c : Chip) (n : Nat) : NodeState :=
  if c.slm.inUse n then
    match c.slm.nodes[n]? with
    | some x => x.state
    | none => .up
  else .up

/-- The node is DOWN or CLEARING. -/
def Chip.nodeOut (c : Chip) (n : Nat) : Bool := c.nodeState n = .down || c.nodeState n = .clearing

/-- The one-way flag; a node not in use is two-way (R106). -/
def Chip.nodeIsOneWay (c : Chip) (n : Nat) : Bool := c.slm.inUse n && nodeOneWay (c.slm.word n)

/-! ### Outage numbers (R112) -/

/-- One step of the outage numbers, skipping 0. -/
def stepNumber (n : BitVec 16) : BitVec 16 := if n = 65535 then 1 else n + 1

/-- The age of a number: the steps from it forward to the next number. -/
def outageAge (n next : BitVec 16) : Nat :=
  let d := (next.toNat + 65535 - n.toNat) % 65535
  if d = 0 then 65535 else d

/-! ### Node changes -/

/-- Change node `i`. -/
def Slm.modifyNode (s : Slm) (i : Nat) (f : Node → Node) : Slm := { s with nodes := s.nodes.modify i f }

/-- Change slot `i`. -/
def Slm.modifySlot (s : Slm) (i : Nat) (f : Slot → Slot) : Slm := { s with slots := s.slots.modify i f }

/-- A state change of a tracked node: its change time is that of the moment (R107), and it joins the write set (R114). -/
def Chip.moveNode (i : Nat) (state : NodeState) (f : Node → Node) (c : Chip) : Chip :=
  { c with slm := c.slm.modifyNode i fun n => { f n with state := state, change := c.stamp, dirty := true } }

/-- The times kept at a sample (R108, R110). -/
def Chip.keptTime (c : Chip) : KeptTime := ⟨c.stamp, c.tbu.mono⟩

/-- The index of the SWEPT slot whose number has the greatest age, the lowest of equal ones (R113). -/
def Slm.oldestSwept (s : Slm) : Option Nat :=
  (List.range s.slots.length).foldl
    (fun best i =>
      match s.slots[i]? with
      | some x =>
        if x.status = .swept then
          match best with
          | some b =>
            match s.slots[b]? with
            | some y => if outageAge y.number s.next < outageAge x.number s.next then some i else best
            | none => some i
          | none => some i
        else best
      | none => best) none

/-- The slot chosen for a new outage: the unused slot of lowest index, otherwise the oldest SWEPT one (R113). -/
def Slm.chooseSlot (s : Slm) : Option Nat :=
  match s.slots.findIdx? fun x => x.status = .unused with
  | some i => some i
  | none => s.oldestSwept

/-- The outage of a node entering DOWN is opened (R113). -/
def Chip.openOutage (i : Nat) (onset : KeptTime) (c : Chip) : Chip :=
  match c.slm.chooseSlot with
  | some k =>
    let number := c.slm.next
    let slot : Slot :=
      ⟨.opened, number, BitVec.ofNat 5 i, onset.stamp.wall, 0, 0, 0, false, onset.stamp.unlocked, onset.stamp.unset,
        true, false, true⟩
    let s1 := (c.slm.modifySlot k fun _ => slot).modifyNode i fun n => { n with outage := number }
    { c with slm := { s1 with next := stepNumber number, nextDirty := true } }
  | none =>
    Chip.count .unrecordedOutages
      (Chip.raise .nodeDown { c with slm := c.slm.modifyNode i fun n => { n with outage := 0 } })

/-- The onset deadline expires: the node enters DOWN and its outage is opened (R109). -/
def Chip.enterDown (i : Nat) (c : Chip) : Chip :=
  match c.slm.nodes[i]? with
  | none => c
  | some n =>
    Chip.openOutage i (n.onset.getD c.keptTime) (c.moveNode i .down fun n => { n with deadline := none })

/-- The duration of an outage in seconds (R111). -/
def outageDuration (onset clear : Tick) : Nat := min ((clear - onset).toNat / 100) Config.durationLimit

/-- The open outage of a node closes (R111). -/
def Chip.closeOutage (i : Nat) (n : Node) (c : Chip) : Chip :=
  match c.slm.slots.findIdx? fun x => x.status = .opened && x.number = n.outage && n.outage != 0 with
  | some k =>
    let onset := n.onset.getD c.keptTime
    let clear := n.clear.getD c.keptTime
    { c with slm := c.slm.modifySlot k fun x =>
        { x with
          status := .closed
          finish := clear.stamp.wall
          duration := outageDuration onset.mono clear.mono
          progress := 0
          unset := onset.stamp.unset || clear.stamp.unset
          unlocked := onset.stamp.unlocked || clear.stamp.unlocked
          owesRestore := true
          dirty := true } }
  | none =>
    let c1 := c.raise .nodeUp
    if c1.lcc.lifecycle = .running then c1.handRestore i 0 0 else c1

/-- The hold deadline expires: the node enters UP and its outage closes (R111). -/
def Chip.enterUp (i : Nat) (c : Chip) : Chip :=
  match c.slm.nodes[i]? with
  | none => c
  | some n =>
    Chip.closeOutage i n
      (c.moveNode i .up fun n => { n with deadline := none, outage := 0, onset := none, clear := none })

/-- One node at one sample (R108, R109, R110). -/
def Chip.sampleNode (levels : Word) (c : Chip) (i : Nat) : Chip :=
  let w := c.slm.word i
  if nodeInUse w then
    match c.slm.nodes[i]? with
    | none => c
    | some n =>
      let fault := levels.getLsbD i != nodeClosedFault w
      match n.state, fault with
      | .up, true =>
        let deadline := c.tbu.mono + Config.onsetFilter (nodeOnsetClass w)
        let c1 := c.moveNode i .onset fun n => { n with onset := some c.keptTime, deadline := some deadline }
        if nodeOnsetClass w = 0 then c1.enterDown i else c1
      | .onset, false =>
        Chip.count .glitches (c.moveNode i .up fun n => { n with onset := none, deadline := none })
      | .down, false =>
        let deadline := c.tbu.mono + Config.clearHold (nodeHoldClass w)
        let c1 := c.moveNode i .clearing fun n => { n with clear := some c.keptTime, deadline := some deadline }
        if nodeHoldClass w = 0 then c1.enterUp i else c1
      | .clearing, true => c.moveNode i .down fun n => { n with clear := none, deadline := none }
      | _, _ => c
  else c

/-- A reported edge on line `i` between two samples (R117). -/
def Slm.reports (s : Slm) (old new : Word) (i : Nat) : Bool :=
  let w := s.word i
  nodeInUse w &&
    ((new.getLsbD i && !old.getLsbD i && nodeRising w) || (old.getLsbD i && !new.getLsbD i && nodeFalling w))

/-- One report: the snapshot replaces the one held (R117, R118). -/
def Chip.reportEdge (levels : Word) (c : Chip) : Chip :=
  let c1 := if c.rpu.isPending .lineEdge || c.slm.edge.isSome then c.raise .lineOverrun else c
  { c1 with slm := { c1.slm with edge := some ⟨levels, c.tbu.wall, c.tbu.mono⟩, edgeFresh := true } }

/-- A sample: every tracked node, then the edges against the previous sample; the first sample makes no edge (R107). DESIGN
CHOICE (log 41): the nodes are taken lowest first, which R107 leaves open; it shows in the slots and numbers that outages
of one sample take, and in the order of their sweeps. -/
def Chip.sample (levels : Word) (c : Chip) : Chip :=
  let c1 := (List.range Config.nodeCount).foldl (fun c i => c.sampleNode levels i) c
  let reported :=
    match c.slm.lastSample with
    | some old => (List.range Config.nodeCount).any fun i => c.slm.reports old levels i
    | none => false
  let c2 := if reported then c1.reportEdge levels else c1
  { c2 with slm := { c2.slm with lastSample := some levels, sampled := true } }

/-- On leaving RUNNING the SLM stops sampling, forgets the last samples and cancels every deadline (R107, R119). -/
def Slm.stopTracking (s : Slm) : Slm :=
  { s with lastSample := none, sampled := false, nodes := s.nodes.map fun n => { n with deadline := none } }

/-! ### The write set (R114) -/

/-- Indexes of the dirty slots. -/
def Slm.dirtySlots (s : Slm) : List Nat :=
  (List.range s.slots.length).filter fun i =>
    match s.slots[i]? with
    | some x => x.dirty
    | none => false

/-- Indexes of the dirty nodes. -/
def Slm.dirtyNodes (s : Slm) : List Nat :=
  (List.range s.nodes.length).filter fun i =>
    match s.nodes[i]? with
    | some x => x.dirty
    | none => false

/-- The write set is not empty. -/
def Slm.hasDirty (s : Slm) : Bool :=
  s.nextDirty || s.slots.any (fun x => x.dirty) || s.nodes.any (fun x => x.dirty)

/-- The nodes named by dirty slots beyond the first five, which a tenure passes over. -/
def Slm.passedOver (s : Slm) : List Nat :=
  (s.dirtySlots.drop 5).filterMap fun i => s.slots[i]?.map fun x => x.node.toNat

/-- What a write tenure writes: up to five slots, the next number, and nodes in the remaining accesses. -/
def Slm.writeChoice (s : Slm) : List Nat × Bool × List Nat :=
  let slots := s.dirtySlots.take 5
  let room := Config.tenureLimit - 4 * slots.length - (if s.nextDirty then 1 else 0)
  let nodes := (s.dirtyNodes.filter fun i => !s.passedOver.contains i).take (room / 2)
  (slots, s.nextDirty, nodes)

/-- Write slot `i`: w1, w2, w3 and then w0; its marks at the grant are owed to the tenure's end (R114, R115). -/
def Chip.writeSlot (i : Nat) (c : Chip) : Chip :=
  match c.slm.slots[i]? with
  | none => c
  | some x =>
    let c1 := (c.writeRecord .outages i 1 x.start).writeRecord .outages i 2 x.finish
    let c2 := (c1.writeRecord .outages i 3 (outageW3 x.duration x.progress)).writeRecord .outages i 0 x.w0
    Chip.owe (.slot i x.owesDown (x.owesRestore && x.status = .closed))
      { c2 with slm := c2.slm.modifySlot i fun x => { x with dirty := false } }

/-- Write node `i`: w2 and then w1. -/
def Chip.writeNode (i : Nat) (c : Chip) : Chip :=
  match c.slm.nodes[i]? with
  | none => c
  | some n =>
    let c1 := (c.writeRecord .nodes i 2 n.change.wall).writeRecord .nodes i 1 n.w1
    { c1 with slm := c1.slm.modifyNode i fun n => { n with dirty := false } }

/-- What an SLM write tenure decides at its grant (R114). DESIGN CHOICE (log 45): what its slots owe is handed in the order
in which they are written, lowest index first, so the RESTOREs of several closed slots join the sweep queue in that order;
R115 and R125 leave it open. -/
def Chip.slmWriteBody (c : Chip) : Chip :=
  let (slots, number, nodes) := c.slm.writeChoice
  let c1 := slots.foldl (fun c i => c.writeSlot i) c
  let c2 := if number then
      Chip.writeStation 104 (place c1.slm.next 0) { c1 with slm := { c1.slm with nextDirty := false } }
    else c1
  nodes.foldl (fun c i => c.writeNode i) c2

/-- What a written slot owed is handed on when the tenure has ended (R115). -/
def Chip.handSlot (i : Nat) (down restore : Bool) (c : Chip) : Chip :=
  let c1 := if down then
      Chip.raise .nodeDown { c with slm := c.slm.modifySlot i fun x => { x with owesDown := false } }
    else c
  if restore then
    let c2 := c1.raise .nodeUp
    if c2.lcc.lifecycle = .running then
      match c2.slm.slots[i]? with
      | some x =>
        Chip.handRestore x.node.toNat x.number 0
          { c2 with slm := c2.slm.modifySlot i fun x => { x with owesRestore := false } }
      | none => c2
    else c2
  else c1

/-- The Sweep Engine tells the SLM that an outage is swept (R116). -/
def Chip.markSwept (number : BitVec 16) (c : Chip) : Chip :=
  match c.slm.slots.findIdx? fun x => x.status = .closed && x.number = number with
  | some k => { c with slm := c.slm.modifySlot k fun x => { x with status := .swept } }
  | none => c

/-! ### Reconciliation at load -/

/-- The jobs of phase 4 (R121): six records to a tenure, the last four in one, then the next outage number (log 22). -/
def outageJobs : List Job := (List.range 11).map Job.outageRead ++ [.nextRead]

/-- A slot of the image from its record; a record to be repaired is kept as OPEN until its repair (R121). -/
def Chip.slotInMemory (c : Chip) (m : Memory) (i : Nat) : Slot :=
  let w0 := c.recordWord m .outages i 0
  let w3 := c.recordWord m .outages i 3
  let status : SlotStatus :=
    if outageNumber w0 = 0 then .unused
    else if outageOpen w0 then .opened
    else if outageClosed w0 then (if outageSwept w0 then .swept else .closed)
    else .opened
  ⟨status, outageNumber w0, outageNode w0, c.recordWord m .outages i 1, c.recordWord m .outages i 2, fieldNat w3 0 19,
    fieldNat w3 19 13, bit w0 26, bit w0 28, bit w0 29, false, false, false⟩

/-- One read tenure of phase 4. -/
def Chip.outageReadBody (m : Memory) (part : Nat) (c : Chip) : Chip :=
  let first := 6 * part
  let n := min 6 (Config.slotCount - first)
  { c with slm := { c.slm with
      slots := c.slm.slots ++ (List.range n).map fun k => c.slotInMemory m (first + k) } }

/-- A number is carried by a record that is not unused. -/
def namesSlot (slots : List Slot) (n : BitVec 16) : Bool := slots.any fun x => x.status != .unused && x.number = n

/-- The next number advances for as long as it names a record of the list (R121). -/
def settleNumber (slots : List Slot) : Nat → BitVec 16 → BitVec 16
  | 0, n => n
  | fuel + 1, n => if namesSlot slots n then settleNumber slots fuel (stepNumber n) else n

/-- The slot's number stands in a lower slot that is not unused (R121). -/
def Slm.duplicate (s : Slm) (i : Nat) : Bool :=
  match s.slots[i]? with
  | some x => x.status != .unused && namesSlot (s.slots.take i) x.number
  | none => false

/-- The slot is to be repaired (R121). -/
def Slm.toRepair (s : Slm) (i : Nat) : Bool :=
  match s.slots[i]? with
  | some x => x.status = .opened || s.duplicate i
  | none => false

/-- Insert a slot index before the first one of smaller age. -/
def Slm.insertByAge (s : Slm) (i : Nat) : List Nat → List Nat
  | [] => [i]
  | k :: rest =>
    let age := fun j => ((s.slots[j]?.map fun x => outageAge x.number s.next).getD 0)
    if age k < age i then i :: k :: rest else k :: s.insertByAge i rest

/-- The CLOSED slots that are not repaired, greatest age first (R122). -/
def Slm.closedByAge (s : Slm) : List Nat :=
  ((List.range s.slots.length).filter fun i =>
    match s.slots[i]? with
    | some x => x.status = .closed && !s.duplicate i
    | none => false).foldl (fun acc i => s.insertByAge i acc) []

/-- The last read of phase 4: the next number is settled, the repairs are listed, the RESTOREs handed (R121, R122). -/
def Chip.nextReadBody (m : Memory) (c : Chip) : Chip :=
  let read := field (m.readWord (stationAddr 104)) 0 16
  let start : BitVec 16 := if read = 0 then 1 else read
  let s1 := { c.slm with next := settleNumber c.slm.slots (Config.slotCount + 1) start, nextDirty := true }
  let repairs := ((List.range s1.slots.length).filter fun i => s1.toRepair i).map Job.repair
  s1.closedByAge.foldl
    (fun c i =>
      match s1.slots[i]? with
      | some x => c.handRestore x.node.toNat x.number x.progress
      | none => c)
    { c with slm := { s1 with jobs := s1.jobs ++ repairs } }

/-- One repair (R122): CLOSED, INTERRUPTED and SWEPT with no end, duration or progress; a duplicate loses its number and
is unused. -/
def Chip.repairBody (i : Nat) (c : Chip) : Chip :=
  match c.slm.slots[i]? with
  | none => c
  | some x =>
    let double := c.slm.duplicate i
    let y : Slot :=
      { x with
        status := .swept
        number := if double then 0 else x.number
        finish := 0
        duration := 0
        progress := 0
        interrupted := true }
    let c1 := (c.writeRecord .outages i 1 y.start).writeRecord .outages i 2 0
    let c2 := (c1.writeRecord .outages i 3 0).writeRecord .outages i 0 y.w0
    { c2 with slm := c2.slm.modifySlot i fun _ => { y with status := if double then .unused else .swept } }

/-- Last in phase 4 every node is UP with no outage, and joins the write set (R123). -/
def Chip.nodesUp (c : Chip) : Chip :=
  { c with slm := { c.slm with
      nodes := List.replicate Config.nodeCount ⟨.up, 0, none, none, none, c.stamp, true⟩ } }

end Sys2Proof.Machine
end

