-- ==== Sys2Proof/Machine/Taps.lean ====
section
/-! DEFINITION. The Tap Order Engine (spec/05_subscribers_and_tap_orders.md): the collections, evaluation, sending, replies,
attempts and their endings, the load walk of subscribers. -/

namespace Sys2Proof.Machine

/-! ### The collections (R79, R85) -/

/-- The collection that holds a subscriber; none means IDLE or FAILED, as w2 tells. -/
def Toe.whereIs (t : Toe) (sub : Nat) : Option OrderState :=
  if t.flights.any fun f => f.subscriber = sub then some .inFlight
  else if t.queue.any fun q => q.subscriber = sub then some .queued
  else if t.held.contains sub then some .held
  else if t.deferred.any fun d => d.subscriber = sub then some .deferred
  else none

/-- The record of a subscriber in the in-flight set. -/
def Toe.flight (t : Toe) (sub : Nat) : Option Flight := t.flights.find? fun f => f.subscriber = sub

/-- Change a record of the in-flight set. -/
def Toe.modifyFlight (t : Toe) (sub : Nat) (f : Flight → Flight) : Toe :=
  { t with flights := t.flights.map fun x => if x.subscriber = sub then f x else x }

/-- A subscriber joins the tail of the tap queue, or the deferred set if the queue is full (R85). -/
def Toe.join (t : Toe) (sub : Nat) (reassert : Bool) : Toe :=
  if t.queue.length < Config.tapQueueLimit then { t with queue := t.queue ++ [⟨sub, reassert, 0⟩] }
  else { t with deferred := t.deferred ++ [⟨sub, reassert⟩] }

/-- The deferred member of lowest index. -/
def Toe.nextDeferred (t : Toe) : Option DeferredEntry :=
  t.deferred.foldl
    (fun best d =>
      match best with
      | none => some d
      | some b => if d.subscriber < b.subscriber then some d else some b) none

/-- The deferred member of lowest index joins the tail of a queue that an entry has left (R85). -/
def Toe.moveDeferred (t : Toe) : Toe :=
  match t.nextDeferred with
  | none => t
  | some d =>
    if t.queue.length < Config.tapQueueLimit then
      { t with queue := t.queue ++ [⟨d.subscriber, d.reassert, 0⟩], deferred := t.deferred.erase d }
    else t

/-- An order returned to the head; a full queue gives its tail entry to the deferred set, without its kept attempts
(R97). -/
def Toe.joinHead (t : Toe) (q : QueueEntry) : Toe :=
  if t.queue.length < Config.tapQueueLimit then { t with queue := q :: t.queue }
  else
    match t.queue.getLast? with
    | none => { t with queue := q :: t.queue }
    | some last =>
      { t with queue := q :: t.queue.dropLast, deferred := t.deferred ++ [⟨last.subscriber, last.reassert⟩] }

/-- The subscriber that `joinHead` moves to the deferred set. -/
def Toe.displaced (t : Toe) : Option Nat :=
  if t.queue.length < Config.tapQueueLimit then none else t.queue.getLast?.map fun q => q.subscriber

/-! ### The words of a record in a TOE tenure (R80) -/

/-- w1 to w3 of a subscriber as a tenure is changing them: `timed` once w4 is to be written, `changed` once w3 is. -/
structure TapDraft where
  desired : BitVec 2
  status : TapStatus
  demand : BitVec 8
  delivered : Bool
  timed : Bool
  changed : Bool
deriving DecidableEq, Repr

/-- The draft of a record as memory holds it. -/
def Chip.tapDraft (c : Chip) (m : Memory) (sub : Nat) : TapDraft :=
  let w3 := c.recordWord m .subscribers sub 3
  ⟨subDesired (c.recordWord m .subscribers sub 1), tapStatusOf (c.recordWord m .subscribers sub 2), subDemand w3,
    subDelivered w3, false, false⟩

/-- The gate wanted is OPEN when the gate demand is not 0 (R83). -/
def TapDraft.gateWanted (d : TapDraft) : Bool := d.demand != 0

/-- A change is needed between the record's wishes and its confirmed values (R83). -/
def TapDraft.needsChange (d : TapDraft) : Bool := d.desired != d.status.level || d.gateWanted != d.status.gate

/-- w2 with the order state and the attempts used that the collections give it; `rest` and `used` where the subscriber is
in none (R80). -/
def Toe.shown (t : Toe) (sub : Nat) (rest : OrderState) (used : BitVec 4) (s : TapStatus) : TapStatus :=
  match t.whereIs sub with
  | none => { s with order := rest, attempts := used }
  | some .inFlight =>
    { s with order := .inFlight, attempts := BitVec.ofNat 4 (((t.flight sub).map fun f => f.sent).getD 0) }
  | some .queued =>
    { s with
      order := .queued
      attempts := BitVec.ofNat 4 (((t.queue.find? fun q => q.subscriber = sub).map fun q => q.kept).getD 0) }
  | some o => { s with order := o, attempts := 0 }

/-- Write a subscriber's w2. -/
def Chip.writeStatus (sub : Nat) (s : TapStatus) (c : Chip) : Chip := c.writeRecord .subscribers sub 2 s.word

/-- Write the w2 of another subscriber that the tenure has moved (R85, R97). -/
def Chip.writeMoved (m : Memory) (sub : Nat) (c : Chip) : Chip :=
  c.writeStatus sub (c.toe.shown sub .idle 0 (tapStatusOf (c.recordWord m .subscribers sub 2)))

/-- The block's own writes before w2, in their order: w4 and then w3 (R80). -/
def Chip.writeDraft (sub : Nat) (d : TapDraft) (c : Chip) : Chip :=
  let c1 := if d.timed then c.writeRecord .subscribers sub 4 c.tbu.wall else c
  if d.changed then c1.writeRecord .subscribers sub 3 (subW3 d.demand d.delivered) else c1

/-- The subscriber's w2 as the commit of the tenure (R80). -/
def Chip.writeCommit (sub : Nat) (rest : OrderState) (used : BitVec 4) (d : TapDraft) (c : Chip) : Chip :=
  c.writeStatus sub (c.toe.shown sub rest used d.status)

/-- The block's own writes in their order: w4, w3, and w2 as the commit (R80). -/
def Chip.commitTap (sub : Nat) (rest : OrderState) (used : BitVec 4) (d : TapDraft) (c : Chip) : Chip :=
  (c.writeDraft sub d).writeCommit sub rest used d

/-! ### Handing on -/

/-- The price of an event: that of the entry its number is bound to, 0 if none (R78). -/
def Chip.priceOf (c : Chip) (number : BitVec 8) : BitVec 16 :=
  match c.lue.bound number with
  | none => 0
  | some i => ((c.lue.entries[i]?).map fun e => e.price).getD 0

/-- Put a tap order frame on the tap link. -/
def Chip.sendTap (f : Flight) (c : Chip) : Chip :=
  { c with tapLink := { c.tapLink with
      sent := c.tapLink.sent ++ [tapFrame f.tapAddress f.tapPort f.level f.gate f.tag] } }

/-- The FREEZE policy holds attempts back (R86, R94). -/
def Chip.frozen (c : Chip) : Bool := c.fallback && c.settings.freeze

/-- Sending from the head is allowed (R86). -/
def Chip.sendAllowed (c : Chip) : Bool :=
  c.lcc.lifecycle = .running && !c.frozen && decide (c.toe.flights.length < c.settings.window) &&
    !c.toe.queue.isEmpty && !c.toe.blocked

/-- The in-flight record whose ending or waiting reply is written next: oldest first, then lowest index (R81). -/
def Chip.tapWork (c : Chip) : Option Nat :=
  (c.toe.flights.filter fun f => f.ending.isSome || f.reply.isSome).foldl
    (fun best f =>
      match best with
      | none => some f
      | some b =>
        let age := fun x : Flight => (c.tbu.mono - x.workAt).toNat
        if age b < age f ∨ (age b = age f ∧ f.subscriber < b.subscriber) then some f else some b) none
    |>.map fun f => f.subscriber

/-! ### Evaluation (R83, R84, R78) -/

/-- The recheck mark after a request (R83). -/
def Recheck.after (r : Recheck) (reassert : Bool) : Recheck :=
  if reassert then .reassert else if r = .none then .change else r

/-- The collections after an EVALUATE or REQUEUE request decided on a record in use (R83, R84). -/
def Toe.evaluated (t : Toe) (r : EvalRequest) (change : Bool) : Toe :=
  match t.whereIs r.subscriber with
  | none => if change then t.join r.subscriber r.reassert else t
  | some .queued =>
    if r.reassert then
      { t with queue := t.queue.map fun q => if q.subscriber = r.subscriber then { q with reassert := true } else q }
    else t
  | some .deferred =>
    if r.reassert then
      { t with deferred := t.deferred.map fun d =>
          if d.subscriber = r.subscriber then { d with reassert := true } else d }
    else t
  | some .held =>
    if r.kind = .requeue then { t with held := t.held.erase r.subscriber }.join r.subscriber r.reassert else t
  | some .inFlight => t.modifyFlight r.subscriber fun f => { f with recheck := f.recheck.after r.reassert }
  | some _ => t

/-- An EVALUATE or REQUEUE request is handled (R83, R84). -/
def Chip.evaluateRecord (m : Memory) (r : EvalRequest) (c : Chip) : Chip :=
  let d := c.tapDraft m r.subscriber
  let c1 :=
    if subInUse (c.recordWord m .subscribers r.subscriber 0) then
      { c with toe := c.toe.evaluated r (d.needsChange || r.reassert) }
    else c
  c1.commitTap r.subscriber d.status.order d.status.attempts d

/-- A RETIRE request is handled: the demand of a record still out of use is closed (R78). -/
def Chip.retireRecord (m : Memory) (r : EvalRequest) (c : Chip) : Chip :=
  if subInUse (c.recordWord m .subscribers r.subscriber 0) then c.evaluateRecord m r
  else
    let d := c.tapDraft m r.subscriber
    if d.demand = 0 then c
    else
      let c1 := if d.delivered then c
        else c.append (refundRecord c.stamp r.subscriber d.demand 3 (c.priceOf d.demand)) true
      c1.writeRecord .subscribers r.subscriber 3 (subW3 0 false)

/-- The job is the evaluation of an oldest request of kind `k`; an empty list counts as EVALUATE. -/
def Chip.evalPick (k : EvalKind) (c : Chip) (j : Job) : Bool :=
  j = .evaluation && decide ((c.toe.evals.head?.map fun r => r.kind).getD .evaluate = k)

/-- The oldest request leaves the list and is handled at the grant. -/
def Chip.evaluationBody (m : Memory) (c : Chip) : Chip :=
  match c.toe.evals with
  | [] => c
  | r :: rest =>
    let c1 := { c with toe := { c.toe with evals := rest } }
    if r.kind = .retire then c1.retireRecord m r else c1.evaluateRecord m r

/-! ### Sending (R86 to R89) -/

/-- The first tag not held by a record in flight, counting up from `tag` (R89). -/
def freeTag (flights : List Flight) : Nat → BitVec 4 → BitVec 4
  | 0, tag => tag
  | fuel + 1, tag => if flights.any fun f => f.tag = tag then freeTag flights fuel (tag + 1) else tag

/-- The head leaves the queue, and a deferred member takes the room, its w2 written (R85). -/
def Chip.departHead (m : Memory) (rest : List QueueEntry) (c : Chip) : Chip :=
  let t := { c.toe with queue := rest }
  match t.nextDeferred with
  | none => { c with toe := t }
  | some d => Chip.writeMoved m d.subscriber { c with toe := t.moveDeferred }

/-- The order of the head is sent: the in-flight record, with a reservation for a change of level (R87). -/
def Chip.sendHead (m : Memory) (q : QueueEntry) (rest : List QueueEntry) (d : TapDraft) (c : Chip) : Chip :=
  let w0 := c.recordWord m .subscribers q.subscriber 0
  let levelChange := d.desired != d.status.level
  let tag := freeTag c.toe.flights 16 c.toe.tag
  let flight : Flight :=
    { subscriber := q.subscriber
      tag := tag
      level := d.desired
      gate := d.gateWanted
      sent := q.kept + 1
      deadline := none
      oneWay := c.nodeIsOneWay (subNode w0)
      matched := false
      anyReply := false
      levelReserved := levelChange
      recheck := .none
      reply := none
      ending := none
      workAt := c.tbu.mono
      tapAddress := subTapAddress w0
      tapPort := subTapPort w0
      node := field w0 24 5 }
  let c1 := if levelChange then c.reserve else c
  let c2 := Chip.departHead m rest
    { c1 with toe := { c1.toe with flights := c1.toe.flights ++ [flight], tag := tag + 1 } }
  Chip.owe (.attempt q.subscriber) (c2.commitTap q.subscriber .idle 0 d)

/-- The send tenure decides the head of the queue (R87). Where the order would be sent but sending is no longer allowed,
the head stays QUEUED (log 15). -/
def Chip.sendBody (m : Memory) (c : Chip) : Chip :=
  match c.toe.queue with
  | [] => c
  | q :: rest =>
    let w0 := c.recordWord m .subscribers q.subscriber 0
    let d := c.tapDraft m q.subscriber
    if !subInUse w0 then
      Chip.commitTap q.subscriber .idle d.status.attempts d (c.departHead m rest)
    else if c.nodeOut (subNode w0) then
      let c1 := c.departHead m rest
      Chip.commitTap q.subscriber .idle 0 d { c1 with toe := { c1.toe with held := insertNat q.subscriber c1.toe.held } }
    else if !d.needsChange && !q.reassert then
      Chip.commitTap q.subscriber .idle d.status.attempts { d with status := { d.status with result := 3 } }
        (c.departHead m rest)
    else if d.desired != d.status.level && c.free = 0 then
      Chip.commitTap q.subscriber .idle 0 d (Chip.markStatus { c with toe := { c.toe with blocked := true } })
    else if c.sendAllowed then c.sendHead m q rest d
    else c.commitTap q.subscriber .idle 0 d

/-- Decide the ending of a record in flight. -/
def Chip.decideEnding (sub : Nat) (e : Ending) (c : Chip) : Chip :=
  { c with toe := c.toe.modifyFlight sub fun f =>
      { f with ending := some e, deadline := none, workAt := c.tbu.mono } }

/-- An attempt starts: its frame is handed to the link and its deadline set (R87, R94). -/
def Chip.startAttempt (f : Flight) (c : Chip) : Chip :=
  Chip.sendTap f { c with toe := c.toe.modifyFlight f.subscriber fun x =>
    { x with deadline := some (c.tbu.mono + c.settings.tapTimeout) } }

/-- The send tenure has ended: the first attempt goes out (R87). No attempt is sent for a node that is out, in STOPPING, or
under a freeze (R94, R32, R86): the order then ends HELD or RETURNED, the attempt not counted (log 16). -/
def Chip.firstAttempt (sub : Nat) (c : Chip) : Chip :=
  match c.toe.flight sub with
  | none => c
  | some f =>
    if f.ending.isSome then c
    else if c.nodeOut f.node.toNat then c.decideEnding sub .held
    else if c.lcc.lifecycle != .running || c.frozen then
      Chip.decideEnding sub .returned { c with toe := c.toe.modifyFlight sub fun x => { x with sent := x.sent - 1 } }
    else c.startAttempt f

/-! ### Replies (R90 to R93) -/

/-- A reply matches a record (R90). -/
def Flight.matches (f : Flight) (r : TapReply) : Bool :=
  f.tag = r.tag && f.tapAddress = r.address && f.tapPort = r.port && !f.oneWay && f.ending.isNone

/-- The level that a reply reports can be taken (R91, R92): the confirmed level is the one last written, the running
tenure's write included (log 25). -/
def Chip.levelTakable (m : Memory) (f : Flight) (level : BitVec 2) (c : Chip) : Bool :=
  f.levelReserved || (tapStatusOf (c.peek m (c.recordAddr .subscribers f.subscriber 2))).level = level ||
    decide (0 < c.free)

/-- The reply succeeds (R91). -/
def Chip.replySucceeds (m : Memory) (f : Flight) (r : TapReport) (c : Chip) : Bool :=
  r.level = f.level && r.gate = f.gate && decide (c.settings.minAttempts ≤ f.sent) && c.levelTakable m f r.level

/-- A good tap reply frame is matched against the in-flight set (R90, R91). -/
def Chip.tapReply (m : Memory) (r : TapReply) (c : Chip) : Chip :=
  match c.toe.flights.find? fun f => f.matches r with
  | none => c.count .staleTapReplies
  | some f =>
    let c1 := { c with toe := c.toe.modifyFlight f.subscriber fun x =>
      { x with matched := true, anyReply := true, reply := some r.report, workAt := c.tbu.mono } }
    if c.replySucceeds m f r.report then c1.decideEnding f.subscriber .confirmed else c1

/-- What taking a level leaves: whether it was taken, the order's reservation, the draft, the part. -/
structure LevelTaken where
  taken : Bool
  reserved : Bool
  draft : TapDraft
  chip : Chip
deriving DecidableEq, Repr

/-- The confirmed level becomes `level`, with one LEVEL record if it changes: in the order's reservation, else in a fresh
slot, else not at all (R92). -/
def Chip.takeLevel (sub : Nat) (reserved : Bool) (level result : BitVec 2) (d : TapDraft) (c : Chip) : LevelTaken :=
  if level = d.status.level then ⟨true, reserved, d, c⟩
  else
    let d1 := { d with status := { d.status with level := level } }
    let record := levelRecord c.stamp sub d.status.level level result
    if reserved then ⟨true, false, d1, c.append record true⟩
    else if 0 < c.free then ⟨true, false, d1, c.append record false⟩
    else ⟨false, false, d, c⟩

/-- The confirmed gate is set; opening it for an undelivered demand delivers the demand and releases its reservation
(R93). -/
def Chip.takeGate (gate : Bool) (d : TapDraft) (c : Chip) : TapDraft × Chip :=
  let d1 := { d with status := { d.status with gate := gate } }
  if gate && d.demand != 0 && !d.delivered then ({ d1 with delivered := true, changed := true }, c.unreserve) else (d1, c)

/-- The confirmation time and its flags are written as stamped at the grant (R92, R98). -/
def TapDraft.stamped (d : TapDraft) (s : Stamp) : TapDraft :=
  { d with status := { d.status with unset := s.unset, unlocked := s.unlocked }, timed := true }

/-- Confirmed values are taken: level, gate and stamp. -/
def Chip.takeValues (sub : Nat) (reserved : Bool) (level result : BitVec 2) (gate : Bool) (d : TapDraft) (c : Chip) :
    LevelTaken :=
  let l := c.takeLevel sub reserved level result d
  let g := l.chip.takeGate gate l.draft
  ⟨l.taken, l.reserved, g.1.stamped c.stamp, g.2⟩

/-- The waiting reply of a record, if any, is taken (R92); its result is CONFIRMED for the ordered level, else REPORTED. -/
def Chip.takeReply (f : Flight) (d : TapDraft) (c : Chip) : LevelTaken :=
  match f.reply with
  | none => ⟨true, f.levelReserved, d, c⟩
  | some r =>
    let l := c.takeValues f.subscriber f.levelReserved r.level (if r.level = f.level then 1 else 3) r.gate d
    { l with draft := { l.draft with status := { l.draft.status with lowSignal := r.lowSignal } } }

/-- A reply tenure writes the waiting reply of a record whose ending is not decided (R92). -/
def Chip.replyBody (m : Memory) (f : Flight) (c : Chip) : Chip :=
  let l := c.takeReply f (c.tapDraft m f.subscriber)
  let c1 := { l.chip with toe := l.chip.toe.modifyFlight f.subscriber fun x =>
    { x with reply := none, levelReserved := l.reserved } }
  c1.commitTap f.subscriber .idle 0 l.draft

/-! ### Endings (R94 to R99) -/

/-- The record leaves the in-flight set; a level reservation still held is released. -/
def Chip.leaveFlight (sub : Nat) (reserved : Bool) (c : Chip) : Chip :=
  let c1 := if reserved then c.unreserve else c
  { c1 with toe := { c1.toe with flights := c1.toe.flights.filter fun f => f.subscriber != sub } }

/-- The subscriber rejoins the queue if its recheck mark asks for it and a change is still needed (R99, R95). -/
def Chip.rejoin (f : Flight) (d : TapDraft) (c : Chip) : Chip :=
  match f.recheck with
  | .none => c
  | .reassert => { c with toe := c.toe.join f.subscriber true }
  | .change => if d.needsChange then { c with toe := c.toe.join f.subscriber false } else c

/-- Ending FAILED (R95). -/
def Chip.failBody (m : Memory) (f : Flight) (c : Chip) : Chip :=
  let l := c.takeReply f (c.tapDraft m f.subscriber)
  let d := l.draft
  let refund := f.gate && d.demand != 0 && !d.delivered
  let c1 := if refund then
      l.chip.append (refundRecord c.stamp f.subscriber d.demand 2 (c.priceOf d.demand)) true
    else l.chip
  let d1 := if refund then { d with demand := 0, changed := true } else d
  let d2 := { d1 with status := { d1.status with result := if f.anyReply then 5 else 4 } }
  let c2 := Chip.rejoin f d2 (c1.leaveFlight f.subscriber l.reserved)
  Chip.owe .tapFailure
    (Chip.owe (.cause .tapFailed) (c2.commitTap f.subscriber .failed (BitVec.ofNat 4 f.sent) d2))

/-- Ending HELD (R96). -/
def Chip.heldBody (m : Memory) (f : Flight) (c : Chip) : Chip :=
  let l := c.takeReply f (c.tapDraft m f.subscriber)
  let c1 := l.chip.leaveFlight f.subscriber l.reserved
  Chip.commitTap f.subscriber .idle 0 l.draft
    { c1 with toe := { c1.toe with held := insertNat f.subscriber c1.toe.held } }

/-- Ending RETURNED (R97); the w2 of a displaced tail entry stands between the record's own w3 and w2 (R80). -/
def Chip.returnedBody (m : Memory) (f : Flight) (c : Chip) : Chip :=
  let l := c.takeReply f (c.tapDraft m f.subscriber)
  let c1 := l.chip.leaveFlight f.subscriber l.reserved
  let c2 := { c1 with toe := c1.toe.joinHead ⟨f.subscriber, decide (f.recheck = Recheck.reassert), f.sent⟩ }
  let c3 := c2.writeDraft f.subscriber l.draft
  let c4 := match c1.toe.displaced with
    | none => c3
    | some other => c3.writeMoved m other
  c4.writeCommit f.subscriber .idle 0 l.draft

/-- The completion of an order with its last result (R99). -/
def Chip.finishOrder (f : Flight) (result : BitVec 3) (l : LevelTaken) : Chip :=
  let d := { l.draft with status := { l.draft.status with result := result } }
  let c1 := Chip.rejoin f d (l.chip.leaveFlight f.subscriber l.reserved)
  c1.commitTap f.subscriber .idle (BitVec.ofNat 4 f.sent) d

/-- Ending UNCONFIRMED: the confirmed values become the ordered ones (R98, R99). -/
def Chip.unconfirmedBody (m : Memory) (f : Flight) (c : Chip) : Chip :=
  let l0 := c.takeReply f (c.tapDraft m f.subscriber)
  Chip.finishOrder f 2 (l0.chip.takeValues f.subscriber l0.reserved f.level 2 f.gate l0.draft)

/-- Ending CONFIRMED (R99), withdrawn where the level is set aside for want of space (R91). -/
def Chip.confirmedBody (m : Memory) (f : Flight) (c : Chip) : Chip :=
  let l := c.takeReply f (c.tapDraft m f.subscriber)
  if l.taken then Chip.finishOrder f 1 l
  else
    let c1 := { l.chip with toe := l.chip.toe.modifyFlight f.subscriber fun x =>
      { x with reply := none, ending := none, levelReserved := l.reserved } }
    Chip.owe (.redeadline f.subscriber) (c1.commitTap f.subscriber .idle 0 l.draft)

/-- What the tenure of an in-flight record decides, by its ending as the grant finds it. -/
def Chip.tapLinkBody (m : Memory) (sub : Nat) (c : Chip) : Chip :=
  match c.toe.flight sub with
  | none => c
  | some f =>
    match f.ending with
    | none => c.replyBody m f
    | some .failed => c.failBody m f
    | some .held => c.heldBody m f
    | some .returned => c.returnedBody m f
    | some .unconfirmed => c.unconfirmedBody m f
    | some .confirmed => c.confirmedBody m f

/-- The job is that of an in-flight record whose ending is `e` (none: a waiting reply). -/
def Chip.linkPick (e : Option Ending) (c : Chip) (j : Job) : Bool :=
  match j with
  | .tapLink sub => decide ((c.toe.flight sub).bind (fun f => f.ending) = e)
  | _ => false

/-- What the tenure of such a job decides at its grant. -/
def Chip.linkBody (m : Memory) (j : Job) (c : Chip) : Chip :=
  match j with
  | .tapLink sub => c.tapLinkBody m sub
  | _ => c

/-- After a withdrawn ending the deadline runs one attempt timeout from the end of the tenure (R91). -/
def Chip.redeadline (sub : Nat) (c : Chip) : Chip :=
  { c with toe := c.toe.modifyFlight sub fun f =>
      if f.ending.isNone then { f with deadline := some (c.tbu.mono + c.settings.tapTimeout) } else f }

/-- The next attempt of an order is sent without a tenure (R94). -/
def Chip.retry (f : Flight) (c : Chip) : Chip :=
  Chip.startAttempt f
    { c with toe := c.toe.modifyFlight f.subscriber fun x => { x with sent := x.sent + 1, matched := false } }

/-- The deadline of an in-flight record expires (R94). -/
def Chip.tapExpiry (f : Flight) (c : Chip) : Chip :=
  if f.oneWay && decide (c.settings.minAttempts ≤ f.sent) then c.decideEnding f.subscriber .unconfirmed
  else if !f.oneWay && decide (c.settings.maxAttempts ≤ f.sent) then c.decideEnding f.subscriber .failed
  else if c.nodeOut f.node.toNat then c.decideEnding f.subscriber .held
  else if c.lcc.lifecycle = .stopping then c.decideEnding f.subscriber .returned
  else if c.frozen then c.decideEnding f.subscriber .returned
  else c.retry f

/-! ### The load walk of the subscribers (R103 to R105) -/

/-- Entry `i` adds its number to the temporary set if it is an in-use EVENT entry that passes R52 (R103). -/
def Chip.walkNumber (m : Memory) (events : List (BitVec 8 × Nat)) (i : Nat) (c : Chip) : List (BitVec 8 × Nat) :=
  let e := c.entryInMemory m i
  if e.inUse && e.kindEvent && e.whole events i then events ++ [(e.number, i)] else events

/-- One tenure of six channel map entries (R103). -/
def Chip.eventSetBody (m : Memory) (c : Chip) : Chip :=
  match c.toe.walk with
  | none => c
  | some w =>
    let n := min 6 (c.mapCount - w.entry)
    let events := (List.range n).foldl (fun s k => c.walkNumber m s (w.entry + k)) w.events
    { c with toe := { c.toe with walk := some { w with entry := w.entry + n, events := events } } }

/-- The gate demand of a walked record (R104, R105): what is left of the draft, and whether the demand was closed. -/
def Chip.walkDemand (sub : Nat) (keep : Bool) (d : TapDraft) (c : Chip) : Bool × TapDraft × Chip :=
  let closed := { d with demand := 0, delivered := false, changed := true }
  if d.demand = 0 then (false, d, c)
  else if d.delivered then if keep then (false, d, c) else (true, closed, c)
  else if c.free = 0 then (true, closed, c)
  else if keep then (false, d, c.reserve)
  else (true, closed, c.reserve.append (refundRecord c.stamp sub d.demand 3 0) true)

/-- A RESTORE sweep queued in phase 4 will reach a held subscriber (R103). -/
def Chip.sweepReaches (node sub : Nat) (c : Chip) : Bool :=
  c.swe.queue.any fun e =>
    match e.kind with
    | .restore n _ => n = node && decide (e.resume ≤ sub)
    | .eventClose _ => false

/-- The collections after the walk of an in-use record found in state `o` (R103). -/
def Toe.walked (t : Toe) (sub : Nat) (o : OrderState) (change reached : Bool) : Toe :=
  match o with
  | .inFlight => t.join sub true
  | .queued => t.join sub false
  | .deferred => t.join sub false
  | .held => if reached then { t with held := insertNat sub t.held } else t.join sub false
  | .idle => if change then t.join sub false else t
  | .failed => t

/-- Walk one subscriber record (R103, R104). -/
def Chip.walkSubscriber (m : Memory) (events : List (BitVec 8 × Nat)) (sub : Nat) (c : Chip) : Chip :=
  let w0 := c.recordWord m .subscribers sub 0
  let d := c.tapDraft m sub
  if subInUse w0 then
    let r := c.walkDemand sub (events.any fun b => b.1 = d.demand) d
    let found : OrderState := if r.1 then .idle else d.status.order
    let c1 := r.2.2
    let c2 := { c1 with toe := c1.toe.walked sub found r.2.1.needsChange (c.sweepReaches (subNode w0) sub) }
    c2.commitTap sub (if found = .failed then .failed else .idle) 0 r.2.1
  else
    let r := c.walkDemand sub false d
    if r.2.1.changed then r.2.2.writeRecord .subscribers sub 3 (subW3 0 false) else r.2.2

/-- One tenure of the subscriber walk. -/
def Chip.subscriberWalkBody (m : Memory) (c : Chip) : Chip :=
  match c.toe.walk with
  | none => c
  | some w =>
    let c1 := c.walkSubscriber m w.events w.subscriber
    { c1 with toe := { c1.toe with walk := some { w with subscriber := w.subscriber + 1 } } }

/-! ### Stopping -/

/-- On entry into STOPPED the collections and the list are emptied and the queue block is cleared (R101). -/
def Chip.stopTaps (c : Chip) : Chip :=
  let c1 := c.releaseBlock
  { c1 with toe := { c1.toe with queue := [], flights := [], held := [], deferred := [], evals := [], walk := none } }

end Sys2Proof.Machine
end

