-- ==== Sys2Proof/Machine/Purchases.lean ====
section
/-! DEFINITION. The Purchase Unit (spec/08_purchases.md): taking a PURCHASE write, the checks and the writes of the
evaluation tenure, the end of an evaluation, and a held write taken then. -/

namespace Sys2Proof.Machine

/-! ### Taking a PURCHASE write (R138) -/

/-- Why a PURCHASE write is refused when it is taken: the state before the op (R138). -/
def Chip.purchaseRefusal (v : Word) (c : Chip) : Option RefusalKind :=
  if c.lcc.lifecycle != .running then some .notRunning
  else if (purchaseOpOfCode (field v 28 2)).isNone then some .badCommand
  else none

/-- An accepted PURCHASE write begins its evaluation (R138). -/
def Chip.beginEvaluation (p : Port) (v : Word) (c : Chip) : Chip :=
  match purchaseOpOfCode (field v 28 2) with
  | none => c
  | some op =>
    let sub : BitVec 12 := field v 0 12
    let entry : BitVec 7 := field v 12 7
    { c with pcu := { c.pcu with
        inFlight := some ⟨op, p, sub, entry⟩
        record := ⟨c.pcu.record.number + 1, p, op, sub, entry, .inProgress⟩ } }

/-- Held writes are taken, first held first, once no evaluation is in flight: each is refused, or begins the next
evaluation (R8, R145). -/
def Chip.takeHeld : List Port → Chip → Chip
  | [], c => c
  | p :: rest, c =>
    if c.pcu.inFlight.isSome then c
    else
      let c1 := { c with pcu := { c.pcu with held := rest } }
      match (c1.port p).out with
      | none => Chip.takeHeld rest c1
      | some o =>
        match c1.purchaseRefusal o.access.data with
        | some kind => Chip.takeHeld rest (Chip.endAccess p true 0 (c1.noteRefusal kind p o.access.addr))
        | none => Chip.takeHeld rest (Chip.endAccess p false 0 (c1.beginEvaluation p o.access.data))

/-! ### The checks (R140 to R143) -/

/-- What the evaluation tenure decides on: the subscriber's words where the index is below the count, and the entry where
it names an in-use EVENT entry that is not set aside (R140). -/
structure PurchaseView where
  sub : Nat
  w0 : Word
  draft : TapDraft
  inUse : Bool
  entry : Option Entry
deriving DecidableEq, Repr

/-- The view of an evaluation at its grant. -/
def Chip.purchaseView (m : Memory) (e : Evaluation) (c : Chip) : PurchaseView where
  sub := e.subscriber.toNat
  w0 := c.recordWord m .subscribers e.subscriber.toNat 0
  draft := c.tapDraft m e.subscriber.toNat
  inUse := decide (e.subscriber.toNat < c.subscriberCount) &&
    subInUse (c.recordWord m .subscribers e.subscriber.toNat 0)
  entry := (c.lue.entries[e.entry.toNat]?).filter fun x => x.event

/-- The account state of a view. -/
def PurchaseView.account (v : PurchaseView) (m : Memory) (c : Chip) : BitVec 2 :=
  subAccount (c.recordWord m .subscribers v.sub 1)

/-- The result of a BUY: ACCEPTED, or the first check that fails (R141). -/
def Chip.buyResult (m : Memory) (v : PurchaseView) (c : Chip) : PurchaseResult :=
  if c.fallback then .fallback
  else if !c.tbu.set then .timeUnset
  else if !v.inUse then .badSubscriber
  else
    match v.entry with
    | none => .badEntry
    | some e =>
      if v.account m c != 0 then .notActive
      else if v.draft.desired = 0 || v.draft.status.level = 0 then .levelOff
      else if e.phase != some .before && e.phase != some .inside then .window
      else if v.draft.demand = e.number then .already
      else if v.draft.demand != 0 then .gateBusy
      else if c.nodeOut (subNode v.w0) then .nodeDown
      else if c.free < c.settings.reserve + 2 then .logFull
      else .accepted

/-- The result of a CANCEL: ACCEPTED, or the first check that fails (R143). -/
def Chip.cancelResult (v : PurchaseView) (c : Chip) : PurchaseResult :=
  if c.fallback then .fallback
  else if !v.inUse then .badSubscriber
  else
    match v.entry with
    | none => .badEntry
    | some e =>
      if e.phase != some .before then .window
      else if v.draft.demand != e.number then .notPurchased
      else if v.draft.delivered && c.free = 0 then .logFull
      else .accepted

/-! ### The writes -/

/-- The demand of a subscriber as the evaluation leaves it: w3 is the tenure's last write (R142, R144). -/
def Chip.writeDemand (sub : Nat) (demand : BitVec 8) (delivered : Bool) (c : Chip) : Chip :=
  Chip.owe (.request ⟨sub, .evaluate, false⟩) (c.writeRecord .subscribers sub 3 (subW3 demand delivered))

/-- The writes of an accepted BUY (R142). -/
def Chip.buyWrites (v : PurchaseView) (i : BitVec 7) (e : Entry) (c : Chip) : Chip :=
  let c1 := c.append (purchaseLogRecord c.stamp v.sub e.number i e.price) false
  if v.draft.status.gate then c1.writeDemand v.sub e.number true
  else c1.reserve.writeDemand v.sub e.number false

/-- The writes of an accepted CANCEL (R144). -/
def Chip.cancelWrites (v : PurchaseView) (e : Entry) (c : Chip) : Chip :=
  Chip.writeDemand v.sub 0 false (c.append (refundRecord c.stamp v.sub e.number 1 e.price) (!v.draft.delivered))

/-- What the evaluation tenure decides at its grant; its end is owed in the order of R145. -/
def Chip.purchaseBody (m : Memory) (c : Chip) : Chip :=
  match c.pcu.inFlight with
  | none => c
  | some e =>
    let v := c.purchaseView m e
    let result := match e.op with
      | .buy => c.buyResult m v
      | .cancel => c.cancelResult v
    let c1 := c.owe (.purchaseEnd result)
    let c2 := if result = .accepted then
        match v.entry, e.op with
        | some x, .buy => c1.buyWrites v e.entry x
        | some x, .cancel => c1.cancelWrites v x
        | none, _ => c1
      else c1
    c2.owe (.cause .purchaseDone)

/-- The result is written and the flag cleared (R145). -/
def Chip.endEvaluation (r : PurchaseResult) (c : Chip) : Chip :=
  { c with pcu := { c.pcu with inFlight := none, record := { c.pcu.record with result := r } } }

end Sys2Proof.Machine
end

