-- ==== Sys2Proof/Machine/Reports.lean ====
section
/-! DEFINITION. The report tenure of the Report Unit (R172, R173, R118). -/

namespace Sys2Proof.Machine

/-- Something is to be mirrored: a dirty word, an unwritten note, or a snapshot handed and not put into a tenure yet
(R172). -/
def Chip.reportDue (c : Chip) : Bool :=
  c.rpu.statusDirty || c.rpu.copyDirty || c.rpu.countDirty || !c.rpu.notes.isEmpty ||
    c.rpu.counterDirty.any (fun b => b) || c.slm.edgeFresh

/-- The status word, if dirty. -/
def Chip.reportStatus (c : Chip) : Chip :=
  if c.rpu.statusDirty then
    Chip.writeStation 80 c.statusWord { c with rpu := { c.rpu with statusDirty := false } }
  else c

/-- The pending-cause copy, if dirty. -/
def Chip.reportCopy (c : Chip) : Chip :=
  if c.rpu.copyDirty then
    Chip.writeStation 82 (place c.rpu.causes 0) { c with rpu := { c.rpu with copyDirty := false } }
  else c

/-- The line snapshot, if one was handed (R118). -/
def Chip.reportSnapshot (c : Chip) : Chip :=
  match c.slm.edge with
  | some x =>
    if c.slm.edgeFresh then
      let c1 := (c.writeStation 83 x.levels).writeStation 84 x.wall
      Chip.owe .snapshot (Chip.writeStation 85 x.mono { c1 with slm := { c1.slm with edgeFresh := false } })
    else c
  | none => c

/-- One ring entry (R173, spec/11). -/
def Chip.reportNote (c : Chip) (n : Note) : Chip :=
  let first := 112 + 4 * ringEntry n.number
  let kind : Word := place (BitVec.ofNat 4 n.kind.order) 0 ||| flagAt (portIsB n.port) 4
  (((c.writeStation first kind).writeStation (first + 1) (place n.addr 0)).writeStation (first + 2) n.wall).writeStation
    (first + 3) n.mono

/-- The accesses that a running tenure has left. -/
def Chip.accessesLeft (c : Chip) : Nat :=
  match c.tau.running with
  | some t => Config.tenureLimit - t.writes.length
  | none => 0

/-- Unwritten ring entries, oldest first, as many whole ones as leave room for the note count, and then the count as one
more than the newest written (R172, R173). -/
def Chip.reportNotes (c : Chip) : Chip :=
  let n := (c.accessesLeft - 1) / 4
  let written := c.rpu.notes.take n
  let left := c.rpu.notes.drop n
  let c1 := written.foldl (fun c n => c.reportNote n) { c with rpu := { c.rpu with notes := left } }
  match written.getLast?, c.rpu.countDirty with
  | some newest, true =>
    Chip.writeStation 105 (newest.number + 1) { c1 with rpu := { c1.rpu with countDirty := !left.isEmpty } }
  | none, true => if left.isEmpty then
      Chip.writeStation 105 c.rpu.noteCount { c1 with rpu := { c1.rpu with countDirty := false } } else c1
  | _, false => c1

/-- One counter, if dirty and an access is left. -/
def Chip.reportCounter (c : Chip) (i : Nat) : Chip :=
  if c.rpu.counterDirty.getD i false && decide (0 < c.accessesLeft) then
    Chip.writeStation (86 + i) (c.rpu.counters.getD i 0)
      { c with rpu := { c.rpu with counterDirty := c.rpu.counterDirty.modify i fun _ => false } }
  else c

/-- What a report tenure decides at its grant (R172). -/
def Chip.reportBody (c : Chip) : Chip :=
  (List.range 10).foldl Chip.reportCounter c.reportStatus.reportCopy.reportSnapshot.reportNotes

/-- A report tenure that wrote a snapshot has ended: LINE_EDGE, and the pending-edge state is cleared unless a newer
snapshot has been handed since the grant (R118). -/
def Chip.snapshotWritten (c : Chip) : Chip :=
  let c1 := c.raise .lineEdge
  if c1.slm.edgeFresh then c1 else { c1 with slm := { c1.slm with edge := none } }

end Sys2Proof.Machine
end

