-- ==== Sys2Proof/Machine/Sweeps.lean ====
section
/-! DEFINITION. The Sweep Engine (spec/07_sweeps.md): the active sweep, its start, step and end tenures, the wait for log
space, stopping. -/

namespace Sys2Proof.Machine

/-! ### The active sweep -/

/-- The active entry. -/
def Swe.active (s : Swe) : Option SweepEntry := s.queue.find? fun e => e.active

/-- Change the active entry. -/
def Swe.modifyActive (s : Swe) (f : SweepEntry → SweepEntry) : Swe :=
  { s with queue := s.queue.map fun e => if e.active then f e else e }

/-- The queue without its active entry. -/
def Swe.others (s : Swe) : List SweepEntry := s.queue.filter fun e => !e.active

/-- The sweep needs a start tenure: a RESTORE that names an outage (R126). -/
def SweepKind.recorded : SweepKind → Bool
  | .restore _ outage => outage != 0
  | .eventClose _ => false

/-- What is kept of a sweep that has just become active. -/
def SweepWork.fresh (kind : SweepKind) : SweepWork := ⟨!kind.recorded, none, 0, 0, 0, false⟩

/-- No sweep is active from now on; `queue` is what is left (R126). -/
def Chip.sweepOff (queue : List SweepEntry) (c : Chip) : Chip := Chip.marking c { c with swe := ⟨queue, none⟩ }

/-- The entry leaves the queue (R131, R133). -/
def Chip.sweepLeaves (c : Chip) : Chip := c.sweepOff c.swe.others

/-- The end of a RESTORE without a record: the repeat mark sends it to the tail to walk again (R131). -/
def Chip.endUnrecorded (e : SweepEntry) (c : Chip) : Chip :=
  let again : SweepEntry := ⟨e.kind, 0, true, false, false⟩
  Chip.raise .sweepDone (c.sweepOff (if e.repeatMark then c.swe.others ++ [again] else c.swe.others))

/-- The end of an EVENT_CLOSE (R133). -/
def Chip.endClose (number : BitVec 8) (c : Chip) : Chip := Chip.raise .sweepDone (Chip.closeEnded number c.sweepLeaves)

/-- The end of a RESTORE whose end tenure has ended (R131). -/
def Chip.endRecorded (outage : BitVec 16) (c : Chip) : Chip :=
  Chip.raise .sweepDone (Chip.markSwept outage c).sweepLeaves

/-- A started sweep with no step left and no end tenure to make ends (R127, R131, R133). -/
def Chip.sweepAdvance (c : Chip) : Chip :=
  match c.swe.active, c.swe.work with
  | some e, some w =>
    if w.started && decide (c.subscriberCount ≤ e.resume) then
      match e.kind with
      | .eventClose number => c.endClose number
      | .restore _ _ => if w.slot.isSome then c else c.endUnrecorded e
    else c
  | _, _ => c

/-- The oldest READY entry becomes active, in RUNNING while no sweep is (R126). -/
def Chip.startSweep (c : Chip) : Chip :=
  if c.lcc.lifecycle = .running ∧ c.swe.work = none then
    match c.swe.queue.findIdx? fun e => e.ready, c.swe.queue.find? fun e => e.ready with
    | some i, some e =>
      Chip.sweepAdvance (Chip.markStatus { c with swe :=
        ⟨c.swe.queue.modify i fun e => { e with active := true }, some (.fresh e.kind)⟩ })
    | _, _ => c
  else c

/-! ### The start tenure (R126) -/

/-- The slot that the SLM names as holding an outage number. -/
def Slm.slotOf (s : Slm) (outage : BitVec 16) : Option Nat :=
  s.slots.findIdx? fun x => x.status != .unused && x.number = outage

/-- What the start tenure reads of the record in slot `i`. -/
def Chip.sweepRecord (m : Memory) (outage : BitVec 16) (i : Nat) (c : Chip) : SweepWork :=
  let w0 := c.recordWord m .outages i 0
  let seconds := fieldNat (c.recordWord m .outages i 3) 0 19
  let minutes := seconds / 60
  if outageClosed w0 && !outageSwept w0 && outageNumber w0 = outage then
    ⟨true, some i, w0, seconds, minutes, decide (max 1 c.settings.threshold ≤ minutes)⟩
  else ⟨true, none, 0, 0, 0, false⟩

/-- The start tenure; a sweep whose record is not found as its number asks runs as one with outage number 0. -/
def Chip.sweepStartBody (m : Memory) (c : Chip) : Chip :=
  match c.swe.active with
  | some e =>
    match e.kind with
    | .restore _ outage =>
      let work := match c.slm.slotOf outage with
        | some i => c.sweepRecord m outage i
        | none => ⟨true, none, 0, 0, 0, false⟩
      { c with swe := { c.swe with work := some work } }
    | .eventClose _ => c
  | none => c

/-! ### The RESTORE step (R128 to R130) -/

/-- The step finds no space for its credit: the entry waits at the tail (R130), or in STOPPING the sweep ends once the
tenure of this step has ended (R134). -/
def Chip.logWait (e : SweepEntry) (c : Chip) : Chip :=
  if c.lcc.lifecycle = .running then
    Chip.owe .spaceWait (c.sweepOff (c.swe.others ++ [{ e with ready := false, active := false }]))
  else c

/-- The step is made: the entry's resume index goes on (R127). -/
def Chip.stepped (c : Chip) : Chip :=
  { c with swe := c.swe.modifyActive fun e => { e with resume := e.resume + 1 } }

/-- The request of a RESTORE step for a concerned subscriber while the node is UP (R129). -/
def Chip.restoreRequest (node sub : Nat) (order : OrderState) (c : Chip) : Chip :=
  if c.nodeState node = .up then
    if order = .held then c.owe (.request ⟨sub, .requeue, c.settings.restoreReassert⟩)
    else if c.settings.restoreReassert then c.owe (.request ⟨sub, .evaluate, true⟩)
    else c
  else c

/-- Write the progress of a recorded outage (R128). -/
def Chip.writeProgress (w : SweepWork) (progress : Nat) (c : Chip) : Chip :=
  match w.slot with
  | some i => c.writeRecord .outages i 3 (outageW3 w.duration progress)
  | none => c

/-- A RESTORE step for subscriber `sub` (R128, R129). -/
def Chip.restoreStep (m : Memory) (e : SweepEntry) (w : SweepWork) (node : Nat) (outage : BitVec 16) (c : Chip) : Chip :=
  let sub := e.resume
  let w0 := c.recordWord m .subscribers sub 0
  let t := tapStatusOf (c.recordWord m .subscribers sub 2)
  let concerned := subInUse w0 && subNode w0 = node
  let due := concerned && w.slot.isSome && w.qualifies && t.level != 0
  if due && c.free = 0 then c.logWait e
  else
    let c1 := c.writeProgress w (sub + 1)
    let c2 := if due then c1.append (creditRecord c.stamp sub outage node w.minutes) false else c1
    Chip.stepped (if concerned then c2.restoreRequest node sub t.order else c2)

/-! ### The EVENT_CLOSE step (R132) -/

/-- An EVENT_CLOSE step for subscriber `sub`. -/
def Chip.closeStep (m : Memory) (e : SweepEntry) (number : BitVec 8) (c : Chip) : Chip :=
  let sub := e.resume
  let w3 := c.recordWord m .subscribers sub 3
  if subInUse (c.recordWord m .subscribers sub 0) && subDemand w3 = number then
    let c1 := if subDelivered w3 then c else c.append (refundRecord c.stamp sub number 3 (c.priceOf number)) true
    Chip.stepped (Chip.owe (.request ⟨sub, .evaluate, false⟩) (c1.writeRecord .subscribers sub 3 (subW3 0 false)))
  else c.stepped

/-- What a step tenure decides at its grant. -/
def Chip.sweepStepBody (m : Memory) (c : Chip) : Chip :=
  match c.swe.active, c.swe.work with
  | some e, some w =>
    match e.kind with
    | .restore node outage => c.restoreStep m e w node outage
    | .eventClose number => c.closeStep m e number
  | _, _ => c

/-! ### The end tenure (R131) -/

/-- The used bits of outage w0; a write leaves 0 in the others (R175). -/
def outageMask : Word := 0x3F1FFFFF

/-- The end tenure: w3 with the progress at the subscriber count, then w0 with SWEPT. -/
def Chip.sweepEndBody (c : Chip) : Chip :=
  match c.swe.work with
  | some w =>
    match w.slot with
    | some i =>
      (c.writeRecord .outages i 3 (outageW3 w.duration c.subscriberCount)).writeRecord .outages i 0
        ((w.record &&& outageMask) ||| flagAt true 27)
    | none => c
  | none => c

/-! ### What follows a tenure, and stopping -/

/-- A sweep tenure has ended (R127, R131, R133, R134). -/
def Chip.sweepTenureEnded (j : Job) (c : Chip) : Chip :=
  match c.swe.active with
  | none => c
  | some e =>
    match j, e.kind with
    | .sweepEnd, .restore _ outage => c.endRecorded outage
    | .sweepStep, .eventClose number =>
      if c.lcc.lifecycle = .running then c.sweepAdvance
      else if c.subscriberCount ≤ e.resume then c.endClose number
      else c.sweepLeaves
    | _, _ => if c.lcc.lifecycle = .running then c.sweepAdvance else c.sweepLeaves

/-- The running tenure is a step whose sweep has gone to LOG_WAIT (R130). -/
def Chip.waitsForSpace (c : Chip) : Bool :=
  match c.tau.running with
  | some t => t.owed.contains .spaceWait
  | none => false

/-- On entry into STOPPING the queue is discarded but for an active sweep that has asked for a tenure, which ends after it;
the tenure of a sweep in LOG_WAIT is none of the active sweep's (R134). -/
def Chip.stopSweeps (c : Chip) : Chip :=
  if c.outstanding .swe && !c.waitsForSpace then { c with swe := { c.swe with queue := c.swe.queue.filter fun e => e.active } }
  else c.sweepOff []

/-- The next tenure of the active sweep (R126, R127, R131). -/
def Chip.sweepJob (c : Chip) : Option Job :=
  match c.swe.active, c.swe.work with
  | some e, some w =>
    if !w.started then some .sweepStart
    else if e.resume < c.subscriberCount then some .sweepStep
    else if w.slot.isSome then some .sweepEnd
    else none
  | _, _ => none

end Sys2Proof.Machine
end

