-- ==== Sys2Proof/Machine/Timebase.lean ====
section
/-! DEFINITION. The Timebase and Heartbeat Unit (spec/03_timebase_and_heartbeat.md): wall time, the pulse, the heartbeat and
fallback. -/

namespace Sys2Proof.Machine

/-! ### Wall time -/

/-- Wall time advances by one, the second position returns to 0, and the time change is handed on (R36). -/
def Chip.advanceWall (c : Chip) : Chip :=
  Chip.timeChange { c with tbu := { c.tbu with wall := c.tbu.wall + 1, position := 0 } }

/-- A wall-second boundary is due: the position has reached 100 (R36). -/
def Chip.boundaryDue (c : Chip) : Bool := decide (Config.secondUnits ≤ c.tbu.position)

/-- A TIME write is taken (R37). -/
def Chip.setTime (v : Word) (c : Chip) : Chip :=
  Chip.timeChange (Chip.marking c { c with tbu := { c.tbu with wall := v, set := true } })

/-! ### The reference pulse (R39, R40) -/

/-- The pulse is accepted: none was accepted before, or not less than 50 units ago. -/
def Tbu.accepts (t : Tbu) : Bool :=
  match t.lastPulse with
  | none => true
  | some p => decide (Config.pulseGuard ≤ t.mono - p)

/-- A pulse on the reference input (R39). -/
def Chip.pulse (c : Chip) : Chip :=
  if c.tbu.accepts then
    let c1 := Chip.marking c { c with tbu := { c.tbu with lastPulse := some c.tbu.mono, locked := true } }
    if 50 ≤ c1.tbu.position then c1.advanceWall else { c1 with tbu := { c1.tbu with position := 0 } }
  else c

/-- The loss watch has run out (R40). -/
def Chip.lossDue (c : Chip) : Bool :=
  c.tbu.locked &&
    (match c.tbu.lastPulse with
      | some p => decide (c.tbu.mono = p + Config.lossUnits)
      | none => false)

/-- The loss of the pulse (R40). -/
def Chip.loseSync (c : Chip) : Chip :=
  Chip.raise .syncLost (Chip.markStatus { c with tbu := { c.tbu with locked := false } })

/-! ### The heartbeat (R43 to R49) -/

/-- The codes of a HEARTBEAT write. -/
inductive HeartbeatCode where
  | arm
  | feed
  | pause
  | expire
  | disarm
deriving DecidableEq, Repr

/-- The code in the top byte (spec/11). -/
def heartbeatCodeOf (v : Word) : Option HeartbeatCode :=
  let b := field v 24 8
  if b = 1 then some .arm
  else if b = 2 then some .feed
  else if b = 3 then some .pause
  else if b = 4 then some .expire
  else if b = 5 then some .disarm
  else none

/-- A code is taken in a state (R44 to R46). -/
def HeartbeatCode.takenIn : HeartbeatCode → Heartbeat → Bool
  | .arm, .armed => false
  | .arm, _ => true
  | .feed, .armed => true
  | .feed, _ => false
  | .pause, .armed => true
  | .pause, _ => false
  | .expire, .armed => true
  | .expire, .paused => true
  | .expire, _ => false
  | .disarm, .disarmed => false
  | .disarm, _ => true

/-- The heartbeat takes a state other than EXPIRED; leaving EXPIRED hands a fallback end (R49, R70). -/
def Chip.heartbeatTo (h : Heartbeat) (deadline : Option Tick) (c : Chip) : Chip :=
  let c1 := Chip.marking c { c with tbu := { c.tbu with heartbeat := h, deadline := deadline } }
  if c.fallback then c1.fallbackRequests else c1

/-- Entry into EXPIRED (R48). -/
def Chip.enterExpired (c : Chip) : Chip :=
  Chip.fallbackRequests
    (Chip.raise .heartbeatExpired
      (Chip.count .heartbeatExpiries
        (Chip.markStatus { c with tbu := { c.tbu with heartbeat := .expired, deadline := none } })))

/-- A deadline one heartbeat period from now. -/
def Chip.heartbeatDeadline (c : Chip) : Option Tick := some (c.tbu.mono + c.settings.heartbeatPeriod)

/-- A taken HEARTBEAT write (R44 to R46). -/
def Chip.heartbeat (code : HeartbeatCode) (sequence : BitVec 16) (c : Chip) : Chip :=
  match code with
  | .arm =>
    Chip.heartbeatTo .armed c.heartbeatDeadline { c with tbu := { c.tbu with expected := sequence + 1 } }
  | .feed =>
    if sequence = c.tbu.expected then
      { c with tbu := { c.tbu with expected := sequence + 1, deadline := c.heartbeatDeadline } }
    else c.enterExpired
  | .pause => c.heartbeatTo .paused none
  | .expire => c.enterExpired
  | .disarm => c.heartbeatTo .disarmed none

/-- The countdown of an ARMED heartbeat has reached its deadline (R47). -/
def Chip.heartbeatDue (c : Chip) : Bool :=
  c.tbu.heartbeat = .armed && decide (c.tbu.deadline = some c.tbu.mono)

end Sys2Proof.Machine
end

