-- ==== Sys2Proof/Machine/Lifecycle.lean ====
section
/-! DEFINITION. The Lifecycle Controller (spec/02_station_block_and_operating_states.md): entry into LOADING, the phases, LOAD_FAULT,
RUNNING, STOPPING and STOPPED. -/

namespace Sys2Proof.Machine

/-! ### Entry into LOADING (R26) -/

/-- Entry into LOADING: each job block takes its values after the reset line, with the exceptions of R26 (log 29). -/
def Chip.enterLoading (c : Chip) : Chip :=
  Chip.markStatus { c with
    lcc := { Lcc.reset with
      lifecycle := .loading
      phase := 1
      jobs := c.lcc.jobs ++ [.faultSet, .profile 0, .profile 1, .profile 2] }
    tbu := { c.tbu with heartbeat := .disarmed, deadline := none }
    lue := { Lue.reset with tag := c.lue.tag }
    toe := { Toe.reset with tag := c.toe.tag }
    slm := .reset
    swe := .reset
    pcu := { c.pcu with inFlight := none }
    clu := .reset }

/-- The autostart check: entry into LOADING on a good signature and flag, while the part is OFFLINE (R25). -/
def Chip.autostart (m : Memory) (c : Chip) : Chip :=
  if c.lcc.lifecycle = .offline ∧ m.readWord (stationAddr 0) = Config.signature ∧ bit (m.readWord (stationAddr 1)) 0 then
    c.enterLoading
  else c

/-! ### Phases 1 to 3 -/

/-- Entry into LOAD_FAULT (R30). -/
def Chip.enterLoadFault (faults : BitVec 11) (c : Chip) : Chip :=
  Chip.raise .loadFault
    (Chip.markStatus { c with lcc := { c.lcc with
      lifecycle := .loadFault, faults := faults, jobs := c.lcc.jobs ++ [.faultSet] } })

/-- The LCC has no tenure requested, running or still to ask for. -/
def Chip.lccIdle (c : Chip) : Bool := c.lcc.jobs.isEmpty && !c.outstanding .lcc

/-- A load phase is in progress. -/
def Chip.loadingPhase (n : Nat) (c : Chip) : Bool := c.lcc.lifecycle = .loading && c.lcc.phase = n

/-- Part k of the profile: 24, 24 and 16 words (R27). -/
def profilePart (m : Memory) (k : Nat) : List Word :=
  (List.range (min 24 (64 - 24 * k))).map fun i => m.readWord (stationAddr (24 * k + i))

/-- The LCC's tenures of phase 1, and of the LOAD_FAULT that phase 1 ends (R26, R27, R30). -/
def Chip.phase1Body (m : Memory) (j : Job) (c : Chip) : Chip :=
  match j with
  | .profile k => { c with lcc := { c.lcc with profile := c.lcc.profile ++ profilePart m k } }
  | _ => c.writeStation 81 (place c.lcc.faults 0)

/-- The end of phase 1: the profile's map, or the reset map and LOAD_FAULT (R29, R171). -/
def Chip.endPhase1 (c : Chip) : Chip :=
  let p : Profile := c.lcc.profile
  if p.faults = 0 then
    Chip.markStatus { c with
      map := p.map
      settings := p.settings
      rpu := { c.rpu with mask := p.mask }
      lcc := { c.lcc with phase := 2, jobs := [.nodeTable 0, .nodeTable 1] } }
  else
    Chip.enterLoadFault p.faults { c with map := .reset, rpu := { c.rpu with mask := 0xFFFF } }

/-- A tenure of phase 2: word 0 of sixteen node table entries (R29). -/
def Chip.phase2Body (m : Memory) (j : Job) (c : Chip) : Chip :=
  match j with
  | .nodeTable k =>
    { c with lcc := { c.lcc with
        nodeWords := c.lcc.nodeWords ++ (List.range 16).map fun i => c.recordWord m .nodes (16 * k + i) 0 } }
  | _ => c

/-- A node table entry fails: in use, with a class code above 3 (R29). -/
def nodeFails (w0 : Word) : Bool :=
  nodeInUse w0 && (decide (3 < (nodeOnsetClass w0).toNat) || decide (3 < (nodeHoldClass w0).toNat))

/-- The end of phase 2: the test, and the node table image to the SLM (R29, R106). -/
def Chip.endPhase2 (c : Chip) : Chip :=
  Chip.markStatus { c with
    slm := { c.slm with image := c.lcc.nodeWords }
    lcc := { c.lcc with
      phase := 3
      faults := c.lcc.faults ||| LoadFault.nodeTable.setIf (c.lcc.nodeWords.any nodeFails)
      jobs := [.logIndexes] } }

/-- The LCC's tenures of phase 3, and of the LOAD_FAULT that phase 3 ends (R29, R30). -/
def Chip.phase3Body (m : Memory) (j : Job) (c : Chip) : Chip :=
  match j with
  | .logIndexes =>
    { c with lcc := { c.lcc with
        logIndexes := some (m.readWord (stationAddr 96), m.readWord (stationAddr 97)) } }
  | _ => c.writeStation 81 (place c.lcc.faults 0)

/-- The end of phase 3: LOAD_FAULT, or the CLU's copy is to be loaded (R29, R30, R165). -/
def Chip.endPhase3 (c : Chip) : Chip :=
  match c.lcc.logIndexes with
  | none => c
  | some x =>
    let faults := c.lcc.faults ||| LoadFault.logState.setIf (decide (c.capacity < (x.1 - x.2).toNat))
    let c1 := { c with lcc := { c.lcc with logIndexes := none } }
    if faults = 0 then { c1 with clu := { c1.clu with loadOwed := true } } else c1.enterLoadFault faults

/-! ### Phases 4 to 6 (R30) -/

/-- The log copy has been loaded: phase 4 is handed to the SLM (R165, R121). -/
def Chip.beginPhase4 (c : Chip) : Chip :=
  if c.loadingPhase 3 then
    Chip.markStatus { c with lcc := { c.lcc with phase := 4 }, slm := { c.slm with jobs := outageJobs } }
  else c

/-- Phase 4 is done when the SLM has nothing left to do and its write set is empty (R123). -/
def Chip.endPhase4 (c : Chip) : Chip :=
  if c.loadingPhase 4 && c.slm.jobs.isEmpty && !c.slm.hasDirty && !c.outstanding .slm then
    Chip.markStatus { c with lcc := { c.lcc with phase := 5 }, toe := { c.toe with walk := some ⟨0, [], 0⟩ } }
  else c

/-- Phase 5 is done when the last subscriber has been walked (R103). -/
def Chip.endPhase5 (c : Chip) : Chip :=
  match c.toe.walk with
  | none => c
  | some w =>
    if c.loadingPhase 5 && decide (c.subscriberCount ≤ w.subscriber) && !c.outstanding .toe then
      Chip.markStatus { c with
        lcc := { c.lcc with phase := 6 }
        toe := { c.toe with walk := none }
        lue := { c.lue with walk := some 0 } }
    else c

/-- Phase 6 is done when the map is walked and mirrored (R75). -/
def Chip.mapWalked (c : Chip) : Bool :=
  match c.lue.walk with
  | none => false
  | some n => decide (c.mapCount ≤ n) && !c.lue.entries.any (fun e => e.dirty) && !c.outstanding .lue

/-- Entry into RUNNING (R31, R62). -/
def Chip.enterRunning (c : Chip) : Chip :=
  Chip.serveRoutes (Chip.markStatus { c with
    lcc := { c.lcc with lifecycle := .running, phase := 0 }
    lue := { c.lue with walk := none } })

/-! ### What the blocks ask the TAU for (R6) -/

/-- The tables are watched: LOADING, RUNNING and STOPPING (R15). -/
def Chip.watched (c : Chip) : Bool := c.lcc.lifecycle = .loading || c.working

/-- What the LUE asks for (R63, R75). -/
def Chip.lueWants (c : Chip) : Option Job :=
  if c.watched then
    if c.lue.entries.any (fun e => e.dirty) || !c.lue.owesTime.isEmpty then some .mirror
    else
      match c.lue.walk with
      | some n => if c.loadingPhase 6 && decide (n < c.mapCount) then some .mapWalk else none
      | none => none
  else none

/-- What the TOE asks for (R81, R103). -/
def Chip.toeWants (c : Chip) : Option Job :=
  if c.working then
    match c.tapWork with
    | some sub => some (.tapLink sub)
    | none => if c.sendAllowed then some .send else if c.toe.evals.isEmpty then none else some .evaluation
  else if c.loadingPhase 5 then
    match c.toe.walk with
    | some w =>
      if w.entry < c.mapCount then some .eventSet
      else if w.subscriber < c.subscriberCount then some .subscriberWalk else none
    | none => none
  else none

/-- What the SLM asks for (R114, R121, R122). -/
def Chip.slmWants (c : Chip) : Option Job :=
  if c.working || c.loadingPhase 4 then
    if c.slm.hasDirty then some .slmWrite else c.slm.jobs.head?.filter fun j => j.block = .slm
  else none

/-- What the CLU asks for; a release goes before a close (R162). -/
def Chip.cluWants (c : Chip) : Option Job :=
  if c.clu.loadOwed then some .logLoad
  else if c.clu.releaseOwed then some .release
  else if c.clu.close = .asked then some .close
  else none

/-- The part is RUNNING. -/
def Chip.isRunning (c : Chip) : Bool := c.lcc.lifecycle = .running

/-- The next tenure that a block needs. -/
def Chip.wants (c : Chip) : Block → Option Job
  | .lcc => c.lcc.jobs.head?.filter fun j => j.block = .lcc
  | .lue => c.lueWants
  | .toe => c.toeWants
  | .slm => c.slmWants
  | .swe => if c.isRunning then c.sweepJob else none
  | .pcu => if c.pcu.inFlight.isSome then some .purchase else none
  | .clu => c.cluWants
  | .rpu => if c.reportDue then some .report else none

/-- All blocks that ask for tenures. -/
def allBlocks : List Block := [.lcc, .lue, .toe, .slm, .swe, .pcu, .clu, .rpu]

/-! ### Stopping (R32, R33) -/

/-- What entry into STOPPING does at once: the take is cancelled first (log 21); then no new attempts, no sampling, no queued
sweep, no heartbeat, no close waiting for space (R32, R73, R119, R134, R162). -/
def Chip.beginStopping (c : Chip) : Chip :=
  let c1 := c.cancelTake
  let c2 := Chip.markStatus { c1 with
    lcc := { c1.lcc with lifecycle := .stopping }
    slm := c1.slm.stopTracking
    clu := { c1.clu with close := if c1.clu.close = .waiting then .none else c1.clu.close } }
  (c2.heartbeatTo .disarmed none).stopSweeps

/-- A block other than the RPU has a tenure request or a tenure. -/
def Chip.workOutstanding (c : Chip) : Bool :=
  [Block.lcc, .lue, .toe, .slm, .swe, .pcu, .clu].any fun b => c.outstanding b

/-- The three conditions of STOPPED hold together (R33). -/
def Chip.canStop (c : Chip) : Bool :=
  c.lcc.lifecycle = .stopping && c.toe.flights.isEmpty && c.lue.order.isNone && !c.workOutstanding

/-- Entry into STOPPED (R33, R67, R101, R119, R166). -/
def Chip.enterStopped (c : Chip) : Chip :=
  let c1 := c.stopTaps
  Chip.findLow (Chip.markStatus { c1 with
    lcc := { c1.lcc with lifecycle := .stopped }
    lue := { c1.lue with
      entries := [], eventMap := [], take := .idle, order := none, owesTime := [], owedCauses := [], walk := none }
    slm := { c1.slm with
      nodes := [], slots := [], next := 0, nextDirty := false, lastSample := none, sampled := false, edge := none
      edgeFresh := false, jobs := [] }
    swe := .reset
    clu := { c1.clu with reserved := 0, releaseOwed := false, close := .none } })

/-- A block other than the RPU is about to ask for a tenure. -/
def Chip.workWanted (c : Chip) : Bool :=
  [Block.lcc, .lue, .toe, .slm, .swe, .pcu, .clu].any fun b => (c.wants b).isSome

/-- The part leaves STOPPING when the last of the three conditions comes to hold: at the STOP, or at the end of a tenure
(R33). DEDUCED (log 46): what a block asks for at that moment counts as a request held. -/
def Chip.endStopping (c : Chip) : Chip := if c.canStop && !c.workWanted then c.enterStopped else c

/-- Entry into STOPPING, and at once into STOPPED where the three conditions hold (R32, R33). -/
def Chip.enterStopping (c : Chip) : Chip := c.beginStopping.endStopping

end Sys2Proof.Machine
end

