-- ==== Sys2Proof/Machine/Commands.lean ====
section
/-! DEFINITION. The command words (spec/02, Command words and the lifecycle): what a read answers, why a write is refused,
and what a taken write does. -/

namespace Sys2Proof.Machine

/-! ### Reads (R24, R50, R74, R146, R38, R164, R170; layouts spec/11)

DESIGN CHOICE (log 42): the bits that spec/11 names no field for, in the answers of CONTROL, HEARTBEAT and TAKE as in that
of CAUSE, answer 0. -/

/-- CONTROL; its unused bits answer 0 (DESIGN CHOICE, log 42). -/
def Chip.readControl (c : Chip) : Word := place c.lcc.lifecycle.code 0 ||| place (BitVec.ofNat 3 c.lcc.phase) 8

/-- HEARTBEAT; its unused bits answer 0 (DESIGN CHOICE, log 42). -/
def Chip.readHeartbeat (c : Chip) : Word := place c.tbu.expected 0 ||| place c.tbu.heartbeat.code 24

/-- TAKE; its unused bits answer 0 (DESIGN CHOICE, log 42). -/
def Chip.readTake (c : Chip) : Word :=
  place c.lue.take.code 0 ||| place c.lue.takeResult.code 8 ||| place (BitVec.ofNat 7 c.lue.takeFailed) 16

/-- PURCHASE: the low seven bits of the evaluation number. -/
def PurchaseRecord.word (r : PurchaseRecord) : Word :=
  place r.subscriber 0 ||| place r.entry 12 ||| flagAt r.op.isCancel 19 ||| flagAt (portIsB r.port) 20 |||
    place r.result.code 21 ||| place (r.number.setWidth 7) 25

/-- RELEASE: 0 while the copy is not loaded. -/
def Chip.readRelease (c : Chip) : Word :=
  match c.clu.copy with
  | some l => l.target
  | none => 0

/-- PERIOD: 0, 0 and a clear flag while the copy is not loaded. -/
def Chip.readPeriod (c : Chip) : Word :=
  match c.clu.copy with
  | some l =>
    place l.period 0 ||| place (BitVec.ofNat 15 (min l.count.toNat 32767)) 16 ||| flagAt (c.clu.close != .none) 31
  | none => 0

/-- What a permitted read of command word `n` (64 to 71) answers, in every lifecycle state (R22). -/
def Chip.readCommand (n : Nat) (c : Chip) : Word :=
  match n with
  | 64 => c.readControl
  | 65 => c.readHeartbeat
  | 66 => c.readTake
  | 67 => c.pcu.record.word
  | 68 => c.tbu.wall
  | 69 => c.readRelease
  | 70 => c.readPeriod
  | _ => c.rpu.causeWord

/-! ### Refusals of writes (R22, R23, R43 to R46, R69, R138, R159, R162, R170) -/

/-- A command value in bits 0 to 7. -/
def commandValue (v : Word) : Nat := fieldNat v 0 8

/-- START is taken in OFFLINE, LOAD_FAULT and STOPPED (R23). -/
def Chip.startable (c : Chip) : Bool :=
  c.lcc.lifecycle = .offline || c.lcc.lifecycle = .loadFault || c.lcc.lifecycle = .stopped

/-- CONTROL: a value is taken in its states and refused with BAD_COMMAND otherwise (R23). -/
def Chip.controlRefusal (v : Word) (c : Chip) : Option RefusalKind :=
  match commandValue v with
  | 1 => if c.startable then none else some .badCommand
  | 2 => if c.isRunning then none else some .badCommand
  | 3 => if c.lcc.lifecycle = .loadFault && c.lcc.faults.getLsbD 10 then none else some .badCommand
  | _ => some .badCommand

/-- HEARTBEAT (R43). -/
def Chip.heartbeatRefusal (v : Word) (c : Chip) : Option RefusalKind :=
  if !c.isRunning then some .notRunning
  else
    match heartbeatCodeOf v with
    | none => some .badCommand
    | some code => if code.takenIn c.tbu.heartbeat then none else some .badCommand

/-- TAKE (R69). -/
def Chip.takeRefusal (v : Word) (c : Chip) : Option RefusalKind :=
  if !c.isRunning then some .notRunning
  else
    match commandValue v with
    | 1 => if c.lue.take = .applying then some .tableBusy else none
    | 2 => if c.lue.take = .applying then none else some .badCommand
    | _ => some .badCommand

/-- RELEASE: an index beyond the records written, or behind the target (R159). -/
def Chip.releaseRefusal (v : Word) (c : Chip) : Option RefusalKind :=
  if !c.isRunning then some .notRunning
  else
    match c.clu.copy with
    | some l => if l.write - l.target < v - l.target then some .badValue else none
    | none => if v = 0 then none else some .badValue

/-- PERIOD (R162). -/
def Chip.periodRefusal (v : Word) (c : Chip) : Option RefusalKind :=
  if !c.isRunning then some .notRunning
  else if commandValue v != 1 then some .badCommand
  else if c.clu.close != .none then some .badCommand
  else if c.free = 0 then some .noSpace
  else none

/-- Why a permitted whole-word write of `v` to command word `n` is refused, if it is. -/
def Chip.commandRefusal (n : Nat) (v : Word) (c : Chip) : Option RefusalKind :=
  match n with
  | 64 => c.controlRefusal v
  | 65 => c.heartbeatRefusal v
  | 66 => c.takeRefusal v
  | 67 => c.purchaseRefusal v
  | 68 => none
  | 69 => c.releaseRefusal v
  | 70 => c.periodRefusal v
  | _ => some .badCommand

/-! ### Taken writes -/

/-- A taken CONTROL write (R23, R26, R32). -/
def Chip.takeControl (v : Word) (c : Chip) : Chip :=
  match commandValue v with
  | 1 => c.enterLoading
  | 2 => c.enterStopping
  | _ => { c with lcc := { c.lcc with jobs := c.lcc.jobs ++ [.logClear] } }

/-- A taken HEARTBEAT write. -/
def Chip.takeHeartbeat (v : Word) (c : Chip) : Chip :=
  match heartbeatCodeOf v with
  | some code => c.heartbeat code (field v 0 16)
  | none => c

/-- A taken TAKE write (R71, R73). -/
def Chip.takeTake (v : Word) (c : Chip) : Chip := if commandValue v = 1 then c.takeWalk else c.cancelTake

/-- A taken RELEASE write: the target moves, and a release tenure is owed if it moved (R159). -/
def Chip.takeRelease (v : Word) (c : Chip) : Chip :=
  match c.clu.copy with
  | some l =>
    if v = l.target then c
    else { c with clu := { c.clu with copy := some { l with target := v }, releaseOwed := true } }
  | none => c

/-- A taken PERIOD CLOSE (R162). -/
def Chip.takePeriod (c : Chip) : Chip := { c with clu := { c.clu with close := .asked } }

/-- What a taken write of `v` to command word `n` by a port does. -/
def Chip.takeCommand (n : Nat) (p : Port) (v : Word) (c : Chip) : Chip :=
  match n with
  | 64 => c.takeControl v
  | 65 => c.takeHeartbeat v
  | 66 => c.takeTake v
  | 67 => c.beginEvaluation p v
  | 68 => c.setTime v
  | 69 => c.takeRelease v
  | 70 => c.takePeriod
  | _ => c

end Sys2Proof.Machine
end

