-- ==== Sys2Proof/Machine/Links.lean ====
section
/-! DEFINITION. The two receivers (R176): hunting, collecting, dropping, and handing a good frame to its block (R68, R90). -/

namespace Sys2Proof.Machine

/-- What one byte brings about. -/
inductive Received where
  | nothing
  | dropped
  | frame (bytes : List Byte)
deriving DecidableEq, Repr

/-- A byte while hunting: only the link's own start byte begins a frame; one with a bad stop bit is dropped as a frame
(log 13). -/
def Receiver.hunt (start : Byte) (now : Tick) (b : LineByte) : Receiver × Received :=
  if b.value = start then
    if b.stopGood then (⟨[b.value], now⟩, .nothing) else (⟨[], now⟩, .dropped)
  else (⟨[], now⟩, .nothing)

/-- A byte while collecting. -/
def Receiver.collect (r : Receiver) (length : Nat) (now : Tick) (b : LineByte) : Receiver × Received :=
  if b.stopGood then
    let got := r.got ++ [b.value]
    if length ≤ got.length then (⟨[], now⟩, .frame got) else (⟨got, now⟩, .nothing)
  else (⟨[], now⟩, .dropped)

/-- Three units have passed since the last byte of a frame (R176). -/
def Receiver.late (r : Receiver) (now : Tick) : Bool := !r.got.isEmpty && decide (Config.byteGap ≤ now - r.lastAt)

/-! ### The route link -/

/-- The route link's receiver is replaced. -/
def Chip.withRouteReceiver (r : Receiver) (c : Chip) : Chip := { c with routeLink := { c.routeLink with receiver := r } }

/-- A frame of the route link is dropped. -/
def Chip.dropRoute (c : Chip) : Chip := Chip.count .routeLineErrors (c.withRouteReceiver ⟨[], c.tbu.mono⟩)

/-- A completed route reply frame (R68, R176). -/
def Chip.routeFrameIn (bytes : List Byte) (c : Chip) : Chip :=
  match parseRouteReply bytes with
  | some r => c.routeReply r
  | none => c.count .routeLineErrors

/-- One byte on the route link's receive line. -/
def Chip.routeByte (c : Chip) (b : LineByte) : Chip :=
  let c1 := if c.routeLink.receiver.late c.tbu.mono then c.dropRoute else c
  let r := c1.routeLink.receiver
  let x := if r.got.isEmpty then Receiver.hunt 0xE2 c1.tbu.mono b else r.collect 4 c1.tbu.mono b
  let c2 := c1.withRouteReceiver x.1
  match x.2 with
  | .nothing => c2
  | .dropped => c2.count .routeLineErrors
  | .frame bytes => c2.routeFrameIn bytes

/-! ### The tap link -/

/-- The tap link's receiver is replaced. -/
def Chip.withTapReceiver (r : Receiver) (c : Chip) : Chip := { c with tapLink := { c.tapLink with receiver := r } }

/-- A frame of the tap link is dropped. -/
def Chip.dropTap (c : Chip) : Chip := Chip.count .tapLineErrors (c.withTapReceiver ⟨[], c.tbu.mono⟩)

/-- A completed tap reply frame (R90, R176). -/
def Chip.tapFrameIn (m : Memory) (bytes : List Byte) (c : Chip) : Chip :=
  match parseTapReply bytes with
  | some r => c.tapReply m r
  | none => c.count .tapLineErrors

/-- One byte on the tap link's receive line. -/
def Chip.tapByte (m : Memory) (c : Chip) (b : LineByte) : Chip :=
  let c1 := if c.tapLink.receiver.late c.tbu.mono then c.dropTap else c
  let r := c1.tapLink.receiver
  let x := if r.got.isEmpty then Receiver.hunt 0xD2 c1.tbu.mono b else r.collect 7 c1.tbu.mono b
  let c2 := c1.withTapReceiver x.1
  match x.2 with
  | .nothing => c2
  | .dropped => c2.count .tapLineErrors
  | .frame bytes => c2.tapFrameIn m bytes

end Sys2Proof.Machine
end

