-- ==== Sys2Proof/Machine/Path.lean ====
section
/-! DEFINITION. The memory path (spec/01_the_memory_path.md): classification by the Access Check Unit, requests to the Table
Access Unit, arbitration, presenting an access, and what ends a memory cycle, a tenure and a reset. -/

namespace Sys2Proof.Machine

/-! ### Classification (R10 to R16, R18) -/

/-- What the ACU decides of a granted access (R1). -/
inductive Verdict where
  | refuse (kind : RefusalKind)
  | pass (trigger : Option Trigger)
  /-- Answered with data; `drop` for a CAUSE read, which removes what it returns (R170). -/
  | answer (data : Word) (drop : Bool)
  | hold
  | take (word : Nat)
deriving DecidableEq, Repr

/-- A port's command permission set. -/
def RegionMap.permits (m : RegionMap) : Port → BitVec 8
  | .a => m.permitA
  | .b => m.permitB

/-- A port's right to a placement. -/
def Placement.right (x : Placement) : Port → Right
  | .a => x.rightA
  | .b => x.rightB

/-- A port's right to a guard region. -/
def Guard.right (x : Guard) : Port → Right
  | .a => x.rightA
  | .b => x.rightB

/-- A right admits a read or a write (R11). -/
def Right.admits (r : Right) (write : Bool) : Bool :=
  match r with
  | .none => false
  | .read => !write
  | .readWrite => true

/-- Not all four byte enables (R14). -/
def accessPartial (a : Access) : Bool := a.enables != 0xF

/-- A write to a command word: the PURCHASE word holds it while an evaluation is in flight (R138, R8). -/
def Chip.commandWrite (n : Nat) (v : Word) (c : Chip) : Verdict :=
  if n = 67 && c.pcu.inFlight.isSome then .hold
  else
    match c.commandRefusal n v with
    | some kind => .refuse kind
    | none => .take n

/-- An access to station word `n` (R13, R14, R20). -/
def Chip.stationVerdict (p : Port) (a : Access) (n : Nat) (c : Chip) : Verdict :=
  if 72 ≤ n && n < 80 then .refuse .range
  else if 64 ≤ n && n < 72 then
    if !(c.map.permits p).getLsbD (n - 64) then .refuse .noRight
    else if !a.write then .answer (c.readCommand n) (n = 71)
    else if accessPartial a then .refuse .partialWrite
    else c.commandWrite n a.data
  else if !a.write then .pass none
  else if accessPartial a then .refuse .partialWrite
  else if 80 ≤ n then .refuse .owner
  else if c.watched then .refuse .tableLocked
  else .pass none

/-- The word is part-owned (the tables of spec/04, 05, 06; R167 for the log). -/
def Table.partOwned (t : Table) (word : Nat) : Bool :=
  match t with
  | .channelMap => word = 4 || word = 5
  | .subscribers => word = 2 || word = 3 || word = 4
  | .nodes => word = 1 || word = 2
  | .outages => true
  | .chargeLog => true

/-- A write to a channel map word that is not part-owned (R52 to R54). -/
def Chip.mapVerdict (i word : Nat) (v : Word) (c : Chip) : Verdict :=
  if word < 4 && c.lue.badValue i word v then .refuse .badValue
  else if c.lue.take = .applying then .refuse .tableBusy
  else if 4 ≤ word then .pass none
  else if c.lue.eventLive i word v then .refuse .eventLive
  else .pass (some ⟨.channelMap, i, word, v⟩)

/-- A write to a subscriber word that is not part-owned (R76, R77). -/
def Chip.subscriberVerdict (i word : Nat) (v : Word) (c : Chip) : Verdict :=
  match word with
  | 0 =>
    if subInUse v && subTapAddress v = 0 then .refuse .badValue
    else if (c.toe.whereIs i).isSome then .refuse .recordBusy
    else .pass (some ⟨.subscribers, i, 0, v⟩)
  | 1 => if subAccount v = 3 then .refuse .badValue else .pass (some ⟨.subscribers, i, 1, v⟩)
  | _ => .pass none

/-- A permitted whole-word write to a word of a watched table (R12, R15, R106). -/
def Chip.tableWrite (t : Table) (i word : Nat) (v : Word) (c : Chip) : Verdict :=
  if t.partOwned word then .refuse .owner
  else if t = .nodes then .refuse .tableLocked
  else if c.lcc.lifecycle = .loading then .refuse .notReady
  else
    match t with
    | .channelMap => c.mapVerdict i word v
    | .subscribers => c.subscriberVerdict i word v
    | _ => .pass none

/-- The table that a word address lies in (R10). -/
def Chip.tableOf (w : Nat) (c : Chip) : Option Table :=
  allTables.find? fun t => decide ((c.placement t).base ≤ w) &&
    decide (w < (c.placement t).base + t.recordSize * (c.placement t).count)

/-- An access to a table region: open in OFFLINE, LOAD_FAULT and STOPPED (R15). -/
def Chip.tableVerdict (p : Port) (a : Access) (t : Table) (c : Chip) : Verdict :=
  let offset := (wordAddr a.addr).toNat - (c.placement t).base
  if !c.watched then .pass none
  else if !((c.placement t).right p).admits a.write then .refuse .noRight
  else if !a.write then .pass none
  else if accessPartial a then .refuse .partialWrite
  else c.tableWrite t (offset / t.recordSize) (offset % t.recordSize / 4) a.data

/-- What the ACU decides of an access (R10): the first test that fails is the first in the report order (R18). -/
def Chip.classify (p : Port) (a : Access) (c : Chip) : Verdict :=
  let w := (wordAddr a.addr).toNat
  if c.map.memSize ≤ w then .refuse .range
  else if w < 0x400 then c.stationVerdict p a (w / 4)
  else
    match c.tableOf w with
    | some t => c.tableVerdict p a t
    | none =>
      match c.map.guards.find? fun g => decide (g.base ≤ w) && decide (w < g.base + g.size) with
      | some g => if (g.right p).admits a.write then .pass none else .refuse .noRight
      | none => .pass none

/-! ### Carrying out what the ACU decided -/

/-- A refused access (R17). -/
def Chip.refuseAccess (kind : RefusalKind) (p : Port) (a : Access) (c : Chip) : Chip :=
  Chip.endAccess p true 0 (c.noteRefusal kind p a.addr)

/-- The access of a port stands in a condition. -/
def Chip.putAccess (p : Port) (a : Access) (k : Condition) (c : Chip) : Chip :=
  c.withPort p { c.port p with out := some ⟨a, k⟩, answer := none }

/-- The verdict is carried out; the port holds the memory port (R1, R8). -/
def Chip.carryOut (p : Port) (a : Access) (v : Verdict) (c : Chip) : Chip :=
  match v with
  | .refuse kind => c.refuseAccess kind p a
  | .pass trigger => c.putAccess p a (.inMemory trigger)
  | .answer data drop => Chip.endAccess p false data (if drop then { c with rpu := c.rpu.afterCauseRead } else c)
  | .hold =>
    let c1 := c.putAccess p a .held
    { c1 with pcu := { c1.pcu with held := c1.pcu.held ++ [p] }, par := { c1.par with holder := .free } }
  | .take n => Chip.endAccess p false 0 (c.takeCommand n p a.data)

/-! ### Requests to the TAU (R6) -/

/-- The requests presented now: of each block that has none at the TAU and needs a tenure. -/
def Chip.requests (c : Chip) : List Job :=
  allBlocks.filterMap fun b => if c.outstanding b then none else c.wants b

/-- A job asked for leaves its block's list of jobs to come. -/
def Chip.asked (c : Chip) (j : Job) : Chip :=
  match j.block, j with
  | .lcc, _ => { c with lcc := { c.lcc with jobs := c.lcc.jobs.tail } }
  | .slm, .slmWrite => c
  | .slm, _ => { c with slm := { c.slm with jobs := c.slm.jobs.tail } }
  | _, _ => c

/-- Every block presents its next request; those presented together stand in one batch (R6, log 8). -/
def Chip.present (c : Chip) : Chip :=
  if c.resetLow || c.requests.isEmpty then c
  else
    let c1 := c.requests.foldl Chip.asked c
    { c1 with tau := { c1.tau with orders := c1.tau.orders ++ [c.requests] } }

/-! ### Arbitration (R3) -/

/-- The claimant after another in the cyclic order. -/
def Claimant.after : Claimant → Claimant
  | .portA => .portB
  | .portB => .tau
  | .tau => .portA

/-- A claimant is waiting (R3). -/
def Chip.waiting (c : Chip) : Claimant → Bool
  | .portA => c.portA.waiting
  | .portB => c.portB.waiting
  | .tau => !c.tau.orders.isEmpty

/-- The first waiting claimant, counting from the one after the pointer. -/
def Chip.nextClaimant (c : Chip) : Option Claimant :=
  let first := c.par.pointer.after
  [first, first.after, first.after.after].find? fun x => c.waiting x

/-- The grant to a port: its access is classified in the same step (R1, R3, R4). -/
def Chip.grantPort (p : Port) (c : Chip) : Chip :=
  match (c.port p).out with
  | none => c
  | some o =>
    let locked := o.access.lock && !(c.port p).lockIgnored
    let c1 := { c with par := ⟨.host p locked 1, Port.claimant p⟩ }
    c1.carryOut p o.access (c1.classify p o.access)

/-- The port is granted while it is free and a claimant waits; an access that ends at once frees it again. `fuel` bounds
the grants: each port has one access. -/
def Chip.arbitrate : Nat → Chip → Chip
  | 0, c => c
  | fuel + 1, c =>
    if c.resetLow = false ∧ c.par.holder = .free then
      match c.nextClaimant with
      | none => c
      | some .tau => { c with par := ⟨.tau, .tau⟩ }
      | some .portA => Chip.arbitrate fuel (c.grantPort .a).present
      | some .portB => Chip.arbitrate fuel (c.grantPort .b).present
    else c

/-- What every command ends with: requests are presented and the memory port is granted. DESIGN CHOICE (log 44): a request
that the step itself raises is presented before the grant, so it already counts as waiting when that step frees the port;
R3 and R6 leave this open. -/
def Chip.settle (c : Chip) : Chip := c.present.arbitrate 3

/-! ### Presenting an access (R1, R4, R5) -/

/-- The 17th access under one lock (R5, R18): the lock ends, and the first reason in the report order is reported. -/
def Chip.breakLock (p : Port) (a : Access) (c : Chip) : Chip :=
  let kind := match c.classify p a with
    | .refuse k => k
    | _ => .lockBroken
  let c1 := { c with par := { c.par with holder := .free } }
  let c2 := c1.withPort p { c1.port p with lockIgnored := a.lock }
  Chip.refuseAccess kind p a (Chip.raise .lockBroken (c2.count .lockBreaks))

/-- An access of a port that holds a lock is granted at once and counted; the last is the one without LOCK (R4). -/
def Chip.lockedAccess (p : Port) (a : Access) (n : Nat) (c : Chip) : Chip :=
  if n < Config.lockLimit then
    let c1 := { c with par := { c.par with holder := .host p a.lock (n + 1) } }
    c1.carryOut p a (c1.classify p a)
  else c.breakLock p a

/-- A port presents an access (R1); while the reset line is asserted it waits (log 23). -/
def Chip.presentAccess (p : Port) (a : Access) (c : Chip) : Chip :=
  let c1 := c.putAccess p a .waiting
  let c2 := c1.withPort p { c1.port p with lockIgnored := (c1.port p).lockIgnored && a.lock }
  match c2.par.holder with
  | .host q true n => if q = p then (c2.lockedAccess p a n).settle else c2.settle
  | _ => c2.settle

/-- LOCK is seen deasserted: it is regarded again from the next access on. An access that waits, presented while the line
was disregarded, stays a tenure of one access (R5, log 38). -/
def PortState.seenDeasserted (s : PortState) : PortState :=
  { s with
    lockIgnored := false
    out :=
      match s.out with
      | some ⟨a, .waiting⟩ => some ⟨{ a with lock := a.lock && !s.lockIgnored }, .waiting⟩
      | o => o }

/-- LOCK is deasserted (R4, R5): with no access outstanding the host's locked tenure ends. DESIGN CHOICE (log 38): with an
access of the locked tenure outstanding, R4 gives the tenure no end, and it goes on after that access. -/
def Chip.releaseLock (p : Port) (c : Chip) : Chip :=
  let c1 := c.withPort p (c.port p).seenDeasserted
  if (c.port p).out = none then
    match c1.par.holder with
    | .host q true _ => if q = p then { c1 with par := { c1.par with holder := .free } } else c1
    | _ => c1
  else c1

/-! ### The end of a memory cycle (R2, R16) -/

/-- The access whose memory cycle runs, with its trigger. -/
def Chip.inMemory (c : Chip) : Option (Port × Access × Option Trigger) :=
  match c.par.holder with
  | .host p _ _ =>
    match (c.port p).out with
    | some ⟨a, .inMemory t⟩ => some (p, a, t)
    | _ => none
  | _ => none

/-- Memory after the cycle of an access. -/
def Memory.cycle (m : Memory) (a : Access) : Memory :=
  if a.write then m.writeEnabled (wordAddr a.addr) a.enables a.data else m

/-- What the cycle of an access returns. -/
def Memory.returned (m : Memory) (a : Access) : Word := if a.write then 0 else m.readWord (wordAddr a.addr)

/-- A trigger reaches its block in RUNNING and STOPPING (R16, R55, R76, R77). -/
def Chip.handTrigger (t : Trigger) (c : Chip) : Chip :=
  if c.working then
    match t.table with
    | .channelMap => c.mapTrigger t.index t.word t.value
    | .subscribers =>
      if t.word = 0 then
        if subInUse t.value then c.request ⟨t.index, .evaluate, true⟩ else c.request ⟨t.index, .retire, false⟩
      else c.request ⟨t.index, .evaluate, false⟩
    | _ => c
  else c

/-- The memory cycle of a passed access completes: READY, and the trigger (R2, R16). -/
def Chip.finishCycle (p : Port) (data : Word) (t : Option Trigger) (c : Chip) : Chip :=
  let c1 := c.endAccess p false data
  (match t with
    | some t => c1.handTrigger t
    | none => c1).settle

/-! ### The end of a TAU tenure (R6) -/

/-- One thing owed at the end of a tenure. -/
def Chip.payOwed (c : Chip) (o : Owed) : Chip :=
  match o with
  | .cause k => c.raise k
  | .space => c.spaceNotice
  | .request r => c.request r
  | .attempt sub => c.firstAttempt sub
  | .redeadline sub => c.redeadline sub
  | .tapFailure => c.count .tapFailures
  | .slot i down restore => c.handSlot i down restore
  | .snapshot => c.snapshotWritten
  | .mirrored => c.handRouteCauses
  | .purchaseEnd r => c.endEvaluation r
  | .spaceWait => c

/-- A tenure of phase 4 has ended: when no read and no repair is left, every node is UP (R123). -/
def Chip.outageTenureEnded (c : Chip) : Chip :=
  if c.loadingPhase 4 && c.slm.jobs.isEmpty && c.slm.nodes.isEmpty then c.nodesUp else c

/-- What the end of a job brings about for its block. -/
def Chip.jobEnded (j : Job) (c : Chip) : Chip :=
  match j with
  | .sweepStart | .sweepStep | .sweepEnd => c.sweepTenureEnded j
  | .purchase => c.takeHeld c.pcu.held
  | .logLoad => c.beginPhase4
  | .outageRead _ | .nextRead | .repair _ => c.outageTenureEnded
  | _ => c

/-- The tenure has ended: the port is freed, what was owed is paid in the order in which the grant put it down (for the
slots of one write tenure that order is a DESIGN CHOICE, log 45), the block goes on (R6), and the load phase or the stop
that waited for it ends (R33). -/
def Chip.finishTenure (t : Tenure) (c : Chip) : Chip :=
  let c1 := { c with tau := { c.tau with running := none }, par := { c.par with holder := .free } }
  let c2 := (t.owed.foldl Chip.payOwed c1).jobEnded t.job
  c2.endPhase4.endPhase5.endStopping.settle

/-! ### The reset line (R7, R25) -/

/-- How the access of a port ends at the reset line: one in memory completes, one waiting or held ends with ERROR (R7). DESIGN
CHOICE (log 47): a LOCK line disregarded since a lock break is regarded again, which R5, R7 and R25 leave open. -/
def PortState.atReset (s : PortState) (m : Memory) : PortState :=
  match s.out with
  | some ⟨a, .inMemory _⟩ => ⟨none, false, some ⟨false, m.returned a⟩⟩
  | some _ => ⟨none, false, some ⟨true, 0⟩⟩
  | none => ⟨none, false, s.answer⟩

/-- Memory at the reset line: a running tenure has made its first `k` writes; a memory cycle begun completes. -/
def Chip.memoryAtReset (c : Chip) (k : Nat) (m : Memory) : Memory :=
  match c.tau.running with
  | some t => m.applyWrites (t.writes.take k)
  | none =>
    match c.inMemory with
    | some x => m.cycle x.2.1
    | none => m

/-- The part when the reset line is asserted: everything inside at its value after the reset line; the pins and the ports
outside keep theirs. -/
def Chip.atReset (c : Chip) (m : Memory) : Chip :=
  { Chip.reset with lines := c.lines, portA := c.portA.atReset m, portB := c.portB.atReset m }

end Sys2Proof.Machine
end

