-- ==== Sys2Proof/Machine/Meaning.lean ====
section
/-! DEFINITION. The three shapes that the meanings of the commands have: a port presents an access, an event happens to the
part, a TAU tenure is granted. -/

namespace Sys2Proof.Machine

/-- The outcome of a command. -/
abbrev Outcome := Host.Outcome State Fault Refusal

/-- A port presents an access (R1). A port whose earlier access is outstanding cannot present one (log 6). -/
def State.access (p : Port) (a : Access) (s : State) : Outcome :=
  if (s.chip.port p).out.isSome then .fault (.portBusy p)
  else .next { s with chip := s.chip.presentAccess p a }

/-- A port reads or writes a whole command word. -/
def State.command (use : PortUse) (n : Nat) (write : Bool) (v : Word) (s : State) : Outcome :=
  s.access use.port (stationAccess n write v use.lock)

/-- An event happens to the part if its condition holds, out of reset; otherwise nothing changes (log 5). -/
def State.event (happens : Bool) (f : Chip → Chip) (s : State) : Outcome :=
  if happens = true ∧ s.chip.resetLow = false then .next { s with chip := (f s.chip).settle } else .next s

/-- A TAU tenure is granted: its body decides on memory and the part as the grant finds them, and fixes its writes; the
tenure runs until TAU_TENURE_END (log 7). -/
def State.tenure (pick : Chip → Job → Bool) (body : Memory → Job → Chip → Chip) (s : State) : Outcome :=
  match s.chip.grant (pick s.chip) with
  | none => .next s
  | some (j, c) => .next { s with chip := ((body s.mem j c).closeGrant).settle }

end Sys2Proof.Machine
end

