-- ==== Sys2Proof/Machine/CommandSteps.lean ====
section
/-! DEFINITION. The commands that are accesses to the command words (log 9): R22, R23, R43 to R46, R69, R138, R37, R159,
R162, R170. Whether a write is taken or refused is decided when the access is granted (R19). -/

namespace Sys2Proof.Machine

/-- START (R23, R26). -/
def execStart (use : PortUse) (s : State) : Outcome := s.command use 64 true 1

/-- STOP (R23, R32). -/
def execStop (use : PortUse) (s : State) : Outcome := s.command use 64 true 2

/-- The two accesses of LOG_CLEAR: the write index read is written as the release index (R23). -/
def Chip.logClearBody (m : Memory) (c : Chip) : Chip := c.writeStation 97 (m.readWord (stationAddr 96))

/-- LOG_CLEAR: the CONTROL write, and the tenure it asks for (R23). -/
def execLogClear (part : LogClearStep) (s : State) : Outcome :=
  match part with
  | .command use => s.command use 64 true 3
  | .tenure => s.tenure (fun _ j => j = .logClear) fun m _ c => c.logClearBody m

/-- ARM (R44). -/
def execArm (use : PortUse) (sequence : BitVec 16) (s : State) : Outcome :=
  s.command use 65 true (heartbeatWord 1 sequence)

/-- FEED (R45). -/
def execFeed (use : PortUse) (sequence : BitVec 16) (s : State) : Outcome :=
  s.command use 65 true (heartbeatWord 2 sequence)

/-- PAUSE (R46). -/
def execPause (use : PortUse) (s : State) : Outcome := s.command use 65 true (heartbeatWord 3 0)

/-- EXPIRE (R46). -/
def execExpire (use : PortUse) (s : State) : Outcome := s.command use 65 true (heartbeatWord 4 0)

/-- DISARM (R46). -/
def execDisarm (use : PortUse) (s : State) : Outcome := s.command use 65 true (heartbeatWord 5 0)

/-- TAKE (R69, R71). -/
def execTake (use : PortUse) (s : State) : Outcome := s.command use 66 true 1

/-- TAKE_CANCEL (R69, R73). -/
def execTakeCancel (use : PortUse) (s : State) : Outcome := s.command use 66 true 2

/-- BUY (R138). -/
def execBuy (use : PortUse) (subscriber : BitVec 12) (entry : BitVec 7) (s : State) : Outcome :=
  s.command use 67 true (purchaseWord .buy subscriber entry)

/-- PURCHASE_CANCEL (R138). -/
def execPurchaseCancel (use : PortUse) (subscriber : BitVec 12) (entry : BitVec 7) (s : State) : Outcome :=
  s.command use 67 true (purchaseWord .cancel subscriber entry)

/-- TIME_WRITE (R37). -/
def execTimeWrite (use : PortUse) (v : Word) (s : State) : Outcome := s.command use 68 true v

/-- RELEASE (R159). -/
def execRelease (use : PortUse) (index : Word) (s : State) : Outcome := s.command use 69 true index

/-- PERIOD_CLOSE (R162). -/
def execPeriodClose (use : PortUse) (s : State) : Outcome := s.command use 70 true 1

/-- CAUSE_READ (R170). -/
def execCauseRead (use : PortUse) (s : State) : Outcome := s.command use 71 false 0

/-- CAUSE_WRITE (R22). -/
def execCauseWrite (use : PortUse) (v : Word) (s : State) : Outcome := s.command use 71 true v

end Sys2Proof.Machine
end

