-- ==== Sys2Proof/Machine/LineUpSteps.lean ====
section
/-! DEFINITION. The commands of the Line-Up Engine and the route link: R62 to R68, R75, R176. -/

namespace Sys2Proof.Machine

/-- ROUTE_REPLY: bytes on the route link's receive line (R68, R176). -/
def execRouteReply (bytes : List LineByte) (s : State) : Outcome :=
  s.event true fun c => bytes.foldl Chip.routeByte c

/-- ROUTE_BYTE_TIMEOUT (R176). -/
def execRouteByteTimeout (s : State) : Outcome :=
  s.event (s.chip.routeLink.receiver.late s.chip.tbu.mono) Chip.dropRoute

/-- The deadline of the route order in flight has been reached. -/
def Chip.routeDue (c : Chip) : Bool :=
  match c.lue.order with
  | some o => decide (c.tbu.mono = o.deadline)
  | none => false

/-- The expiry of the order in flight. -/
def Chip.routeExpiry (c : Chip) : Chip :=
  match c.lue.order with
  | some o => c.expireRoute o
  | none => c

/-- ROUTE_DEADLINE (R66, R67). -/
def execRouteDeadline (s : State) : Outcome := s.event s.chip.routeDue Chip.routeExpiry

/-- MIRROR_TENURE (R63). -/
def execMirrorTenure (s : State) : Outcome := s.tenure (fun _ j => j = .mirror) fun _ _ c => c.mirrorBody

/-- MAP_LOAD_WALK: four entries (R75). -/
def execMapLoadWalk (s : State) : Outcome := s.tenure (fun _ j => j = .mapWalk) fun m _ c => c.mapWalkBody m

end Sys2Proof.Machine
end

