-- ==== Sys2Proof/Machine/LoadSteps.lean ====
section
/-! DEFINITION. The commands of the Lifecycle Controller's load, entry into RUNNING and into STOPPED: R25 to R33. A LOAD_PHASE
command is one tenure of its phase, and the test at its end once the phase's reads are made (log 10). -/

namespace Sys2Proof.Machine

/-- AUTOSTART_CHECK (R25). -/
def execAutostartCheck (s : State) : Outcome := s.tenure (fun _ j => j = .autostart) fun m _ c => c.autostart m

/-- A tenure of phase 1, or the fault set of a LOAD_FAULT that phase 1 ended. -/
def phase1Pick (c : Chip) (j : Job) : Bool :=
  match j with
  | .profile _ => true
  | .faultSet => c.lcc.phase != 3
  | _ => false

/-- LOAD_PHASE_1 (R27 to R29). -/
def execLoadPhase1 (s : State) : Outcome :=
  if s.chip.loadingPhase 1 && s.chip.lccIdle then s.event true Chip.endPhase1
  else s.tenure phase1Pick Chip.phase1Body

/-- LOAD_PHASE_2 (R29). -/
def execLoadPhase2 (s : State) : Outcome :=
  if s.chip.loadingPhase 2 && s.chip.lccIdle then s.event true Chip.endPhase2
  else s.tenure (fun _ j => j = .nodeTable 0 || j = .nodeTable 1) Chip.phase2Body

/-- A tenure of phase 3, or the fault set of a LOAD_FAULT that phase 3 ended. -/
def phase3Pick (c : Chip) (j : Job) : Bool :=
  match j with
  | .logIndexes => true
  | .faultSet => c.lcc.phase = 3
  | _ => false

/-- LOAD_PHASE_3 (R29, R30). -/
def execLoadPhase3 (s : State) : Outcome :=
  if s.chip.loadingPhase 3 && s.chip.lccIdle then s.event true Chip.endPhase3
  else s.tenure phase3Pick Chip.phase3Body

/-- RUNNING_ENTRY (R31). -/
def execRunningEntry (s : State) : Outcome :=
  s.event (s.chip.loadingPhase 6 && s.chip.mapWalked) Chip.enterRunning

/-- STOPPED_ENTRY (R33). A STOP and the end of a tenure make this entry themselves, so it finds something to do only where
the last condition came to hold otherwise (log 27). -/
def execStoppedEntry (s : State) : Outcome := s.event s.chip.canStop Chip.enterStopped

end Sys2Proof.Machine
end

