-- ==== Sys2Proof/Machine/LogSteps.lean ====
section
/-! DEFINITION. The tenures of the Purchase Unit, the Charge Log Unit and the Report Unit: R140, R159, R163, R165, R172. -/

namespace Sys2Proof.Machine

/-- EVALUATION_TENURE (R140). -/
def execEvaluationTenure (s : State) : Outcome := s.tenure (fun _ j => j = .purchase) fun m _ c => c.purchaseBody m

/-- RELEASE_TENURE (R159). -/
def execReleaseTenure (s : State) : Outcome := s.tenure (fun _ j => j = .release) fun _ _ c => c.releaseBody

/-- CLOSE_TENURE (R162, R163). -/
def execCloseTenure (s : State) : Outcome := s.tenure (fun _ j => j = .close) fun _ _ c => c.closeBody

/-- LOG_COPY_LOAD (R165). -/
def execLogCopyLoad (s : State) : Outcome := s.tenure (fun _ j => j = .logLoad) fun m _ c => c.logLoadBody m

/-- REPORT_TENURE (R172). -/
def execReportTenure (s : State) : Outcome := s.tenure (fun _ j => j = .report) fun _ _ c => c.reportBody

end Sys2Proof.Machine
end

