-- ==== Sys2Proof/Machine/NodeSteps.lean ====
section
/-! DEFINITION. The commands of the Status Line Monitor: R107 to R115, R121 to R123. -/

namespace Sys2Proof.Machine

/-- The lines are sampled: in RUNNING, after the first sample, once in a monotonic unit, when a level differs (R107). -/
def Chip.samplesNow (c : Chip) (levels : Word) : Bool :=
  match c.slm.lastSample with
  | some old => c.isRunning && !c.slm.sampled && old != levels
  | none => false

/-- STATUS_LINE_CHANGE: the inputs take new levels, and a sample finds them (R107, log 12). -/
def execStatusLineChange (levels : Word) (s : State) : Outcome :=
  State.event (s.chip.samplesNow levels) (Chip.sample levels) { s with chip := { s.chip with lines := levels } }

/-- The first sample after entry into RUNNING is to be taken. -/
def Chip.firstSampleDue (c : Chip) : Bool := c.isRunning && c.slm.lastSample.isNone

/-- FIRST_SAMPLE (R107). -/
def execFirstSample (s : State) : Outcome := s.event s.chip.firstSampleDue (Chip.sample s.chip.lines)

/-- A node in `state` has reached its deadline. -/
def Chip.nodeDue (state : NodeState) (n : Nat) (c : Chip) : Bool :=
  match c.slm.nodes[n]? with
  | some x => x.state = state && decide (x.deadline = some c.tbu.mono)
  | none => false

/-- ONSET_DEADLINE (R109). -/
def execOnsetDeadline (n : Nat) (s : State) : Outcome := s.event (s.chip.nodeDue .onset n) (Chip.enterDown n)

/-- HOLD_DEADLINE (R111). -/
def execHoldDeadline (n : Nat) (s : State) : Outcome := s.event (s.chip.nodeDue .clearing n) (Chip.enterUp n)

/-- SLM_WRITE_TENURE (R114). -/
def execSlmWriteTenure (s : State) : Outcome := s.tenure (fun _ j => j = .slmWrite) fun _ _ c => c.slmWriteBody

/-- The tenures of phase 4. -/
def isOutageJob : Job → Bool
  | .outageRead _ => true
  | .nextRead => true
  | .repair _ => true
  | _ => false

/-- What a tenure of phase 4 does (R121, R122). -/
def Chip.outageBody (m : Memory) (j : Job) (c : Chip) : Chip :=
  match j with
  | .outageRead part => c.outageReadBody m part
  | .nextRead => c.nextReadBody m
  | .repair i => c.repairBody i
  | _ => c

/-- OUTAGE_RECONCILIATION: one tenure of phase 4 (R121, R122). -/
def execOutageReconciliation (s : State) : Outcome := s.tenure (fun _ j => isOutageJob j) Chip.outageBody

end Sys2Proof.Machine
end

