-- ==== Sys2Proof/Machine/PortSteps.lean ====
section
/-! DEFINITION. The commands of the memory path and of the reset line: spec/01_the_memory_path.md, R25. -/

namespace Sys2Proof.Machine

/-- PORT_ACCESS (R1, R3, R10). -/
def execPortAccess (p : Port) (a : Access) (s : State) : Outcome := s.access p a

/-- LOCK_RELEASE (R4, R5). -/
def execLockRelease (p : Port) (s : State) : Outcome := s.event true (Chip.releaseLock p)

/-- MEMORY_CYCLE_COMPLETE (R2, R16). -/
def execMemoryCycleComplete (s : State) : Outcome :=
  match s.chip.inMemory with
  | some (p, a, t) =>
    .next { s with chip := s.chip.finishCycle p (s.mem.returned a) t, mem := s.mem.cycle a }
  | none => .next s

/-- RESET_ASSERT (R7, R25); `writesMade` writes of a running tenure are in memory. -/
def execResetAssert (writesMade : Nat) (s : State) : Outcome :=
  if s.chip.resetLow then .next s
  else .next { s with chip := s.chip.atReset s.mem, mem := s.chip.memoryAtReset writesMade s.mem }

/-- RESET_RELEASE: the autostart check and the first report tenure are asked for (R25, R172). -/
def execResetRelease (s : State) : Outcome :=
  if s.chip.resetLow then
    .next { s with chip := Chip.settle { s.chip with
      resetLow := false, lcc := { s.chip.lcc with jobs := [.autostart] } } }
  else .next s

/-- UNUSED_COMMAND_WORD_ACCESS: words 72 to 79 (R13). -/
def execUnusedCommandWordAccess (use : PortUse) (offset : BitVec 3) (write : Bool) (v : Word) (s : State) : Outcome :=
  s.command use (72 + offset.toNat) write v

/-- TAU_TENURE_END: the tenure's writes are in memory, and what is owed at its end is made (R6). -/
def execTauTenureEnd (s : State) : Outcome :=
  match s.chip.par.holder, s.chip.tau.running with
  | .tau, some t => .next { s with chip := s.chip.finishTenure t, mem := s.mem.applyWrites t.writes }
  | _, _ => .next s

end Sys2Proof.Machine
end

