-- ==== Sys2Proof/Machine/SweepSteps.lean ====
section
/-! DEFINITION. The commands of the Sweep Engine: R126 to R133. -/

namespace Sys2Proof.Machine

/-- A sweep may become active (R126). -/
def Chip.sweepStartDue (c : Chip) : Bool :=
  c.isRunning && c.swe.work.isNone && c.swe.queue.any fun e => e.ready

/-- SWEEP_START (R126). -/
def execSweepStart (s : State) : Outcome := s.event s.chip.sweepStartDue Chip.startSweep

/-- SWEEP_START_TENURE (R126). -/
def execSweepStartTenure (s : State) : Outcome := s.tenure (fun _ j => j = .sweepStart) fun m _ c => c.sweepStartBody m

/-- The active sweep is an EVENT_CLOSE. -/
def Chip.closing (c : Chip) : Bool :=
  match c.swe.active with
  | some e =>
    match e.kind with
    | .eventClose _ => true
    | .restore _ _ => false
  | none => false

/-- RESTORE_STEP (R128 to R130). -/
def execRestoreStep (s : State) : Outcome :=
  s.tenure (fun c j => j = .sweepStep && !c.closing) fun m _ c => c.sweepStepBody m

/-- EVENT_CLOSE_STEP (R132). -/
def execEventCloseStep (s : State) : Outcome :=
  s.tenure (fun c j => j = .sweepStep && c.closing) fun m _ c => c.sweepStepBody m

/-- SWEEP_END_TENURE (R131). -/
def execSweepEndTenure (s : State) : Outcome := s.tenure (fun _ j => j = .sweepEnd) fun _ _ c => c.sweepEndBody

end Sys2Proof.Machine
end

