-- ==== Sys2Proof/Machine/TapSteps.lean ====
section
/-! DEFINITION. The commands of the Tap Order Engine and the tap link: R78, R81 to R99, R103, R176. -/

namespace Sys2Proof.Machine

/-- TAP_REPLY: bytes on the tap link's receive line (R90, R91, R176). -/
def execTapReply (bytes : List LineByte) (s : State) : Outcome :=
  s.event true fun c => bytes.foldl (Chip.tapByte s.mem) c

/-- TAP_BYTE_TIMEOUT (R176). -/
def execTapByteTimeout (s : State) : Outcome :=
  s.event (s.chip.tapLink.receiver.late s.chip.tbu.mono) Chip.dropTap

/-- The attempt of an in-flight record has timed out. -/
def Flight.due (f : Flight) (now : Tick) : Bool := f.ending.isNone && decide (f.deadline = some now)

/-- The deadline of a subscriber's record has been reached. -/
def Chip.tapDue (sub : Nat) (c : Chip) : Bool :=
  match c.toe.flight sub with
  | some f => f.due c.tbu.mono
  | none => false

/-- The expiry of a subscriber's record. -/
def Chip.tapTimeout (sub : Nat) (c : Chip) : Chip :=
  match c.toe.flight sub with
  | some f => c.tapExpiry f
  | none => c

/-- TAP_DEADLINE (R94). -/
def execTapDeadline (sub : Nat) (s : State) : Outcome := s.event (s.chip.tapDue sub) (Chip.tapTimeout sub)

/-- EVALUATE (R83). -/
def execEvaluate (s : State) : Outcome := s.tenure (Chip.evalPick .evaluate) fun m _ c => c.evaluationBody m

/-- REQUEUE (R84). -/
def execRequeue (s : State) : Outcome := s.tenure (Chip.evalPick .requeue) fun m _ c => c.evaluationBody m

/-- RETIRE (R78). -/
def execRetire (s : State) : Outcome := s.tenure (Chip.evalPick .retire) fun m _ c => c.evaluationBody m

/-- SEND_TENURE (R87). -/
def execSendTenure (s : State) : Outcome := s.tenure (fun _ j => j = .send) fun m _ c => c.sendBody m

/-- REPLY_TENURE (R92). -/
def execReplyTenure (s : State) : Outcome := s.tenure (Chip.linkPick none) Chip.linkBody

/-- ENDING_FAILED (R95). -/
def execEndingFailed (s : State) : Outcome := s.tenure (Chip.linkPick (some .failed)) Chip.linkBody

/-- ENDING_HELD (R96). -/
def execEndingHeld (s : State) : Outcome := s.tenure (Chip.linkPick (some .held)) Chip.linkBody

/-- ENDING_RETURNED (R97). -/
def execEndingReturned (s : State) : Outcome := s.tenure (Chip.linkPick (some .returned)) Chip.linkBody

/-- ENDING_UNCONFIRMED (R98, R99). -/
def execEndingUnconfirmed (s : State) : Outcome := s.tenure (Chip.linkPick (some .unconfirmed)) Chip.linkBody

/-- ENDING_CONFIRMED (R91, R99). -/
def execEndingConfirmed (s : State) : Outcome := s.tenure (Chip.linkPick (some .confirmed)) Chip.linkBody

/-- SUBSCRIBER_LOAD_WALK: six channel map entries, or one subscriber record (R103). -/
def execSubscriberLoadWalk (s : State) : Outcome :=
  s.tenure (fun _ j => j = .eventSet || j = .subscriberWalk) fun m j c =>
    if j = .eventSet then c.eventSetBody m else c.subscriberWalkBody m

end Sys2Proof.Machine
end

