-- ==== Sys2Proof/Machine/TimeSteps.lean ====
section
/-! DEFINITION. The commands of the Timebase and Heartbeat Unit: R36, R39, R40, R47. -/

namespace Sys2Proof.Machine

/-- WALL_SECOND_BOUNDARY (R36). -/
def execWallSecondBoundary (s : State) : Outcome := s.event s.chip.boundaryDue Chip.advanceWall

/-- REFERENCE_PULSE (R39). -/
def execReferencePulse (s : State) : Outcome := s.event true Chip.pulse

/-- LOSS_WATCH_EXPIRY (R40). -/
def execLossWatchExpiry (s : State) : Outcome := s.event s.chip.lossDue Chip.loseSync

/-- HEARTBEAT_COUNTDOWN_EXPIRY (R47, R48). -/
def execHeartbeatCountdownExpiry (s : State) : Outcome := s.event s.chip.heartbeatDue Chip.enterExpired

end Sys2Proof.Machine
end

