-- ==== Sys2Proof/Machine/Dispatch.lean ====
section
/-! DEFINITION. One arm for each command: its meaning, called by name. -/

namespace Sys2Proof.Machine

/-- The effect of a command on everything but the queue. -/
def exec (i : Instr) (s : State) : Host.Outcome State Fault Refusal :=
  match i with
  | .portAccess p a => Sys2Proof.Machine.execPortAccess p a s
  | .lockRelease p => Sys2Proof.Machine.execLockRelease p s
  | .memoryCycleComplete => Sys2Proof.Machine.execMemoryCycleComplete s
  | .resetAssert n => Sys2Proof.Machine.execResetAssert n s
  | .resetRelease => Sys2Proof.Machine.execResetRelease s
  | .autostartCheck => Sys2Proof.Machine.execAutostartCheck s
  | .start u => Sys2Proof.Machine.execStart u s
  | .stop u => Sys2Proof.Machine.execStop u s
  | .logClear q => Sys2Proof.Machine.execLogClear q s
  | .arm u q => Sys2Proof.Machine.execArm u q s
  | .feed u q => Sys2Proof.Machine.execFeed u q s
  | .pause u => Sys2Proof.Machine.execPause u s
  | .expire u => Sys2Proof.Machine.execExpire u s
  | .disarm u => Sys2Proof.Machine.execDisarm u s
  | .heartbeatCountdownExpiry => Sys2Proof.Machine.execHeartbeatCountdownExpiry s
  | .take u => Sys2Proof.Machine.execTake u s
  | .takeCancel u => Sys2Proof.Machine.execTakeCancel u s
  | .buy u b e => Sys2Proof.Machine.execBuy u b e s
  | .purchaseCancel u b e => Sys2Proof.Machine.execPurchaseCancel u b e s
  | .timeWrite u v => Sys2Proof.Machine.execTimeWrite u v s
  | .release u v => Sys2Proof.Machine.execRelease u v s
  | .periodClose u => Sys2Proof.Machine.execPeriodClose u s
  | .causeRead u => Sys2Proof.Machine.execCauseRead u s
  | .causeWrite u v => Sys2Proof.Machine.execCauseWrite u v s
  | .unusedCommandWordAccess u o w v => Sys2Proof.Machine.execUnusedCommandWordAccess u o w v s
  | .wallSecondBoundary => Sys2Proof.Machine.execWallSecondBoundary s
  | .referencePulse => Sys2Proof.Machine.execReferencePulse s
  | .lossWatchExpiry => Sys2Proof.Machine.execLossWatchExpiry s
  | .routeReply bs => Sys2Proof.Machine.execRouteReply bs s
  | .routeByteTimeout => Sys2Proof.Machine.execRouteByteTimeout s
  | .routeDeadline => Sys2Proof.Machine.execRouteDeadline s
  | .mirrorTenure => Sys2Proof.Machine.execMirrorTenure s
  | .tauTenureEnd => Sys2Proof.Machine.execTauTenureEnd s
  | .tapReply bs => Sys2Proof.Machine.execTapReply bs s
  | .tapByteTimeout => Sys2Proof.Machine.execTapByteTimeout s
  | .tapDeadline n => Sys2Proof.Machine.execTapDeadline n s
  | .evaluate => Sys2Proof.Machine.execEvaluate s
  | .requeue => Sys2Proof.Machine.execRequeue s
  | .retire => Sys2Proof.Machine.execRetire s
  | .sendTenure => Sys2Proof.Machine.execSendTenure s
  | .replyTenure => Sys2Proof.Machine.execReplyTenure s
  | .endingFailed => Sys2Proof.Machine.execEndingFailed s
  | .endingHeld => Sys2Proof.Machine.execEndingHeld s
  | .endingReturned => Sys2Proof.Machine.execEndingReturned s
  | .endingUnconfirmed => Sys2Proof.Machine.execEndingUnconfirmed s
  | .endingConfirmed => Sys2Proof.Machine.execEndingConfirmed s
  | .statusLineChange v => Sys2Proof.Machine.execStatusLineChange v s
  | .onsetDeadline n => Sys2Proof.Machine.execOnsetDeadline n s
  | .holdDeadline n => Sys2Proof.Machine.execHoldDeadline n s
  | .slmWriteTenure => Sys2Proof.Machine.execSlmWriteTenure s
  | .sweepStart => Sys2Proof.Machine.execSweepStart s
  | .sweepStartTenure => Sys2Proof.Machine.execSweepStartTenure s
  | .restoreStep => Sys2Proof.Machine.execRestoreStep s
  | .eventCloseStep => Sys2Proof.Machine.execEventCloseStep s
  | .sweepEndTenure => Sys2Proof.Machine.execSweepEndTenure s
  | .evaluationTenure => Sys2Proof.Machine.execEvaluationTenure s
  | .releaseTenure => Sys2Proof.Machine.execReleaseTenure s
  | .closeTenure => Sys2Proof.Machine.execCloseTenure s
  | .reportTenure => Sys2Proof.Machine.execReportTenure s
  | .loadPhase1 => Sys2Proof.Machine.execLoadPhase1 s
  | .loadPhase2 => Sys2Proof.Machine.execLoadPhase2 s
  | .loadPhase3 => Sys2Proof.Machine.execLoadPhase3 s
  | .logCopyLoad => Sys2Proof.Machine.execLogCopyLoad s
  | .outageReconciliation => Sys2Proof.Machine.execOutageReconciliation s
  | .subscriberLoadWalk => Sys2Proof.Machine.execSubscriberLoadWalk s
  | .mapLoadWalk => Sys2Proof.Machine.execMapLoadWalk s
  | .runningEntry => Sys2Proof.Machine.execRunningEntry s
  | .stoppedEntry => Sys2Proof.Machine.execStoppedEntry s
  | .firstSample => Sys2Proof.Machine.execFirstSample s

end Sys2Proof.Machine
end

