-- ==== Sys2Proof/Machine/Idle.lean ====
section
/-! DEFINITION. What the part does of itself when no command waits (log 1): an event whose moment has come is taken; when
none is left, the route link serves what waits (R62), and then the monotonic count advances by one unit (R34, R35, R36). -/

namespace Sys2Proof.Machine

/-- The subscriber of lowest place in the in-flight set whose attempt has timed out. -/
def Chip.tapDueNow (c : Chip) : Option Nat :=
  (c.toe.flights.map fun f => f.subscriber).find? fun sub => c.tapDue sub

/-- The node of lowest number in `state` whose deadline has been reached. -/
def Chip.nodeDueNow (state : NodeState) (c : Chip) : Option Nat :=
  (List.range Config.nodeCount).find? fun n => c.nodeDue state n

/-- A due event that names a subscriber or a node, as a command. -/
def Chip.indexedDue (c : Chip) : Option Instr :=
  match c.tapDueNow, c.nodeDueNow .onset, c.nodeDueNow .clearing with
  | some sub, _, _ => some (.tapDeadline sub)
  | none, some n, _ => some (.onsetDeadline n)
  | none, none, some n => some (.holdDeadline n)
  | none, none, none => none

/-- The first event that is due, as a command. -/
def Chip.dueEvent (c : Chip) : Option Instr :=
  if c.boundaryDue then some .wallSecondBoundary
  else if c.lossDue then some .lossWatchExpiry
  else if c.heartbeatDue then some .heartbeatCountdownExpiry
  else if c.routeDue then some .routeDeadline
  else if c.routeLink.receiver.late c.tbu.mono then some .routeByteTimeout
  else if c.tapLink.receiver.late c.tbu.mono then some .tapByteTimeout
  else if c.firstSampleDue then some .firstSample
  else if c.samplesNow c.lines then some (.statusLineChange c.lines)
  else if c.canStop then some .stoppedEntry
  else if c.loadingPhase 6 && c.mapWalked then some .runningEntry
  else if c.sweepStartDue then some .sweepStart
  else c.indexedDue

/-- One monotonic unit passes (R34, R36); the lines may be sampled again (R107). -/
def Chip.passTime (c : Chip) : Chip :=
  { c with
    tbu := { c.tbu with mono := c.tbu.mono + 1, position := c.tbu.position + 1 }
    slm := { c.slm with sampled := false } }

/-- No command waits: while the reset line is asserted the part stands still. The choice that a time change has left to be
made is made before the count advances (R62, R70, log 52). -/
def State.idle (s : State) : Outcome :=
  if s.chip.resetLow then .next s
  else
    match s.chip.dueEvent with
    | some i => exec i s
    | none => if s.chip.choiceDue then s.event true Chip.serveRoutes else .next { s with chip := s.chip.passTime }

end Sys2Proof.Machine
end

