-- ==== Sys2Proof/Safety.lean ====
section
/-! DEFINITION. The terms in which claims about the part are stated: its pieces and what two states share, the invariants of
every step, and the conditions under which a command has its own effect. -/

namespace Sys2Proof.Machine

/-! ### Pieces of the part -/

/-- The pieces of the part. What waits at the TAU, the running tenure, the jobs still to be asked for, the low state and
the dirty mark of the status word stand apart: events that concern none of the block's own business reach them. -/
inductive Piece where
  | resetLine
  | lines
  | portA
  | portB
  | arbiter
  | requests
  | tenure
  | jobs
  | map
  | lcc
  | settings
  | tbu
  | lue
  | toe
  | slm
  | swe
  | pcu
  | clu
  | low
  | rpu
  | statusMark
  | routeLink
  | tapLink
deriving DecidableEq, Repr

/-- Two parts agree on a piece. -/
def Chip.agree (c d : Chip) : Piece → Prop
  | .resetLine => d.resetLow = c.resetLow
  | .lines => d.lines = c.lines
  | .portA => d.portA = c.portA
  | .portB => d.portB = c.portB
  | .arbiter => d.par = c.par
  | .requests => d.tau.orders = c.tau.orders
  | .tenure => d.tau.running = c.tau.running
  | .jobs => d.lcc.jobs = c.lcc.jobs ∧ d.slm.jobs = c.slm.jobs
  | .map => d.map = c.map
  | .lcc => { d.lcc with jobs := [] } = { c.lcc with jobs := [] }
  | .settings => d.settings = c.settings
  | .tbu => d.tbu = c.tbu
  | .lue => d.lue = c.lue
  | .toe => d.toe = c.toe
  | .slm => { d.slm with jobs := [] } = { c.slm with jobs := [] }
  | .swe => d.swe = c.swe
  | .pcu => d.pcu = c.pcu
  | .clu => { d.clu with low := false } = { c.clu with low := false }
  | .low => d.clu.low = c.clu.low
  | .rpu => { d.rpu with statusDirty := false } = { c.rpu with statusDirty := false }
  | .statusMark => d.rpu.statusDirty = c.rpu.statusDirty
  | .routeLink => d.routeLink = c.routeLink
  | .tapLink => d.tapLink = c.tapLink

/-- Two parts agree on every piece but those listed. -/
def Chip.Same (changed : List Piece) (c d : Chip) : Prop := ∀ x, x ∉ changed → c.agree d x

/-- The piece of a port. -/
def portPiece : Port → Piece
  | .a => .portA
  | .b => .portB

/-- The other port. -/
def otherPort : Port → Port
  | .a => .b
  | .b => .a

/-! ### Invariants -/

/-- The memory is in canonical form. -/
def State.canonical (s : State) : Prop := s.mem.wf = true

/-- Every request that a block needs has been presented, and while the memory port is free no claimant waits (R3, R6);
while the reset line is asserted nothing is asked of the part. -/
def Chip.settled (c : Chip) : Prop :=
  c.resetLow = true ∨
    (c.requests = [] ∧ (c.par.holder = .free → c.portA.waiting = false ∧ c.portB.waiting = false ∧ c.tau.orders = []))

/-- The host tenure that holds the memory port has 1 to 16 accesses (R4, R5). -/
def Chip.lockBounded (c : Chip) : Prop :=
  match c.par.holder with
  | .host _ _ n => 1 ≤ n ∧ n ≤ Config.lockLimit
  | _ => True

/-- A countdown is present only in ARMED, and there it is (R47). -/
def Chip.countdownArmed (c : Chip) : Prop := c.tbu.deadline.isSome = true ↔ c.tbu.heartbeat = .armed

/-- The memory size in force is 1 to 16 MiB (R9, R27), so the station block lies below it. -/
def Chip.mapSized (c : Chip) : Prop := 1048576 ≤ c.map.memSize ∧ c.map.memSize ≤ 16777216

/-- The subscribers in the four collections of the TOE. -/
def Toe.members (t : Toe) : List Nat :=
  t.queue.map (fun q => q.subscriber) ++ t.deferred.map (fun d => d.subscriber) ++ t.held ++
    t.flights.map fun f => f.subscriber

/-- The collections of the TOE: the queue holds at most 64, a subscriber stands in at most one of them, once, the tags in
flight are distinct, and the in-flight set keeps within the window of at most 4 (R79, R85, R89). The three clauses after
these say where requests, members and a walk stand while the part is not RUNNING or STOPPING, so that a load finds the
collections empty and adds each subscriber once (R26, R82, R103). -/
def Chip.collected (c : Chip) : Prop :=
  c.toe.queue.length ≤ 64 ∧ c.toe.members.Nodup ∧ (c.toe.flights.map fun f => f.tag).Nodup ∧
    c.toe.flights.length ≤ c.settings.window ∧ c.settings.window ≤ 4 ∧ (c.working = false → c.toe.evals = []) ∧
    (c.lcc.lifecycle = .loading → c.lcc.phase < 5 → c.toe.members = []) ∧
    ∀ w, c.toe.walk = some w → c.lcc.lifecycle = .loading ∧ c.lcc.phase = 5 ∧ ∀ m ∈ c.toe.members, m < w.subscriber

/-- The occupancy of the charge log and the reservation count together fit the capacity, and the release target lies between
the release index and the write index (R152, R159). -/
def Chip.logFits (c : Chip) : Prop :=
  ∀ l, c.clu.copy = some l → (l.write - l.release).toNat + c.clu.reserved ≤ c.capacity ∧
    (l.write - l.target).toNat ≤ (l.write - l.release).toNat

/-- The reservations that a subscriber needs: one for an order in flight that changes the level, one for a demand that is
not delivered (R87, R142). -/
def State.needs (s : State) (sub : Nat) : Nat :=
  (if s.chip.toe.flights.any (fun f => f.subscriber = sub && f.levelReserved) then 1 else 0) +
    (if field (s.chip.recordWord s.mem .subscribers sub 3) 0 8 ≠ 0 ∧
        bit (s.chip.recordWord s.mem .subscribers sub 3) 8 = false then 1 else 0)

/-! ### When a command has its own effect -/

/-- An access that port `p` presents now is granted at once, and no access of the other port follows in the same step: the
part is out of reset, `p` has no access outstanding, the other port does not wait, and either the memory port is free in a
settled part or `p` holds a lock with an access left (R3, R4). -/
def Chip.grantsAt (p : Port) (c : Chip) : Bool :=
  !c.resetLow && (c.port p).out.isNone && !(c.port (otherPort p)).waiting &&
    (match c.par.holder with
      | .free => c.requests.isEmpty && c.tau.orders.isEmpty
      | .host q true n => decide (q = p) && decide (n < Config.lockLimit)
      | _ => false)

/-- The port's access to command word `n` is granted at once, the memory holds the station block, and the port holds the
word's permission (R13). -/
def Chip.commands (p : Port) (n : Nat) (c : Chip) : Bool :=
  c.grantsAt p && decide (0x400 ≤ c.map.memSize) && (c.map.permits p).getLsbD (n - 64)

/-- The TAU holds the memory port without a tenure, and the job is among its oldest requests as the only one of its block
there (R6). -/
def Chip.offers (j : Job) (c : Chip) : Bool :=
  !c.resetLow && decide (c.par.holder = .tau) && c.tau.running.isNone &&
    (match c.tau.orders with
      | [] => false
      | batch :: _ => batch.contains j && batch.all fun k => decide (k.block = j.block → k = j))

/-- The part is out of reset, and an event leaves no port access to be granted in the same step: the memory port is held,
or neither port waits. -/
def Chip.quiet (c : Chip) : Bool :=
  !c.resetLow && (decide (c.par.holder ≠ .free) || (!c.portA.waiting && !c.portB.waiting))

/-! ### What a command leaves -/

/-- The running tenure is that of a job, with these writes. -/
def Chip.runs (c : Chip) (j : Job) (writes : List (Addr × Word)) : Prop :=
  ∃ t, c.tau.running = some t ∧ t.job = j ∧ t.writes = writes

/-- The running tenure owes something at its end. -/
def Chip.owes (c : Chip) (o : Owed) : Prop := ∃ t, c.tau.running = some t ∧ o ∈ t.owed

/-- A job stands among the TAU's requests. -/
def Chip.requested (c : Chip) (j : Job) : Prop := ∃ batch, batch ∈ c.tau.orders ∧ j ∈ batch

/-- The access of a port has ended with an answer: memory and the queue are as before, and beside the port, the arbiter
and the requests only the named pieces may differ. -/
def State.ended (p : Port) (answer : Answer) (changed : List Piece) (s t : State) : Prop :=
  t.mem = s.mem ∧ t.pending = s.pending ∧ (t.chip.port p).out = none ∧ (t.chip.port p).answer = some answer ∧
    Chip.Same (portPiece p :: .arbiter :: .requests :: .jobs :: changed) s.chip t.chip

/-- An event has happened: memory and the queue are as before, and beside the arbiter and the requests only the named
pieces may differ. -/
def State.happened (changed : List Piece) (s t : State) : Prop :=
  t.mem = s.mem ∧ t.pending = s.pending ∧ Chip.Same (.arbiter :: .requests :: .jobs :: changed) s.chip t.chip

/-- A tenure has been granted: memory and the queue are as before, and beside the requests, the tenure, the low state and
the mark of the status word only the named pieces may differ. -/
def State.granted (changed : List Piece) (s t : State) : Prop :=
  t.mem = s.mem ∧ t.pending = s.pending ∧
    Chip.Same (.requests :: .jobs :: .tenure :: .low :: .statusMark :: changed) s.chip t.chip

/-- The pieces that line-up work can change: the LUE, the sweep queue it hands closes to, causes and counters, frames. -/
def lineUpPieces : List Piece := [.lue, .swe, .rpu, .statusMark, .routeLink]

/-! ### What the rules spell out -/

/-- An entry in use breaks a test of R52 on the entry as a whole, at index `i` against the bound event numbers: a source
above 64, a display number of 0 or above 999, and for kind EVENT number 0, an end not later than the start, or a number
bound to another entry. -/
def Entry.breaks (e : Entry) (i : Nat) (bound : List (BitVec 8 × Nat)) : Prop :=
  64 < (field e.w0 16 7).toNat ∨ 64 < (field e.w1 8 7).toNat ∨ (field e.w0 0 10).toNat = 0 ∨
    999 < (field e.w0 0 10).toNat ∨
    (bit e.w0 12 = true ∧
      (field e.w1 0 8 = 0 ∨ e.w3.toNat ≤ e.w2.toNat ∨ ∃ b ∈ bound, b.1 = field e.w1 0 8 ∧ b.2 ≠ i))

/-- The phase that an evaluation finds at a wall time (R57). -/
def Entry.phaseFound (e : Entry) (wall : Word) : Phase :=
  if wall.toNat < e.w2.toNat then .before else if wall.toNat < e.w3.toNat then .inside else .after

/-- The phase that a time change leaves, by the table of R57: CLOSING stays, and a transition into AFTER is CLOSING. -/
def Entry.phaseMoved (e : Entry) (wall : Word) : Option Phase :=
  match e.phase, e.phaseFound wall with
  | none, _ => none
  | some .closing, _ => some .closing
  | some .after, .after => some .after
  | some _, .after => some .closing
  | some _, found => some found

/-- What the route link is at: the order in flight, the next tag, the frames and the receiver. -/
def Chip.linkUse (c : Chip) : Option RouteOrder × BitVec 3 × Link := (c.lue.order, c.lue.tag, c.routeLink)

/-- The rank of the class that an entry carries: FALLBACK above EVENT above TAKE, and each above none (R61). -/
def classRank : Option RouteClass → Nat
  | none => 0
  | some .take => 1
  | some .event => 2
  | some .fallback => 3

/-- An entry after a route request of class `k`, by the table of R61: none on an entry out of use or set aside; SETTLED and
FAILED become PENDING; PENDING and IN_FLIGHT take the class if theirs ranks below it. A change is to be mirrored (R63). -/
def Entry.asked (e : Entry) (k : RouteClass) : Entry :=
  if bit e.w0 31 = false ∨ e.aside = true then e
  else if e.route = .settled ∨ e.route = .failed then { e with route := .pending, cls := some k, dirty := true }
  else if classRank e.cls < classRank (some k) then { e with cls := some k, dirty := true }
  else e

/-- An entry after a time change to `wall` (R57, R61): an in-use EVENT entry has its phase moved, and one that goes into
INSIDE or out of it is asked for with class EVENT. A change is to be mirrored (R63). -/
def Entry.atTime (e : Entry) (wall : Word) : Entry :=
  let moved := e.phaseMoved wall
  let e1 := { e with phase := moved, dirty := e.dirty || decide (moved ≠ e.phase) }
  if bit e.w0 31 = false ∨ e.aside = true ∨ bit e.w0 12 = false then e
  else if moved ≠ e.phase ∧ (e.phase = some .inside ∨ moved = some .inside) then e1.asked .event
  else e1

/-- The closes that a time change to `wall` hands (R57, R58): in RUNNING an EVENT_CLOSE joins the tail of the sweep queue for
every in-use EVENT entry that goes into CLOSING, one for a number and none for a number that has one queued or running, as
long as the queue has room; in other states none. -/
def Chip.closesHanded (wall : Word) (c d : Chip) : Prop :=
  let closes := fun e : Entry => bit e.w0 31 = true ∧ e.aside = false ∧ bit e.w0 12 = true ∧
    e.phaseMoved wall = some .closing ∧ e.phase ≠ some .closing
  (c.lcc.lifecycle ≠ .running → d.swe = c.swe) ∧
  (c.lcc.lifecycle = .running → d.swe.work = c.swe.work ∧
    (∃ new, d.swe.queue = c.swe.queue ++ new ∧ (new.map fun x => x.kind).Nodup ∧
      ∀ x ∈ new, (∀ y ∈ c.swe.queue, y.kind ≠ x.kind) ∧
        ∃ e ∈ c.lue.entries, closes e ∧ x = ⟨.eventClose (field e.w1 0 8), 0, true, false, false⟩) ∧
    (c.swe.queue.length + c.lue.entries.length ≤ 192 → ∀ e ∈ c.lue.entries, closes e →
      ∃ x ∈ d.swe.queue, x.kind = .eventClose (field e.w1 0 8)))

/-- The effective target of an entry, fallback in force or not (R60). -/
def Entry.wanted (e : Entry) (fallback : Bool) (fallbackSource : BitVec 7) : BitVec 7 :=
  if fallback = true ∧ bit e.w0 13 = true then fallbackSource
  else if bit e.w0 12 = true ∧ e.phase = some .inside then field e.w1 8 7
  else field e.w0 16 7

/-- What a fallback start (`on`) or end asks of the line-up (R70): a FALLBACK request to every entry whose fallback flag is
set. While an order is in flight, or outside RUNNING, the requests wait. With the link free in RUNNING and no request
of class FALLBACK waiting before, the flagged entry of lowest index that differs from its target is sent, ahead of what a
time change at the same count has asked for, and the flagged ones below it are SETTLED (R62). -/
def Chip.fallbackMoved (on : Bool) (c d : Chip) : Prop :=
  (c.lue.order.isSome = true ∨ d.lcc.lifecycle ≠ .running →
    d.lue.entries = (c.lue.entries.map fun e => if bit e.w0 13 = true then e.asked .fallback else e) ∧
      d.lue.order = c.lue.order ∧ d.routeLink.sent = c.routeLink.sent) ∧
  (∀ i e, c.lue.order = none → d.lcc.lifecycle = .running →
    (∀ x ∈ c.lue.entries, x.route ≠ .inFlight ∧ (x.route = .pending → x.cls ≠ some .fallback)) →
    c.lue.entries[i]? = some e →
    (let moves := fun x : Entry => bit x.w0 31 = true ∧ x.aside = false ∧ bit x.w0 13 = true ∧
      x.applied ≠ x.wanted on c.settings.fallbackSource
    moves e → (∀ j x, j < i → c.lue.entries[j]? = some x → ¬moves x) →
      d.lue.order = some ⟨i, e.wanted on c.settings.fallbackSource, c.lue.tag, c.tbu.mono + c.settings.routeTimeout,
        .fallback⟩ ∧
      d.lue.tag = c.lue.tag + 1 ∧
      d.routeLink.sent = c.routeLink.sent ++ [routeFrame i (e.wanted on c.settings.fallbackSource) c.lue.tag] ∧
      ∀ j x, c.lue.entries[j]? = some x → d.lue.entries[j]? = some
        (if j = i then { x with route := .inFlight, cls := none, attempts := 1, dirty := true }
          else if bit x.w0 13 = false ∨ bit x.w0 31 = false ∨ x.aside = true then x
          else if j < i then { x with route := .settled, cls := none, dirty := true }
          else x.asked .fallback)))

/-- An order for entry `i` has been sent (R62): the next tag, one route timeout from now, its frame on the link. -/
def Chip.orderSent (i : Nat) (source : BitVec 7) (k : RouteClass) (c d : Chip) : Prop :=
  d.lue.order = some ⟨i, source, c.lue.tag, c.tbu.mono + c.settings.routeTimeout, k⟩ ∧ d.lue.tag = c.lue.tag + 1 ∧
    d.routeLink.sent = c.routeLink.sent ++ [routeFrame i source c.lue.tag]

/-- The free link has served the entries PENDING with a class (R62): the first of them in order of class and index that
differs from its target is sent, and those before it are SETTLED; with none that differs, all are SETTLED and nothing is
sent. -/
def Chip.routesServed (c d : Chip) : Prop :=
  let target := fun x : Entry => x.wanted c.fallback c.settings.fallbackSource
  let waits := fun x : Entry => x.route = .pending ∧ x.cls ≠ none
  let goesBefore := fun (j : Nat) (x : Entry) (i : Nat) (e : Entry) =>
    classRank e.cls < classRank x.cls ∨ (x.cls = e.cls ∧ j < i)
  let settled := fun x : Entry => { x with route := .settled, cls := none, dirty := true }
  (∀ (i : Nat) (e : Entry) (k : RouteClass), c.lue.entries[i]? = some e → waits e → e.cls = some k → e.applied ≠ target e →
    (∀ (j : Nat) (x : Entry), c.lue.entries[j]? = some x → waits x → goesBefore j x i e → x.applied = target x) →
    c.orderSent i (target e) k d ∧
    ∀ (j : Nat) (x : Entry), c.lue.entries[j]? = some x → ∃ x', d.lue.entries[j]? = some x' ∧
      (j = i → x' = { x with route := .inFlight, cls := none, attempts := 1, dirty := true }) ∧
      (waits x → goesBefore j x i e → x' = settled x) ∧
      (j ≠ i → ¬(waits x ∧ goesBefore j x i e) → x' = x)) ∧
  ((∀ x ∈ c.lue.entries, waits x → x.applied = target x) → d.linkUse = c.linkUse ∧
    ∀ (j : Nat) (x : Entry), c.lue.entries[j]? = some x →
      (waits x → d.lue.entries[j]? = some (settled x)) ∧ (¬waits x → d.lue.entries[j]? = some x))

/-- What follows the end of the order of entry `e`, at `i`, which is `e'` then and has class `k` applied to it, if one
(R62, R64, R65): the order is no longer in flight. Outside RUNNING the entry waits with its class. In RUNNING the link
serves the next entry: with no other entry PENDING it is this one where it differs from its target, and none otherwise.
A take left without TAKE work ends (R72). -/
def Chip.linkFreed (i : Nat) (e' : Entry) (k : Option RouteClass) (c d : Chip) : Prop :=
  let target := e'.wanted c.fallback c.settings.fallbackSource
  let alone := ∀ j x, j ≠ i → c.lue.entries[j]? = some x → x.route ≠ .pending
  (c.lcc.lifecycle ≠ .running → d.lue.order = none ∧ d.routeLink.sent = c.routeLink.sent ∧
    ∀ x, k = some x → e'.route = .pending ∧ e'.cls = some x) ∧
  (∀ o, d.lue.order = some o →
    o.tag = c.lue.tag ∧ o.deadline = c.tbu.mono + c.settings.routeTimeout ∧ d.lue.tag = c.lue.tag + 1) ∧
  (c.lcc.lifecycle = .running → alone → k = none ∨ e'.applied = target →
    d.lue.order = none ∧ d.routeLink.sent = c.routeLink.sent) ∧
  (∀ x, c.lcc.lifecycle = .running → alone → k = some x →
    (e'.applied = target → e'.route = .settled ∧ e'.cls = none) ∧
    (e'.applied ≠ target → c.orderSent i target x d ∧ e'.route = .inFlight ∧ e'.cls = none ∧ e'.attempts = 1)) ∧
  (c.lue.take = .applying → k ≠ some .take →
    (∀ j x, j ≠ i → c.lue.entries[j]? = some x → x.route = .pending → x.cls ≠ some .take) →
    d.lue.take = .idle ∧ d.lue.takeResult = if d.lue.takeFailed = 0 then .complete else .partialTake)

/-- The order `o` has been completed, with its entry `e` before and `e'` after (R64): the applied source, the owed time, the
noted class where the entry still differs from its target, and SETTLED otherwise. An entry in use is one in use now (that it
may have left use meanwhile is log 50). -/
def Chip.orderDone (o : RouteOrder) (e e' : Entry) (c d : Chip) : Prop :=
  let again := e.live = true ∧ o.source ≠ e.wanted c.fallback c.settings.fallbackSource
  e'.applied = o.source ∧ o.slot ∈ d.lue.owesTime ∧ d.lue.takeFailed = c.lue.takeFailed ∧
    (¬again ∨ e.cls = none → e'.route = .settled ∧ e'.cls = none ∧ e'.attempts = e.attempts ∧
      c.linkFreed o.slot e' none d) ∧
    (again → e.cls ≠ none → c.linkFreed o.slot e' e.cls d)

/-- The order `o` has failed, with its entry `e` before and `e'` after (R65, R66, R72): FAILED, or with the noted class
applied as a fresh request, or SETTLED where it is out of use (one that is back in use counts as in use: log 50); ROUTE_FAILED is owed, and a TAKE order is counted in the
take. -/
def Chip.orderFailed (o : RouteOrder) (e e' : Entry) (c d : Chip) : Prop :=
  e'.applied = e.applied ∧ (∃ x ∈ d.lue.owedCauses, x.cause = .routeFailed ∧ x.entries = [o.slot]) ∧
    d.lue.takeFailed = (if c.lue.take = .applying ∧ o.cls = .take then c.lue.takeFailed + 1 else c.lue.takeFailed) ∧
    (e.live = false → e'.route = .settled ∧ e'.cls = none ∧ c.linkFreed o.slot e' none d) ∧
    (e.live = true → e.cls = none → e'.route = .failed ∧ e'.cls = none ∧ c.linkFreed o.slot e' none d) ∧
    (e.live = true → e.cls ≠ none → c.linkFreed o.slot e' e.cls d)

/-- What a taken write to word `word` of map entry `i` brings about (R55, R57, R58, R75), with the entry `e` before and `e'`
after: an entry set aside is taken into use when it passes every test; the binding of its number; its phase as found on
entering use as an EVENT entry and moved by a window write; the close of a window; its route state on leaving use; and the
request of class EVENT, which waits while the link is not free. What changes is to be mirrored. -/
def Chip.mapWritten (i word : Nat) (e e' : Entry) (c d : Chip) : Prop :=
  let used := fun x : Entry => bit x.w0 31 = true ∧ x.aside = false
  let was := used e ∧ bit e.w0 12 = true
  let now := used e' ∧ bit e'.w0 12 = true
  let number := field e'.w1 0 8
  let others := c.lue.eventMap.filter fun b => b.2 ≠ i
  let passes := (field e'.w0 16 7).toNat ≤ 64 ∧ (field e'.w1 8 7).toNat ≤ 64 ∧
    (bit e'.w0 31 = true → ¬e'.breaks i c.lue.eventMap)
  let window := was ∧ now ∧ (word = 2 ∨ word = 3)
  let closes := window ∧ e'.phase = some .closing ∧ e.phase ≠ some .closing
  let rest : RouteState × Option RouteClass :=
    if e.aside = true ∧ e'.aside = false then (.settled, none)
    else if used e ∧ bit e'.w0 31 = false then
      (match e.route with
        | .pending => (.settled, none)
        | .inFlight => (.inFlight, none)
        | r => (r, e.cls))
    else (e.route, e.cls)
  let asks := (¬was ∧ now ∧ e'.phase = some .inside) ∨
    (window ∧ e'.phase ≠ e.phase ∧ (e.phase = some .inside ∨ e'.phase = some .inside))
  let busy := c.lue.order.isSome = true ∨ c.lcc.lifecycle ≠ .running
  let quiet := ∀ x ∈ c.lue.entries, x.route ≠ .pending
  let target := e'.wanted c.fallback c.settings.fallbackSource
  let asked := Entry.asked { e' with route := rest.1, cls := rest.2 } .event
  (e'.aside = true ↔ e.aside = true ∧ ¬passes) ∧ e'.applied = e.applied ∧
  d.lue.eventMap = (if now ∧ (¬was ∨ field e.w1 0 8 ≠ number) then others ++ [(number, i)]
    else if was ∧ ¬now then others else c.lue.eventMap) ∧
  e'.phase = (if ¬was ∧ now then some (e'.phaseFound c.tbu.wall) else if was ∧ ¬now then none
    else if window then Entry.phaseMoved { e' with phase := e.phase } c.tbu.wall else e.phase) ∧
  (¬closes ∨ c.lcc.lifecycle = .stopping → d.swe = c.swe) ∧
  (closes → c.lcc.lifecycle = .running → c.swe.queue.length < 192 → ∃ x ∈ d.swe.queue, x.kind = .eventClose number) ∧
  (e'.phase ≠ e.phase ∨ e'.route ≠ e.route ∨ e'.cls ≠ e.cls → e'.dirty = true) ∧
  (busy ∨ quiet → ∀ j, j ≠ i → d.lue.entries[j]? = c.lue.entries[j]?) ∧
  (¬asks → busy ∨ quiet → e'.route = rest.1 ∧ e'.cls = rest.2 ∧ d.lue.order = c.lue.order ∧ d.routeLink = c.routeLink) ∧
  (asks → busy → e'.route = asked.route ∧ e'.cls = asked.cls ∧ d.lue.order = c.lue.order ∧ d.routeLink = c.routeLink) ∧
  (asks → ¬busy → quiet → rest.1 = .settled ∨ rest.1 = .failed →
    (e'.applied = target → e'.route = .settled ∧ e'.cls = none ∧ d.lue.order = none) ∧
    (e'.applied ≠ target → c.orderSent i target .event d ∧ e'.route = .inFlight ∧ e'.cls = none ∧ e'.attempts = 1))

/-- The memory port has been given to the waiting access of a port, which passes (R3, R4): a tenure of one access, or one
locked where LOCK is asserted and regarded, the pointer at the port. -/
def Chip.givenTo (p : Port) (a : Access) (tr : Option Trigger) (c d : Chip) : Prop :=
  d.par = ⟨.host p (a.lock && !(c.port p).lockIgnored) 1, Port.claimant p⟩ ∧ d.inMemory = some (p, a, tr)

/-- The age of an outage number: the steps from it forward to the next number, from 65,535 on to 1 (R112). -/
def numberAge (n next : BitVec 16) : Nat :=
  if n.toNat < next.toNat then next.toNat - n.toNat else next.toNat + 65535 - n.toNat

/-- The number `k` steps on from `n` (R112): after 65,535 comes 1. -/
def numberAfter (n : BitVec 16) : Nat → BitVec 16
  | 0 => n
  | k + 1 => if numberAfter n k = 65535 then 1 else numberAfter n k + 1

/-- A record of the list that is not unused carries the number (R121). -/
def Slm.lists (s : Slm) (n : BitVec 16) : Prop := ∃ x ∈ s.slots, x.status ≠ .unused ∧ x.number = n

/-- Slot `i` is not unused and a lower one that is not unused carries its number (R121). -/
def Slm.repeats (s : Slm) (i : Nat) : Prop :=
  ∃ x, s.slots[i]? = some x ∧ x.status ≠ .unused ∧
    ∃ j y, j < i ∧ s.slots[j]? = some y ∧ y.status ≠ .unused ∧ y.number = x.number

/-- Slot `i` is the one that a new outage takes (R113): the unused slot of lowest index, or, with no slot unused, the SWEPT
one whose number has the greatest age. -/
def Slm.takes (s : Slm) (i : Nat) : Prop :=
  ∃ x, s.slots[i]? = some x ∧
    ((x.status = .unused ∧ ∀ j y, j < i → s.slots[j]? = some y → y.status ≠ .unused) ∨
      (x.status = .swept ∧ (∀ y ∈ s.slots, y.status ≠ .unused) ∧ s.next ≠ 0 ∧
        ∀ j y, j ≠ i → s.slots[j]? = some y → y.status = .swept → numberAge y.number s.next < numberAge x.number s.next))

/-- A w2 written over another keeps the confirmed level and gate, the low signal and the stamp flags. -/
def keepsConfirmed (old new : Word) : Prop :=
  field new 0 2 = field old 0 2 ∧ bit new 2 = bit old 2 ∧ bit new 16 = bit old 16 ∧ bit new 20 = bit old 20 ∧
    bit new 21 = bit old 21

/-- The attempts used that a written w2 shows (R80): those sent of the subscriber's order in flight, those kept of its queue
entry, 0 in the held and deferred sets, and elsewhere `rest`. -/
def Toe.attemptsUsed (t : Toe) (sub : Nat) (rest : BitVec 4) : BitVec 4 :=
  match t.flight sub, t.queue.find? (fun q => q.subscriber = sub) with
  | some f, _ => BitVec.ofNat 4 f.sent
  | none, some q => BitVec.ofNat 4 q.kept
  | none, none => if sub ∈ t.held ∨ ∃ d ∈ t.deferred, d.subscriber = sub then 0 else rest

/-- A subscriber joins the tail of the tap queue with kept attempts 0, or the deferred set if the queue holds 64 (R85). -/
def Toe.tailed (t : Toe) (sub : Nat) (reassert : Bool) : Toe :=
  if t.queue.length < 64 then { t with queue := t.queue ++ [⟨sub, reassert, 0⟩] }
  else { t with deferred := t.deferred ++ [⟨sub, reassert⟩] }

/-- The subscriber leaves the in-flight set. -/
def Toe.landed (t : Toe) (sub : Nat) : Toe := { t with flights := t.flights.filter fun f => f.subscriber != sub }

/-- After a completion or a failure a recheck mark brings the subscriber back: re-assert always, change where a change is
still needed (R95, R99). -/
def Toe.rechecked (t : Toe) (f : Flight) (needed : Bool) : Toe :=
  match f.recheck with
  | .none => t
  | .change => if needed then t.tailed f.subscriber false else t
  | .reassert => t.tailed f.subscriber true

/-- The eight writes of an append to a log whose copy is `l` (R154, R155): the record in the slot that the write index
selects, the other digest bank with the digest extended over the record, the count one more and the period as it is, and
the write index last. -/
def Chip.appendWrites (c : Chip) (l : LogCopy) (r : LogRecord) : List (Addr × Word) :=
  let slot := l.write.toNat % c.capacity
  let bank := if (l.write + 1).getLsbD 0 then 101 else 98
  [(c.recordAddr .chargeLog slot 0, r.w0), (c.recordAddr .chargeLog slot 1, r.w1),
    (c.recordAddr .chargeLog slot 2, r.w2), (c.recordAddr .chargeLog slot 3, r.w3),
    (stationAddr bank, crcExtend l.digest r.bytes), (stationAddr (bank + 1), l.count + 1),
    (stationAddr (bank + 2), place l.period 0), (stationAddr 96, l.write + 1)]

/-- The copy after that append. -/
def LogCopy.appended (l : LogCopy) (r : LogRecord) : LogCopy :=
  { l with write := l.write + 1, digest := crcExtend l.digest r.bytes, count := l.count + 1 }

/-- A tenure that takes `level` as the confirmed level of a record appends a LEVEL record: the level changes, and the order
holds a reservation or a slot is free (R92). -/
def Chip.appendsLevel (c : Chip) (d : TapDraft) (reserved : Bool) (level : BitVec 2) : Bool :=
  level != d.status.level && (reserved || decide (0 < c.free))

/-- A gate set OPEN delivers the demand that stands and is not delivered (R93). -/
def TapDraft.delivers (d : TapDraft) (gate : Bool) : Bool := gate && d.demand != 0 && !d.delivered

/-- The LEVEL record of a tenure that takes a level as confirmed, where it appends one, and the copy after it (R92). -/
def Chip.levelWrites (c : Chip) (l : LogCopy) (sub : Nat) (d : TapDraft) (reserved : Bool) (level result : BitVec 2) :
    List (Addr × Word) × LogCopy :=
  if c.appendsLevel d reserved level then
    (c.appendWrites l (levelRecord c.stamp sub d.status.level level result),
      l.appended (levelRecord c.stamp sub d.status.level level result))
  else ([], l)

/-- The writes, before w2, of a tenure that takes a level and a gate: the LEVEL record, the confirmation time, and w3 where
the demand is delivered (R80, R92, R93). -/
def Chip.valueWrites (c : Chip) (l : LogCopy) (sub : Nat) (d : TapDraft) (reserved : Bool) (level result : BitVec 2)
    (gate : Bool) : List (Addr × Word) :=
  (c.levelWrites l sub d reserved level result).1 ++
    (c.recordAddr .subscribers sub 4, c.tbu.wall) ::
      (if d.delivers gate then [(c.recordAddr .subscribers sub 3, subW3 d.demand true)] else [])

/-- The confirmed level that such a tenure leaves (R92). -/
def Chip.levelLeft (c : Chip) (d : TapDraft) (reserved : Bool) (level : BitVec 2) : BitVec 2 :=
  if c.appendsLevel d reserved level then level else d.status.level

/-- The four words of a ring entry (R173, spec/11): kind and port, address, wall time, monotonic count. -/
def noteWrites (n : Note) : List (Addr × Word) :=
  let first := 112 + 4 * (n.number.toNat % 16)
  [(stationAddr first, place (BitVec.ofNat 4 n.kind.order) 0 ||| flagAt (portIsB n.port) 4),
    (stationAddr (first + 1), place n.addr 0), (stationAddr (first + 2), n.wall), (stationAddr (first + 3), n.mono)]

/-! ### Accesses and frames as they come from outside -/

/-- The access that a command presents, for the commands that present one (log 9). -/
def accessOf (i : Instr) : Option (Port × Access) :=
  match i with
  | .portAccess p a => some (p, a)
  | .start u => some (u.port, stationAccess 64 true 1 u.lock)
  | .stop u => some (u.port, stationAccess 64 true 2 u.lock)
  | .logClear (.command u) => some (u.port, stationAccess 64 true 3 u.lock)
  | .arm u q => some (u.port, stationAccess 65 true (heartbeatWord 1 q) u.lock)
  | .feed u q => some (u.port, stationAccess 65 true (heartbeatWord 2 q) u.lock)
  | .pause u => some (u.port, stationAccess 65 true (heartbeatWord 3 0) u.lock)
  | .expire u => some (u.port, stationAccess 65 true (heartbeatWord 4 0) u.lock)
  | .disarm u => some (u.port, stationAccess 65 true (heartbeatWord 5 0) u.lock)
  | .take u => some (u.port, stationAccess 66 true 1 u.lock)
  | .takeCancel u => some (u.port, stationAccess 66 true 2 u.lock)
  | .buy u sub entry => some (u.port, stationAccess 67 true (purchaseWord .buy sub entry) u.lock)
  | .purchaseCancel u sub entry => some (u.port, stationAccess 67 true (purchaseWord .cancel sub entry) u.lock)
  | .timeWrite u v => some (u.port, stationAccess 68 true v u.lock)
  | .release u v => some (u.port, stationAccess 69 true v u.lock)
  | .periodClose u => some (u.port, stationAccess 70 true 1 u.lock)
  | .causeRead u => some (u.port, stationAccess 71 false 0 u.lock)
  | .causeWrite u v => some (u.port, stationAccess 71 true v u.lock)
  | .unusedCommandWordAccess u k write v => some (u.port, stationAccess (72 + k.toNat) write v u.lock)
  | _ => none

/-- A frame as a receiver takes it, every stop bit good, closed with its check byte (R176). -/
def goodFrame (bytes : List Byte) : List LineByte := (closeFrame bytes).map fun b => ⟨b, true⟩

/-- A route reply frame of the selector (spec/11). -/
def routeReplyFrame (slot : Byte) (tag : BitVec 3) (code : BitVec 2) : List LineByte :=
  goodFrame [0xE2, slot, tag.setWidth 8 ||| (code.setWidth 8 <<< 4)]

/-- A tap reply frame (spec/11). -/
def tapReplyFrame (r : TapReply) : List LineByte :=
  goodFrame
    [0xD2, r.address.extractLsb' 0 8, r.address.extractLsb' 8 8,
      (r.address.extractLsb' 16 4).setWidth 8 ||| (r.port.setWidth 8 <<< 4), r.tag.setWidth 8,
      r.report.level.setWidth 8 ||| (if r.report.gate then 4 else 0) ||| (if r.report.lowSignal then 16 else 0)]

end Sys2Proof.Machine
end

