-- ==== Sys2Proof/Certificates/Slice0/Obligations.lean ====
section
/-! DEFINITION. The statements about the part, for the provers. A statement about a command says under which conditions on
the state and the operands the command has its own effect, what that effect is, and what stays as it was
(`State.ended`, `State.happened`, `State.granted`). -/

open Sys2Proof Sys2Proof.Machine

/-! ### The queue of commands -/

/-- A step runs the command at the front of the queue on the queue's rest. -/
def Obligations.StepRunsTheFrontCommand : Prop :=
  ∀ (i : Instr) (s : State), step { s with pending := i :: s.pending } = exec i s

/-- The model's choice (log 1): on an empty queue a part in reset stands still; out of reset an event that is due is
taken; when none is due, a free link serves the requests that wait at this count (R62, log 52); and with none waiting
one unit of 10 ms passes, which moves the monotonic count and the second position (R34, R36) and lets the lines be
sampled again (R107). -/
def Obligations.EmptyQueueLetsTimePass : Prop :=
  ∀ s : State, s.pending = [] →
    (s.chip.resetLow = true → step s = .next s) ∧
    (s.chip.resetLow = false → ∀ i, s.chip.dueEvent = some i → step s = exec i s) ∧
    (let waits := s.chip.lcc.lifecycle = .running ∧ s.chip.lue.order = none ∧
      ∃ e ∈ s.chip.lue.entries, e.route = .pending ∧ e.cls ≠ none
    (s.chip.quiet = true → s.chip.dueEvent = none → waits →
      ∃ t, step s = .next t ∧ State.happened lineUpPieces s t ∧ s.chip.routesServed t.chip) ∧
    (s.chip.resetLow = false → s.chip.dueEvent = none → ¬waits →
      ∃ t, step s = .next t ∧ t.mem = s.mem ∧ t.pending = [] ∧
        t.chip.tbu = { s.chip.tbu with mono := s.chip.tbu.mono + 1, position := s.chip.tbu.position + 1 } ∧
        t.chip.slm = { s.chip.slm with sampled := false } ∧ Chip.Same [.tbu, .slm] s.chip t.chip))

/-! ### The reset line -/

/-- The values that the spec gives for the reset line; and asserted in any state, it leaves every item inside the part
as the reset state has it (R25). Of two things the model chooses what the reset state has, and they are no value of the
spec: the three items of log 4, and the frames handed to a transmitter and not yet sent, which are given up (log 43).
That a LOCK line disregarded since a lock break is regarded again after the reset line is the model's choice too (log
47). -/
def Obligations.ResetLeaves : Prop :=
  (let c := State.reset.chip
   c.par = ⟨.free, .tau⟩ ∧ c.tau.orders = [] ∧ c.tau.running = none ∧
   c.map.memSize = 16777216 ∧ c.map.tables = none ∧ c.map.guards = [] ∧
   (∀ p, c.map.permits p = 0b10010001) ∧
   c.lcc.lifecycle = .offline ∧ c.lcc.phase = 0 ∧ c.lcc.faults = 0 ∧
   c.tbu.mono = 0 ∧ c.tbu.position = 0 ∧ c.tbu.wall = 0 ∧ c.tbu.set = false ∧ c.tbu.locked = false ∧
   c.tbu.lastPulse = none ∧ c.tbu.heartbeat = .disarmed ∧ c.tbu.expected = 0 ∧ c.tbu.deadline = none ∧
   c.lue.eventMap = [] ∧ c.lue.take = .idle ∧ c.lue.takeResult = .none ∧ c.lue.takeFailed = 0 ∧ c.lue.order = none ∧
   c.lue.tag = 0 ∧
   c.toe.queue = [] ∧ c.toe.flights = [] ∧ c.toe.held = [] ∧ c.toe.deferred = [] ∧ c.toe.evals = [] ∧ c.toe.tag = 0 ∧
   c.toe.blocked = false ∧
   c.slm.nodes = [] ∧ c.slm.slots = [] ∧ c.slm.edge = none ∧
   c.swe.queue = [] ∧ c.swe.work = none ∧
   c.pcu.inFlight = none ∧ c.pcu.record.number = 0 ∧ c.pcu.record.result = .none ∧
   c.clu.copy = none ∧ c.clu.reserved = 0 ∧ c.clu.low = false ∧ c.clu.close = .none ∧
   c.rpu.causes = 0 ∧ c.rpu.mask = 0xFFFF ∧ c.rpu.noteCount = 0 ∧ c.rpu.notes = [] ∧
   (∀ k, c.rpu.counter k = 0) ∧ c.interrupt = false ∧
   c.routeLink.receiver.got = [] ∧ c.tapLink.receiver.got = []) ∧
  (∀ (s : State) (k : Nat), s.chip.resetLow = false →
     ∃ t, exec (.resetAssert k) s = .next t ∧ Chip.Same [.lines, .portA, .portB] Chip.reset t.chip ∧
       t.chip.lines = s.chip.lines ∧ ∀ p, (t.chip.port p).lockIgnored = false)

/-- R7. The reset line ends every tenure: of a running TAU tenure the writes already made stay (`k` of them) and no
other is made; an access in memory completes; an access waiting or held ends with ERROR, without a memory cycle and
without a report; the requests are emptied, every lock ends, and the arbiter is as R3 gives it. -/
def Obligations.ResetLineEndsEveryTenure : Prop :=
  ∀ (s : State) (k : Nat), s.chip.resetLow = false →
    ∃ t, exec (.resetAssert k) s = .next t ∧ t.pending = s.pending ∧ t.chip.resetLow = true ∧
      (∀ x, s.chip.tau.running = some x → t.mem = s.mem.applyWrites (x.writes.take k)) ∧
      (s.chip.tau.running = none → ∀ p a tr, s.chip.inMemory = some (p, a, tr) →
        t.mem = s.mem.cycle a ∧ (t.chip.port p).out = none ∧
          (t.chip.port p).answer = some ⟨false, s.mem.returned a⟩) ∧
      (s.chip.tau.running = none → s.chip.inMemory = none → t.mem = s.mem) ∧
      (∀ p a, (s.chip.port p).out = some ⟨a, .waiting⟩ ∨ (s.chip.port p).out = some ⟨a, .held⟩ →
        (t.chip.port p).out = none ∧ ∃ d, (t.chip.port p).answer = some ⟨true, d⟩) ∧
      t.chip.tau.orders = [] ∧ t.chip.tau.running = none ∧ t.chip.par.holder = .free ∧ t.chip.par.pointer = .tau ∧
      t.chip.rpu.notes = [] ∧ t.chip.rpu.causes = 0 ∧ ∀ k, t.chip.rpu.counter k = 0

/-- R25, R172. The release of the reset line asks for the autostart check and the first report tenure; with no access
waiting the TAU is granted. The check enters LOADING where the part is OFFLINE, the signature is 0x4A503430 and the flag
is 1; otherwise it changes nothing. -/
def Obligations.ReleaseAndAutostart : Prop :=
  (∀ s : State, s.chip.resetLow = true →
     ∃ t, exec .resetRelease s = .next t ∧ t.mem = s.mem ∧ t.pending = s.pending ∧ t.chip.resetLow = false ∧
       t.chip.settled ∧
       (∀ l x y, s.chip = { Chip.reset with lines := l, portA := x, portB := y } → x.waiting = false →
         y.waiting = false → t.chip.tau.orders = [[.autostart, .report]] ∧ t.chip.par = ⟨.tau, .tau⟩ ∧
           Chip.Same [.resetLine, .arbiter, .requests, .jobs] s.chip t.chip)) ∧
  (∀ s : State, s.chip.offers .autostart = true →
     (s.chip.lcc.lifecycle = .offline → s.mem.readWord (stationAddr 0) = 0x4A503430 →
       bit (s.mem.readWord (stationAddr 1)) 0 = true →
       ∃ t, exec .autostartCheck s = .next t ∧
         State.granted [.lcc, .tbu, .lue, .toe, .slm, .swe, .pcu, .clu] s t ∧ t.chip.lcc.lifecycle = .loading ∧
         t.chip.lcc.phase = 1 ∧ t.chip.lcc.faults = 0) ∧
     (s.chip.lcc.lifecycle ≠ .offline ∨ s.mem.readWord (stationAddr 0) ≠ 0x4A503430 ∨
         bit (s.mem.readWord (stationAddr 1)) 0 = false →
       ∃ t, exec .autostartCheck s = .next t ∧ State.granted [] s t))

/-! ### Port accesses and the memory port -/

/-- R1. A write stores the bytes whose enables are set and leaves every other byte. -/
def Obligations.WritesStoreTheEnabledBytes : Prop :=
  ∀ (m : Memory) (a : Addr) (enables : BitVec 4) (data : Word), m.wf = true →
    (∀ lane, lane < 4 → enables.getLsbD lane = true →
      (m.writeEnabled a enables data).readByte (a + BitVec.ofNat 24 lane).toNat = field data (8 * lane) 8) ∧
    (∀ b, (∀ lane, lane < 4 → enables.getLsbD lane = true → b ≠ (a + BitVec.ofNat 24 lane).toNat) →
      (m.writeEnabled a enables data).readByte b = m.readByte b)

/-- R1, R3 (log 6, log 9). Every command that is an access presents it as PORT_ACCESS does, and a port with an access
outstanding presents none; an access presented while another claimant holds the memory port waits. -/
def Obligations.AccessesArePresented : Prop :=
  (∀ (i : Instr) (p : Port) (a : Access) (s : State), accessOf i = some (p, a) →
     exec i s = exec (.portAccess p a) s ∧
       ((s.chip.port p).out.isSome = true → exec i s = .fault (.portBusy p))) ∧
  (∀ (s : State) (p : Port) (a : Access), s.chip.resetLow = false → (s.chip.port p).out = none →
     (s.chip.par.holder = .tau ∨ ∃ l n, s.chip.par.holder = .host (otherPort p) l n) →
     ∃ t, exec (.portAccess p a) s = .next t ∧ t.mem = s.mem ∧ t.pending = s.pending ∧
       (t.chip.port p).out = some ⟨a, .waiting⟩ ∧ (t.chip.port p).answer = none ∧
       Chip.Same [portPiece p, .requests, .jobs] s.chip t.chip)

/-- R1, R3, R4, R10. An access granted at once that the ACU passes is in memory; nothing else changes but its port,
the arbiter and requests. On a free memory port it opens a tenure with count 1 and the pointer at its port, locked
where LOCK is asserted and regarded; in a lock it is counted, and the last access is the one without LOCK. A port that
becomes free goes to the first waiting claimant in the cyclic order Port A, Port B, TAU after the one just served, and
the pointer with it. -/
def Obligations.PassedAccessEntersMemory : Prop :=
  (∀ (s : State) (p : Port) (a : Access) (tr : Option Trigger),
    s.chip.grantsAt p = true → s.chip.classify p a = .pass tr →
    ∃ t, exec (.portAccess p a) s = .next t ∧ t.mem = s.mem ∧ t.pending = s.pending ∧
      (t.chip.port p).out = some ⟨a, .inMemory tr⟩ ∧ (t.chip.port p).answer = none ∧ t.chip.inMemory = some (p, a, tr) ∧
      Chip.Same [portPiece p, .arbiter, .requests, .jobs] s.chip t.chip ∧
      (s.chip.par.holder = .free → s.chip.givenTo p a tr t.chip) ∧
      (∀ n, s.chip.par.holder = .host p true n → t.chip.par = ⟨.host p a.lock (n + 1), s.chip.par.pointer⟩)) ∧
  (∀ (s : State) (x : Tenure), s.chip.resetLow = false → s.chip.par = ⟨.tau, .tau⟩ → s.chip.tau.running = some x →
    x.job = .report → x.owed = [] → s.chip.lcc.lifecycle = .running →
    ∃ t, exec .tauTenureEnd s = .next t ∧
      (∀ a tr, s.chip.portA.out = some ⟨a, .waiting⟩ → s.chip.classify .a a = .pass tr →
        s.chip.givenTo .a a tr t.chip ∧ t.chip.portB = s.chip.portB) ∧
      (∀ a tr, s.chip.portA.waiting = false → s.chip.portB.out = some ⟨a, .waiting⟩ → s.chip.classify .b a = .pass tr →
        s.chip.givenTo .b a tr t.chip) ∧
      (s.chip.portA.waiting = false → s.chip.portB.waiting = false → s.chip.tau.orders ≠ [] →
        t.chip.par = ⟨.tau, .tau⟩)) ∧
  (∀ (s : State) (p : Port) (a : Access) (n : Nat), s.chip.resetLow = false →
    s.chip.par = ⟨.host p false n, Port.claimant p⟩ → (s.chip.port p).out = some ⟨a, .inMemory none⟩ →
    ∃ t, exec .memoryCycleComplete s = .next t ∧
      (∀ b tr, p = .a → s.chip.portB.out = some ⟨b, .waiting⟩ → s.chip.classify .b b = .pass tr →
        s.chip.givenTo .b b tr t.chip) ∧
      (p = .a → s.chip.portB.waiting = false → s.chip.tau.orders ≠ [] → t.chip.par = ⟨.tau, .tau⟩) ∧
      (p = .b → s.chip.tau.orders ≠ [] → t.chip.par = ⟨.tau, .tau⟩ ∧ t.chip.portA = s.chip.portA) ∧
      (∀ b tr, p = .b → s.chip.tau.orders = [] → s.chip.requests = [] → s.chip.portA.out = some ⟨b, .waiting⟩ →
        s.chip.classify .a b = .pass tr → s.chip.givenTo .a b tr t.chip))

/-- R2, R4, R16, R51, R55, R57, R58, R75 to R77. The memory cycle of a passed access completes: memory takes its enabled
bytes or delivers the word, and the port has READY; a locked tenure goes on; without a trigger and with no access of the
other port waiting, nothing else changes. In RUNNING and STOPPING the trigger of a host-owned write reaches its block: a
subscriber write places an evaluation request, with re-assert for w0 and RETIRE for a record out of use; a map write is
in the image and has the effects of `Chip.mapWritten` on the binding of the event number, the phase, the route state and
the entry set aside (that an entry FAILED stays so on leaving use is log 32, and that one set aside is so no longer once
out of use is log 49). -/
def Obligations.MemoryCycleEndsTheAccess : Prop :=
  (∀ (s : State) (p : Port) (a : Access) (tr : Option Trigger), s.chip.inMemory = some (p, a, tr) →
     ∃ t, exec .memoryCycleComplete s = .next t ∧ t.mem = s.mem.cycle a ∧ t.pending = s.pending ∧
       (t.chip.port p).out = none ∧ (t.chip.port p).answer = some ⟨false, s.mem.returned a⟩ ∧
       (∀ n, s.chip.par.holder = .host p true n → t.chip.par.holder = .host p true n) ∧
       (tr = none → (s.chip.port (otherPort p)).waiting = false →
         Chip.Same [portPiece p, .arbiter, .requests, .jobs] s.chip t.chip)) ∧
  (∀ (s : State) (p : Port) (a : Access) (tr : Trigger), s.chip.inMemory = some (p, a, some tr) →
     (s.chip.port (otherPort p)).waiting = false →
     s.chip.lcc.lifecycle = .running ∨ s.chip.lcc.lifecycle = .stopping →
     ∃ t, exec .memoryCycleComplete s = .next t ∧ t.mem = s.mem.cycle a ∧
       (tr.table = .subscribers →
         Chip.Same [portPiece p, .arbiter, .requests, .jobs, .toe] s.chip t.chip ∧
         t.chip.toe = { s.chip.toe with
           evals := placeEval s.chip.toe.evals
             (if tr.word ≠ 0 then ⟨tr.index, .evaluate, false⟩
               else if bit tr.value 31 = true then ⟨tr.index, .evaluate, true⟩ else ⟨tr.index, .retire, false⟩) }) ∧
       (tr.table = .channelMap → ∀ e, s.chip.lue.entries[tr.index]? = some e → tr.word < 4 →
         Chip.Same (portPiece p :: .arbiter :: .requests :: .jobs :: lineUpPieces) s.chip t.chip ∧
         ∃ e', t.chip.lue.entries[tr.index]? = some e' ∧ e'.w0 = (if tr.word = 0 then tr.value else e.w0) ∧
           e'.w1 = (if tr.word = 1 then tr.value else e.w1) ∧ e'.w2 = (if tr.word = 2 then tr.value else e.w2) ∧
           e'.w3 = (if tr.word = 3 then tr.value else e.w3) ∧
           s.chip.mapWritten tr.index tr.word e e' t.chip))

/-- R17. A refused access ends with READY and ERROR and zero data, without a memory cycle; the note, the counter and the
cause are made, and a lock goes on. -/
def Obligations.RefusedAccessIsNoted : Prop :=
  ∀ (s : State) (p : Port) (a : Access) (kind : RefusalKind),
    s.chip.grantsAt p = true → s.chip.classify p a = .refuse kind →
    ∃ t, exec (.portAccess p a) s = .next t ∧ State.ended p ⟨true, 0⟩ [.rpu] s t ∧
      t.chip.rpu.notes = (s.chip.rpu.notes.filter fun n => ringEntry n.number != ringEntry s.chip.rpu.noteCount) ++
        [⟨s.chip.rpu.noteCount, kind, p, a.addr, s.chip.tbu.wall, s.chip.tbu.mono⟩] ∧
      t.chip.rpu.noteCount = s.chip.rpu.noteCount + 1 ∧
      t.chip.rpu.counters = s.chip.rpu.counters.modify Counter.refusedAccesses.index (· + 1) ∧
      t.chip.rpu.isPending (if kind = .lockBroken then .lockBroken else .accessRefused) = true ∧
      (∀ n, s.chip.par.holder = .host p true n → a.lock = true → t.chip.par.holder = .host p true (n + 1))

/-- R4, R5. How a lock ends: the 17th access under it is refused, with the first reason in the report order and
LOCK_BROKEN where no other applies; LOCK_BROKEN is pending, both counters advance and the LOCK line is disregarded
until it is seen deasserted (with LOCK deasserted at that access it is refused as well, and the line is regarded: log
24). LOCK deasserted with no access outstanding ends the tenure, and a disregarded line is regarded again; with an
access in memory or held the tenure stands (log 38), and the line is regarded again all the same. -/
def Obligations.LocksEnd : Prop :=
  (∀ (s : State) (p : Port) (a : Access), s.chip.resetLow = false → (s.chip.port p).out = none →
     (s.chip.port (otherPort p)).waiting = false → s.chip.par.holder = .host p true 16 →
     ∃ t n, exec (.portAccess p a) s = .next t ∧ State.ended p ⟨true, 0⟩ [.rpu] s t ∧
       (t.chip.par.holder = .free ∨ t.chip.par.holder = .tau) ∧ (t.chip.port p).lockIgnored = a.lock ∧
       t.chip.rpu.isPending .lockBroken = true ∧
       t.chip.rpu.counters = (s.chip.rpu.counters.modify Counter.lockBreaks.index (· + 1)).modify
         Counter.refusedAccesses.index (· + 1) ∧
       t.chip.rpu.notes.getLast? = some n ∧ n.number = s.chip.rpu.noteCount ∧ n.port = p ∧ n.addr = a.addr ∧
       (∀ k, s.chip.classify p a = .refuse k → n.kind = k) ∧
       ((∀ k, s.chip.classify p a ≠ .refuse k) → n.kind = .lockBroken)) ∧
  (∀ (s : State) (p : Port), s.chip.resetLow = false → (s.chip.port p).out = none →
     (s.chip.port (otherPort p)).waiting = false →
     ∃ t, exec (.lockRelease p) s = .next t ∧ t.mem = s.mem ∧ t.pending = s.pending ∧
       t.chip.port p = { s.chip.port p with lockIgnored := false } ∧
       Chip.Same [portPiece p, .arbiter, .requests, .jobs] s.chip t.chip ∧
       ((∃ n, s.chip.par.holder = .host p true n) → t.chip.par.holder = .free ∨ t.chip.par.holder = .tau) ∧
       (s.chip.par.holder = .tau ∨ (∃ l n, s.chip.par.holder = .host (otherPort p) l n) → t.chip.par = s.chip.par)) ∧
  (∀ (s : State) (p : Port) (o : Outstanding), s.chip.quiet = true → (s.chip.port p).out = some o →
     o.condition ≠ .waiting →
     ∃ t, exec (.lockRelease p) s = .next t ∧ t.mem = s.mem ∧ t.pending = s.pending ∧
       t.chip.port p = { s.chip.port p with lockIgnored := false } ∧
       Chip.Same [portPiece p, .arbiter, .requests, .jobs] s.chip t.chip ∧
       (s.chip.par.holder ≠ .free → t.chip.par = s.chip.par))

/-! ### What the ACU decides -/

/-- R14. Partial enables: a read is a read of the whole word; a write to a station word or to a word of a watched
table is refused with PARTIAL once the tests before it in the report order hold; a write to an open table, a guard
region or open memory passes. -/
def Obligations.PartialWritesAreRefused : Prop :=
  ∀ (c : Chip) (p : Port) (a : Access),
    (a.write = false → ∀ e, c.classify p { a with enables := e } = c.classify p a ∧
      ∀ m : Memory, m.returned { a with enables := e } = m.returned a) ∧
    (a.write = true → a.enables ≠ 0xF → (wordAddr a.addr).toNat < c.map.memSize →
      ((wordAddr a.addr).toNat < 0x400 →
        ((wordAddr a.addr).toNat / 4 < 64 ∨ 80 ≤ (wordAddr a.addr).toNat / 4 ∨
          ((wordAddr a.addr).toNat / 4 < 72 ∧ (c.map.permits p).getLsbD ((wordAddr a.addr).toNat / 4 - 64) = true)) →
        c.classify p a = .refuse .partialWrite) ∧
      (0x400 ≤ (wordAddr a.addr).toNat → ∀ t, c.tableOf (wordAddr a.addr).toNat = some t →
        (c.watched = true → (c.placement t).right p = .readWrite → c.classify p a = .refuse .partialWrite) ∧
        (c.watched = false → c.classify p a = .pass none)) ∧
      (0x400 ≤ (wordAddr a.addr).toNat → c.tableOf (wordAddr a.addr).toNat = none →
        (∀ g ∈ c.map.guards, ¬(g.base ≤ (wordAddr a.addr).toNat ∧ (wordAddr a.addr).toNat < g.base + g.size) ∨
          g.right p = .readWrite) →
        c.classify p a = .pass none))

/-- R10 to R13, R15, R20, R106. Addresses at or above the memory size and words 72 to 79 are refused with RANGE; a
command word without the port's permission for it is refused with NO_RIGHT, read or written; the report area is read
and never written by a host; profile words are read, and written in OFFLINE, LOAD_FAULT and STOPPED. In a guard region
the port's right decides alone, and open memory passes. A word of a table is open in those states; elsewhere the
port's right is asked, reads pass, and a whole-word write is refused with OWNER to a part-owned word (w4 and w5 of the
channel map, w2 to w4 of a subscriber, w1 and w2 of a node, and every word of the outage list and the charge log),
with TABLE_LOCKED in the node table, and with NOT_READY in LOADING. -/
def Obligations.StationAndTableWordsAreClassed : Prop :=
  (∀ (c : Chip) (p : Port) (a : Access) (n : Nat),
     (c.map.memSize ≤ (wordAddr a.addr).toNat → c.classify p a = .refuse .range) ∧
     ((wordAddr a.addr).toNat < c.map.memSize → (wordAddr a.addr).toNat = 4 * n → n < 256 →
       (72 ≤ n → n < 80 → c.classify p a = .refuse .range) ∧
       (64 ≤ n → n < 72 → (c.map.permits p).getLsbD (n - 64) = false → c.classify p a = .refuse .noRight) ∧
       (n < 64 ∨ 80 ≤ n → a.write = false → c.classify p a = .pass none) ∧
       (80 ≤ n → a.write = true → a.enables = 0xF → c.classify p a = .refuse .owner) ∧
       (n < 64 → a.write = true → a.enables = 0xF →
         c.classify p a = if c.lcc.lifecycle = .offline ∨ c.lcc.lifecycle = .loadFault ∨ c.lcc.lifecycle = .stopped
           then .pass none else .refuse .tableLocked))) ∧
  (∀ (c : Chip) (p : Port) (a : Access) (t : Table) (word : Nat),
     0x400 ≤ (wordAddr a.addr).toNat → (wordAddr a.addr).toNat < c.map.memSize →
     c.tableOf (wordAddr a.addr).toNat = some t →
     word = ((wordAddr a.addr).toNat - (c.placement t).base) % t.recordSize / 4 →
     (c.lcc.lifecycle = .offline ∨ c.lcc.lifecycle = .loadFault ∨ c.lcc.lifecycle = .stopped →
       c.classify p a = .pass none) ∧
     (c.lcc.lifecycle = .loading ∨ c.lcc.lifecycle = .running ∨ c.lcc.lifecycle = .stopping →
       ((c.placement t).right p = .none → c.classify p a = .refuse .noRight) ∧
       ((c.placement t).right p = .read → a.write = true → c.classify p a = .refuse .noRight) ∧
       ((c.placement t).right p ≠ .none → a.write = false → c.classify p a = .pass none) ∧
       ((c.placement t).right p = .readWrite → a.write = true → a.enables = 0xF →
         (let owned := (t = .channelMap ∧ (word = 4 ∨ word = 5)) ∨ (t = .subscribers ∧ (word = 2 ∨ word = 3 ∨ word = 4)) ∨
           (t = .nodes ∧ (word = 1 ∨ word = 2)) ∨ t = .outages ∨ t = .chargeLog
         (owned → c.classify p a = .refuse .owner) ∧
         (t = .nodes → ¬owned → c.classify p a = .refuse .tableLocked) ∧
         (t ≠ .nodes → ¬owned → c.lcc.lifecycle = .loading → c.classify p a = .refuse .notReady))))) ∧
  (∀ (c : Chip) (p : Port) (a : Access), 0x400 ≤ (wordAddr a.addr).toNat → (wordAddr a.addr).toNat < c.map.memSize →
     c.tableOf (wordAddr a.addr).toNat = none →
     (let holds := fun g : Guard => g.base ≤ (wordAddr a.addr).toNat ∧ (wordAddr a.addr).toNat < g.base + g.size
     ((∀ g ∈ c.map.guards, ¬holds g) → c.classify p a = .pass none) ∧
     (∀ g ∈ c.map.guards, holds g → (∀ h ∈ c.map.guards, holds h → h.right p = g.right p) →
       (g.right p = .none → c.classify p a = .refuse .noRight) ∧
       (g.right p = .read → c.classify p a = if a.write = true then .refuse .noRight else .pass none) ∧
       (g.right p = .readWrite → c.classify p a = .pass none))))

/-- R52, R53, R54, R76, R77. The tests of a whole-word write to the channel map and to the subscriber table in RUNNING
and STOPPING, by a port that may write. A map write is tested on the written word's field and, where the entry would
stand in use and is not set aside, on the entry as a whole (log 18, log 39; an entry set aside binds no number: log
19); BAD_VALUE goes before TABLE_BUSY, and TABLE_BUSY before EVENT_LIVE. -/
def Obligations.HostOwnedWritesAreTested : Prop :=
  ∀ (c : Chip) (p : Port) (a : Access) (t : Table) (i word : Nat),
    0x400 ≤ (wordAddr a.addr).toNat → (wordAddr a.addr).toNat < c.map.memSize →
    c.tableOf (wordAddr a.addr).toNat = some t →
    i = ((wordAddr a.addr).toNat - (c.placement t).base) / t.recordSize →
    word = ((wordAddr a.addr).toNat - (c.placement t).base) % t.recordSize / 4 →
    c.lcc.lifecycle = .running ∨ c.lcc.lifecycle = .stopping →
    (c.placement t).right p = .readWrite → a.write = true → a.enables = 0xF →
    (∀ e, t = .channelMap → word < 4 → c.lue.entries[i]? = some e →
      (let e' := e.withWord word a.data
      let bad := (word = 0 ∧ 64 < (field a.data 16 7).toNat) ∨ (word = 1 ∧ 64 < (field a.data 8 7).toNat) ∨
        (e.aside = false ∧ bit e'.w0 31 = true ∧ e'.breaks i c.lue.eventMap)
      let leaves := word = 0 ∧ (bit e'.w0 31 = false ∨ bit e'.w0 12 ≠ bit e.w0 12)
      let locked := ((e.phase = some .inside ∨ e.phase = some .closing) ∧ (word ≠ 0 ∨ leaves)) ∨
        (e.phase = some .before ∧ (leaves ∨ (word = 1 ∧ field e'.w1 0 8 ≠ field e.w1 0 8)))
      (bad → c.classify p a = .refuse .badValue) ∧
      (¬bad → c.lue.take = .applying → c.classify p a = .refuse .tableBusy) ∧
      (¬bad → c.lue.take = .idle → locked → c.classify p a = .refuse .eventLive) ∧
      (¬bad → c.lue.take = .idle → ¬locked → c.classify p a = .pass (some ⟨.channelMap, i, word, a.data⟩)))) ∧
    (t = .channelMap → word = 6 ∨ word = 7 →
      c.classify p a = if c.lue.take = .applying then .refuse .tableBusy else .pass none) ∧
    (t = .subscribers → word = 0 →
      c.classify p a = if bit a.data 31 = true ∧ field a.data 0 20 = 0 then .refuse .badValue
        else if (c.toe.whereIs i).isSome = true then .refuse .recordBusy
        else .pass (some ⟨.subscribers, i, 0, a.data⟩)) ∧
    (t = .subscribers → word = 1 →
      c.classify p a = if field a.data 4 2 = 3 then .refuse .badValue
        else .pass (some ⟨.subscribers, i, 1, a.data⟩)) ∧
    (t = .subscribers → 5 ≤ word → c.classify p a = .pass none)

/-! ### Command words -/

/-- R13, R22, R24, R38, R50, R74, R146, R164, R170, R171. A permitted read of a command word is answered in every
lifecycle state. Of CONTROL to PERIOD it changes nothing; CAUSE answers the rank of the highest pending kind and
removes that kind alone, and with nothing pending answers NONE and changes nothing. After the read the interrupt line
follows what is left (R171). That the whole answer is 0 then is the model's choice (log 42): no rule gives the unused
bits of an answer. -/
def Obligations.CommandReadsAreAnswered : Prop :=
  (∀ (s : State) (p : Port) (a : Access) (n : Nat), 64 ≤ n → n < 71 → wordAddr a.addr = stationAddr n → a.write = false →
     s.chip.commands p n = true →
     ∃ t d, exec (.portAccess p a) s = .next t ∧ State.ended p ⟨false, d⟩ [] s t ∧
       (n = 64 → field d 0 3 = s.chip.lcc.lifecycle.code ∧ field d 8 3 = BitVec.ofNat 3 s.chip.lcc.phase) ∧
       (n = 65 → field d 24 2 = s.chip.tbu.heartbeat.code ∧ field d 0 16 = s.chip.tbu.expected) ∧
       (n = 66 → field d 0 1 = s.chip.lue.take.code ∧ field d 8 2 = s.chip.lue.takeResult.code ∧
         field d 16 7 = BitVec.ofNat 7 s.chip.lue.takeFailed) ∧
       (n = 67 → field d 0 12 = s.chip.pcu.record.subscriber ∧ field d 12 7 = s.chip.pcu.record.entry ∧
         bit d 19 = s.chip.pcu.record.op.isCancel ∧ bit d 20 = portIsB s.chip.pcu.record.port ∧
         field d 21 4 = s.chip.pcu.record.result.code ∧ field d 25 7 = s.chip.pcu.record.number.setWidth 7) ∧
       (n = 68 → d = s.chip.tbu.wall) ∧
       (n = 69 → d = match s.chip.clu.copy with
         | some l => l.target
         | none => 0) ∧
       (n = 70 → match s.chip.clu.copy with
         | some l => field d 0 16 = l.period ∧ (field d 16 15).toNat = min l.count.toNat 32767 ∧
             bit d 31 = (s.chip.clu.close != .none)
         | none => d = 0)) ∧
  (∀ (s : State) (use : PortUse), s.chip.commands use.port 71 = true →
     ∃ t d, exec (.causeRead use) s = .next t ∧ State.ended use.port ⟨false, d⟩ [.rpu] s t ∧
       (s.chip.rpu.highest = none → d = 0 ∧ t.chip.rpu = s.chip.rpu) ∧
       (∀ k, s.chip.rpu.highest = some k →
         (field d 0 5).toNat = k.rank ∧ s.chip.rpu.isPending k = true ∧
         (∀ k', s.chip.rpu.isPending k' = true → k.rank ≤ k'.rank) ∧
         (∀ k', t.chip.rpu.isPending k' = (s.chip.rpu.isPending k' && decide (k' ≠ k))) ∧
         (bit d 8 = true ↔ ∃ k', t.chip.rpu.isPending k' = true) ∧ t.chip.rpu.copyDirty = true ∧
         (t.chip.interrupt = true ↔
           ∃ k', k' ≠ k ∧ s.chip.rpu.isPending k' = true ∧ s.chip.rpu.mask.getLsbD (k'.rank - 1) = true)))

/-- R13, R22, R23, R43, R69, R138. An access to an unused command word is refused with RANGE, a write to CAUSE with
BAD_COMMAND; outside RUNNING a permitted whole-word write to a job command word is decided as NOT_RUNNING. START
outside OFFLINE, LOAD_FAULT and STOPPED, STOP outside RUNNING, LOG_CLEAR outside LOAD_FAULT or without LOG_STATE in
the set, and any other CONTROL value are decided as BAD_COMMAND. In RUNNING a TAKE while a take is applying is decided
as TABLE_BUSY, and as BAD_COMMAND a CANCEL while none is, a TAKE, HEARTBEAT or PURCHASE value that names no
command. -/
def Obligations.RefusedCommandsDoNotAct : Prop :=
  (∀ (s : State) (use : PortUse) (k : BitVec 3) (write : Bool) (v : Word),
    s.chip.grantsAt use.port = true → 0x400 ≤ s.chip.map.memSize →
    ∃ t, exec (.unusedCommandWordAccess use k write v) s = .next t ∧ State.ended use.port ⟨true, 0⟩ [.rpu] s t ∧
      t.chip.rpu.isPending .accessRefused = true ∧ ∃ n ∈ t.chip.rpu.notes, n.kind = .range ∧ n.port = use.port) ∧
  (∀ (s : State) (use : PortUse) (v : Word), s.chip.commands use.port 71 = true →
    ∃ t, exec (.causeWrite use v) s = .next t ∧ State.ended use.port ⟨true, 0⟩ [.rpu] s t ∧
      t.chip.rpu.isPending .accessRefused = true ∧ ∃ n ∈ t.chip.rpu.notes, n.kind = .badCommand ∧ n.port = use.port) ∧
  (∀ (c : Chip) (p : Port) (n : Nat) (v : Word) (lock : Bool), c.commands p n = true →
    n = 65 ∨ n = 66 ∨ (n = 67 ∧ c.pcu.inFlight = none) ∨ n = 69 ∨ n = 70 → c.lcc.lifecycle ≠ .running →
    c.classify p (stationAccess n true v lock) = .refuse .notRunning) ∧
  (∀ (c : Chip) (p : Port) (v : Word) (lock : Bool),
    (let refused := fun n kind => c.commands p n = true → c.classify p (stationAccess n true v lock) = .refuse kind
    let value := fieldNat v 0 8
    let code := fieldNat v 24 8
    let op := fieldNat v 28 2
    let running := c.lcc.lifecycle = .running
    let starts := c.lcc.lifecycle = .offline ∨ c.lcc.lifecycle = .loadFault ∨ c.lcc.lifecycle = .stopped
    let clears := c.lcc.lifecycle = .loadFault ∧ c.lcc.faults.getLsbD 10 = true
    (value = 1 → ¬starts → refused 64 .badCommand) ∧
    (value = 2 → ¬running → refused 64 .badCommand) ∧
    (value = 3 → ¬clears → refused 64 .badCommand) ∧
    (value = 0 ∨ 3 < value → refused 64 .badCommand) ∧
    (running → value = 1 → c.lue.take = .applying → refused 66 .tableBusy) ∧
    (running → value = 2 → c.lue.take = .idle → refused 66 .badCommand) ∧
    (running → value = 0 ∨ 2 < value → refused 66 .badCommand) ∧
    (running → code = 0 ∨ 5 < code → refused 65 .badCommand) ∧
    (running → c.pcu.inFlight = none → op = 0 ∨ op = 3 → refused 67 .badCommand)))

/-- R23, R26. START taken in OFFLINE, LOAD_FAULT or STOPPED enters LOADING with load phase 1 and an empty fault set; the
blocks are emptied; the monotonic count, the second position, wall time with its flags, the last pulse, the expected
sequence, the tag counters and the result record keep their values; the empty set is to be written, and the profile read
after it in three tenures. -/
def Obligations.StartEntersLoading : Prop :=
  ∀ (s : State) (use : PortUse), s.chip.commands use.port 64 = true →
    s.chip.lcc.lifecycle = .offline ∨ s.chip.lcc.lifecycle = .loadFault ∨ s.chip.lcc.lifecycle = .stopped →
    ∃ t, exec (.start use) s = .next t ∧
      State.ended use.port ⟨false, 0⟩ [.lcc, .tbu, .lue, .toe, .slm, .swe, .pcu, .clu, .low, .statusMark] s t ∧
      t.chip.lcc.lifecycle = .loading ∧ t.chip.lcc.phase = 1 ∧ t.chip.lcc.faults = 0 ∧
      t.chip.tbu = { s.chip.tbu with heartbeat := .disarmed, deadline := none } ∧
      t.chip.lue = { Lue.reset with tag := s.chip.lue.tag } ∧ t.chip.toe = { Toe.reset with tag := s.chip.toe.tag } ∧
      { t.chip.slm with jobs := [] } = Slm.reset ∧ t.chip.swe = Swe.reset ∧
      t.chip.pcu = { s.chip.pcu with inFlight := none } ∧ t.chip.clu = Clu.reset ∧ t.chip.rpu.statusDirty = true ∧
      (s.chip.lccIdle = true → t.chip.requested .faultSet ∧ t.chip.lcc.jobs = [.profile 0, .profile 1, .profile 2])

/-- R23, R32, R33, R49, R70, R73, R134. STOP taken in RUNNING: the heartbeat is DISARMED, fallback ends, a take ends,
no line is tracked, no close waits for space, and no frame goes out. The part is STOPPING while the TOE has orders in
flight, the route link has one, or a block other than the RPU has a tenure or a request: the collections of the TOE
stand, a take is cancelled in the entries and the end of fallback asks for its routes, and of the sweep queue the
active sweep alone is left, if it has asked for a tenure. Where nothing of this holds and no block is about to ask,
the part passes directly to STOPPED, emptied (that what is about to be asked counts as asked is log 46). The take is
cancelled before fallback ends: log 21. -/
def Obligations.StopEntersStopping : Prop :=
  ∀ (s : State) (use : PortUse), s.chip.commands use.port 64 = true → s.chip.lcc.lifecycle = .running →
    ∃ t, exec (.stop use) s = .next t ∧
      State.ended use.port ⟨false, 0⟩ [.lcc, .tbu, .lue, .toe, .slm, .swe, .clu, .low, .rpu, .statusMark] s t ∧
      (t.chip.lcc.lifecycle = .stopping ∨ t.chip.lcc.lifecycle = .stopped) ∧
      t.chip.tbu = { s.chip.tbu with heartbeat := .disarmed, deadline := none } ∧ t.chip.fallback = false ∧
      t.chip.lue.take = .idle ∧ t.chip.lue.order = s.chip.lue.order ∧ t.chip.slm.lastSample = none ∧
      (∀ n ∈ t.chip.slm.nodes, n.deadline = none) ∧ t.chip.clu.close ≠ .waiting ∧
      (∀ e ∈ t.chip.swe.queue, e ∈ s.chip.swe.queue ∧ e.active = true) ∧
      (s.chip.toe.flights ≠ [] ∨ s.chip.lue.order.isSome = true ∨ (∃ b, b ≠ .rpu ∧ s.chip.outstanding b = true) →
        t.chip.lcc.lifecycle = .stopping) ∧
      (t.chip.lcc.lifecycle = .stopping →
        Chip.Same [portPiece use.port, .arbiter, .requests, .jobs, .lcc, .tbu, .lue, .slm, .swe, .clu, .rpu, .statusMark]
          s.chip t.chip ∧
        (let cancelled := fun e : Entry => if s.chip.lue.take = .applying ∧ e.cls = some .take then
            if e.route = .pending then { e with route := .settled, cls := none, dirty := true }
            else if e.route = .inFlight then { e with cls := none, dirty := true }
            else e
          else e
        t.chip.lue.entries = s.chip.lue.entries.map fun e =>
          if s.chip.fallback = true ∧ bit e.w0 13 = true then (cancelled e).asked .fallback else cancelled e) ∧
        (s.chip.outstanding .swe = false ∨ s.chip.owes .spaceWait → t.chip.swe = ⟨[], none⟩) ∧
        (s.chip.outstanding .swe = true → ¬s.chip.owes .spaceWait →
          t.chip.swe = { s.chip.swe with queue := s.chip.swe.queue.filter fun e => e.active })) ∧
      (s.chip.toe.flights = [] → s.chip.lue.order = none → s.chip.lue.take = .idle → s.chip.fallback = false →
        (∀ b, b ≠ .rpu → s.chip.outstanding b = false ∧ (b ≠ .swe → s.chip.wants b = none)) →
        t.chip.lcc.lifecycle = .stopped ∧ t.chip.toe.queue = [] ∧ t.chip.toe.held = [] ∧ t.chip.toe.deferred = [] ∧
        t.chip.toe.evals = [] ∧ t.chip.toe.blocked = false ∧ t.chip.lue.entries = [] ∧ t.chip.lue.eventMap = [] ∧
        t.chip.swe = ⟨[], none⟩ ∧ t.chip.clu.reserved = 0 ∧ t.chip.clu.copy = s.chip.clu.copy)

/-- R23. LOG_CLEAR is taken in LOAD_FAULT while the fault set holds LOG_STATE and asks for a tenure; that tenure
writes the write index as the release index. Neither changes the fault set or the lifecycle. -/
def Obligations.LogClearEqualisesTheIndexes : Prop :=
  (∀ (s : State) (use : PortUse), s.chip.commands use.port 64 = true → s.chip.lcc.lifecycle = .loadFault →
    s.chip.lcc.faults.getLsbD 10 = true →
    ∃ t, exec (.logClear (.command use)) s = .next t ∧ State.ended use.port ⟨false, 0⟩ [] s t ∧
      (s.chip.lccIdle = true → t.chip.requested .logClear)) ∧
  (∀ s : State, s.chip.offers .logClear = true →
    ∃ t, exec (.logClear .tenure) s = .next t ∧ State.granted [] s t ∧
      t.chip.runs .logClear [(stationAddr 97, s.mem.readWord (stationAddr 96))])

/-- R44. ARM: taken in DISARMED, PAUSED and EXPIRED, in RUNNING as R43 requires of every code; refused with BAD_COMMAND
in ARMED. Taken, the heartbeat is ARMED, the expected sequence s + 1, and the deadline one period away; fallback ends,
and its end asks for the routes of the flagged entries (R70). -/
def Obligations.ArmStartsTheCountdown : Prop :=
  ∀ (s : State) (use : PortUse) (q : BitVec 16), s.chip.commands use.port 65 = true → s.chip.lcc.lifecycle = .running →
    (s.chip.tbu.heartbeat ≠ .armed →
      ∃ t, exec (.arm use q) s = .next t ∧ State.ended use.port ⟨false, 0⟩ (.tbu :: lineUpPieces) s t ∧
        t.chip.tbu = { s.chip.tbu with
          heartbeat := .armed, expected := q + 1, deadline := some (s.chip.tbu.mono + s.chip.settings.heartbeatPeriod) } ∧
        t.chip.fallback = false ∧
        (s.chip.tbu.heartbeat = .expired → s.chip.fallbackMoved false t.chip) ∧
        (s.chip.tbu.heartbeat ≠ .expired →
          Chip.Same [portPiece use.port, .arbiter, .requests, .jobs, .tbu, .statusMark] s.chip t.chip)) ∧
    (s.chip.tbu.heartbeat = .armed →
      ∃ t, exec (.arm use q) s = .next t ∧ State.ended use.port ⟨true, 0⟩ [.rpu] s t ∧
        s.chip.classify use.port (stationAccess 65 true (heartbeatWord 1 q) use.lock) = .refuse .badCommand)

/-- R45, R47, R48. A FEED with the expected sequence moves the deadline one period on; one out of turn puts the
heartbeat in EXPIRED and leaves the expected sequence; outside ARMED it is refused with BAD_COMMAND. The countdown of
an ARMED heartbeat reaches its deadline: EXPIRED. Entry into EXPIRED, either way, advances the counter, makes
HEARTBEAT_EXPIRED pending, and puts fallback in force, whose start asks for the routes of the flagged entries, which
go ahead of those that a time change at the same count has asked for (R70). -/
def Obligations.FeedAndExpiry : Prop :=
  (∀ (s : State) (use : PortUse) (q : BitVec 16), s.chip.commands use.port 65 = true → s.chip.lcc.lifecycle = .running →
     (s.chip.tbu.heartbeat = .armed → q = s.chip.tbu.expected →
       ∃ t, exec (.feed use q) s = .next t ∧ State.ended use.port ⟨false, 0⟩ [.tbu] s t ∧
         t.chip.tbu = { s.chip.tbu with
           expected := q + 1, deadline := some (s.chip.tbu.mono + s.chip.settings.heartbeatPeriod) }) ∧
     (s.chip.tbu.heartbeat = .armed → q ≠ s.chip.tbu.expected →
       ∃ t, exec (.feed use q) s = .next t ∧ State.ended use.port ⟨false, 0⟩ (.tbu :: lineUpPieces) s t ∧
         t.chip.tbu = { s.chip.tbu with heartbeat := .expired, deadline := none } ∧ t.chip.fallback = true ∧
         t.chip.rpu.isPending .heartbeatExpired = true ∧
         t.chip.rpu.counters = s.chip.rpu.counters.modify Counter.heartbeatExpiries.index (· + 1) ∧
         s.chip.fallbackMoved true t.chip) ∧
     (s.chip.tbu.heartbeat ≠ .armed →
       ∃ t, exec (.feed use q) s = .next t ∧ State.ended use.port ⟨true, 0⟩ [.rpu] s t ∧
         s.chip.classify use.port (stationAccess 65 true (heartbeatWord 2 q) use.lock) = .refuse .badCommand)) ∧
  (∀ s : State, s.chip.quiet = true → s.chip.tbu.heartbeat = .armed → s.chip.tbu.deadline = some s.chip.tbu.mono →
     ∃ t, exec .heartbeatCountdownExpiry s = .next t ∧ State.happened (.tbu :: lineUpPieces) s t ∧
       t.chip.tbu = { s.chip.tbu with heartbeat := .expired, deadline := none } ∧ t.chip.fallback = true ∧
       t.chip.rpu.isPending .heartbeatExpired = true ∧
       t.chip.rpu.counters = s.chip.rpu.counters.modify Counter.heartbeatExpiries.index (· + 1) ∧
       s.chip.fallbackMoved true t.chip)

/-- R46. PAUSE, EXPIRE and DISARM in the four heartbeat states: taken or refused with BAD_COMMAND; taken, the
countdown is removed and the expected sequence stays. While PAUSED no expiry by time happens, a FEED is refused, and
ARM starts a full period. EXPIRE starts fallback and DISARM from EXPIRED ends it, each with the requests of R70; the
others leave the line-up. -/
def Obligations.PauseExpireDisarm : Prop :=
  ∀ (s : State) (use : PortUse), s.chip.commands use.port 65 = true → s.chip.lcc.lifecycle = .running →
    (∀ i h, (i = .pause use ∧ h = .paused ∧ s.chip.tbu.heartbeat = .armed) ∨
        (i = .expire use ∧ h = .expired ∧ (s.chip.tbu.heartbeat = .armed ∨ s.chip.tbu.heartbeat = .paused)) ∨
        (i = .disarm use ∧ h = .disarmed ∧ s.chip.tbu.heartbeat ≠ .disarmed) →
      ∃ t, exec i s = .next t ∧ State.ended use.port ⟨false, 0⟩ (.tbu :: lineUpPieces) s t ∧
        t.chip.tbu = { s.chip.tbu with heartbeat := h, deadline := none } ∧
        (h = .expired → t.chip.fallback = true ∧ t.chip.rpu.isPending .heartbeatExpired = true ∧
          t.chip.rpu.counters = s.chip.rpu.counters.modify Counter.heartbeatExpiries.index (· + 1) ∧
          s.chip.fallbackMoved true t.chip) ∧
        (h ≠ .expired → t.chip.fallback = false ∧
          (s.chip.tbu.heartbeat = .expired → s.chip.fallbackMoved false t.chip) ∧
          (s.chip.tbu.heartbeat ≠ .expired →
            Chip.Same [portPiece use.port, .arbiter, .requests, .jobs, .tbu, .statusMark] s.chip t.chip))) ∧
    (∀ i v, (i = .pause use ∧ v = heartbeatWord 3 0 ∧ s.chip.tbu.heartbeat ≠ .armed) ∨
        (i = .expire use ∧ v = heartbeatWord 4 0 ∧ s.chip.tbu.heartbeat ≠ .armed ∧ s.chip.tbu.heartbeat ≠ .paused) ∨
        (i = .disarm use ∧ v = heartbeatWord 5 0 ∧ s.chip.tbu.heartbeat = .disarmed) →
      s.chip.classify use.port (stationAccess 65 true v use.lock) = .refuse .badCommand ∧
      ∃ t, exec i s = .next t ∧ State.ended use.port ⟨true, 0⟩ [.rpu] s t) ∧
    (s.chip.tbu.heartbeat = .paused → exec .heartbeatCountdownExpiry s = .next s ∧
      (∀ q, s.chip.classify use.port (stationAccess 65 true (heartbeatWord 2 q) use.lock) = .refuse .badCommand) ∧
      ∀ q, ∃ t, exec (.arm use q) s = .next t ∧ t.chip.tbu.heartbeat = .armed ∧
        t.chip.tbu.deadline = some (s.chip.tbu.mono + s.chip.settings.heartbeatPeriod))

/-- R60, R61, R69, R71 to R73. TAKE taken in RUNNING while IDLE: the failed count is 0, and every in-use entry that
differs from its effective target (`Entry.wanted`, R60) is given a request of class TAKE (`Entry.asked`, R61). Where
TAKE work is left the take is APPLYING while an order is in flight, and with the link free and no entry waiting the
lowest of them is sent; where none is left the take ends COMPLETE at once. TAKE_CANCEL taken while APPLYING ends the
take CANCELLED: what waits with class TAKE is SETTLED, a noted TAKE is cleared, the failed count and the order in flight
stand, and no frame goes out. TAKE_DONE waits for the entries that the walk or the cancel has changed, and is pending at
once where it changed none (log 20). -/
def Obligations.TakeBeginsAndIsCancelled : Prop :=
  (∀ (s : State) (use : PortUse), s.chip.commands use.port 66 = true → s.chip.lcc.lifecycle = .running →
     s.chip.lue.take = .idle →
     ∃ t, exec (.take use) s = .next t ∧ State.ended use.port ⟨false, 0⟩ lineUpPieces s t ∧
       t.chip.lue.takeFailed = 0 ∧
       (let target := fun e : Entry => e.wanted s.chip.fallback s.chip.settings.fallbackSource
       let walked := s.chip.lue.entries.map fun e => if e.applied != target e then e.asked .take else e
       let work := (∃ e ∈ walked, e.pendingWith .take = true) ∨ ∃ o, s.chip.lue.order = some o ∧ o.cls = .take
       (s.chip.lue.order.isSome = true → t.chip.lue.entries = walked) ∧
       (work → s.chip.lue.order.isSome = true → t.chip.lue.take = .applying) ∧
       (¬work → t.chip.lue.take = .idle ∧ t.chip.lue.takeResult = .complete) ∧
       (¬work → walked = s.chip.lue.entries → t.chip.rpu.isPending .takeDone = true) ∧
       (¬work → walked ≠ s.chip.lue.entries → ∃ x ∈ t.chip.lue.owedCauses, x.cause = .takeDone ∧
         ∀ i, i ∈ x.entries ↔ walked[i]? ≠ s.chip.lue.entries[i]?) ∧
       (∀ i e, s.chip.lue.order = none →
         (∀ x ∈ s.chip.lue.entries, x.route = .settled ∨ x.route = .failed) →
         s.chip.lue.entries[i]? = some e → e.live = true → e.applied ≠ target e →
         (∀ j x, j < i → s.chip.lue.entries[j]? = some x → x.live = false ∨ x.applied = target x) →
         t.chip.lue.take = .applying ∧ t.chip.lue.order =
             some ⟨i, target e, s.chip.lue.tag, s.chip.tbu.mono + s.chip.settings.routeTimeout, .take⟩ ∧
           t.chip.routeLink.sent = s.chip.routeLink.sent ++ [routeFrame i (target e) s.chip.lue.tag] ∧
           t.chip.lue.entries = walked.modify i fun x =>
             { x with route := .inFlight, cls := none, attempts := 1, dirty := true }))) ∧
  (∀ (s : State) (use : PortUse), s.chip.commands use.port 66 = true → s.chip.lcc.lifecycle = .running →
     s.chip.lue.take = .applying →
     ∃ t, exec (.takeCancel use) s = .next t ∧ State.ended use.port ⟨false, 0⟩ [.lue, .rpu, .statusMark] s t ∧
       t.chip.lue.take = .idle ∧ t.chip.lue.takeResult = .cancelled ∧
       t.chip.lue.takeFailed = s.chip.lue.takeFailed ∧ t.chip.lue.order = s.chip.lue.order ∧
       t.chip.lue.entries = s.chip.lue.entries.map (fun e =>
         if e.route = .pending ∧ e.cls = some .take then { e with route := .settled, cls := none, dirty := true }
         else if e.route = .inFlight ∧ e.cls = some .take then { e with cls := none, dirty := true }
         else e) ∧
       (let touched := fun i => ∃ e, s.chip.lue.entries[i]? = some e ∧ e.cls = some .take ∧
         (e.route = .pending ∨ e.route = .inFlight)
       ((∀ i, ¬touched i) → t.chip.rpu.isPending .takeDone = true) ∧
       ((∃ i, touched i) → ∃ x ∈ t.chip.lue.owedCauses, x.cause = .takeDone ∧ ∀ i, i ∈ x.entries ↔ touched i)))

/-- R138, R8. BUY and PURCHASE_CANCEL taken in RUNNING with no evaluation in flight begin one: the result record has the
next number, the port, the op and the operands, and shows IN_PROGRESS. While one is in flight the write is held: READY
is withheld, the port's tenure and lock end, and nothing is counted or reported. -/
def Obligations.PurchasesAreTakenOrHeld : Prop :=
  (∀ (s : State) (use : PortUse) (sub : BitVec 12) (entry : BitVec 7) (i : Instr) (op : PurchaseOp),
     (i = .buy use sub entry ∧ op = .buy) ∨ (i = .purchaseCancel use sub entry ∧ op = .cancel) →
     s.chip.commands use.port 67 = true → s.chip.lcc.lifecycle = .running → s.chip.pcu.inFlight = none →
     ∃ t, exec i s = .next t ∧ State.ended use.port ⟨false, 0⟩ [.pcu] s t ∧
       t.chip.pcu = { s.chip.pcu with
         inFlight := some ⟨op, use.port, sub, entry⟩
         record := ⟨s.chip.pcu.record.number + 1, use.port, op, sub, entry, .inProgress⟩ } ∧
       (s.chip.outstanding .pcu = false → t.chip.requested .purchase)) ∧
  (∀ (s : State) (use : PortUse) (sub : BitVec 12) (entry : BitVec 7) (op : PurchaseOp) (i : Instr),
     (i = .buy use sub entry ∧ op = .buy) ∨ (i = .purchaseCancel use sub entry ∧ op = .cancel) →
     s.chip.commands use.port 67 = true → s.chip.pcu.inFlight.isSome = true →
     ∃ t, exec i s = .next t ∧ t.mem = s.mem ∧ t.pending = s.pending ∧
       (t.chip.port use.port).out = some ⟨stationAccess 67 true (purchaseWord op sub entry) use.lock, .held⟩ ∧
       (t.chip.port use.port).answer = none ∧
       t.chip.pcu = { s.chip.pcu with held := s.chip.pcu.held ++ [use.port] } ∧
       (t.chip.par.holder = .free ∨ t.chip.par.holder = .tau) ∧
       Chip.Same [portPiece use.port, .arbiter, .requests, .jobs, .pcu] s.chip t.chip)

/-- R37, R57, R58. A TIME write is taken in every state: the value is the wall time, SET is set, nothing else of the
Timebase changes; in RUNNING and STOPPING every in-use EVENT entry moves as the table of phases has it, CLOSING
staying, and is asked for on going into INSIDE or out of it (R61). The request waits for the choice of that count (log
52). In RUNNING an entry that goes into CLOSING has its close handed to the sweep queue (R58). -/
def Obligations.TimeWriteSetsWallTime : Prop :=
  ∀ (s : State) (use : PortUse) (v : Word), s.chip.commands use.port 68 = true →
    ∃ t, exec (.timeWrite use v) s = .next t ∧ State.ended use.port ⟨false, 0⟩ (.tbu :: lineUpPieces) s t ∧
      t.chip.tbu = { s.chip.tbu with wall := v, set := true } ∧
      (s.chip.working = false →
        Chip.Same [portPiece use.port, .arbiter, .requests, .jobs, .tbu, .statusMark] s.chip t.chip) ∧
      (s.chip.working = true → t.chip.lue.entries = s.chip.lue.entries.map (fun e => e.atTime v) ∧
        t.chip.linkUse = s.chip.linkUse) ∧
      s.chip.closesHanded v t.chip

/-- R159, R162. RELEASE of an index not behind the target and not beyond the records written moves the target, and a
tenure is owed if it moved; any other index is refused with BAD_VALUE. PERIOD CLOSE with no earlier close open and
free space is to be made; with one open it is refused with BAD_COMMAND, without free space with NO_SPACE. Any other
PERIOD value is refused with BAD_COMMAND. -/
def Obligations.ReleaseAndPeriodAreTaken : Prop :=
  (∀ (s : State) (use : PortUse) (v : Word) (l : LogCopy), s.chip.commands use.port 69 = true →
     s.chip.lcc.lifecycle = .running → s.chip.clu.copy = some l →
     ((v - l.target).toNat ≤ (l.write - l.target).toNat →
       ∃ t, exec (.release use v) s = .next t ∧ State.ended use.port ⟨false, 0⟩ [.clu] s t ∧
         t.chip.clu = { s.chip.clu with
           copy := some { l with target := v }, releaseOwed := s.chip.clu.releaseOwed || v != l.target }) ∧
     ((l.write - l.target).toNat < (v - l.target).toNat →
       ∃ t, exec (.release use v) s = .next t ∧ State.ended use.port ⟨true, 0⟩ [.rpu] s t ∧
         ∃ n ∈ t.chip.rpu.notes, n.kind = .badValue ∧ n.port = use.port)) ∧
  (∀ (s : State) (use : PortUse), s.chip.commands use.port 70 = true → s.chip.lcc.lifecycle = .running →
     (s.chip.clu.close = .none → 0 < s.chip.free →
       ∃ t, exec (.periodClose use) s = .next t ∧ State.ended use.port ⟨false, 0⟩ [.clu] s t ∧
         t.chip.clu = { s.chip.clu with close := .asked }) ∧
     (s.chip.clu.close ≠ .none →
       s.chip.classify use.port (stationAccess 70 true 1 use.lock) = .refuse .badCommand) ∧
     (∀ v, fieldNat v 0 8 ≠ 1 →
       s.chip.classify use.port (stationAccess 70 true v use.lock) = .refuse .badCommand) ∧
     (s.chip.clu.close = .none → s.chip.free = 0 →
       s.chip.classify use.port (stationAccess 70 true 1 use.lock) = .refuse .noSpace))

/-! ### Time -/

/-- R36, R39, R40, R57, R58. At second position 100 wall time advances by one and the position returns to 0, and in
RUNNING and STOPPING every in-use EVENT entry moves as the table of phases has it, asked for on going into INSIDE or
out of it (R61; the request waits for the choice of that count: log 52); in RUNNING an entry that goes into CLOSING
has its close handed to the sweep queue. Before that position nothing happens (log 5). A pulse is accepted unless the
last accepted one is less than 50 units old: it is recorded, sets LOCKED, and aligns the boundary, also one that is
due at that unit (log 35); a boundary so made is a time change like any other. 300 units after the last accepted pulse
LOCKED is cleared and SYNC_LOST is pending. -/
def Obligations.SecondsAndPulses : Prop :=
  (∀ s : State, s.chip.quiet = true →
     (100 ≤ s.chip.tbu.position →
       ∃ t, exec .wallSecondBoundary s = .next t ∧ State.happened (.tbu :: lineUpPieces) s t ∧
         t.chip.tbu = { s.chip.tbu with wall := s.chip.tbu.wall + 1, position := 0 } ∧
         t.chip.linkUse = s.chip.linkUse ∧ s.chip.closesHanded (s.chip.tbu.wall + 1) t.chip ∧
         (s.chip.working = true →
           t.chip.lue.entries = s.chip.lue.entries.map fun e => e.atTime (s.chip.tbu.wall + 1))) ∧
     (s.chip.tbu.position < 100 → exec .wallSecondBoundary s = .next s)) ∧
  (∀ s : State, s.chip.quiet = true →
     ((∀ p, s.chip.tbu.lastPulse = some p → 50 ≤ (s.chip.tbu.mono - p).toNat) →
       ∃ t, exec .referencePulse s = .next t ∧ State.happened (.tbu :: lineUpPieces) s t ∧
         t.chip.tbu = { s.chip.tbu with
           lastPulse := some s.chip.tbu.mono
           locked := true
           position := 0
           wall := if 50 ≤ s.chip.tbu.position then s.chip.tbu.wall + 1 else s.chip.tbu.wall } ∧
         t.chip.linkUse = s.chip.linkUse ∧
         (s.chip.working = true → 50 ≤ s.chip.tbu.position →
           t.chip.lue.entries = s.chip.lue.entries.map fun e => e.atTime (s.chip.tbu.wall + 1)) ∧
         (50 ≤ s.chip.tbu.position → s.chip.closesHanded (s.chip.tbu.wall + 1) t.chip) ∧
         (s.chip.tbu.position < 50 → t.chip.lue = s.chip.lue ∧ t.chip.swe = s.chip.swe) ∧
         (s.chip.tbu.locked = false → t.chip.rpu.statusDirty = true)) ∧
     (∀ p, s.chip.tbu.lastPulse = some p → (s.chip.tbu.mono - p).toNat < 50 →
       ∃ t, exec .referencePulse s = .next t ∧ State.happened [] s t) ∧
     (∀ p, s.chip.tbu.locked = true → s.chip.tbu.lastPulse = some p → s.chip.tbu.mono = p + 300 →
       ∃ t, exec .lossWatchExpiry s = .next t ∧ State.happened [.tbu, .rpu, .statusMark] s t ∧
         t.chip.tbu = { s.chip.tbu with locked := false } ∧ t.chip.rpu.isPending .syncLost = true ∧
         t.chip.rpu.statusDirty = true))

/-! ### The route link and the line-up -/

/-- R62, R64 to R68, R72, R176. A good reply frame taken while hunting: DONE ends the order in flight as done,
NO_SOURCE and SLOT_FAULT as failed (`Chip.orderDone`, `Chip.orderFailed`), and then the link is free for the next
order; one that matches no order is counted. A frame whose sum is wrong or whose result is unlisted, or with a bad
stop bit, is dropped and counted as one line error, and bytes that begin no frame are discarded uncounted. At the
deadline an order with attempts remaining is sent again with the next tag in RUNNING, and its entry becomes PENDING in
other states, with the higher of its order class and its noted class, or SETTLED where it is out of use; with none
remaining it fails; before the deadline nothing happens (log 5). An entry back in use at its order's end counts as in
use (log 50). -/
def Obligations.RouteOrdersEnd : Prop :=
  ((∀ (s : State) (bytes : List LineByte), s.chip.quiet = true →
     ∃ t, exec (.routeReply bytes) s = .next t ∧ State.happened lineUpPieces s t) ∧
   (∀ (s : State) (slot : Byte) (tag : BitVec 3) (code : BitVec 2) (o : RouteOrder) (e : Entry),
     s.chip.quiet = true → s.chip.routeLink.receiver.got = [] → s.chip.lue.order = some o → slot.toNat = o.slot →
     tag = o.tag → s.chip.lue.entries[o.slot]? = some e → code ≠ 3 →
     ∃ t e', exec (.routeReply (routeReplyFrame slot tag code)) s = .next t ∧ State.happened lineUpPieces s t ∧
       t.chip.lue.entries[o.slot]? = some e' ∧
       (code = 0 → s.chip.orderDone o e e' t.chip) ∧ (code ≠ 0 → s.chip.orderFailed o e e' t.chip)) ∧
   (∀ (s : State) (slot : Byte) (tag : BitVec 3) (code : BitVec 2),
     s.chip.quiet = true → s.chip.routeLink.receiver.got = [] → code ≠ 3 →
     (∀ o, s.chip.lue.order = some o → ¬(slot.toNat = o.slot ∧ tag = o.tag)) →
     ∃ t, exec (.routeReply (routeReplyFrame slot tag code)) s = .next t ∧
       State.happened [.rpu, .routeLink] s t ∧
       t.chip.rpu.counters = s.chip.rpu.counters.modify Counter.staleRouteReplies.index (· + 1)) ∧
   (∀ (s : State) (bytes : List LineByte), s.chip.quiet = true → s.chip.routeLink.receiver.got = [] →
     (let good := fun l : List Byte => l.map fun b => (⟨b, true⟩ : LineByte)
     let bad := (∃ b1 b2 b3, bytes = good [0xE2, b1, b2, b3] ∧
         (0xE2 + b1 + b2 + b3 ≠ 0 ∨ b2.extractLsb' 4 2 = 3)) ∨
       ∃ l b, l.length ≤ 2 ∧ bytes = good (0xE2 :: l) ++ [⟨b, false⟩]
     (bad → ∃ t, exec (.routeReply bytes) s = .next t ∧ State.happened [.rpu, .routeLink] s t ∧
       t.chip.routeLink.sent = s.chip.routeLink.sent ∧ t.chip.routeLink.receiver.got = [] ∧
       t.chip.rpu.counters = s.chip.rpu.counters.modify Counter.routeLineErrors.index (· + 1)) ∧
     ((∀ b ∈ bytes, b.value ≠ 0xE2) → ∃ t, exec (.routeReply bytes) s = .next t ∧ State.happened [.routeLink] s t ∧
       t.chip.routeLink.sent = s.chip.routeLink.sent ∧ t.chip.routeLink.receiver.got = [])))) ∧
  (∀ (s : State) (o : RouteOrder) (e : Entry), s.chip.quiet = true → s.chip.lue.order = some o →
     s.chip.lue.entries[o.slot]? = some e →
     (s.chip.tbu.mono ≠ o.deadline → exec .routeDeadline s = .next s) ∧
     (s.chip.tbu.mono = o.deadline →
       ∃ t e', exec .routeDeadline s = .next t ∧ State.happened lineUpPieces s t ∧
         t.chip.lue.entries[o.slot]? = some e' ∧ e'.applied = e.applied ∧
         (e.attempts.toNat < s.chip.settings.routeAttempts → s.chip.lcc.lifecycle = .running →
           t.chip.lue.order = some { o with
             tag := s.chip.lue.tag, deadline := s.chip.tbu.mono + s.chip.settings.routeTimeout } ∧
           t.chip.lue.tag = s.chip.lue.tag + 1 ∧ e'.attempts = e.attempts + 1 ∧
           t.chip.routeLink.sent = s.chip.routeLink.sent ++ [routeFrame o.slot o.source s.chip.lue.tag]) ∧
         (e.attempts.toNat < s.chip.settings.routeAttempts → s.chip.lcc.lifecycle ≠ .running →
           t.chip.lue.order = none ∧ t.chip.routeLink.sent = s.chip.routeLink.sent ∧
           (e.live = true → e'.route = .pending ∧
             e'.cls = if classRank (some o.cls) < classRank e.cls then e.cls else some o.cls) ∧
           (e.live = false → e'.route = .settled ∧ e'.cls = none)) ∧
         (s.chip.settings.routeAttempts ≤ e.attempts.toNat → s.chip.orderFailed o e e' t.chip)))

/-- R176. Three units after the last byte of a frame the frame is dropped and counted, and the receiver hunts; with a
gap of 0 to 2 units, or with no frame in progress, nothing happens (log 5). -/
def Obligations.ByteTimeoutDropsTheFrame : Prop :=
  ∀ s : State, s.chip.quiet = true →
    (s.chip.routeLink.receiver.got ≠ [] → 3 ≤ (s.chip.tbu.mono - s.chip.routeLink.receiver.lastAt).toNat →
      ∃ t, exec .routeByteTimeout s = .next t ∧ State.happened [.routeLink, .rpu] s t ∧
        t.chip.routeLink.receiver.got = [] ∧ t.chip.routeLink.sent = s.chip.routeLink.sent ∧
        t.chip.rpu.counters = s.chip.rpu.counters.modify Counter.routeLineErrors.index (· + 1)) ∧
    (s.chip.tapLink.receiver.got ≠ [] → 3 ≤ (s.chip.tbu.mono - s.chip.tapLink.receiver.lastAt).toNat →
      ∃ t, exec .tapByteTimeout s = .next t ∧ State.happened [.tapLink, .rpu] s t ∧
        t.chip.tapLink.receiver.got = [] ∧ t.chip.tapLink.sent = s.chip.tapLink.sent ∧
        t.chip.rpu.counters = s.chip.rpu.counters.modify Counter.tapLineErrors.index (· + 1)) ∧
    (s.chip.routeLink.receiver.got = [] ∨ (s.chip.tbu.mono - s.chip.routeLink.receiver.lastAt).toNat < 3 →
      exec .routeByteTimeout s = .next s) ∧
    (s.chip.tapLink.receiver.got = [] ∨ (s.chip.tbu.mono - s.chip.tapLink.receiver.lastAt).toNat < 3 →
      exec .tapByteTimeout s = .next s)

/-- R63, R64, R75. A mirror tenure writes w5 and then w4 of the entries that owe their time, at most twelve, and then w4
of the other entries of the mirror set, within 24 accesses. A tenure of the load walk takes in the next four entries at
most, as memory holds them, and writes nothing: an in-use entry that fails a test is set aside and FAILED, the numbers
of the entries walked before it counting as bound, but for those of entries set aside, which bind no number (log 19: the
model's reading); any other in-use EVENT entry is bound and takes its first phase, CLOSING with a close queued where w4
records it or the window is past; an in-use entry whose applied source differs from its target is PENDING with class
TAKE; and a set-aside entry owes ROUTE_FAILED to the walk's mirror tenures. -/
def Obligations.LineUpTenures : Prop :=
  (∀ s : State, s.chip.offers .mirror = true →
     ∃ t, exec .mirrorTenure s = .next t ∧ State.granted [.lue] s t ∧ t.chip.owes .mirrored ∧
       t.chip.lue.owesTime = s.chip.lue.owesTime.drop 12 ∧
       t.chip.runs .mirror
         (((s.chip.lue.owesTime.take 12).flatMap fun i =>
             (s.chip.recordAddr .channelMap i 5, s.chip.tbu.wall) ::
               ((s.chip.lue.entries[i]?).map fun e => (s.chip.recordAddr .channelMap i 4,
                 Entry.w4 { e with unset := !s.chip.tbu.set, unlocked := !s.chip.tbu.locked })).toList) ++
           (((s.chip.lue.indexes fun e => e.dirty).filter fun i => !(s.chip.lue.owesTime.take 12).contains i).take
               (24 - 2 * (s.chip.lue.owesTime.take 12).length)).flatMap fun i =>
             ((s.chip.lue.entries[i]?).map fun e => (s.chip.recordAddr .channelMap i 4, e.w4)).toList)) ∧
  (∀ (s : State) (first : Nat), s.chip.offers .mapWalk = true → s.chip.lue.walk = some first →
     ∃ t, exec .mapLoadWalk s = .next t ∧ State.granted [.lue, .swe, .rpu] s t ∧ t.chip.runs .mapWalk [] ∧
       t.chip.lue.walk = some (first + min 4 (s.chip.mapCount - first)) ∧
       t.chip.lue.entries.length = s.chip.lue.entries.length + min 4 (s.chip.mapCount - first) ∧
       (∀ i, i < s.chip.lue.entries.length → t.chip.lue.entries[i]? = s.chip.lue.entries[i]?) ∧
       (first < s.chip.mapCount → s.chip.mapCount ≤ first + 4 → (∃ e ∈ t.chip.lue.entries, e.aside = true) →
         ∃ x ∈ t.chip.lue.owedCauses, x.cause = .routeFailed ∧
           ∀ i, i ∈ x.entries ↔ ∃ e, t.chip.lue.entries[i]? = some e ∧ e.dirty = true) ∧
       (∀ k, k < min 4 (s.chip.mapCount - first) → ∃ e, t.chip.lue.entries[s.chip.lue.entries.length + k]? = some e ∧
         e.w0 = s.chip.recordWord s.mem .channelMap (first + k) 0 ∧
         e.w1 = s.chip.recordWord s.mem .channelMap (first + k) 1 ∧
         e.w2 = s.chip.recordWord s.mem .channelMap (first + k) 2 ∧
         e.w3 = s.chip.recordWord s.mem .channelMap (first + k) 3 ∧
         e.applied = field (s.chip.recordWord s.mem .channelMap (first + k) 4) 0 7 ∧ e.dirty = true ∧ e.attempts = 0 ∧
         (let walkedBefore := fun (j : Nat) (x : Entry) => j < k ∧
           t.chip.lue.entries[s.chip.lue.entries.length + j]? = some x ∧ x.event = true
         let doubled := (∃ j x, walkedBefore j x ∧ field x.w1 0 8 = field e.w1 0 8) ∨
           ∃ b ∈ s.chip.lue.eventMap, b.1 = field e.w1 0 8 ∧ b.2 ≠ first + k ∧ ∀ j x, walkedBefore j x → b.2 ≠ first + j
         let fails := e.breaks (first + k) [] ∨ (bit e.w0 12 = true ∧ doubled)
         let closing := field (s.chip.recordWord s.mem .channelMap (first + k) 4) 12 3 = 4 ∨
           e.w3.toNat ≤ s.chip.tbu.wall.toNat
         let target := if bit e.w0 12 = true ∧ e.phase = some .inside then field e.w1 8 7 else field e.w0 16 7
         (bit e.w0 31 = false → e.route = .settled ∧ e.cls = none ∧ e.phase = none ∧ e.aside = false) ∧
         (bit e.w0 31 = true → fails → e.aside = true ∧ e.route = .failed ∧ e.cls = none ∧ e.phase = none) ∧
         (bit e.w0 31 = true → ¬fails → e.aside = false ∧
           (bit e.w0 12 = false → e.phase = none) ∧
           (bit e.w0 12 = true → (field e.w1 0 8, first + k) ∈ t.chip.lue.eventMap ∧
             (closing → e.phase = some .closing ∧ (s.chip.lcc.lifecycle = .loading →
               s.chip.swe.queue.length + 4 ≤ 192 → ∃ x ∈ t.chip.swe.queue, x.kind = .eventClose (field e.w1 0 8))) ∧
             (¬closing → e.phase = some (if s.chip.tbu.wall.toNat < e.w2.toNat then .before else .inside))) ∧
           (e.applied = target → e.route = .settled ∧ e.cls = none) ∧
           (e.applied ≠ target → e.route = .pending ∧ e.cls = some .take)))))

/-! ### The end of a TAU tenure -/

/-- R6, R8, R33, R63, R82, R87, R91, R95, R115, R118, R127, R131 to R134, R138, R145, R160. A TAU tenure ends: its
writes are in memory, and the port is freed. With no access waiting, what it owed is handed: causes; the space notice
to the queue block, the waiting sweeps and the close; requests to the evaluation list, merged there with an older one
of the subscriber; the first attempt of an order sent, which is not made for a node that is out, in STOPPING or under
a freeze (log 16); the new deadline of a withdrawn ending; the tap failure count; the causes of a mirrored route
change; what a written slot owed; the snapshot; and the result of an evaluation. Then the PURCHASE writes held are
taken, first held first: one that is refused ends with ERROR and a note, and one that is accepted begins the next
evaluation and holds the later one. A sweep that has made its last step or its end tenure ends: SWEEP_DONE is pending,
the entry leaves the queue or goes back to its tail on its repeat mark, the slot is SWEPT, and the closing entry takes
the phase found. In STOPPING the active sweep ends with its tenure, and SWEEP_DONE becomes pending only by an end
tenure or the last step of an EVENT_CLOSE (R134). In STOPPING the part passes to STOPPED with the last tenure,
emptied, where no order is in flight and no block but the RPU has asked or asks for a tenure (log 46), and stays while
one of these holds (R33). -/
def Obligations.TenureEndMakesItsWrites : Prop :=
  ∀ (s : State) (x : Tenure), s.chip.resetLow = false → s.chip.par.holder = .tau → s.chip.tau.running = some x →
    ∃ t, exec .tauTenureEnd s = .next t ∧ t.mem = s.mem.applyWrites x.writes ∧ t.pending = s.pending ∧
      t.chip.tau.running = none ∧ t.chip.settled ∧
      (s.chip.portA.waiting = false → s.chip.portB.waiting = false →
        (let waits := s.chip.toe.flights ≠ [] ∨ s.chip.lue.order.isSome = true ∨
          ∃ batch ∈ s.chip.tau.orders, ∃ j ∈ batch, j.block ≠ .rpu
        let stays := s.chip.lcc.lifecycle ≠ .stopping ∨ waits
        (s.chip.lcc.lifecycle = .stopping → waits → t.chip.lcc.lifecycle = .stopping) ∧
        (s.chip.lcc.lifecycle = .stopping → ¬waits → (∀ o ∈ x.owed, ∃ k, o = .cause k) → x.job.block ≠ .swe →
          (∀ b, b ≠ .rpu → s.chip.wants b = none) →
          t.chip.lcc.lifecycle = .stopped ∧ t.chip.toe.queue = [] ∧ t.chip.toe.held = [] ∧ t.chip.toe.deferred = [] ∧
          t.chip.toe.evals = [] ∧ t.chip.toe.blocked = false ∧ t.chip.toe.tag = s.chip.toe.tag ∧
          t.chip.lue.entries = [] ∧ t.chip.lue.eventMap = [] ∧ t.chip.swe = ⟨[], none⟩ ∧ t.chip.clu.reserved = 0 ∧
          t.chip.clu.copy = s.chip.clu.copy) ∧
        (∀ k, .cause k ∈ x.owed → t.chip.rpu.isPending k = true) ∧
        (∀ r, .purchaseEnd r ∈ x.owed → (∀ r', .purchaseEnd r' ∈ x.owed → r' = r) → s.chip.pcu.held = [] →
          t.chip.pcu.inFlight = none ∧ t.chip.pcu.record = { s.chip.pcu.record with result := r }) ∧
        (∀ r p rest a, .purchaseEnd r ∈ x.owed → (∀ r', .purchaseEnd r' ∈ x.owed → r' = r) → x.job = .purchase →
          s.chip.pcu.held = p :: rest → (s.chip.port p).out = some ⟨a, .held⟩ →
          (let running := s.chip.lcc.lifecycle = .running
          let refusal := if running then RefusalKind.badCommand else RefusalKind.notRunning
          let refused := fun (q : Port) (b : Access) => (t.chip.port q).out = none ∧
            (t.chip.port q).answer = some ⟨true, 0⟩ ∧ t.chip.rpu.isPending .accessRefused = true ∧
            ∃ n ∈ t.chip.rpu.notes, n.kind = refusal ∧ n.port = q ∧ n.addr = b.addr
          let accepted := fun (q : Port) (b : Access) (op : PurchaseOp) => (t.chip.port q).out = none ∧
            (t.chip.port q).answer = some ⟨false, 0⟩ ∧ t.chip.requested .purchase ∧ t.chip.pcu.inFlight =
              some ⟨op, q, field b.data 0 12, field b.data 12 7⟩ ∧
            t.chip.pcu.record =
              ⟨s.chip.pcu.record.number + 1, q, op, field b.data 0 12, field b.data 12 7, .inProgress⟩
          let fails := fun b : Access => ¬running ∨ purchaseOpOfCode (field b.data 28 2) = none
          (∀ op, running → purchaseOpOfCode (field a.data 28 2) = some op → accepted p a op ∧
            t.chip.pcu.held = rest ∧ ∀ q ∈ rest, q ≠ p → t.chip.port q = s.chip.port q) ∧
          (fails a → refused p a ∧
            (rest = [] → t.chip.pcu =
              { s.chip.pcu with inFlight := none, record := { s.chip.pcu.record with result := r }, held := [] }) ∧
            ∀ q b, rest = [q] → q ≠ p → (s.chip.port q).out = some ⟨b, .held⟩ → t.chip.pcu.held = [] ∧
              (fails b → refused q b ∧ t.chip.pcu.inFlight = none) ∧
              ∀ op, running → purchaseOpOfCode (field b.data 28 2) = some op → accepted q b op))) ∧
        (∀ r, .request r ∈ x.owed → (∀ r', .request r' ∈ x.owed → r' = r) →
          (let older := ∃ q ∈ s.chip.toe.evals, q.subscriber = r.subscriber
          (s.chip.working = false → t.chip.toe.evals = s.chip.toe.evals) ∧
          (s.chip.working = true → ¬older → t.chip.toe.evals = s.chip.toe.evals ++ [r]) ∧
          (s.chip.working = true → older → t.chip.toe.evals = s.chip.toe.evals.map fun q =>
            if q.subscriber = r.subscriber then
              { q with
                reassert := q.reassert || r.reassert
                kind := if q.kind = .retire ∨ r.kind = .retire then .retire
                  else if q.kind = .requeue ∨ r.kind = .requeue then .requeue else .evaluate }
            else q))) ∧
        (∀ sub f, .redeadline sub ∈ x.owed → (∀ k, .attempt k ∉ x.owed) → s.chip.toe.flight sub = some f →
          t.chip.toe.flight sub = some (if f.ending = none then
            { f with deadline := some (s.chip.tbu.mono + s.chip.settings.tapTimeout) } else f)) ∧
        (x.owed.count .tapFailure = 1 → x.job ≠ .purchase → (∀ o ∈ x.owed, ∀ r, o ≠ .purchaseEnd r) →
          t.chip.rpu.counters = s.chip.rpu.counters.modify Counter.tapFailures.index (· + 1)) ∧
        (.mirrored ∈ x.owed → x.job = .mirror →
          (∀ o ∈ s.chip.lue.owedCauses, o.entries = [] → t.chip.rpu.isPending o.cause = true) ∧
          (stays → t.chip.lue.owedCauses = s.chip.lue.owedCauses.filter fun o => o.entries != [])) ∧
        (.space ∈ x.owed → s.chip.working = true →
          t.chip.toe.blocked = false ∧ (∀ e ∈ t.chip.swe.queue, e.ready = true) ∧ t.chip.clu.close ≠ .waiting) ∧
        (∀ sub f os, x.job = .send → x.owed = .attempt sub :: os → (∀ o ∈ os, o = .space ∨ ∃ k, o = .cause k) →
          s.chip.toe.flight sub = some f → f.ending = none →
          (let out := s.chip.nodeOut f.node.toNat = true
          let withheld := s.chip.lcc.lifecycle ≠ .running ∨ s.chip.frozen = true
          (out → t.chip.tapLink = s.chip.tapLink ∧ t.chip.toe.flight sub =
            some { f with ending := some .held, deadline := none, workAt := s.chip.tbu.mono }) ∧
          (¬out → withheld → t.chip.tapLink = s.chip.tapLink ∧ t.chip.toe.flight sub =
            some { f with
              ending := some .returned, deadline := none, workAt := s.chip.tbu.mono, sent := f.sent - 1 }) ∧
          (¬out → ¬withheld → t.chip.tapLink.sent = s.chip.tapLink.sent ++
              [tapFrame f.tapAddress f.tapPort f.level f.gate f.tag] ∧
            t.chip.toe.flight sub =
              some { f with deadline := some (s.chip.tbu.mono + s.chip.settings.tapTimeout) }))) ∧
        (∀ i down restore y, x.job = .slmWrite → .slot i down restore ∈ x.owed → s.chip.slm.slots[i]? = some y →
          (down = true → t.chip.rpu.isPending .nodeDown = true) ∧
          (restore = true → t.chip.rpu.isPending .nodeUp = true) ∧
          (stays → ∃ y', t.chip.slm.slots[i]? = some y' ∧
            (down = true → y'.owesDown = false) ∧
            (restore = true → s.chip.lcc.lifecycle = .running → s.chip.swe.queue.length + x.owed.length ≤ 192 →
              y'.owesRestore = false ∧ ∃ e ∈ t.chip.swe.queue, e.kind = .restore y.node.toNat y.number))) ∧
        (.snapshot ∈ x.owed → t.chip.rpu.isPending .lineEdge = true ∧
          (stays → t.chip.slm.edge = if s.chip.slm.edgeFresh then s.chip.slm.edge else none)) ∧
        (∀ e w, s.chip.swe.active = some e → s.chip.swe.work = some w → s.chip.lcc.lifecycle = .stopping →
          x.job.block = .swe → (∀ o ∈ x.owed, (∃ k, o = .cause k) ∨ ∃ r, o = .request r) →
          (let ends := (x.job = .sweepEnd ∧ ∃ node outage, e.kind = .restore node outage) ∨
            (x.job = .sweepStep ∧ s.chip.subscriberCount ≤ e.resume ∧ ∃ number, e.kind = .eventClose number)
          t.chip.swe.work = none ∧ t.chip.rpu.statusDirty = true ∧
          (ends → t.chip.rpu.isPending .sweepDone = true) ∧
          (¬ends → .cause .sweepDone ∉ x.owed →
            t.chip.rpu.isPending .sweepDone = s.chip.rpu.isPending .sweepDone))) ∧
        (∀ e w, s.chip.swe.active = some e → s.chip.swe.work = some w → w.started = true →
          s.chip.lcc.lifecycle = .running → (∀ o ∈ x.owed, (∃ k, o = .cause k) ∨ ∃ r, o = .request r) →
          (∀ node outage, x.job = .sweepEnd → e.kind = .restore node outage →
            t.chip.rpu.isPending .sweepDone = true ∧ t.chip.swe = ⟨s.chip.swe.others, none⟩ ∧
            ∀ i, (s.chip.slm.slots.findIdx? fun y => y.status = .closed && y.number = outage) = some i →
              ∃ y, t.chip.slm.slots[i]? = some y ∧ y.status = .swept ∧ y.number = outage) ∧
          (∀ node outage, x.job = .sweepStart ∨ x.job = .sweepStep → e.kind = .restore node outage →
            s.chip.subscriberCount ≤ e.resume → w.slot = none → t.chip.rpu.isPending .sweepDone = true ∧ t.chip.swe =
              ⟨if e.repeatMark then s.chip.swe.others ++ [⟨e.kind, 0, true, false, false⟩] else s.chip.swe.others,
                none⟩) ∧
          (∀ number, x.job = .sweepStep → e.kind = .eventClose number → s.chip.subscriberCount ≤ e.resume →
            t.chip.rpu.isPending .sweepDone = true ∧ t.chip.swe = ⟨s.chip.swe.others, none⟩ ∧
            ∀ i c, s.chip.lue.bound number = some i → s.chip.lue.entries[i]? = some c → c.phase = some .closing →
              ∃ c', t.chip.lue.entries[i]? = some c' ∧ c'.phase = some (c.phaseFound s.chip.tbu.wall)) ∧
          (x.job = .sweepStart ∨ x.job = .sweepStep → s.chip.subscriberCount ≤ e.resume → w.slot ≠ none →
            ∀ node outage, e.kind = .restore node outage → t.chip.swe = s.chip.swe ∧
              ((∀ batch ∈ s.chip.tau.orders, ∀ j ∈ batch, j.block ≠ .swe) → t.chip.requested .sweepEnd)) ∧
          (x.job = .sweepStart ∨ x.job = .sweepStep → e.resume < s.chip.subscriberCount →
            t.chip.swe = s.chip.swe))))

/-! ### Tap orders -/

/-- R90, R91, R176. A good tap reply frame taken while hunting: one that matches a record in flight waits there, and
decides the ending CONFIRMED, the deadline cancelled, where level and gate agree, the attempts made suffice and the
level can be taken: it is reserved, or is the confirmed level as last written, a running tenure's write included (log
25: the model's reading), or a slot is free. One that does not succeed decides nothing, and the deadline runs on. One
that matches none is stale and counted. A frame whose sum is wrong or whose gate or health is unlisted, or with a bad
stop bit, is dropped and counted as one line error, and bytes that begin no frame are discarded uncounted. Whatever
bytes arrive, only the TOE, the link and the counters change. -/
def Obligations.TapReplyReachesItsRecord : Prop :=
  (∀ (s : State) (bytes : List LineByte), s.chip.quiet = true →
    ∃ t, exec (.tapReply bytes) s = .next t ∧ State.happened [.toe, .rpu, .tapLink] s t) ∧
  (∀ (s : State) (r : TapReply) (f : Flight), s.chip.quiet = true → s.chip.tapLink.receiver.got = [] →
    s.chip.toe.flights.find? (fun f => f.matches r) = some f →
    ∃ t, exec (.tapReply (tapReplyFrame r)) s = .next t ∧ State.happened [.toe, .tapLink] s t ∧
      (let addr := s.chip.recordAddr .subscribers f.subscriber 2
      let w2 := match s.chip.tau.running with
        | none => s.mem.readWord addr
        | some x => ((x.writes.reverse.find? fun w => w.1 = addr).map fun w => w.2).getD (s.mem.readWord addr)
      let takable := f.levelReserved = true ∨ field w2 0 2 = r.report.level ∨ 0 < s.chip.free
      let succeeds := r.report.level = f.level ∧ r.report.gate = f.gate ∧ s.chip.settings.minAttempts ≤ f.sent ∧ takable
      let replied := fun x : Flight =>
        { x with matched := true, anyReply := true, reply := some r.report, workAt := s.chip.tbu.mono }
      (succeeds → t.chip.toe = { s.chip.toe with
        flights := s.chip.toe.flights.map fun x =>
          if x.subscriber = f.subscriber then { replied x with ending := some .confirmed, deadline := none } else x }) ∧
      (¬succeeds → t.chip.toe = { s.chip.toe with
        flights := s.chip.toe.flights.map fun x => if x.subscriber = f.subscriber then replied x else x }))) ∧
  (∀ (s : State) (r : TapReply), s.chip.quiet = true → s.chip.tapLink.receiver.got = [] →
    (∀ f ∈ s.chip.toe.flights, f.matches r = false) →
    ∃ t, exec (.tapReply (tapReplyFrame r)) s = .next t ∧ State.happened [.rpu, .tapLink] s t ∧
      t.chip.rpu.counters = s.chip.rpu.counters.modify Counter.staleTapReplies.index (· + 1)) ∧
  (∀ (s : State) (bytes : List LineByte), s.chip.quiet = true → s.chip.tapLink.receiver.got = [] →
    (let good := fun l : List Byte => l.map fun b => (⟨b, true⟩ : LineByte)
    let bad := (∃ b1 b2 b3 b4 b5 b6, bytes = good [0xD2, b1, b2, b3, b4, b5, b6] ∧
        (0xD2 + b1 + b2 + b3 + b4 + b5 + b6 ≠ 0 ∨ 2 ≤ (b5.extractLsb' 2 2).toNat ∨ 2 ≤ (b5.extractLsb' 4 2).toNat)) ∨
      ∃ l b, l.length ≤ 5 ∧ bytes = good (0xD2 :: l) ++ [⟨b, false⟩]
    (bad → ∃ t, exec (.tapReply bytes) s = .next t ∧ State.happened [.rpu, .tapLink] s t ∧
      t.chip.tapLink.sent = s.chip.tapLink.sent ∧ t.chip.tapLink.receiver.got = [] ∧
      t.chip.rpu.counters = s.chip.rpu.counters.modify Counter.tapLineErrors.index (· + 1)) ∧
    ((∀ b ∈ bytes, b.value ≠ 0xD2) → ∃ t, exec (.tapReply bytes) s = .next t ∧ State.happened [.tapLink] s t ∧
      t.chip.tapLink.sent = s.chip.tapLink.sent ∧ t.chip.tapLink.receiver.got = [])))

/-- R94, R32, R86. The deadline of a record in flight, in the order of its tests: UNCONFIRMED for a one-way order with
enough attempts, FAILED for a two-way order with none left, HELD for a node that is out, RETURNED in STOPPING and under
a freeze; otherwise the next attempt goes out. Before the deadline nothing happens (log 5). -/
def Obligations.TapDeadlineDecides : Prop :=
  ∀ (s : State) (sub : Nat) (f : Flight), s.chip.quiet = true → s.chip.toe.flight sub = some f →
    (f.deadline ≠ some s.chip.tbu.mono → exec (.tapDeadline sub) s = .next s) ∧
    (f.deadline = some s.chip.tbu.mono → f.ending = none →
      ∃ t f', exec (.tapDeadline sub) s = .next t ∧ State.happened [.toe, .tapLink] s t ∧
        t.chip.toe.flight sub = some f' ∧
        (let unconfirmed := f.oneWay = true ∧ s.chip.settings.minAttempts ≤ f.sent
        let failed := f.oneWay = false ∧ s.chip.settings.maxAttempts ≤ f.sent
        let out := s.chip.nodeOut f.node.toNat = true
        let stopping := s.chip.lcc.lifecycle = .stopping
        let frozen := s.chip.frozen = true
        (unconfirmed → f'.ending = some .unconfirmed ∧ t.chip.tapLink = s.chip.tapLink) ∧
        (failed → f'.ending = some .failed ∧ t.chip.tapLink = s.chip.tapLink) ∧
        (¬unconfirmed → ¬failed → out → f'.ending = some .held ∧ t.chip.tapLink = s.chip.tapLink) ∧
        (¬unconfirmed → ¬failed → ¬out → stopping ∨ frozen →
          f'.ending = some .returned ∧ t.chip.tapLink = s.chip.tapLink) ∧
        (¬unconfirmed → ¬failed → ¬out → ¬stopping → ¬frozen →
          f' = { f with
            sent := f.sent + 1
            matched := false
            deadline := some (s.chip.tbu.mono + s.chip.settings.tapTimeout) } ∧
          t.chip.tapLink.sent = s.chip.tapLink.sent ++
            [tapFrame f.tapAddress f.tapPort f.level f.gate f.tag])))

/-- R78, R80, R83 to R85. EVALUATE and REQUEUE take the oldest request, and the tenure's one write is w2, which keeps
the confirmed values, the last result and the stamp flags and shows the state of the collection that then holds the
subscriber, and its attempts used (R80). One in use and in no collection joins the queue, or the deferred set behind a
full queue, if a change is needed or re-assert is asked; a queued or deferred one takes the re-assert flag; a HELD one
joins on REQUEUE alone; one in flight takes a recheck mark; one out of use stays. RETIRE of a record still out of use
closes its demand: w3 becomes 0, after a REFUND record in the demand's reservation where the demand was not delivered; a
record without a demand is left alone, and one in use is handled as by EVALUATE. -/
def Obligations.EvaluationsAreDecided : Prop :=
  (∀ (s : State) (i : Instr) (r : EvalRequest) (rest : List EvalRequest),
     s.chip.offers .evaluation = true → s.chip.toe.evals = r :: rest →
     (i = .evaluate ∧ r.kind = .evaluate) ∨ (i = .requeue ∧ r.kind = .requeue) →
     ∃ t w2, exec i s = .next t ∧ State.granted [.toe] s t ∧
       t.chip.runs .evaluation [(s.chip.recordAddr .subscribers r.subscriber 2, w2)] ∧
       (let sub := r.subscriber
       let w1 := s.chip.recordWord s.mem .subscribers sub 1
       let old := s.chip.recordWord s.mem .subscribers sub 2
       let w3 := s.chip.recordWord s.mem .subscribers sub 3
       let inUse := bit (s.chip.recordWord s.mem .subscribers sub 0) 31 = true
       let change := field w1 0 2 ≠ field old 0 2 ∨ decide (field w3 0 8 ≠ 0) ≠ bit old 2 ∨ r.reassert = true
       let toe := { s.chip.toe with evals := rest }
       field w2 0 2 = field old 0 2 ∧ bit w2 2 = bit old 2 ∧ field w2 8 3 = field old 8 3 ∧ bit w2 16 = bit old 16 ∧
       bit w2 20 = bit old 20 ∧ bit w2 21 = bit old 21 ∧
       field w2 4 3 = ((t.chip.toe.whereIs sub).getD (orderStateOfCode (field old 4 3))).code ∧
       field w2 12 4 = t.chip.toe.attemptsUsed sub (field old 12 4) ∧
       (¬inUse → t.chip.toe = toe) ∧
       (inUse → toe.whereIs sub = none → change → t.chip.toe = toe.tailed sub r.reassert) ∧
       (inUse → toe.whereIs sub = none → ¬change → t.chip.toe = toe) ∧
       (inUse → toe.whereIs sub = some .queued → t.chip.toe = { toe with
         queue := toe.queue.map fun q =>
           if q.subscriber = sub then { q with reassert := q.reassert || r.reassert } else q }) ∧
       (inUse → toe.whereIs sub = some .deferred → t.chip.toe = { toe with
         deferred := toe.deferred.map fun d =>
           if d.subscriber = sub then { d with reassert := d.reassert || r.reassert } else d }) ∧
       (inUse → toe.whereIs sub = some .held → r.kind = .requeue →
         t.chip.toe = Toe.tailed { toe with held := toe.held.erase sub } sub r.reassert) ∧
       (inUse → toe.whereIs sub = some .held → r.kind = .evaluate → t.chip.toe = toe) ∧
       (inUse → toe.whereIs sub = some .inFlight → t.chip.toe = { toe with
         flights := toe.flights.map fun f =>
           if f.subscriber = sub then { f with
             recheck := if r.reassert then .reassert else if f.recheck = .none then .change else f.recheck }
           else f }))) ∧
  (∀ (s : State) (r : EvalRequest) (rest : List EvalRequest),
     s.chip.offers .evaluation = true → s.chip.toe.evals = r :: rest → r.kind = .retire →
     ∃ t, exec .retire s = .next t ∧ State.granted [.toe, .clu] s t ∧ t.chip.toe.evals = rest ∧
       (let sub := r.subscriber
       let w3 := s.chip.recordWord s.mem .subscribers sub 3
       let demand := field w3 0 8
       let closed := (s.chip.recordAddr .subscribers sub 3, (0 : Word))
       (bit (s.chip.recordWord s.mem .subscribers sub 0) 31 = true →
         exec .retire s = exec .evaluate { s with
           chip := { s.chip with toe := { s.chip.toe with evals := { r with kind := .evaluate } :: rest } } }) ∧
       (bit (s.chip.recordWord s.mem .subscribers sub 0) 31 = false →
         t.chip.toe = { s.chip.toe with evals := rest } ∧
         (demand = 0 → t.chip.runs .evaluation []) ∧
         (demand ≠ 0 → bit w3 8 = true → t.chip.runs .evaluation [closed] ∧
           { t.chip.clu with low := false } = { s.chip.clu with low := false }) ∧
         (∀ l, demand ≠ 0 → bit w3 8 = false → s.chip.clu.copy = some l →
           (let refund := refundRecord s.chip.stamp sub demand 3 (s.chip.priceOf demand)
           t.chip.runs .evaluation (s.chip.appendWrites l refund ++ [closed]) ∧
           { t.chip.clu with low := false } = { s.chip.clu with
             copy := some (l.appended refund), reserved := s.chip.clu.reserved - 1, low := false })))))

/-- R80, R85 to R89. A send tenure decides the head of the queue: out of use it leaves; for a node that is out it is
HELD; with nothing to change its result is NO_CHANGE; a change of level without log space blocks the queue; otherwise,
while sending is allowed (R86), it goes in flight with the first free tag from the counter on, a slot reserved for a
change of level, and its first attempt is owed to the tenure's end. For a tenure granted when sending is no longer
allowed the first four cases are made as well, and where the order would be sent the head stays QUEUED, w2 rewritten:
that is the model's choice (log 15). Where the head leaves, the deferred member of lowest index joins the tail with
kept attempts 0, its w2 written before the head's. -/
def Obligations.SendTenureDecidesTheHead : Prop :=
  ∀ (s : State) (q : QueueEntry) (rest : List QueueEntry), s.chip.offers .send = true → s.chip.toe.queue = q :: rest →
    ∃ t joined w2, exec .sendTenure s = .next t ∧ State.granted [.toe, .clu] s t ∧
      (let word := s.chip.recordWord s.mem .subscribers
      let w0 := word q.subscriber 0
      let d := s.chip.tapDraft s.mem q.subscriber
      let inUse := bit w0 31 = true
      let out := s.chip.nodeOut (fieldNat w0 24 5) = true
      let wanted := d.desired ≠ d.status.level ∨ decide (d.demand ≠ 0) ≠ d.status.gate ∨ q.reassert = true
      let blocked := d.desired ≠ d.status.level ∧ s.chip.free = 0
      let allowed := s.chip.lcc.lifecycle = .running ∧ (s.chip.fallback = false ∨ s.chip.settings.freeze = false) ∧
        s.chip.toe.flights.length < s.chip.settings.window ∧ s.chip.toe.blocked = false
      let goes := inUse ∧ ¬out ∧ wanted ∧ ¬blocked ∧ allowed
      let node := s.chip.slm.word (fieldNat w0 24 5)
      t.chip.runs .send (joined ++ [(s.chip.recordAddr .subscribers q.subscriber 2, w2)]) ∧
      keepsConfirmed (word q.subscriber 2) w2 ∧
      field w2 8 3 = (if inUse ∧ ¬out ∧ ¬wanted then 3 else field (word q.subscriber 2) 8 3) ∧
      field w2 4 3 = ((t.chip.toe.whereIs q.subscriber).getD .idle).code ∧
      field w2 12 4 = t.chip.toe.attemptsUsed q.subscriber (field (word q.subscriber 2) 12 4) ∧
      (¬inUse ∨ out ∨ ¬wanted ∨ goes →
        (s.chip.toe.deferred = [] → t.chip.toe.queue = rest ∧ t.chip.toe.deferred = [] ∧ joined = []) ∧
        (∀ x ∈ s.chip.toe.deferred, (∀ y ∈ s.chip.toe.deferred, y = x ∨ x.subscriber < y.subscriber) →
          rest.length < 64 → t.chip.toe.queue = rest ++ [⟨x.subscriber, x.reassert, 0⟩] ∧
          t.chip.toe.deferred = s.chip.toe.deferred.erase x ∧
          ∃ w, joined = [(s.chip.recordAddr .subscribers x.subscriber 2, w)] ∧ keepsConfirmed (word x.subscriber 2) w ∧
            field w 8 3 = field (word x.subscriber 2) 8 3 ∧
            (x.subscriber ≠ q.subscriber → (∀ g ∈ s.chip.toe.flights, g.subscriber ≠ x.subscriber) →
              (∀ y ∈ rest, y.subscriber ≠ x.subscriber) → field w 4 3 = OrderState.queued.code ∧ field w 12 4 = 0))) ∧
      (¬goes → t.chip.toe.flights = s.chip.toe.flights ∧ t.chip.toe.tag = s.chip.toe.tag ∧
        t.chip.clu.reserved = s.chip.clu.reserved) ∧
      (¬inUse ∨ ¬out → t.chip.toe.held = s.chip.toe.held) ∧
      (inUse → out → t.chip.toe.held = insertNat q.subscriber s.chip.toe.held) ∧
      (inUse → ¬out → wanted → ¬blocked → ¬allowed → joined = [] ∧ t.chip.toe = s.chip.toe) ∧
      (inUse → ¬out → wanted → blocked → joined = [] ∧
        t.chip.toe = { s.chip.toe with blocked := true } ∧ t.chip.rpu.statusDirty = true) ∧
      (goes →
        ∃ tag : BitVec 4, t.chip.toe.flights = s.chip.toe.flights ++ [{
            subscriber := q.subscriber, tag := tag, level := d.desired, gate := decide (d.demand ≠ 0), sent := q.kept + 1
            deadline := none, oneWay := bit node 31 && bit node 12, matched := false, anyReply := false
            levelReserved := decide (d.desired ≠ d.status.level), recheck := .none, reply := none, ending := none
            workAt := s.chip.tbu.mono, tapAddress := field w0 0 20, tapPort := field w0 20 2, node := field w0 24 5 }] ∧
          t.chip.toe.tag = tag + 1 ∧
          (s.chip.toe.flights.length < 16 → (∀ g ∈ s.chip.toe.flights, g.tag ≠ tag) ∧
            ∃ k : Nat, k < 16 ∧ tag = s.chip.toe.tag + BitVec.ofNat 4 k ∧
              ∀ n < k, ∃ g ∈ s.chip.toe.flights, g.tag = s.chip.toe.tag + BitVec.ofNat 4 n) ∧
          ((∀ g ∈ s.chip.toe.flights, g.subscriber ≠ q.subscriber) → field w2 12 4 = BitVec.ofNat 4 (q.kept + 1)) ∧
          t.chip.owes (.attempt q.subscriber) ∧
          t.chip.clu.reserved = if d.desired ≠ d.status.level then s.chip.clu.reserved + 1 else s.chip.clu.reserved))

/-- R80, R92, R93. A reply tenure writes the waiting reply of a record in flight: a LEVEL record where the reported
level changes the confirmed one and can be taken, in the order's reservation or a fresh slot; the confirmation time;
w3 where a gate reported OPEN delivers the demand, whose reservation is released; and last w2, with the reported gate
and health, the stamp flags, the level taken and IN_FLIGHT. -/
def Obligations.ReplyTenureWritesTheReport : Prop :=
  ∀ (s : State) (sub : Nat) (f : Flight) (r : TapReport), s.chip.offers (.tapLink sub) = true →
    s.chip.toe.flight sub = some f → f.ending = none → f.reply = some r →
    ∃ t ws w2 f', exec .replyTenure s = .next t ∧ State.granted [.toe, .clu] s t ∧
      t.chip.runs (.tapLink sub) (ws ++ [(s.chip.recordAddr .subscribers sub 2, w2)]) ∧
      (s.chip.recordAddr .subscribers sub 4, s.chip.tbu.wall) ∈ ws ∧
      t.chip.toe.flight sub = some f' ∧ f'.reply = none ∧ f'.ending = none ∧
      bit w2 2 = r.gate ∧ bit w2 16 = r.lowSignal ∧ field w2 4 3 = OrderState.inFlight.code ∧
      field w2 0 2 =
        (if r.level = (s.chip.tapDraft s.mem sub).status.level ∨ f.levelReserved = true ∨ 0 < s.chip.free then r.level
          else (s.chip.tapDraft s.mem sub).status.level) ∧
      (let d := s.chip.tapDraft s.mem sub
      let result : BitVec 2 := if r.level = f.level then 1 else 3
      field w2 8 3 = d.status.result ∧ field w2 12 4 = BitVec.ofNat 4 f.sent ∧ bit w2 20 = !s.chip.tbu.set ∧
      bit w2 21 = !s.chip.tbu.locked ∧
      f' = { f with reply := none, levelReserved := f.levelReserved && r.level == d.status.level } ∧
      ∀ l, s.chip.clu.copy = some l → ws = s.chip.valueWrites l sub d f.levelReserved r.level result r.gate ∧
        t.chip.clu.reserved = s.chip.clu.reserved -
          (if f.levelReserved = true ∧ r.level ≠ d.status.level then 1 else 0) - (if d.delivers r.gate then 1 else 0) ∧
        t.chip.clu.copy = some (if s.chip.appendsLevel d f.levelReserved r.level then
          l.appended (levelRecord s.chip.stamp sub d.status.level r.level result) else l))

/-- R80, R91, R95 to R99. The tenure of a decided ending takes the record out of flight, w2 its last write, with the
attempts used: those sent, unless the subscriber stands in a collection again. FAILED owes the cause and the counter and
shows NO_REPLY or MISMATCH; HELD joins the held set; RETURNED stands at the head of the queue with its attempts kept;
UNCONFIRMED and CONFIRMED show that result. CONFIRMED whose level can no longer be taken is withdrawn: the record stays
in flight without the reply, and its deadline is owed to the tenure's end. -/
def Obligations.EndingTenures : Prop :=
  (∀ (s : State) (sub : Nat) (f : Flight) (i : Instr) (e : Ending), s.chip.offers (.tapLink sub) = true →
     s.chip.toe.flight sub = some f → f.ending = some e →
     (i = .endingFailed ∧ e = .failed) ∨ (i = .endingHeld ∧ e = .held) ∨ (i = .endingReturned ∧ e = .returned) ∨
       (i = .endingUnconfirmed ∧ e = .unconfirmed) ∨
       (i = .endingConfirmed ∧ e = .confirmed ∧ (f.reply = none ∨ f.levelReserved = true)) →
     ∃ t ws w2, exec i s = .next t ∧ State.granted [.toe, .clu] s t ∧
       t.chip.runs (.tapLink sub) (ws ++ [(s.chip.recordAddr .subscribers sub 2, w2)]) ∧
       (∀ x ∈ t.chip.toe.flights, x.subscriber ≠ sub) ∧
       field w2 12 4 = t.chip.toe.attemptsUsed sub (BitVec.ofNat 4 f.sent) ∧
       (e = .failed → t.chip.owes (.cause .tapFailed) ∧ t.chip.owes .tapFailure ∧
         field w2 8 3 = if f.anyReply then 5 else 4) ∧
       (e = .held → sub ∈ t.chip.toe.held) ∧
       (e = .returned → s.chip.toe.queue.length < 64 →
         t.chip.toe.queue = ⟨sub, decide (f.recheck = .reassert), f.sent⟩ :: s.chip.toe.queue) ∧
       (e = .unconfirmed → field w2 8 3 = 2 ∧ bit w2 2 = f.gate) ∧
       (e = .confirmed → field w2 8 3 = 1)) ∧
  (∀ (s : State) (sub : Nat) (f : Flight) (r : TapReport), s.chip.offers (.tapLink sub) = true →
     s.chip.toe.flight sub = some f → f.ending = some .confirmed → f.reply = some r → f.levelReserved = false →
     r.level ≠ (s.chip.tapDraft s.mem sub).status.level → s.chip.free = 0 →
     ∃ t f', exec .endingConfirmed s = .next t ∧ State.granted [.toe, .clu] s t ∧
       t.chip.toe.flight sub = some f' ∧ f'.ending = none ∧ f'.reply = none ∧ t.chip.owes (.redeadline sub))

/-- R103 to R105. The load walk of the subscribers: six channel map entries to a tenure for the temporary set, which
takes the number of every in-use EVENT entry that passes the tests of R52, with no write (a lower entry that fails them
makes no duplicate of its number: log 19, the model's reading); then one subscriber to a tenure. A demand that is kept
takes a reservation; one whose number is not in the set, or whose record is out of use, is closed, with a REFUND record
of price 0 where it was not delivered; one not delivered for which no slot is free is closed without a record. The
record's order state then decides, IDLE where the demand was closed: IN_FLIGHT joins the queue with re-assert, QUEUED
and DEFERRED without, HELD stays where a queued RESTORE of its node will reach it and joins otherwise, IDLE joins where
a change is needed, FAILED stays. That the walk puts the subscriber into the collection itself and places no request is
the model's choice (log 48): R82 says that requests are placed in LOADING by the load walk, and R103 names none. -/
def Obligations.SubscriberWalkRederives : Prop :=
  ∀ (s : State) (w : TapWalk), s.chip.toe.walk = some w →
    (s.chip.offers .eventSet = true →
      ∃ t events, exec .subscriberLoadWalk s = .next t ∧ State.granted [.toe] s t ∧ t.chip.runs .eventSet [] ∧
        t.chip.toe = { s.chip.toe with
          walk := some ⟨w.entry + min 6 (s.chip.mapCount - w.entry), w.events ++ events, w.subscriber⟩ } ∧
        (let entry := fun i => s.chip.entryInMemory s.mem i
        let passes := fun i => bit (entry i).w0 31 = true ∧ bit (entry i).w0 12 = true ∧ ¬(entry i).breaks i []
        (∀ b ∈ events, w.entry ≤ b.2 ∧ b.2 < w.entry + min 6 (s.chip.mapCount - w.entry) ∧ passes b.2 ∧
          b.1 = field (entry b.2).w1 0 8 ∧ ∀ b' ∈ w.events ++ events, b'.1 = b.1 → b'.2 = b.2) ∧
        (∀ i, w.entry ≤ i → i < w.entry + min 6 (s.chip.mapCount - w.entry) → passes i →
          ∃ b ∈ w.events ++ events, b.1 = field (entry i).w1 0 8))) ∧
    (s.chip.offers .subscriberWalk = true →
      ∃ t, exec .subscriberLoadWalk s = .next t ∧ State.granted [.toe, .clu] s t ∧
        t.chip.toe.walk = some { w with subscriber := w.subscriber + 1 } ∧
        (let sub := w.subscriber
        let w0 := s.chip.recordWord s.mem .subscribers sub 0
        let inUse := subInUse w0 = true
        let d := s.chip.tapDraft s.mem sub
        let kept := inUse ∧ ∃ b ∈ w.events, b.1 = d.demand
        let refunded := d.demand ≠ 0 ∧ d.delivered = false ∧ 0 < s.chip.free ∧ ¬kept
        let closed := d.demand ≠ 0 ∧ (¬kept ∨ (d.delivered = false ∧ s.chip.free = 0))
        let reserves := d.demand ≠ 0 ∧ d.delivered = false ∧ 0 < s.chip.free ∧ kept
        let toe := { s.chip.toe with walk := some { w with subscriber := sub + 1 } }
        let found := fun o => inUse ∧ (¬closed ∧ d.status.order = o ∨ closed ∧ o = .idle)
        let change := d.desired ≠ d.status.level ∨ decide (d.demand ≠ 0 ∧ ¬closed) ≠ d.status.gate
        let reached := ∃ e ∈ s.chip.swe.queue, ∃ n, e.kind = .restore (subNode w0) n ∧ e.resume ≤ sub
        (¬inUse → d.demand = 0 → t.chip.runs .subscriberWalk []) ∧
        (¬inUse → t.chip.toe = toe) ∧
        (found .inFlight → t.chip.toe = toe.tailed sub true) ∧
        (found .queued ∨ found .deferred → t.chip.toe = toe.tailed sub false) ∧
        (found .held → reached → t.chip.toe = { toe with held := insertNat sub toe.held }) ∧
        (found .held → ¬reached → t.chip.toe = toe.tailed sub false) ∧
        (found .idle → change → t.chip.toe = toe.tailed sub false) ∧
        (found .idle → ¬change → t.chip.toe = toe) ∧
        (found .failed → t.chip.toe = toe) ∧
        (reserves → t.chip.clu.reserved = s.chip.clu.reserved + 1) ∧
        (¬reserves → t.chip.clu.reserved = s.chip.clu.reserved) ∧
        (¬refunded → t.chip.clu.copy = s.chip.clu.copy) ∧
        (∃ ws ws' : List (Addr × Word), t.chip.runs .subscriberWalk (ws ++ ws') ∧
          (¬refunded → ¬closed → ws = []) ∧
          (¬refunded → closed → ws = [(s.chip.recordAddr .subscribers sub 3, 0)]) ∧
          (∀ l, refunded → s.chip.clu.copy = some l →
            (let refund := refundRecord s.chip.stamp sub d.demand 3 0
            ws = s.chip.appendWrites l refund ++ [(s.chip.recordAddr .subscribers sub 3, 0)] ∧
            t.chip.clu.copy = some (l.appended refund))) ∧
          (¬inUse → ws' = []) ∧
          (inUse → ∃ w2, ws' = [(s.chip.recordAddr .subscribers sub 2, w2)] ∧ field w2 0 2 = d.status.level ∧
            bit w2 2 = d.status.gate ∧ field w2 8 3 = d.status.result ∧ bit w2 16 = d.status.lowSignal ∧
            bit w2 20 = d.status.unset ∧ bit w2 21 = d.status.unlocked ∧
            (found .failed → t.chip.toe.whereIs sub = none → field w2 4 3 = OrderState.failed.code) ∧
            field w2 12 4 = t.chip.toe.attemptsUsed sub 0 ∧
            (¬found .failed → field w2 4 3 = ((t.chip.toe.whereIs sub).getD .idle).code)))))

/-! ### Status lines and outages -/

/-- R107 to R111, R117, R118. The lines take new levels (log 12); a sample that finds them different moves each
tracked node by its state, its fault level and its class, a class of 0 passing on in the same sample (the nodes of one
sample lowest first: log 41), and nothing of a node that finds no change. Each node found clear in ONSET is counted as
one glitch, its onset times forgotten (R109). The reported edges of a sample make one snapshot, and LINE_OVERRUN is
pending where LINE_EDGE was or a snapshot was still held. The first sample after entry into RUNNING takes the levels
as they stand and makes no edge. -/
def Obligations.SamplesMoveTheNodes : Prop :=
  ((∀ (s : State) (levels : Word), s.chip.resetLow = true →
     exec (.statusLineChange levels) s = .next { s with chip := { s.chip with lines := levels } }) ∧
   (∀ (s : State) (levels : Word), s.chip.quiet = true →
     ∃ t, exec (.statusLineChange levels) s = .next t ∧ t.chip.lines = levels ∧
       (s.chip.samplesNow levels = false →
         t.mem = s.mem ∧ t.pending = s.pending ∧ Chip.Same [.lines] s.chip t.chip) ∧
       (s.chip.samplesNow levels = true →
         State.happened [.lines, .slm, .swe, .rpu] s t ∧ t.chip.slm.lastSample = some levels ∧
         t.chip.slm.sampled = true ∧
         (let glitches := (List.range 32).filter fun n => s.chip.slm.inUse n &&
           ((s.chip.slm.nodes[n]?).map fun x => x.state) == some .onset &&
           levels.getLsbD n == nodeClosedFault (s.chip.slm.word n)
         Counter.glitches.index < s.chip.rpu.counters.length →
           t.chip.rpu.counter .glitches = s.chip.rpu.counter .glitches + BitVec.ofNat 32 glitches.length) ∧
         (∀ old, s.chip.slm.lastSample = some old →
           (let reported := ∃ n, n < 32 ∧ bit (s.chip.slm.word n) 31 = true ∧
             ((bit levels n = true ∧ bit old n = false ∧ bit (s.chip.slm.word n) 16 = true) ∨
               (bit levels n = false ∧ bit old n = true ∧ bit (s.chip.slm.word n) 17 = true))
           (reported → t.chip.slm.edge = some ⟨levels, s.chip.tbu.wall, s.chip.tbu.mono⟩ ∧
             t.chip.slm.edgeFresh = true ∧
             (s.chip.rpu.isPending .lineEdge = true ∨ s.chip.slm.edge.isSome = true →
               t.chip.rpu.isPending .lineOverrun = true)) ∧
           (¬reported → t.chip.slm.edge = s.chip.slm.edge ∧ t.chip.slm.edgeFresh = s.chip.slm.edgeFresh ∧
             t.chip.rpu.isPending .lineOverrun = s.chip.rpu.isPending .lineOverrun))) ∧
         ∀ n x, n < 32 → s.chip.slm.nodes[n]? = some x → s.chip.slm.inUse n = true →
           ∃ x', t.chip.slm.nodes[n]? = some x' ∧
             (let w := s.chip.slm.word n
             let fault := levels.getLsbD n ≠ nodeClosedFault w
             (x.state = .up → ¬fault → x' = x) ∧
             (x.state = .onset → fault → x' = x) ∧
             (x.state = .down → fault → x' = x) ∧
             (x.state = .clearing → ¬fault → x' = x) ∧
             (x.state = .up → fault → nodeOnsetClass w ≠ 0 → x'.state = .onset ∧ x'.dirty = true ∧
               x'.deadline = some (s.chip.tbu.mono + Config.onsetFilter (nodeOnsetClass w)) ∧
               x'.onset = some ⟨s.chip.stamp, s.chip.tbu.mono⟩) ∧
             (x.state = .up → fault → nodeOnsetClass w = 0 → x'.state = .down ∧ x'.dirty = true ∧ x'.deadline = none ∧
               x'.onset = some ⟨s.chip.stamp, s.chip.tbu.mono⟩) ∧
             (x.state = .onset → ¬fault → x'.state = .up ∧ x'.deadline = none ∧ x'.onset = none ∧ x'.dirty = true) ∧
             (x.state = .down → ¬fault → nodeHoldClass w ≠ 0 → x'.state = .clearing ∧ x'.dirty = true ∧
               x'.deadline = some (s.chip.tbu.mono + Config.clearHold (nodeHoldClass w)) ∧
               x'.clear = some ⟨s.chip.stamp, s.chip.tbu.mono⟩) ∧
             (x.state = .down → ¬fault → nodeHoldClass w = 0 → x'.state = .up ∧ x'.dirty = true ∧ x'.deadline = none ∧
               x'.outage = 0) ∧
             (x.state = .clearing → fault → x'.state = .down ∧ x'.deadline = none ∧ x'.clear = none))))) ∧
  (∀ s : State, s.chip.quiet = true → s.chip.lcc.lifecycle = .running → s.chip.slm.lastSample = none →
     ∃ t, exec .firstSample s = .next t ∧ State.happened [.slm, .swe, .rpu] s t ∧
       t.chip.slm.lastSample = some s.chip.lines ∧ t.chip.slm.edge = s.chip.slm.edge ∧
       t.chip.slm.edgeFresh = s.chip.slm.edgeFresh)

/-- R109, R111 to R113. The onset deadline: the node is DOWN, and its outage is opened with the next number, which
then steps on and skips 0, and the onset time, in the unused slot of lowest index or else the SWEPT one of greatest
age; without such a slot NODE_DOWN is pending, the outage is counted as unrecorded, and no number is taken. The hold
deadline: the node is UP, its outage closed with the clear time and a duration in whole seconds; an unrecorded one
makes NODE_UP pending at once, and in RUNNING a RESTORE with outage number 0 is handed: it joins the sweep queue as
far as there is room, or, with one of the node queued already, marks that one for a repeat where it is active (R111,
R125). -/
def Obligations.NodeDeadlines : Prop :=
  (∀ (s : State) (n : Nat) (x : Node) (k : KeptTime), s.chip.quiet = true → s.chip.slm.nodes[n]? = some x →
     x.state = .onset → x.deadline = some s.chip.tbu.mono → x.onset = some k →
     ∃ t x', exec (.onsetDeadline n) s = .next t ∧ State.happened [.slm, .rpu] s t ∧
       t.chip.slm.nodes[n]? = some x' ∧ x'.state = .down ∧ x'.deadline = none ∧ x'.dirty = true ∧
       (∀ i, s.chip.slm.takes i →
         x'.outage = s.chip.slm.next ∧
         t.chip.slm.next = (if s.chip.slm.next = 65535 then 1 else s.chip.slm.next + 1) ∧ t.chip.slm.nextDirty = true ∧
         t.chip.rpu = s.chip.rpu ∧ (∀ j, j ≠ i → t.chip.slm.slots[j]? = s.chip.slm.slots[j]?) ∧
         ∃ y, t.chip.slm.slots[i]? = some y ∧ y.status = .opened ∧ y.number = s.chip.slm.next ∧
           y.node = BitVec.ofNat 5 n ∧ y.start = k.stamp.wall ∧ y.finish = 0 ∧ y.duration = 0 ∧ y.progress = 0 ∧
           y.unset = k.stamp.unset ∧ y.unlocked = k.stamp.unlocked ∧ y.owesDown = true ∧ y.dirty = true) ∧
       ((∀ y ∈ s.chip.slm.slots, y.status = .opened ∨ y.status = .closed) →
         x'.outage = 0 ∧ t.chip.slm.next = s.chip.slm.next ∧ t.chip.rpu.isPending .nodeDown = true ∧
         t.chip.rpu.counters = s.chip.rpu.counters.modify Counter.unrecordedOutages.index (· + 1))) ∧
  (∀ (s : State) (n : Nat) (x : Node) (k c : KeptTime), s.chip.quiet = true → s.chip.slm.nodes[n]? = some x →
     x.state = .clearing → x.deadline = some s.chip.tbu.mono → x.onset = some k → x.clear = some c →
     ∃ t x', exec (.holdDeadline n) s = .next t ∧ State.happened [.slm, .swe, .rpu] s t ∧
       t.chip.slm.nodes[n]? = some x' ∧ x'.state = .up ∧ x'.deadline = none ∧ x'.outage = 0 ∧ x'.dirty = true ∧
       (∀ i, x.outage ≠ 0 → (s.chip.slm.slots.findIdx? fun y => y.status = .opened && y.number = x.outage) = some i →
         ∃ y, t.chip.slm.slots[i]? = some y ∧ y.status = .closed ∧ y.number = x.outage ∧ y.finish = c.stamp.wall ∧
           y.duration = min ((c.mono - k.mono).toNat / 100) 524287 ∧ y.owesRestore = true ∧ y.dirty = true) ∧
       (x.outage ≠ 0 → (∃ y ∈ s.chip.slm.slots, y.status = .opened ∧ y.number = x.outage) → t.chip.swe = s.chip.swe) ∧
       (x.outage = 0 → t.chip.rpu.isPending .nodeUp = true ∧
         (s.chip.lcc.lifecycle ≠ .running → t.chip.swe = s.chip.swe) ∧
         (s.chip.lcc.lifecycle = .running →
           (let queued := ∃ e ∈ s.chip.swe.queue, e.kind = .restore n 0
           (¬queued → s.chip.swe.queue.length < 192 → t.chip.swe = { s.chip.swe with
             queue := s.chip.swe.queue ++ [⟨.restore n 0, 0, true, false, false⟩] }) ∧
           (queued → t.chip.swe = { s.chip.swe with
             queue := s.chip.swe.queue.map fun e =>
               if e.kind = .restore n 0 ∧ e.active = true then { e with repeatMark := true } else e })))))

/-- R114, R115, R121, R122. An SLM write tenure writes up to five slots, each w1, w2, w3 and then w0, then the next
number, then nodes, each w2 and then w1, within 24 accesses, and owes what each slot owes. It takes the dirty slots, and
in the room left the dirty nodes, lowest first, passing over a node that a dirty slot beyond the five names. In phase 4
a read tenure takes in the next records, six or the last four; the last read, in a tenure of its own (log 22), takes the
next number, 0 counting as 1; a repair writes the record as CLOSED, INTERRUPTED and SWEPT without end, duration or
progress, a record that repeats the number of a lower one with number 0, and unused in the image. That last read moves
the next number past every number of the list, lists the repairs, and hands the RESTOREs of the CLOSED slots that are
not repaired, greatest age first, each with its record's progress as the resume index. The words of outage and node
records hold what spec/11 says. -/
def Obligations.OutageTenures : Prop :=
  (∀ s : State, s.chip.offers .slmWrite = true →
     ∃ t ws, exec .slmWriteTenure s = .next t ∧ State.granted [.slm] s t ∧ t.chip.runs .slmWrite ws ∧ ws.length ≤ 24 ∧
       ws = (s.chip.slm.writeChoice.1.flatMap fun i => ((s.chip.slm.slots[i]?).map fun x =>
             [(s.chip.recordAddr .outages i 1, x.start), (s.chip.recordAddr .outages i 2, x.finish),
               (s.chip.recordAddr .outages i 3, outageW3 x.duration x.progress),
               (s.chip.recordAddr .outages i 0, x.w0)]).getD []) ++
           (if s.chip.slm.nextDirty then [(stationAddr 104, place s.chip.slm.next 0)] else []) ++
           (s.chip.slm.writeChoice.2.2.flatMap fun i => ((s.chip.slm.nodes[i]?).map fun n =>
             [(s.chip.recordAddr .nodes i 2, n.change.wall), (s.chip.recordAddr .nodes i 1, n.w1)]).getD []) ∧
       (∀ i ∈ s.chip.slm.writeChoice.1, ∀ x, s.chip.slm.slots[i]? = some x →
         t.chip.owes (.slot i x.owesDown (x.owesRestore && x.status = .closed)))) ∧
  (∀ s : State,
     (∀ part, s.chip.offers (.outageRead part) = true →
       ∃ t, exec .outageReconciliation s = .next t ∧ State.granted [.slm] s t ∧ t.chip.runs (.outageRead part) [] ∧
         t.chip.slm.slots = s.chip.slm.slots ++
           (List.range (min 6 (64 - 6 * part))).map fun k => s.chip.slotInMemory s.mem (6 * part + k)) ∧
     (s.chip.offers .nextRead = true →
       ∃ t, exec .outageReconciliation s = .next t ∧ State.granted [.slm, .swe] s t ∧ t.chip.runs .nextRead [] ∧
         t.chip.slm.nextDirty = true ∧ t.chip.slm.slots = s.chip.slm.slots ∧ t.chip.swe.work = s.chip.swe.work ∧
         (∀ i, .repair i ∈ t.chip.slm.jobs ↔ .repair i ∈ s.chip.slm.jobs ∨
           (s.chip.slm.slots[i]?.map fun x => x.status) = some .opened ∨ s.chip.slm.repeats i) ∧
         (let n := field (s.mem.readWord (stationAddr 104)) 0 16
         s.chip.slm.slots.length ≤ 64 →
           (∃ k, k ≤ 64 ∧ t.chip.slm.next = numberAfter (if n = 0 then 1 else n) k ∧ ¬s.chip.slm.lists t.chip.slm.next ∧
             ∀ j < k, s.chip.slm.lists (numberAfter (if n = 0 then 1 else n) j)) ∧
           ((∀ x ∈ s.chip.slm.slots, x.number = 0 → x.status = .unused) → s.chip.lcc.lifecycle = .loading →
             s.chip.swe.queue.length ≤ 128 →
             ∃ order : List (Nat × Slot), order.Nodup ∧
               (∀ i x, (i, x) ∈ order ↔ s.chip.slm.slots[i]? = some x ∧ x.status = .closed ∧ ¬s.chip.slm.repeats i) ∧
               order.Pairwise (fun a b => numberAge b.2.number t.chip.slm.next < numberAge a.2.number t.chip.slm.next) ∧
               t.chip.swe.queue = s.chip.swe.queue ++ order.map fun a =>
                 ⟨.restore a.2.node.toNat a.2.number, a.2.progress, true, false, false⟩))) ∧
     (∀ i x, s.chip.offers (.repair i) = true → s.chip.slm.slots[i]? = some x →
       ∃ t w0, exec .outageReconciliation s = .next t ∧ State.granted [.slm] s t ∧
         t.chip.runs (.repair i) [(s.chip.recordAddr .outages i 1, x.start), (s.chip.recordAddr .outages i 2, 0),
           (s.chip.recordAddr .outages i 3, 0), (s.chip.recordAddr .outages i 0, w0)] ∧
         outageOpen w0 = false ∧ outageClosed w0 = true ∧ outageSwept w0 = true ∧ bit w0 26 = true ∧
         outageNode w0 = x.node ∧
         (s.chip.slm.repeats i → outageNumber w0 = 0 ∧ (t.chip.slm.slots[i]?.map fun y => y.status) = some .unused) ∧
         (¬s.chip.slm.repeats i → outageNumber w0 = x.number ∧
           (t.chip.slm.slots[i]?.map fun y => y.status) = some .swept))) ∧
  (∀ slm : Slm,
     (let dirty := (List.range slm.slots.length).filter fun i => (slm.slots[i]?.map fun x => x.dirty) == some true
     let room := 24 - 4 * (dirty.take 5).length - (if slm.nextDirty then 1 else 0)
     slm.writeChoice = (dirty.take 5, slm.nextDirty, ((List.range slm.nodes.length).filter fun i =>
       (slm.nodes[i]?.map fun x => x.dirty) == some true &&
         !(dirty.drop 5).any fun k => (slm.slots[k]?.map fun x => x.node.toNat) == some i).take (room / 2)))) ∧
  (∀ (c : Chip) (m : Memory) (i : Nat),
     (let x := c.slotInMemory m i
     let w := c.recordWord m .outages i
     x.number = field (w 0) 0 16 ∧ x.node = field (w 0) 16 5 ∧ x.start = w 1 ∧ x.finish = w 2 ∧
     x.duration = fieldNat (w 3) 0 19 ∧ x.progress = fieldNat (w 3) 19 13 ∧ x.interrupted = bit (w 0) 26 ∧
     x.unlocked = bit (w 0) 28 ∧ x.unset = bit (w 0) 29 ∧ x.owesDown = false ∧ x.owesRestore = false ∧ x.dirty = false ∧
     x.status = (if field (w 0) 0 16 = 0 then .unused
       else if bit (w 0) 24 = true ∨ bit (w 0) 25 = false then .opened
       else if bit (w 0) 27 = true then .swept else .closed))) ∧
  (∀ x : Slot, field x.w0 0 16 = x.number ∧ field x.w0 16 5 = x.node ∧ bit x.w0 24 = decide (x.status = .opened) ∧
     bit x.w0 25 = decide (x.status = .closed ∨ x.status = .swept) ∧ bit x.w0 26 = x.interrupted ∧
     bit x.w0 27 = decide (x.status = .swept) ∧ bit x.w0 28 = x.unlocked ∧ bit x.w0 29 = x.unset ∧
     x.w0 &&& 0xC0E00000 = 0) ∧
  (∀ n : Node, (fieldNat n.w1 0 2 = match n.state with
       | .up => 0
       | .onset => 1
       | .down => 2
       | .clearing => 3) ∧ bit n.w1 4 = n.change.unset ∧ bit n.w1 5 = n.change.unlocked ∧
     field n.w1 16 16 = n.outage ∧ n.w1 &&& 0xFFCC = 0)

/-! ### Sweeps -/

/-- R126, R127, R131, R133. In RUNNING, with no sweep active, the oldest READY entry becomes active. One that has no
start tenure and whose resume index is not below the subscriber count ends at once: SWEEP_DONE is pending, the entry
leaves the queue, or goes back to its tail on its repeat mark, and the closing entry takes the phase found. The start
tenure of a recorded RESTORE reads its record: closed, not swept and of that number, it is credited for whole minutes
where they reach the threshold; otherwise the sweep runs as one without a record. The end tenure writes the progress
at the subscriber count and then SWEPT. -/
def Obligations.SweepsStartAndEnd : Prop :=
  (∀ (s : State) (i : Nat) (e : SweepEntry), s.chip.quiet = true → s.chip.lcc.lifecycle = .running →
     s.chip.swe.work = none → (s.chip.swe.queue.findIdx? fun e => e.ready) = some i → s.chip.swe.queue[i]? = some e →
     (∀ x ∈ s.chip.swe.queue, x.active = false) →
     ∃ t, exec .sweepStart s = .next t ∧ State.happened lineUpPieces s t ∧ t.chip.rpu.statusDirty = true ∧
       (let recorded := ∃ node outage, e.kind = .restore node outage ∧ outage ≠ 0
       (recorded ∨ e.resume < s.chip.subscriberCount → State.happened [.swe, .statusMark] s t ∧
         t.chip.swe.queue = s.chip.swe.queue.modify i (fun e => { e with active := true }) ∧
         ∃ w, t.chip.swe.work = some w ∧ (w.started = false ↔ recorded) ∧ w.slot = none) ∧
       (¬recorded → s.chip.subscriberCount ≤ e.resume → t.chip.rpu.isPending .sweepDone = true ∧
         t.chip.swe.work = none ∧
         (∀ number, e.kind = .eventClose number → t.chip.swe.queue = s.chip.swe.queue.eraseIdx i ∧
           ∀ k c, s.chip.lue.bound number = some k → s.chip.lue.entries[k]? = some c → c.phase = some .closing →
             ∃ c', t.chip.lue.entries[k]? = some c' ∧ c'.phase = some (c.phaseFound s.chip.tbu.wall)) ∧
         (∀ node outage, e.kind = .restore node outage → t.chip.lue = s.chip.lue ∧ t.chip.swe.queue =
           s.chip.swe.queue.eraseIdx i ++ if e.repeatMark then [⟨e.kind, 0, true, false, false⟩] else [])))) ∧
  (∀ (s : State) (e : SweepEntry) (node : Nat) (outage : BitVec 16), s.chip.offers .sweepStart = true →
     s.chip.swe.active = some e → e.kind = .restore node outage →
     ∃ t w, exec .sweepStartTenure s = .next t ∧ State.granted [.swe] s t ∧ t.chip.runs .sweepStart [] ∧
       t.chip.swe = { s.chip.swe with work := some w } ∧ w.started = true ∧
       (∀ i, s.chip.slm.slotOf outage = some i →
         let w0 := s.chip.recordWord s.mem .outages i 0
         let w3 := s.chip.recordWord s.mem .outages i 3
         (outageClosed w0 = true → outageSwept w0 = false → outageNumber w0 = outage →
           w.slot = some i ∧ w.duration = fieldNat w3 0 19 ∧ w.minutes = fieldNat w3 0 19 / 60 ∧
             (w.qualifies = true ↔ max 1 s.chip.settings.threshold ≤ fieldNat w3 0 19 / 60)) ∧
         (outageClosed w0 = false ∨ outageSwept w0 = true ∨ outageNumber w0 ≠ outage → w.slot = none)) ∧
       (s.chip.slm.slotOf outage = none → w.slot = none)) ∧
  (∀ (s : State) (w : SweepWork) (i : Nat), s.chip.offers .sweepEnd = true → s.chip.swe.work = some w → w.slot = some i →
     ∃ t w0, exec .sweepEndTenure s = .next t ∧ State.granted [] s t ∧
       t.chip.runs .sweepEnd [(s.chip.recordAddr .outages i 3, outageW3 w.duration s.chip.subscriberCount),
         (s.chip.recordAddr .outages i 0, w0)] ∧
       outageSwept w0 = true ∧ outageNumber w0 = outageNumber w.record ∧ outageNode w0 = outageNode w.record ∧
       outageClosed w0 = outageClosed w.record)

/-- R128 to R130, R134. A RESTORE step: with a credit due and no free space it writes nothing, and in RUNNING the sweep
waits at the tail in LOG_WAIT, no longer active; in STOPPING it is left as it is, to end with the tenure. Otherwise the
progress is written first where the outage is recorded, a credit due is appended in a fresh slot, and the resume index
goes on. While the node is UP a HELD subscriber of the node is handed a REQUEUE, and any other an EVALUATE where
restores re-assert; no request is handed otherwise. -/
def Obligations.RestoreStepCreditsAndReleases : Prop :=
  ∀ (s : State) (e : SweepEntry) (w : SweepWork) (node : Nat) (outage : BitVec 16), s.chip.offers .sweepStep = true →
    s.chip.swe.active = some e → e.kind = .restore node outage → s.chip.swe.work = some w →
    ∃ t ws, exec .restoreStep s = .next t ∧ State.granted [.swe, .clu] s t ∧ t.chip.runs .sweepStep ws ∧
      (let w0 := s.chip.recordWord s.mem .subscribers e.resume 0
      let status := tapStatusOf (s.chip.recordWord s.mem .subscribers e.resume 2)
      let concerned := subInUse w0 = true ∧ subNode w0 = node
      let due := concerned ∧ w.slot.isSome = true ∧ w.qualifies = true ∧ status.level ≠ 0
      let waits := due ∧ s.chip.free = 0
      let progress := w.slot.toList.map fun i =>
        (s.chip.recordAddr .outages i 3, outageW3 w.duration (e.resume + 1))
      let credit := creditRecord s.chip.stamp e.resume outage node w.minutes
      (waits → ws = [] ∧ { t.chip.clu with low := false } = { s.chip.clu with low := false }) ∧
      (waits → s.chip.lcc.lifecycle = .running →
        t.chip.swe = ⟨s.chip.swe.others ++ [{ e with ready := false, active := false }], none⟩ ∧
        t.chip.owes .spaceWait) ∧
      (waits → s.chip.lcc.lifecycle ≠ .running → t.chip.swe = s.chip.swe ∧ ¬t.chip.owes .spaceWait) ∧
      (¬waits → t.chip.swe.active = some { e with resume := e.resume + 1 } ∧ t.chip.swe.work = some w ∧
        t.chip.swe.others = s.chip.swe.others) ∧
      (¬due → ws = progress ∧ { t.chip.clu with low := false } = { s.chip.clu with low := false }) ∧
      (∀ l, due → 0 < s.chip.free → s.chip.clu.copy = some l → ws = progress ++ s.chip.appendWrites l credit ∧
        { t.chip.clu with low := false } = { s.chip.clu with copy := some (l.appended credit), low := false }) ∧
      (∀ r, t.chip.owes (.request r) ↔ ¬waits ∧ concerned ∧ s.chip.nodeState node = .up ∧
        ((status.order = .held ∧ r = ⟨e.resume, .requeue, s.chip.settings.restoreReassert⟩) ∨
          (status.order ≠ .held ∧ s.chip.settings.restoreReassert = true ∧ r = ⟨e.resume, .evaluate, true⟩))))

/-- R132. An EVENT_CLOSE step: a demand for the event is closed, w3 the last write, after a REFUND record in the
demand's reservation where it was not delivered, and the subscriber is handed for evaluation; any other subscriber is
passed with no write and no request. -/
def Obligations.EventCloseStepClosesTheDemand : Prop :=
  ∀ (s : State) (e : SweepEntry) (w : SweepWork) (number : BitVec 8), s.chip.offers .sweepStep = true →
    s.chip.swe.active = some e → e.kind = .eventClose number → s.chip.swe.work = some w →
    ∃ t ws, exec .eventCloseStep s = .next t ∧ State.granted [.swe, .clu] s t ∧ t.chip.runs .sweepStep ws ∧
      t.chip.swe.active = some { e with resume := e.resume + 1 } ∧ t.chip.swe.work = some w ∧
      t.chip.swe.others = s.chip.swe.others ∧
      (let w3 := s.chip.recordWord s.mem .subscribers e.resume 3
      let concerned := bit (s.chip.recordWord s.mem .subscribers e.resume 0) 31 = true ∧ field w3 0 8 = number
      let closed := (s.chip.recordAddr .subscribers e.resume 3, (0 : Word))
      let refund := refundRecord s.chip.stamp e.resume number 3 (s.chip.priceOf number)
      (¬concerned → ws = []) ∧
      (concerned → bit w3 8 = true → ws = [closed]) ∧
      (¬concerned ∨ bit w3 8 = true → { t.chip.clu with low := false } = { s.chip.clu with low := false }) ∧
      (∀ l, concerned → bit w3 8 = false → s.chip.clu.copy = some l →
        ws = s.chip.appendWrites l refund ++ [closed] ∧
        { t.chip.clu with low := false } = { s.chip.clu with
          copy := some (l.appended refund), reserved := s.chip.clu.reserved - 1, low := false }) ∧
      (∀ r, t.chip.owes (.request r) ↔ concerned ∧ r = ⟨e.resume, .evaluate, false⟩))

/-! ### Purchases -/

/-- R140 to R145. The evaluation tenure owes its result and PURCHASE_DONE to its end. The result is that of the first
check that fails, in the order of the rules, and then nothing is written; or ACCEPTED: a BUY appends a PURCHASE record
in a fresh slot and sets the demand, delivered at once with an open gate and with a reservation otherwise; a CANCEL
appends a REFUND record, in the demand's reservation or, after delivery, in a fresh slot, and clears the demand. w3 is
the last write, and the subscriber is handed for evaluation. -/
def Obligations.EvaluationTenureDecides : Prop :=
  ∀ (s : State) (e : Evaluation), s.chip.offers .purchase = true → s.chip.pcu.inFlight = some e →
    ∃ t r ws, exec .evaluationTenure s = .next t ∧ State.granted [.clu] s t ∧ t.chip.runs .purchase ws ∧
      t.chip.owes (.purchaseEnd r) ∧ t.chip.owes (.cause .purchaseDone) ∧
      (let sub := e.subscriber.toNat
      let w0 := s.chip.recordWord s.mem .subscribers sub 0
      let w1 := s.chip.recordWord s.mem .subscribers sub 1
      let w2 := s.chip.recordWord s.mem .subscribers sub 2
      let w3 := s.chip.recordWord s.mem .subscribers sub 3
      let demand := field w3 0 8
      let known := sub < s.chip.subscriberCount ∧ bit w0 31 = true
      (r ≠ .accepted → ws = [] ∧ { t.chip.clu with low := false } = { s.chip.clu with low := false }) ∧
      (s.chip.fallback = true → r = .fallback) ∧
      (s.chip.fallback = false → e.op = .buy → s.chip.tbu.set = false → r = .timeUnset) ∧
      (s.chip.fallback = false → e.op = .cancel ∨ s.chip.tbu.set = true → ¬known → r = .badSubscriber) ∧
      (s.chip.fallback = false → e.op = .cancel ∨ s.chip.tbu.set = true → known →
        (∀ x, s.chip.lue.entries[e.entry.toNat]? = some x → x.event = false) → r = .badEntry) ∧
      (∀ x, s.chip.fallback = false → s.chip.tbu.set = true → known → e.op = .buy →
        s.chip.lue.entries[e.entry.toNat]? = some x → x.event = true →
        r = (if field w1 4 2 ≠ 0 then .notActive
          else if field w1 0 2 = 0 ∨ field w2 0 2 = 0 then .levelOff
          else if x.phase ≠ some .before ∧ x.phase ≠ some .inside then .window
          else if demand = field x.w1 0 8 then .already
          else if demand ≠ 0 then .gateBusy
          else if s.chip.nodeState (fieldNat w0 24 5) = .down ∨ s.chip.nodeState (fieldNat w0 24 5) = .clearing then
            .nodeDown
          else if s.chip.free < s.chip.settings.reserve + 2 then .logFull
          else .accepted) ∧
        ∀ l, r = .accepted → s.chip.clu.copy = some l →
          (let record := purchaseLogRecord s.chip.stamp sub (field x.w1 0 8) e.entry (field x.w1 16 16)
          ws = s.chip.appendWrites l record ++
            [(s.chip.recordAddr .subscribers sub 3, subW3 (field x.w1 0 8) (bit w2 2))] ∧
          t.chip.clu.copy = some (l.appended record) ∧
          t.chip.clu.reserved = (if bit w2 2 then s.chip.clu.reserved else s.chip.clu.reserved + 1))) ∧
      (∀ x, s.chip.fallback = false → known → e.op = .cancel →
        s.chip.lue.entries[e.entry.toNat]? = some x → x.event = true →
        r = (if x.phase ≠ some .before then .window
          else if demand ≠ field x.w1 0 8 then .notPurchased
          else if bit w3 8 = true ∧ s.chip.free = 0 then .logFull
          else .accepted) ∧
        ∀ l, r = .accepted → s.chip.clu.copy = some l →
          (let record := refundRecord s.chip.stamp sub (field x.w1 0 8) 1 (field x.w1 16 16)
          ws = s.chip.appendWrites l record ++ [(s.chip.recordAddr .subscribers sub 3, 0)] ∧
          t.chip.clu.copy = some (l.appended record) ∧
          t.chip.clu.reserved = (if bit w3 8 then s.chip.clu.reserved else s.chip.clu.reserved - 1))) ∧
      (∀ q, t.chip.owes (.request q) ↔ r = .accepted ∧ q = ⟨sub, .evaluate, false⟩))

/-! ### The charge log -/

/-- R154, R159 to R163, R165. A release tenure writes the target as it stands as the release index. A close tenure
with free space appends a PERIOD record: its four words, the other bank with digest 0, count 0 and the next period,
and the write index last; without space it writes nothing: the close waits, and outside RUNNING it is dropped. The
load of the log copy takes the indexes, the target at the release index, and the bank that the write index selects. At
the grant of every tenure of the part, these among them, tested once for the tenure on its net change (log 31: the
model's reading): with the copy loaded the low state holds exactly while free space is below the reserve plus 2; a
change of it marks the status word; an entry, and nothing else, owes LOG_LOW to the tenure's end; and a rise of free
space from 0, and nothing else, owes the space notice. Entry into STOPPED decides the low state as well. -/
def Obligations.LogTenures : Prop :=
  (∀ (s : State) (l : LogCopy), s.chip.offers .release = true → s.chip.clu.copy = some l →
     ∃ t, exec .releaseTenure s = .next t ∧ State.granted [.clu] s t ∧
       t.chip.runs .release [(stationAddr 97, l.target)] ∧
       t.chip.clu.copy = some { l with release := l.target } ∧ t.chip.clu.releaseOwed = false ∧
       t.chip.clu.reserved = s.chip.clu.reserved ∧ t.chip.clu.close = s.chip.clu.close) ∧
  (∀ (s : State) (l : LogCopy), s.chip.offers .close = true → s.chip.clu.copy = some l →
     ∃ t, exec .closeTenure s = .next t ∧ State.granted [.clu] s t ∧ t.chip.clu.reserved = s.chip.clu.reserved ∧
       (0 < s.chip.free →
         (let slot := l.write.toNat % s.chip.capacity
         let r := periodRecord s.chip.stamp l.period l.count l.digest
         let bank := if (l.write + 1).getLsbD 0 then 101 else 98
         t.chip.runs .close
           [(s.chip.recordAddr .chargeLog slot 0, r.w0), (s.chip.recordAddr .chargeLog slot 1, r.w1),
             (s.chip.recordAddr .chargeLog slot 2, l.count), (s.chip.recordAddr .chargeLog slot 3, l.digest),
             (stationAddr bank, 0), (stationAddr (bank + 1), 0), (stationAddr (bank + 2), place (l.period + 1) 0),
             (stationAddr 96, l.write + 1)]) ∧
         t.chip.clu.copy = some { l with write := l.write + 1, digest := 0, count := 0, period := l.period + 1 } ∧
         t.chip.clu.close = .none ∧ t.chip.owes (.cause .periodClosed)) ∧
       (s.chip.free = 0 → t.chip.runs .close [] ∧ t.chip.clu.copy = some l ∧
         t.chip.clu.close = if s.chip.lcc.lifecycle = .running then .waiting else .none)) ∧
  (∀ s : State, s.chip.offers .logLoad = true →
     ∃ t, exec .logCopyLoad s = .next t ∧ State.granted [.clu] s t ∧ t.chip.runs .logLoad [] ∧
       t.chip.clu.loadOwed = false ∧
       (let write := s.mem.readWord (stationAddr 96)
       let release := s.mem.readWord (stationAddr 97)
       let bank := if write.getLsbD 0 then 101 else 98
       t.chip.clu.copy = some ⟨write, release, release, s.mem.readWord (stationAddr bank),
         s.mem.readWord (stationAddr (bank + 1)), field (s.mem.readWord (stationAddr (bank + 2))) 0 16⟩) ∧
       t.chip.clu.reserved = s.chip.clu.reserved) ∧
  (∀ (i : Instr) (s t : State) (x : Tenure), exec i s = .next t → s.chip.tau.running = none →
     t.chip.tau.running = some x →
     (t.chip.clu.copy ≠ none → (t.chip.clu.low = true ↔ t.chip.free < t.chip.settings.reserve + 2) ∧
       (t.chip.clu.low ≠ s.chip.clu.low → t.chip.rpu.statusDirty = true)) ∧
     (.cause .logLow ∈ x.owed ↔ t.chip.clu.low = true ∧ s.chip.clu.low = false) ∧
     (.space ∈ x.owed ↔ s.chip.free = 0 ∧ 0 < t.chip.free)) ∧
  (∀ s t : State, s.chip.resetLow = false → s.chip.canStop = true → exec .stoppedEntry s = .next t →
     t.chip.clu.copy ≠ none → (t.chip.clu.low = true ↔ t.chip.free < t.chip.settings.reserve + 2))

/-- R152, R159. In RUNNING and STOPPING, and from load phase 4 on, no command lets the occupancy of the charge log and
the reservation count exceed the capacity, or the release target leave the records written: in every state in which
each subscriber's needs are reserved, every event has a number and the capacity is one that a profile can give. (The
load of the copy, which takes the indexes from memory, is tested by phase 3 and left out.) -/
def Obligations.TheLogKeepsWithinItsCapacity : Prop :=
  ∀ (i : Instr) (s t : State), s.chip.working = true ∨ (s.chip.lcc.lifecycle = .loading ∧ 4 ≤ s.chip.lcc.phase) →
    i ≠ .logCopyLoad → s.chip.capacity ≤ 65535 → s.chip.logFits → (∀ sub, s.needs sub ≤ s.chip.clu.reserved) →
    (∀ e ∈ s.chip.lue.entries, e.event = true → field e.w1 0 8 ≠ 0) →
    (∀ x ∈ s.chip.swe.queue, x.kind ≠ .eventClose 0) → exec i s = .next t → t.chip.logFits

/-! ### Reporting -/

/-- R118, R172 to R174. A report tenure writes, in this order and within 24 accesses: the dirty status word, the dirty
pending-cause copy, a fresh line snapshot; the oldest unwritten notes, as many whole ones as leave room for the note
count, each in the ring entry of its number; the note count as one more than the newest note written; and dirty
counters, lowest first. What is written leaves the marks, and the rest stays marked; what the report area mirrors is
unchanged. -/
def Obligations.ReportTenureMirrors : Prop :=
  ∀ s : State, s.chip.offers .report = true →
    ∃ t ws, exec .reportTenure s = .next t ∧ State.granted [.rpu, .slm] s t ∧ t.chip.runs .report ws ∧ ws.length ≤ 24 ∧
      t.chip.rpu.causes = s.chip.rpu.causes ∧ t.chip.rpu.mask = s.chip.rpu.mask ∧
      t.chip.rpu.counters = s.chip.rpu.counters ∧ t.chip.rpu.noteCount = s.chip.rpu.noteCount ∧
      t.chip.rpu.copyDirty = false ∧ t.chip.slm.edge = s.chip.slm.edge ∧
      (s.chip.slm.edge.isSome = true → t.chip.slm.edgeFresh = false) ∧
      (let first := (if s.chip.rpu.statusDirty then [(stationAddr 80, s.chip.statusWord)] else []) ++
        (if s.chip.rpu.copyDirty then [(stationAddr 82, place s.chip.rpu.causes 0)] else []) ++
        (if s.chip.slm.edgeFresh then s.chip.slm.edge.toList.flatMap fun x =>
          [(stationAddr 83, x.levels), (stationAddr 84, x.wall), (stationAddr 85, x.mono)] else [])
      let n := (24 - first.length - 1) / 4
      let notes := s.chip.rpu.notes.take n
      let count := if s.chip.rpu.countDirty then [(stationAddr 105, match notes.getLast? with
        | some x => x.number + 1
        | none => s.chip.rpu.noteCount)] else []
      let room := 24 - first.length - 4 * notes.length - count.length
      let counters := ((List.range 10).filter fun i => s.chip.rpu.counterDirty.getD i false).take room
      ws = first ++ notes.flatMap noteWrites ++ count ++
        counters.map (fun i => (stationAddr (86 + i), s.chip.rpu.counters.getD i 0)) ∧
      t.chip.rpu.notes = s.chip.rpu.notes.drop n ∧
      t.chip.rpu.countDirty = (s.chip.rpu.countDirty && !(s.chip.rpu.notes.drop n).isEmpty) ∧
      (∀ i, t.chip.rpu.counterDirty.getD i false =
        (s.chip.rpu.counterDirty.getD i false && !counters.contains i)) ∧
      (s.chip.slm.edgeFresh = true → s.chip.slm.edge.isSome = true → t.chip.owes .snapshot))

/-! ### Loading, running, stopping -/

/-- R9, R27, R29, R30, R35 (log 10). Phase 1: a tenure reads its part of the profile; the fault set is written; at the
end a profile without a fault is installed, the map, the settings and the enable mask by its words as spec/11 lays
them out, and phase 2 begins, and any fault leads to LOAD_FAULT with the reset map. -/
def Obligations.LoadPhase1TestsTheProfile : Prop :=
  ∀ s : State,
    (∀ k, s.chip.offers (.profile k) = true →
      ∃ t, exec .loadPhase1 s = .next t ∧ State.granted [.lcc] s t ∧ t.chip.runs (.profile k) [] ∧
        t.chip.lcc.profile = s.chip.lcc.profile ++
          (List.range (min 24 (64 - 24 * k))).map fun i => s.mem.readWord (stationAddr (24 * k + i))) ∧
    (s.chip.offers .faultSet = true → s.chip.lcc.phase ≠ 3 →
      ∃ t, exec .loadPhase1 s = .next t ∧ State.granted [] s t ∧
        t.chip.runs .faultSet [(stationAddr 81, place s.chip.lcc.faults 0)]) ∧
    (s.chip.quiet = true → s.chip.lcc.lifecycle = .loading → s.chip.lcc.phase = 1 → s.chip.lccIdle = true →
      ∃ t, exec .loadPhase1 s = .next t ∧ State.happened [.map, .settings, .rpu, .statusMark, .lcc] s t ∧
        (Profile.faults s.chip.lcc.profile = 0 →
          (let w := fun n => s.chip.lcc.profile.getD n 0
          let num := fun n lo width => fieldNat (w n) lo width
          let right := fun n lo : Nat =>
            if num n lo 2 = 1 then Right.read else if num n lo 2 = 2 then Right.readWrite else Right.none
          t.chip.lcc.lifecycle = .loading ∧ t.chip.lcc.phase = 2 ∧
          t.chip.map.memSize = 1048576 * num 1 8 5 ∧
          t.chip.map.tables = some {
            channelMap := ⟨num 2 0 24, num 2 24 8, right 9 0, right 9 2⟩
            subscribers := ⟨num 3 0 24, num 4 0 13, right 9 4, right 9 6⟩
            nodes := ⟨num 5 0 24, 32, right 9 8, right 9 10⟩
            outages := ⟨num 6 0 24, 64, right 9 12, right 9 14⟩
            chargeLog := ⟨num 7 0 24, num 8 0 16, right 9 16, right 9 18⟩ } ∧
          t.chip.map.guards = ((List.range 8).filter fun g => bit (w (10 + 2 * g)) 31).map (fun g =>
            ⟨4096 * num (10 + 2 * g) 0 12, 4096 * num (11 + 2 * g) 0 13, right (11 + 2 * g) 16, right (11 + 2 * g) 18⟩) ∧
          t.chip.map.permitA = field (w 26) 0 8 ∧ t.chip.map.permitB = field (w 26) 8 8 ∧
          t.chip.settings = {
            tapTimeout := BitVec.ofNat 32 (num 27 0 8), minAttempts := num 27 8 4, maxAttempts := num 27 12 4
            window := num 27 16 3, restoreReassert := bit (w 27) 20
            routeTimeout := BitVec.ofNat 32 (num 28 0 8), routeAttempts := num 28 8 3, fallbackSource := field (w 28) 16 7
            heartbeatPeriod := BitVec.ofNat 32 (100 * num 29 0 8), freeze := !bit (w 29) 8
            reserve := num 30 0 11, threshold := num 30 16 11 } ∧
          t.chip.rpu.mask = field (w 31) 0 16 ∧ t.chip.rpu.causes = s.chip.rpu.causes ∧
          t.chip.requested (.nodeTable 0) ∧ t.chip.lcc.jobs = [.nodeTable 1])) ∧
        (Profile.faults s.chip.lcc.profile ≠ 0 → t.chip.lcc.lifecycle = .loadFault ∧ t.chip.lcc.phase = 1 ∧
          t.chip.lcc.faults = Profile.faults s.chip.lcc.profile ∧ t.chip.map = RegionMap.reset ∧
          t.chip.rpu.mask = 0xFFFF ∧ t.chip.rpu.isPending .loadFault = true ∧ t.chip.requested .faultSet))

/-- R29, R30, R106, R165 (log 10). Phase 2 reads word 0 of sixteen node table entries to a tenure; at its end the image
is the SLM's, a class code above 3 in an in-use entry puts NODE_TABLE in the set, and phase 3 begins. Phase 3 reads the
two indexes; at its end an occupancy above the capacity puts LOG_STATE in the set; a set that is not empty leads to
LOAD_FAULT with load phase 3, an empty one to the load of the log copy. -/
def Obligations.LoadPhases2And3 : Prop :=
  (∀ s : State,
     (∀ k, k < 2 → s.chip.offers (.nodeTable k) = true →
       ∃ t, exec .loadPhase2 s = .next t ∧ State.granted [.lcc] s t ∧ t.chip.runs (.nodeTable k) [] ∧
         t.chip.lcc.nodeWords = s.chip.lcc.nodeWords ++
           (List.range 16).map fun i => s.chip.recordWord s.mem .nodes (16 * k + i) 0) ∧
     (s.chip.quiet = true → s.chip.lcc.lifecycle = .loading → s.chip.lcc.phase = 2 → s.chip.lccIdle = true →
       ∃ t, exec .loadPhase2 s = .next t ∧ State.happened [.slm, .lcc, .statusMark] s t ∧
         t.chip.lcc.lifecycle = .loading ∧ t.chip.lcc.phase = 3 ∧ t.chip.slm.image = s.chip.lcc.nodeWords ∧
         (t.chip.lcc.faults.getLsbD 9 = true ↔ s.chip.lcc.faults.getLsbD 9 = true ∨
           ∃ w ∈ s.chip.lcc.nodeWords, bit w 31 = true ∧ (3 < (field w 4 3).toNat ∨ 3 < (field w 8 3).toNat)) ∧
         t.chip.requested .logIndexes)) ∧
  (∀ s : State,
     (s.chip.offers .logIndexes = true →
       ∃ t, exec .loadPhase3 s = .next t ∧ State.granted [.lcc] s t ∧ t.chip.runs .logIndexes [] ∧
         t.chip.lcc.logIndexes = some (s.mem.readWord (stationAddr 96), s.mem.readWord (stationAddr 97))) ∧
     (s.chip.offers .faultSet = true → s.chip.lcc.phase = 3 →
       ∃ t, exec .loadPhase3 s = .next t ∧ State.granted [] s t ∧
         t.chip.runs .faultSet [(stationAddr 81, place s.chip.lcc.faults 0)]) ∧
     (∀ w r, s.chip.quiet = true → s.chip.lcc.lifecycle = .loading → s.chip.lcc.phase = 3 → s.chip.lccIdle = true →
       s.chip.lcc.logIndexes = some (w, r) →
       ∃ t, exec .loadPhase3 s = .next t ∧ State.happened [.lcc, .clu, .rpu, .statusMark] s t ∧ t.chip.lcc.phase = 3 ∧
         (s.chip.capacity < (w - r).toNat ∨ s.chip.lcc.faults ≠ 0 → t.chip.lcc.lifecycle = .loadFault ∧
           t.chip.rpu.isPending .loadFault = true ∧ t.chip.requested .faultSet ∧
           (s.chip.capacity < (w - r).toNat → t.chip.lcc.faults.getLsbD 10 = true)) ∧
         ((w - r).toNat ≤ s.chip.capacity → s.chip.lcc.faults = 0 → t.chip.lcc.lifecycle = .loading ∧
           t.chip.clu.loadOwed = true ∧ (s.chip.outstanding .clu = false → t.chip.requested .logLoad))))

/-- R6, R30, R31, R33, R101, R103, R121 to R123, R165. How a load goes on at the end of a TAU tenure, which owes
causes and the space notice. A tenure of the LCC is followed by its next one. The load of the log copy leads to phase
4 and its first read; the reads and repairs of phase 4 follow one another (that the next outage number is read in a
tenure of its own after the eleventh read, and that what is to be written goes before the repairs, is the model's
choice: log 22), and after the last of them every node is UP, with no outage, stamped now and to be written; with
nothing left to write phase 4 leads to phase 5 and the walk of the map's numbers, which goes on to the subscribers;
after the last subscriber phase 5 leads to phase 6 and the map walk, which goes on, what it changed mirrored first
(log 30). When phase 6 is done the part is RUNNING with load phase 0. It leaves STOPPING for STOPPED when nothing is
in flight on a link and no block but the RPU has a tenure: the collections, the pending entries, the event-number map
and the sweep queue are emptied and the reservation count is 0; time, causes and counters stand. While an order is in
flight it stays in STOPPING (log 5). A STOP and the end of a tenure make the entry themselves (log 27). -/
def Obligations.TheLoadGoesOnAndStatesAreEntered : Prop :=
  (∀ (s : State) (x : Tenure), s.chip.resetLow = false → s.chip.par.holder = .tau → s.chip.tau.running = some x →
     s.chip.portA.waiting = false → s.chip.portB.waiting = false → (∀ o ∈ x.owed, o = .space ∨ o = .mirrored ∨ ∃ k, o = .cause k) →
     ∃ t, exec .tauTenureEnd s = .next t ∧ t.mem = s.mem.applyWrites x.writes ∧ t.pending = s.pending ∧
       (let asks := fun b => ∃ batch ∈ s.chip.tau.orders, ∃ j ∈ batch, j.block = b
       let slm := s.chip.slm
       let unwritten := slm.nextDirty = true ∨ (∃ y ∈ slm.slots, y.dirty = true) ∨ ∃ n ∈ slm.nodes, n.dirty = true
       let isUp := x.job.block = .slm ∧ x.job ≠ .slmWrite ∧ slm.jobs = [] ∧ slm.nodes = []
       let unmirrored := s.chip.lue.owesTime ≠ [] ∨ ∃ e ∈ s.chip.lue.entries, e.dirty = true
       let phase := fun n => t.chip.lcc.lifecycle = .loading ∧ t.chip.lcc.phase = n
       (∀ j rest, x.job.block = .lcc → s.chip.lcc.jobs = j :: rest → j.block = .lcc → ¬asks .lcc →
         t.chip.requested j ∧ t.chip.lcc.jobs = rest) ∧
       (s.chip.lcc.lifecycle = .loading → s.chip.lcc.phase = 3 → x.job = .logLoad →
         phase 4 ∧ t.chip.rpu.statusDirty = true ∧
         (¬asks .slm → ¬unwritten → t.chip.requested (.outageRead 0) ∧
           t.chip.slm.jobs = (List.range 10).map (fun k => .outageRead (k + 1)) ++ [.nextRead])) ∧
       (s.chip.lcc.lifecycle = .loading → s.chip.lcc.phase = 4 → x.job.block = .slm → ¬asks .slm →
         (¬isUp → t.chip.slm.nodes = slm.nodes) ∧
         (isUp → phase 4 ∧ t.chip.requested .slmWrite ∧ t.chip.slm.nodes.length = 32 ∧ ∀ n ∈ t.chip.slm.nodes,
           n = ⟨.up, 0, none, none, none, ⟨s.chip.tbu.wall, !s.chip.tbu.set, !s.chip.tbu.locked⟩, true⟩) ∧
         (unwritten → phase 4 ∧ t.chip.requested .slmWrite) ∧
         (∀ j rest, ¬unwritten → slm.jobs = j :: rest → j.block = .slm → j ≠ .slmWrite →
           phase 4 ∧ t.chip.requested j ∧ t.chip.slm.jobs = rest) ∧
         (¬unwritten → ¬isUp → slm.jobs = [] → 0 < s.chip.subscriberCount →
           phase 5 ∧ t.chip.toe.walk = some ⟨0, [], 0⟩ ∧ t.chip.rpu.statusDirty = true ∧
           (¬asks .toe → 0 < s.chip.mapCount → t.chip.requested .eventSet))) ∧
       (∀ w, s.chip.lcc.lifecycle = .loading → s.chip.lcc.phase = 5 → x.job.block = .toe → ¬asks .toe →
         s.chip.toe.walk = some w →
         (w.subscriber < s.chip.subscriberCount → phase 5 ∧ t.chip.toe.walk = some w ∧
           t.chip.requested (if w.entry < s.chip.mapCount then .eventSet else .subscriberWalk)) ∧
         (s.chip.subscriberCount ≤ w.subscriber →
           phase 6 ∧ t.chip.toe.walk = none ∧ t.chip.lue.walk = some 0 ∧ t.chip.rpu.statusDirty = true ∧
           (¬asks .lue → ¬unmirrored → 0 < s.chip.mapCount → t.chip.requested .mapWalk))) ∧
       (∀ n, s.chip.lcc.lifecycle = .loading → s.chip.lcc.phase = 6 → x.job.block = .lue → ¬asks .lue →
         s.chip.lue.walk = some n → phase 6 ∧ t.chip.lue.walk = some n ∧
         (unmirrored → t.chip.requested .mirror) ∧
         (¬unmirrored → n < s.chip.mapCount → t.chip.requested .mapWalk)))) ∧
  (∀ s : State, s.chip.quiet = true → s.chip.lcc.lifecycle = .loading → s.chip.lcc.phase = 6 → s.chip.mapWalked = true →
     ∃ t, exec .runningEntry s = .next t ∧ State.happened (.lcc :: lineUpPieces) s t ∧
       t.chip.lcc.lifecycle = .running ∧ t.chip.lcc.phase = 0 ∧ t.chip.lue.walk = none ∧ t.chip.rpu.statusDirty = true) ∧
  ((∀ s : State, s.chip.quiet = true → s.chip.lcc.lifecycle = .stopping → s.chip.toe.flights = [] →
     s.chip.lue.order = none → (∀ b, b ≠ .rpu → s.chip.outstanding b = false) →
     ∃ t, exec .stoppedEntry s = .next t ∧
       State.happened [.tenure, .lcc, .lue, .toe, .slm, .swe, .clu, .low, .statusMark] s t ∧
       t.chip.lcc.lifecycle = .stopped ∧ t.chip.toe.queue = [] ∧ t.chip.toe.held = [] ∧ t.chip.toe.deferred = [] ∧
       t.chip.toe.evals = [] ∧ t.chip.toe.blocked = false ∧ t.chip.toe.tag = s.chip.toe.tag ∧
       t.chip.lue.entries = [] ∧ t.chip.lue.eventMap = [] ∧ t.chip.swe.queue = [] ∧ t.chip.swe.work = none ∧
       t.chip.clu.reserved = 0 ∧ t.chip.clu.copy = s.chip.clu.copy) ∧
   (∀ s : State, s.chip.toe.flights ≠ [] ∨ s.chip.lue.order.isSome = true → exec .stoppedEntry s = .next s))

/-! ### Invariants -/

/-- What every step keeps holds after the reset line. -/
def Obligations.InvariantsHoldAtReset : Prop :=
  State.reset.canonical ∧ State.reset.chip.settled ∧ State.reset.chip.lockBounded ∧ State.reset.chip.countdownArmed ∧
    State.reset.chip.mapSized ∧ State.reset.chip.collected ∧ State.reset.chip.logFits

/-- Every step keeps the canonical form of the memory. -/
def Obligations.StepKeepsMemoryCanonical : Prop :=
  ∀ s t : State, s.canonical → step s = .next t → t.canonical

/-- R3, R6. Every step leaves a settled part: no block has a request to present, and no claimant waits while the
memory port is free. -/
def Obligations.StepLeavesASettledPart : Prop :=
  ∀ s t : State, s.chip.settled → step s = .next t → t.chip.settled

/-- R4, R5. No step lets a host tenure exceed 16 accesses. -/
def Obligations.StepKeepsTheLockBounded : Prop :=
  ∀ s t : State, s.chip.lockBounded → step s = .next t → t.chip.lockBounded

/-- R47. Every step keeps the countdown where ARMED is and nowhere else. R9, R27. Every step keeps a memory size of 1 to
16 MiB in force. -/
def Obligations.StepKeepsTheCountdownArmedAndTheMapSized : Prop :=
  (∀ s t : State, s.chip.countdownArmed → step s = .next t → t.chip.countdownArmed) ∧
  (∀ s t : State, s.chip.mapSized → step s = .next t → t.chip.mapSized)

/-- R79, R85, R89. Every step keeps the collections of the TOE: at most 64 in the queue, a subscriber in at most one
collection, distinct tags in flight, at most as many in flight as the window, which is at most 4. With these it keeps
what they rest on: the evaluation list is empty outside RUNNING and STOPPING (that it is so in LOADING too is the
model's choice, log 48, where R82 has the load walk place requests), the collections are empty before phase 5 of a
load, and the walk of phase 5 has only passed the subscribers that they hold. -/
def Obligations.StepKeepsTheCollections : Prop :=
  ∀ s t : State, s.chip.collected → step s = .next t → t.chip.collected

/-! ### Layouts -/

/-- Spec/11, R41, R78, R156, R157, R168, R171, R175. What the words of a record hold: w2 and w3 of a subscriber as a
tenure reads and writes them, w4 of a channel map entry, the status word, w3 of an outage, the five kinds of charge
log record, and the price of an event, which is that of the entry its number is bound to and 0 where it is bound to
none. The interrupt line is asserted exactly while a pending kind is in the enable mask (R171). The digest of a
sequence of bytes may be taken in parts, each beginning from the stored digest of the part before; the nine digits
from 1 to 9 give 0xCBF43926. -/
def Obligations.RecordsAreLaidOut : Prop :=
  (∀ (c : Chip) (m : Memory) (sub : Nat),
     (let w2 := c.recordWord m .subscribers sub 2
     let d := c.tapDraft m sub
     d.desired = field (c.recordWord m .subscribers sub 1) 0 2 ∧ d.status.level = field w2 0 2 ∧
     d.status.gate = bit w2 2 ∧ d.status.result = field w2 8 3 ∧ d.status.attempts = field w2 12 4 ∧
     d.status.lowSignal = bit w2 16 ∧ d.status.unset = bit w2 20 ∧ d.status.unlocked = bit w2 21 ∧
     (field w2 4 3 = d.status.order.code ∨ (5 < (field w2 4 3).toNat ∧ d.status.order = .idle)) ∧
     d.demand = field (c.recordWord m .subscribers sub 3) 0 8 ∧
     d.delivered = bit (c.recordWord m .subscribers sub 3) 8)) ∧
  (∀ (x : TapStatus) (demand : BitVec 8) (delivered : Bool),
     tapStatusOf x.word = x ∧ x.word &&& 0xFFCE0888 = 0 ∧ field (subW3 demand delivered) 0 8 = demand ∧
       bit (subW3 demand delivered) 8 = delivered ∧ subW3 demand delivered &&& 0xFFFFFE00 = 0) ∧
  (∀ e : Entry, field e.w4 0 7 = e.applied ∧
     field e.w4 8 2 = (match e.route with
       | .settled => 0
       | .pending => 1
       | .inFlight => 2
       | .failed => 3) ∧
     field e.w4 10 2 = (match e.cls with
       | none => 0
       | some .take => 1
       | some .event => 2
       | some .fallback => 3) ∧
     field e.w4 12 3 = (match e.phase with
       | none => 0
       | some .before => 1
       | some .inside => 2
       | some .after => 3
       | some .closing => 4) ∧
     field e.w4 16 3 = e.attempts ∧ bit e.w4 20 = e.unset ∧ bit e.w4 21 = e.unlocked ∧ e.w4 &&& 0xFFC88080 = 0) ∧
  (∀ c : Chip, field c.statusWord 0 3 = (match c.lcc.lifecycle with
       | .offline => 0
       | .loading => 1
       | .loadFault => 2
       | .running => 3
       | .stopping => 4
       | .stopped => 5) ∧
     field c.statusWord 4 3 = BitVec.ofNat 3 c.lcc.phase ∧
     field c.statusWord 8 2 = (match c.tbu.heartbeat with
       | .disarmed => 0
       | .armed => 1
       | .paused => 2
       | .expired => 3) ∧
     bit c.statusWord 10 = c.tbu.set ∧ bit c.statusWord 11 = c.tbu.locked ∧
     bit c.statusWord 12 = decide (c.lue.take = .applying) ∧ bit c.statusWord 13 = c.clu.low ∧
     bit c.statusWord 14 = c.toe.blocked ∧ bit c.statusWord 15 = c.swe.work.isSome ∧
     c.statusWord &&& 0xFFFF0088 = 0) ∧
  (∀ c : Chip, c.interrupt = true ↔
     ∃ k : Cause, c.rpu.isPending k = true ∧ c.rpu.mask.getLsbD (k.rank - 1) = true) ∧
  (∀ (stored : Word) (a b : List Byte), crcExtend stored (a ++ b) = crcExtend (crcExtend stored a) b) ∧
  crcExtend 0 [0x31, 0x32, 0x33, 0x34, 0x35, 0x36, 0x37, 0x38, 0x39] = 0xCBF43926 ∧
  (∀ duration progress : Nat, duration < 524288 → progress < 8192 →
     fieldNat (outageW3 duration progress) 0 19 = duration ∧ fieldNat (outageW3 duration progress) 19 13 = progress) ∧
  (∀ (stamp : Stamp) (sub minutes node : Nat) (old new result reason : BitVec 2) (number : BitVec 8) (entry : BitVec 7)
     (price outage period : BitVec 16) (count digest : Word),
     (let head := fun (r : LogRecord) (kind : BitVec 4) (subject : BitVec 16) => field r.w0 0 4 = kind ∧
       bit r.w0 4 = stamp.unset ∧ bit r.w0 5 = stamp.unlocked ∧ field r.w0 16 16 = subject ∧
       r.w0 &&& 0xFFC0 = 0 ∧ r.w1 = stamp.wall
     let level := levelRecord stamp sub old new result
     let purchase := purchaseLogRecord stamp sub number entry price
     let refund := refundRecord stamp sub number reason price
     let credit := creditRecord stamp sub outage node minutes
     let closed := periodRecord stamp period count digest
     (head level 1 (BitVec.ofNat 16 sub) ∧ field level.w2 0 2 = old ∧ field level.w2 8 2 = new ∧
       level.w2 &&& 0xFFFFFCFC = 0 ∧ field level.w3 0 2 = result ∧ level.w3 &&& 0xFFFFFFFC = 0) ∧
     (head purchase 2 (BitVec.ofNat 16 sub) ∧ field purchase.w2 0 8 = number ∧ field purchase.w2 8 7 = entry ∧
       purchase.w2 &&& 0xFFFF8000 = 0 ∧ field purchase.w3 0 16 = price ∧ purchase.w3 &&& 0xFFFF0000 = 0) ∧
     (head refund 3 (BitVec.ofNat 16 sub) ∧ field refund.w2 0 8 = number ∧ field refund.w2 8 2 = reason ∧
       refund.w2 &&& 0xFFFFFC00 = 0 ∧ field refund.w3 0 16 = price ∧ refund.w3 &&& 0xFFFF0000 = 0) ∧
     (head credit 4 (BitVec.ofNat 16 sub) ∧ field credit.w2 0 16 = outage ∧ field credit.w2 16 5 = BitVec.ofNat 5 node ∧
       credit.w2 &&& 0xFFE00000 = 0 ∧ field credit.w3 0 16 = BitVec.ofNat 16 minutes ∧ credit.w3 &&& 0xFFFF0000 = 0) ∧
     (head closed 5 period ∧ closed.w2 = count ∧ closed.w3 = digest))) ∧
  (∀ (c : Chip) (number : BitVec 8),
     c.stamp = ⟨c.tbu.wall, !c.tbu.set, !c.tbu.locked⟩ ∧
     ((∀ b ∈ c.lue.eventMap, b.1 ≠ number) → c.priceOf number = 0) ∧
     (∀ i e, (∀ b ∈ c.lue.eventMap, b.1 = number → b.2 = i) → (number, i) ∈ c.lue.eventMap →
       c.lue.entries[i]? = some e → c.priceOf number = field e.w1 16 16))

/-- R80, R91 to R93, R95 to R99, R154. What the ending of an order writes and leaves, with a reply still waiting or with
none, of CONFIRMED where the reply's level can be taken. A reply that waits is taken first: the LEVEL record of its
level, then the time, the gate with its delivery, the health. FAILED closes an undelivered demand of an order to open
the gate with a REFUND record, GATE_FAILED, in the demand's reservation; HELD drops the recheck mark; RETURNED at a full
queue puts its tail entry in the deferred set and writes that entry's w2 first; UNCONFIRMED takes the ordered level and
gate, CONFIRMED those of the waiting reply, with the LEVEL record and the delivery (a reply never waits at UNCONFIRMED:
R90). Each releases a level reservation that the order still holds, FAILED, UNCONFIRMED and CONFIRMED bring the
subscriber back on its recheck mark, and w2, the last write, shows the state of the collection that then holds the
subscriber. -/
def Obligations.EndingsWriteTheirRecords : Prop :=
  ∀ (s : State) (sub : Nat) (f : Flight) (l : LogCopy) (e : Ending) (i : Instr), s.chip.offers (.tapLink sub) = true →
    s.chip.toe.flight sub = some f → f.ending = some e → s.chip.clu.copy = some l →
    (i = .endingFailed ∧ e = .failed) ∨ (i = .endingHeld ∧ e = .held) ∨ (i = .endingReturned ∧ e = .returned) ∨
      (i = .endingUnconfirmed ∧ e = .unconfirmed) ∨ (i = .endingConfirmed ∧ e = .confirmed) →
    ∃ t w2, exec i s = .next t ∧ State.granted [.toe, .clu] s t ∧
      (let d := s.chip.tapDraft s.mem sub
      let toe := s.chip.toe.landed sub
      let last := (s.chip.recordAddr .subscribers sub 2, w2)
      let held := if f.levelReserved then 1 else 0
      let shows := fun (rest : OrderState) => field w2 4 3 = ((t.chip.toe.whereIs sub).getD rest).code ∧
        field w2 12 4 = t.chip.toe.attemptsUsed sub (BitVec.ofNat 4 f.sent)
      let keeps := field w2 0 2 = d.status.level ∧ bit w2 2 = d.status.gate ∧ bit w2 16 = d.status.lowSignal ∧
        bit w2 20 = d.status.unset ∧ bit w2 21 = d.status.unlocked
      let refunds := f.gate && d.demand != 0 && !d.delivered
      let refund := refundRecord s.chip.stamp sub d.demand 2 (s.chip.priceOf d.demand)
      (f.reply = none → e = .failed →
        t.chip.toe = toe.rechecked f
          (d.desired != d.status.level || (d.demand != 0 && !refunds) != d.status.gate) ∧
        keeps ∧ shows .failed ∧ field w2 8 3 = (if f.anyReply then 5 else 4) ∧
        t.chip.runs (.tapLink sub) ((if refunds then
          s.chip.appendWrites l refund ++ [(s.chip.recordAddr .subscribers sub 3, 0)] else []) ++ [last]) ∧
        t.chip.clu.copy = some (if refunds then l.appended refund else l) ∧
        t.chip.clu.reserved = s.chip.clu.reserved - (if refunds then 1 else 0) - held) ∧
      (f.reply = none → e = .held →
        t.chip.toe = { toe with held := insertNat sub toe.held } ∧ keeps ∧ shows .idle ∧
        field w2 8 3 = d.status.result ∧ t.chip.runs (.tapLink sub) [last] ∧
        t.chip.clu.copy = some l ∧ t.chip.clu.reserved = s.chip.clu.reserved - held) ∧
      (f.reply = none → e = .returned →
        (let entry : QueueEntry := ⟨sub, decide (f.recheck = .reassert), f.sent⟩
        (toe.queue.length < 64 →
          t.chip.toe = { toe with queue := entry :: toe.queue } ∧ t.chip.runs (.tapLink sub) [last]) ∧
        (∀ q, 64 ≤ toe.queue.length → toe.queue.getLast? = some q →
          t.chip.toe = { toe with
            queue := entry :: toe.queue.dropLast, deferred := toe.deferred ++ [⟨q.subscriber, q.reassert⟩] } ∧
          ∃ w2', t.chip.runs (.tapLink sub) [(s.chip.recordAddr .subscribers q.subscriber 2, w2'), last] ∧
            field w2' 4 3 = ((t.chip.toe.whereIs q.subscriber).getD .idle).code ∧
            field w2' 12 4 = t.chip.toe.attemptsUsed q.subscriber 0)) ∧
        keeps ∧ shows .idle ∧ field w2 8 3 = d.status.result ∧
        (t.chip.toe.whereIs sub = some .queued → field w2 12 4 = BitVec.ofNat 4 f.sent) ∧
        t.chip.clu.copy = some l ∧ t.chip.clu.reserved = s.chip.clu.reserved - held) ∧
      (∀ r : TapReport, f.reply = some r →
        (let result : BitVec 2 := if r.level = f.level then 1 else 3
        let taken := s.chip.levelWrites l sub d f.levelReserved r.level result
        let level := s.chip.levelLeft d f.levelReserved r.level
        let given := if d.delivers r.gate then 1 else 0
        let time := (s.chip.recordAddr .subscribers sub 4, s.chip.tbu.wall)
        let demandWrite := (s.chip.recordAddr .subscribers sub 3, subW3 d.demand true)
        let values := field w2 0 2 = level ∧ bit w2 2 = r.gate ∧ bit w2 16 = r.lowSignal ∧
          bit w2 20 = !s.chip.tbu.set ∧ bit w2 21 = !s.chip.tbu.locked
        let before := taken.1 ++ time :: (if d.delivers r.gate then [demandWrite] else [])
        let refunds := f.gate && d.demand != 0 && !d.delivered && !r.gate
        (e = .failed →
          t.chip.toe = toe.rechecked f (d.desired != level || (d.demand != 0 && !refunds) != r.gate) ∧
          values ∧ shows .failed ∧ field w2 8 3 = (if f.anyReply then 5 else 4) ∧
          t.chip.runs (.tapLink sub) (if refunds then taken.1 ++ s.chip.appendWrites taken.2 refund ++
            [time, (s.chip.recordAddr .subscribers sub 3, 0), last] else before ++ [last]) ∧
          t.chip.clu.copy = some (if refunds then taken.2.appended refund else taken.2) ∧
          t.chip.clu.reserved = s.chip.clu.reserved - (if refunds then 1 else 0) - held - given) ∧
        (e = .held →
          t.chip.toe = { toe with held := insertNat sub toe.held } ∧ values ∧ shows .idle ∧
          field w2 8 3 = d.status.result ∧ t.chip.runs (.tapLink sub) (before ++ [last]) ∧
          t.chip.clu.copy = some taken.2 ∧ t.chip.clu.reserved = s.chip.clu.reserved - held - given) ∧
        (e = .returned →
          (let entry : QueueEntry := ⟨sub, decide (f.recheck = .reassert), f.sent⟩
          (toe.queue.length < 64 →
            t.chip.toe = { toe with queue := entry :: toe.queue } ∧ t.chip.runs (.tapLink sub) (before ++ [last])) ∧
          (∀ q, 64 ≤ toe.queue.length → toe.queue.getLast? = some q →
            t.chip.toe = { toe with
              queue := entry :: toe.queue.dropLast, deferred := toe.deferred ++ [⟨q.subscriber, q.reassert⟩] } ∧
            ∃ w2', t.chip.runs (.tapLink sub)
                (before ++ [(s.chip.recordAddr .subscribers q.subscriber 2, w2'), last]) ∧
              field w2' 4 3 = ((t.chip.toe.whereIs q.subscriber).getD .idle).code ∧
              field w2' 12 4 = t.chip.toe.attemptsUsed q.subscriber 0)) ∧
          values ∧ shows .idle ∧ field w2 8 3 = d.status.result ∧
          (t.chip.toe.whereIs sub = some .queued → field w2 12 4 = BitVec.ofNat 4 f.sent) ∧
          t.chip.clu.copy = some taken.2 ∧ t.chip.clu.reserved = s.chip.clu.reserved - held - given))) ∧
      (∀ (level : BitVec 2) (gate low : Bool) (result : BitVec 2) (r : TapReport),
        (f.reply = none ∧ e = .unconfirmed ∧ level = f.level ∧ gate = f.gate ∧ low = d.status.lowSignal ∧ result = 2) ∨
          (f.reply = some r ∧ e = .confirmed ∧ level = r.level ∧ gate = r.gate ∧ low = r.lowSignal ∧
            result = (if r.level = f.level then 1 else 3) ∧
            (r.level = d.status.level ∨ f.levelReserved = true ∨ 0 < s.chip.free)) →
        t.chip.toe = toe.rechecked f
          (d.desired != s.chip.levelLeft d f.levelReserved level || (d.demand != 0) != gate) ∧
        t.chip.runs (.tapLink sub) (s.chip.valueWrites l sub d f.levelReserved level result gate ++ [last]) ∧
        t.chip.clu.copy = some (if s.chip.appendsLevel d f.levelReserved level then
          l.appended (levelRecord s.chip.stamp sub d.status.level level result) else l) ∧
        t.chip.clu.reserved = s.chip.clu.reserved - held - (if d.delivers gate then 1 else 0) ∧
        field w2 0 2 = s.chip.levelLeft d f.levelReserved level ∧ bit w2 2 = gate ∧ bit w2 16 = low ∧
        bit w2 20 = !s.chip.tbu.set ∧ bit w2 21 = !s.chip.tbu.locked ∧ shows .idle ∧
        field w2 8 3 = (if e = .confirmed then 1 else 2)) ∧
      (f.reply = none → e = .confirmed →
        t.chip.toe = toe.rechecked f (d.desired != d.status.level || (d.demand != 0) != d.status.gate) ∧
        keeps ∧ shows .idle ∧ field w2 8 3 = 1 ∧ t.chip.runs (.tapLink sub) [last] ∧
        t.chip.clu.copy = some l ∧ t.chip.clu.reserved = s.chip.clu.reserved - held))

/-- R27, R28. When phase 1 finds each fault, by the profile's words: a bad signature is the only fault; otherwise each
bit of the set is there exactly when its test fails. A table whose count has failed takes no part in the placement
tests, but the fields of its base and rights are tested (log 37), and an invalid memory size counts as 16 MiB. -/
def Obligations.ProfileFaultsAreFound : Prop :=
  ∀ p : Profile,
    (let w := fun n => p.getD n 0
    let num := fun n lo width => fieldNat (p.getD n 0) lo width
    let out := fun (n lo hi : Nat) => n < lo ∨ hi < n
    let bit1 := fun n => (Profile.faults p).getLsbD n = true
    let size := 1048576 * (if 1 ≤ num 1 8 5 ∧ num 1 8 5 ≤ 16 then num 1 8 5 else 16)
    let base : Table → Nat := fun
      | .channelMap => num 2 0 24
      | .subscribers => num 3 0 24
      | .nodes => num 5 0 24
      | .outages => num 6 0 24
      | .chargeLog => num 7 0 24
    let extent : Table → Nat := fun
      | .channelMap => 32 * num 2 24 8
      | .subscribers => 32 * num 4 0 13
      | .nodes => 512
      | .outages => 1024
      | .chargeLog => 16 * num 8 0 16
    let record : Table → Nat := fun
      | .channelMap => 32
      | .subscribers => 32
      | _ => 16
    let capacityFails := ∀ k, 8 ≤ k → k ≤ 15 → num 8 0 16 ≠ 2 ^ k
    let counted : Table → Prop := fun
      | .channelMap => ¬out (num 2 24 8) 1 96
      | .subscribers => ¬out (num 4 0 13) 1 4096
      | .chargeLog => ¬capacityFails
      | _ => True
    let attempts := ¬out (num 27 8 4) 1 8 ∧ ¬out (num 27 12 4) 1 8
    let guardOn := fun g => bit (w (10 + 2 * g)) 31 = true
    let guardBase := fun g => 4096 * num (10 + 2 * g) 0 12
    let guardSize := fun g => 4096 * num (11 + 2 * g) 0 13
    (w 0 ≠ 0x4A503430 → Profile.faults p = 1) ∧
    (w 0 = 0x4A503430 →
      ¬bit1 0 ∧ ¬bit1 9 ∧ ¬bit1 10 ∧
      (bit1 1 ↔ ∃ t u, t ≠ u ∧ counted t ∧ counted u ∧ base t < base u + extent u ∧ base u < base t + extent t) ∧
      (bit1 2 ↔ (∃ t, base t % record t ≠ 0) ∨
        (∃ t, counted t ∧ (base t < 0x400 ∨ size < base t + extent t)) ∨ ∃ k, k < 10 ∧ num 9 (2 * k) 2 = 3) ∧
      (bit1 3 ↔ out (num 1 8 5) 1 16 ∨ out (num 2 24 8) 1 96 ∨ out (num 4 0 13) 1 4096 ∨ capacityFails ∨ ¬attempts ∨
        out (num 27 16 3) 1 4 ∨ out (num 28 8 3) 1 4) ∧
      (bit1 4 ↔ out (num 27 0 8) 10 200 ∨ out (num 28 0 8) 10 100 ∨ num 29 0 8 = 0 ∨ 1440 < num 30 16 11) ∧
      (bit1 5 ↔ attempts ∧ num 27 12 4 < num 27 8 4) ∧
      (bit1 6 ↔ out (num 28 16 7) 1 64) ∧
      (bit1 7 ↔ ∃ g, g < 8 ∧ guardOn g ∧
        (guardSize g = 0 ∨ size < guardBase g + guardSize g ∨ guardBase g = 0 ∨
          (∃ t, counted t ∧ base t < guardBase g + guardSize g ∧ guardBase g < base t + extent t ∧ guardSize g ≠ 0) ∨
          (∃ h, h < 8 ∧ h ≠ g ∧ guardOn h ∧ guardSize h ≠ 0 ∧ guardBase h < guardBase g + guardSize g ∧
            guardBase g < guardBase h + guardSize h) ∨
          num (11 + 2 * g) 16 2 = 3 ∨ num (11 + 2 * g) 18 2 = 3)) ∧
      (bit1 8 ↔ 1024 < num 30 0 11 ∨ (¬capacityFails ∧ num 8 0 16 ≤ 2 * num 30 0 11))))
end

