-- ==== Sys2Proof/Laws/State.lean ====
section
/-! SUPPORT. For each update of one piece of the part, every other field reads as before: one lemma per field per update,
true by rfl. -/

namespace Sys2Proof.Machine

/-! ### write -/

@[simp] theorem Chip.write_resetLow (a : Addr) (v : Word) (c : Chip) : (c.write a v).resetLow = c.resetLow := rfl
@[simp] theorem Chip.write_lines (a : Addr) (v : Word) (c : Chip) : (c.write a v).lines = c.lines := rfl
@[simp] theorem Chip.write_portA (a : Addr) (v : Word) (c : Chip) : (c.write a v).portA = c.portA := rfl
@[simp] theorem Chip.write_portB (a : Addr) (v : Word) (c : Chip) : (c.write a v).portB = c.portB := rfl
@[simp] theorem Chip.write_par (a : Addr) (v : Word) (c : Chip) : (c.write a v).par = c.par := rfl
@[simp] theorem Chip.write_map (a : Addr) (v : Word) (c : Chip) : (c.write a v).map = c.map := rfl
@[simp] theorem Chip.write_lcc (a : Addr) (v : Word) (c : Chip) : (c.write a v).lcc = c.lcc := rfl
@[simp] theorem Chip.write_settings (a : Addr) (v : Word) (c : Chip) : (c.write a v).settings = c.settings := rfl
@[simp] theorem Chip.write_tbu (a : Addr) (v : Word) (c : Chip) : (c.write a v).tbu = c.tbu := rfl
@[simp] theorem Chip.write_lue (a : Addr) (v : Word) (c : Chip) : (c.write a v).lue = c.lue := rfl
@[simp] theorem Chip.write_toe (a : Addr) (v : Word) (c : Chip) : (c.write a v).toe = c.toe := rfl
@[simp] theorem Chip.write_slm (a : Addr) (v : Word) (c : Chip) : (c.write a v).slm = c.slm := rfl
@[simp] theorem Chip.write_swe (a : Addr) (v : Word) (c : Chip) : (c.write a v).swe = c.swe := rfl
@[simp] theorem Chip.write_pcu (a : Addr) (v : Word) (c : Chip) : (c.write a v).pcu = c.pcu := rfl
@[simp] theorem Chip.write_clu (a : Addr) (v : Word) (c : Chip) : (c.write a v).clu = c.clu := rfl
@[simp] theorem Chip.write_rpu (a : Addr) (v : Word) (c : Chip) : (c.write a v).rpu = c.rpu := rfl
@[simp] theorem Chip.write_routeLink (a : Addr) (v : Word) (c : Chip) : (c.write a v).routeLink = c.routeLink := rfl
@[simp] theorem Chip.write_tapLink (a : Addr) (v : Word) (c : Chip) : (c.write a v).tapLink = c.tapLink := rfl

/-! ### writeRecord -/

@[simp] theorem Chip.writeRecord_resetLow (t : Table) (i w : Nat) (v : Word) (c : Chip) : (c.writeRecord t i w v).resetLow = c.resetLow := rfl
@[simp] theorem Chip.writeRecord_lines (t : Table) (i w : Nat) (v : Word) (c : Chip) : (c.writeRecord t i w v).lines = c.lines := rfl
@[simp] theorem Chip.writeRecord_portA (t : Table) (i w : Nat) (v : Word) (c : Chip) : (c.writeRecord t i w v).portA = c.portA := rfl
@[simp] theorem Chip.writeRecord_portB (t : Table) (i w : Nat) (v : Word) (c : Chip) : (c.writeRecord t i w v).portB = c.portB := rfl
@[simp] theorem Chip.writeRecord_par (t : Table) (i w : Nat) (v : Word) (c : Chip) : (c.writeRecord t i w v).par = c.par := rfl
@[simp] theorem Chip.writeRecord_map (t : Table) (i w : Nat) (v : Word) (c : Chip) : (c.writeRecord t i w v).map = c.map := rfl
@[simp] theorem Chip.writeRecord_lcc (t : Table) (i w : Nat) (v : Word) (c : Chip) : (c.writeRecord t i w v).lcc = c.lcc := rfl
@[simp] theorem Chip.writeRecord_settings (t : Table) (i w : Nat) (v : Word) (c : Chip) : (c.writeRecord t i w v).settings = c.settings := rfl
@[simp] theorem Chip.writeRecord_tbu (t : Table) (i w : Nat) (v : Word) (c : Chip) : (c.writeRecord t i w v).tbu = c.tbu := rfl
@[simp] theorem Chip.writeRecord_lue (t : Table) (i w : Nat) (v : Word) (c : Chip) : (c.writeRecord t i w v).lue = c.lue := rfl
@[simp] theorem Chip.writeRecord_toe (t : Table) (i w : Nat) (v : Word) (c : Chip) : (c.writeRecord t i w v).toe = c.toe := rfl
@[simp] theorem Chip.writeRecord_slm (t : Table) (i w : Nat) (v : Word) (c : Chip) : (c.writeRecord t i w v).slm = c.slm := rfl
@[simp] theorem Chip.writeRecord_swe (t : Table) (i w : Nat) (v : Word) (c : Chip) : (c.writeRecord t i w v).swe = c.swe := rfl
@[simp] theorem Chip.writeRecord_pcu (t : Table) (i w : Nat) (v : Word) (c : Chip) : (c.writeRecord t i w v).pcu = c.pcu := rfl
@[simp] theorem Chip.writeRecord_clu (t : Table) (i w : Nat) (v : Word) (c : Chip) : (c.writeRecord t i w v).clu = c.clu := rfl
@[simp] theorem Chip.writeRecord_rpu (t : Table) (i w : Nat) (v : Word) (c : Chip) : (c.writeRecord t i w v).rpu = c.rpu := rfl
@[simp] theorem Chip.writeRecord_routeLink (t : Table) (i w : Nat) (v : Word) (c : Chip) : (c.writeRecord t i w v).routeLink = c.routeLink := rfl
@[simp] theorem Chip.writeRecord_tapLink (t : Table) (i w : Nat) (v : Word) (c : Chip) : (c.writeRecord t i w v).tapLink = c.tapLink := rfl

/-! ### writeStation -/

@[simp] theorem Chip.writeStation_resetLow (n : Nat) (v : Word) (c : Chip) : (c.writeStation n v).resetLow = c.resetLow := rfl
@[simp] theorem Chip.writeStation_lines (n : Nat) (v : Word) (c : Chip) : (c.writeStation n v).lines = c.lines := rfl
@[simp] theorem Chip.writeStation_portA (n : Nat) (v : Word) (c : Chip) : (c.writeStation n v).portA = c.portA := rfl
@[simp] theorem Chip.writeStation_portB (n : Nat) (v : Word) (c : Chip) : (c.writeStation n v).portB = c.portB := rfl
@[simp] theorem Chip.writeStation_par (n : Nat) (v : Word) (c : Chip) : (c.writeStation n v).par = c.par := rfl
@[simp] theorem Chip.writeStation_map (n : Nat) (v : Word) (c : Chip) : (c.writeStation n v).map = c.map := rfl
@[simp] theorem Chip.writeStation_lcc (n : Nat) (v : Word) (c : Chip) : (c.writeStation n v).lcc = c.lcc := rfl
@[simp] theorem Chip.writeStation_settings (n : Nat) (v : Word) (c : Chip) : (c.writeStation n v).settings = c.settings := rfl
@[simp] theorem Chip.writeStation_tbu (n : Nat) (v : Word) (c : Chip) : (c.writeStation n v).tbu = c.tbu := rfl
@[simp] theorem Chip.writeStation_lue (n : Nat) (v : Word) (c : Chip) : (c.writeStation n v).lue = c.lue := rfl
@[simp] theorem Chip.writeStation_toe (n : Nat) (v : Word) (c : Chip) : (c.writeStation n v).toe = c.toe := rfl
@[simp] theorem Chip.writeStation_slm (n : Nat) (v : Word) (c : Chip) : (c.writeStation n v).slm = c.slm := rfl
@[simp] theorem Chip.writeStation_swe (n : Nat) (v : Word) (c : Chip) : (c.writeStation n v).swe = c.swe := rfl
@[simp] theorem Chip.writeStation_pcu (n : Nat) (v : Word) (c : Chip) : (c.writeStation n v).pcu = c.pcu := rfl
@[simp] theorem Chip.writeStation_clu (n : Nat) (v : Word) (c : Chip) : (c.writeStation n v).clu = c.clu := rfl
@[simp] theorem Chip.writeStation_rpu (n : Nat) (v : Word) (c : Chip) : (c.writeStation n v).rpu = c.rpu := rfl
@[simp] theorem Chip.writeStation_routeLink (n : Nat) (v : Word) (c : Chip) : (c.writeStation n v).routeLink = c.routeLink := rfl
@[simp] theorem Chip.writeStation_tapLink (n : Nat) (v : Word) (c : Chip) : (c.writeStation n v).tapLink = c.tapLink := rfl

/-! ### owe -/

@[simp] theorem Chip.owe_resetLow (o : Owed) (c : Chip) : (c.owe o).resetLow = c.resetLow := rfl
@[simp] theorem Chip.owe_lines (o : Owed) (c : Chip) : (c.owe o).lines = c.lines := rfl
@[simp] theorem Chip.owe_portA (o : Owed) (c : Chip) : (c.owe o).portA = c.portA := rfl
@[simp] theorem Chip.owe_portB (o : Owed) (c : Chip) : (c.owe o).portB = c.portB := rfl
@[simp] theorem Chip.owe_par (o : Owed) (c : Chip) : (c.owe o).par = c.par := rfl
@[simp] theorem Chip.owe_map (o : Owed) (c : Chip) : (c.owe o).map = c.map := rfl
@[simp] theorem Chip.owe_lcc (o : Owed) (c : Chip) : (c.owe o).lcc = c.lcc := rfl
@[simp] theorem Chip.owe_settings (o : Owed) (c : Chip) : (c.owe o).settings = c.settings := rfl
@[simp] theorem Chip.owe_tbu (o : Owed) (c : Chip) : (c.owe o).tbu = c.tbu := rfl
@[simp] theorem Chip.owe_lue (o : Owed) (c : Chip) : (c.owe o).lue = c.lue := rfl
@[simp] theorem Chip.owe_toe (o : Owed) (c : Chip) : (c.owe o).toe = c.toe := rfl
@[simp] theorem Chip.owe_slm (o : Owed) (c : Chip) : (c.owe o).slm = c.slm := rfl
@[simp] theorem Chip.owe_swe (o : Owed) (c : Chip) : (c.owe o).swe = c.swe := rfl
@[simp] theorem Chip.owe_pcu (o : Owed) (c : Chip) : (c.owe o).pcu = c.pcu := rfl
@[simp] theorem Chip.owe_clu (o : Owed) (c : Chip) : (c.owe o).clu = c.clu := rfl
@[simp] theorem Chip.owe_rpu (o : Owed) (c : Chip) : (c.owe o).rpu = c.rpu := rfl
@[simp] theorem Chip.owe_routeLink (o : Owed) (c : Chip) : (c.owe o).routeLink = c.routeLink := rfl
@[simp] theorem Chip.owe_tapLink (o : Owed) (c : Chip) : (c.owe o).tapLink = c.tapLink := rfl

/-! ### markStatus -/

@[simp] theorem Chip.markStatus_resetLow (c : Chip) : (c.markStatus).resetLow = c.resetLow := rfl
@[simp] theorem Chip.markStatus_lines (c : Chip) : (c.markStatus).lines = c.lines := rfl
@[simp] theorem Chip.markStatus_portA (c : Chip) : (c.markStatus).portA = c.portA := rfl
@[simp] theorem Chip.markStatus_portB (c : Chip) : (c.markStatus).portB = c.portB := rfl
@[simp] theorem Chip.markStatus_par (c : Chip) : (c.markStatus).par = c.par := rfl
@[simp] theorem Chip.markStatus_tau (c : Chip) : (c.markStatus).tau = c.tau := rfl
@[simp] theorem Chip.markStatus_map (c : Chip) : (c.markStatus).map = c.map := rfl
@[simp] theorem Chip.markStatus_lcc (c : Chip) : (c.markStatus).lcc = c.lcc := rfl
@[simp] theorem Chip.markStatus_settings (c : Chip) : (c.markStatus).settings = c.settings := rfl
@[simp] theorem Chip.markStatus_tbu (c : Chip) : (c.markStatus).tbu = c.tbu := rfl
@[simp] theorem Chip.markStatus_lue (c : Chip) : (c.markStatus).lue = c.lue := rfl
@[simp] theorem Chip.markStatus_toe (c : Chip) : (c.markStatus).toe = c.toe := rfl
@[simp] theorem Chip.markStatus_slm (c : Chip) : (c.markStatus).slm = c.slm := rfl
@[simp] theorem Chip.markStatus_swe (c : Chip) : (c.markStatus).swe = c.swe := rfl
@[simp] theorem Chip.markStatus_pcu (c : Chip) : (c.markStatus).pcu = c.pcu := rfl
@[simp] theorem Chip.markStatus_clu (c : Chip) : (c.markStatus).clu = c.clu := rfl
@[simp] theorem Chip.markStatus_routeLink (c : Chip) : (c.markStatus).routeLink = c.routeLink := rfl
@[simp] theorem Chip.markStatus_tapLink (c : Chip) : (c.markStatus).tapLink = c.tapLink := rfl

/-! ### raise -/

@[simp] theorem Chip.raise_resetLow (k : Cause) (c : Chip) : (c.raise k).resetLow = c.resetLow := rfl
@[simp] theorem Chip.raise_lines (k : Cause) (c : Chip) : (c.raise k).lines = c.lines := rfl
@[simp] theorem Chip.raise_portA (k : Cause) (c : Chip) : (c.raise k).portA = c.portA := rfl
@[simp] theorem Chip.raise_portB (k : Cause) (c : Chip) : (c.raise k).portB = c.portB := rfl
@[simp] theorem Chip.raise_par (k : Cause) (c : Chip) : (c.raise k).par = c.par := rfl
@[simp] theorem Chip.raise_tau (k : Cause) (c : Chip) : (c.raise k).tau = c.tau := rfl
@[simp] theorem Chip.raise_map (k : Cause) (c : Chip) : (c.raise k).map = c.map := rfl
@[simp] theorem Chip.raise_lcc (k : Cause) (c : Chip) : (c.raise k).lcc = c.lcc := rfl
@[simp] theorem Chip.raise_settings (k : Cause) (c : Chip) : (c.raise k).settings = c.settings := rfl
@[simp] theorem Chip.raise_tbu (k : Cause) (c : Chip) : (c.raise k).tbu = c.tbu := rfl
@[simp] theorem Chip.raise_lue (k : Cause) (c : Chip) : (c.raise k).lue = c.lue := rfl
@[simp] theorem Chip.raise_toe (k : Cause) (c : Chip) : (c.raise k).toe = c.toe := rfl
@[simp] theorem Chip.raise_slm (k : Cause) (c : Chip) : (c.raise k).slm = c.slm := rfl
@[simp] theorem Chip.raise_swe (k : Cause) (c : Chip) : (c.raise k).swe = c.swe := rfl
@[simp] theorem Chip.raise_pcu (k : Cause) (c : Chip) : (c.raise k).pcu = c.pcu := rfl
@[simp] theorem Chip.raise_clu (k : Cause) (c : Chip) : (c.raise k).clu = c.clu := rfl
@[simp] theorem Chip.raise_routeLink (k : Cause) (c : Chip) : (c.raise k).routeLink = c.routeLink := rfl
@[simp] theorem Chip.raise_tapLink (k : Cause) (c : Chip) : (c.raise k).tapLink = c.tapLink := rfl

/-! ### count -/

@[simp] theorem Chip.count_resetLow (k : Counter) (c : Chip) : (c.count k).resetLow = c.resetLow := rfl
@[simp] theorem Chip.count_lines (k : Counter) (c : Chip) : (c.count k).lines = c.lines := rfl
@[simp] theorem Chip.count_portA (k : Counter) (c : Chip) : (c.count k).portA = c.portA := rfl
@[simp] theorem Chip.count_portB (k : Counter) (c : Chip) : (c.count k).portB = c.portB := rfl
@[simp] theorem Chip.count_par (k : Counter) (c : Chip) : (c.count k).par = c.par := rfl
@[simp] theorem Chip.count_tau (k : Counter) (c : Chip) : (c.count k).tau = c.tau := rfl
@[simp] theorem Chip.count_map (k : Counter) (c : Chip) : (c.count k).map = c.map := rfl
@[simp] theorem Chip.count_lcc (k : Counter) (c : Chip) : (c.count k).lcc = c.lcc := rfl
@[simp] theorem Chip.count_settings (k : Counter) (c : Chip) : (c.count k).settings = c.settings := rfl
@[simp] theorem Chip.count_tbu (k : Counter) (c : Chip) : (c.count k).tbu = c.tbu := rfl
@[simp] theorem Chip.count_lue (k : Counter) (c : Chip) : (c.count k).lue = c.lue := rfl
@[simp] theorem Chip.count_toe (k : Counter) (c : Chip) : (c.count k).toe = c.toe := rfl
@[simp] theorem Chip.count_slm (k : Counter) (c : Chip) : (c.count k).slm = c.slm := rfl
@[simp] theorem Chip.count_swe (k : Counter) (c : Chip) : (c.count k).swe = c.swe := rfl
@[simp] theorem Chip.count_pcu (k : Counter) (c : Chip) : (c.count k).pcu = c.pcu := rfl
@[simp] theorem Chip.count_clu (k : Counter) (c : Chip) : (c.count k).clu = c.clu := rfl
@[simp] theorem Chip.count_routeLink (k : Counter) (c : Chip) : (c.count k).routeLink = c.routeLink := rfl
@[simp] theorem Chip.count_tapLink (k : Counter) (c : Chip) : (c.count k).tapLink = c.tapLink := rfl

/-! ### noteRefusal -/

@[simp] theorem Chip.noteRefusal_resetLow (k : RefusalKind) (p : Port) (a : Addr) (c : Chip) : (c.noteRefusal k p a).resetLow = c.resetLow := rfl
@[simp] theorem Chip.noteRefusal_lines (k : RefusalKind) (p : Port) (a : Addr) (c : Chip) : (c.noteRefusal k p a).lines = c.lines := rfl
@[simp] theorem Chip.noteRefusal_portA (k : RefusalKind) (p : Port) (a : Addr) (c : Chip) : (c.noteRefusal k p a).portA = c.portA := rfl
@[simp] theorem Chip.noteRefusal_portB (k : RefusalKind) (p : Port) (a : Addr) (c : Chip) : (c.noteRefusal k p a).portB = c.portB := rfl
@[simp] theorem Chip.noteRefusal_par (k : RefusalKind) (p : Port) (a : Addr) (c : Chip) : (c.noteRefusal k p a).par = c.par := rfl
@[simp] theorem Chip.noteRefusal_tau (k : RefusalKind) (p : Port) (a : Addr) (c : Chip) : (c.noteRefusal k p a).tau = c.tau := rfl
@[simp] theorem Chip.noteRefusal_map (k : RefusalKind) (p : Port) (a : Addr) (c : Chip) : (c.noteRefusal k p a).map = c.map := rfl
@[simp] theorem Chip.noteRefusal_lcc (k : RefusalKind) (p : Port) (a : Addr) (c : Chip) : (c.noteRefusal k p a).lcc = c.lcc := rfl
@[simp] theorem Chip.noteRefusal_settings (k : RefusalKind) (p : Port) (a : Addr) (c : Chip) : (c.noteRefusal k p a).settings = c.settings := rfl
@[simp] theorem Chip.noteRefusal_tbu (k : RefusalKind) (p : Port) (a : Addr) (c : Chip) : (c.noteRefusal k p a).tbu = c.tbu := rfl
@[simp] theorem Chip.noteRefusal_lue (k : RefusalKind) (p : Port) (a : Addr) (c : Chip) : (c.noteRefusal k p a).lue = c.lue := rfl
@[simp] theorem Chip.noteRefusal_toe (k : RefusalKind) (p : Port) (a : Addr) (c : Chip) : (c.noteRefusal k p a).toe = c.toe := rfl
@[simp] theorem Chip.noteRefusal_slm (k : RefusalKind) (p : Port) (a : Addr) (c : Chip) : (c.noteRefusal k p a).slm = c.slm := rfl
@[simp] theorem Chip.noteRefusal_swe (k : RefusalKind) (p : Port) (a : Addr) (c : Chip) : (c.noteRefusal k p a).swe = c.swe := rfl
@[simp] theorem Chip.noteRefusal_pcu (k : RefusalKind) (p : Port) (a : Addr) (c : Chip) : (c.noteRefusal k p a).pcu = c.pcu := rfl
@[simp] theorem Chip.noteRefusal_clu (k : RefusalKind) (p : Port) (a : Addr) (c : Chip) : (c.noteRefusal k p a).clu = c.clu := rfl
@[simp] theorem Chip.noteRefusal_routeLink (k : RefusalKind) (p : Port) (a : Addr) (c : Chip) : (c.noteRefusal k p a).routeLink = c.routeLink := rfl
@[simp] theorem Chip.noteRefusal_tapLink (k : RefusalKind) (p : Port) (a : Addr) (c : Chip) : (c.noteRefusal k p a).tapLink = c.tapLink := rfl

/-! ### reserve -/

@[simp] theorem Chip.reserve_resetLow (c : Chip) : (c.reserve).resetLow = c.resetLow := rfl
@[simp] theorem Chip.reserve_lines (c : Chip) : (c.reserve).lines = c.lines := rfl
@[simp] theorem Chip.reserve_portA (c : Chip) : (c.reserve).portA = c.portA := rfl
@[simp] theorem Chip.reserve_portB (c : Chip) : (c.reserve).portB = c.portB := rfl
@[simp] theorem Chip.reserve_par (c : Chip) : (c.reserve).par = c.par := rfl
@[simp] theorem Chip.reserve_tau (c : Chip) : (c.reserve).tau = c.tau := rfl
@[simp] theorem Chip.reserve_map (c : Chip) : (c.reserve).map = c.map := rfl
@[simp] theorem Chip.reserve_lcc (c : Chip) : (c.reserve).lcc = c.lcc := rfl
@[simp] theorem Chip.reserve_settings (c : Chip) : (c.reserve).settings = c.settings := rfl
@[simp] theorem Chip.reserve_tbu (c : Chip) : (c.reserve).tbu = c.tbu := rfl
@[simp] theorem Chip.reserve_lue (c : Chip) : (c.reserve).lue = c.lue := rfl
@[simp] theorem Chip.reserve_toe (c : Chip) : (c.reserve).toe = c.toe := rfl
@[simp] theorem Chip.reserve_slm (c : Chip) : (c.reserve).slm = c.slm := rfl
@[simp] theorem Chip.reserve_swe (c : Chip) : (c.reserve).swe = c.swe := rfl
@[simp] theorem Chip.reserve_pcu (c : Chip) : (c.reserve).pcu = c.pcu := rfl
@[simp] theorem Chip.reserve_rpu (c : Chip) : (c.reserve).rpu = c.rpu := rfl
@[simp] theorem Chip.reserve_routeLink (c : Chip) : (c.reserve).routeLink = c.routeLink := rfl
@[simp] theorem Chip.reserve_tapLink (c : Chip) : (c.reserve).tapLink = c.tapLink := rfl

/-! ### unreserve -/

@[simp] theorem Chip.unreserve_resetLow (c : Chip) : (c.unreserve).resetLow = c.resetLow := rfl
@[simp] theorem Chip.unreserve_lines (c : Chip) : (c.unreserve).lines = c.lines := rfl
@[simp] theorem Chip.unreserve_portA (c : Chip) : (c.unreserve).portA = c.portA := rfl
@[simp] theorem Chip.unreserve_portB (c : Chip) : (c.unreserve).portB = c.portB := rfl
@[simp] theorem Chip.unreserve_par (c : Chip) : (c.unreserve).par = c.par := rfl
@[simp] theorem Chip.unreserve_tau (c : Chip) : (c.unreserve).tau = c.tau := rfl
@[simp] theorem Chip.unreserve_map (c : Chip) : (c.unreserve).map = c.map := rfl
@[simp] theorem Chip.unreserve_lcc (c : Chip) : (c.unreserve).lcc = c.lcc := rfl
@[simp] theorem Chip.unreserve_settings (c : Chip) : (c.unreserve).settings = c.settings := rfl
@[simp] theorem Chip.unreserve_tbu (c : Chip) : (c.unreserve).tbu = c.tbu := rfl
@[simp] theorem Chip.unreserve_lue (c : Chip) : (c.unreserve).lue = c.lue := rfl
@[simp] theorem Chip.unreserve_toe (c : Chip) : (c.unreserve).toe = c.toe := rfl
@[simp] theorem Chip.unreserve_slm (c : Chip) : (c.unreserve).slm = c.slm := rfl
@[simp] theorem Chip.unreserve_swe (c : Chip) : (c.unreserve).swe = c.swe := rfl
@[simp] theorem Chip.unreserve_pcu (c : Chip) : (c.unreserve).pcu = c.pcu := rfl
@[simp] theorem Chip.unreserve_rpu (c : Chip) : (c.unreserve).rpu = c.rpu := rfl
@[simp] theorem Chip.unreserve_routeLink (c : Chip) : (c.unreserve).routeLink = c.routeLink := rfl
@[simp] theorem Chip.unreserve_tapLink (c : Chip) : (c.unreserve).tapLink = c.tapLink := rfl

/-! ### withRouteReceiver -/

@[simp] theorem Chip.withRouteReceiver_resetLow (r : Receiver) (c : Chip) : (c.withRouteReceiver r).resetLow = c.resetLow := rfl
@[simp] theorem Chip.withRouteReceiver_lines (r : Receiver) (c : Chip) : (c.withRouteReceiver r).lines = c.lines := rfl
@[simp] theorem Chip.withRouteReceiver_portA (r : Receiver) (c : Chip) : (c.withRouteReceiver r).portA = c.portA := rfl
@[simp] theorem Chip.withRouteReceiver_portB (r : Receiver) (c : Chip) : (c.withRouteReceiver r).portB = c.portB := rfl
@[simp] theorem Chip.withRouteReceiver_par (r : Receiver) (c : Chip) : (c.withRouteReceiver r).par = c.par := rfl
@[simp] theorem Chip.withRouteReceiver_tau (r : Receiver) (c : Chip) : (c.withRouteReceiver r).tau = c.tau := rfl
@[simp] theorem Chip.withRouteReceiver_map (r : Receiver) (c : Chip) : (c.withRouteReceiver r).map = c.map := rfl
@[simp] theorem Chip.withRouteReceiver_lcc (r : Receiver) (c : Chip) : (c.withRouteReceiver r).lcc = c.lcc := rfl
@[simp] theorem Chip.withRouteReceiver_settings (r : Receiver) (c : Chip) : (c.withRouteReceiver r).settings = c.settings := rfl
@[simp] theorem Chip.withRouteReceiver_tbu (r : Receiver) (c : Chip) : (c.withRouteReceiver r).tbu = c.tbu := rfl
@[simp] theorem Chip.withRouteReceiver_lue (r : Receiver) (c : Chip) : (c.withRouteReceiver r).lue = c.lue := rfl
@[simp] theorem Chip.withRouteReceiver_toe (r : Receiver) (c : Chip) : (c.withRouteReceiver r).toe = c.toe := rfl
@[simp] theorem Chip.withRouteReceiver_slm (r : Receiver) (c : Chip) : (c.withRouteReceiver r).slm = c.slm := rfl
@[simp] theorem Chip.withRouteReceiver_swe (r : Receiver) (c : Chip) : (c.withRouteReceiver r).swe = c.swe := rfl
@[simp] theorem Chip.withRouteReceiver_pcu (r : Receiver) (c : Chip) : (c.withRouteReceiver r).pcu = c.pcu := rfl
@[simp] theorem Chip.withRouteReceiver_clu (r : Receiver) (c : Chip) : (c.withRouteReceiver r).clu = c.clu := rfl
@[simp] theorem Chip.withRouteReceiver_rpu (r : Receiver) (c : Chip) : (c.withRouteReceiver r).rpu = c.rpu := rfl
@[simp] theorem Chip.withRouteReceiver_tapLink (r : Receiver) (c : Chip) : (c.withRouteReceiver r).tapLink = c.tapLink := rfl

/-! ### withTapReceiver -/

@[simp] theorem Chip.withTapReceiver_resetLow (r : Receiver) (c : Chip) : (c.withTapReceiver r).resetLow = c.resetLow := rfl
@[simp] theorem Chip.withTapReceiver_lines (r : Receiver) (c : Chip) : (c.withTapReceiver r).lines = c.lines := rfl
@[simp] theorem Chip.withTapReceiver_portA (r : Receiver) (c : Chip) : (c.withTapReceiver r).portA = c.portA := rfl
@[simp] theorem Chip.withTapReceiver_portB (r : Receiver) (c : Chip) : (c.withTapReceiver r).portB = c.portB := rfl
@[simp] theorem Chip.withTapReceiver_par (r : Receiver) (c : Chip) : (c.withTapReceiver r).par = c.par := rfl
@[simp] theorem Chip.withTapReceiver_tau (r : Receiver) (c : Chip) : (c.withTapReceiver r).tau = c.tau := rfl
@[simp] theorem Chip.withTapReceiver_map (r : Receiver) (c : Chip) : (c.withTapReceiver r).map = c.map := rfl
@[simp] theorem Chip.withTapReceiver_lcc (r : Receiver) (c : Chip) : (c.withTapReceiver r).lcc = c.lcc := rfl
@[simp] theorem Chip.withTapReceiver_settings (r : Receiver) (c : Chip) : (c.withTapReceiver r).settings = c.settings := rfl
@[simp] theorem Chip.withTapReceiver_tbu (r : Receiver) (c : Chip) : (c.withTapReceiver r).tbu = c.tbu := rfl
@[simp] theorem Chip.withTapReceiver_lue (r : Receiver) (c : Chip) : (c.withTapReceiver r).lue = c.lue := rfl
@[simp] theorem Chip.withTapReceiver_toe (r : Receiver) (c : Chip) : (c.withTapReceiver r).toe = c.toe := rfl
@[simp] theorem Chip.withTapReceiver_slm (r : Receiver) (c : Chip) : (c.withTapReceiver r).slm = c.slm := rfl
@[simp] theorem Chip.withTapReceiver_swe (r : Receiver) (c : Chip) : (c.withTapReceiver r).swe = c.swe := rfl
@[simp] theorem Chip.withTapReceiver_pcu (r : Receiver) (c : Chip) : (c.withTapReceiver r).pcu = c.pcu := rfl
@[simp] theorem Chip.withTapReceiver_clu (r : Receiver) (c : Chip) : (c.withTapReceiver r).clu = c.clu := rfl
@[simp] theorem Chip.withTapReceiver_rpu (r : Receiver) (c : Chip) : (c.withTapReceiver r).rpu = c.rpu := rfl
@[simp] theorem Chip.withTapReceiver_routeLink (r : Receiver) (c : Chip) : (c.withTapReceiver r).routeLink = c.routeLink := rfl

/-! ### sendRoute -/

@[simp] theorem Chip.sendRoute_resetLow (i : Nat) (x : BitVec 7) (t : BitVec 3) (c : Chip) : (c.sendRoute i x t).resetLow = c.resetLow := rfl
@[simp] theorem Chip.sendRoute_lines (i : Nat) (x : BitVec 7) (t : BitVec 3) (c : Chip) : (c.sendRoute i x t).lines = c.lines := rfl
@[simp] theorem Chip.sendRoute_portA (i : Nat) (x : BitVec 7) (t : BitVec 3) (c : Chip) : (c.sendRoute i x t).portA = c.portA := rfl
@[simp] theorem Chip.sendRoute_portB (i : Nat) (x : BitVec 7) (t : BitVec 3) (c : Chip) : (c.sendRoute i x t).portB = c.portB := rfl
@[simp] theorem Chip.sendRoute_par (i : Nat) (x : BitVec 7) (t : BitVec 3) (c : Chip) : (c.sendRoute i x t).par = c.par := rfl
@[simp] theorem Chip.sendRoute_tau (i : Nat) (x : BitVec 7) (t : BitVec 3) (c : Chip) : (c.sendRoute i x t).tau = c.tau := rfl
@[simp] theorem Chip.sendRoute_map (i : Nat) (x : BitVec 7) (t : BitVec 3) (c : Chip) : (c.sendRoute i x t).map = c.map := rfl
@[simp] theorem Chip.sendRoute_lcc (i : Nat) (x : BitVec 7) (t : BitVec 3) (c : Chip) : (c.sendRoute i x t).lcc = c.lcc := rfl
@[simp] theorem Chip.sendRoute_settings (i : Nat) (x : BitVec 7) (t : BitVec 3) (c : Chip) : (c.sendRoute i x t).settings = c.settings := rfl
@[simp] theorem Chip.sendRoute_tbu (i : Nat) (x : BitVec 7) (t : BitVec 3) (c : Chip) : (c.sendRoute i x t).tbu = c.tbu := rfl
@[simp] theorem Chip.sendRoute_lue (i : Nat) (x : BitVec 7) (t : BitVec 3) (c : Chip) : (c.sendRoute i x t).lue = c.lue := rfl
@[simp] theorem Chip.sendRoute_toe (i : Nat) (x : BitVec 7) (t : BitVec 3) (c : Chip) : (c.sendRoute i x t).toe = c.toe := rfl
@[simp] theorem Chip.sendRoute_slm (i : Nat) (x : BitVec 7) (t : BitVec 3) (c : Chip) : (c.sendRoute i x t).slm = c.slm := rfl
@[simp] theorem Chip.sendRoute_swe (i : Nat) (x : BitVec 7) (t : BitVec 3) (c : Chip) : (c.sendRoute i x t).swe = c.swe := rfl
@[simp] theorem Chip.sendRoute_pcu (i : Nat) (x : BitVec 7) (t : BitVec 3) (c : Chip) : (c.sendRoute i x t).pcu = c.pcu := rfl
@[simp] theorem Chip.sendRoute_clu (i : Nat) (x : BitVec 7) (t : BitVec 3) (c : Chip) : (c.sendRoute i x t).clu = c.clu := rfl
@[simp] theorem Chip.sendRoute_rpu (i : Nat) (x : BitVec 7) (t : BitVec 3) (c : Chip) : (c.sendRoute i x t).rpu = c.rpu := rfl
@[simp] theorem Chip.sendRoute_tapLink (i : Nat) (x : BitVec 7) (t : BitVec 3) (c : Chip) : (c.sendRoute i x t).tapLink = c.tapLink := rfl

/-! ### sendTap -/

@[simp] theorem Chip.sendTap_resetLow (f : Flight) (c : Chip) : (c.sendTap f).resetLow = c.resetLow := rfl
@[simp] theorem Chip.sendTap_lines (f : Flight) (c : Chip) : (c.sendTap f).lines = c.lines := rfl
@[simp] theorem Chip.sendTap_portA (f : Flight) (c : Chip) : (c.sendTap f).portA = c.portA := rfl
@[simp] theorem Chip.sendTap_portB (f : Flight) (c : Chip) : (c.sendTap f).portB = c.portB := rfl
@[simp] theorem Chip.sendTap_par (f : Flight) (c : Chip) : (c.sendTap f).par = c.par := rfl
@[simp] theorem Chip.sendTap_tau (f : Flight) (c : Chip) : (c.sendTap f).tau = c.tau := rfl
@[simp] theorem Chip.sendTap_map (f : Flight) (c : Chip) : (c.sendTap f).map = c.map := rfl
@[simp] theorem Chip.sendTap_lcc (f : Flight) (c : Chip) : (c.sendTap f).lcc = c.lcc := rfl
@[simp] theorem Chip.sendTap_settings (f : Flight) (c : Chip) : (c.sendTap f).settings = c.settings := rfl
@[simp] theorem Chip.sendTap_tbu (f : Flight) (c : Chip) : (c.sendTap f).tbu = c.tbu := rfl
@[simp] theorem Chip.sendTap_lue (f : Flight) (c : Chip) : (c.sendTap f).lue = c.lue := rfl
@[simp] theorem Chip.sendTap_toe (f : Flight) (c : Chip) : (c.sendTap f).toe = c.toe := rfl
@[simp] theorem Chip.sendTap_slm (f : Flight) (c : Chip) : (c.sendTap f).slm = c.slm := rfl
@[simp] theorem Chip.sendTap_swe (f : Flight) (c : Chip) : (c.sendTap f).swe = c.swe := rfl
@[simp] theorem Chip.sendTap_pcu (f : Flight) (c : Chip) : (c.sendTap f).pcu = c.pcu := rfl
@[simp] theorem Chip.sendTap_clu (f : Flight) (c : Chip) : (c.sendTap f).clu = c.clu := rfl
@[simp] theorem Chip.sendTap_rpu (f : Flight) (c : Chip) : (c.sendTap f).rpu = c.rpu := rfl
@[simp] theorem Chip.sendTap_routeLink (f : Flight) (c : Chip) : (c.sendTap f).routeLink = c.routeLink := rfl

/-! ### setPhase -/

@[simp] theorem Chip.setPhase_resetLow (i : Nat) (p : Phase) (c : Chip) : (c.setPhase i p).resetLow = c.resetLow := rfl
@[simp] theorem Chip.setPhase_lines (i : Nat) (p : Phase) (c : Chip) : (c.setPhase i p).lines = c.lines := rfl
@[simp] theorem Chip.setPhase_portA (i : Nat) (p : Phase) (c : Chip) : (c.setPhase i p).portA = c.portA := rfl
@[simp] theorem Chip.setPhase_portB (i : Nat) (p : Phase) (c : Chip) : (c.setPhase i p).portB = c.portB := rfl
@[simp] theorem Chip.setPhase_par (i : Nat) (p : Phase) (c : Chip) : (c.setPhase i p).par = c.par := rfl
@[simp] theorem Chip.setPhase_tau (i : Nat) (p : Phase) (c : Chip) : (c.setPhase i p).tau = c.tau := rfl
@[simp] theorem Chip.setPhase_map (i : Nat) (p : Phase) (c : Chip) : (c.setPhase i p).map = c.map := rfl
@[simp] theorem Chip.setPhase_lcc (i : Nat) (p : Phase) (c : Chip) : (c.setPhase i p).lcc = c.lcc := rfl
@[simp] theorem Chip.setPhase_settings (i : Nat) (p : Phase) (c : Chip) : (c.setPhase i p).settings = c.settings := rfl
@[simp] theorem Chip.setPhase_tbu (i : Nat) (p : Phase) (c : Chip) : (c.setPhase i p).tbu = c.tbu := rfl
@[simp] theorem Chip.setPhase_toe (i : Nat) (p : Phase) (c : Chip) : (c.setPhase i p).toe = c.toe := rfl
@[simp] theorem Chip.setPhase_slm (i : Nat) (p : Phase) (c : Chip) : (c.setPhase i p).slm = c.slm := rfl
@[simp] theorem Chip.setPhase_swe (i : Nat) (p : Phase) (c : Chip) : (c.setPhase i p).swe = c.swe := rfl
@[simp] theorem Chip.setPhase_pcu (i : Nat) (p : Phase) (c : Chip) : (c.setPhase i p).pcu = c.pcu := rfl
@[simp] theorem Chip.setPhase_clu (i : Nat) (p : Phase) (c : Chip) : (c.setPhase i p).clu = c.clu := rfl
@[simp] theorem Chip.setPhase_rpu (i : Nat) (p : Phase) (c : Chip) : (c.setPhase i p).rpu = c.rpu := rfl
@[simp] theorem Chip.setPhase_routeLink (i : Nat) (p : Phase) (c : Chip) : (c.setPhase i p).routeLink = c.routeLink := rfl
@[simp] theorem Chip.setPhase_tapLink (i : Nat) (p : Phase) (c : Chip) : (c.setPhase i p).tapLink = c.tapLink := rfl

/-! ### decideEnding -/

@[simp] theorem Chip.decideEnding_resetLow (n : Nat) (e : Ending) (c : Chip) : (c.decideEnding n e).resetLow = c.resetLow := rfl
@[simp] theorem Chip.decideEnding_lines (n : Nat) (e : Ending) (c : Chip) : (c.decideEnding n e).lines = c.lines := rfl
@[simp] theorem Chip.decideEnding_portA (n : Nat) (e : Ending) (c : Chip) : (c.decideEnding n e).portA = c.portA := rfl
@[simp] theorem Chip.decideEnding_portB (n : Nat) (e : Ending) (c : Chip) : (c.decideEnding n e).portB = c.portB := rfl
@[simp] theorem Chip.decideEnding_par (n : Nat) (e : Ending) (c : Chip) : (c.decideEnding n e).par = c.par := rfl
@[simp] theorem Chip.decideEnding_tau (n : Nat) (e : Ending) (c : Chip) : (c.decideEnding n e).tau = c.tau := rfl
@[simp] theorem Chip.decideEnding_map (n : Nat) (e : Ending) (c : Chip) : (c.decideEnding n e).map = c.map := rfl
@[simp] theorem Chip.decideEnding_lcc (n : Nat) (e : Ending) (c : Chip) : (c.decideEnding n e).lcc = c.lcc := rfl
@[simp] theorem Chip.decideEnding_settings (n : Nat) (e : Ending) (c : Chip) : (c.decideEnding n e).settings = c.settings := rfl
@[simp] theorem Chip.decideEnding_tbu (n : Nat) (e : Ending) (c : Chip) : (c.decideEnding n e).tbu = c.tbu := rfl
@[simp] theorem Chip.decideEnding_lue (n : Nat) (e : Ending) (c : Chip) : (c.decideEnding n e).lue = c.lue := rfl
@[simp] theorem Chip.decideEnding_slm (n : Nat) (e : Ending) (c : Chip) : (c.decideEnding n e).slm = c.slm := rfl
@[simp] theorem Chip.decideEnding_swe (n : Nat) (e : Ending) (c : Chip) : (c.decideEnding n e).swe = c.swe := rfl
@[simp] theorem Chip.decideEnding_pcu (n : Nat) (e : Ending) (c : Chip) : (c.decideEnding n e).pcu = c.pcu := rfl
@[simp] theorem Chip.decideEnding_clu (n : Nat) (e : Ending) (c : Chip) : (c.decideEnding n e).clu = c.clu := rfl
@[simp] theorem Chip.decideEnding_rpu (n : Nat) (e : Ending) (c : Chip) : (c.decideEnding n e).rpu = c.rpu := rfl
@[simp] theorem Chip.decideEnding_routeLink (n : Nat) (e : Ending) (c : Chip) : (c.decideEnding n e).routeLink = c.routeLink := rfl
@[simp] theorem Chip.decideEnding_tapLink (n : Nat) (e : Ending) (c : Chip) : (c.decideEnding n e).tapLink = c.tapLink := rfl

/-! ### passTime -/

@[simp] theorem Chip.passTime_resetLow (c : Chip) : (c.passTime).resetLow = c.resetLow := rfl
@[simp] theorem Chip.passTime_lines (c : Chip) : (c.passTime).lines = c.lines := rfl
@[simp] theorem Chip.passTime_portA (c : Chip) : (c.passTime).portA = c.portA := rfl
@[simp] theorem Chip.passTime_portB (c : Chip) : (c.passTime).portB = c.portB := rfl
@[simp] theorem Chip.passTime_par (c : Chip) : (c.passTime).par = c.par := rfl
@[simp] theorem Chip.passTime_tau (c : Chip) : (c.passTime).tau = c.tau := rfl
@[simp] theorem Chip.passTime_map (c : Chip) : (c.passTime).map = c.map := rfl
@[simp] theorem Chip.passTime_lcc (c : Chip) : (c.passTime).lcc = c.lcc := rfl
@[simp] theorem Chip.passTime_settings (c : Chip) : (c.passTime).settings = c.settings := rfl
@[simp] theorem Chip.passTime_lue (c : Chip) : (c.passTime).lue = c.lue := rfl
@[simp] theorem Chip.passTime_toe (c : Chip) : (c.passTime).toe = c.toe := rfl
@[simp] theorem Chip.passTime_swe (c : Chip) : (c.passTime).swe = c.swe := rfl
@[simp] theorem Chip.passTime_pcu (c : Chip) : (c.passTime).pcu = c.pcu := rfl
@[simp] theorem Chip.passTime_clu (c : Chip) : (c.passTime).clu = c.clu := rfl
@[simp] theorem Chip.passTime_rpu (c : Chip) : (c.passTime).rpu = c.rpu := rfl
@[simp] theorem Chip.passTime_routeLink (c : Chip) : (c.passTime).routeLink = c.routeLink := rfl
@[simp] theorem Chip.passTime_tapLink (c : Chip) : (c.passTime).tapLink = c.tapLink := rfl

/-! ### The requests under a running tenure's updates -/

@[simp] theorem Chip.write_orders (a : Addr) (v : Word) (c : Chip) : (c.write a v).tau.orders = c.tau.orders := rfl
@[simp] theorem Chip.writeRecord_orders (t : Table) (i w : Nat) (v : Word) (c : Chip) :
    (c.writeRecord t i w v).tau.orders = c.tau.orders := rfl
@[simp] theorem Chip.writeStation_orders (n : Nat) (v : Word) (c : Chip) :
    (c.writeStation n v).tau.orders = c.tau.orders := rfl
@[simp] theorem Chip.owe_orders (o : Owed) (c : Chip) : (c.owe o).tau.orders = c.tau.orders := rfl
@[simp] theorem Chip.write_running (a : Addr) (v : Word) (c : Chip) :
    (c.write a v).tau.running = c.tau.running.map fun t => { t with writes := t.writes ++ [(a, v)] } := rfl
@[simp] theorem Chip.writeRecord_running (t : Table) (i w : Nat) (v : Word) (c : Chip) :
    (c.writeRecord t i w v).tau.running =
      c.tau.running.map fun x => { x with writes := x.writes ++ [(c.recordAddr t i w, v)] } := rfl
@[simp] theorem Chip.writeStation_running (n : Nat) (v : Word) (c : Chip) :
    (c.writeStation n v).tau.running =
      c.tau.running.map fun x => { x with writes := x.writes ++ [(stationAddr n, v)] } := rfl
@[simp] theorem Chip.owe_running (o : Owed) (c : Chip) :
    (c.owe o).tau.running = c.tau.running.map fun t => { t with owed := t.owed ++ [o] } := rfl

/-! ### A state with one part replaced -/

@[simp] theorem State.with_chip_mem (s : State) (c : Chip) : ({ s with chip := c } : State).mem = s.mem := rfl
@[simp] theorem State.with_chip_pending (s : State) (c : Chip) : ({ s with chip := c } : State).pending = s.pending := rfl
@[simp] theorem State.with_chip_chip (s : State) (c : Chip) : ({ s with chip := c } : State).chip = c := rfl
@[simp] theorem State.with_mem_chip (s : State) (m : Memory) : ({ s with mem := m } : State).chip = s.chip := rfl
@[simp] theorem State.with_pending_chip (s : State) (q : List Instr) : ({ s with pending := q } : State).chip = s.chip := rfl
@[simp] theorem State.with_pending_mem (s : State) (q : List Instr) : ({ s with pending := q } : State).mem = s.mem := rfl

/-! ### Ports -/

@[simp] theorem Chip.port_a (c : Chip) : c.port .a = c.portA := rfl
@[simp] theorem Chip.port_b (c : Chip) : c.port .b = c.portB := rfl
@[simp] theorem Chip.withPort_a (x : PortState) (c : Chip) : c.withPort .a x = { c with portA := x } := rfl
@[simp] theorem Chip.withPort_b (x : PortState) (c : Chip) : c.withPort .b x = { c with portB := x } := rfl
@[simp] theorem Chip.port_withPort (p : Port) (x : PortState) (c : Chip) : (c.withPort p x).port p = x := by
  cases p <;> rfl
@[simp] theorem Chip.other_withPort (p : Port) (x : PortState) (c : Chip) :
    (c.withPort p x).port (otherPort p) = c.port (otherPort p) := by cases p <;> rfl
@[simp] theorem Chip.withPort_resetLow (p : Port) (x : PortState) (c : Chip) : (c.withPort p x).resetLow = c.resetLow := by cases p <;> rfl
@[simp] theorem Chip.withPort_lines (p : Port) (x : PortState) (c : Chip) : (c.withPort p x).lines = c.lines := by cases p <;> rfl
@[simp] theorem Chip.withPort_par (p : Port) (x : PortState) (c : Chip) : (c.withPort p x).par = c.par := by cases p <;> rfl
@[simp] theorem Chip.withPort_tau (p : Port) (x : PortState) (c : Chip) : (c.withPort p x).tau = c.tau := by cases p <;> rfl
@[simp] theorem Chip.withPort_map (p : Port) (x : PortState) (c : Chip) : (c.withPort p x).map = c.map := by cases p <;> rfl
@[simp] theorem Chip.withPort_lcc (p : Port) (x : PortState) (c : Chip) : (c.withPort p x).lcc = c.lcc := by cases p <;> rfl
@[simp] theorem Chip.withPort_settings (p : Port) (x : PortState) (c : Chip) : (c.withPort p x).settings = c.settings := by cases p <;> rfl
@[simp] theorem Chip.withPort_tbu (p : Port) (x : PortState) (c : Chip) : (c.withPort p x).tbu = c.tbu := by cases p <;> rfl
@[simp] theorem Chip.withPort_lue (p : Port) (x : PortState) (c : Chip) : (c.withPort p x).lue = c.lue := by cases p <;> rfl
@[simp] theorem Chip.withPort_toe (p : Port) (x : PortState) (c : Chip) : (c.withPort p x).toe = c.toe := by cases p <;> rfl
@[simp] theorem Chip.withPort_slm (p : Port) (x : PortState) (c : Chip) : (c.withPort p x).slm = c.slm := by cases p <;> rfl
@[simp] theorem Chip.withPort_swe (p : Port) (x : PortState) (c : Chip) : (c.withPort p x).swe = c.swe := by cases p <;> rfl
@[simp] theorem Chip.withPort_pcu (p : Port) (x : PortState) (c : Chip) : (c.withPort p x).pcu = c.pcu := by cases p <;> rfl
@[simp] theorem Chip.withPort_clu (p : Port) (x : PortState) (c : Chip) : (c.withPort p x).clu = c.clu := by cases p <;> rfl
@[simp] theorem Chip.withPort_rpu (p : Port) (x : PortState) (c : Chip) : (c.withPort p x).rpu = c.rpu := by cases p <;> rfl
@[simp] theorem Chip.withPort_routeLink (p : Port) (x : PortState) (c : Chip) : (c.withPort p x).routeLink = c.routeLink := by cases p <;> rfl
@[simp] theorem Chip.withPort_tapLink (p : Port) (x : PortState) (c : Chip) : (c.withPort p x).tapLink = c.tapLink := by cases p <;> rfl

end Sys2Proof.Machine
end

