-- ==== Sys2Proof/Laws/Frames.lean ====
section
/-! SUPPORT. The relation `Chip.Same`: its algebra, and the updates that every block uses. -/

namespace Sys2Proof.Machine

/-! ### Algebra -/

theorem Chip.Same.refl (L : List Piece) (c : Chip) : Chip.Same L c c := by
  intro x _
  cases x <;> simp [Chip.agree]

theorem Chip.agree_trans {c d e : Chip} (x : Piece) (h1 : c.agree d x) (h2 : d.agree e x) : c.agree e x := by
  cases x <;> simp only [Chip.agree] at *
  case jobs => exact ⟨h2.1.trans h1.1, h2.2.trans h1.2⟩
  all_goals exact h2.trans h1

/-- What differs after two changes differs after one of them. -/
theorem Chip.Same.trans {L M N : List Piece} {c d e : Chip} (h1 : Chip.Same L c d) (h2 : Chip.Same M d e)
    (hL : ∀ x ∈ L, x ∈ N) (hM : ∀ x ∈ M, x ∈ N) : Chip.Same N c e := by
  intro x hx
  exact Chip.agree_trans x (h1 x fun h => hx (hL x h)) (h2 x fun h => hx (hM x h))

theorem Chip.Same.mono {L N : List Piece} {c d : Chip} (h : Chip.Same L c d) (hL : ∀ x ∈ L, x ∈ N) : Chip.Same N c d :=
  fun x hx => h x fun hh => hx (hL x hh)

/-- Two changes of the same pieces. -/
theorem Chip.Same.then {L : List Piece} {c d e : Chip} (h1 : Chip.Same L c d) (h2 : Chip.Same L d e) : Chip.Same L c e :=
  h1.trans h2 (fun _ h => h) fun _ h => h

/-- A list of changes of the same pieces. -/
theorem Chip.Same.foldl {α : Type} {L : List Piece} (f : Chip → α → Chip) (h : ∀ c x, Chip.Same L c (f c x)) (l : List α)
    (c : Chip) : Chip.Same L c (l.foldl f c) := by
  induction l generalizing c with
  | nil => exact Chip.Same.refl L c
  | cons x l ih => exact (h c x).then (ih _)

/-- Either of two changes. -/
theorem Chip.Same.ite {L : List Piece} {c d e : Chip} {p : Prop} [Decidable p] (h1 : Chip.Same L c d)
    (h2 : Chip.Same L c e) : Chip.Same L c (if p then d else e) := by
  split
  · exact h1
  · exact h2

/-! ### Updates that every block uses -/

theorem Chip.same_write (a : Addr) (v : Word) (c : Chip) : Chip.Same [.tenure] c (c.write a v) := by
  intro x hx; cases x <;> first | exact absurd (by decide) hx | rfl | exact ⟨rfl, rfl⟩

theorem Chip.same_writeRecord (t : Table) (i w : Nat) (v : Word) (c : Chip) :
    Chip.Same [.tenure] c (c.writeRecord t i w v) := c.same_write _ _

theorem Chip.same_writeStation (n : Nat) (v : Word) (c : Chip) : Chip.Same [.tenure] c (c.writeStation n v) :=
  c.same_write _ _

theorem Chip.same_owe (o : Owed) (c : Chip) : Chip.Same [.tenure] c (c.owe o) := by
  intro x hx; cases x <;> first | exact absurd (by decide) hx | rfl | exact ⟨rfl, rfl⟩

theorem Chip.same_markStatus (c : Chip) : Chip.Same [.statusMark] c c.markStatus := by
  intro x hx; cases x <;> first | exact absurd (by decide) hx | rfl | exact ⟨rfl, rfl⟩

theorem Chip.same_marking (b c : Chip) : Chip.Same [.statusMark] c (Chip.marking b c) := by
  unfold Chip.marking
  split
  · exact Chip.Same.refl _ c
  · exact c.same_markStatus

theorem Rpu.raise_statusDirty (r : Rpu) (k : Cause) : (r.raise k).statusDirty = r.statusDirty := by
  unfold Rpu.raise
  split <;> rfl

theorem Chip.same_raise (k : Cause) (c : Chip) : Chip.Same [.rpu] c (c.raise k) := by
  intro x hx
  cases x <;> first | exact absurd (by decide) hx | rfl | exact ⟨rfl, rfl⟩ | exact Rpu.raise_statusDirty _ _

theorem Chip.same_count (k : Counter) (c : Chip) : Chip.Same [.rpu] c (c.count k) := by
  intro x hx; cases x <;> first | exact absurd (by decide) hx | rfl | exact ⟨rfl, rfl⟩

theorem Chip.same_noteRefusal (k : RefusalKind) (p : Port) (a : Addr) (c : Chip) :
    Chip.Same [.rpu] c (c.noteRefusal k p a) := by
  unfold Chip.noteRefusal
  refine Chip.Same.then ?_ (Chip.same_raise _ _)
  intro x hx; cases x <;> first | exact absurd (by decide) hx | rfl | exact ⟨rfl, rfl⟩

theorem Chip.same_reserve (c : Chip) : Chip.Same [.clu] c c.reserve := by
  intro x hx; cases x <;> first | exact absurd (by decide) hx | rfl | exact ⟨rfl, rfl⟩

theorem Chip.same_unreserve (c : Chip) : Chip.Same [.clu] c c.unreserve := by
  intro x hx; cases x <;> first | exact absurd (by decide) hx | rfl | exact ⟨rfl, rfl⟩

theorem Chip.same_withPort (p : Port) (x : PortState) (c : Chip) : Chip.Same [portPiece p] c (c.withPort p x) := by
  intro y hy
  cases p <;> cases y <;> first | exact absurd (by decide) hy | rfl | exact ⟨rfl, rfl⟩

theorem Chip.same_withPar (x : Par) (c : Chip) : Chip.Same [.arbiter] c { c with par := x } := by
  intro y hy; cases y <;> first | exact absurd (by decide) hy | rfl | exact ⟨rfl, rfl⟩

/-- An append writes and advances the copy. -/
theorem Chip.same_appendWith (r : LogRecord) (d n : Word) (k : BitVec 16) (b : Bool) (c : Chip) :
    Chip.Same [.tenure, .clu] c (c.appendWith r d n k b) := by
  unfold Chip.appendWith
  split
  · exact Chip.Same.refl _ c
  · intro x hx; cases x <;> first | exact absurd (by decide) hx | simp [Chip.agree]

theorem Chip.same_append (r : LogRecord) (b : Bool) (c : Chip) : Chip.Same [.tenure, .clu] c (c.append r b) := by
  unfold Chip.append
  split
  · exact Chip.Same.refl _ c
  · exact Chip.same_appendWith _ _ _ _ _ c

theorem Chip.same_findLow (c : Chip) : Chip.Same [.low, .statusMark] c c.findLow := by
  unfold Chip.findLow
  split
  · exact Chip.Same.refl _ c
  · dsimp only
    split
    · exact Chip.Same.refl _ c
    · intro x hx; cases x <;> first | exact absurd (by decide) hx | rfl | exact ⟨rfl, rfl⟩

theorem Chip.same_testLow (c : Chip) : Chip.Same [.tenure, .low, .statusMark] c c.testLow := by
  have h : Chip.Same [.tenure, .low, .statusMark] c c.findLow := c.same_findLow.mono (by decide)
  unfold Chip.testLow
  exact Chip.Same.ite (h.then ((Chip.same_owe _ _).mono (by decide))) h

/-- The low state alone, its mark apart, is what finding it changes. -/
theorem Chip.running_findLow (c : Chip) : c.findLow.tau.running = c.tau.running := c.same_findLow .tenure (by decide)

theorem Chip.same_closeGrant (c : Chip) : Chip.Same [.tenure, .low, .statusMark] c c.closeGrant := by
  unfold Chip.closeGrant
  dsimp only
  split
  · split
    · exact c.same_testLow.trans (Chip.same_owe _ _) (by decide) (by decide)
    · exact c.same_testLow
  · exact c.same_testLow

theorem Chip.same_releaseBlock (c : Chip) : Chip.Same [.toe, .statusMark] c c.releaseBlock := by
  unfold Chip.releaseBlock
  split
  · intro x hx; cases x <;> first | exact absurd (by decide) hx | rfl | exact ⟨rfl, rfl⟩
  · exact Chip.Same.refl _ c

theorem Chip.same_request (r : EvalRequest) (c : Chip) : Chip.Same [.toe] c (c.request r) := by
  unfold Chip.request
  split
  · intro x hx; cases x <;> first | exact absurd (by decide) hx | rfl | exact ⟨rfl, rfl⟩
  · exact Chip.Same.refl _ c

theorem Chip.same_handRestore (n : Nat) (o : BitVec 16) (k : Nat) (c : Chip) : Chip.Same [.swe] c (c.handRestore n o k) := by
  unfold Chip.handRestore
  split
  · intro x hx; cases x <;> first | exact absurd (by decide) hx | rfl | exact ⟨rfl, rfl⟩
  · exact Chip.Same.refl _ c

theorem Chip.same_handClose (e : BitVec 8) (c : Chip) : Chip.Same [.swe] c (c.handClose e) := by
  unfold Chip.handClose
  split
  · intro x hx; cases x <;> first | exact absurd (by decide) hx | rfl | exact ⟨rfl, rfl⟩
  · exact Chip.Same.refl _ c

/-- A grant takes the job out of the requests and starts its tenure, whatever it picks. -/
theorem Chip.same_grant (pick : Job → Bool) (c : Chip) (j : Job) (d : Chip) (h : c.grant pick = some (j, d)) :
    Chip.Same [.requests, .tenure] c d := by
  unfold Chip.grant at h
  split at h
  · split at h
    · simp at h
    · split at h
      · simp at h
      · simp only [Option.some.injEq, Prod.mk.injEq] at h
        obtain ⟨-, rfl⟩ := h
        intro x hx; cases x <;> first | exact absurd (by decide) hx | rfl | exact ⟨rfl, rfl⟩
  · simp at h

end Sys2Proof.Machine
end

