-- ==== Sys2Proof/Laws/LineUp.lean ====
section
/-! SUPPORT. What the operations of the Line-Up Engine, the Timebase and the Lifecycle Controller can change. -/

namespace Sys2Proof.Machine

/-! ### Takes and route requests -/

@[simp] theorem classRank_none : classRank none = 0 := rfl

@[simp] theorem classRank_some (k : RouteClass) : classRank (some k) = k.rank := by cases k <;> rfl

theorem RouteClass.rank_pos (k : RouteClass) : 0 < k.rank := by cases k <;> decide

/-- A route request does what the table of R61 says. -/
theorem Entry.request_eq_asked (e : Entry) (k : RouteClass) : e.request k = e.asked k := by
  obtain ⟨w0, w1, w2, w3, aside, applied, route, cls, phase, attempts, unset, unlocked, dirty⟩ := e
  cases aside <;> cases h : bit w0 31 <;> cases route <;> rcases cls with _ | c <;>
    simp [Entry.request, Entry.asked, Entry.live, Entry.inUse, Entry.touch, k.rank_pos, h]

/-- The effective target is that of R60. -/
theorem Chip.target_eq_wanted (c : Chip) (e : Entry) :
    c.target e = e.wanted c.fallback c.settings.fallbackSource := by
  simp only [Chip.target, Entry.target, Entry.wanted, Entry.fallbackFlag, Entry.kindEvent, Entry.eventSource,
    Entry.desired, Bool.and_eq_true, decide_eq_true_eq]

theorem Chip.same_oweRoute (k : Cause) (l : List Nat) (c : Chip) : Chip.Same lineUpPieces c (c.oweRoute k l) := by
  unfold Chip.oweRoute
  split
  · exact (c.same_raise k).mono (by decide)
  · intro x hx; cases x <;> first | exact absurd (by decide) hx | rfl | exact ⟨rfl, rfl⟩

theorem Chip.same_withLue (l : Lue) (c : Chip) : Chip.Same lineUpPieces c { c with lue := l } := by
  intro x hx; cases x <;> first | exact absurd (by decide) hx | rfl | exact ⟨rfl, rfl⟩

theorem Chip.same_endTake (r : TakeResult) (l : List Nat) (c : Chip) : Chip.Same lineUpPieces c (c.endTake r l) := by
  unfold Chip.endTake
  refine Chip.Same.then ?_ (Chip.same_oweRoute _ _ _)
  intro x hx; cases x <;> first | exact absurd (by decide) hx | rfl | exact ⟨rfl, rfl⟩

theorem Chip.same_checkTake (l : List Nat) (c : Chip) : Chip.Same lineUpPieces c (c.checkTake l) := by
  unfold Chip.checkTake
  split
  · exact Chip.same_endTake _ _ c
  · exact Chip.Same.refl _ c

theorem Chip.same_routeRequest (k : RouteClass) (i : Nat) (c : Chip) :
    Chip.Same lineUpPieces c (c.routeRequest k i) := by
  unfold Chip.routeRequest
  exact (c.same_withLue _).then (Chip.same_checkTake _ _)

theorem Chip.same_sendRoute (i : Nat) (x : BitVec 7) (t : BitVec 3) (c : Chip) :
    Chip.Same lineUpPieces c (c.sendRoute i x t) := by
  intro x hx; cases x <;> first | exact absurd (by decide) hx | rfl | exact ⟨rfl, rfl⟩

theorem Chip.same_startRoute (i : Nat) (k : RouteClass) (x : BitVec 7) (c : Chip) :
    Chip.Same lineUpPieces c (c.startRoute i k x) := by
  unfold Chip.startRoute
  exact (c.same_withLue _).then (Chip.same_sendRoute _ _ _ _)

theorem Chip.same_chooseRoute (n : Nat) (c : Chip) : Chip.Same lineUpPieces c (c.chooseRoute n) := by
  induction n generalizing c with
  | zero => exact Chip.Same.refl _ c
  | succ n ih =>
    unfold Chip.chooseRoute
    split
    · split
      · exact Chip.Same.refl _ c
      · split
        · exact Chip.Same.refl _ c
        · split
          · exact ((c.same_withLue _).then (Chip.same_checkTake _ _)).then (ih _)
          · exact Chip.same_startRoute _ _ _ c
    · exact Chip.Same.refl _ c

theorem Chip.same_serveRoutes (c : Chip) : Chip.Same lineUpPieces c c.serveRoutes := c.same_chooseRoute _

/-! ### The route link -/

theorem Chip.same_completeRoute (o : RouteOrder) (c : Chip) : Chip.Same lineUpPieces c (c.completeRoute o) := by
  unfold Chip.completeRoute
  exact ((c.same_withLue _).then (Chip.same_checkTake _ _)).then (Chip.same_serveRoutes _)

theorem Chip.same_failRoute (o : RouteOrder) (c : Chip) : Chip.Same lineUpPieces c (c.failRoute o) := by
  unfold Chip.failRoute
  exact (((c.same_withLue _).then (Chip.same_oweRoute _ _ _)).then (Chip.same_checkTake _ _)).then
    (Chip.same_serveRoutes _)

theorem Chip.same_resendRoute (o : RouteOrder) (c : Chip) : Chip.Same lineUpPieces c (c.resendRoute o) := by
  unfold Chip.resendRoute
  exact (c.same_withLue _).then (Chip.same_sendRoute _ _ _ _)

theorem Chip.same_returnRoute (o : RouteOrder) (c : Chip) : Chip.Same lineUpPieces c (c.returnRoute o) :=
  c.same_withLue _

theorem Chip.same_expireRoute (o : RouteOrder) (c : Chip) : Chip.Same lineUpPieces c (c.expireRoute o) := by
  unfold Chip.expireRoute
  dsimp only
  split
  · split
    · exact c.same_resendRoute o
    · exact c.same_returnRoute o
  · exact c.same_failRoute o

theorem Chip.same_routeReply (r : RouteReply) (c : Chip) : Chip.Same lineUpPieces c (c.routeReply r) := by
  unfold Chip.routeReply
  split
  · split
    · split
      · exact c.same_completeRoute _
      · exact c.same_failRoute _
      · exact c.same_failRoute _
    · exact (c.same_count _).mono (by decide)
  · exact (c.same_count _).mono (by decide)

/-! ### Phases, time changes, fallback -/

theorem Chip.same_setPhase (i : Nat) (p : Phase) (c : Chip) : Chip.Same lineUpPieces c (c.setPhase i p) :=
  c.same_withLue _

theorem Chip.same_closeWindow (i : Nat) (n : BitVec 8) (c : Chip) : Chip.Same lineUpPieces c (c.closeWindow i n) := by
  unfold Chip.closeWindow
  dsimp only
  split
  · exact (Chip.same_setPhase i _ c).then ((Chip.same_handClose n _).mono (by decide))
  · exact Chip.same_setPhase i _ c

theorem Chip.same_movePhase (i : Nat) (e : Entry) (p q : Phase) (c : Chip) :
    Chip.Same lineUpPieces c (c.movePhase i e p q) := by
  unfold Chip.movePhase
  split
  · exact (Chip.same_setPhase i _ c).then (Chip.same_routeRequest _ _ _)
  · exact (Chip.same_setPhase i _ c).then (Chip.same_routeRequest _ _ _)
  · exact c.same_closeWindow _ _
  · exact (c.same_closeWindow _ _).then (Chip.same_routeRequest _ _ _)
  · exact Chip.same_setPhase i _ c
  · exact (Chip.same_setPhase i _ c).then (Chip.same_routeRequest _ _ _)
  · exact Chip.Same.refl _ c

theorem Chip.same_evaluatePhase (i : Nat) (c : Chip) : Chip.Same lineUpPieces c (c.evaluatePhase i) := by
  unfold Chip.evaluatePhase
  split
  · exact Chip.Same.refl _ c
  · split
    · exact Chip.Same.refl _ c
    · exact Chip.Same.refl _ c
    · split
      · exact c.same_movePhase _ _ _ _
      · exact Chip.Same.refl _ c

theorem Chip.same_timeChange (c : Chip) : Chip.Same lineUpPieces c c.timeChange := by
  unfold Chip.timeChange
  split
  · exact Chip.Same.foldl _ (fun c i => c.same_evaluatePhase i) _ c
  · exact Chip.Same.refl _ c

/-! ### What a time change does to the entries and leaves of the route link -/

theorem Chip.linkUse_checkTake (l : List Nat) (c : Chip) : (c.checkTake l).linkUse = c.linkUse := by
  unfold Chip.checkTake Chip.endTake Chip.oweRoute
  split
  · split <;> rfl
  · rfl

theorem Chip.linkUse_routeRequest (k : RouteClass) (i : Nat) (c : Chip) : (c.routeRequest k i).linkUse = c.linkUse :=
  Chip.linkUse_checkTake _ _

theorem Chip.linkUse_closeWindow (i : Nat) (n : BitVec 8) (c : Chip) : (c.closeWindow i n).linkUse = c.linkUse := by
  unfold Chip.closeWindow Chip.handClose
  dsimp only
  repeat' split
  all_goals rfl

theorem Chip.linkUse_movePhase (i : Nat) (e : Entry) (p q : Phase) (c : Chip) :
    (c.movePhase i e p q).linkUse = c.linkUse := by
  unfold Chip.movePhase
  split <;> (try simp only [Chip.linkUse_routeRequest, Chip.linkUse_closeWindow]) <;> rfl

theorem Chip.linkUse_evaluatePhase (i : Nat) (c : Chip) : (c.evaluatePhase i).linkUse = c.linkUse := by
  unfold Chip.evaluatePhase
  repeat' split
  all_goals first | rfl | exact Chip.linkUse_movePhase _ _ _ _ _

/-- A time change neither sends nor ends an order; its requests wait. -/
theorem Chip.linkUse_timeChange (c : Chip) : c.timeChange.linkUse = c.linkUse := by
  unfold Chip.timeChange
  split
  · rename_i h
    clear h
    generalize List.range c.lue.entries.length = l
    induction l generalizing c with
    | nil => rfl
    | cons i l ih => rw [List.foldl_cons, ih (c.evaluatePhase i), c.linkUse_evaluatePhase i]
  · rfl

theorem Chip.entries_checkTake (l : List Nat) (c : Chip) : (c.checkTake l).lue.entries = c.lue.entries := by
  unfold Chip.checkTake Chip.endTake Chip.oweRoute
  split
  · split <;> rfl
  · rfl

theorem Chip.entries_routeRequest (k : RouteClass) (i : Nat) (c : Chip) :
    (c.routeRequest k i).lue.entries = c.lue.entries.modify i fun e => e.asked k := by
  rw [Chip.routeRequest, Chip.entries_checkTake]
  simp only [Lue.modify, Entry.request_eq_asked]

theorem Chip.entries_setPhase (i : Nat) (p : Phase) (c : Chip) :
    (c.setPhase i p).lue.entries = c.lue.entries.modify i fun e => { e with phase := some p }.touch := rfl

theorem Chip.entries_closeWindow (i : Nat) (n : BitVec 8) (c : Chip) :
    (c.closeWindow i n).lue.entries = c.lue.entries.modify i fun e => { e with phase := some .closing }.touch := by
  unfold Chip.closeWindow Chip.handClose
  dsimp only
  repeat' split
  all_goals rfl

theorem Entry.phaseAt_eq_phaseFound (e : Entry) (wall : Word) : e.phaseAt wall = e.phaseFound wall := by
  simp only [Entry.phaseAt, Entry.phaseFound, BitVec.lt_def, Entry.start, Entry.finish]

theorem Entry.phaseFound_ne_closing (e : Entry) (wall : Word) : e.phaseFound wall ≠ .closing := by
  unfold Entry.phaseFound
  repeat' split
  all_goals simp

/-- The evaluation of an entry does what the tables of R57 and R61 say. -/
theorem Chip.entries_evaluatePhase (i : Nat) (c : Chip) :
    (c.evaluatePhase i).lue.entries = c.lue.entries.modify i fun e => e.atTime c.tbu.wall := by
  unfold Chip.evaluatePhase
  cases he : c.lue.entries[i]? with
  | none =>
    have : c.lue.entries.length ≤ i := List.getElem?_eq_none_iff.mp he
    simp [List.modify_eq_self this]
  | some e =>
    have key : ∀ f : Entry → Entry, f e = e.atTime c.tbu.wall →
        c.lue.entries.modify i f = c.lue.entries.modify i fun e => e.atTime c.tbu.wall := by
      intro f hf
      apply List.ext_getElem?
      intro j
      rw [List.getElem?_modify, List.getElem?_modify]
      split
      · rename_i h; subst h; rw [he]; simp [hf]
      · rfl
    have same : e = e.atTime c.tbu.wall → c.lue.entries = c.lue.entries.modify i fun e => e.atTime c.tbu.wall := by
      intro h
      rw [← key id h]; simp
    simp only []
    by_cases hv : e.event = true
    · have hw : ¬(bit e.w0 31 = false ∨ e.aside = true ∨ bit e.w0 12 = false) := by
        simpa [Entry.event, Entry.live, Entry.inUse, Entry.kindEvent, and_assoc] using hv
      have hf := e.phaseAt_eq_phaseFound c.tbu.wall
      have hc := e.phaseFound_ne_closing c.tbu.wall
      have ha : e.atTime c.tbu.wall = _ := if_neg hw
      obtain ⟨w0, w1, w2, w3, aside, applied, route, cls, phase, attempts, unset, unlocked, dirty⟩ := e
      rcases phase with _ | p
      · exact same (by rw [ha]; simp [Entry.phaseMoved])
      · cases p <;> cases hq : Entry.phaseFound _ c.tbu.wall <;> first | exact absurd hq hc | skip
        all_goals
          simp only [hv, hf, hq, if_true, Chip.movePhase, Chip.entries_routeRequest, Chip.entries_setPhase,
            Chip.entries_closeWindow, List.modify_modify_eq]
          first
            | exact same (by rw [ha]; simp [Entry.phaseMoved, hq])
            | exact key _ (by rw [ha]; simp [Entry.phaseMoved, hq, Entry.touch])
    · have hw : bit e.w0 31 = false ∨ e.aside = true ∨ bit e.w0 12 = false := by
        simpa [Entry.event, Entry.live, Entry.inUse, Entry.kindEvent, and_assoc, or_iff_not_imp_left] using hv
      have : e = e.atTime c.tbu.wall := (if_pos hw).symm
      refine Eq.trans ?_ (same this)
      split
      · rfl
      · rfl
      · simp [hv]

/-- A time change does to every entry what the tables of R57 and R61 say. -/
theorem Chip.entries_timeChange (c : Chip) (h : c.working = true) :
    c.timeChange.lue.entries = c.lue.entries.map fun e => e.atTime c.tbu.wall := by
  have key : ∀ n : Nat, (((List.range n).foldl (fun c i => c.evaluatePhase i) c).tbu = c.tbu) ∧
      ∀ j, ((List.range n).foldl (fun c i => c.evaluatePhase i) c).lue.entries[j]? =
        if j < n then c.lue.entries[j]?.map fun e => e.atTime c.tbu.wall else c.lue.entries[j]? := by
    intro n
    induction n with
    | zero => exact ⟨rfl, fun j => rfl⟩
    | succ n ih =>
      rw [List.range_succ, List.foldl_append, List.foldl_cons, List.foldl_nil]
      generalize (List.range n).foldl (fun c i => c.evaluatePhase i) c = d at ih ⊢
      refine ⟨((d.same_evaluatePhase n) .tbu (by decide)).trans ih.1, fun j => ?_⟩
      rw [Chip.entries_evaluatePhase, List.getElem?_modify, ih.2, ih.1]
      rcases Nat.lt_trichotomy j n with hj | rfl | hj
      · simp [hj, hj.ne', Nat.lt_succ_of_lt hj]
      · simp
      · simp [hj.ne, Nat.not_lt_of_lt hj, Nat.not_lt_of_le hj]
  rw [Chip.timeChange, if_pos h]
  apply List.ext_getElem?
  intro j
  rw [(key _).2, List.getElem?_map]
  split
  · rfl
  · rename_i hj
    rw [List.getElem?_eq_none (by omega)]
    rfl

/-! ### The choice that a count still owes -/

theorem Entry.pendingWith_iff (e : Entry) (k : RouteClass) :
    e.pendingWith k = true ↔ e.route = .pending ∧ e.cls = some k := by
  simp [Entry.pendingWith]

/-- A choice is to be made where an entry is PENDING with a class, in RUNNING with the link free. -/
theorem Chip.choiceDue_iff (c : Chip) :
    c.choiceDue = true ↔ c.lcc.lifecycle = .running ∧ c.lue.order = none ∧
      ∃ e ∈ c.lue.entries, e.route = .pending ∧ e.cls ≠ none := by
  have hs : c.lue.choice.isSome = true ↔ ∃ e ∈ c.lue.entries, e.route = .pending ∧ e.cls ≠ none := by
    have split : (∃ e ∈ c.lue.entries, e.route = .pending ∧ e.cls ≠ none) ↔
        ∃ k, ∃ e ∈ c.lue.entries, e.pendingWith k = true := by
      simp only [Entry.pendingWith_iff, Option.ne_none_iff_exists']
      tauto
    have found : ∀ k, (c.lue.entries.findIdx? fun e => e.pendingWith k).isSome = true ↔
        ∃ e ∈ c.lue.entries, e.pendingWith k = true := by
      intro k; simp [List.findIdx?_isSome]
    rw [split]
    have rest : (∃ k, ∃ e ∈ c.lue.entries, e.pendingWith k = true) ↔
        (c.lue.entries.findIdx? fun e => e.pendingWith .fallback).isSome = true ∨
        (c.lue.entries.findIdx? fun e => e.pendingWith .event).isSome = true ∨
        (c.lue.entries.findIdx? fun e => e.pendingWith .take).isSome = true := by
      simp only [found]
      constructor
      · rintro ⟨k, h⟩; cases k <;> simp [h]
      · rintro (h | h | h) <;> exact ⟨_, h⟩
    rw [rest, Lue.choice]
    split
    · rename_i h; simp [h]
    · rename_i h
      split
      · rename_i h2; simp [h2]
      · rename_i h2; simp [h, h2]
  unfold Chip.choiceDue
  simp [hs, Option.isNone_iff_eq_none, and_assoc]

/-! ### The end of a close, fallback and the take -/

theorem Chip.same_closeEnded (n : BitVec 8) (c : Chip) : Chip.Same lineUpPieces c (c.closeEnded n) := by
  unfold Chip.closeEnded
  split
  · exact Chip.Same.refl _ c
  · split
    · exact Chip.Same.refl _ c
    · split
      · dsimp only
        split
        · exact ((c.same_setPhase _ _).then (Chip.same_routeRequest _ _ _)).then (Chip.same_serveRoutes _)
        · exact c.same_setPhase _ _
      · exact Chip.Same.refl _ c

theorem Chip.same_fallbackRequests (c : Chip) : Chip.Same lineUpPieces c c.fallbackRequests := by
  unfold Chip.fallbackRequests
  refine (Chip.Same.foldl _ (fun c i => ?_) _ c).then (Chip.same_serveRoutes _)
  split
  · split
    · exact c.same_routeRequest _ _
    · exact Chip.Same.refl _ c
  · exact Chip.Same.refl _ c

theorem Chip.same_takeWalk (c : Chip) : Chip.Same lineUpPieces c c.takeWalk := by
  unfold Chip.takeWalk
  dsimp only
  exact (((c.same_withLue _).then ((Chip.same_markStatus _).mono (by decide))).then (Chip.same_checkTake _ _)).then
    (Chip.same_serveRoutes _)

theorem Chip.same_cancelTake (c : Chip) : Chip.Same lineUpPieces c c.cancelTake := by
  unfold Chip.cancelTake
  split
  · exact (c.same_withLue _).then (Chip.same_endTake _ _ _)
  · exact Chip.Same.refl _ c

/-! ### Map writes, the load walk, causes handed on -/

theorem Chip.same_enterEvent (i : Nat) (e : Entry) (c : Chip) : Chip.Same lineUpPieces c (c.enterEvent i e) := by
  unfold Chip.enterEvent
  dsimp only
  split
  · exact ((c.same_withLue _).then (Chip.same_setPhase _ _ _)).then (Chip.same_routeRequest _ _ _)
  · exact (c.same_withLue _).then (Chip.same_setPhase _ _ _)

theorem Chip.same_asideWrite (i : Nat) (e : Entry) (c : Chip) : Chip.Same lineUpPieces c (c.asideWrite i e) := by
  unfold Chip.asideWrite
  split
  · dsimp only
    split
    · exact (c.same_withLue _).then (Chip.same_enterEvent _ _ _)
    · exact c.same_withLue _
  · exact c.same_withLue _

theorem Chip.same_entryWrite (i w : Nat) (e e1 : Entry) (c : Chip) :
    Chip.Same lineUpPieces c (c.entryWrite i w e e1) := by
  unfold Chip.entryWrite
  dsimp only
  generalize (if e.inUse && !e1.inUse then e1.leaveUse else e1) = e2
  have h1 := (c.same_withLue (c.lue.modify i fun _ => e2)).then (Chip.same_checkTake [i] _)
  split
  · exact h1.then (Chip.same_enterEvent _ _ _)
  · split
    · exact h1.then (Chip.same_withLue _ _)
    · split
      · refine h1.then (Chip.Same.then (d := if e2.number = e.number then
          Chip.checkTake [i] { c with lue := c.lue.modify i fun _ => e2 }
          else { Chip.checkTake [i] { c with lue := c.lue.modify i fun _ => e2 } with
            lue := (Chip.checkTake [i] { c with lue := c.lue.modify i fun _ => e2 }).lue.bind e2.number i }) ?_ ?_)
        · exact Chip.Same.ite (Chip.Same.refl _ _) (Chip.same_withLue _ _)
        · exact Chip.Same.ite (Chip.same_evaluatePhase _ _) (Chip.Same.refl _ _)
      · exact h1

theorem Chip.same_mapTrigger (i w : Nat) (v : Word) (c : Chip) : Chip.Same lineUpPieces c (c.mapTrigger i w v) := by
  unfold Chip.mapTrigger
  split
  · exact Chip.Same.refl _ c
  · dsimp only
    refine Chip.Same.then ?_ (Chip.same_serveRoutes _)
    split
    · exact c.same_asideWrite _ _
    · exact c.same_entryWrite _ _ _ _

theorem Chip.same_walkLive (i : Nat) (e : Entry) (r : BitVec 3) (c : Chip) :
    Chip.Same lineUpPieces c (c.walkLive i e r) := by
  unfold Chip.walkLive
  dsimp only
  exact (c.same_withLue _).then (Chip.Same.ite ((Chip.same_handClose _ _).mono (by decide)) (Chip.Same.refl _ _))

theorem Chip.same_walkEntry (m : Memory) (i : Nat) (c : Chip) : Chip.Same lineUpPieces c (c.walkEntry m i) := by
  unfold Chip.walkEntry
  dsimp only
  split
  · exact c.same_withLue _
  · split
    · exact c.same_walkLive _ _ _
    · exact c.same_withLue _

theorem Chip.same_mapWalkBody (m : Memory) (c : Chip) : Chip.Same lineUpPieces c (c.mapWalkBody m) := by
  unfold Chip.mapWalkBody
  split
  · exact Chip.Same.refl _ c
  · dsimp only
    split
    · exact ((Chip.Same.foldl _ (fun c k => c.same_walkEntry m _) _ c).then (Chip.same_withLue _ _)).then
        (Chip.same_oweRoute _ _ _)
    · exact (Chip.Same.foldl _ (fun c k => c.same_walkEntry m _) _ c).then (Chip.same_withLue _ _)

theorem Chip.same_handRouteCauses (c : Chip) : Chip.Same lineUpPieces c c.handRouteCauses := by
  unfold Chip.handRouteCauses
  exact (c.same_withLue _).then (Chip.Same.foldl _ (fun c o => (c.same_raise _).mono (by decide)) _ _)

/-! ### The mirror tenure -/

theorem Chip.same_mirrorEntry (i : Nat) (c : Chip) : Chip.Same [.lue, .tenure] c (c.mirrorEntry i) := by
  unfold Chip.mirrorEntry
  split
  · exact Chip.Same.refl _ c
  · refine Chip.Same.trans (L := [.lue]) (M := [.tenure]) ?_ (Chip.same_writeRecord _ _ _ _ _) (by decide) (by decide)
    intro x hx; cases x <;> first | exact absurd (by decide) hx | rfl | exact ⟨rfl, rfl⟩

theorem Chip.same_mirrorCompletion (i : Nat) (c : Chip) : Chip.Same [.lue, .tenure] c (c.mirrorCompletion i) := by
  unfold Chip.mirrorCompletion
  dsimp only
  refine Chip.Same.then (Chip.Same.trans (L := [.lue]) (M := [.tenure]) ?_ (Chip.same_writeRecord _ _ _ _ _) (by decide)
    (by decide)) (Chip.same_mirrorEntry _ _)
  intro x hx; cases x <;> first | exact absurd (by decide) hx | rfl | exact ⟨rfl, rfl⟩

theorem Chip.same_mirrorBody (c : Chip) : Chip.Same [.lue, .tenure] c c.mirrorBody := by
  unfold Chip.mirrorBody
  dsimp only
  have h1 := Chip.Same.foldl _ (fun c i => Chip.same_mirrorCompletion i c) c.lue.mirrorChoice.1 c
  have h2 := Chip.Same.foldl _ (fun c i => Chip.same_mirrorEntry i c) c.lue.mirrorChoice.2
    (c.lue.mirrorChoice.1.foldl (fun c i => c.mirrorCompletion i) c)
  refine Chip.Same.then (Chip.Same.then (h1.then h2) ?_) ((Chip.same_owe _ _).mono (by decide))
  intro x hx; cases x <;> first | exact absurd (by decide) hx | rfl | exact ⟨rfl, rfl⟩

/-! ### Wall time, the pulse and the heartbeat -/

/-- The pieces that the Timebase and its time changes can change. -/
abbrev timePieces : List Piece := .tbu :: lineUpPieces

theorem Chip.same_withTbu (t : Tbu) (c : Chip) : Chip.Same timePieces c { c with tbu := t } := by
  intro x hx; cases x <;> first | exact absurd (by decide) hx | rfl | exact ⟨rfl, rfl⟩

theorem Chip.same_advanceWall (c : Chip) : Chip.Same timePieces c c.advanceWall :=
  (c.same_withTbu _).then ((Chip.same_timeChange _).mono (by decide))

theorem Chip.same_setTime (v : Word) (c : Chip) : Chip.Same timePieces c (c.setTime v) :=
  ((c.same_withTbu _).then ((Chip.same_marking _ _).mono (by decide))).then ((Chip.same_timeChange _).mono (by decide))

theorem Chip.same_pulse (c : Chip) : Chip.Same timePieces c c.pulse := by
  unfold Chip.pulse
  split
  · have h := (c.same_withTbu { c.tbu with lastPulse := some c.tbu.mono, locked := true }).then
      ((Chip.same_marking c _).mono (by decide))
    dsimp only
    split
    · exact h.then (Chip.same_advanceWall _)
    · exact h.then (Chip.same_withTbu _ _)
  · exact Chip.Same.refl _ c

theorem Chip.same_loseSync (c : Chip) : Chip.Same timePieces c c.loseSync := by
  unfold Chip.loseSync
  exact ((c.same_withTbu _).then ((Chip.same_markStatus _).mono (by decide))).then
    ((Chip.same_raise _ _).mono (by decide))

theorem Chip.same_heartbeatTo (h : Heartbeat) (d : Option Tick) (c : Chip) :
    Chip.Same timePieces c (c.heartbeatTo h d) := by
  unfold Chip.heartbeatTo
  have h1 := (c.same_withTbu { c.tbu with heartbeat := h, deadline := d }).then
    ((Chip.same_marking c _).mono (by decide))
  dsimp only
  split
  · exact h1.then ((Chip.same_fallbackRequests _).mono (by decide))
  · exact h1

theorem Chip.same_enterExpired (c : Chip) : Chip.Same timePieces c c.enterExpired := by
  unfold Chip.enterExpired
  exact ((((c.same_withTbu _).then ((Chip.same_markStatus _).mono (by decide))).then
    ((Chip.same_count _ _).mono (by decide))).then ((Chip.same_raise _ _).mono (by decide))).then
    ((Chip.same_fallbackRequests _).mono (by decide))

theorem Chip.same_heartbeat (k : HeartbeatCode) (q : BitVec 16) (c : Chip) :
    Chip.Same timePieces c (c.heartbeat k q) := by
  unfold Chip.heartbeat
  split
  · exact (c.same_withTbu _).then (Chip.same_heartbeatTo _ _ _)
  · split
    · exact c.same_withTbu _
    · exact c.same_enterExpired
  · exact c.same_heartbeatTo _ _
  · exact c.same_enterExpired
  · exact c.same_heartbeatTo _ _

end Sys2Proof.Machine
end

