-- ==== Sys2Proof/Laws/Nodes.lean ====
section
/-! SUPPORT. What the operations of the Status Line Monitor and the Report Unit can change. -/

namespace Sys2Proof.Machine

/-- The pieces that a sample or a node's change can reach. -/
def nodePieces : List Piece := [.slm, .swe, .rpu]

theorem Chip.same_withSlm (f : Slm) (c : Chip) (h : f.jobs = c.slm.jobs := by rfl) :
    Chip.Same [.slm] c { c with slm := f } := by
  intro x hx; cases x <;> first | exact absurd (by decide) hx | rfl | exact ⟨rfl, h⟩

theorem Chip.same_moveNode (i : Nat) (st : NodeState) (f : Node → Node) (c : Chip) :
    Chip.Same nodePieces c (c.moveNode i st f) := (c.same_withSlm _).mono (by decide)

theorem Chip.same_openOutage (i : Nat) (k : KeptTime) (c : Chip) : Chip.Same nodePieces c (c.openOutage i k) := by
  unfold Chip.openOutage
  split
  · exact (c.same_withSlm _).mono (by decide)
  · exact (((c.same_withSlm _).mono (by decide)).then ((Chip.same_raise _ _).mono (by decide))).then
      ((Chip.same_count _ _).mono (by decide))

theorem Chip.same_enterDown (i : Nat) (c : Chip) : Chip.Same nodePieces c (c.enterDown i) := by
  unfold Chip.enterDown
  split
  · exact Chip.Same.refl _ c
  · exact (c.same_moveNode _ _ _).then (Chip.same_openOutage _ _ _)

theorem Chip.same_closeOutage (i : Nat) (n : Node) (c : Chip) : Chip.Same nodePieces c (c.closeOutage i n) := by
  unfold Chip.closeOutage
  split
  · exact (c.same_withSlm _).mono (by decide)
  · dsimp only
    split
    · exact ((c.same_raise _).mono (by decide)).then ((Chip.same_handRestore _ _ _ _).mono (by decide))
    · exact (c.same_raise _).mono (by decide)

theorem Chip.same_enterUp (i : Nat) (c : Chip) : Chip.Same nodePieces c (c.enterUp i) := by
  unfold Chip.enterUp
  split
  · exact Chip.Same.refl _ c
  · exact (c.same_moveNode _ _ _).then (Chip.same_closeOutage _ _ _)

theorem Chip.same_sampleNode (l : Word) (i : Nat) (c : Chip) : Chip.Same nodePieces c (c.sampleNode l i) := by
  unfold Chip.sampleNode
  dsimp only
  split
  · split
    · exact Chip.Same.refl _ c
    · split
      · exact (Chip.Same.ite ((c.same_moveNode _ _ _).then (Chip.same_enterDown _ _)) (c.same_moveNode _ _ _))
      · exact (c.same_moveNode _ _ _).then ((Chip.same_count _ _).mono (by decide))
      · exact (Chip.Same.ite ((c.same_moveNode _ _ _).then (Chip.same_enterUp _ _)) (c.same_moveNode _ _ _))
      · exact c.same_moveNode _ _ _
      · exact Chip.Same.refl _ c
  · exact Chip.Same.refl _ c

theorem Chip.same_reportEdge (l : Word) (c : Chip) : Chip.Same nodePieces c (c.reportEdge l) := by
  unfold Chip.reportEdge
  dsimp only
  have h : ∀ b : Bool, Chip.Same nodePieces c (if b = true then c.raise .lineOverrun else c) :=
    fun b => Chip.Same.ite ((c.same_raise .lineOverrun).mono (by decide)) (Chip.Same.refl _ c)
  exact (h _).then ((Chip.same_withSlm _ _).mono (by decide))

theorem Chip.same_sample (l : Word) (c : Chip) : Chip.Same nodePieces c (c.sample l) := by
  unfold Chip.sample
  dsimp only
  have h := Chip.Same.foldl (fun c i => Chip.sampleNode l c i) (fun c i => c.same_sampleNode l i)
    (List.range Config.nodeCount) c
  have h2 : ∀ b : Bool, Chip.Same nodePieces c
      (if b = true then ((List.range Config.nodeCount).foldl (fun c i => Chip.sampleNode l c i) c).reportEdge l
        else (List.range Config.nodeCount).foldl (fun c i => Chip.sampleNode l c i) c) :=
    fun b => Chip.Same.ite (h.then (Chip.same_reportEdge _ _)) h
  exact (h2 _).then ((Chip.same_withSlm _ _).mono (by decide))

/-! ### Write tenures and what they owe -/

theorem Chip.same_writeSlot (i : Nat) (c : Chip) : Chip.Same [.slm, .tenure] c (c.writeSlot i) := by
  unfold Chip.writeSlot
  split
  · exact Chip.Same.refl _ c
  · intro x hx; cases x <;> first | exact absurd (by decide) hx | rfl | exact ⟨rfl, rfl⟩

theorem Chip.same_writeNode (i : Nat) (c : Chip) : Chip.Same [.slm, .tenure] c (c.writeNode i) := by
  unfold Chip.writeNode
  split
  · exact Chip.Same.refl _ c
  · intro x hx; cases x <;> first | exact absurd (by decide) hx | rfl | exact ⟨rfl, rfl⟩

theorem Chip.same_slmWriteBody (c : Chip) : Chip.Same [.slm, .tenure] c c.slmWriteBody := by
  unfold Chip.slmWriteBody
  dsimp only
  have h1 := Chip.Same.foldl (fun c i => Chip.writeSlot i c) (fun c i => c.same_writeSlot i) c.slm.writeChoice.1 c
  refine Chip.Same.then (h1.then ?_) (Chip.Same.foldl _ (fun c i => c.same_writeNode i) _ _)
  refine Chip.Same.ite ?_ (Chip.Same.refl _ _)
  exact ((Chip.same_withSlm _ _).mono (by decide)).then ((Chip.same_writeStation _ _ _).mono (by decide))

theorem Chip.same_handSlot (i : Nat) (d r : Bool) (c : Chip) : Chip.Same nodePieces c (c.handSlot i d r) := by
  unfold Chip.handSlot
  dsimp only
  have h1 : Chip.Same nodePieces c (if d = true then Chip.raise .nodeDown
      { c with slm := c.slm.modifySlot i fun x => { x with owesDown := false } } else c) :=
    Chip.Same.ite (((c.same_withSlm _).mono (by decide)).then ((Chip.same_raise _ _).mono (by decide)))
      (Chip.Same.refl _ c)
  revert h1
  generalize (if d = true then Chip.raise .nodeDown
      { c with slm := c.slm.modifySlot i fun x => { x with owesDown := false } } else c) = c1
  intro h1
  split
  · have h2 : Chip.Same nodePieces c (c1.raise .nodeUp) := h1.then ((Chip.same_raise .nodeUp c1).mono (by decide))
    split
    · split
      · exact (h2.then ((Chip.same_withSlm _ _).mono (by decide))).then
          ((Chip.same_handRestore _ _ _ _).mono (by decide))
      · exact h2
    · exact h2
  · exact h1

theorem Chip.same_markSwept (n : BitVec 16) (c : Chip) : Chip.Same nodePieces c (Chip.markSwept n c) := by
  unfold Chip.markSwept
  split
  · exact (c.same_withSlm _).mono (by decide)
  · exact Chip.Same.refl _ c

/-! ### Phase 4 -/

theorem Chip.same_outageReadBody (m : Memory) (k : Nat) (c : Chip) : Chip.Same [.slm] c (c.outageReadBody m k) :=
  c.same_withSlm _

theorem Chip.same_nextReadBody (m : Memory) (c : Chip) : Chip.Same [.slm, .jobs, .swe] c (c.nextReadBody m) := by
  unfold Chip.nextReadBody
  dsimp only
  refine Chip.Same.then ?_ (Chip.Same.foldl _ (fun c i => ?_) _ _)
  · intro x hx; cases x <;> first | exact absurd (by decide) hx | rfl
  · split
    · exact (Chip.same_handRestore _ _ _ _).mono (by decide)
    · exact Chip.Same.refl _ c

theorem Chip.same_repairBody (i : Nat) (c : Chip) : Chip.Same [.slm, .tenure] c (c.repairBody i) := by
  unfold Chip.repairBody
  split
  · exact Chip.Same.refl _ c
  · intro x hx; cases x <;> first | exact absurd (by decide) hx | rfl | exact ⟨rfl, rfl⟩

theorem Chip.same_nodesUp (c : Chip) : Chip.Same [.slm] c c.nodesUp := c.same_withSlm _

/-! ### The report tenure -/

/-- The pieces that a report tenure can change. -/
def reportPieces : List Piece := [.rpu, .statusMark, .slm, .tenure]

theorem Chip.same_withRpu (r : Rpu) (c : Chip) : Chip.Same reportPieces c { c with rpu := r } := by
  intro x hx; cases x <;> first | exact absurd (by decide) hx | rfl | exact ⟨rfl, rfl⟩

theorem Chip.same_reportStatus (c : Chip) : Chip.Same reportPieces c c.reportStatus := by
  unfold Chip.reportStatus
  exact Chip.Same.ite ((c.same_withRpu _).then ((Chip.same_writeStation _ _ _).mono (by decide))) (Chip.Same.refl _ c)

theorem Chip.same_reportCopy (c : Chip) : Chip.Same reportPieces c c.reportCopy := by
  unfold Chip.reportCopy
  exact Chip.Same.ite ((c.same_withRpu _).then ((Chip.same_writeStation _ _ _).mono (by decide))) (Chip.Same.refl _ c)

theorem Chip.same_reportSnapshot (c : Chip) : Chip.Same reportPieces c c.reportSnapshot := by
  unfold Chip.reportSnapshot
  split
  · split
    · intro x hx; cases x <;> first | exact absurd (by decide) hx | rfl | exact ⟨rfl, rfl⟩
    · exact Chip.Same.refl _ c
  · exact Chip.Same.refl _ c

theorem Chip.same_reportNote (n : Note) (c : Chip) : Chip.Same reportPieces c (c.reportNote n) := by
  unfold Chip.reportNote
  intro x hx; cases x <;> first | exact absurd (by decide) hx | rfl | exact ⟨rfl, rfl⟩

theorem Chip.same_reportNotes (c : Chip) : Chip.Same reportPieces c c.reportNotes := by
  unfold Chip.reportNotes
  dsimp only
  have h := (c.same_withRpu { c.rpu with notes := c.rpu.notes.drop ((c.accessesLeft - 1) / 4) }).then
    (Chip.Same.foldl (fun c n => Chip.reportNote c n) (fun c n => c.same_reportNote n)
      (c.rpu.notes.take ((c.accessesLeft - 1) / 4)) _)
  split
  · exact (h.then (Chip.same_withRpu _ _)).then ((Chip.same_writeStation _ _ _).mono (by decide))
  · split
    · exact (h.then (Chip.same_withRpu _ _)).then ((Chip.same_writeStation _ _ _).mono (by decide))
    · exact h
  · exact h

theorem Chip.same_reportCounter (i : Nat) (c : Chip) : Chip.Same reportPieces c (c.reportCounter i) := by
  unfold Chip.reportCounter
  exact Chip.Same.ite ((c.same_withRpu _).then ((Chip.same_writeStation _ _ _).mono (by decide))) (Chip.Same.refl _ c)

theorem Chip.same_reportBody (c : Chip) : Chip.Same reportPieces c c.reportBody := by
  unfold Chip.reportBody
  exact (((c.same_reportStatus.then (Chip.same_reportCopy _)).then (Chip.same_reportSnapshot _)).then
    (Chip.same_reportNotes _)).then (Chip.Same.foldl _ (fun c i => c.same_reportCounter i) _ _)

theorem Chip.same_snapshotWritten (c : Chip) : Chip.Same nodePieces c c.snapshotWritten := by
  unfold Chip.snapshotWritten
  dsimp only
  have h := (c.same_raise .lineEdge).mono (N := nodePieces) (by decide)
  exact Chip.Same.ite h (h.then ((Chip.same_withSlm _ _).mono (by decide)))

end Sys2Proof.Machine
end

