-- ==== Sys2Proof/Laws/Taps.lean ====
section
/-! SUPPORT. What the operations of the Tap Order Engine can change. -/

namespace Sys2Proof.Machine

/-- The pieces that the work of the Tap Order Engine can reach. -/
def tapPieces : List Piece := [.toe, .tenure, .clu, .rpu, .statusMark, .tapLink]

theorem Chip.same_withToe (t : Toe) (c : Chip) : Chip.Same [.toe] c { c with toe := t } := by
  intro x hx; cases x <;> first | exact absurd (by decide) hx | rfl | exact ⟨rfl, rfl⟩

theorem Chip.same_writeStatus (n : Nat) (s : TapStatus) (c : Chip) : Chip.Same [.tenure] c (c.writeStatus n s) :=
  c.same_write _ _

theorem Chip.same_writeMoved (m : Memory) (n : Nat) (c : Chip) : Chip.Same [.tenure] c (c.writeMoved m n) :=
  c.same_write _ _

theorem Chip.same_writeDraft (n : Nat) (d : TapDraft) (c : Chip) : Chip.Same [.tenure] c (c.writeDraft n d) := by
  unfold Chip.writeDraft
  dsimp only
  have h1 : Chip.Same [.tenure] c (if d.timed = true then c.writeRecord .subscribers n 4 c.tbu.wall else c) :=
    Chip.Same.ite (c.same_write _ _) (Chip.Same.refl _ c)
  revert h1
  generalize (if d.timed = true then c.writeRecord .subscribers n 4 c.tbu.wall else c) = c1
  intro h1
  exact h1.then (Chip.Same.ite (c1.same_write _ _) (Chip.Same.refl _ c1))

theorem Chip.same_writeCommit (n : Nat) (o : OrderState) (u : BitVec 4) (d : TapDraft) (c : Chip) :
    Chip.Same [.tenure] c (c.writeCommit n o u d) := Chip.same_writeStatus _ _ _

theorem Chip.same_commitTap (n : Nat) (o : OrderState) (u : BitVec 4) (d : TapDraft) (c : Chip) :
    Chip.Same [.tenure] c (c.commitTap n o u d) := (c.same_writeDraft n d).then (Chip.same_writeCommit _ _ _ _ _)

theorem Chip.same_commitTap' (n : Nat) (o : OrderState) (u : BitVec 4) (d : TapDraft) (c : Chip) :
    Chip.Same tapPieces c (c.commitTap n o u d) := (c.same_commitTap n o u d).mono (by decide)

theorem Chip.same_withToe' (t : Toe) (c : Chip) : Chip.Same tapPieces c { c with toe := t } :=
  (c.same_withToe t).mono (by decide)

theorem Chip.same_append' (r : LogRecord) (b : Bool) (c : Chip) : Chip.Same tapPieces c (c.append r b) :=
  (c.same_append r b).mono (by decide)

/-! ### Evaluation -/

theorem Chip.same_evaluateRecord (m : Memory) (r : EvalRequest) (c : Chip) :
    Chip.Same tapPieces c (c.evaluateRecord m r) := by
  unfold Chip.evaluateRecord
  dsimp only
  exact (Chip.Same.ite (c.same_withToe' _) (Chip.Same.refl _ c)).then (Chip.same_commitTap' _ _ _ _ _)

theorem Chip.same_retireRecord (m : Memory) (r : EvalRequest) (c : Chip) :
    Chip.Same tapPieces c (c.retireRecord m r) := by
  unfold Chip.retireRecord
  dsimp only
  split
  · exact c.same_evaluateRecord m r
  · split
    · exact Chip.Same.refl _ c
    · exact (Chip.Same.ite (Chip.Same.refl _ c) (c.same_append' _ _)).then ((Chip.same_write _ _ _).mono (by decide))

theorem Chip.same_evaluationBody (m : Memory) (c : Chip) : Chip.Same tapPieces c (c.evaluationBody m) := by
  unfold Chip.evaluationBody
  split
  · exact Chip.Same.refl _ c
  · dsimp only
    exact (c.same_withToe' _).then (Chip.Same.ite (Chip.same_retireRecord _ _ _) (Chip.same_evaluateRecord _ _ _))

/-! ### Sending -/

theorem Chip.same_departHead (m : Memory) (l : List QueueEntry) (c : Chip) :
    Chip.Same tapPieces c (c.departHead m l) := by
  unfold Chip.departHead
  dsimp only
  split
  · exact c.same_withToe' _
  · exact (c.same_withToe' _).then ((Chip.same_writeMoved _ _ _).mono (by decide))

theorem Chip.same_sendHead (m : Memory) (q : QueueEntry) (l : List QueueEntry) (d : TapDraft) (c : Chip) :
    Chip.Same tapPieces c (c.sendHead m q l d) := by
  unfold Chip.sendHead
  dsimp only
  have h1 : ∀ b : Bool, Chip.Same tapPieces c (if b = true then c.reserve else c) :=
    fun b => Chip.Same.ite (c.same_reserve.mono (by decide)) (Chip.Same.refl _ c)
  exact ((((h1 _).then (Chip.same_withToe' _ _)).then (Chip.same_departHead _ _ _)).then
    (Chip.same_commitTap' _ _ _ _ _)).then ((Chip.same_owe _ _).mono (by decide))

theorem Chip.same_sendBody (m : Memory) (c : Chip) : Chip.Same tapPieces c (c.sendBody m) := by
  unfold Chip.sendBody
  split
  · exact Chip.Same.refl _ c
  · dsimp only
    split
    · exact (c.same_departHead _ _).then (Chip.same_commitTap' _ _ _ _ _)
    · split
      · exact ((c.same_departHead _ _).then (Chip.same_withToe' _ _)).then (Chip.same_commitTap' _ _ _ _ _)
      · split
        · exact (c.same_departHead _ _).then (Chip.same_commitTap' _ _ _ _ _)
        · split
          · exact ((c.same_withToe' _).then ((Chip.same_markStatus _).mono (by decide))).then
              (Chip.same_commitTap' _ _ _ _ _)
          · split
            · exact c.same_sendHead _ _ _ _
            · exact c.same_commitTap' _ _ _ _

theorem Chip.same_decideEnding (n : Nat) (e : Ending) (c : Chip) : Chip.Same tapPieces c (c.decideEnding n e) :=
  c.same_withToe' _

theorem Chip.same_startAttempt (f : Flight) (c : Chip) : Chip.Same tapPieces c (c.startAttempt f) := by
  intro x hx; cases x <;> first | exact absurd (by decide) hx | rfl | exact ⟨rfl, rfl⟩

theorem Chip.same_firstAttempt (n : Nat) (c : Chip) : Chip.Same tapPieces c (c.firstAttempt n) := by
  unfold Chip.firstAttempt
  split
  · exact Chip.Same.refl _ c
  · split
    · exact Chip.Same.refl _ c
    · split
      · exact c.same_decideEnding _ _
      · split
        · exact (c.same_withToe' _).then (Chip.same_decideEnding _ _ _)
        · exact c.same_startAttempt _

/-! ### Replies and endings -/

theorem Chip.same_tapReply (m : Memory) (r : TapReply) (c : Chip) : Chip.Same tapPieces c (c.tapReply m r) := by
  unfold Chip.tapReply
  split
  · exact (c.same_count _).mono (by decide)
  · dsimp only
    exact (c.same_withToe' _).then (Chip.Same.ite (Chip.same_decideEnding _ _ _) (Chip.Same.refl _ _))

theorem Chip.same_takeLevel (n : Nat) (b : Bool) (l r : BitVec 2) (d : TapDraft) (c : Chip) :
    Chip.Same tapPieces c (c.takeLevel n b l r d).chip := by
  unfold Chip.takeLevel
  dsimp only
  split
  · exact Chip.Same.refl _ c
  · split
    · exact c.same_append' _ _
    · split
      · exact c.same_append' _ _
      · exact Chip.Same.refl _ c

theorem Chip.same_takeGate (g : Bool) (d : TapDraft) (c : Chip) : Chip.Same tapPieces c (c.takeGate g d).2 := by
  unfold Chip.takeGate
  dsimp only
  split
  · exact c.same_unreserve.mono (by decide)
  · exact Chip.Same.refl _ c

theorem Chip.same_takeValues (n : Nat) (b : Bool) (l r : BitVec 2) (g : Bool) (d : TapDraft) (c : Chip) :
    Chip.Same tapPieces c (c.takeValues n b l r g d).chip :=
  (c.same_takeLevel n b l r d).then (Chip.same_takeGate _ _ _)

theorem Chip.same_takeReply (f : Flight) (d : TapDraft) (c : Chip) : Chip.Same tapPieces c (c.takeReply f d).chip := by
  unfold Chip.takeReply
  split
  · exact Chip.Same.refl _ c
  · exact c.same_takeValues _ _ _ _ _ _

theorem Chip.same_replyBody (m : Memory) (f : Flight) (c : Chip) : Chip.Same tapPieces c (c.replyBody m f) :=
  ((c.same_takeReply f _).then (Chip.same_withToe' _ _)).then (Chip.same_commitTap' _ _ _ _ _)

theorem Chip.same_leaveFlight (n : Nat) (b : Bool) (c : Chip) : Chip.Same tapPieces c (c.leaveFlight n b) := by
  unfold Chip.leaveFlight
  dsimp only
  exact (Chip.Same.ite (c.same_unreserve.mono (by decide)) (Chip.Same.refl _ c)).then (Chip.same_withToe' _ _)

theorem Chip.same_rejoin (f : Flight) (d : TapDraft) (c : Chip) : Chip.Same tapPieces c (Chip.rejoin f d c) := by
  unfold Chip.rejoin
  split
  · exact Chip.Same.refl _ c
  · exact c.same_withToe' _
  · exact Chip.Same.ite (c.same_withToe' _) (Chip.Same.refl _ c)

theorem Chip.same_failBody (m : Memory) (f : Flight) (c : Chip) : Chip.Same tapPieces c (c.failBody m f) := by
  unfold Chip.failBody
  dsimp only
  have h0 := c.same_takeReply f (c.tapDraft m f.subscriber)
  have h1 : ∀ (b : Bool) (r : LogRecord), Chip.Same tapPieces c
      (if b = true then (c.takeReply f (c.tapDraft m f.subscriber)).chip.append r true
        else (c.takeReply f (c.tapDraft m f.subscriber)).chip) :=
    fun b r => Chip.Same.ite (h0.then (Chip.same_append' _ _ _)) h0
  exact (((((h1 _ _).then (Chip.same_leaveFlight _ _ _)).then (Chip.same_rejoin _ _ _)).then
    (Chip.same_commitTap' _ _ _ _ _)).then ((Chip.same_owe _ _).mono (by decide))).then
    ((Chip.same_owe _ _).mono (by decide))

theorem Chip.same_heldBody (m : Memory) (f : Flight) (c : Chip) : Chip.Same tapPieces c (c.heldBody m f) := by
  unfold Chip.heldBody
  dsimp only
  exact (((c.same_takeReply f _).then (Chip.same_leaveFlight _ _ _)).then (Chip.same_withToe' _ _)).then
    (Chip.same_commitTap' _ _ _ _ _)

theorem Chip.same_returnedBody (m : Memory) (f : Flight) (c : Chip) : Chip.Same tapPieces c (c.returnedBody m f) := by
  unfold Chip.returnedBody
  dsimp only
  have h := (c.same_takeReply f (c.tapDraft m f.subscriber)).then
    (Chip.same_leaveFlight f.subscriber (c.takeReply f (c.tapDraft m f.subscriber)).reserved _)
  refine Chip.Same.then ?_ ((Chip.same_writeCommit _ _ _ _ _).mono (by decide))
  split
  · exact (h.then (Chip.same_withToe' _ _)).then ((Chip.same_writeDraft _ _ _).mono (by decide))
  · exact ((h.then (Chip.same_withToe' _ _)).then ((Chip.same_writeDraft _ _ _).mono (by decide))).then
      ((Chip.same_writeMoved _ _ _).mono (by decide))

theorem Chip.same_finishOrder (f : Flight) (r : BitVec 3) (l : LevelTaken) :
    Chip.Same tapPieces l.chip (Chip.finishOrder f r l) := by
  unfold Chip.finishOrder
  exact ((Chip.same_leaveFlight _ _ _).then (Chip.same_rejoin _ _ _)).then (Chip.same_commitTap' _ _ _ _ _)

theorem Chip.same_unconfirmedBody (m : Memory) (f : Flight) (c : Chip) :
    Chip.Same tapPieces c (c.unconfirmedBody m f) := by
  unfold Chip.unconfirmedBody
  exact ((c.same_takeReply f _).then (Chip.same_takeValues _ _ _ _ _ _ _)).then (Chip.same_finishOrder _ _ _)

theorem Chip.same_confirmedBody (m : Memory) (f : Flight) (c : Chip) :
    Chip.Same tapPieces c (c.confirmedBody m f) := by
  unfold Chip.confirmedBody
  dsimp only
  split
  · exact (c.same_takeReply f _).then (Chip.same_finishOrder _ _ _)
  · exact (((c.same_takeReply f _).then (Chip.same_withToe' _ _)).then (Chip.same_commitTap' _ _ _ _ _)).then
      ((Chip.same_owe _ _).mono (by decide))

theorem Chip.same_tapLinkBody (m : Memory) (n : Nat) (c : Chip) : Chip.Same tapPieces c (c.tapLinkBody m n) := by
  unfold Chip.tapLinkBody
  split
  · exact Chip.Same.refl _ c
  · split
    · exact c.same_replyBody _ _
    · exact c.same_failBody _ _
    · exact c.same_heldBody _ _
    · exact c.same_returnedBody _ _
    · exact c.same_unconfirmedBody _ _
    · exact c.same_confirmedBody _ _

theorem Chip.same_linkBody (m : Memory) (j : Job) (c : Chip) : Chip.Same tapPieces c (c.linkBody m j) := by
  unfold Chip.linkBody
  split
  · exact c.same_tapLinkBody _ _
  · exact Chip.Same.refl _ c

theorem Chip.same_redeadline (n : Nat) (c : Chip) : Chip.Same tapPieces c (c.redeadline n) := c.same_withToe' _

theorem Chip.same_retry (f : Flight) (c : Chip) : Chip.Same tapPieces c (c.retry f) :=
  (c.same_withToe' _).then (Chip.same_startAttempt _ _)

theorem Chip.same_tapExpiry (f : Flight) (c : Chip) : Chip.Same tapPieces c (c.tapExpiry f) := by
  unfold Chip.tapExpiry
  repeat' split
  all_goals first | exact c.same_decideEnding _ _ | exact c.same_retry _

/-! ### The load walk and stopping -/

theorem Chip.same_eventSetBody (m : Memory) (c : Chip) : Chip.Same tapPieces c (c.eventSetBody m) := by
  unfold Chip.eventSetBody
  split
  · exact Chip.Same.refl _ c
  · exact c.same_withToe' _

theorem Chip.same_walkDemand (n : Nat) (k : Bool) (d : TapDraft) (c : Chip) :
    Chip.Same tapPieces c (c.walkDemand n k d).2.2 := by
  unfold Chip.walkDemand
  dsimp only
  repeat' split
  all_goals first
    | exact Chip.Same.refl _ c
    | exact c.same_reserve.mono (by decide)
    | exact (c.same_reserve.mono (by decide)).then (Chip.same_append' _ _ _)

theorem Chip.same_walkSubscriber (m : Memory) (e : List (BitVec 8 × Nat)) (n : Nat) (c : Chip) :
    Chip.Same tapPieces c (c.walkSubscriber m e n) := by
  unfold Chip.walkSubscriber
  dsimp only
  split
  · exact ((c.same_walkDemand _ _ _).then (Chip.same_withToe' _ _)).then (Chip.same_commitTap' _ _ _ _ _)
  · split
    · exact (c.same_walkDemand _ _ _).then ((Chip.same_write _ _ _).mono (by decide))
    · exact c.same_walkDemand _ _ _

theorem Chip.same_subscriberWalkBody (m : Memory) (c : Chip) : Chip.Same tapPieces c (c.subscriberWalkBody m) := by
  unfold Chip.subscriberWalkBody
  split
  · exact Chip.Same.refl _ c
  · exact (c.same_walkSubscriber _ _ _).then (Chip.same_withToe' _ _)

theorem Chip.same_stopTaps (c : Chip) : Chip.Same [.toe, .statusMark] c c.stopTaps :=
  c.same_releaseBlock.then ((Chip.same_withToe _ _).mono (by decide))

end Sys2Proof.Machine
end

