-- ==== Sys2Proof/Laws/Blocks.lean ====
section
/-! SUPPORT. What sweeps, purchases, the log's own tenures, the lifecycle, taken commands and the receivers can change. -/

namespace Sys2Proof.Machine

/-- Every piece inside the blocks but time, the map and the settings. -/
def innerPieces : List Piece :=
  [.tenure, .jobs, .lcc, .lue, .toe, .slm, .swe, .pcu, .clu, .low, .rpu, .statusMark, .routeLink, .tapLink]

/-! ### Sweeps -/

/-- The pieces that the work of the Sweep Engine can reach. -/
def sweepPieces : List Piece := [.swe, .slm, .lue, .clu, .rpu, .statusMark, .routeLink, .tenure]

theorem Chip.same_withSwe (s : Swe) (c : Chip) : Chip.Same [.swe] c { c with swe := s } := by
  intro x hx; cases x <;> first | exact absurd (by decide) hx | rfl | exact ⟨rfl, rfl⟩

theorem Chip.same_sweepOff (l : List SweepEntry) (c : Chip) : Chip.Same [.swe, .statusMark] c (c.sweepOff l) :=
  ((c.same_withSwe _).mono (by decide)).then ((Chip.same_marking _ _).mono (by decide))

theorem Chip.same_sweepOff' (l : List SweepEntry) (c : Chip) : Chip.Same sweepPieces c (c.sweepOff l) :=
  (c.same_sweepOff l).mono (by decide)

theorem Chip.same_sweepLeaves (c : Chip) : Chip.Same sweepPieces c c.sweepLeaves := c.same_sweepOff' _

theorem Chip.same_endUnrecorded (e : SweepEntry) (c : Chip) : Chip.Same sweepPieces c (c.endUnrecorded e) :=
  (c.same_sweepOff' _).then ((Chip.same_raise _ _).mono (by decide))

theorem Chip.same_endClose (n : BitVec 8) (c : Chip) : Chip.Same sweepPieces c (c.endClose n) :=
  (c.same_sweepLeaves.then ((Chip.same_closeEnded _ _).mono (by decide))).then ((Chip.same_raise _ _).mono (by decide))

theorem Chip.same_endRecorded (n : BitVec 16) (c : Chip) : Chip.Same sweepPieces c (c.endRecorded n) :=
  (((Chip.same_markSwept n c).mono (by decide)).then (Chip.same_sweepLeaves _)).then
    ((Chip.same_raise _ _).mono (by decide))

theorem Chip.same_sweepAdvance (c : Chip) : Chip.Same sweepPieces c c.sweepAdvance := by
  unfold Chip.sweepAdvance
  split
  · split
    · split
      · exact c.same_endClose _
      · split
        · exact Chip.Same.refl _ c
        · exact c.same_endUnrecorded _
    · exact Chip.Same.refl _ c
  · exact Chip.Same.refl _ c

theorem Chip.same_startSweep (c : Chip) : Chip.Same sweepPieces c c.startSweep := by
  unfold Chip.startSweep
  split
  · split
    · exact (((c.same_withSwe _).mono (by decide)).then ((Chip.same_markStatus _).mono (by decide))).then
        (Chip.same_sweepAdvance _)
    · exact Chip.Same.refl _ c
  · exact Chip.Same.refl _ c

theorem Chip.same_sweepStartBody (m : Memory) (c : Chip) : Chip.Same sweepPieces c (c.sweepStartBody m) := by
  unfold Chip.sweepStartBody
  split
  · split
    · exact (c.same_withSwe _).mono (by decide)
    · exact Chip.Same.refl _ c
  · exact Chip.Same.refl _ c

theorem Chip.same_logWait (e : SweepEntry) (c : Chip) : Chip.Same sweepPieces c (c.logWait e) := by
  unfold Chip.logWait
  exact Chip.Same.ite ((c.same_sweepOff' _).then ((Chip.same_owe _ _).mono (by decide))) (Chip.Same.refl _ c)

theorem Chip.same_restoreRequest (n k : Nat) (o : OrderState) (c : Chip) :
    Chip.Same sweepPieces c (c.restoreRequest n k o) := by
  unfold Chip.restoreRequest
  repeat' split
  all_goals first | exact (c.same_owe _).mono (by decide) | exact Chip.Same.refl _ c

theorem Chip.same_restoreStep (m : Memory) (e : SweepEntry) (w : SweepWork) (n : Nat) (o : BitVec 16) (c : Chip) :
    Chip.Same sweepPieces c (c.restoreStep m e w n o) := by
  unfold Chip.restoreStep
  dsimp only
  split
  · exact c.same_logWait e
  · have h1 : Chip.Same sweepPieces c (c.writeProgress w (e.resume + 1)) := by
      unfold Chip.writeProgress
      split
      · exact (c.same_write _ _).mono (by decide)
      · exact Chip.Same.refl _ c
    have h2 : ∀ (b : Bool) (r : LogRecord), Chip.Same sweepPieces c
        (if b = true then (c.writeProgress w (e.resume + 1)).append r false else c.writeProgress w (e.resume + 1)) :=
      fun b r => Chip.Same.ite (h1.then ((Chip.same_append _ _ _).mono (by decide))) h1
    refine Chip.Same.then ?_ ((Chip.same_withSwe _ _).mono (by decide))
    exact Chip.Same.ite ((h2 _ _).then (Chip.same_restoreRequest _ _ _ _)) (h2 _ _)

theorem Chip.same_stepped (c : Chip) : Chip.Same sweepPieces c c.stepped := (c.same_withSwe _).mono (by decide)

theorem Chip.same_closeStep (m : Memory) (e : SweepEntry) (n : BitVec 8) (c : Chip) :
    Chip.Same sweepPieces c (c.closeStep m e n) := by
  unfold Chip.closeStep
  dsimp only
  split
  · have h : ∀ (b : Bool) (r : LogRecord), Chip.Same sweepPieces c (if b = true then c else c.append r true) :=
      fun b r => Chip.Same.ite (Chip.Same.refl _ c) ((c.same_append _ _).mono (by decide))
    exact (((h _ _).then ((Chip.same_write _ _ _).mono (by decide))).then
      ((Chip.same_owe _ _).mono (by decide))).then (Chip.same_stepped _)
  · exact c.same_stepped

theorem Chip.same_sweepStepBody (m : Memory) (c : Chip) : Chip.Same sweepPieces c (c.sweepStepBody m) := by
  unfold Chip.sweepStepBody
  split
  · split
    · exact c.same_restoreStep _ _ _ _ _
    · exact c.same_closeStep _ _ _
  · exact Chip.Same.refl _ c

theorem Chip.same_sweepEndBody (c : Chip) : Chip.Same [.tenure] c c.sweepEndBody := by
  unfold Chip.sweepEndBody
  split
  · split
    · exact (c.same_write _ _).then (Chip.same_write _ _ _)
    · exact Chip.Same.refl _ c
  · exact Chip.Same.refl _ c

theorem Chip.same_sweepTenureEnded (j : Job) (c : Chip) : Chip.Same sweepPieces c (c.sweepTenureEnded j) := by
  unfold Chip.sweepTenureEnded
  split
  · exact Chip.Same.refl _ c
  · split
    · exact c.same_endRecorded _
    · exact Chip.Same.ite c.same_sweepAdvance (Chip.Same.ite (c.same_endClose _) c.same_sweepLeaves)
    · exact Chip.Same.ite c.same_sweepAdvance c.same_sweepLeaves

theorem Chip.same_stopSweeps (c : Chip) : Chip.Same [.swe, .statusMark] c c.stopSweeps := by
  unfold Chip.stopSweeps
  exact Chip.Same.ite ((c.same_withSwe _).mono (by decide)) (c.same_sweepOff _)

/-! ### Purchases -/

/-- The pieces that an evaluation tenure can change at its grant. -/
def purchasePieces : List Piece := [.tenure, .clu]

theorem Chip.same_withPcu (x : Pcu) (c : Chip) : Chip.Same [.pcu] c { c with pcu := x } := by
  intro x hx; cases x <;> first | exact absurd (by decide) hx | rfl | exact ⟨rfl, rfl⟩

theorem Chip.same_beginEvaluation (p : Port) (v : Word) (c : Chip) : Chip.Same [.pcu] c (c.beginEvaluation p v) := by
  unfold Chip.beginEvaluation
  split
  · exact Chip.Same.refl _ c
  · exact c.same_withPcu _

theorem Chip.same_endAccess (p : Port) (e : Bool) (d : Word) (c : Chip) :
    Chip.Same [portPiece p, .arbiter] c (Chip.endAccess p e d c) := by
  unfold Chip.endAccess
  dsimp only
  have h : Chip.Same [portPiece p, .arbiter] c
      (c.withPort p { c.port p with out := none, answer := some ⟨e, d⟩ }) :=
    (c.same_withPort p _).mono (by simp)
  split
  · exact Chip.Same.ite (h.then ((Chip.same_withPar _ _).mono (by simp))) h
  · exact h

/-- Taking held writes changes the ports, the arbiter, the PCU and what a refusal reports. -/
theorem Chip.same_takeHeld (l : List Port) (c : Chip) :
    Chip.Same [.pcu, .portA, .portB, .arbiter, .rpu] c (Chip.takeHeld l c) := by
  induction l generalizing c with
  | nil => exact Chip.Same.refl _ c
  | cons p l ih =>
    have hp : ∀ x ∈ [portPiece p, Piece.arbiter], x ∈ [Piece.pcu, .portA, .portB, .arbiter, .rpu] := by
      cases p <;> decide
    unfold Chip.takeHeld
    split
    · exact Chip.Same.refl _ c
    · have h : Chip.Same [.pcu, .portA, .portB, .arbiter, .rpu] c { c with pcu := { c.pcu with held := l } } :=
        (c.same_withPcu _).mono (by decide)
      dsimp only
      split
      · exact h.then (ih _)
      · split
        · exact ((h.then ((Chip.same_noteRefusal _ _ _ _).mono (by decide))).then
            ((Chip.same_endAccess _ _ _ _).mono hp)).then (ih _)
        · exact ((h.then ((Chip.same_beginEvaluation _ _ _).mono (by decide))).then
            ((Chip.same_endAccess _ _ _ _).mono hp)).then (ih _)

theorem Chip.same_writeDemand (n : Nat) (d : BitVec 8) (b : Bool) (c : Chip) :
    Chip.Same purchasePieces c (c.writeDemand n d b) :=
  ((c.same_write _ _).then (Chip.same_owe _ _)).mono (by decide)

theorem Chip.same_buyWrites (v : PurchaseView) (i : BitVec 7) (e : Entry) (c : Chip) :
    Chip.Same purchasePieces c (c.buyWrites v i e) := by
  unfold Chip.buyWrites
  dsimp only
  have h := (c.same_append (purchaseLogRecord c.stamp v.sub e.number i e.price) false).mono
    (N := purchasePieces) (by decide)
  split
  · exact h.then (Chip.same_writeDemand _ _ _ _)
  · exact (h.then ((Chip.same_reserve _).mono (by decide))).then (Chip.same_writeDemand _ _ _ _)

theorem Chip.same_cancelWrites (v : PurchaseView) (e : Entry) (c : Chip) :
    Chip.Same purchasePieces c (c.cancelWrites v e) :=
  ((c.same_append _ _).mono (by decide)).then (Chip.same_writeDemand _ _ _ _)

theorem Chip.same_purchaseBody (m : Memory) (c : Chip) : Chip.Same purchasePieces c (c.purchaseBody m) := by
  unfold Chip.purchaseBody
  split
  · exact Chip.Same.refl _ c
  · dsimp only
    refine Chip.Same.then ?_ ((Chip.same_owe _ _).mono (by decide))
    have h : ∀ r, Chip.Same purchasePieces c (c.owe (.purchaseEnd r)) := fun r => (c.same_owe _).mono (by decide)
    refine Chip.Same.ite ?_ (h _)
    split
    · exact (h _).then (Chip.same_buyWrites _ _ _ _)
    · exact (h _).then (Chip.same_cancelWrites _ _ _)
    · exact h _

theorem Chip.same_endEvaluation (r : PurchaseResult) (c : Chip) : Chip.Same [.pcu] c (c.endEvaluation r) :=
  c.same_withPcu _

/-! ### The charge log's own tenures and the space notice -/

theorem Chip.same_spaceNotice (c : Chip) : Chip.Same [.toe, .statusMark, .swe, .clu] c c.spaceNotice := by
  unfold Chip.spaceNotice
  split
  · dsimp only
    refine Chip.Same.then (c.same_releaseBlock.mono (by decide)) ?_
    intro x hx; cases x <;> first | exact absurd (by decide) hx | rfl | exact ⟨rfl, rfl⟩
  · exact Chip.Same.refl _ c

theorem Chip.same_releaseBody (c : Chip) : Chip.Same [.clu, .tenure] c c.releaseBody := by
  unfold Chip.releaseBody
  split
  · exact Chip.Same.refl _ c
  · intro x hx; cases x <;> first | exact absurd (by decide) hx | rfl | exact ⟨rfl, rfl⟩

theorem Chip.same_withClu (x : Clu) (c : Chip) (h : x.low = c.clu.low := by rfl) :
    Chip.Same [.clu] c { c with clu := x } := by
  intro y hy; cases y <;> first | exact absurd (by decide) hy | rfl | exact ⟨rfl, rfl⟩ | exact h

theorem Chip.appendWith_low (r : LogRecord) (d n : Word) (k : BitVec 16) (b : Bool) (c : Chip) :
    (c.appendWith r d n k b).clu.low = c.clu.low := by
  unfold Chip.appendWith
  split <;> rfl

theorem Chip.same_closeBody (c : Chip) : Chip.Same [.clu, .tenure] c c.closeBody := by
  unfold Chip.closeBody
  split
  · exact Chip.Same.refl _ c
  · split
    · exact (((c.same_appendWith _ _ _ _ _).mono (by decide)).then ((Chip.same_withClu _ _).mono (by decide))).then
        ((Chip.same_owe _ _).mono (by decide))
    · exact (c.same_withClu _).mono (by decide)

theorem Chip.same_logLoadBody (m : Memory) (c : Chip) : Chip.Same [.clu] c (c.logLoadBody m) := c.same_withClu _

/-! ### Lifecycle -/

/-- The pieces that entry into LOADING changes. -/
def loadPieces : List Piece := [.jobs, .lcc, .tbu, .lue, .toe, .slm, .swe, .pcu, .clu, .low, .statusMark]

theorem Chip.same_enterLoading (c : Chip) : Chip.Same loadPieces c c.enterLoading := by
  intro x hx; cases x <;> first | exact absurd (by decide) hx | rfl

theorem Chip.same_autostart (m : Memory) (c : Chip) : Chip.Same loadPieces c (c.autostart m) := by
  unfold Chip.autostart
  exact Chip.Same.ite c.same_enterLoading (Chip.Same.refl _ c)

theorem Chip.same_enterLoadFault (f : BitVec 11) (c : Chip) :
    Chip.Same [.jobs, .lcc, .rpu, .statusMark] c (c.enterLoadFault f) := by
  unfold Chip.enterLoadFault
  refine Chip.Same.then ?_ ((Chip.same_raise _ _).mono (by decide))
  intro x hx; cases x <;> first | exact absurd (by decide) hx | rfl

theorem Chip.same_phase1Body (m : Memory) (j : Job) (c : Chip) : Chip.Same [.lcc, .tenure] c (c.phase1Body m j) := by
  unfold Chip.phase1Body
  split
  · intro x hx; cases x <;> first | exact absurd (by decide) hx | rfl | exact ⟨rfl, rfl⟩
  · exact (c.same_write _ _).mono (by decide)

theorem Chip.same_phase2Body (m : Memory) (j : Job) (c : Chip) : Chip.Same [.lcc] c (c.phase2Body m j) := by
  unfold Chip.phase2Body
  split
  · intro x hx; cases x <;> first | exact absurd (by decide) hx | rfl | exact ⟨rfl, rfl⟩
  · exact Chip.Same.refl _ c

theorem Chip.same_phase3Body (m : Memory) (j : Job) (c : Chip) : Chip.Same [.lcc, .tenure] c (c.phase3Body m j) := by
  unfold Chip.phase3Body
  split
  · intro x hx; cases x <;> first | exact absurd (by decide) hx | rfl | exact ⟨rfl, rfl⟩
  · exact (c.same_write _ _).mono (by decide)

theorem Chip.same_endPhase1 (c : Chip) :
    Chip.Same [.map, .settings, .rpu, .statusMark, .lcc, .jobs] c c.endPhase1 := by
  unfold Chip.endPhase1
  dsimp only
  split
  · intro x hx; cases x <;> first | exact absurd (by decide) hx | rfl
  · refine Chip.Same.then ?_ ((Chip.same_enterLoadFault _ _).mono (by decide))
    intro x hx; cases x <;> first | exact absurd (by decide) hx | rfl

theorem Chip.same_endPhase2 (c : Chip) : Chip.Same [.slm, .lcc, .jobs, .statusMark] c c.endPhase2 := by
  intro x hx; cases x <;> first | exact absurd (by decide) hx | rfl

theorem Chip.same_endPhase3 (c : Chip) : Chip.Same [.lcc, .clu, .jobs, .rpu, .statusMark] c c.endPhase3 := by
  unfold Chip.endPhase3
  split
  · exact Chip.Same.refl _ c
  · dsimp only
    split
    · intro x hx; cases x <;> first | exact absurd (by decide) hx | rfl
    · refine Chip.Same.then ?_ ((Chip.same_enterLoadFault _ _).mono (by decide))
      intro x hx; cases x <;> first | exact absurd (by decide) hx | rfl

theorem Chip.same_beginPhase4 (c : Chip) : Chip.Same [.lcc, .jobs, .statusMark] c c.beginPhase4 := by
  unfold Chip.beginPhase4
  refine Chip.Same.ite ?_ (Chip.Same.refl _ c)
  intro x hx; cases x <;> first | exact absurd (by decide) hx | rfl

theorem Chip.same_endPhase4 (c : Chip) : Chip.Same [.lcc, .toe, .statusMark] c c.endPhase4 := by
  unfold Chip.endPhase4
  refine Chip.Same.ite ?_ (Chip.Same.refl _ c)
  intro x hx; cases x <;> first | exact absurd (by decide) hx | rfl | exact ⟨rfl, rfl⟩

theorem Chip.same_endPhase5 (c : Chip) : Chip.Same [.lcc, .toe, .lue, .statusMark] c c.endPhase5 := by
  unfold Chip.endPhase5
  split
  · exact Chip.Same.refl _ c
  · refine Chip.Same.ite ?_ (Chip.Same.refl _ c)
    intro x hx; cases x <;> first | exact absurd (by decide) hx | rfl | exact ⟨rfl, rfl⟩

theorem Chip.same_enterRunning (c : Chip) : Chip.Same (.lcc :: lineUpPieces) c c.enterRunning := by
  unfold Chip.enterRunning
  refine Chip.Same.then ?_ ((Chip.same_serveRoutes _).mono (by decide))
  intro x hx; cases x <;> first | exact absurd (by decide) hx | rfl | exact ⟨rfl, rfl⟩

/-- The pieces that entry into STOPPING changes. -/
def stopPieces : List Piece := [.lcc, .tbu, .lue, .slm, .swe, .clu, .rpu, .statusMark, .routeLink]

/-- The pieces that entry into STOPPED changes. -/
def stoppedPieces : List Piece := [.jobs, .lcc, .lue, .toe, .slm, .swe, .clu, .low, .statusMark]

theorem Chip.same_beginStopping (c : Chip) : Chip.Same stopPieces c c.beginStopping := by
  unfold Chip.beginStopping
  dsimp only
  refine Chip.Same.then (Chip.Same.then (Chip.Same.then (c.same_cancelTake.mono (by decide)) ?_)
    ((Chip.same_heartbeatTo _ _ _).mono (by decide))) ((Chip.same_stopSweeps _).mono (by decide))
  intro x hx; cases x <;> first | exact absurd (by decide) hx | rfl | exact ⟨rfl, rfl⟩

theorem Chip.same_enterStopped (c : Chip) : Chip.Same stoppedPieces c c.enterStopped := by
  unfold Chip.enterStopped
  dsimp only
  refine Chip.Same.then (Chip.Same.then (c.same_stopTaps.mono (by decide)) ?_) ((Chip.same_findLow _).mono (by decide))
  intro x hx; cases x <;> first | exact absurd (by decide) hx | rfl

/-- The part stops at once, or nothing changes. -/
theorem Chip.same_endStopping (c : Chip) : Chip.Same stoppedPieces c c.endStopping :=
  Chip.Same.ite c.same_enterStopped (Chip.Same.refl _ c)

/-- Where one of the three conditions of R33 does not hold, the part goes on stopping. -/
theorem Chip.endStopping_goes_on (c : Chip) (h : c.canStop = false) : c.endStopping = c := by
  unfold Chip.endStopping
  rw [h]
  rfl

theorem Chip.same_enterStopping (c : Chip) : Chip.Same (stoppedPieces ++ stopPieces) c c.enterStopping :=
  (c.same_beginStopping.mono (by decide)).then ((Chip.same_endStopping _).mono (by decide))

/-! ### Taken commands -/

/-- The pieces that a taken command can change: never a port, the arbiter, the map or the settings. -/
def commandPieces : List Piece :=
  [.jobs, .lcc, .tbu, .lue, .toe, .slm, .swe, .pcu, .clu, .low, .rpu, .statusMark, .routeLink]

theorem Chip.same_takeCommand (n : Nat) (p : Port) (v : Word) (c : Chip) :
    Chip.Same commandPieces c (c.takeCommand n p v) := by
  unfold Chip.takeCommand
  split
  · unfold Chip.takeControl
    split
    · exact c.same_enterLoading.mono (by decide)
    · exact c.same_enterStopping.mono (by decide)
    · intro x hx; cases x <;> first | exact absurd (by decide) hx | rfl
  · unfold Chip.takeHeartbeat
    split
    · exact (c.same_heartbeat _ _).mono (by decide)
    · exact Chip.Same.refl _ c
  · unfold Chip.takeTake
    exact Chip.Same.ite (c.same_takeWalk.mono (by decide)) (c.same_cancelTake.mono (by decide))
  · exact (c.same_beginEvaluation _ _).mono (by decide)
  · exact (c.same_setTime _).mono (by decide)
  · unfold Chip.takeRelease
    split
    · exact Chip.Same.ite (Chip.Same.refl _ c) ((c.same_withClu _).mono (by decide))
    · exact Chip.Same.refl _ c
  · exact (c.same_withClu _).mono (by decide)
  · exact Chip.Same.refl _ c

/-! ### Receivers -/

theorem Chip.same_withRouteReceiver (r : Receiver) (c : Chip) :
    Chip.Same [.routeLink] c (c.withRouteReceiver r) := by
  intro x hx; cases x <;> first | exact absurd (by decide) hx | rfl | exact ⟨rfl, rfl⟩

theorem Chip.same_dropRoute (c : Chip) : Chip.Same [.routeLink, .rpu] c c.dropRoute :=
  ((c.same_withRouteReceiver _).mono (by decide)).then ((Chip.same_count _ _).mono (by decide))

theorem Chip.same_routeFrameIn (l : List Byte) (c : Chip) : Chip.Same lineUpPieces c (c.routeFrameIn l) := by
  unfold Chip.routeFrameIn
  split
  · exact c.same_routeReply _
  · exact (c.same_count _).mono (by decide)

theorem Chip.same_routeByte (b : LineByte) (c : Chip) : Chip.Same lineUpPieces c (c.routeByte b) := by
  unfold Chip.routeByte
  dsimp only
  have h1 : Chip.Same lineUpPieces c
      (if c.routeLink.receiver.late c.tbu.mono = true then c.dropRoute else c) :=
    Chip.Same.ite (c.same_dropRoute.mono (by decide)) (Chip.Same.refl _ c)
  revert h1
  generalize (if c.routeLink.receiver.late c.tbu.mono = true then c.dropRoute else c) = c1
  intro h1
  have h2 : ∀ r, Chip.Same lineUpPieces c (c1.withRouteReceiver r) :=
    fun r => h1.then ((c1.same_withRouteReceiver r).mono (by decide))
  generalize (if c1.routeLink.receiver.got.isEmpty = true then
    Receiver.hunt 0xE2 c1.tbu.mono b else c1.routeLink.receiver.collect 4 c1.tbu.mono b) = x
  split
  · exact h2 _
  · exact (h2 _).then ((Chip.same_count _ _).mono (by decide))
  · exact (h2 _).then (Chip.same_routeFrameIn _ _)

theorem Chip.same_withTapReceiver (r : Receiver) (c : Chip) : Chip.Same [.tapLink] c (c.withTapReceiver r) := by
  intro x hx; cases x <;> first | exact absurd (by decide) hx | rfl | exact ⟨rfl, rfl⟩

theorem Chip.same_dropTap (c : Chip) : Chip.Same [.tapLink, .rpu] c c.dropTap :=
  ((c.same_withTapReceiver _).mono (by decide)).then ((Chip.same_count _ _).mono (by decide))

theorem Chip.same_tapFrameIn (m : Memory) (l : List Byte) (c : Chip) : Chip.Same tapPieces c (c.tapFrameIn m l) := by
  unfold Chip.tapFrameIn
  split
  · exact c.same_tapReply _ _
  · exact (c.same_count _).mono (by decide)

theorem Chip.same_tapByte (m : Memory) (b : LineByte) (c : Chip) : Chip.Same tapPieces c (c.tapByte m b) := by
  unfold Chip.tapByte
  dsimp only
  have h1 : Chip.Same tapPieces c (if c.tapLink.receiver.late c.tbu.mono = true then c.dropTap else c) :=
    Chip.Same.ite (c.same_dropTap.mono (by decide)) (Chip.Same.refl _ c)
  revert h1
  generalize (if c.tapLink.receiver.late c.tbu.mono = true then c.dropTap else c) = c1
  intro h1
  have h2 : ∀ r, Chip.Same tapPieces c (c1.withTapReceiver r) :=
    fun r => h1.then ((c1.same_withTapReceiver r).mono (by decide))
  generalize (if c1.tapLink.receiver.got.isEmpty = true then
    Receiver.hunt 0xD2 c1.tbu.mono b else c1.tapLink.receiver.collect 7 c1.tbu.mono b) = x
  split
  · exact h2 _
  · exact (h2 _).then ((Chip.same_count _ _).mono (by decide))
  · exact (h2 _).then (Chip.same_tapFrameIn _ _ _)

end Sys2Proof.Machine
end

