-- ==== Sys2Proof/Laws/Path.lean ====
section
/-! SUPPORT. The memory path: what presenting requests and arbitrating can change, that every command leaves a settled part,
and what an access does that is granted when it is presented. -/

namespace Sys2Proof.Machine

/-! ### Presenting requests -/

/-- A block asks for jobs of its own. -/
theorem Chip.wants_block (c : Chip) (b : Block) (j : Job) (h : c.wants b = some j) : j.block = b := by
  cases b <;> simp only [Chip.wants] at h
  case lcc => simpa using (Option.filter_eq_some_iff.1 h).2
  case lue =>
    unfold Chip.lueWants at h
    repeat' split at h
    all_goals first | (cases h; rfl) | simp at h
  case toe =>
    unfold Chip.toeWants at h
    repeat' split at h
    all_goals first | (cases h; rfl) | simp at h
  case slm =>
    unfold Chip.slmWants at h
    split at h
    · split at h
      · cases h; rfl
      · simpa using (Option.filter_eq_some_iff.1 h).2
    · simp at h
  case swe =>
    split at h
    · unfold Chip.sweepJob at h
      repeat' split at h
      all_goals first | (cases h; rfl) | simp at h
    · simp at h
  case pcu => split at h <;> first | (cases h; rfl) | simp at h
  case clu =>
    unfold Chip.cluWants at h
    repeat' split at h
    all_goals first | (cases h; rfl) | simp at h
  case rpu => split at h <;> first | (cases h; rfl) | simp at h

/-- A job asked for leaves the list of its own block only. -/
theorem Chip.asked_eq (c : Chip) (j : Job) :
    ∃ x y, c.asked j = { c with lcc := { c.lcc with jobs := x }, slm := { c.slm with jobs := y } } ∧
      (j.block ≠ .lcc → x = c.lcc.jobs) ∧ (j.block ≠ .slm → y = c.slm.jobs) := by
  unfold Chip.asked
  split
  · rename_i h; exact ⟨c.lcc.jobs.tail, c.slm.jobs, rfl, fun hh => absurd h hh, fun _ => rfl⟩
  · exact ⟨c.lcc.jobs, c.slm.jobs, rfl, fun _ => rfl, fun _ => rfl⟩
  · exact ⟨c.lcc.jobs, c.slm.jobs.tail, rfl, fun _ => rfl, fun hh => absurd (by assumption) hh⟩
  · exact ⟨c.lcc.jobs, c.slm.jobs, rfl, fun _ => rfl, fun _ => rfl⟩

theorem Chip.foldl_asked_eq (l : List Job) (c : Chip) :
    ∃ x y, l.foldl Chip.asked c = { c with lcc := { c.lcc with jobs := x }, slm := { c.slm with jobs := y } } ∧
      ((∀ j ∈ l, j.block ≠ .lcc) → x = c.lcc.jobs) ∧ ((∀ j ∈ l, j.block ≠ .slm) → y = c.slm.jobs) := by
  induction l generalizing c with
  | nil => exact ⟨c.lcc.jobs, c.slm.jobs, rfl, fun _ => rfl, fun _ => rfl⟩
  | cons j l ih =>
    obtain ⟨x, y, h, hx, hy⟩ := c.asked_eq j
    obtain ⟨x', y', h', hx', hy'⟩ := ih (c.asked j)
    refine ⟨x', y', ?_, ?_, ?_⟩
    · rw [List.foldl_cons, h', h]
    · intro hh
      rw [hx' fun k hk => hh k (by simp [hk]), h]
      exact hx (hh j (by simp))
    · intro hh
      rw [hy' fun k hk => hh k (by simp [hk]), h]
      exact hy (hh j (by simp))

/-- What presenting requests leaves. -/
theorem Chip.present_eq (c : Chip) :
    ∃ x y o, c.present = { c with
      lcc := { c.lcc with jobs := x }, slm := { c.slm with jobs := y }, tau := { c.tau with orders := o } } ∧
      ((∀ j ∈ c.requests, j.block ≠ .lcc) → x = c.lcc.jobs) ∧
      ((∀ j ∈ c.requests, j.block ≠ .slm) → y = c.slm.jobs) ∧
      (c.resetLow = false → ∀ j ∈ c.requests, ∃ b ∈ o, j ∈ b) ∧ (∀ b ∈ c.tau.orders, b ∈ o) := by
  unfold Chip.present
  split
  · rename_i h
    refine ⟨c.lcc.jobs, c.slm.jobs, c.tau.orders, rfl, fun _ => rfl, fun _ => rfl, ?_, fun b hb => hb⟩
    intro hr j hj
    simp only [hr, Bool.false_or, List.isEmpty_iff] at h
    rw [h] at hj
    simp at hj
  · obtain ⟨x, y, h, hx, hy⟩ := Chip.foldl_asked_eq c.requests c
    refine ⟨x, y, c.tau.orders ++ [c.requests], ?_, hx, hy, ?_, fun b hb => by simp [hb]⟩
    · dsimp only
      rw [h]
    · intro _ j hj
      exact ⟨c.requests, by simp, hj⟩

theorem Chip.same_present (c : Chip) : Chip.Same [.requests, .jobs] c c.present := by
  obtain ⟨x, y, o, h, -⟩ := c.present_eq
  rw [h]
  intro z hz; cases z <;> first | exact absurd (by decide) hz | rfl

/-- A block that needs nothing has no request among those presented. -/
theorem Chip.no_request (c : Chip) (b : Block) (h : c.wants b = none) : ∀ j ∈ c.requests, j.block ≠ b := by
  intro j hj hb
  unfold Chip.requests at hj
  rw [List.mem_filterMap] at hj
  obtain ⟨b', -, hw⟩ := hj
  split at hw
  · simp at hw
  · have := c.wants_block b' j hw
    rw [hb] at this
    subst this
    rw [h] at hw
    simp at hw

/-- A part that has presented its requests has none left to present. -/
theorem Chip.requests_present (c : Chip) (hr : c.resetLow = false) : c.present.requests = [] := by
  obtain ⟨x, y, o, h, hx, hy, hreq, hord⟩ := c.present_eq
  rw [h]
  unfold Chip.requests
  rw [List.filterMap_eq_nil_iff]
  intro b hb
  by_cases hout : c.outstanding b = true
  · rw [if_pos]
    unfold Chip.outstanding at hout ⊢
    rw [Bool.or_eq_true] at hout ⊢
    rcases hout with hout | hout
    · left
      rw [List.any_eq_true] at hout ⊢
      obtain ⟨q, hq, hj⟩ := hout
      exact ⟨q, hord q hq, hj⟩
    · exact Or.inr hout
  · by_cases hw : c.wants b = none
    · have key : ({ c with
          lcc := { c.lcc with jobs := x }, slm := { c.slm with jobs := y },
          tau := { c.tau with orders := o } } : Chip).wants b = none := by
        cases b
        case lcc => rw [hx (c.no_request _ hw)]; exact hw
        case slm => rw [hy (c.no_request _ hw)]; exact hw
        all_goals exact hw
      rw [key]
      simp
    · obtain ⟨j, hj⟩ := Option.ne_none_iff_exists'.1 hw
      have hmem : j ∈ c.requests := by
        unfold Chip.requests
        rw [List.mem_filterMap]
        exact ⟨b, hb, by simp [hout, hj]⟩
      obtain ⟨q, hq, hjq⟩ := hreq hr j hmem
      rw [if_pos]
      unfold Chip.outstanding
      rw [Bool.or_eq_true]
      left
      rw [List.any_eq_true]
      exact ⟨q, hq, by rw [List.any_eq_true]; exact ⟨j, hjq, by simp [c.wants_block b j hj]⟩⟩

/-! ### Arbitration -/

/-- A part with the memory port held, or nobody waiting, is left as it is by arbitration. -/
theorem Chip.arbitrate_held (n : Nat) (c : Chip) (h : c.par.holder ≠ .free) : c.arbitrate n = c := by
  cases n with
  | zero => rfl
  | succ n => unfold Chip.arbitrate; rw [if_neg (fun hh => h hh.2)]

/-- While the memory port is held, a command ends with presenting requests and nothing else. -/
theorem Chip.settle_held (c : Chip) (h : c.par.holder ≠ .free) : c.settle = c.present := by
  have hp : c.present.par = c.par := c.same_present .arbiter (by decide)
  unfold Chip.settle
  exact Chip.arbitrate_held 3 _ (by rw [hp]; exact h)

/-- With neither port waiting, arbitration at most grants the TAU. -/
theorem Chip.arbitrate_quiet (n : Nat) (c : Chip) (ha : c.portA.waiting = false) (hb : c.portB.waiting = false) :
    c.arbitrate n = c ∨ c.arbitrate n = { c with par := ⟨.tau, .tau⟩ } := by
  cases n with
  | zero => exact Or.inl rfl
  | succ n =>
    unfold Chip.arbitrate
    split
    · have hc : c.nextClaimant = none ∨ c.nextClaimant = some .tau := by
        unfold Chip.nextClaimant
        cases hp : c.par.pointer <;> cases ho : c.tau.orders.isEmpty <;>
          simp [Claimant.after, Chip.waiting, ha, hb, ho]
      rcases hc with hc | hc <;> rw [hc]
      · exact Or.inl rfl
      · exact Or.inr rfl
    · exact Or.inl rfl

/-- In a quiet part a command ends with presenting requests and perhaps the grant of the TAU. -/
theorem Chip.same_settle_quiet (c : Chip) (h : c.par.holder = .free → c.portA.waiting = false ∧ c.portB.waiting = false) :
    Chip.Same [.requests, .jobs, .arbiter] c c.settle := by
  by_cases hf : c.par.holder = .free
  · obtain ⟨ha, hb⟩ := h hf
    have h1 : c.present.portA = c.portA := c.same_present .portA (by decide)
    have h2 : c.present.portB = c.portB := c.same_present .portB (by decide)
    unfold Chip.settle
    rcases Chip.arbitrate_quiet 3 c.present (by rw [h1]; exact ha) (by rw [h2]; exact hb) with hq | hq <;> rw [hq]
    · exact c.same_present.mono (by decide)
    · refine c.same_present.trans (M := [.arbiter]) ?_ (by decide) (by decide)
      intro z hz; cases z <;> first | exact absurd (by decide) hz | rfl | exact ⟨rfl, rfl⟩
  · rw [c.settle_held hf]
    exact c.same_present.mono (by decide)

end Sys2Proof.Machine
end

