-- ==== Sys2Proof/Laws/Access.lean ====
section
/-! SUPPORT. What a granted access does to the ports and the arbiter, that every command leaves a settled part, and what an
access does that is granted when it is presented. -/

namespace Sys2Proof.Machine

/-! ### Ports -/

/-- A piece that holds a port. -/
theorem Chip.Same.port {L : List Piece} {c d : Chip} (h : Chip.Same L c d) (p : Port) (hp : portPiece p ∉ L) :
    d.port p = c.port p := by
  cases p
  · exact h .portA hp
  · exact h .portB hp

theorem portPiece_other (p : Port) : portPiece (otherPort p) ≠ portPiece p := by cases p <;> decide

theorem Chip.port_endAccess (p : Port) (e : Bool) (d : Word) (c : Chip) :
    (Chip.endAccess p e d c).port p = { c.port p with out := none, answer := some ⟨e, d⟩ } := by
  unfold Chip.endAccess
  dsimp only
  cases p <;> (split <;> (try split) <;> rfl)

/-- A locked tenure outlives the end of an access; an unlocked one ends with it (R4). -/
theorem Chip.holder_endAccess (p : Port) (e : Bool) (d : Word) (c : Chip) (l : Bool) (n : Nat)
    (h : c.par.holder = .host p l n) :
    (Chip.endAccess p e d c).par.holder = if l then .host p l n else .free := by
  have hp : (c.withPort p { c.port p with out := none, answer := some ⟨e, d⟩ }).par = c.par := by cases p <;> rfl
  unfold Chip.endAccess
  dsimp only
  cases l
  · split
    · rename_i q k hq
      rw [hp, h] at hq
      cases hq
      simp
    · rename_i hn
      exact absurd (by rw [hp]; exact h) (hn p n)
  · split
    · rename_i q k hq
      rw [hp, h] at hq
      cases hq
    · rw [hp, h]; rfl

/-! ### Carrying out -/

/-- Never the other port, the map, the settings, the requests or the tenure. -/
theorem Chip.same_carryOut (p : Port) (a : Access) (v : Verdict) (c : Chip) :
    Chip.Same (portPiece p :: .arbiter :: commandPieces) c (c.carryOut p a v) := by
  have he : ∀ (x : Chip) (e : Bool) (d : Word),
      Chip.Same (portPiece p :: .arbiter :: commandPieces) x (Chip.endAccess p e d x) :=
    fun x e d => (Chip.same_endAccess p e d x).mono (by simp)
  have hp : ∀ k, Chip.Same (portPiece p :: .arbiter :: commandPieces) c (c.putAccess p a k) :=
    fun k => (c.same_withPort p _).mono (by simp)
  unfold Chip.carryOut
  split
  · exact ((c.same_noteRefusal _ p a.addr).mono (by simp [commandPieces])).then (he _ _ _)
  · exact hp _
  · refine Chip.Same.then ?_ (he _ _ _)
    refine Chip.Same.ite ?_ (Chip.Same.refl _ c)
    have h1 : Chip.Same [.rpu] c { c with rpu := c.rpu.afterCauseRead } := by
      unfold Rpu.afterCauseRead
      intro x hx
      cases x <;> first | exact absurd (by decide) hx | rfl | exact ⟨rfl, rfl⟩ | (simp only [Chip.agree]; split <;> rfl)
    exact h1.mono (by simp [commandPieces])
  · dsimp only
    refine Chip.Same.then (hp .held) ?_
    have h1 : ∀ (x : Chip) (l : List Port), Chip.Same [.pcu, .arbiter] x
        { x with pcu := { x.pcu with held := l }, par := { x.par with holder := .free } } := by
      intro x l y hy
      cases y <;> first | exact absurd (by decide) hy | rfl | exact ⟨rfl, rfl⟩
    exact (h1 _ _).mono (by simp [commandPieces])
  · exact ((c.same_takeCommand _ p a.data).mono fun x hx => by simp [hx]).then (he _ _ _)

theorem portPiece_not_command (p : Port) : portPiece p ∉ commandPieces := by cases p <;> decide

/-- An access that has been carried out waits no longer. -/
theorem Chip.carryOut_not_waiting (p : Port) (a : Access) (v : Verdict) (c : Chip) :
    ((c.carryOut p a v).port p).waiting = false := by
  unfold Chip.carryOut
  split
  · unfold Chip.refuseAccess
    rw [Chip.port_endAccess]; rfl
  · unfold Chip.putAccess
    rw [Chip.port_withPort]; rfl
  · rw [Chip.port_endAccess]; rfl
  · have : ∀ (x : Chip) (y : Pcu) (z : Par), ({ x with pcu := y, par := z } : Chip).port p = x.port p := by
      intro x y z; cases p <;> rfl
    dsimp only
    rw [this]
    unfold Chip.putAccess
    rw [Chip.port_withPort]; rfl
  · rw [Chip.port_endAccess]; rfl

theorem Chip.carryOut_other (p : Port) (a : Access) (v : Verdict) (c : Chip) :
    (c.carryOut p a v).port (otherPort p) = c.port (otherPort p) :=
  (c.same_carryOut p a v).port (otherPort p) (by cases p <;> decide)

/-- Neither the ports nor the arbiter bear on what is decided of an access. -/
theorem Chip.classify_congr (p q : Port) (a : Access) (x : PortState) (y : Par) (c : Chip) :
    ({ c.withPort q x with par := y } : Chip).classify p a = c.classify p a := by
  cases q <;> rfl

theorem Chip.classify_withPort (p q : Port) (a : Access) (x : PortState) (c : Chip) :
    (c.withPort q x).classify p a = c.classify p a := by
  cases q <;> rfl

/-! ### A settled part -/

/-- How many ports wait. -/
def Chip.waiters (c : Chip) : Nat := (if c.portA.waiting then 1 else 0) + (if c.portB.waiting then 1 else 0)

theorem Chip.grantPort_reset (p : Port) (c : Chip) : (c.grantPort p).resetLow = c.resetLow := by
  unfold Chip.grantPort
  split
  · rfl
  · exact Chip.same_carryOut p _ _ _ .resetLine (by cases p <;> decide)

theorem Chip.grantPort_waiting (p : Port) (c : Chip) (h : (c.port p).waiting = true) :
    ((c.grantPort p).port p).waiting = false ∧ (c.grantPort p).port (otherPort p) = c.port (otherPort p) := by
  unfold Chip.grantPort
  split
  · rename_i hn
    unfold PortState.waiting at h
    rw [hn] at h
    simp at h
  · refine ⟨Chip.carryOut_not_waiting _ _ _ _, ?_⟩
    rw [Chip.carryOut_other]
    cases p <;> rfl

theorem Chip.present_ports (c : Chip) : c.present.portA = c.portA ∧ c.present.portB = c.portB :=
  ⟨c.same_present .portA (by decide), c.same_present .portB (by decide)⟩

theorem Chip.nextClaimant_waits (c : Chip) (x : Claimant) (h : c.nextClaimant = some x) : c.waiting x = true := by
  unfold Chip.nextClaimant at h
  exact (List.find?_eq_some_iff_append.1 h).1

theorem Chip.nextClaimant_none (c : Chip) (h : c.nextClaimant = none) :
    c.portA.waiting = false ∧ c.portB.waiting = false ∧ c.tau.orders = [] := by
  unfold Chip.nextClaimant at h
  rw [List.find?_eq_none] at h
  have all : ∀ x : Claimant, c.waiting x = false := by
    intro x
    have : x ∈ [c.par.pointer.after, c.par.pointer.after.after, c.par.pointer.after.after.after] := by
      cases c.par.pointer <;> cases x <;> decide
    simpa using h x this
  exact ⟨all .portA, all .portB, by simpa [Chip.waiting] using all .tau⟩

/-- With more grants allowed than ports waiting, arbitration leaves a settled part. -/
theorem Chip.arbitrate_settled (n : Nat) (c : Chip) (hr : c.resetLow = false) (hq : c.requests = [])
    (hn : c.waiters < n) : (c.arbitrate n).settled := by
  induction n generalizing c with
  | zero => omega
  | succ n ih =>
    have step : ∀ p : Port, c.waiting (Port.claimant p) = true →
        (Chip.arbitrate n (c.grantPort p).present).settled := by
      intro p hw
      have hw' : (c.port p).waiting = true := by cases p <;> exact hw
      have hr' : (c.grantPort p).resetLow = false := by rw [Chip.grantPort_reset]; exact hr
      obtain ⟨h1, h2⟩ := c.grantPort_waiting p hw'
      obtain ⟨h3, h4⟩ := (c.grantPort p).present_ports
      refine ih _ ?_ (Chip.requests_present _ hr') ?_
      · rw [(Chip.same_present _) .resetLine (by decide)]; exact hr'
      · unfold Chip.waiters at hn ⊢
        rw [h3, h4]
        cases p
        · simp only [Chip.port, otherPort] at h1 h2 hw'
          rw [h1, h2]
          rw [hw'] at hn
          simp at hn ⊢
          omega
        · simp only [Chip.port, otherPort] at h1 h2 hw'
          rw [h1, h2]
          rw [hw'] at hn
          simp at hn ⊢
          omega
    unfold Chip.arbitrate
    split
    · split
      · rename_i hx
        obtain ⟨ha, hb, ho⟩ := c.nextClaimant_none hx
        exact Or.inr ⟨hq, fun _ => ⟨ha, hb, ho⟩⟩
      · exact Or.inr ⟨hq, fun h => by cases h⟩
      · rename_i hx
        exact step .a (c.nextClaimant_waits _ hx)
      · rename_i hx
        exact step .b (c.nextClaimant_waits _ hx)
    · rename_i hf
      exact Or.inr ⟨hq, fun h => absurd ⟨hr, h⟩ hf⟩

/-- What every command ends with leaves a settled part (R3, R6). -/
theorem Chip.settle_settled (c : Chip) : c.settle.settled := by
  by_cases hr : c.resetLow = false
  · unfold Chip.settle
    refine Chip.arbitrate_settled 3 _ ?_ (c.requests_present hr) ?_
    · rw [c.same_present .resetLine (by decide)]; exact hr
    · unfold Chip.waiters
      split <;> split <;> omega
  · have hp : c.present = c := by
      unfold Chip.present
      rw [if_pos]
      simp at hr
      simp [hr]
    refine Or.inl ?_
    unfold Chip.settle
    rw [hp]
    unfold Chip.arbitrate
    rw [if_neg (fun h => hr h.1)]
    simpa using hr

/-! ### An access granted when it is presented -/

/-- An access granted at once is decided and carried out in a part that differs from the one it was presented to in its
port and the arbiter; requests and perhaps the grant of the TAU follow (R1, R3, R4). -/
theorem Chip.presentAccess_granted (p : Port) (a : Access) (c : Chip) (h : c.grantsAt p = true) :
    ∃ c1 l n, Chip.Same [portPiece p, .arbiter] c c1 ∧ c1.par.holder = .host p l n ∧
      (∀ k, c.par.holder = .host p true k → l = a.lock ∧ n = k + 1) ∧
      c1.port p = ⟨some ⟨a, .waiting⟩, (c.port p).lockIgnored && a.lock, none⟩ ∧
      Chip.Same [.requests, .jobs, .arbiter] (c1.carryOut p a (c.classify p a)) (c.presentAccess p a) ∧
      ((c1.carryOut p a (c.classify p a)).par.holder ≠ .free →
        c.presentAccess p a = (c1.carryOut p a (c.classify p a)).present) := by
  unfold Chip.grantsAt at h
  simp only [Bool.and_eq_true, Bool.not_eq_true', Option.isNone_iff_eq_none] at h
  obtain ⟨⟨⟨hr, ho⟩, hw⟩, hh⟩ := h
  -- the part with the access waiting
  let x : PortState := ⟨some ⟨a, .waiting⟩, (c.port p).lockIgnored && a.lock, none⟩
  have hc2 : (c.putAccess p a .waiting).withPort p
      { (c.putAccess p a .waiting).port p with
        lockIgnored := ((c.putAccess p a .waiting).port p).lockIgnored && a.lock } = c.withPort p x := by
    cases p <;> rfl
  have hpar : (c.withPort p x).par = c.par := by cases p <;> rfl
  -- neither port waits once the access is carried out
  have quiet : ∀ d : Chip, d.port (otherPort p) = c.port (otherPort p) → ∀ v,
      (d.carryOut p a v).portA.waiting = false ∧ (d.carryOut p a v).portB.waiting = false := by
    intro d hd v
    have h1 := d.carryOut_not_waiting p a v
    have h2 := d.carryOut_other p a v
    rw [hd] at h2
    cases p
    · exact ⟨h1, by rw [show (d.carryOut .a a v).portB = c.portB from h2]; exact hw⟩
    · exact ⟨by rw [show (d.carryOut .b a v).portA = c.portA from h2]; exact hw, h1⟩
  unfold Chip.presentAccess
  dsimp only
  rw [hc2]
  cases hhold : c.par.holder with
  | tau => rw [hhold] at hh; simp at hh
  | host q l n =>
    rw [hhold] at hh
    cases l with
    | false => simp at hh
    | true =>
      simp only [Bool.and_eq_true, decide_eq_true_eq] at hh
      obtain ⟨rfl, hn⟩ := hh
      refine ⟨{ c.withPort q x with par := { c.par with holder := .host q a.lock (n + 1) } }, a.lock, n + 1, ?_, rfl,
        ?_, ?_, ?_, ?_⟩
      · exact ((c.same_withPort q x).mono (by simp)).then ((Chip.same_withPar _ _).mono (by simp))
      · intro k hk
        cases hk
        exact ⟨rfl, rfl⟩
      · cases q <;> rfl
      all_goals
        rw [hpar, hhold]
        simp only [if_true]
        have hl : (c.withPort q x).lockedAccess q a n =
            ({ c.withPort q x with par := { c.par with holder := .host q a.lock (n + 1) } } : Chip).carryOut q a
              (c.classify q a) := by
          unfold Chip.lockedAccess
          rw [if_pos hn]
          dsimp only
          rw [Chip.classify_congr, hpar]
        rw [hl]
      · refine Chip.same_settle_quiet _ fun _ => quiet _ ?_ _
        cases q <;> rfl
      · exact Chip.settle_held _
  | free =>
    rw [hhold] at hh
    simp only [Bool.and_eq_true, List.isEmpty_iff] at hh
    obtain ⟨hreq, hord⟩ := hh
    refine ⟨{ c.withPort p x with par := ⟨.host p (a.lock && !((c.port p).lockIgnored && a.lock)) 1, Port.claimant p⟩ },
      _, 1, ?_, rfl, ?_, ?_, ?_⟩
    · exact ((c.same_withPort p x).mono (by simp)).then ((Chip.same_withPar _ _).mono (by simp))
    · intro k hk
      cases hk
    · cases p <;> rfl
    · rw [hpar, hhold]
      simp only
      -- nothing to present, and the port is the only claimant
      have hreq2 : (c.withPort p x).requests = [] := by cases p <;> exact hreq
      have hpres : (c.withPort p x).present = c.withPort p x := by
        unfold Chip.present
        rw [if_pos]
        rw [hreq2]
        simp
      have hclaim : (c.withPort p x).nextClaimant = some (Port.claimant p) := by
        unfold Chip.nextClaimant
        have ho' : (c.withPort p x).tau.orders = [] := by cases p <;> exact hord
        have hwt : ∀ y, (c.withPort p x).waiting y = decide (y = Port.claimant p) := by
          intro y
          cases p <;> cases y <;> first
            | rfl
            | exact hw
            | (show (!List.isEmpty _) = _; rw [ho']; rfl)
        rw [hpar, show (fun y => (c.withPort p x).waiting y) = fun y => decide (y = Port.claimant p) from funext hwt]
        cases p <;> cases c.par.pointer <;> rfl
      have hr2 : (c.withPort p x).resetLow = false := by cases p <;> exact hr
      have hgrant : (c.withPort p x).grantPort p =
          ({ c.withPort p x with
              par := ⟨.host p (a.lock && !((c.port p).lockIgnored && a.lock)) 1, Port.claimant p⟩ } : Chip).carryOut p a
            (c.classify p a) := by
        unfold Chip.grantPort
        rw [Chip.port_withPort]
        show (fun d : Chip => d.carryOut p a (d.classify p a)) ({ c.withPort p x with
          par := ⟨.host p (a.lock && !((c.port p).lockIgnored && a.lock)) 1, Port.claimant p⟩ } : Chip) = _
        dsimp only
        rw [Chip.classify_congr]
      have hsettle : (c.withPort p x).settle = Chip.arbitrate 2 ((c.withPort p x).grantPort p).present := by
        unfold Chip.settle
        rw [hpres]
        conv => lhs; unfold Chip.arbitrate
        rw [if_pos ⟨hr2, by rw [hpar]; exact hhold⟩, hclaim]
        cases p <;> rfl
      rw [hsettle, hgrant]
      obtain ⟨qa, qb⟩ := quiet ({ c.withPort p x with
        par := ⟨.host p (a.lock && !((c.port p).lockIgnored && a.lock)) 1, Port.claimant p⟩ } : Chip)
        (by cases p <;> rfl) (c.classify p a)
      generalize ({ c.withPort p x with
        par := ⟨.host p (a.lock && !((c.port p).lockIgnored && a.lock)) 1, Port.claimant p⟩ } : Chip).carryOut p a
          (c.classify p a) = d at qa qb
      obtain ⟨pa, pb⟩ := d.present_ports
      constructor
      · rcases Chip.arbitrate_quiet 2 d.present (by rw [pa]; exact qa) (by rw [pb]; exact qb) with hx | hx <;> rw [hx]
        · exact d.same_present.mono (by decide)
        · exact d.same_present.trans (Chip.same_withPar _ _) (by decide) (by decide)
      · intro hd
        refine Chip.arbitrate_held 2 _ ?_
        rw [d.same_present .arbiter (by decide)]
        exact hd

end Sys2Proof.Machine
end

