-- ==== Sys2Proof/Laws/Memory.lean ====
section
/-! SUPPORT. The memory operations: what a read finds after a write, and that every write keeps the canonical form. -/

namespace Sys2Proof.Machine

/-! ### One byte -/

/-- Every entry of a memory lies at or above an address. -/
def Memory.above (m : Memory) (a : Nat) : Prop := ∀ e ∈ m, a < e.1

theorem Memory.wf_cons (k : Nat) (v : Byte) (m : Memory) :
    Memory.wf ((k, v) :: m) = true ↔
      k < 16777216 ∧ v ≠ Config.blankByte ∧ Memory.above m k ∧ Memory.wf m = true := by
  simp only [Memory.wf, Memory.above, Bool.and_eq_true, decide_eq_true_eq, List.all_eq_true, bne_iff_ne]
  rw [and_assoc, and_assoc]

theorem Memory.readByte_above (m : Memory) (a : Nat) (h : m.above a) : m.readByte a = Config.blankByte := by
  induction m with
  | nil => rfl
  | cons e m ih =>
    obtain ⟨k, v⟩ := e
    have hk : a < k := h (k, v) (by simp)
    simp only [Memory.readByte]
    rw [if_neg (by omega)]
    exact ih fun e he => h e (by simp [he])

theorem Memory.above_mono (m : Memory) (a b : Nat) (hab : a ≤ b) (h : m.above b) : m.above a :=
  fun e he => Nat.lt_of_le_of_lt hab (h e he)

theorem Memory.above_writeByte (m : Memory) (k a : Nat) (v : Byte) (h : m.above k) (ha : k < a) :
    (m.writeByte a v).above k := by
  induction m with
  | nil =>
    simp only [Memory.writeByte]
    split
    · intro e he; simp at he
    · intro e he; simp only [List.mem_singleton] at he; subst he; exact ha
  | cons e m ih =>
    obtain ⟨k', x⟩ := e
    have hk : k < k' := h (k', x) (by simp)
    have hm : Memory.above m k := fun e he => h e (by simp [he])
    simp only [Memory.writeByte]
    have cons : ∀ (j : Nat) (y : Byte) (l : Memory), k < j → l.above k → Memory.above ((j, y) :: l) k := by
      intro j y l hj hl e he
      rcases List.mem_cons.1 he with rfl | he
      · exact hj
      · exact hl e he
    split
    · split
      · exact h
      · exact cons a v _ ha h
    · split
      · split
        · exact hm
        · exact cons k' v m hk hm
      · exact cons k' x _ hk (ih hm)

/-- A byte write keeps the canonical form. -/
theorem Memory.wf_writeByte (m : Memory) (a : Nat) (v : Byte) (h : m.wf = true) (ha : a < 16777216) :
    (m.writeByte a v).wf = true := by
  induction m with
  | nil =>
    simp only [Memory.writeByte]
    split
    · rfl
    · rw [Memory.wf_cons]
      refine ⟨ha, by assumption, ?_, rfl⟩
      intro e he
      simp at he
  | cons e m ih =>
    obtain ⟨k, x⟩ := e
    obtain ⟨hk, hx, hab, hm⟩ := (Memory.wf_cons k x m).1 h
    simp only [Memory.writeByte]
    split
    · rename_i hlt
      split
      · exact h
      · rw [Memory.wf_cons]
        refine ⟨ha, by assumption, ?_, h⟩
        intro e he
        simp only [List.mem_cons] at he
        rcases he with rfl | he
        · exact hlt
        · exact Nat.lt_trans hlt (hab e he)
    · split
      · split
        · exact hm
        · rw [Memory.wf_cons]
          exact ⟨hk, by assumption, hab, hm⟩
      · rw [Memory.wf_cons]
        exact ⟨hk, hx, Memory.above_writeByte m k a v hab (by omega), ih hm⟩

/-- What a byte reads after a byte write, in a memory in canonical form. -/
theorem Memory.readByte_writeByte (m : Memory) (a b : Nat) (v : Byte) (h : m.wf = true) :
    (m.writeByte a v).readByte b = if b = a then v else m.readByte b := by
  induction m with
  | nil =>
    simp only [Memory.writeByte]
    split <;> simp only [Memory.readByte] <;> split <;> simp_all
    all_goals omega
  | cons e m ih =>
    obtain ⟨k, x⟩ := e
    obtain ⟨hk, hx, hab, hm⟩ := (Memory.wf_cons k x m).1 h
    simp only [Memory.writeByte]
    split
    · rename_i hlt
      have hbl : Memory.readByte ((k, x) :: m) a = Config.blankByte :=
        Memory.readByte_above _ _ (by
          intro e he
          simp only [List.mem_cons] at he
          rcases he with rfl | he
          · exact hlt
          · exact Nat.lt_trans hlt (hab e he))
      split
      · split
        · rename_i hb; subst hb; rw [hbl]; simp_all
        · rfl
      · simp only [Memory.readByte]
        by_cases hb : b = a
        · subst hb; simp
        · rw [if_neg (fun hh => hb hh.symm), if_neg hb]
    · split
      · rename_i hak
        subst hak
        split
        · by_cases hb : b = a
          · subst hb
            rw [if_pos rfl, Memory.readByte_above m b hab]
            simp_all
          · rw [if_neg hb]
            simp only [Memory.readByte]
            rw [if_neg (fun hh => hb hh.symm)]
        · simp only [Memory.readByte]
          by_cases hb : b = a
          · subst hb; simp
          · have hb' : ¬a = b := fun hh => hb hh.symm
            simp [hb, hb']
      · simp only [Memory.readByte]
        by_cases hb : b = a
        · subst hb
          rw [if_neg (by omega), ih hm, if_pos rfl, if_pos rfl]
        · rw [if_neg hb]
          by_cases hbk : k = b
          · rw [if_pos hbk, if_pos hbk]
          · rw [if_neg hbk, if_neg hbk, ih hm, if_neg hb]

/-! ### Words -/

theorem Memory.wf_writeLane (m : Memory) (a : Addr) (e : BitVec 4) (d : Word) (l : Nat) (h : m.wf = true) :
    (m.writeLane a e d l).wf = true := by
  unfold Memory.writeLane
  split
  · exact Memory.wf_writeByte _ _ _ h (BitVec.isLt _)
  · exact h

theorem Memory.wf_writeEnabled (m : Memory) (a : Addr) (e : BitVec 4) (d : Word) (h : m.wf = true) :
    (m.writeEnabled a e d).wf = true :=
  Memory.wf_writeLane _ _ _ _ _ (Memory.wf_writeLane _ _ _ _ _ (Memory.wf_writeLane _ _ _ _ _
    (Memory.wf_writeLane _ _ _ _ _ h)))

theorem Memory.wf_writeWord (m : Memory) (a : Addr) (v : Word) (h : m.wf = true) : (m.writeWord a v).wf = true :=
  Memory.wf_writeEnabled _ _ _ _ h

theorem Memory.wf_applyWrites (m : Memory) (ws : List (Addr × Word)) (h : m.wf = true) :
    (m.applyWrites ws).wf = true := by
  induction ws generalizing m with
  | nil => exact h
  | cons w ws ih => exact ih _ (Memory.wf_writeWord m w.1 w.2 h)

theorem Memory.wf_cycle (m : Memory) (a : Access) (h : m.wf = true) : (m.cycle a).wf = true := by
  unfold Memory.cycle
  split
  · exact Memory.wf_writeEnabled _ _ _ _ h
  · exact h

/-- What a byte reads after one lane of a write. -/
theorem Memory.readByte_writeLane (m : Memory) (a : Addr) (e : BitVec 4) (d : Word) (l b : Nat) (h : m.wf = true) :
    (m.writeLane a e d l).readByte b =
      if e.getLsbD l = true ∧ b = (a + BitVec.ofNat 24 l).toNat then field d (8 * l) 8 else m.readByte b := by
  unfold Memory.writeLane
  split
  · rename_i he
    rw [Memory.readByte_writeByte _ _ _ _ h]
    simp [he]
  · rename_i he
    simp [he]

/-- The memory at the reset line is in canonical form if it was before. -/
theorem Memory.wf_atReset (c : Chip) (k : Nat) (m : Memory) (h : m.wf = true) : (c.memoryAtReset k m).wf = true := by
  unfold Chip.memoryAtReset
  split
  · exact Memory.wf_applyWrites _ _ h
  · split
    · exact Memory.wf_cycle _ _ h
    · exact h

end Sys2Proof.Machine
end

