-- ==== Sys2Proof/Laws/Records.lean ====
section
/-! SUPPORT. What an append, a level taken, a gate taken and a subscriber joining the queue leave, in the terms of
Sys2Proof.Safety. -/

namespace Sys2Proof.Machine

/-! ### The append -/

theorem Chip.append_copy (r : LogRecord) (b : Bool) (c : Chip) (l : LogCopy) (h : c.clu.copy = some l) :
    (c.append r b).clu = { c.clu with
      copy := some (l.appended r), reserved := if b then c.clu.reserved - 1 else c.clu.reserved } := by
  simp only [Chip.append, Chip.appendWith, h]
  rfl

theorem Chip.append_running (r : LogRecord) (b : Bool) (c : Chip) (l : LogCopy) (x : Tenure) (h : c.clu.copy = some l)
    (hx : c.tau.running = some x) :
    (c.append r b).tau.running = some { x with writes := x.writes ++ c.appendWrites l r } := by
  simp only [Chip.append, Chip.appendWith, h]
  simp only [Chip.writeRecord, Chip.writeStation, Chip.write, hx, Option.map_some, List.append_assoc]
  rfl

theorem Chip.append_none (r : LogRecord) (b : Bool) (c : Chip) (h : c.clu.copy = none) : c.append r b = c := by
  simp only [Chip.append, h]

theorem Chip.free_none (c : Chip) (h : c.clu.copy = none) : c.free = 0 := by simp only [Chip.free, h]

theorem Chip.copy_of_free (c : Chip) (h : 0 < c.free) : ∃ l, c.clu.copy = some l := by
  cases hc : c.clu.copy with
  | none => rw [c.free_none hc] at h; exact absurd h (by decide)
  | some l => exact ⟨l, rfl⟩

theorem Chip.append_map (r : LogRecord) (b : Bool) (c : Chip) : (c.append r b).map = c.map :=
  (c.same_append r b) .map (by decide)

theorem Chip.append_tbu (r : LogRecord) (b : Bool) (c : Chip) : (c.append r b).tbu = c.tbu :=
  (c.same_append r b) .tbu (by decide)

theorem Chip.append_toe (r : LogRecord) (b : Bool) (c : Chip) : (c.append r b).toe = c.toe :=
  (c.same_append r b) .toe (by decide)

/-- Addresses hang on the map alone. -/
theorem Chip.recordAddr_congr (c d : Chip) (h : d.map = c.map) (t : Table) (i w : Nat) :
    d.recordAddr t i w = c.recordAddr t i w := by
  simp only [Chip.recordAddr, Chip.placement, h]

theorem Chip.appendWrites_congr (c d : Chip) (h : d.map = c.map) (l : LogCopy) (r : LogRecord) :
    d.appendWrites l r = c.appendWrites l r := by
  simp only [Chip.appendWrites, Chip.recordAddr, Chip.capacity, Chip.placement, h]

/-! ### Joining and returning -/

theorem Toe.join_tailed (t : Toe) (sub : Nat) (b : Bool) : t.join sub b = t.tailed sub b := rfl

theorem Chip.leaveFlight_toe (sub : Nat) (b : Bool) (c : Chip) : (c.leaveFlight sub b).toe = c.toe.landed sub := by
  unfold Chip.leaveFlight Chip.unreserve
  cases b <;> rfl

theorem Chip.rejoin_toe (f : Flight) (d : TapDraft) (c : Chip) :
    (Chip.rejoin f d c).toe = c.toe.rechecked f d.needsChange := by
  unfold Chip.rejoin Toe.rechecked
  cases f.recheck with
  | none => rfl
  | reassert => rfl
  | change => cases d.needsChange <;> rfl

/-! ### The tests of a map entry and its phases -/

theorem boundElsewhere_iff (m : List (BitVec 8 × Nat)) (n : BitVec 8) (i : Nat) :
    boundElsewhere m n i = true ↔ ∃ b ∈ m, b.1 = n ∧ b.2 ≠ i := by
  simp [boundElsewhere]

theorem Entry.phaseAt_found (e : Entry) (wall : Word) : e.phaseAt wall = e.phaseFound wall := rfl

/-- An in-use entry passes its tests as a whole when it breaks none. -/
theorem Entry.whole_iff (e : Entry) (m : List (BitVec 8 × Nat)) (i : Nat) (h : bit e.w0 31 = true) :
    e.whole m i = true ↔ ¬e.breaks i m := by
  have hb := boundElsewhere_iff m e.number i
  have hlt : (e.start < e.finish) ↔ ¬e.w3.toNat ≤ e.w2.toNat := by
    rw [Nat.not_le]; exact BitVec.lt_def
  unfold Entry.whole Entry.breaks
  simp only [Entry.inUse, h, Bool.and_eq_true, Bool.or_eq_true, Bool.not_eq_true', decide_eq_true_eq, bne_iff_ne,
    Bool.true_and, Bool.not_true, Bool.false_eq_true, false_or, ← Bool.not_eq_true, hb, hlt]
  show ((e.desired.toNat ≤ 64 ∧ e.eventSource.toNat ≤ 64) ∧ _) ∧ _ ↔ _
  have h1 : fieldNat e.w0 0 10 = (field e.w0 0 10).toNat := rfl
  simp only [Entry.desired, Entry.eventSource, Entry.display, Entry.number, Entry.kindEvent, h1]
  constructor
  · rintro ⟨⟨⟨h2, h3⟩, h4, h5⟩, h6⟩ (h7 | h7 | h7 | h7 | ⟨h7, h8⟩)
    · omega
    · omega
    · omega
    · omega
    · rcases h6 with h6 | ⟨⟨h6, h9⟩, h10⟩
      · exact h6 h7
      · rcases h8 with h8 | h8 | h8
        · exact h6 h8
        · exact h9 h8
        · exact h10 h8
  · intro hn
    refine ⟨⟨⟨?_, ?_⟩, ?_, ?_⟩, ?_⟩
    · exact Nat.le_of_not_lt fun x => hn (Or.inl x)
    · exact Nat.le_of_not_lt fun x => hn (Or.inr (Or.inl x))
    · exact Nat.one_le_iff_ne_zero.mpr fun x => hn (Or.inr (Or.inr (Or.inl x)))
    · exact Nat.le_of_not_lt fun x => hn (Or.inr (Or.inr (Or.inr (Or.inl x))))
    · by_cases hk : bit e.w0 12 = true
      · refine Or.inr ⟨⟨?_, ?_⟩, ?_⟩
        · exact fun x => hn (Or.inr (Or.inr (Or.inr (Or.inr ⟨hk, Or.inl x⟩))))
        · exact fun x => hn (Or.inr (Or.inr (Or.inr (Or.inr ⟨hk, Or.inr (Or.inl x)⟩))))
        · exact fun x => hn (Or.inr (Or.inr (Or.inr (Or.inr ⟨hk, Or.inr (Or.inr x)⟩))))
      · exact Or.inl hk

/-! ### Takes -/

/-- An index is named among the altered entries when its entry differs. -/
theorem Lue.mem_alteredSince (l k : Lue) (i : Nat) :
    i ∈ l.alteredSince k ↔ i < l.entries.length ∧ k.entries[i]? ≠ l.entries[i]? := by
  simp [Lue.alteredSince]

/-! ### The attempts used -/

/-- A w2 written by a tenure shows the attempts that R80 gives it. -/
@[simp] theorem Toe.shown_attempts (t : Toe) (sub : Nat) (rest : OrderState) (used : BitVec 4) (s : TapStatus) :
    (t.shown sub rest used s).attempts = t.attemptsUsed sub used := by
  rcases hf : t.flight sub with _ | f
  · have h1 : t.flights.any (fun f => f.subscriber = sub) = false := by
      rw [Toe.flight, List.find?_eq_none] at hf
      simpa using hf
    rcases hq : t.queue.find? (fun q => q.subscriber = sub) with _ | q
    · have h2 : t.queue.any (fun q => q.subscriber = sub) = false := by
        rw [List.find?_eq_none] at hq
        simpa using hq
      by_cases hh : sub ∈ t.held
      · simp [Toe.shown, Toe.whereIs, Toe.attemptsUsed, hf, h1, h2, hq, hh]
      · by_cases hd : ∃ d ∈ t.deferred, d.subscriber = sub
        · have h3 : t.deferred.any (fun d => d.subscriber = sub) = true := by simpa using hd
          simp [Toe.shown, Toe.whereIs, Toe.attemptsUsed, hf, h1, h2, hq, hh, h3, hd]
        · have h3 : t.deferred.any (fun d => d.subscriber = sub) = false := by simpa using hd
          simp [Toe.shown, Toe.whereIs, Toe.attemptsUsed, hf, h1, h2, hq, hh, h3, hd]
    · have h2 : t.queue.any (fun q => q.subscriber = sub) = true := by
        have h := List.find?_some hq
        exact List.any_eq_true.mpr ⟨q, List.mem_of_find?_eq_some hq, h⟩
      simp [Toe.shown, Toe.whereIs, Toe.attemptsUsed, hf, h1, h2, hq]
  · have h1 : t.flights.any (fun f => f.subscriber = sub) = true := by
      rw [Toe.flight] at hf
      have h := List.find?_some hf
      exact List.any_eq_true.mpr ⟨f, List.mem_of_find?_eq_some hf, h⟩
    simp [Toe.shown, Toe.whereIs, Toe.attemptsUsed, hf, h1]

/-! ### The numbers of the outage list -/

/-- The number after the `k`-th is one step on. -/
theorem numberAfter_succ (n : BitVec 16) (k : Nat) : numberAfter n (k + 1) = stepNumber (numberAfter n k) := rfl

theorem Slm.lists_iff (s : Slm) (n : BitVec 16) : s.lists n ↔ namesSlot s.slots n = true := by
  simp [Slm.lists, namesSlot]

/-- A slot is repaired for its number exactly where a lower one carries that number (R121). -/
theorem Slm.repeats_iff (s : Slm) (i : Nat) : s.repeats i ↔ s.duplicate i = true := by
  rcases h : s.slots[i]? with _ | x
  · simp [Slm.repeats, Slm.duplicate, h]
  · simp only [Slm.repeats, Slm.duplicate, h, Option.some.injEq, namesSlot, Bool.and_eq_true, bne_iff_ne, ne_eq,
      List.any_eq_true, decide_eq_true_eq, List.mem_take_iff_getElem]
    constructor
    · rintro ⟨_, rfl, hx, j, y, hj, hy, hu, hn⟩
      obtain ⟨hlt, rfl⟩ := List.getElem?_eq_some_iff.mp hy
      exact ⟨hx, _, ⟨j, by omega, rfl⟩, hu, hn⟩
    · rintro ⟨hx, y, ⟨j, hj, rfl⟩, hu, hn⟩
      exact ⟨x, rfl, hx, j, _, by omega, List.getElem?_eq_getElem (by omega), hu, hn⟩

end Sys2Proof.Machine
end

