-- ==== Sys2Proof/Laws/Steps.lean ====
section
/-! SUPPORT. The three shapes of a command's meaning, each with the one lemma that says what it answers: an event that happens,
a tenure that is granted, an access that is granted when it is presented. -/

namespace Sys2Proof.Machine

/-! ### Events -/

theorem Chip.quiet_iff (c : Chip) : c.quiet = true ↔
    c.resetLow = false ∧ (c.par.holder = .free → c.portA.waiting = false ∧ c.portB.waiting = false) := by
  unfold Chip.quiet
  by_cases h : c.par.holder = .free <;> simp [h]

/-- An event that happens in a quiet part changes what its effect changes, the requests and the arbiter. -/
theorem State.event_happened (s : State) (b : Bool) (f : Chip → Chip) (L : List Piece) (hb : b = true)
    (hq : s.chip.quiet = true) (hf : Chip.Same L s.chip (f s.chip))
    (hL : .resetLine ∉ L ∧ .portA ∉ L ∧ .portB ∉ L ∧ .arbiter ∉ L) :
    s.event b f = .next { s with chip := (f s.chip).settle } ∧
      State.happened L s { s with chip := (f s.chip).settle } := by
  obtain ⟨hr, hw⟩ := s.chip.quiet_iff.1 hq
  obtain ⟨h1, h2, h3, h4⟩ := hL
  refine ⟨?_, rfl, rfl, ?_⟩
  · unfold State.event
    rw [if_pos ⟨hb, hr⟩]
  · refine hf.trans (Chip.same_settle_quiet _ ?_) (fun x hx => by simp [hx]) (fun x hx => by
      revert x; simp)
    rw [hf .arbiter h4, hf .portA h2, hf .portB h3]
    exact hw

/-! ### Tenures -/

theorem Chip.offers_iff (j : Job) (c : Chip) : c.offers j = true ↔
    c.resetLow = false ∧ c.par.holder = .tau ∧ c.tau.running = none ∧
      ∃ batch rest, c.tau.orders = batch :: rest ∧ j ∈ batch ∧ ∀ k ∈ batch, k.block = j.block → k = j := by
  unfold Chip.offers
  simp only [Bool.and_eq_true, Bool.not_eq_true', decide_eq_true_eq, Option.isNone_iff_eq_none]
  constructor
  · rintro ⟨⟨⟨h1, h2⟩, h3⟩, h4⟩
    refine ⟨h1, h2, h3, ?_⟩
    split at h4
    · simp at h4
    · rename_i batch rest ho
      simp only [Bool.and_eq_true, List.contains_iff_mem, List.all_eq_true, decide_eq_true_eq] at h4
      exact ⟨batch, rest, ho, h4.1, h4.2⟩
  · rintro ⟨h1, h2, h3, batch, rest, ho, hj, hk⟩
    refine ⟨⟨⟨h1, h2⟩, h3⟩, ?_⟩
    rw [ho]
    simp only [Bool.and_eq_true, List.contains_iff_mem, List.all_eq_true, decide_eq_true_eq]
    exact ⟨hj, hk⟩

/-- The part as the grant of `j` finds it: the request is gone and its tenure runs. -/
def Chip.atGrant (j : Job) (c : Chip) : Chip :=
  { c with tau := ⟨takeOut j (c.tau.orders.headD []) c.tau.orders.tail, some ⟨j, [], [], c.free⟩⟩ }

/-- A job that the TAU offers is granted, if it is picked and nothing of another block is. -/
theorem Chip.grant_offers (j : Job) (pick : Job → Bool) (c : Chip) (h : c.offers j = true) (hp : pick j = true)
    (hb : ∀ k, pick k = true → k.block = j.block) : c.grant pick = some (j, c.atGrant j) := by
  obtain ⟨h1, h2, h3, batch, rest, ho, hj, hk⟩ := (c.offers_iff j).1 h
  have hf : batch.find? pick = some j := by
    obtain ⟨k, hk1⟩ : ∃ k, batch.find? pick = some k := by
      cases hx : batch.find? pick with
      | none => rw [List.find?_eq_none] at hx; exact absurd hp (hx j hj)
      | some k => exact ⟨k, rfl⟩
    have hkj : k = j := hk k (List.mem_of_find?_eq_some hk1) (hb k (List.find?_some hk1))
    rw [hk1, hkj]
  unfold Chip.grant
  rw [if_pos ⟨h1, h2, h3⟩]
  simp only [ho, hf]
  unfold Chip.atGrant
  rw [ho]
  rfl

/-- A tenure that is granted runs what its body decides; what its body changes, the requests, the tenure and the low state
differ. -/
theorem State.tenure_granted (s : State) (j : Job) (pick : Chip → Job → Bool) (body : Memory → Job → Chip → Chip)
    (L : List Piece) (h : s.chip.offers j = true) (hp : pick s.chip j = true)
    (hb : ∀ k, pick s.chip k = true → k.block = j.block)
    (hs : Chip.Same L (s.chip.atGrant j) (body s.mem j (s.chip.atGrant j))) (hL : .arbiter ∉ L) :
    s.tenure pick body = .next { s with chip := ((body s.mem j (s.chip.atGrant j)).closeGrant).present } ∧
      State.granted L s { s with chip := ((body s.mem j (s.chip.atGrant j)).closeGrant).present } := by
  have h0 : Chip.Same [.requests, .tenure] s.chip (s.chip.atGrant j) := by
    intro x hx; cases x <;> first | exact absurd (by decide) hx | rfl | exact ⟨rfl, rfl⟩
  have h1 : Chip.Same (.requests :: .jobs :: .tenure :: .low :: .statusMark :: L) s.chip
      (body s.mem j (s.chip.atGrant j)).closeGrant :=
    ((h0.mono (by simp)).then (hs.mono fun x hx => by simp [hx])).then ((Chip.same_closeGrant _).mono (by simp))
  have hold : (body s.mem j (s.chip.atGrant j)).closeGrant.par.holder ≠ .free := by
    rw [h1 .arbiter (by simp [hL]), ((s.chip.offers_iff j).1 h).2.1]
    decide
  refine ⟨?_, rfl, rfl, ?_⟩
  · unfold State.tenure
    rw [s.chip.grant_offers j _ h hp hb]
    dsimp only
    rw [Chip.settle_held _ hold]
  · exact h1.then ((Chip.same_present _).mono (by simp))

/-- Presenting requests leaves the running tenure. -/
theorem Chip.running_present (c : Chip) : c.present.tau.running = c.tau.running := by
  obtain ⟨x, y, o, h, -⟩ := c.present_eq
  rw [h]

/-- Closing a grant keeps the job and its writes, and owes no less. -/
theorem Chip.closeGrant_running (c : Chip) (t : Tenure) (h : c.tau.running = some t) :
    ∃ o, c.closeGrant.tau.running = some { t with owed := t.owed ++ o } := by
  have h1 : ∃ o, c.testLow.tau.running = some { t with owed := t.owed ++ o } := by
    have h2 : c.findLow.tau.running = some t := c.running_findLow.trans h
    unfold Chip.testLow
    split
    · exact ⟨[.cause .logLow], by simp [Chip.owe, h2]⟩
    · exact ⟨[], by simp [h2]⟩
  obtain ⟨o, ho⟩ := h1
  unfold Chip.closeGrant
  dsimp only
  rw [ho]
  dsimp only
  split
  · exact ⟨o ++ [.space], by simp [Chip.owe, ho]⟩
  · exact ⟨o, ho⟩

/-! ### Accesses -/

theorem Chip.grantsAt_out (p : Port) (c : Chip) (h : c.grantsAt p = true) : (c.port p).out = none := by
  unfold Chip.grantsAt at h
  simp only [Bool.and_eq_true, Option.isNone_iff_eq_none] at h
  exact h.1.1.2

/-- An access granted at once whose carrying out ends it leaves the answer at the port, and beside the port, the arbiter
and the requests changes what carrying it out changes. -/
theorem State.access_ended (s : State) (p : Port) (a : Access) (e : Bool) (d : Word) (f : Chip → Chip) (L : List Piece)
    (h : s.chip.grantsAt p = true)
    (hc : ∀ c1 : Chip, c1.carryOut p a (s.chip.classify p a) = Chip.endAccess p e d (f c1))
    (hf : ∀ c1, Chip.Same L c1 (f c1)) (hL : portPiece p ∉ L) :
    ∃ t c1, s.access p a = .next t ∧ Chip.Same [portPiece p, .arbiter] s.chip c1 ∧
      Chip.Same [portPiece p, .arbiter, .requests, .jobs] (f c1) t.chip ∧ State.ended p ⟨e, d⟩ L s t := by
  obtain ⟨c1, l, n, h1, -, -, -, h5, -⟩ := s.chip.presentAccess_granted p a h
  rw [hc] at h5
  have h6 : Chip.Same [portPiece p, .arbiter, .requests, .jobs] (f c1) (s.chip.presentAccess p a) :=
    (Chip.same_endAccess p e d (f c1)).trans h5 (by simp) (by simp)
  have hport : (s.chip.presentAccess p a).port p = { (f c1).port p with out := none, answer := some ⟨e, d⟩ } := by
    rw [h5.port p (by cases p <;> decide), Chip.port_endAccess]
  refine ⟨{ s with chip := s.chip.presentAccess p a }, c1, ?_, h1, h6, rfl, rfl, ?_, ?_, ?_⟩
  · unfold State.access
    rw [if_neg]
    rw [s.chip.grantsAt_out p h]
    simp
  · show ((s.chip.presentAccess p a).port p).out = none
    rw [hport]
  · show ((s.chip.presentAccess p a).port p).answer = some ⟨e, d⟩
    rw [hport]
  · refine Chip.Same.trans (L := portPiece p :: .arbiter :: L) ?_ h6 (fun x hx => ?_) (by simp)
    · exact (h1.mono (by simp)).then ((hf c1).mono fun x hx => by simp [hx])
    · simp only [List.mem_cons] at hx ⊢
      rcases hx with hx | hx | hx
      · exact Or.inl hx
      · exact Or.inr (Or.inl hx)
      · exact Or.inr (Or.inr (Or.inr (Or.inr hx)))

end Sys2Proof.Machine
end

