-- ==== Sys2Proof/Laws/Words.lean ====
section
/-! SUPPORT. Fields of a word: a field or a bit of a sum of placed values is the value placed there. -/

namespace Sys2Proof.Machine

theorem getLsbD_place {n : Nat} (v : BitVec n) (lo i : Nat) (hi : i < 32) :
    (place v lo).getLsbD i = (decide (lo ≤ i) && v.getLsbD (i - lo)) := by
  unfold place
  by_cases h : lo ≤ i
  · simp [h, hi]
  · simp [h, hi, Nat.lt_of_not_le h]

theorem getLsbD_flagAt (b : Bool) (n i : Nat) (hi : i < 32) : (flagAt b n).getLsbD i = (b && decide (i = n)) := by
  unfold flagAt
  cases b
  · simp
  · by_cases h : i = n
    · subst h; simp [hi]
    · by_cases h1 : i < n
      · simp [BitVec.getLsbD_shiftLeft, h, h1]
      · have h2 : i - n ≠ 0 := by omega
        simp [BitVec.getLsbD_shiftLeft, h, BitVec.getLsbD_one, h2]

theorem field_or (a b : Word) (lo w : Nat) : field (a ||| b) lo w = field a lo w ||| field b lo w := by
  apply BitVec.eq_of_getLsbD_eq
  intro i hi
  simp [field, hi]

theorem bit_or (a b : Word) (n : Nat) : bit (a ||| b) n = (bit a n || bit b n) := by
  simp [bit]

/-- The field at which a value is placed is that value. -/
theorem field_place {n : Nat} (v : BitVec n) (lo : Nat) (h : lo + n ≤ 32) : field (place v lo) lo n = v := by
  apply BitVec.eq_of_getLsbD_eq
  intro i hi
  rw [field, BitVec.getLsbD_extractLsb', getLsbD_place _ _ _ (by omega)]
  simp [hi]

/-- A field beside the place of a value is 0. -/
theorem field_place_off {n : Nat} (v : BitVec n) (k lo w : Nat) (hw : lo + w ≤ 32) (h : lo + w ≤ k ∨ k + n ≤ lo) :
    field (place v k) lo w = 0 := by
  apply BitVec.eq_of_getLsbD_eq
  intro i hi
  rw [field, BitVec.getLsbD_extractLsb', getLsbD_place _ _ _ (by omega)]
  rcases h with h | h
  · have : ¬k ≤ lo + i := by omega
    simp [this]
  · have : v.getLsbD (lo + i - k) = false := BitVec.getLsbD_of_ge _ _ (by omega)
    simp [this]

/-- A field beside a flag is 0. -/
theorem field_flagAt_off (b : Bool) (n lo w : Nat) (hw : lo + w ≤ 32) (h : n < lo ∨ lo + w ≤ n) :
    field (flagAt b n) lo w = 0 := by
  apply BitVec.eq_of_getLsbD_eq
  intro i hi
  rw [field, BitVec.getLsbD_extractLsb', getLsbD_flagAt _ _ _ (by omega)]
  have : ¬lo + i = n := by omega
  simp [this]

theorem bit_flagAt (b : Bool) (n : Nat) (h : n < 32) : bit (flagAt b n) n = b := by
  rw [bit, getLsbD_flagAt _ _ _ h]; simp

theorem bit_flagAt_off (b : Bool) (n i : Nat) (hi : i < 32) (h : i ≠ n) : bit (flagAt b n) i = false := by
  rw [bit, getLsbD_flagAt _ _ _ hi]; simp [h]

theorem bit_place_off {n : Nat} (v : BitVec n) (k i : Nat) (hi : i < 32) (h : i < k ∨ k + n ≤ i) :
    bit (place v k) i = false := by
  rw [bit, getLsbD_place _ _ _ hi]
  rcases h with h | h
  · have : ¬k ≤ i := by omega
    simp [this]
  · have : v.getLsbD (i - k) = false := BitVec.getLsbD_of_ge _ _ (by omega)
    simp [this]

/-! ### The fields of w2 -/

/-- The order state that w2 shows. -/
theorem TapStatus.word_order (t : TapStatus) : field t.word 4 3 = t.order.code := by
  simp only [TapStatus.word, field_or]
  rw [field_place_off _ 0 4 3 (by decide) (by decide), field_flagAt_off _ 2 4 3 (by decide) (by decide),
    field_place _ 4 (by decide), field_place_off _ 8 4 3 (by decide) (by decide),
    field_place_off _ 12 4 3 (by decide) (by decide), field_flagAt_off _ 16 4 3 (by decide) (by decide),
    field_flagAt_off _ 20 4 3 (by decide) (by decide), field_flagAt_off _ 21 4 3 (by decide) (by decide)]
  simp

/-- The last result that w2 shows. -/
theorem TapStatus.word_result (t : TapStatus) : field t.word 8 3 = t.result := by
  simp only [TapStatus.word, field_or]
  rw [field_place_off _ 0 8 3 (by decide) (by decide), field_flagAt_off _ 2 8 3 (by decide) (by decide),
    field_place_off _ 4 8 3 (by decide) (by decide), field_place _ 8 (by decide),
    field_place_off _ 12 8 3 (by decide) (by decide), field_flagAt_off _ 16 8 3 (by decide) (by decide),
    field_flagAt_off _ 20 8 3 (by decide) (by decide), field_flagAt_off _ 21 8 3 (by decide) (by decide)]
  simp

end Sys2Proof.Machine
end

