-- ==== Sys2Proof/WellFormed.lean ====
section
/-! DEFINITION. Which operands name something that exists. An operand outside its range names nothing: the command then
changes nothing (log 5); no meaning relies on these checks. -/

namespace Sys2Proof

/-- A TAU tenure has at most 24 accesses (R6), a subscriber index lies in 0 to 4,095 (spec/05), a node in 0 to 31
(spec/06). Every other operand has a type that admits exactly its range. -/
def WellFormed (i : Instr) : Bool :=
  match i with
  | .resetAssert writesMade => decide (writesMade ≤ Config.tenureLimit)
  | .tapDeadline subscriber => decide (subscriber < 4096)
  | .onsetDeadline node => decide (node < Config.nodeCount)
  | .holdDeadline node => decide (node < Config.nodeCount)
  | .portAccess _ _ => true
  | .lockRelease _ => true
  | .memoryCycleComplete => true
  | .resetRelease => true
  | .autostartCheck => true
  | .start _ => true
  | .stop _ => true
  | .logClear _ => true
  | .arm _ _ => true
  | .feed _ _ => true
  | .pause _ => true
  | .expire _ => true
  | .disarm _ => true
  | .heartbeatCountdownExpiry => true
  | .take _ => true
  | .takeCancel _ => true
  | .buy _ _ _ => true
  | .purchaseCancel _ _ _ => true
  | .timeWrite _ _ => true
  | .release _ _ => true
  | .periodClose _ => true
  | .causeRead _ => true
  | .causeWrite _ _ => true
  | .unusedCommandWordAccess _ _ _ _ => true
  | .wallSecondBoundary => true
  | .referencePulse => true
  | .lossWatchExpiry => true
  | .routeReply _ => true
  | .routeByteTimeout => true
  | .routeDeadline => true
  | .mirrorTenure => true
  | .tauTenureEnd => true
  | .tapReply _ => true
  | .tapByteTimeout => true
  | .evaluate => true
  | .requeue => true
  | .retire => true
  | .sendTenure => true
  | .replyTenure => true
  | .endingFailed => true
  | .endingHeld => true
  | .endingReturned => true
  | .endingUnconfirmed => true
  | .endingConfirmed => true
  | .statusLineChange _ => true
  | .slmWriteTenure => true
  | .sweepStart => true
  | .sweepStartTenure => true
  | .restoreStep => true
  | .eventCloseStep => true
  | .sweepEndTenure => true
  | .evaluationTenure => true
  | .releaseTenure => true
  | .closeTenure => true
  | .reportTenure => true
  | .loadPhase1 => true
  | .loadPhase2 => true
  | .loadPhase3 => true
  | .logCopyLoad => true
  | .outageReconciliation => true
  | .subscriberLoadWalk => true
  | .mapLoadWalk => true
  | .runningEntry => true
  | .stoppedEntry => true
  | .firstSample => true

end Sys2Proof
end

