-- ==== Sys2Proof/Tests/Slice0.lean ====
section
/-! SUPPORT. Tests on small states, one step each: ill-formed operands, what words spell, a few effects of commands, and for
every statement with hypotheses a state and operands that meet them (`witness_…`). -/

set_option Elab.async false

namespace Sys2Proof.Tests

open Sys2Proof Sys2Proof.Machine

/-! ### States -/

/-- The Report Unit with nothing to mirror. -/
def calm : Rpu := ⟨0, 0xFFFF, 0, [], List.replicate 10 0, false, false, false, List.replicate 10 false⟩

/-- Five small tables, a guard region, every permission. -/
def smallMap : RegionMap :=
  ⟨4194304, some ⟨⟨0x1000, 4, .readWrite, .readWrite⟩, ⟨0x2000, 16, .read, .readWrite⟩, ⟨0x22000, 32, .readWrite, .none⟩,
    ⟨0x22200, 64, .read, .read⟩, ⟨0x30000, 256, .read, .readWrite⟩⟩, [⟨0x100000, 65536, .readWrite, .read⟩], 0xFF, 0xFF⟩

/-- Small settings: FREEZE, reserve 4, threshold 10. -/
def smallSettings : Settings := ⟨25, 2, 3, 2, true, 20, 2, 9, 3000, true, 4, 10⟩

/-- An EVENT entry with number 7, barker 3, source 5, a window from 100 to 200. -/
def eventEntry (phase : Phase) : Entry :=
  ⟨0x80031001, 0x01F40507, 100, 200, false, 3, .settled, none, some phase, 0, false, false, false⟩

/-- A NORMAL entry in use on source 4. -/
def normalEntry : Entry := ⟨0x80042002, 0, 0, 0, false, 4, .settled, none, none, 0, false, false, false⟩

/-- A part in RUNNING with two entries, nothing asked for. -/
def run : Chip :=
  { Chip.reset with
    resetLow := false
    map := smallMap
    settings := smallSettings
    lcc := { Lcc.reset with lifecycle := .running }
    tbu := { Tbu.reset with wall := 150, set := true, mono := 1000 }
    lue := { Lue.reset with entries := [eventEntry .inside, normalEntry], eventMap := [(7, 0)] }
    slm := { Slm.reset with
      image := [0x80000000, 0x80000110, 0x80001000]
      nodes := List.replicate 32 ⟨.up, 0, none, none, none, ⟨0, false, false⟩, false⟩
      slots := [⟨.unused, 0, 0, 0, 0, 0, 0, false, false, false, false, false, false⟩]
      next := 9
      lastSample := some 0xFFFFFFFF }
    clu := { Clu.reset with copy := some ⟨20, 10, 12, 0xABCD, 5, 3⟩ }
    rpu := calm }

/-- The same part in another state. -/
def inState (l : Lifecycle) (phase : Nat) (c : Chip) : Chip := { c with lcc := { c.lcc with lifecycle := l, phase := phase } }

/-- A part with an empty map after the release of the reset line. -/
def off : Chip := { Chip.reset with resetLow := false, rpu := calm }

/-- A state with memory. -/
def at' (c : Chip) (m : Memory) : State := ⟨c, m, []⟩

/-- The TAU holds the memory port with one request. -/
def offering (j : Job) (c : Chip) : Chip := { c with par := ⟨.tau, .tau⟩, tau := ⟨[[j]], none⟩ }

/-- A whole-word access. -/
def whole (addr : Addr) (write : Bool) (data : Word) : Access := ⟨addr, write, 0xF, data, false⟩

/-- The outcome is a next state that satisfies a test. -/
def after (i : Instr) (s : State) (p : State → Bool) : Bool :=
  match exec i s with
  | .next t => p t
  | _ => false

/-! ### Operands, words, numbers -/

theorem test_resetAssert_of_25_writes_is_ill_formed : WellFormed (.resetAssert 25) = false := by decide
theorem test_resetAssert_of_24_writes_is_well_formed : WellFormed (.resetAssert 24) = true := by decide
theorem test_tapDeadline_of_subscriber_4096_is_ill_formed : WellFormed (.tapDeadline 4096) = false := by decide
theorem test_onsetDeadline_of_node_32_is_ill_formed : WellFormed (.onsetDeadline 32) = false := by decide
theorem test_holdDeadline_of_node_32_is_ill_formed : WellFormed (.holdDeadline 32) = false := by decide

theorem test_no_word_spells_a_command : decodeTableWord 32 0x4A503430 = none := by decide
theorem test_withFetchWord_leaves_the_state : State.withFetchWord State.reset 32 0x4A503430 = State.reset := by decide

/-- The check value of R156. -/
theorem test_digest_of_the_nine_digits :
    crcExtend 0 [0x31, 0x32, 0x33, 0x34, 0x35, 0x36, 0x37, 0x38, 0x39] = 0xCBF43926 := by decide +kernel

/-- An attempt timeout of 250 ms is 25 units, a heartbeat period of 30 s is 3,000 (R35). -/
theorem test_profile_intervals :
    (Profile.settings (List.replicate 27 0 ++ [25, 0, 30])).tapTimeout = 25 ∧
      (Profile.settings (List.replicate 27 0 ++ [25, 0, 30])).heartbeatPeriod = 3000 := by decide +kernel

/-- All bytes of a good frame sum to 0 (spec/11). -/
theorem test_route_frame_sums_to_zero : byteSum (routeFrame 95 64 7) = 0 := by decide +kernel
theorem test_tap_frame : tapFrame 0xABCDE 2 3 true 9 = [0xD1, 0xDE, 0xBC, 0x2A, 0x97, 0xD4] := by decide +kernel

/-- The age of the number just given out is 1, that of the next number 65,535 (R112). -/
theorem test_outage_ages : outageAge 65535 1 = 1 ∧ outageAge 5 5 = 65535 ∧ stepNumber 65535 = 1 := by decide +kernel

/-! ### The worked sequence of spec/01 on classifying accesses -/

theorem test_guard_write_without_right :
    run.classify .b (whole 0x100010 true 1) = .refuse .noRight := by decide +kernel
theorem test_guard_write_with_right :
    run.classify .a { whole 0x100010 true 1 with enables := 3 } = .pass none := by decide +kernel
theorem test_service_word_write :
    run.classify .b (whole 0x002024 true 1) = .pass (some ⟨.subscribers, 1, 1, 1⟩) := by decide +kernel
theorem test_part_owned_write : run.classify .b (whole 0x002028 true 1) = .refuse .owner := by decide +kernel
theorem test_node_table_write : run.classify .a (whole 0x022010 true 1) = .refuse .tableLocked := by decide +kernel
theorem test_word_72 : run.classify .a (whole 0x000120 false 0) = .refuse .range := by decide +kernel
theorem test_beyond_the_memory : run.classify .b (whole 0x400000 false 0) = .refuse .range := by decide +kernel
theorem test_stopped_is_open :
    (inState .stopped 0 run).classify .b (whole 0x002028 true 1) = .pass none := by decide +kernel

/-! ### Witnesses: the queue, the reset line -/

theorem witness_EmptyQueueLetsTimePass :
    (State.reset.pending = [] ∧ State.reset.chip.resetLow = true) ∧
      ((at' run []).pending = [] ∧ run.resetLow = false ∧ run.dueEvent = none) ∧
      ({ run with tbu := { run.tbu with position := 100 } } : Chip).dueEvent = some .wallSecondBoundary ∧
      (∀ e ∈ run.lue.entries, e.route ≠ .pending) ∧
      (let asked := { eventEntry .inside with route := .pending, cls := some .event }
      let waiting := fun l : List Entry => { run with lue := { run.lue with entries := l } }
      let target := fun x : Entry => x.wanted run.fallback run.settings.fallbackSource
      (∀ l ∈ [[normalEntry, asked], [{ asked with applied := 5 }]],
        (waiting l).quiet = true ∧ (waiting l).dueEvent = none ∧ (waiting l).lcc.lifecycle = .running ∧
          (waiting l).lue.order = none) ∧
        asked.applied ≠ target asked ∧ target asked = 5) := by
  decide +kernel

/-- A part with a tenure running, and one with an access in memory beside a held one and a waiting one. -/
theorem witness_ResetLineEndsEveryTenure :
    let x : Chip := { run with tau := ⟨[], some ⟨.report, [(stationAddr 80, 1)], [], 0⟩⟩ }
    let y : Chip := { run with
      par := ⟨.host .a false 1, .portA⟩
      portA := ⟨some ⟨whole 0x400 true 1, .inMemory none⟩, false, none⟩
      portB := ⟨some ⟨whole 0x400 true 1, .waiting⟩, false, none⟩ }
    let z : Chip := { run with portB := ⟨some ⟨whole 0x400 true 1, .held⟩, false, none⟩ }
    x.resetLow = false ∧ x.tau.running.isSome = true ∧
      y.resetLow = false ∧ y.tau.running = none ∧ y.inMemory = some (.a, whole 0x400 true 1, none) ∧
      (y.port .b).out = some ⟨whole 0x400 true 1, .waiting⟩ ∧
      z.inMemory = none ∧ (z.port .b).out = some ⟨whole 0x400 true 1, .held⟩ := by decide +kernel

theorem witness_ResetLeaves : run.resetLow = false := by decide

/-- The reset line ends the disregard of a LOCK line (log 47). -/
theorem test_reset_regards_lock :
    after (.resetAssert 0) (at' { run with portA := ⟨none, true, none⟩ } []) (fun t => !t.chip.portA.lockIgnored) = true := by
  decide +kernel

/-- Memory with the signature and the autostart flag. -/
def autostartMemory : Memory := (Memory.writeWord [] (stationAddr 0) 0x4A503430).writeWord (stationAddr 1) 1

theorem witness_ReleaseAndAutostart :
    State.reset.chip.resetLow = true ∧
      State.reset.chip = { Chip.reset with lines := 0xFFFFFFFF, portA := .reset, portB := .reset } ∧
      (offering .autostart off).offers .autostart = true ∧ off.lcc.lifecycle = .offline ∧
      autostartMemory.readWord (stationAddr 0) = 0x4A503430 ∧ bit (autostartMemory.readWord (stationAddr 1)) 0 = true ∧
      Memory.readWord [] (stationAddr 0) ≠ 0x4A503430 := by decide +kernel

/-- The autostart check enters LOADING, and with an empty memory stays OFFLINE (R25). -/
theorem test_autostart :
    after .autostartCheck (at' (offering .autostart off) autostartMemory) (fun t => t.chip.lcc.lifecycle = .loading) =
      true ∧
    after .autostartCheck (at' (offering .autostart off) []) (fun t => t.chip.lcc.lifecycle = .offline) = true := by
  decide +kernel

/-! ### Witnesses: accesses -/

theorem witness_WritesStoreTheEnabledBytes :
    Memory.wf [] = true ∧ (5 : BitVec 4).getLsbD 2 = true ∧ (7 : Nat) ≠ ((4 : Addr) + BitVec.ofNat 24 2).toNat := by
  decide +kernel

/-- Bytes 0 and 2 are stored, byte 1 stays (R1). -/
theorem test_enabled_bytes : Memory.writeEnabled [(5, 9)] 4 5 0x44332211 = [(4, 0x11), (5, 9), (6, 0x33)] := by
  decide +kernel

/-- A port that waits while the other holds the memory port. -/
def portBusyChip : Chip :=
  { run with
    par := ⟨.host .b true 3, .portB⟩
    portA := ⟨some ⟨whole 0x400 false 0, .waiting⟩, false, none⟩ }

theorem witness_AccessesArePresented :
    accessOf (.start ⟨.a, false⟩) = some (.a, stationAccess 64 true 1 false) ∧
      (portBusyChip.port .a).out.isSome = true ∧
      (offering .report run).resetLow = false ∧ ((offering .report run).port .a).out = none ∧
      (offering .report run).par.holder = .tau := by decide +kernel

theorem test_busy_port : exec (.start ⟨.a, false⟩) (at' portBusyChip []) = .fault (.portBusy .a) := rfl

/-- Port A holds a lock with `n` accesses granted. -/
def locked (n : Nat) : Chip := { run with par := ⟨.host .a true n, .portA⟩ }

/-- A holder of the memory port, what stands at the two ports, and what waits at the TAU; the TAU's own tenure a report. -/
def turns (h : Holder) (ports : List PortState) (orders : List (List Job)) : Chip :=
  { run with
    par := ⟨h, match h with
      | .host p _ _ => Port.claimant p
      | _ => .tau⟩
    portA := ports.getD 0 .reset
    portB := ports.getD 1 .reset
    tau := ⟨orders, if h = .tau then some ⟨.report, [], [], 0⟩ else none⟩ }

theorem witness_PassedAccessEntersMemory :
    (run.grantsAt .b = true ∧ run.classify .b (whole 0x002024 true 1) = .pass (some ⟨.subscribers, 1, 1, 1⟩)) ∧
      ((locked 15).grantsAt .a = true ∧ (locked 15).classify .a (whole 0x002024 false 0) = .pass none) ∧
      run.par.holder = .free ∧ (locked 15).par.holder = .host .a true 15 ∧
      (let c := turns .tau [⟨some ⟨whole 0x400 false 0, .waiting⟩, false, none⟩, .reset] [[.close]]
      c.resetLow = false ∧ c.par = ⟨.tau, .tau⟩ ∧ (c.tau.running.map fun x => (x.job, x.owed)) = some (.report, []) ∧
        c.portA.out = some ⟨whole 0x400 false 0, .waiting⟩ ∧ c.classify .a (whole 0x400 false 0) = .pass none ∧
        c.portB.waiting = false ∧ c.tau.orders ≠ []) ∧
      (let c := turns (.host .a false 1) [⟨some ⟨whole 0x400 false 0, .inMemory none⟩, false, none⟩, .reset] [[.close]]
      c.par = ⟨.host .a false 1, Port.claimant .a⟩ ∧ c.portA.out = some ⟨whole 0x400 false 0, .inMemory none⟩ ∧
        c.portB.waiting = false ∧ c.tau.orders ≠ []) := by
  decide +kernel

/-- The cyclic order (R3): after the TAU Port A goes before Port B, after Port A Port B before the TAU, after Port B the TAU
before Port A; LOCK opens a lock of one access. -/
theorem test_cyclic_order :
    let w : PortState := ⟨some ⟨{ whole 0x400 false 0 with lock := true }, .waiting⟩, false, none⟩
    let m : PortState := ⟨some ⟨whole 0x400 false 0, .inMemory none⟩, false, none⟩
    after .tauTenureEnd (at' (turns .tau [w, w] [[.close]]) []) (fun t => t.chip.par = ⟨.host .a true 1, .portA⟩) = true ∧
    after .memoryCycleComplete (at' (turns (.host .a false 1) [m, w] [[.close]]) []) (fun t =>
      t.chip.par = ⟨.host .b true 1, .portB⟩) = true ∧
    after .memoryCycleComplete (at' (turns (.host .b false 1) [w, m] [[.close]]) []) (fun t =>
      t.chip.par = ⟨.tau, .tau⟩) = true := by decide +kernel

/-- A port's access in memory with a trigger. -/
def cycling (a : Access) (t : Option Trigger) : Chip :=
  { run with par := ⟨.host .b true 2, .portB⟩, portB := ⟨some ⟨a, .inMemory t⟩, false, none⟩ }

theorem witness_MemoryCycleEndsTheAccess :
    (cycling (whole 0x500 false 0) none).inMemory = some (.b, whole 0x500 false 0, none) ∧
      (cycling (whole 0x2000 true 0x80000001) (some ⟨.subscribers, 0, 0, 0x80000001⟩)).inMemory =
        some (.b, whole 0x2000 true 0x80000001, some ⟨.subscribers, 0, 0, 0x80000001⟩) ∧
      (cycling (whole 0x500 false 0) none).par.holder = .host .b true 2 ∧
      ((cycling (whole 0x500 false 0) none).port (otherPort .b)).waiting = false ∧
      run.lue.entries[1]? = some normalEntry ∧ run.lcc.lifecycle = .running := by decide +kernel

/-- A subscriber write asks for an evaluation with re-assert, or for a retire (R76). -/
theorem test_subscriber_trigger :
    after .memoryCycleComplete (at' (cycling (whole 0x2000 true 0x80000001) (some ⟨.subscribers, 0, 0, 0x80000001⟩)) [])
        (fun t => t.chip.toe.evals = [⟨0, .evaluate, true⟩]) = true ∧
    after .memoryCycleComplete (at' (cycling (whole 0x2000 true 1) (some ⟨.subscribers, 0, 0, 1⟩)) [])
        (fun t => t.chip.toe.evals = [⟨0, .retire, false⟩]) = true := by decide +kernel

/-- Port B's write of a word of map entry `i` in its memory cycle, with entry 0 as given and wall time 150. -/
def mapping (e : Entry) (bound : List (BitVec 8 × Nat)) (i word : Nat) (v : Word) : State :=
  let c := cycling (whole 0x1000 true v) (some ⟨.channelMap, i, word, v⟩)
  at' { c with lue := { c.lue with entries := [e, normalEntry], eventMap := bound } } []

/-- What is seen of an entry after a step, with the event-number map. -/
def entrySeen (i : Nat) (t : State) : Option (RouteState × Option RouteClass × Option Phase × Bool) ×
    List (BitVec 8 × Nat) :=
  (t.chip.lue.entries[i]?.map fun e => (e.route, e.cls, e.phase, e.aside), t.chip.lue.eventMap)

/-- An EVENT entry of number 7 that the load walk has set aside. -/
def asideEntry : Entry := { eventEntry .before with phase := none, route := .failed, aside := true, w3 := 100 }

theorem witness_mapWritten :
    bit (eventEntry .after).w0 31 = true ∧ bit (eventEntry .after).w0 12 = true ∧ (eventEntry .after).phase = some .after ∧
      bit (0x80041001 : Word) 12 = true ∧ asideEntry.aside = true ∧
      (∀ x ∈ (mapping (eventEntry .after) [(7, 0)] 0 1 8).chip.lue.entries, x.route ≠ .pending) ∧
      (mapping (eventEntry .after) [(7, 0)] 0 1 8).chip.lue.order = none := by decide +kernel

/-- A NORMAL entry that becomes EVENT is bound and INSIDE, which sends it; an EVENT entry in AFTER that leaves use is
unbound; a new number replaces the old one; a window write in AFTER goes back to BEFORE, and one in BEFORE closes; the
first write that repairs a set-aside entry takes it into use (R55, R57, R58, R75). -/
theorem test_map_writes :
    after .memoryCycleComplete (mapping { normalEntry with w1 := 0x507, w2 := 100, w3 := 200 } [] 0 0 0x80041001) (fun t =>
      entrySeen 0 t = (some (.inFlight, none, some .inside, false), [(7, 0)]) &&
        t.chip.lue.order = some ⟨0, 5, 0, 1020, .event⟩) = true ∧
    after .memoryCycleComplete (mapping (eventEntry .after) [(7, 0)] 0 0 0x00031001) (fun t =>
      entrySeen 0 t = (some (.settled, none, none, false), [])) = true ∧
    after .memoryCycleComplete (mapping (eventEntry .after) [(7, 0)] 0 1 0x01F40508) (fun t =>
      entrySeen 0 t = (some (.settled, none, some .after, false), [(8, 0)])) = true ∧
    after .memoryCycleComplete (mapping (eventEntry .after) [(7, 0)] 0 2 160) (fun t =>
      entrySeen 0 t = (some (.settled, none, some .before, false), [(7, 0)])) = true ∧
    after .memoryCycleComplete (mapping (eventEntry .before) [(7, 0)] 0 3 140) (fun t =>
      entrySeen 0 t = (some (.settled, none, some .closing, false), [(7, 0)]) &&
        t.chip.swe.queue = [⟨.eventClose 7, 0, true, false, false⟩]) = true ∧
    after .memoryCycleComplete (mapping asideEntry [] 0 3 120) (fun t =>
      entrySeen 0 t = (some (.settled, none, some .after, false), [(7, 0)]) && t.chip.swe.queue = []) = true := by
  decide +kernel

theorem witness_RefusedAccessIsNoted :
    run.grantsAt .a = true ∧ run.classify .a (whole 0x002024 true 1) = .refuse .noRight ∧
      (locked 1).grantsAt .a = true ∧ (locked 1).par.holder = .host .a true 1 ∧
      (locked 1).classify .a { whole 0x002024 true 1 with lock := true } = .refuse .noRight := by decide +kernel

/-- The 17th access's lock, and a single access of Port A in one condition, its LOCK line disregarded. -/
def disregarded (x : Condition) : Chip :=
  { run with
    par := ⟨.host .a false 1, .portA⟩
    portA := ⟨some ⟨{ whole 0x500 false 0 with lock := true }, x⟩, true, none⟩ }

theorem witness_LocksEnd :
    (locked 16).resetLow = false ∧ ((locked 16).port .a).out = none ∧
      ((locked 16).port (otherPort .a)).waiting = false ∧ (locked 16).par.holder = .host .a true 16 ∧
      (locked 16).classify .a (whole 0x002024 true 1) = .refuse .noRight ∧
      (locked 16).classify .a (whole 0x500 false 0) = .pass none ∧
      run.par.holder = .free ∧ (run.port .b).out = none ∧
      (∀ x ∈ [Condition.inMemory none, .held], (disregarded x).quiet = true ∧
        ((disregarded x).port .a).out = some ⟨{ whole 0x500 false 0 with lock := true }, x⟩ ∧ x ≠ .waiting) ∧
      (disregarded .held).par.holder ≠ .free := by decide +kernel

/-- LOCK deasserted during access 18: the line is regarded again, and the tenure of that access goes on (R5). -/
theorem test_lock_seen_deasserted :
    after (.lockRelease .a) (at' (disregarded (.inMemory none)) []) (fun t =>
      t.chip.portA.lockIgnored = false && t.chip.par = (disregarded .held).par && t.chip.portA.out.isSome) = true := by
  decide +kernel

/-- The worked sequence of spec/01 on a lock that runs too long: access 17. -/
theorem test_seventeenth_access :
    after (.portAccess .a { whole 0x500 false 0 with lock := true }) (at' (locked 16) []) (fun t =>
      (t.chip.port .a).answer = some ⟨true, 0⟩ && (t.chip.port .a).lockIgnored && t.chip.par.holder = .tau &&
        t.chip.rpu.causes = 4 && t.chip.rpu.counters.take 2 = [1, 1]) = true := by decide +kernel

/-! ### Witnesses: classes and tests -/

theorem witness_PartialWritesAreRefused :
    let a : Access := { whole 0 true 0 with enables := 7 }
    let m := run.map.memSize
    ((wordAddr 0).toNat < m ∧ (wordAddr 0).toNat / 4 < 64) ∧
      ((wordAddr 0x11F).toNat / 4 = 71 ∧ (run.map.permits .a).getLsbD 7 = true) ∧ (wordAddr 0x140).toNat / 4 = 80 ∧
      (wordAddr 0x3FF).toNat / 4 = 255 ∧ a.write = true ∧ a.enables ≠ 0xF ∧
      (run.tableOf 0x2000 = some .subscribers ∧ run.watched = true ∧ (run.placement .subscribers).right .b = .readWrite) ∧
      (inState .stopped 0 run).watched = false ∧
      (0x400 ≤ (wordAddr 0x400).toNat ∧ run.tableOf 0x400 = none) ∧
      run.tableOf 0x100000 = none ∧ (∀ g ∈ run.map.guards, g.right .a = .readWrite) := by decide +kernel

theorem witness_StationAndTableWordsAreClassed :
    (run.map.memSize ≤ (wordAddr 0x400000).toNat) ∧ (wordAddr 0x3FFFFF).toNat < run.map.memSize ∧
      ((wordAddr 0x120).toNat = 4 * 72 ∧ (wordAddr 0x13C).toNat = 4 * 79 ∧ (wordAddr 0x140).toNat = 4 * 80 ∧
        (wordAddr 0xFC).toNat = 4 * 63 ∧ (wordAddr 0x3FC).toNat = 4 * 255) ∧
      (∀ w, w < 8 → run.tableOf (0x1000 + 4 * w) = some .channelMap ∧ run.tableOf (0x2000 + 4 * w) = some .subscribers) ∧
      run.tableOf 0x30000 = some .chargeLog ∧
      run.tableOf 0x22000 = some .nodes ∧
      (run.placement .nodes).right .a = .readWrite ∧ (run.placement .nodes).right .b = .none ∧
      run.tableOf 0x22200 = some .outages ∧ (run.placement .outages).right .a = .read ∧
      (inState .loading 4 run).lcc.lifecycle = .loading ∧ (inState .loadFault 1 run).lcc.lifecycle = .loadFault := by
  decide +kernel

/-- Port A without the permission for CONTROL and with no right in a second guard region, beside which memory is open. -/
def guarded : Chip :=
  { run with map := { smallMap with
      permitA := 0xFE, guards := [⟨0x100000, 65536, .readWrite, .read⟩, ⟨0x110000, 65536, .none, .readWrite⟩] } }

theorem witness_permissions_and_guards :
    let addr := fun a : Addr => (wordAddr a).toNat
    let isOpen := fun a => decide (0x400 ≤ addr a) && decide (addr a < guarded.map.memSize) &&
      guarded.tableOf (addr a) = none
    let holders := fun a => guarded.map.guards.map fun g => decide (g.base ≤ addr a) && decide (addr a < g.base + g.size)
    addr 0x103 = 4 * 64 ∧ (guarded.map.permits .a).getLsbD (64 - 64) = false ∧
      [isOpen 0x100000, isOpen 0x10FFFC, isOpen 0x110000, isOpen 0x11FFFF, isOpen 0xFFFFC, isOpen 0x120000] =
        List.replicate 6 true ∧
      [holders 0x100000, holders 0x10FFFC, holders 0x110000, holders 0x11FFFF, holders 0xFFFFC, holders 0x120000] =
        [[true, false], [true, false], [false, true], [false, true], [false, false], [false, false]] ∧
      guarded.map.guards.map (fun g => (g.right .a, g.right .b)) = [(.readWrite, .read), (.none, .readWrite)] := by
  decide +kernel

/-- No permission and no right refuse a read as well (R11, R13). -/
theorem test_no_right :
    guarded.classify .a (whole 0x103 false 0) = .refuse .noRight ∧
      guarded.classify .a (whole 0x110000 false 0) = .refuse .noRight ∧
      guarded.classify .b (whole 0x10FFFC false 0) = .pass none ∧
      guarded.classify .a (whole 0x120000 true 1) = .pass none := by decide +kernel

/-- The part-owned words of each table, and the words beside them (spec/11). -/
theorem test_part_owned_words :
    let owned := fun (a : Nat) (p : Port) => run.classify p (whole (BitVec.ofNat 24 a) true 1) = .refuse .owner
    (∀ w, w < 8 → (owned (0x1000 + 4 * w) .a ↔ w = 4 ∨ w = 5) ∧ (owned (0x2000 + 4 * w) .b ↔ 2 ≤ w ∧ w ≤ 4)) ∧
      (∀ w, w < 4 → (owned (0x22000 + 4 * w) .a ↔ w = 1 ∨ w = 2) ∧ owned (0x30000 + 4 * w) .b) := by decide +kernel

/-- The EVENT entry of `run` before its window, and the other set aside. -/
def early : Chip := { run with lue := { run.lue with entries := [eventEntry .before, { normalEntry with aside := true }] } }

/-- A take is in progress. -/
def applying : Chip := { run with lue := { run.lue with take := .applying } }

theorem witness_HostOwnedWritesAreTested :
    run.tableOf 0x1000 = some .channelMap ∧ run.tableOf 0x101C = some .channelMap ∧
      run.lcc.lifecycle = .running ∧ (run.placement .channelMap).right .a = .readWrite ∧
      64 < (field (0x00410000 : Word) 16 7).toNat ∧ ¬64 < (field (0x00400000 : Word) 16 7).toNat ∧
      64 < (field (0x00004100 : Word) 8 7).toNat ∧ (eventEntry .inside).phase = some .inside ∧
      early.lue.entries[0]? = some (eventEntry .before) ∧ (eventEntry .before).phase = some .before ∧
      early.lue.entries[1]? = some { normalEntry with aside := true } ∧ run.lue.take = .idle ∧ applying.lue.take = .applying ∧
      run.tableOf 0x2000 = some .subscribers ∧ (run.placement .subscribers).right .b = .readWrite ∧
      (run.toe.whereIs 0).isSome = false := by decide +kernel

/-- The tests on the entry as a whole at their boundaries: display 0, 1, 999 and 1000; number 0; a window end at the start
and one second later; number 7 bound to this entry and to another. -/
theorem witness_Entry_breaks :
    let n := fun w => normalEntry.withWord 0 w
    let e := eventEntry .after
    (n 0x80040000).breaks 1 [] ∧ ¬(n 0x80040001).breaks 1 [] ∧ ¬(n 0x800403E7).breaks 1 [] ∧ (n 0x800403E8).breaks 1 [] ∧
      (e.withWord 1 0x01F40500).breaks 0 [] ∧ (e.withWord 3 100).breaks 0 [] ∧ ¬(e.withWord 3 101).breaks 0 [] ∧
      e.breaks 0 [(7, 1)] ∧ ¬e.breaks 0 [(7, 0)] := by
  refine ⟨?_, ?_, ?_, ?_, ?_, ?_, ?_, ?_, ?_⟩ <;> unfold Entry.breaks <;> decide +kernel

/-- Sources, display numbers, windows and duplicates; the phases; an entry set aside; a map write during a take; tap
address 0, account code 3, a record held. -/
theorem test_host_owned_writes :
    run.classify .a (whole 0x1020 true 0x80040000) = .refuse .badValue ∧
      run.classify .a (whole 0x1020 true 0x800403E8) = .refuse .badValue ∧
      run.classify .a (whole 0x1020 true 0x80410001) = .refuse .badValue ∧
      run.classify .a (whole 0x100C true 100) = .refuse .badValue ∧
      run.classify .a (whole 0x1024 true 0x4100) = .refuse .badValue ∧
      run.classify .a (whole 0x1020 true 0x800403E7) = .pass (some ⟨.channelMap, 1, 0, 0x800403E7⟩) ∧
      run.classify .a (whole 0x1008 true 50) = .refuse .eventLive ∧
      early.classify .a (whole 0x1004 true 0x01F40508) = .refuse .eventLive ∧
      early.classify .a (whole 0x1004 true 0x01F50507) = .pass (some ⟨.channelMap, 0, 1, 0x01F50507⟩) ∧
      early.classify .a (whole 0x1020 true 0x80040000) = .pass (some ⟨.channelMap, 1, 0, 0x80040000⟩) ∧
      applying.classify .a (whole 0x1020 true 0x80040000) = .refuse .badValue ∧
      applying.classify .a (whole 0x1008 true 50) = .refuse .tableBusy ∧
      run.classify .b (whole 0x2000 true 0x80000000) = .refuse .badValue ∧
      run.classify .b (whole 0x2004 true 0x30) = .refuse .badValue ∧
      ({ run with toe := { run.toe with held := [0] } } : Chip).classify .b (whole 0x2000 true 0x80000001) =
        .refuse .recordBusy := by decide +kernel

/-! ### Witnesses: command words -/

theorem witness_CommandReadsAreAnswered :
    (∀ n, n < 8 → run.commands .a (64 + n) = true ∧ run.commands .b (64 + n) = true) ∧
      wordAddr 0x103 = stationAddr 64 ∧ wordAddr 0x118 = stationAddr 70 ∧
      run.rpu.highest = none ∧ ({ calm with causes := 0x8008 } : Rpu).highest = some .accessRefused ∧
      run.clu.copy.isSome = true ∧ off.clu.copy = none ∧ off.commands .a 64 = true := by decide +kernel

/-- A CAUSE read answers the highest rank with MORE, and removes it alone (R170). -/
theorem test_cause_read :
    after (.causeRead ⟨.a, false⟩) (at' { run with rpu := { calm with causes := 0x8008 } } []) (fun t =>
      t.chip.portA.answer = some ⟨false, 0x104⟩ && t.chip.rpu.causes = 0x8000) = true := by decide +kernel

theorem witness_RefusedCommandsDoNotAct :
    run.grantsAt .a = true ∧ 0x400 ≤ run.map.memSize ∧ run.commands .a 71 = true ∧
      (∀ n ∈ [65, 66, 67, 69, 70], (inState .stopping 0 run).commands .b n = true) ∧
      (inState .stopping 0 run).pcu.inFlight = none ∧ (inState .stopping 0 run).lcc.lifecycle ≠ .running := by
  decide +kernel

/-- In RUNNING none of START and LOG_CLEAR, in STOPPED none of STOP and LOG_CLEAR, in LOAD_FAULT without LOG_STATE no
LOG_CLEAR; values at the ends of what names no command. -/
theorem witness_commands_out_of_their_states :
    (∀ n ∈ [64, 65, 66, 67], run.commands .b n = true) ∧ (inState .stopped 0 run).commands .b 64 = true ∧
      (inState .loadFault 1 run).commands .b 64 = true ∧ (inState .loadFault 1 run).lcc.faults.getLsbD 10 = false ∧
      applying.commands .a 66 = true ∧ applying.lue.take = .applying ∧ run.lue.take = .idle ∧
      run.lcc.lifecycle = .running ∧ applying.lcc.lifecycle = .running ∧ run.pcu.inFlight = none ∧
      ([0, 1, 2, 3, 4, 0xFF].map fun v => fieldNat v 0 8) = [0, 1, 2, 3, 4, 255] ∧
      ([0, 0x06000000, 0xFF000000].map fun v => fieldNat v 24 8) = [0, 6, 255] ∧
      ([0, 0x30000000].map fun v => fieldNat v 28 2) = [0, 3] := by decide +kernel

/-- A command in a state that does not take it, and a value that names none (R23, R43, R69, R138). -/
theorem test_refused_values :
    run.classify .a (stationAccess 64 true 1 false) = .refuse .badCommand ∧
      run.classify .a (stationAccess 64 true 3 false) = .refuse .badCommand ∧
      (inState .stopped 0 run).classify .a (stationAccess 64 true 2 false) = .refuse .badCommand ∧
      applying.classify .a (stationAccess 66 true 1 false) = .refuse .tableBusy ∧
      run.classify .a (stationAccess 66 true 2 false) = .refuse .badCommand ∧
      run.classify .a (stationAccess 66 true 3 false) = .refuse .badCommand ∧
      run.classify .a (stationAccess 65 true 0x06000000 false) = .refuse .badCommand ∧
      run.classify .a (stationAccess 67 true 0x30000003 false) = .refuse .badCommand := by decide +kernel

theorem witness_StartEntersLoading :
    (∀ l ∈ [Lifecycle.offline, .loadFault, .stopped], (inState l 0 run).commands .a 64 = true) ∧
      (inState .stopped 0 run).lccIdle = true := by decide +kernel

theorem test_start :
    after (.start ⟨.b, false⟩) (at' off []) (fun t => t.chip.lcc.lifecycle = .loading && t.chip.lcc.phase = 1 &&
      t.chip.portB.answer = some ⟨false, 0⟩) = true := by decide +kernel

/-- The blocks that R33 asks about. -/
def otherBlocks : List Block := [.lcc, .lue, .toe, .slm, .swe, .pcu, .clu]

/-- Port A holds a lock while the active sweep of two has asked for its next step. -/
def sweepAsked : Chip :=
  { run with
    par := ⟨.host .a true 1, .portA⟩
    tau := ⟨[[.sweepStep]], none⟩
    swe := ⟨[⟨.restore 1 8, 3, true, false, true⟩, ⟨.restore 2 9, 0, true, false, false⟩],
      some ⟨true, some 0, 0x02010008, 1200, 20, true⟩⟩ }

theorem witness_StopEntersStopping :
    run.commands .a 64 = true ∧ run.lcc.lifecycle = .running ∧ run.toe.flights = [] ∧ run.lue.order = none ∧
      run.lue.take = .idle ∧ run.fallback = false ∧
      (∀ b ∈ otherBlocks, run.outstanding b = false ∧ run.wants b = none) ∧
      sweepAsked.commands .a 64 = true ∧ sweepAsked.lcc.lifecycle = .running ∧ sweepAsked.outstanding .swe = true ∧
      sweepAsked.tau.running = none := by decide +kernel

/-- STOP with nothing in flight and nothing asked passes to STOPPED; with the active sweep's request the part stays, and the
other sweep leaves the queue (R33, R134). -/
theorem test_stop :
    after (.stop ⟨.a, false⟩) (at' run []) (fun t => t.chip.lcc.lifecycle = .stopped && t.chip.lue.entries = []) = true ∧
    after (.stop ⟨.a, false⟩) (at' sweepAsked []) (fun t => t.chip.lcc.lifecycle = .stopping &&
      (t.chip.swe.queue.map fun e => e.kind) = [.restore 1 8] && t.chip.swe.work = sweepAsked.swe.work) = true := by
  decide +kernel

/-- LOAD_FAULT with LOG_STATE in the fault set. -/
def logFault : Chip := { run with lcc := { Lcc.reset with lifecycle := .loadFault, phase := 3, faults := 0x400 } }

theorem witness_LogClearEqualisesTheIndexes :
    logFault.commands .a 64 = true ∧ logFault.lcc.lifecycle = .loadFault ∧ logFault.lcc.faults.getLsbD 10 = true ∧
      logFault.lccIdle = true ∧ (offering .logClear logFault).offers .logClear = true := by decide +kernel

/-- The write index read is written as the release index (R23). -/
theorem test_log_clear_tenure :
    after (.logClear .tenure) (at' (offering .logClear logFault) (Memory.writeWord [] (stationAddr 96) 77)) (fun t =>
      (t.chip.tau.running.map fun x => x.writes) = some [(stationAddr 97, 77)]) = true := by decide +kernel

/-- The heartbeat in a state. -/
def beating (h : Heartbeat) (deadline : Option Tick) : Chip :=
  { run with tbu := { run.tbu with heartbeat := h, deadline := deadline, expected := 5 } }

theorem witness_ArmStartsTheCountdown :
    (beating .expired none).commands .a 65 = true ∧ (beating .expired none).lcc.lifecycle = .running ∧
      (beating .expired none).tbu.heartbeat ≠ .armed ∧ (beating .paused none).tbu.heartbeat ≠ .expired ∧
      (beating .armed (some 1000)).commands .b 65 = true ∧ (beating .armed (some 1000)).tbu.heartbeat = .armed := by
  decide +kernel

/-- Fallback on source 9: the flagged entries differ from it, and the link is free. -/
def flagged (h : Heartbeat) (deadline : Option Tick) : Chip :=
  { beating h deadline with lue := { run.lue with
      entries := [normalEntry, { normalEntry with w0 := 0x80042003, applied := 9 }, { normalEntry with w0 := 0x80042004 }] } }

theorem witness_fallbackMoved :
    run.settings.fallbackSource = 9 ∧ bit normalEntry.w0 13 = true ∧ (flagged .armed none).lue.order = none ∧
      (∀ x ∈ (flagged .armed none).lue.entries, x.route ≠ .inFlight ∧ x.route ≠ .pending) ∧
      bit normalEntry.w0 31 = true ∧ normalEntry.applied ≠ normalEntry.wanted true 9 ∧
      ({ normalEntry with applied := 9 } : Entry).applied = normalEntry.wanted true 9 ∧
      ({ normalEntry with applied := 9 } : Entry).applied ≠ normalEntry.wanted false 9 := by decide +kernel

/-- A window opens and the heartbeat's countdown may reach its deadline at one count, the link free. -/
def oneCount (h : Heartbeat) (deadline : Option Tick) : Chip :=
  { beating h deadline with
    tbu := { (beating h deadline).tbu with position := 100, wall := 99 }
    lue := { run.lue with entries := [eventEntry .before, normalEntry] } }

/-- The next step of an empty queue's part. -/
def onward (c : Chip) : Chip :=
  match step (at' c []) with
  | .next t => t.chip
  | _ => c

/-- The time change first and the fallback start after it: FALLBACK is sent first, and the EVENT request waits (R62, R70). -/
theorem test_fallback_goes_before_the_time_change :
    ((onward (oneCount .armed (some 1000))).lue.entries.map fun e => e.cls) = [some .event, none] ∧
      (onward (onward (oneCount .armed (some 1000)))).lue.order = some ⟨1, 9, 0, 1020, .fallback⟩ ∧
      ((onward (onward (oneCount .armed (some 1000)))).lue.entries.map fun e => (e.route, e.cls)) =
        [(.pending, some .event), (.inFlight, none)] ∧
      (let opened := onward (oneCount .armed (some 1000))
      opened.lue.order = none ∧ (∀ x ∈ opened.lue.entries, x.route ≠ .inFlight ∧ x.cls ≠ some .fallback)) := by
  decide +kernel

/-- Without a fallback start the EVENT request is served at the same count, and then a unit passes (R62). -/
theorem test_time_change_is_served_at_its_count :
    (onward (onward (oneCount .disarmed none))).lue.order = some ⟨0, 5, 0, 1020, .event⟩ ∧
      (onward (onward (oneCount .disarmed none))).tbu.mono = 1000 ∧
      (onward (onward (onward (oneCount .disarmed none)))).tbu.mono = 1001 := by decide +kernel

/-- EXPIRE sends the lowest flagged entry to the fallback source and asks for the others; DISARM sends back the one that
stands on it, the entries below it SETTLED (R62, R70). -/
theorem test_fallback_requests :
    after (.expire ⟨.a, false⟩) (at' (flagged .armed (some 2000)) []) (fun t =>
      t.chip.lue.order = some ⟨0, 9, 0, 1020, .fallback⟩ &&
        (t.chip.lue.entries.map fun e => e.cls) = [none, some .fallback, some .fallback]) = true ∧
    after (.disarm ⟨.a, false⟩) (at' (flagged .expired none) []) (fun t =>
      t.chip.lue.order = some ⟨1, 4, 0, 1020, .fallback⟩ &&
        (t.chip.lue.entries.map fun e => e.route) = [.settled, .inFlight, .pending]) = true := by decide +kernel

theorem test_arm :
    after (.arm ⟨.a, false⟩ 0xFFFF) (at' (beating .disarmed none) []) (fun t =>
      t.chip.tbu.heartbeat = .armed && t.chip.tbu.expected = 0 && t.chip.tbu.deadline = some 4000) = true := by
  decide +kernel

theorem witness_FeedAndExpiry :
    (beating .armed (some 1000)).commands .a 65 = true ∧ (beating .armed (some 1000)).tbu.expected = 5 ∧
      (6 : BitVec 16) ≠ (beating .armed (some 1000)).tbu.expected ∧ (beating .paused none).tbu.heartbeat ≠ .armed ∧
      (beating .armed (some 1000)).quiet = true ∧
      (beating .armed (some 1000)).tbu.deadline = some (beating .armed (some 1000)).tbu.mono := by decide +kernel

theorem test_feed_out_of_turn :
    after (.feed ⟨.a, false⟩ 6) (at' (beating .armed (some 2000)) []) (fun t =>
      t.chip.tbu.heartbeat = .expired && t.chip.tbu.expected = 5 && t.chip.rpu.isPending .heartbeatExpired) = true := by
  decide +kernel

theorem test_countdown_expiry :
    after .heartbeatCountdownExpiry (at' (beating .armed (some 1000)) []) (fun t =>
      t.chip.tbu.heartbeat = .expired && t.chip.fallback && t.chip.rpu.counter .heartbeatExpiries = 1) = true := by
  decide +kernel

theorem witness_PauseExpireDisarm :
    (beating .armed (some 2000)).commands .a 65 = true ∧ (beating .armed (some 2000)).lcc.lifecycle = .running ∧
      (beating .armed (some 2000)).tbu.heartbeat = .armed ∧ (beating .paused none).commands .a 65 = true ∧
      (beating .paused none).tbu.heartbeat = .paused ∧ (beating .expired none).commands .a 65 = true ∧
      (beating .expired none).tbu.heartbeat ≠ .disarmed ∧ (beating .disarmed none).commands .a 65 = true ∧
      (beating .disarmed none).tbu.heartbeat = .disarmed := by decide +kernel

theorem test_pause :
    after (.pause ⟨.b, false⟩) (at' (beating .armed (some 2000)) []) (fun t =>
      t.chip.tbu.heartbeat = .paused && t.chip.tbu.deadline = none && t.chip.tbu.expected = 5) = true := by
  decide +kernel

/-- A take in progress, its last entry PENDING. -/
def taking : Chip :=
  { run with lue := { run.lue with
      entries := [{ eventEntry .inside with applied := 5 }, { normalEntry with applied := 2, route := .inFlight },
        { normalEntry with applied := 2, route := .pending, cls := some .take }]
      take := .applying
      order := some ⟨1, 4, 0, 1020, .take⟩ } }

/-- An order in flight that the walk of a TAKE, or a cancel, leaves with no more than a noted request. -/
def noting (take : TakeState) (cls : Option RouteClass) : Chip :=
  { run with lue := { run.lue with
      entries := [{ normalEntry with applied := 2, route := .inFlight, cls := cls }]
      take := take
      order := some ⟨0, 4, 0, 1020, .event⟩ } }

theorem witness_TakeBeginsAndIsCancelled :
    run.commands .a 66 = true ∧ run.lcc.lifecycle = .running ∧ run.lue.take = .idle ∧
      (∀ e ∈ [normalEntry], e.applied = e.wanted run.fallback run.settings.fallbackSource) ∧
      ({ taking with lue := { taking.lue with take := .idle } } : Chip).lue.order.isSome = true ∧
      run.lue.order = none ∧ (∀ x ∈ run.lue.entries, x.route = .settled ∨ x.route = .failed) ∧
      run.lue.entries[0]? = some (eventEntry .inside) ∧ (eventEntry .inside).live = true ∧
      (eventEntry .inside).applied ≠ (eventEntry .inside).wanted run.fallback run.settings.fallbackSource ∧
      taking.commands .b 66 = true ∧ taking.lue.take = .applying ∧
      (∀ e ∈ [normalEntry], e.cls ≠ some .take) ∧ (noting .applying (some .take)).commands .a 66 = true := by decide +kernel

/-- The entry INSIDE its window is sent to its event source with tag 0 (R62, R71). -/
theorem test_take :
    after (.take ⟨.a, false⟩) (at' run []) (fun t =>
      t.chip.lue.take = .applying && t.chip.lue.order = some ⟨0, 5, 0, 1020, .take⟩ &&
        t.chip.routeLink.sent = [routeFrame 0 5 0]) = true := by decide +kernel

theorem test_take_cancel :
    after (.takeCancel ⟨.a, false⟩) (at' taking []) (fun t =>
      t.chip.lue.take = .idle && t.chip.lue.takeResult = .cancelled && t.chip.lue.order.isSome &&
        t.chip.lue.owedCauses = [⟨.takeDone, [2]⟩]) = true := by decide +kernel

/-- The table of R61: what an entry carries after a TAKE, an EVENT and a FALLBACK request. -/
theorem test_request_table :
    let after := fun e : Entry => [RouteClass.take, .event, .fallback].map fun k => (e.asked k).cls
    let inFlight := fun c => { normalEntry with route := .inFlight, cls := c }
    after normalEntry = [some .take, some .event, some .fallback] ∧
      after (inFlight none) = [some .take, some .event, some .fallback] ∧
      after (inFlight (some .event)) = [some .event, some .event, some .fallback] ∧
      after (inFlight (some .fallback)) = [some .fallback, some .fallback, some .fallback] ∧
      (({ normalEntry with aside := true } : Entry).asked .event).cls = none := by decide +kernel

/-- TAKE_DONE waits for the entry in flight that the walk noted, or that the cancel cleared (R63). -/
theorem test_take_done_waits :
    after (.takeCancel ⟨.a, false⟩) (at' (noting .applying (some .take)) []) (fun t =>
      t.chip.lue.owedCauses = [⟨.takeDone, [0]⟩] && !t.chip.rpu.isPending .takeDone) = true := by decide +kernel

/-- An evaluation is in flight. -/
def evaluating : Chip :=
  { run with pcu := ⟨some ⟨.buy, .a, 2, 0⟩, ⟨1, .a, .buy, 2, 0, .inProgress⟩, []⟩ }

theorem witness_PurchasesAreTakenOrHeld :
    run.commands .b 67 = true ∧ run.lcc.lifecycle = .running ∧ run.pcu.inFlight = none ∧ run.outstanding .pcu = false ∧
      ({ evaluating with par := ⟨.host .b true 1, .portB⟩, tau := ⟨[[.purchase]], none⟩ } : Chip).commands .b 67 = true ∧
      evaluating.pcu.inFlight.isSome = true := by decide +kernel

theorem test_buy_begins :
    after (.buy ⟨.b, false⟩ 2 1) (at' run []) (fun t =>
      t.chip.pcu.inFlight = some ⟨.buy, .b, 2, 1⟩ && t.chip.pcu.record.result = .inProgress &&
        t.chip.tau.orders = [[.purchase]]) = true := by decide +kernel

theorem witness_TimeWriteSetsWallTime :
    run.commands .a 68 = true ∧ off.commands .a 68 = true ∧ off.working = false ∧ run.working = true ∧
      run.lue.entries = [eventEntry .inside, normalEntry] ∧ normalEntry.atTime 200 = normalEntry ∧
      ([150, 200].map fun w => ((eventEntry .inside).atTime w).cls) = [none, some .event] ∧
      ([199, 200, 99, 100].map fun w => (eventEntry .inside).phaseMoved w) =
        [some .inside, some .closing, some .before, some .inside] := by decide +kernel

/-- The entry INSIDE goes CLOSING at wall second 200, the entry BEFORE at a jump past its window; there is room for its
close, and in STOPPING none is handed. -/
theorem witness_closesHanded :
    (eventEntry .inside).phaseMoved 200 = some .closing ∧ (eventEntry .inside).phase ≠ some .closing ∧
      (eventEntry .before).phaseMoved 200 = some .closing ∧ bit (eventEntry .inside).w0 31 = true ∧
      bit (eventEntry .inside).w0 12 = true ∧ (eventEntry .inside).aside = false ∧ eventEntry .inside ∈ run.lue.entries ∧
      run.swe.queue.length + run.lue.entries.length ≤ 192 ∧ run.lcc.lifecycle = .running ∧
      (inState .stopping 0 run).commands .a 68 = true ∧ (inState .stopping 0 run).lcc.lifecycle ≠ .running := by
  decide +kernel

/-- A TIME write at the window's end puts the entry in CLOSING and hands its close (R57, R58). -/
theorem test_time_write_closes :
    after (.timeWrite ⟨.a, false⟩ 200) (at' run []) (fun t =>
      t.chip.tbu.wall = 200 && (t.chip.lue.entries.map fun e => e.phase) = [some .closing, none] &&
        t.chip.swe.queue = [⟨.eventClose 7, 0, true, false, false⟩]) = true := by decide +kernel

/-- So does a boundary, and a pulse that makes one (R39). -/
theorem test_boundary_closes :
    let before := fun position => at' { run with tbu := { run.tbu with position := position, wall := 199 } } []
    let closes := fun t : State => decide (t.chip.tbu.wall = 200 ∧ t.chip.swe.queue.map (·.kind) = [.eventClose 7])
    after .wallSecondBoundary (before 100) closes = true ∧ after .referencePulse (before 50) closes = true := by
  decide +kernel

theorem witness_ReleaseAndPeriodAreTaken :
    run.commands .a 69 = true ∧ run.clu.copy = some ⟨20, 10, 12, 0xABCD, 5, 3⟩ ∧
      ((20 : Word) - 12).toNat ≤ ((20 : Word) - 12).toNat ∧ ((20 : Word) - 12).toNat < ((21 : Word) - 12).toNat ∧
      run.commands .b 70 = true ∧ run.clu.close = .none ∧ 0 < run.free ∧
      ([0, 2, 0xFF].map fun v => fieldNat v 0 8) = [0, 2, 255] ∧
      ({ run with clu := { run.clu with close := .asked } } : Chip).clu.close ≠ .none ∧
      ({ run with clu := { run.clu with reserved := 246 } } : Chip).free = 0 := by decide +kernel

theorem test_release :
    after (.release ⟨.a, false⟩ 20) (at' run []) (fun t => t.chip.tau.orders = [[.release]] &&
      (t.chip.clu.copy.map fun l => l.target) = some 20) = true ∧
    after (.release ⟨.a, false⟩ 11) (at' run []) (fun t => t.chip.portA.answer = some ⟨true, 0⟩) = true := by
  decide +kernel

theorem test_period_close :
    after (.periodClose ⟨.a, false⟩) (at' run []) (fun t => t.chip.tau.orders = [[.close]]) = true := by decide +kernel

/-! ### Witnesses: time and links -/

theorem witness_SecondsAndPulses :
    let t (position : Nat) (pulse : Option Tick) (locked : Bool) : Chip :=
      { run with tbu := { run.tbu with position := position, lastPulse := pulse, locked := locked } }
    run.quiet = true ∧ 100 ≤ (t 100 none false).tbu.position ∧ (t 99 none false).tbu.position < 100 ∧
      ((t 50 none false).tbu.lastPulse = none) ∧ 50 ≤ ((1000 : Tick) - 950).toNat ∧ ((1000 : Tick) - 951).toNat < 50 ∧
      (t 0 (some 700) true).tbu.mono = 700 + 300 ∧ run.working = true ∧ 50 ≤ (t 50 none false).tbu.position ∧
      (t 49 none false).tbu.position < 50 := by decide +kernel

/-- A pulse at position 50 is the boundary arriving early, at 49 the one just made (R39). -/
theorem test_pulse :
    (∀ p ∈ [(50, (151 : Word)), (49, 150)], after .referencePulse
      (at' { run with tbu := { run.tbu with position := p.1 } } [])
      (fun t => t.chip.tbu.wall = p.2 && t.chip.tbu.position = 0 && t.chip.tbu.locked) = true) := by decide +kernel

theorem test_second :
    after .wallSecondBoundary (at' { run with tbu := { run.tbu with position := 100, wall := 0xFFFFFFFF } } [])
      (fun t => t.chip.tbu.wall = 0 && t.chip.tbu.position = 0 && t.chip.tbu.set) = true := by decide +kernel

theorem test_loss :
    after .lossWatchExpiry (at' { run with tbu := { run.tbu with lastPulse := some 700, locked := true } } [])
      (fun t => !t.chip.tbu.locked && t.chip.rpu.isPending .syncLost) = true := by decide +kernel

/-- A route order in flight for slot 1 with tag 6, made `n` times. -/
def routing (n : BitVec 3) (deadline : Tick) : Chip :=
  { run with lue := { run.lue with
      entries := [eventEntry .after, { normalEntry with applied := 2, route := .inFlight, attempts := n }]
      order := some ⟨1, 4, 6, deadline, .take⟩
      tag := 7 } }

theorem witness_RouteOrdersEnd :
    (routing 1 1000).quiet = true ∧ (routing 1 1000).routeLink.receiver.got = [] ∧
      (routing 1 1000).lue.order = some ⟨1, 4, 6, 1000, .take⟩ ∧ (1 : Byte).toNat = 1 ∧
      ((routing 1 1000).lue.entries[1]?).isSome = true ∧ (0 : BitVec 2) ≠ 3 ∧ (2 : BitVec 2) ≠ 3 ∧
      ¬((1 : Byte).toNat = 1 ∧ (5 : BitVec 3) = 6) ∧
      (routing 1 1000).tbu.mono = 1000 ∧ (routing 1 1001).tbu.mono ≠ 1001 ∧
      (1 : BitVec 3).toNat < (routing 1 1000).settings.routeAttempts ∧
      (routing 2 1000).settings.routeAttempts ≤ (2 : BitVec 3).toNat ∧
      (inState .stopping 0 (routing 1 1000)).lcc.lifecycle ≠ .running := by decide +kernel

/-- The entry in flight notes class EVENT, its target 4 and its order for another source; a take is in progress. -/
def notedFlight (source : BitVec 7) (cls : Option RouteClass) : Chip :=
  { run with lue := { run.lue with
      entries := [eventEntry .after, { normalEntry with applied := 2, route := .inFlight, cls := cls, attempts := 2 }]
      take := .applying
      order := some ⟨1, source, 6, 1000, .take⟩
      tag := 7 } }

theorem witness_order_ends :
    (notedFlight 3 (some .event)).quiet = true ∧ normalEntry.live = true ∧
      (3 : BitVec 7) ≠ normalEntry.wanted run.fallback run.settings.fallbackSource ∧
      (4 : BitVec 7) = normalEntry.wanted run.fallback run.settings.fallbackSource ∧
      (eventEntry .after).route ≠ .pending ∧ (notedFlight 3 none).lue.take = .applying := by decide +kernel

/-- Bytes with good stop bits. -/
def good (l : List Byte) : List LineByte := l.map fun b => ⟨b, true⟩

/-- A frame with a wrong sum, one with result code 3, one cut off at its last byte, and bytes that begin none. -/
theorem witness_bad_route_frames :
    (routing 1 1000).quiet = true ∧ (routing 1 1000).routeLink.receiver.got = [] ∧
      (0xE2 : Byte) + 1 + 6 + 0 ≠ 0 ∧ (0xE2 : Byte) + 1 + 0x36 + 0xE7 = 0 ∧ (0x36 : Byte).extractLsb' 4 2 = 3 ∧
      [(1 : Byte), 6].length ≤ 2 ∧ (∀ b ∈ good [1, 0xE1] ++ [⟨0, false⟩], b.value ≠ 0xE2) := by decide +kernel

theorem test_bad_route_frames :
    let errors := fun n (l : List LineByte) => after (.routeReply l) (at' (routing 1 1000) []) fun t =>
      decide (t.chip.rpu.counter .routeLineErrors = n) && t.chip.lue = (routing 1 1000).lue
    errors 1 (good [0xE2, 1, 0x36, 0xE7]) = true ∧ errors 1 (good [0xE2, 1, 6] ++ [⟨0x17, false⟩]) = true ∧
      errors 0 (good [1, 0xE1] ++ [⟨0, false⟩]) = true := by decide +kernel

/-- DONE for a source that is no longer the target: the noted class is sent next, and without one the entry is SETTLED; the
take that this order held open is COMPLETE. A failure counts in the take, which is PARTIAL (R64, R65, R72). -/
theorem test_order_ends :
    after (.routeReply (routeReplyFrame 1 6 0)) (at' (notedFlight 3 (some .event)) []) (fun t =>
      t.chip.lue.order = some ⟨1, 4, 7, 1020, .event⟩ && t.chip.lue.take = .idle && t.chip.lue.takeResult = .complete) =
      true ∧
    after (.routeReply (routeReplyFrame 1 6 0)) (at' (notedFlight 3 none) []) (fun t =>
      t.chip.lue.order = none && (t.chip.lue.entries.map fun e => e.route) = [.settled, .settled]) = true ∧
    after (.routeReply (routeReplyFrame 1 6 1)) (at' (notedFlight 4 none) []) (fun t =>
      (t.chip.lue.entries.map fun e => e.route) = [.settled, .failed] && t.chip.lue.takeFailed = 1 &&
        t.chip.lue.take = .idle && t.chip.lue.takeResult = .partialTake) = true := by decide +kernel

/-- DONE completes the order; a wrong tag is stale; a bad sum is a line error (R64, R68, R176). -/
theorem test_route_replies :
    after (.routeReply (routeReplyFrame 1 6 0)) (at' (routing 1 1000) []) (fun t =>
      (t.chip.lue.entries.map fun e => e.applied) = [3, 4] && t.chip.lue.order = none) = true ∧
    after (.routeReply (routeReplyFrame 1 5 0)) (at' (routing 1 1000) []) (fun t =>
      t.chip.rpu.counter .staleRouteReplies = 1 && t.chip.lue = (routing 1 1000).lue) = true ∧
    after (.routeReply [⟨0xE2, true⟩, ⟨1, true⟩, ⟨6, true⟩, ⟨0, true⟩]) (at' (routing 1 1000) []) (fun t =>
      t.chip.rpu.counter .routeLineErrors = 1) = true := by decide +kernel

/-- The deadline: sent again with the next tag; at the limit FAILED (R66). -/
theorem test_route_deadline :
    after .routeDeadline (at' (routing 1 1000) []) (fun t =>
      t.chip.lue.order = some ⟨1, 4, 7, 1020, .take⟩ && t.chip.lue.tag = 0) = true ∧
    after .routeDeadline (at' (routing 2 1000) []) (fun t =>
      (t.chip.lue.entries.map fun e => e.route) = [.settled, .failed]) = true := by decide +kernel

/-- Frames of which some bytes have come, the last at count `last`. -/
def stalled (last : Tick) : Chip := { run with routeLink := ⟨⟨[0xE2, 1], last⟩, []⟩, tapLink := ⟨⟨[0xD2], last⟩, []⟩ }

theorem witness_ByteTimeoutDropsTheFrame :
    (stalled 997).quiet = true ∧ (stalled 997).routeLink.receiver.got ≠ [] ∧ (stalled 997).tapLink.receiver.got ≠ [] ∧
      3 ≤ ((stalled 997).tbu.mono - (stalled 997).routeLink.receiver.lastAt).toNat ∧
      3 ≤ ((stalled 997).tbu.mono - (stalled 997).tapLink.receiver.lastAt).toNat ∧ run.routeLink.receiver.got = [] ∧
      run.tapLink.receiver.got = [] ∧ (stalled 998).quiet = true ∧
      ((stalled 998).tbu.mono - (stalled 998).routeLink.receiver.lastAt).toNat < 3 ∧
      ((stalled 998).tbu.mono - (stalled 998).tapLink.receiver.lastAt).toNat < 3 := by decide +kernel

theorem test_byte_timeouts :
    after .routeByteTimeout (at' (stalled 997) []) (fun t => t.chip.rpu.counter .routeLineErrors = 1) = true ∧
    after .tapByteTimeout (at' (stalled 997) []) (fun t => t.chip.rpu.counter .tapLineErrors = 1) = true ∧
    after .routeByteTimeout (at' (stalled 998) []) (fun t => t.chip = stalled 998) = true ∧
    after .tapByteTimeout (at' (stalled 998) []) (fun t => t.chip = stalled 998) = true := by decide +kernel

/-! ### Witnesses: tenures of the line-up, and the end of a tenure -/

/-- The load walk of the map has taken two of four entries. -/
def walking : Chip := inState .loading 6 { run with lue := { run.lue with walk := some 2 } }

/-- Entry 2 an EVENT entry of a number, its window 100 to 200, and entry 3 a NORMAL entry on source 5 with source 4 applied. -/
def mapMemory (number : Word) : Memory :=
  [(0x1040, 0x80031001), (0x1044, 0x01F40500 ||| number), (0x1048, 100), (0x104C, 200), (0x1060, 0x80050002), (0x1070, 4)].foldl
    (fun m x => Memory.writeWord m x.1 x.2) []

theorem witness_LineUpTenures :
    (offering .mirror run).offers .mirror = true ∧ (offering .mapWalk walking).offers .mapWalk = true ∧
      walking.lue.walk = some 2 ∧ 1 < min 4 (walking.mapCount - 2) ∧ 2 < walking.mapCount ∧ walking.mapCount ≤ 2 + 4 ∧
      walking.lcc.lifecycle = .loading ∧ walking.swe.queue.length + 4 ≤ 192 := by decide +kernel

/-- Number 7 is bound: the entry is set aside and FAILED, owing ROUTE_FAILED; number 8 takes its phase. The NORMAL entry
is PENDING with class TAKE (R75). -/
theorem test_map_walk :
    after .mapLoadWalk (at' (offering .mapWalk walking) (mapMemory 7)) (fun t =>
      ((t.chip.lue.entries.drop 2).map fun e => (e.aside, e.route, e.cls, e.phase)) =
        [(true, .failed, none, none), (false, .pending, some .take, none)] &&
      t.chip.lue.owedCauses = [⟨.routeFailed, [2, 3]⟩]) = true ∧
    after .mapLoadWalk (at' (offering .mapWalk walking) (mapMemory 8)) (fun t =>
      ((t.chip.lue.entries.drop 2).map fun e => (e.route, e.phase)) =
        [(.pending, some .inside), (.pending, none)] && t.chip.lue.owedCauses = []) = true := by decide +kernel

/-- An entry owing its time: w5 and then w4 (R63). -/
theorem test_mirror :
    after .mirrorTenure (at' (offering .mirror { run with lue := { run.lue with owesTime := [1] } }) []) (fun t =>
      (t.chip.tau.running.map fun x => x.writes) = some [(0x1034, 150), (0x1030, 0x200004)]) = true := by decide +kernel

/-- A tenure that ends an evaluation, with Port B's write held. -/
def endingEvaluation : Chip :=
  { evaluating with
    par := ⟨.tau, .tau⟩
    portB := ⟨some ⟨stationAccess 67 true (purchaseWord .buy 3 0) false, .held⟩, false, none⟩
    pcu := { evaluating.pcu with held := [.b] }
    tau := ⟨[], some ⟨.purchase, [(0x500, 9)], [.purchaseEnd .window, .cause .purchaseDone], 5⟩⟩ }

theorem test_held_write_is_taken :
    after .tauTenureEnd (at' endingEvaluation []) (fun t =>
      t.mem = [(0x500, 9)] && t.chip.portB.answer = some ⟨false, 0⟩ &&
        t.chip.pcu.inFlight = some ⟨.buy, .b, 3, 0⟩ && t.chip.rpu.isPending .purchaseDone) = true := by decide +kernel

/-! ### Witnesses: taps -/

/-- A record in flight for subscriber 3. -/
def flight3 : Flight :=
  { subscriber := 3, tag := 2, level := 2, gate := true, sent := 2, deadline := some 1000, oneWay := false,
    matched := false, anyReply := false, levelReserved := true, recheck := .none, reply := none, ending := none,
    workAt := 900, tapAddress := 0x12345, tapPort := 1, node := 0 }

/-- The part with that record in flight, as changed. -/
def flying (f : Flight → Flight) : Chip := { run with toe := { run.toe with flights := [f flight3] } }

/-- A reply of that tap. -/
def reply3 : TapReply := ⟨0x12345, 1, 2, ⟨2, true, false⟩⟩

theorem witness_TapReplyReachesItsRecord :
    (flying id).quiet = true ∧ (flying id).tapLink.receiver.got = [] ∧
      (flying id).toe.flights.find? (fun f => f.matches reply3) = some flight3 ∧ reply3.report.level = flight3.level ∧
      reply3.report.gate = flight3.gate ∧ (flying id).settings.minAttempts ≤ flight3.sent ∧
      flight3.levelReserved = true ∧ (∀ f ∈ (flying id).toe.flights, f.matches { reply3 with tag := 3 } = false) := by
  decide +kernel

theorem test_tap_replies :
    after (.tapReply (tapReplyFrame reply3)) (at' (flying id) []) (fun t =>
      (t.chip.toe.flights.map fun f => f.ending) = [some .confirmed]) = true ∧
    after (.tapReply (tapReplyFrame { reply3 with tag := 3 })) (at' (flying id) []) (fun t =>
      t.chip.rpu.counter .staleTapReplies = 1) = true := by decide +kernel

/-- A reply of another gate, and one of the ordered values that no slot is reserved for: the level is the confirmed one as
last written, memory's or a running tenure's, or a slot is free, or neither. -/
theorem witness_reply_decides :
    let full : Chip := { flying (fun f => { f with levelReserved := false }) with clu := { run.clu with reserved := 246 } }
    (flying id).toe.flights.find? (fun f => f.matches { reply3 with report := ⟨2, false, false⟩ }) = some flight3 ∧
      full.quiet = true ∧ full.toe.flights.find? (fun f => f.matches reply3) =
        some { flight3 with levelReserved := false } ∧ full.free = 0 ∧
      field ((Memory.writeWord [] 0x2068 2).readWord (full.recordAddr .subscribers 3 2)) 0 2 = reply3.report.level ∧
      field (Memory.readWord [] (full.recordAddr .subscribers 3 2)) 0 2 ≠ reply3.report.level ∧
      (full.recordAddr .subscribers 3 2) = 0x2068 ∧ 0 < (flying fun f => { f with levelReserved := false }).free := by
  decide +kernel

/-- No slot and another confirmed level: nothing is decided, and the deadline runs on; that level in memory, or in a write
of the running tenure: CONFIRMED (R91). -/
theorem test_reply_without_a_reservation :
    let full : Chip := { flying (fun f => { f with levelReserved := false }) with clu := { run.clu with reserved := 246 } }
    let ends := fun c m e d => after (.tapReply (tapReplyFrame reply3)) (at' c m) fun t =>
      t.chip.toe.flights.map (fun f => (f.ending, f.deadline, f.reply)) = [(e, d, some reply3.report)]
    ends full [] none (some 1000) = true ∧ ends full (Memory.writeWord [] 0x2068 2) (some .confirmed) none = true ∧
      ends { full with par := ⟨.tau, .tau⟩, tau := ⟨[], some ⟨.report, [(0x2068, 2)], [], 0⟩⟩ } [] (some .confirmed) none =
        true := by decide +kernel

/-- A wrong sum, a gate code 2, a health code 2, a bad stop bit in the last byte, and bytes that begin no frame. -/
theorem witness_bad_tap_frames :
    (0xD2 : Byte) + 1 + 2 + 3 + 4 + 5 + 6 ≠ 0 ∧ 2 ≤ ((0x08 : Byte).extractLsb' 2 2).toNat ∧
      2 ≤ ((0x20 : Byte).extractLsb' 4 2).toNat ∧ [(0 : Byte), 0, 0, 0, 0].length ≤ 5 ∧
      (∀ b ∈ good [0, 0xD1] ++ [⟨0xE2, false⟩], b.value ≠ 0xD2) := by decide +kernel

theorem test_bad_tap_frames :
    let errors := fun n (l : List LineByte) => after (.tapReply l) (at' (flying id) []) fun t =>
      decide (t.chip.rpu.counter .tapLineErrors = n) && t.chip.toe = (flying id).toe
    errors 1 (good [0xD2, 1, 2, 3, 4, 5, 6]) = true ∧ errors 1 (good [0xD2, 0, 0, 0, 0, 0x08, 0x26]) = true ∧
      errors 1 (good [0xD2, 0, 0, 0, 0, 0] ++ [⟨0x2E, false⟩]) = true ∧
      errors 0 (good [0, 0xD1] ++ [⟨0xE2, false⟩]) = true := by decide +kernel

/-- Node 0 is DOWN. -/
def nodeDown (c : Chip) : Chip :=
  { c with slm := { c.slm with nodes := ⟨.down, 8, none, none, none, ⟨0, false, false⟩, false⟩ :: c.slm.nodes.tail } }

theorem witness_TapDeadlineDecides :
    (flying id).quiet = true ∧ (flying id).toe.flight 3 = some flight3 ∧ flight3.deadline = some (flying id).tbu.mono ∧
      flight3.deadline ≠ some 999 ∧ flight3.ending = none ∧
      (flying id).settings.minAttempts ≤ flight3.sent ∧ ¬(flying id).settings.maxAttempts ≤ flight3.sent ∧
      (flying id).settings.maxAttempts ≤ 3 ∧ (nodeDown run).nodeOut 0 = true ∧ run.nodeOut 0 = false ∧
      (inState .stopping 0 run).lcc.lifecycle = .stopping ∧ (beating .expired none).frozen = true ∧
      run.frozen = false := by decide +kernel

theorem test_tap_deadline :
    after (.tapDeadline 3) (at' (flying id) []) (fun t =>
      (t.chip.toe.flights.map fun f => (f.sent, f.deadline)) = [(3, some 1025)] &&
        t.chip.tapLink.sent = [tapFrame 0x12345 1 2 true 2]) = true ∧
    after (.tapDeadline 3) (at' (flying fun f => { f with sent := 3 }) []) (fun t =>
      (t.chip.toe.flights.map fun f => f.ending) = [some .failed]) = true := by decide +kernel

/-- Subscriber 3: tap 0x12345 port 1 on node 0, desired level 2, confirmed level 1 and gate CLOSED. -/
def memory3 (w1 w2 w3 : Word) : Memory :=
  (((Memory.writeWord [] 0x2060 0x80112345).writeWord 0x2064 w1).writeWord 0x2068 w2).writeWord 0x206C w3

/-- The TOE has one request. -/
def asked (r : EvalRequest) : Chip := offering .evaluation { run with toe := { run.toe with evals := [r] } }

/-- Subscriber 3 in every collection in turn. -/
def inToe (f : Toe → Toe) (c : Chip) : Chip := { c with toe := f c.toe }

/-- A full tap queue, without subscriber 3. -/
def fullQueue (t : Toe) : Toe := { t with queue := (List.range 64).map fun n => ⟨n + 4, false, 0⟩ }

theorem witness_EvaluationsAreDecided :
    (∀ k ∈ [EvalKind.evaluate, .requeue, .retire], (asked ⟨3, k, true⟩).offers .evaluation = true) ∧
      bit (run.recordWord (memory3 2 1 0) .subscribers 3 0) 31 = true ∧
      bit (run.recordWord [] .subscribers 3 0) 31 = false ∧ run.toe.whereIs 3 = none ∧
      field (run.recordWord (memory3 2 1 0) .subscribers 3 1) 0 2 ≠ field (run.recordWord (memory3 2 1 0) .subscribers 3 2) 0 2 ∧
      field (run.recordWord (memory3 1 1 0) .subscribers 3 1) 0 2 = field (run.recordWord (memory3 1 1 0) .subscribers 3 2) 0 2 ∧
      (fullQueue run.toe).whereIs 3 = none ∧ (fullQueue run.toe).queue.length = 64 ∧
      ({ run.toe with held := [3] } : Toe).whereIs 3 = some .held ∧
      ({ run.toe with queue := [⟨3, false, 0⟩] } : Toe).whereIs 3 = some .queued ∧
      ({ run.toe with deferred := [⟨3, false⟩] } : Toe).whereIs 3 = some .deferred ∧
      (flying id).toe.whereIs 3 = some .inFlight ∧
      subDemand (run.recordWord (Memory.writeWord [] 0x206C 0x107) .subscribers 3 3) = 7 ∧
      bit (run.recordWord (Memory.writeWord [] 0x206C 0x107) .subscribers 3 3) 8 = true ∧
      bit (run.recordWord (Memory.writeWord [] 0x206C 7) .subscribers 3 3) 8 = false ∧
      run.clu.copy = some ⟨20, 10, 12, 0xABCD, 5, 3⟩ := by decide +kernel

/-- Of a subscriber in no collection the attempts used stay; a queued one shows the kept attempts (R80). -/
theorem test_attempts_used :
    after .evaluate (at' (asked ⟨3, .evaluate, false⟩) (memory3 1 0x5001 0)) (fun t =>
      (t.chip.tau.running.map fun x => x.writes) = some [(0x2068, 0x5001)]) = true ∧
    after .evaluate (at' (inToe (fun t => { t with queue := [⟨3, false, 2⟩] }) (asked ⟨3, .evaluate, false⟩))
      (memory3 1 0x5011 0)) (fun t => (t.chip.tau.running.map fun x => x.writes) = some [(0x2068, 0x2011)]) = true := by
  decide +kernel

theorem test_evaluate :
    after .evaluate (at' (asked ⟨3, .evaluate, false⟩) (memory3 2 1 0)) (fun t =>
      t.chip.toe.queue = [⟨3, false, 0⟩] &&
        (t.chip.tau.running.map fun x => x.writes) = some [(0x2068, 0x11)]) = true := by decide +kernel

theorem test_requeue :
    after .requeue (at' { asked ⟨3, .requeue, true⟩ with toe := { (asked ⟨3, .requeue, true⟩).toe with held := [3] } }
      (memory3 1 0x31 0)) (fun t => t.chip.toe.queue = [⟨3, true, 0⟩] && t.chip.toe.held = []) = true := by decide +kernel

/-- An undelivered demand of a record out of use is refunded at the price of its event (R78). -/
theorem test_retire :
    after .retire (at' (asked ⟨3, .retire, false⟩) (Memory.writeWord [] 0x206C 7)) (fun t =>
      (t.chip.tau.running.map fun x => (x.writes.take 4, x.writes.drop 7)) =
        some ([(0x30140, 0x30023), (0x30144, 150), (0x30148, 0x307), (0x3014C, 500)],
          [(stationAddr 96, 21), (0x206C, 0)])) = true := by decide +kernel

/-- The TOE is granted a send tenure for subscriber 3. -/
def sending (c : Chip) : Chip := offering .send { c with toe := { c.toe with queue := [⟨3, false, 0⟩] } }

/-- Two subscribers deferred, and tag 0 taken by subscriber 8. -/
def joining : Chip :=
  inToe (fun t => { t with deferred := [⟨9, true⟩, ⟨5, false⟩], flights := [{ flight3 with subscriber := 8, tag := 0 }] }) run

theorem witness_SendTenureDecidesTheHead :
    (sending run).offers .send = true ∧ (sending run).toe.queue = [⟨3, false, 0⟩] ∧ (sending run).toe.deferred = [] ∧
      subInUse ((sending run).recordWord (memory3 2 1 0) .subscribers 3 0) = true ∧
      subInUse ((sending run).recordWord [] .subscribers 3 0) = false ∧
      (nodeDown run).nodeOut (subNode 0x80112345) = true ∧ (sending run).nodeOut (subNode 0x80112345) = false ∧
      (run.tapDraft (memory3 1 1 0) 3).needsChange = false ∧
      (run.tapDraft (memory3 2 1 0) 3).desired ≠ (run.tapDraft (memory3 2 1 0) 3).status.level ∧
      ({ run with clu := { run.clu with reserved := 246 } } : Chip).free = 0 ∧ (sending run).free ≠ 0 ∧
      (sending run).sendAllowed = true ∧ (∀ g ∈ (sending run).toe.flights, g.tag ≠ (sending run).toe.tag) ∧
      (sending joining).toe.deferred = [⟨9, true⟩, ⟨5, false⟩] ∧ (sending joining).offers .send = true ∧
      (sending joining).toe.flights.length < 16 ∧ (∀ g ∈ (sending joining).toe.flights, g.tag = (sending joining).toe.tag) ∧
      (∀ g ∈ (sending joining).toe.flights, g.subscriber ≠ 3 ∧ g.subscriber ≠ 5) ∧
      (∀ y ∈ (sending joining).toe.deferred, y = ⟨5, false⟩ ∨ 5 < y.subscriber) ∧
      (sending (inState .stopping 0 run)).offers .send = true ∧
      (sending (inState .stopping 0 run)).lcc.lifecycle ≠ .running := by
  decide +kernel

/-- A tenure granted in STOPPING leaves the head QUEUED, with no record in flight (log 15). -/
theorem test_send_not_allowed :
    after .sendTenure (at' (sending (inState .stopping 0 run)) (memory3 2 1 0)) (fun t =>
      t.chip.toe = (sending run).toe && (t.chip.tau.running.map fun x => x.writes.map fun w => w.1) = some [0x2068]) =
      true := by decide +kernel

/-- The lowest deferred member joins the tail, its w2 first; the tag goes past the one that is taken (R85, R89). -/
theorem test_send_takes_a_free_tag :
    after .sendTenure (at' (sending joining) (memory3 2 1 0)) (fun t =>
      t.chip.toe.queue = [⟨5, false, 0⟩] && t.chip.toe.deferred = [⟨9, true⟩] &&
        (t.chip.toe.flights.map fun f => f.tag) = [0, 1] && t.chip.toe.tag = 2 &&
        (t.chip.tau.running.map fun x => x.writes.map fun w => w.1) = some [0x20A8, 0x2068]) = true := by decide +kernel

theorem test_send :
    after .sendTenure (at' (sending run) (memory3 2 1 0)) (fun t =>
      (t.chip.toe.flights.map fun f => (f.tapAddress, f.tapPort, f.level, f.gate, f.sent, f.levelReserved)) =
        [(0x12345, 1, 2, false, 1, true)] && t.chip.clu.reserved = 1 && t.chip.toe.tag = 1) = true ∧
    after .sendTenure (at' (sending (nodeDown run)) (memory3 2 1 0)) (fun t => t.chip.toe.held = [3]) = true := by
  decide +kernel

/-- The TAU is granted the link work of subscriber 3. -/
def linking (f : Flight → Flight) : Chip := offering (.tapLink 3) (flying f)

/-- A waiting reply, and none decided. -/
def replied (f : Flight) : Flight := { f with reply := some ⟨2, true, false⟩, deadline := some 1020 }

theorem witness_ReplyTenureWritesTheReport :
    (linking replied).offers (.tapLink 3) = true ∧ (linking replied).toe.flight 3 = some (replied flight3) ∧
      (replied flight3).ending = none ∧ (replied flight3).reply = some ⟨2, true, false⟩ ∧
      (linking replied).clu.copy = some ⟨20, 10, 12, 0xABCD, 5, 3⟩ := by decide +kernel

/-- The LEVEL record, w4, the delivery in w3, and w2 last (R80, R92, R93). -/
theorem test_reply :
    after .replyTenure (at' { linking replied with clu := { run.clu with reserved := 2 } } (memory3 2 0x21 7)) (fun t =>
      (t.chip.tau.running.map fun x => (x.writes.length, x.writes.drop 8)) =
        some (11, [(0x2070, 150), (0x206C, 0x107), (0x2068, 0x202026)]) && t.chip.clu.reserved = 0) = true := by
  decide +kernel

/-- An ending is decided. -/
def ended (e : Ending) (f : Flight) : Flight := { f with ending := some e, deadline := none }

theorem witness_EndingTenures :
    (∀ e ∈ [Ending.failed, .held, .returned, .unconfirmed, .confirmed],
      (linking (ended e)).offers (.tapLink 3) = true ∧ (linking (ended e)).toe.flight 3 = some (ended e flight3) ∧
        (ended e flight3).ending = some e) ∧
      (ended .confirmed flight3).reply = none ∧ (ended .confirmed flight3).levelReserved = true ∧
      (linking (ended .returned)).toe.queue.length < 64 ∧
      (let f := fun f => { ended .confirmed f with reply := some ⟨2, true, false⟩, levelReserved := false }
      let c : Chip := { linking f with clu := { run.clu with reserved := 246 } }
      c.offers (.tapLink 3) = true ∧ c.toe.flight 3 = some (f flight3) ∧ (f flight3).levelReserved = false ∧
        (2 : BitVec 2) ≠ (c.tapDraft (memory3 2 1 0) 3).status.level ∧ c.free = 0) := by decide +kernel

/-- FAILED with an undelivered demand refunds it and shows NO_REPLY (R95). -/
theorem test_ending_failed :
    after .endingFailed (at' { linking (ended .failed) with clu := { run.clu with reserved := 2 } } (memory3 1 0x21 7))
      (fun t => (t.chip.tau.running.map fun x => (x.writes.length, x.writes.drop 8, x.owed)) =
        some (10, [(0x206C, 0), (0x2068, 0x2451)], [.cause .tapFailed, .tapFailure]) &&
          t.chip.clu.reserved = 0) = true := by decide +kernel

theorem test_ending_held :
    after .endingHeld (at' (linking (ended .held)) (memory3 2 0x21 0)) (fun t =>
      t.chip.toe.held = [3] && t.chip.toe.flights = []) = true := by decide +kernel

theorem test_ending_returned :
    after .endingReturned (at' (linking (ended .returned)) (memory3 2 0x21 0)) (fun t =>
      t.chip.toe.queue = [⟨3, false, 2⟩]) = true := by decide +kernel

theorem test_ending_unconfirmed :
    after .endingUnconfirmed (at' (linking (ended .unconfirmed)) (memory3 2 0x21 0)) (fun t =>
      (t.chip.tau.running.map fun x => x.writes.drop 8) = some [(0x2070, 150), (0x2068, 0x202206)]) = true := by
  decide +kernel

theorem test_ending_confirmed :
    after .endingConfirmed (at' (linking (ended .confirmed)) (memory3 2 0x22 0)) (fun t =>
      (t.chip.tau.running.map fun x => x.writes) = some [(0x2068, 0x2102)]) = true := by decide +kernel

/-- The reply of that record, in the record's reservation or in none. -/
def confirmedBy (level : BitVec 2) (reserved : Bool) (f : Flight) : Flight :=
  { ended .confirmed f with reply := some ⟨level, true, false⟩, levelReserved := reserved }

theorem witness_EndingsWriteTheirRecords :
    (∀ e ∈ [Ending.failed, .held, .returned, .unconfirmed, .confirmed],
      (linking (ended e)).offers (.tapLink 3) = true ∧ (linking (ended e)).toe.flight 3 = some (ended e flight3) ∧
        (ended e flight3).ending = some e ∧ (ended e flight3).reply = none) ∧
      run.clu.copy = some ⟨20, 10, 12, 0xABCD, 5, 3⟩ ∧
      ((linking (ended .returned)).toe.landed 3).queue.length < 64 ∧
      ((inToe fullQueue (linking (ended .returned))).toe.landed 3).queue.getLast? = some ⟨67, false, 0⟩ ∧
      64 ≤ ((inToe fullQueue (linking (ended .returned))).toe.landed 3).queue.length ∧
      (∀ x ∈ [((2 : BitVec 2), true), (1, false), (2, false)],
        (linking (confirmedBy x.1 x.2)).toe.flight 3 = some (confirmedBy x.1 x.2 flight3) ∧
          (confirmedBy x.1 x.2 flight3).reply = some ⟨x.1, true, false⟩) ∧
      (1 : BitVec 2) = (run.tapDraft (memory3 2 0x21 0) 3).status.level ∧ 0 < (linking (confirmedBy 2 false)).free := by
  decide +kernel

/-- A reply that waits at CONFIRMED: its LEVEL record in a fresh slot, the delivery, and the result CONFIRMED (R98). -/
theorem test_confirmed_with_a_reply :
    after .endingConfirmed (at' { linking (confirmedBy 2 false) with clu := { run.clu with reserved := 1 } }
      (memory3 2 0x21 7)) (fun t => (t.chip.tau.running.map fun x => (x.writes.take 1, x.writes.drop 8)) =
        some ([(0x30140, 0x30021)], [(0x2070, 150), (0x206C, 0x107), (0x2068, 0x202106)]) &&
          t.chip.clu.reserved = 0) = true := by decide +kernel

/-- A reply that waits at an ending. -/
def repliedAt (e : Ending) (level : BitVec 2) (gate : Bool) (f : Flight) : Flight :=
  { ended e f with reply := some ⟨level, gate, true⟩ }

theorem witness_ending_with_a_reply :
    (∀ e ∈ [Ending.failed, .held, .returned],
      (linking (repliedAt e 3 false)).offers (.tapLink 3) = true ∧
        (linking (repliedAt e 3 false)).toe.flight 3 = some (repliedAt e 3 false flight3) ∧
        (repliedAt e 3 false flight3).ending = some e ∧ (repliedAt e 3 false flight3).reply = some ⟨3, false, true⟩) ∧
      (inToe fullQueue (linking (repliedAt .returned 3 false))).toe.flight 3 =
        some (repliedAt .returned 3 false flight3) := by decide +kernel

/-- The waiting reply is written first, its LEVEL record with it; then for FAILED with the gate CLOSED the REFUND, and with
the gate OPEN the delivery (R92, R93, R95, R96). -/
theorem test_endings_with_a_reply :
    let c := fun f => { linking f with clu := { run.clu with reserved := 2 } }
    after .endingFailed (at' (c (repliedAt .failed 3 false)) (memory3 1 0x21 7)) (fun t =>
      (t.chip.tau.running.map fun x => (x.writes.take 4, (x.writes.drop 8).take 4, x.writes.drop 16)) =
        some ([(0x30140, 0x30021), (0x30144, 150), (0x30148, 0x301), (0x3014C, 3)],
          [(0x30150, 0x30023), (0x30154, 150), (0x30158, 0x207), (0x3015C, 500)],
          [(0x2070, 150), (0x206C, 0), (0x2068, 0x212453)]) && t.chip.clu.reserved = 0) = true ∧
    after .endingHeld (at' (c (repliedAt .held 3 true)) (memory3 1 0x21 7)) (fun t =>
      (t.chip.tau.running.map fun x => x.writes.drop 8) =
        some [(0x2070, 150), (0x206C, 0x107), (0x2068, 0x210037)] && t.chip.clu.reserved = 0) = true ∧
    after .endingReturned (at' (c (repliedAt .returned 1 false)) (memory3 1 0x21 7)) (fun t =>
      (t.chip.tau.running.map fun x => x.writes) = some [(0x2070, 150), (0x2068, 0x212011)] &&
        t.chip.clu.reserved = 1) = true := by decide +kernel

/-- At a full queue the tail's w2 is written first, and RETURNED comes before a CHANGE mark (R80, R97). -/
theorem test_returned_at_a_full_queue :
    after .endingReturned (at' (inToe fullQueue (linking (ended .returned))) (memory3 2 0x21 0)) (fun t =>
      t.chip.toe.queue.length = 64 && t.chip.toe.deferred = [⟨67, false⟩] &&
        (t.chip.tau.running.map fun x => x.writes.map fun w => w.1) = some [0x2868, 0x2068]) = true := by decide +kernel

/-- The walk of the subscribers in phase 5. -/
def tapWalking (entry sub : Nat) (j : Job) : Chip :=
  offering j (inState .loading 5 { run with toe := { run.toe with walk := some ⟨entry, [(7, 0)], sub⟩ } })

theorem witness_SubscriberWalkRederives :
    (tapWalking 0 0 .eventSet).offers .eventSet = true ∧ (tapWalking 0 0 .eventSet).toe.walk = some ⟨0, [(7, 0)], 0⟩ ∧
      (tapWalking 4 3 .subscriberWalk).offers .subscriberWalk = true ∧
      subInUse (run.recordWord (memory3 2 0x11 0) .subscribers 3 0) = true ∧
      (run.tapDraft (memory3 2 0x11 0) 3).demand = 0 ∧
      (∀ x ∈ [((0x01 : Word), OrderState.idle), (0x11, .queued), (0x21, .inFlight), (0x31, .held), (0x41, .deferred),
        (0x51, .failed)], (run.tapDraft (memory3 2 x.1 0) 3).status.order = x.2) ∧
      subInUse (run.recordWord [] .subscribers 3 0) = false ∧ (run.tapDraft (memory3 2 0x11 7) 3).demand = 7 ∧
      (run.tapDraft (memory3 2 0x11 0x107) 3).delivered = true ∧ 0 < (tapWalking 4 3 .subscriberWalk).free ∧
      ({ run with clu := { run.clu with reserved := 246 } } : Chip).free = 0 ∧
      ({ run with clu := { run.clu with reserved := 246 } } : Chip).clu.copy.isSome = true := by decide +kernel

/-- IN_FLIGHT joins with re-assert, HELD joins where no RESTORE will reach it; a demand for an event of the set takes a
reservation, and one for another event is refunded (R104, R105). -/
theorem test_subscriber_walk :
    let go := fun m p => after .subscriberLoadWalk (at' (tapWalking 4 3 .subscriberWalk) m) p
    go (memory3 2 0x21 0) (fun t => t.chip.toe.queue = [⟨3, true, 0⟩]) = true ∧
    go (memory3 2 0x31 0) (fun t => t.chip.toe.queue = [⟨3, false, 0⟩]) = true ∧
    go (memory3 1 0x05 7) (fun t => t.chip.clu.reserved = 1 && t.chip.toe.queue = []) = true ∧
    go (memory3 1 0x05 8) (fun t => t.chip.clu.reserved = 0 &&
      (t.chip.tau.running.map fun x => (x.writes.take 4, x.writes.drop 8)) =
        some ([(0x30140, 0x30023), (0x30144, 150), (0x30148, 0x308), (0x3014C, 0)],
          [(0x206C, 0), (0x2068, 0x15)])) = true := by decide +kernel

/-- The temporary set takes an entry that passes the tests of R52, and not one whose window ends at its start (R103). -/
theorem test_event_set :
    after .subscriberLoadWalk (at' (offering .eventSet (inState .loading 5 { run with toe := { run.toe with
      walk := some ⟨0, [], 0⟩ } })) (mapMemory 8)) (fun t => t.chip.toe.walk = some ⟨4, [(8, 2)], 0⟩) = true ∧
    after .subscriberLoadWalk (at' (offering .eventSet (inState .loading 5 { run with toe := { run.toe with
      walk := some ⟨0, [], 0⟩ } })) ((mapMemory 8).writeWord 0x104C 100)) (fun t =>
        t.chip.toe.walk = some ⟨4, [], 0⟩) = true := by decide +kernel

/-! ### Witnesses: status lines and outages -/

/-- Node `n` as it stands; nodes 0 to 2 are in use with OPEN_FAULT, node 1 with both classes 1. -/
def withNode (n : Nat) (x : Node) : Chip := { run with slm := { run.slm with nodes := run.slm.nodes.set n x } }

/-- A time kept at count 800, in wall second 140. -/
def kept : KeptTime := ⟨⟨140, false, true⟩, 800⟩

/-- Lines LOW are away from fault: all in the last sample. -/
def quietLines (c : Chip) : Chip := { c with lines := 0, slm := { c.slm with lastSample := some 0 } }

/-- Node 1 with its rising and falling edges reported, its line in the last sample at `old`, a snapshot still held or not. -/
def edges (old : Word) (edge : Option Snapshot) : Chip :=
  { run with slm := { run.slm with image := [0x80000000, 0x80030110, 0x80001000], lastSample := some old, edge := edge } }

theorem witness_SamplesMoveTheNodes :
    State.reset.chip.resetLow = true ∧ (quietLines run).quiet = true ∧ (quietLines run).samplesNow 2 = true ∧
      (quietLines run).samplesNow 0 = false ∧ (1 : Nat) < 32 ∧ run.slm.inUse 1 = true ∧
      ((quietLines run).slm.nodes[1]?.map fun x => x.state) = some .up ∧
      (2 : Word).getLsbD 1 ≠ nodeClosedFault (run.slm.word 1) ∧ (0 : Word).getLsbD 1 = nodeClosedFault (run.slm.word 1) ∧
      nodeOnsetClass (run.slm.word 1) ≠ 0 ∧ nodeHoldClass (run.slm.word 1) ≠ 0 ∧
      nodeOnsetClass (run.slm.word 0) = 0 ∧ nodeHoldClass (run.slm.word 0) = 0 ∧
      (∀ s ∈ [NodeState.onset, .down, .clearing],
        ((withNode 1 ⟨s, 8, some kept, some kept, none, kept.stamp, false⟩).slm.nodes[1]?.map fun x => x.state) =
          some s) ∧
      (edges 0 none).samplesNow 2 = true ∧ (edges 2 (some ⟨2, 140, 900⟩)).samplesNow 0 = true ∧
      bit ((edges 0 none).slm.word 1) 16 = true ∧ bit ((edges 0 none).slm.word 1) 17 = true ∧
      ({ run with slm := { run.slm with lastSample := none } } : Chip).quiet = true ∧ run.lcc.lifecycle = .running ∧
      Counter.glitches.index < run.rpu.counters.length := by
  decide +kernel

/-- A rising edge makes a snapshot; a falling one while a snapshot is held is an overrun too (R117, R118). -/
theorem test_edges :
    after (.statusLineChange 2) (at' (edges 0 none) []) (fun t => t.chip.slm.edge = some ⟨2, 150, 1000⟩ &&
      t.chip.slm.edgeFresh && !t.chip.rpu.isPending .lineOverrun) = true ∧
    after (.statusLineChange 0) (at' (edges 2 (some ⟨2, 140, 900⟩)) []) (fun t =>
      t.chip.slm.edge = some ⟨0, 150, 1000⟩ && t.chip.rpu.isPending .lineOverrun) = true := by decide +kernel

/-- A class 1 node at its fault level is in ONSET for 200 units; a class 0 node is DOWN at once (R108). -/
theorem test_line_change :
    after (.statusLineChange 3) (at' (quietLines run) []) (fun t =>
      (t.chip.slm.nodes.take 2).map (fun n => (n.state, n.deadline)) = [(.down, none), (.onset, some 1200)] &&
        (t.chip.slm.slots.map fun x => (x.status, x.number, x.node)) = [(.opened, 9, 0)] && t.chip.slm.next = 10) = true := by
  decide +kernel

theorem test_first_sample :
    after .firstSample (at' { quietLines run with slm := { run.slm with lastSample := none } } []) (fun t =>
      t.chip.slm.lastSample = some 0 && t.chip.slm.edge = none) = true := by decide +kernel

/-- Node 1 found clear in ONSET: UP again, its onset forgotten, one glitch (R109). -/
theorem test_glitch :
    after (.statusLineChange 0) (at' { withNode 1 ⟨.onset, 0, some kept, none, some 1200, kept.stamp, false⟩ with
        lines := 2
        slm := { (withNode 1 ⟨.onset, 0, some kept, none, some 1200, kept.stamp, false⟩).slm with
          image := [0, 0x80000110, 0x80001000], lastSample := some 2 } } []) (fun t =>
      t.chip.rpu.counter .glitches = 1 && (t.chip.slm.nodes[1]?.map fun x => (x.state, x.onset, x.deadline)) =
        some (.up, none, none)) = true := by decide +kernel

/-- Node 1 in ONSET, or CLEARING an outage, its deadline reached. -/
def onsetNode : Node := ⟨.onset, 0, some kept, none, some 1000, kept.stamp, false⟩
def clearingNode (outage : BitVec 16) : Node := ⟨.clearing, outage, some kept, some ⟨⟨149, true, false⟩, 950⟩, some 1000,
  kept.stamp, false⟩

/-- The slot of outage 8 of node 1. -/
def slot8 (status : SlotStatus) : Slot := ⟨status, 8, 1, 140, 0, 0, 0, false, true, false, false, false, false⟩

/-- The part with one slot in the image. -/
def withSlot (x : Slot) (c : Chip) : Chip := { c with slm := { c.slm with slots := [x] } }

/-- No slot unused: two SWEPT ones, of numbers 8 and 65,535, the next number 9. -/
def sweptSlots : Chip :=
  let c := withNode 1 onsetNode
  { c with slm := { c.slm with slots := [slot8 .swept, { slot8 .swept with number := 65535 }] } }

theorem witness_NodeDeadlines :
    (withNode 1 onsetNode).quiet = true ∧ (withNode 1 onsetNode).slm.nodes[1]? = some onsetNode ∧
      onsetNode.state = .onset ∧ onsetNode.deadline = some (withNode 1 onsetNode).tbu.mono ∧ onsetNode.onset = some kept ∧
      (∀ y ∈ (withSlot (slot8 .opened) (withNode 1 onsetNode)).slm.slots, y.status = .opened ∨ y.status = .closed) ∧
      (withSlot (slot8 .opened) (withNode 1 (clearingNode 8))).slm.nodes[1]? = some (clearingNode 8) ∧
      (clearingNode 8).state = .clearing ∧ (clearingNode 8).deadline = some run.tbu.mono ∧
      (clearingNode 8).clear = some ⟨⟨149, true, false⟩, 950⟩ ∧ (clearingNode 8).outage ≠ 0 ∧
      ((withSlot (slot8 .opened) run).slm.slots.findIdx? fun y => y.status = .opened && y.number = 8) = some 0 ∧
      (clearingNode 0).outage = 0 := by decide +kernel

/-- The unused slot is taken; of two SWEPT ones that of the older number, past 65,535 (R112, R113). -/
theorem witness_takes :
    run.slm.takes 0 ∧ sweptSlots.slm.takes 1 ∧ ¬sweptSlots.slm.takes 0 := by
  refine ⟨⟨⟨.unused, 0, 0, 0, 0, 0, 0, false, false, false, false, false, false⟩, rfl, .inl ⟨rfl, fun j y h => absurd h (Nat.not_lt_zero j)⟩⟩,
    ⟨{ slot8 .swept with number := 65535 }, rfl, .inr ⟨rfl, by decide, by decide, fun j y hj hy hs => ?_⟩⟩, ?_⟩
  · match j, hj, hy with
    | 0, _, hy => cases hy; decide
    | 1, hj, _ => exact absurd rfl hj
    | j + 2, _, hy => cases hy
  · rintro ⟨x, hx, h | ⟨_, _, _, h⟩⟩
    · cases hx; exact absurd h.1 (by decide)
    · cases hx; exact absurd (h 1 _ (by decide) rfl rfl) (by decide)

theorem test_swept_slot_is_reused :
    after (.onsetDeadline 1) (at' sweptSlots []) (fun t =>
      (t.chip.slm.slots.map fun x => (x.status, x.number)) = [(.swept, 8), (.opened, 9)]) = true := by decide +kernel

theorem test_onset_deadline :
    after (.onsetDeadline 1) (at' (withNode 1 onsetNode) []) (fun t =>
      (t.chip.slm.slots.map fun x => (x.status, x.number, x.start, x.owesDown)) = [(.opened, 9, 140, true)]) = true ∧
    after (.onsetDeadline 1) (at' (withSlot (slot8 .opened) (withNode 1 onsetNode)) []) (fun t =>
      t.chip.rpu.isPending .nodeDown && t.chip.rpu.counter .unrecordedOutages = 1 && t.chip.slm.next = 9) = true := by
  decide +kernel

theorem test_hold_deadline :
    after (.holdDeadline 1) (at' (withSlot (slot8 .opened) (withNode 1 (clearingNode 8))) []) (fun t =>
      (t.chip.slm.slots.map fun x => (x.status, x.finish, x.duration, x.unset, x.unlocked)) =
        [(.closed, 149, 1, true, true)]) = true := by decide +kernel

/-- Node 1 CLEARING an outage without a record: no RESTORE for it queued, and one active. -/
def unrecorded (q : List SweepEntry) : Chip := { withNode 1 (clearingNode 0) with swe := ⟨q, none⟩ }

theorem witness_unrecorded_restore :
    (∀ q ∈ [[], [⟨.restore 1 0, 3, true, false, true⟩]], (unrecorded q).quiet = true ∧
      (unrecorded q).slm.nodes[1]? = some (clearingNode 0) ∧ (unrecorded q).lcc.lifecycle = .running ∧
      (unrecorded q).swe.queue.length < 192) ∧
      (∃ e ∈ (unrecorded [⟨.restore 1 0, 3, true, false, true⟩]).swe.queue, e.kind = .restore 1 0) ∧
      (inState .stopping 0 (unrecorded [])).quiet = true ∧
      (∃ y ∈ (withSlot (slot8 .opened) run).slm.slots, y.status = .opened ∧ y.number = (clearingNode 8).outage) := by
  decide +kernel

/-- The RESTORE of outage number 0 joins the queue, or marks the active one for a repeat; in STOPPING it is not taken. -/
theorem test_unrecorded_restore :
    let swept := fun c q => after (.holdDeadline 1) (at' c []) fun t => t.chip.swe.queue = q && t.chip.rpu.isPending .nodeUp
    swept (unrecorded []) [⟨.restore 1 0, 0, true, false, false⟩] = true ∧
      swept (unrecorded [⟨.restore 1 0, 3, true, false, true⟩]) [⟨.restore 1 0, 3, true, true, true⟩] = true ∧
      swept (inState .stopping 0 (unrecorded [])) [] = true := by decide +kernel

/-- A dirty slot, node and next number. -/
def dirtyChip : Chip :=
  let c := withSlot { slot8 .opened with owesDown := true, dirty := true } (withNode 1 { onsetNode with dirty := true })
  { c with slm := { c.slm with nextDirty := true } }

theorem witness_OutageTenures :
    (offering .slmWrite dirtyChip).offers .slmWrite = true ∧ dirtyChip.slm.writeChoice.1 = [0] ∧
      dirtyChip.slm.slots[0]? = some { slot8 .opened with owesDown := true, dirty := true } ∧
      (∀ part, part < 11 → (offering (.outageRead part) (inState .loading 4 run)).offers (.outageRead part) = true) ∧
      (offering .nextRead (inState .loading 4 run)).offers .nextRead = true ∧
      field (Memory.readWord [] (stationAddr 104)) 0 16 = 0 ∧
      (∀ x ∈ run.slm.slots, x.status = .unused ∨ x.number ≠ 1) ∧
      (offering (.repair 0) (withSlot (slot8 .opened) run)).offers (.repair 0) = true ∧
      (withSlot (slot8 .opened) run).slm.slots[0]? = some (slot8 .opened) := by decide +kernel

/-- Three CLOSED slots, of numbers 3, 65,530 and 3 again, an OPEN one of number 5, at the last read of phase 4. -/
def reconciling : Chip :=
  let x : Slot := { slot8 .closed with number := 3, progress := 7 }
  let c := offering .nextRead (inState .loading 4 run)
  { c with slm := { c.slm with
      nodes := [], slots := [x, { x with number := 65530, node := 2, progress := 9 }, x, { slot8 .opened with number := 5 }] } }

theorem witness_nextRead :
    reconciling.offers .nextRead = true ∧ reconciling.slm.slots.length ≤ 64 ∧ reconciling.lcc.lifecycle = .loading ∧
      (∀ x ∈ reconciling.slm.slots, x.number = 0 → x.status = .unused) ∧ reconciling.swe.queue.length ≤ 128 ∧
      reconciling.slm.duplicate 2 = true ∧ reconciling.slm.duplicate 0 = false := by decide +kernel

/-- The next number 3 goes on past 3 to 4; the older outage is handed first, and the second slot of number 3 is repaired and
not handed (R121, R122). -/
theorem test_next_read :
    after .outageReconciliation (at' reconciling (Memory.writeWord [] (stationAddr 104) 3)) (fun t =>
      t.chip.slm.next = 4 && t.chip.slm.jobs = [.repair 2, .repair 3] && t.chip.swe.queue =
        [⟨.restore 2 65530, 9, true, false, false⟩, ⟨.restore 1 3, 7, true, false, false⟩]) = true := by decide +kernel

/-- Slot, next number, node: w0 after the slot's other words, node w1 after w2 (R114). -/
theorem test_slm_write :
    after .slmWriteTenure (at' (offering .slmWrite dirtyChip) []) (fun t =>
      (t.chip.tau.running.map fun x => x.writes.map fun w => w.1) =
        some [0x22204, 0x22208, 0x2220C, 0x22200, stationAddr 104, 0x22018, 0x22014] &&
      (t.chip.tau.running.map fun x => x.owed) = some [.slot 0 true false]) = true := by decide +kernel

/-- The record is rewritten CLOSED, INTERRUPTED and SWEPT with its UNLOCKED kept (R122). -/
theorem test_repair :
    after .outageReconciliation (at' (offering (.repair 0) (withSlot (slot8 .opened) (inState .loading 4 run))) [])
      (fun t => (t.chip.tau.running.map fun x => x.writes.drop 3) = some [(0x22200, 0x1E010008)]) = true := by
  decide +kernel

/-! ### Witnesses: sweeps -/

/-- A sweep queue, and what is kept of the active one. -/
def sweeping (q : List SweepEntry) (w : Option SweepWork) (c : Chip) : Chip := { c with swe := ⟨q, w⟩ }

/-- A RESTORE for outage 8 of node 1, at a resume index. -/
def restore8 (resume : Nat) (active : Bool) : SweepEntry := ⟨.restore 1 8, resume, true, false, active⟩

/-- Memory with outage 8 of node 1 CLOSED, of 1,200 s. -/
def outageMemory : Memory := (Memory.writeWord [] 0x22200 0x02010008).writeWord 0x2220C 1200

theorem witness_SweepsStartAndEnd :
    let c := sweeping [restore8 0 false] none run
    let d := offering .sweepStart (sweeping [restore8 0 true] (some (.fresh (.restore 1 8))) (withSlot (slot8 .closed) run))
    c.quiet = true ∧ c.lcc.lifecycle = .running ∧ c.swe.work = none ∧
      (c.swe.queue.findIdx? fun e => e.ready) = some 0 ∧ c.swe.queue[0]? = some (restore8 0 false) ∧
      (∀ x ∈ c.swe.queue, x.active = false) ∧ (restore8 0 false).resume < c.subscriberCount ∧
      d.offers .sweepStart = true ∧ d.swe.active = some (restore8 0 true) ∧ d.slm.slotOf 8 = some 0 ∧
      outageClosed (d.recordWord outageMemory .outages 0 0) = true ∧
      outageSwept (d.recordWord outageMemory .outages 0 0) = false ∧
      outageNumber (d.recordWord outageMemory .outages 0 0) = 8 ∧ outageClosed (d.recordWord [] .outages 0 0) = false ∧
      run.slm.slotOf 8 = none ∧
      (offering .sweepEnd (sweeping [restore8 16 true] (some ⟨true, some 0, 0x02010008, 1200, 20, true⟩) run)).offers
        .sweepEnd = true := by decide +kernel

/-- The one sweep of the queue has no subscriber left, its repeat mark as given. -/
def walked (kind : SweepKind) (again : Bool) : Chip :=
  { sweeping [⟨kind, 16, true, again, false⟩] none run with
    tbu := { run.tbu with wall := 200 }
    lue := { run.lue with entries := [eventEntry .closing, normalEntry] } }

theorem witness_no_subscriber_left :
    (∀ k ∈ [SweepKind.eventClose 7, .restore 1 0], (walked k true).quiet = true ∧
      (walked k true).lcc.lifecycle = .running ∧ (walked k true).swe.work = none ∧
      ((walked k true).swe.queue.findIdx? fun e => e.ready) = some 0 ∧
      (walked k true).swe.queue[0]? = some ⟨k, 16, true, true, false⟩ ∧
      (∀ x ∈ (walked k true).swe.queue, x.active = false) ∧ (walked k true).subscriberCount ≤ 16) ∧
      (walked (.eventClose 7) false).lue.bound 7 = some 0 ∧
      (walked (.eventClose 7) false).lue.entries[0]? = some (eventEntry .closing) ∧
      (eventEntry .closing).phase = some .closing := by decide +kernel

/-- It ends at once; marked for a repeat it is queued again; the closing entry is found AFTER (R127, R131, R133). -/
theorem test_no_subscriber_left :
    after .sweepStart (at' (walked (.restore 1 0) true) []) (fun t => t.chip.rpu.isPending .sweepDone &&
      t.chip.swe = ⟨[⟨.restore 1 0, 0, true, false, false⟩], none⟩) = true ∧
    after .sweepStart (at' (walked (.eventClose 7) false) []) (fun t => t.chip.rpu.isPending .sweepDone &&
      t.chip.swe = ⟨[], none⟩ && (t.chip.lue.entries.map fun e => e.phase) = [some .after, none]) = true := by
  decide +kernel

theorem test_sweep_start :
    after .sweepStart (at' (sweeping [restore8 0 false] none run) []) (fun t =>
      t.chip.swe.work = some ⟨false, none, 0, 0, 0, false⟩ && t.chip.tau.orders = [[.sweepStart, .report]]) = true ∧
    after .sweepStartTenure (at' (offering .sweepStart (sweeping [restore8 0 true] (some (.fresh (.restore 1 8)))
      (withSlot (slot8 .closed) run))) outageMemory)
      (fun t => t.chip.swe.work = some ⟨true, some 0, 0x02010008, 1200, 20, true⟩) = true := by decide +kernel

theorem test_sweep_end :
    after .sweepEndTenure (at' (offering .sweepEnd (sweeping [restore8 16 true]
      (some ⟨true, some 0, 0x02010008, 1200, 20, true⟩) run)) []) (fun t =>
        (t.chip.tau.running.map fun x => x.writes) = some [(0x2220C, 0x008004B0), (0x22200, 0x0A010008)]) = true := by
  decide +kernel

/-- A tenure of a job that owes something at its end. -/
def endingTenure (job : Job) (owed : List Owed) (c : Chip) : Chip :=
  { c with par := ⟨.tau, .tau⟩, tau := ⟨[], some ⟨job, [], owed, 0⟩⟩ }

/-- The active entry of a sweep at its last step, and the work for a slot. -/
def lastStep (kind : SweepKind) (slot : Option Nat) (c : Chip) : Chip :=
  { c with swe := ⟨[⟨kind, 16, true, false, true⟩], some ⟨true, slot, 0x02010008, 1200, 20, true⟩⟩ }

theorem witness_TenureEndMakesItsWrites :
    endingEvaluation.resetLow = false ∧ endingEvaluation.par.holder = .tau ∧ endingEvaluation.tau.running.isSome = true ∧
      endingEvaluation.portA.waiting = false ∧ endingEvaluation.portB.waiting = false ∧
      Owed.cause .purchaseDone ∈ [Owed.purchaseEnd .window, .cause .purchaseDone] ∧
      Owed.purchaseEnd .window ∈ [Owed.purchaseEnd .window, .cause .purchaseDone] ∧
      endingEvaluation.pcu.held = [.b] ∧ endingEvaluation.lcc.lifecycle = .running ∧
      purchaseOpOfCode (field (purchaseWord .buy 3 0) 28 2) = some .buy ∧ evaluating.pcu.held = [] ∧ run.working = true ∧
      (∀ b ∈ otherBlocks, (endingTenure .report [] (inState .stopping 0 run)).wants b = none) ∧
      (endingTenure .report [] (inState .stopping 0 run)).tau.orders = [] ∧ Job.report.block ≠ .swe ∧
      (flying id).toe.flight 3 = some flight3 ∧ flight3.ending = none ∧ run.nodeOut 0 = false ∧
      (nodeDown run).nodeOut 0 = true ∧ (inState .stopping 0 run).lcc.lifecycle ≠ .running ∧ run.frozen = false ∧
      (withSlot (slot8 .closed) run).slm.slots[0]? = some (slot8 .closed) ∧
      (∀ k ∈ [SweepKind.restore 1 8, .eventClose 7],
        (lastStep k none run).swe.active = some ⟨k, 16, true, false, true⟩ ∧ run.subscriberCount ≤ 16) ∧
      run.lue.bound 7 = some 0 ∧
      ((withSlot (slot8 .closed) run).slm.slots.findIdx? fun y => y.status = .closed && y.number = 8) = some 0 := by
  decide +kernel

/-- `endingEvaluation` with Port A's write held before Port B's, as these write. -/
def twoHeld (first second : Word) : Chip :=
  { endingEvaluation with
    portA := ⟨some ⟨stationAccess 67 true first false, .held⟩, false, none⟩
    portB := ⟨some ⟨stationAccess 67 true second false, .held⟩, false, none⟩
    pcu := { endingEvaluation.pcu with held := [.a, .b] } }

/-- An older request of subscriber 3 stands in the evaluation list. -/
def requesting (older : List EvalRequest) : Chip :=
  endingTenure .sweepStep [.request ⟨3, .requeue, true⟩] (inToe (fun t => { t with evals := older }) run)

/-- A route change is written, and its cause waits for no entry. -/
def mirroring : Chip :=
  endingTenure .mirror [.mirrored] { run with lue := { run.lue with owedCauses := [⟨.takeDone, []⟩, ⟨.routeFailed, [1]⟩] } }

theorem witness_what_a_tenure_owes :
    (∀ c ∈ [twoHeld 0 0, requesting [], requesting [⟨3, .evaluate, false⟩], mirroring,
        endingTenure (.tapLink 3) [.redeadline 3] (flying id), endingTenure (.tapLink 3) [.tapFailure] run],
      c.resetLow = false ∧ c.par.holder = .tau ∧ c.portA.waiting = false ∧ c.portB.waiting = false ∧ c.working = true) ∧
      (twoHeld 0 0).pcu.held = [.a, .b] ∧ ((twoHeld 0 0).port .a).out = some ⟨stationAccess 67 true 0 false, .held⟩ ∧
      ((twoHeld 0 0).port .b).out = some ⟨stationAccess 67 true 0 false, .held⟩ ∧ Port.b ≠ Port.a ∧
      purchaseOpOfCode (field (stationAccess 67 true 0 false).data 28 2) = none ∧
      (inState .stopping 0 (twoHeld 0 0)).lcc.lifecycle ≠ .running ∧
      (∀ r', Owed.purchaseEnd r' ∈ [Owed.purchaseEnd .window, .cause .purchaseDone] → r' = .window) ∧
      (∀ r', Owed.request r' ∈ [Owed.request ⟨3, .requeue, true⟩] → r' = ⟨3, .requeue, true⟩) ∧
      (∀ q ∈ (requesting []).toe.evals, q.subscriber ≠ 3) ∧
      (∃ q ∈ (requesting [⟨3, .evaluate, false⟩]).toe.evals, q.subscriber = 3) ∧
      (endingTenure .sweepStep [] (inState .loading 5 run)).working = false ∧
      [Owed.tapFailure].count .tapFailure = 1 ∧ Job.tapLink 3 ≠ .purchase ∧
      (∃ o ∈ mirroring.lue.owedCauses, o.entries = []) := by
  refine ⟨by decide +kernel, by decide, by decide, by decide, by decide, by decide, by decide, fun r h => ?_, fun r h => ?_,
    by decide, by decide, by decide, by decide, by decide, by decide⟩
  · simpa using h
  · simpa using h

/-- A held write that names no command is refused, and the next held one begins an evaluation; both are refused in STOPPING;
the second stays held behind an accepted one (R138). -/
theorem test_second_held_write :
    let ends := fun c p => after .tauTenureEnd (at' c []) p
    ends (twoHeld 0 (purchaseWord .buy 3 0)) (fun t => t.chip.portA.answer = some ⟨true, 0⟩ &&
      t.chip.portB.answer = some ⟨false, 0⟩ && t.chip.pcu.inFlight = some ⟨.buy, .b, 3, 0⟩ && t.chip.pcu.held = []) = true ∧
    ends (inState .stopping 0 (twoHeld 0 (purchaseWord .buy 3 0))) (fun t => t.chip.portA.answer = some ⟨true, 0⟩ &&
      t.chip.portB.answer = some ⟨true, 0⟩ && t.chip.pcu.inFlight = none &&
        (t.chip.rpu.notes.map fun n => n.kind) = [.notRunning, .notRunning]) = true ∧
    ends (twoHeld (purchaseWord .buy 3 0) 0) (fun t => t.chip.portB.out.isSome && t.chip.pcu.held = [.b] &&
      t.chip.pcu.inFlight = some ⟨.buy, .a, 3, 0⟩) = true := by decide +kernel

/-- A request joins the list or is merged there; a withdrawn ending's deadline runs anew; a tap failure counts; a mirrored
route change hands the cause that waits for no other entry (R63, R82, R91, R95). -/
theorem test_the_rest_a_tenure_owes :
    let ends := fun c p => after .tauTenureEnd (at' c []) p
    ends (requesting []) (fun t => t.chip.toe.evals = [⟨3, .requeue, true⟩]) = true ∧
    ends (requesting [⟨3, .evaluate, false⟩]) (fun t => t.chip.toe.evals = [⟨3, .requeue, true⟩]) = true ∧
    ends (endingTenure (.tapLink 3) [.redeadline 3] (flying id)) (fun t =>
      (t.chip.toe.flights.map fun f => f.deadline) = [some 1025]) = true ∧
    ends (endingTenure (.tapLink 3) [.tapFailure] run) (fun t => t.chip.rpu.counter .tapFailures = 1) = true ∧
    ends mirroring (fun t => t.chip.rpu.isPending .takeDone && !t.chip.rpu.isPending .routeFailed &&
      t.chip.lue.owedCauses = [⟨.routeFailed, [1]⟩]) = true := by decide +kernel

/-- The first attempt goes out, is not made for a node that is out, and not in STOPPING; the space notice opens the queue
block; a slot hands NODE_DOWN and its RESTORE; a snapshot; and a close in CLOSING ends AFTER, by wall time (R87 … R160). -/
theorem test_what_a_tenure_owes :
    let attempt := fun c => endingTenure .send [.attempt 3] c
    after .tauTenureEnd (at' (attempt (flying id)) []) (fun t => t.chip.tapLink.sent = [tapFrame 0x12345 1 2 true 2]) =
      true ∧
    after .tauTenureEnd (at' (attempt (nodeDown (flying id))) []) (fun t => t.chip.tapLink.sent = [] &&
      (t.chip.toe.flights.map fun f => f.ending) = [some .held]) = true ∧
    after .tauTenureEnd (at' (attempt (inState .stopping 0 (flying id))) []) (fun t => t.chip.tapLink.sent = [] &&
      (t.chip.toe.flights.map fun f => (f.ending, f.sent)) = [(some .returned, 1)]) = true ∧
    after .tauTenureEnd (at' (endingTenure .release [.space] { run with toe := { run.toe with blocked := true } }) [])
      (fun t => !t.chip.toe.blocked) = true ∧
    after .tauTenureEnd (at' (endingTenure .slmWrite [.slot 0 true true] (withSlot (slot8 .closed) run)) []) (fun t =>
      t.chip.rpu.isPending .nodeDown && (t.chip.swe.queue.map fun e => e.kind) = [.restore 1 8]) = true ∧
    after .tauTenureEnd (at' (endingTenure .report [.snapshot] run) []) (fun t =>
      t.chip.rpu.isPending .lineEdge && t.chip.slm.edge = none) = true := by decide +kernel

/-- The last tenure of STOPPING ends in STOPPED, and an order in flight keeps the part in STOPPING (R33). -/
theorem test_stopping_ends_with_a_tenure :
    after .tauTenureEnd (at' (endingTenure .report [] (inState .stopping 0 run)) []) (fun t =>
      t.chip.lcc.lifecycle = .stopped && t.chip.lue.entries = [] && t.chip.clu.copy.isSome) = true ∧
    after .tauTenureEnd (at' (endingTenure .report [] (inState .stopping 0 (flying id))) []) (fun t =>
      t.chip.lcc.lifecycle = .stopping) = true := by decide +kernel

/-- In STOPPING a sweep ends with its tenure: SWEEP_DONE by an end tenure, and not by a step that was not the last (R134). -/
theorem test_stopping_ends_the_sweep :
    let sweep := fun job resume => endingTenure job [] (inState .stopping 0
      { run with swe := ⟨[restore8 resume true], some ⟨true, some 0, 0x02010008, 1200, 20, true⟩⟩ })
    after .tauTenureEnd (at' (sweep .sweepEnd 16) []) (fun t => t.chip.rpu.isPending .sweepDone &&
      t.chip.swe = ⟨[], none⟩ && t.chip.lcc.lifecycle = .stopped) = true ∧
    after .tauTenureEnd (at' (sweep .sweepStep 3) []) (fun t => !t.chip.rpu.isPending .sweepDone &&
      t.chip.swe = ⟨[], none⟩) = true := by decide +kernel

theorem test_sweeps_end :
    after .tauTenureEnd (at' (endingTenure .sweepEnd [] (lastStep (.restore 1 8) (some 0) (withSlot (slot8 .closed) run)))
      []) (fun t => t.chip.rpu.isPending .sweepDone && t.chip.swe = ⟨[], none⟩ &&
        (t.chip.slm.slots.map fun x => x.status) = [.swept]) = true ∧
    after .tauTenureEnd (at' (endingTenure .sweepStep [] (lastStep (.eventClose 7) none { run with
      tbu := { run.tbu with wall := 200 }, lue := { run.lue with entries := [eventEntry .closing, normalEntry] } })) [])
      (fun t => t.chip.rpu.isPending .sweepDone && t.chip.swe = ⟨[], none⟩ &&
        (t.chip.lue.entries.map fun e => e.phase) = [some .after, none]) = true := by decide +kernel

/-- The step of that sweep for subscriber 3. -/
def restoring : Chip :=
  offering .sweepStep (sweeping [restore8 3 true] (some ⟨true, some 0, 0x02010008, 1200, 20, true⟩) run)

/-- Subscriber 3 on node 1, HELD at level 1. -/
def heldMemory : Memory := ((Memory.writeWord [] 0x2060 0x81112345).writeWord 0x2068 0x31)

theorem witness_RestoreStepCreditsAndReleases :
    restoring.offers .sweepStep = true ∧ restoring.swe.active = some (restore8 3 true) ∧
      restoring.swe.work = some ⟨true, some 0, 0x02010008, 1200, 20, true⟩ ∧
      subInUse (restoring.recordWord heldMemory .subscribers 3 0) = true ∧
      subNode (restoring.recordWord heldMemory .subscribers 3 0) = 1 ∧
      (tapStatusOf (restoring.recordWord heldMemory .subscribers 3 2)).level ≠ 0 ∧
      (tapStatusOf (restoring.recordWord heldMemory .subscribers 3 2)).order = .held ∧ restoring.nodeState 1 = .up ∧
      restoring.lcc.lifecycle = .running ∧ restoring.clu.copy.isSome = true ∧ 0 < restoring.free ∧
      ({ restoring with clu := { run.clu with reserved := 246 } } : Chip).free = 0 ∧
      (inState .stopping 0 restoring).lcc.lifecycle ≠ .running := by decide +kernel

theorem test_restore_step :
    after .restoreStep (at' restoring heldMemory) (fun t =>
      (t.chip.tau.running.map fun x => (x.writes.take 5, x.owed)) =
        some ([(0x2220C, 0x002004B0), (0x30140, 0x30024), (0x30144, 150), (0x30148, 0x10008), (0x3014C, 20)],
          [.request ⟨3, .requeue, true⟩])) = true ∧
    (let full : Chip := { restoring with clu := { run.clu with reserved := 246 } }
    after .restoreStep (at' full heldMemory) (fun t =>
      t.chip.swe = ⟨[⟨.restore 1 8, 3, false, false, false⟩], none⟩ &&
        (t.chip.tau.running.map fun x => x.writes) = some []) = true ∧
    after .restoreStep (at' full heldMemory) (fun t =>
      (t.chip.tau.running.map fun x => x.owed) = some [.spaceWait, .cause .logLow]) = true ∧
    after .restoreStep (at' (inState .stopping 0 full) heldMemory) (fun t => t.chip.swe = restoring.swe &&
      (t.chip.tau.running.map fun x => (x.writes, x.owed)) = some ([], [.cause .logLow])) = true) := by
  decide +kernel

/-- An EVENT_CLOSE step for subscriber 3. -/
def closingStep : Chip :=
  offering .sweepStep (sweeping [⟨.eventClose 7, 3, true, false, true⟩] (some (.fresh (.eventClose 7))) run)

theorem witness_EventCloseStepClosesTheDemand :
    closingStep.offers .sweepStep = true ∧ closingStep.swe.active = some ⟨.eventClose 7, 3, true, false, true⟩ ∧
      closingStep.swe.work = some (.fresh (.eventClose 7)) ∧
      subInUse (closingStep.recordWord (memory3 1 1 7) .subscribers 3 0) = true ∧
      subDemand (closingStep.recordWord (memory3 1 1 7) .subscribers 3 3) = 7 ∧
      subDelivered (closingStep.recordWord (memory3 1 1 7) .subscribers 3 3) = false ∧
      subDelivered (closingStep.recordWord (memory3 1 1 0x107) .subscribers 3 3) = true ∧
      closingStep.clu.copy.isSome = true := by decide +kernel

theorem test_event_close_step :
    after .eventCloseStep (at' closingStep (memory3 1 5 0x107)) (fun t =>
      (t.chip.tau.running.map fun x => (x.writes, x.owed)) =
        some ([(0x206C, 0)], [.request ⟨3, .evaluate, false⟩])) = true := by decide +kernel

/-! ### Witnesses: purchases, the log, reporting -/

/-- The evaluation of a BUY for subscriber 3 and entry 0. -/
def deciding (c : Chip) : Chip :=
  offering .purchase { c with pcu := ⟨some ⟨.buy, .a, 3, 0⟩, ⟨1, .a, .buy, 3, 0, .inProgress⟩, []⟩ }

theorem witness_EvaluationTenureDecides :
    (deciding run).offers .purchase = true ∧ (deciding run).pcu.inFlight = some ⟨.buy, .a, 3, 0⟩ ∧
      (deciding run).fallback = false ∧ (beating .expired none).fallback = true ∧ (deciding run).tbu.set = true ∧
      off.tbu.set = false ∧ (3 < (deciding run).subscriberCount) ∧
      bit (run.recordWord (memory3 1 1 0) .subscribers 3 0) 31 = true ∧
      bit (run.recordWord [] .subscribers 3 0) 31 = false ∧ normalEntry.event = false ∧
      (deciding run).lue.entries[0]? = some (eventEntry .inside) ∧ (eventEntry .inside).event = true ∧
      run.clu.copy = some ⟨20, 10, 12, 0xABCD, 5, 3⟩ := by decide +kernel

/-- The result that the tenure owes. -/
def owesResult (r : PurchaseResult) (t : State) : Bool :=
  (t.chip.tau.running.map fun x => x.owed.contains (.purchaseEnd r)) == some true

/-- Each check of R141 in turn, and space for the reserve and two more (R143). -/
theorem test_buy_checks :
    let go := fun (c : Chip) m r => after .evaluationTenure (at' (deciding c) m) (owesResult r)
    let phase := fun p => { run with lue := { run.lue with entries := [eventEntry p, normalEntry] } }
    let reserved := fun n => { run with clu := { run.clu with reserved := n } }
    go run (memory3 0x11 1 0) .notActive = true ∧ go run (memory3 1 0 0) .levelOff = true ∧
      go (phase .after) (memory3 1 1 0) .window = true ∧ go (phase .before) (memory3 1 1 0) .accepted = true ∧
      go run (memory3 1 1 7) .already = true ∧ go run (memory3 1 1 8) .gateBusy = true ∧
      go (nodeDown run) (memory3 1 1 0) .nodeDown = true ∧ go (reserved 241) (memory3 1 1 0) .logFull = true ∧
      go (reserved 240) (memory3 1 1 0) .accepted = true ∧ go off (memory3 1 1 0) .timeUnset = true := by decide +kernel

/-- A CANCEL before the window: a REFUND record at the entry's price, and w3 cleared (R144). -/
theorem test_cancel_accepted :
    after .evaluationTenure (at' { deciding early with
      pcu := { (deciding run).pcu with inFlight := some ⟨.cancel, .a, 3, 0⟩ }
      clu := { run.clu with reserved := 1 } } (memory3 1 1 7)) (fun t => owesResult .accepted t &&
        (t.chip.tau.running.map fun x => (x.writes.take 4, x.writes.drop 7)) =
          some ([(0x30140, 0x30023), (0x30144, 150), (0x30148, 0x107), (0x3014C, 500)],
            [(stationAddr 96, 21), (0x206C, 0)]) && t.chip.clu.reserved = 0) = true := by decide +kernel

/-- An accepted BUY: a PURCHASE record at the entry's price, a reservation, the demand (R142). -/
theorem test_buy_accepted :
    after .evaluationTenure (at' (deciding run) (memory3 1 1 0)) (fun t =>
      (t.chip.tau.running.map fun x => (x.writes.take 4, x.writes.drop 7, x.owed)) =
        some ([(0x30140, 0x30022), (0x30144, 150), (0x30148, 7), (0x3014C, 500)], [(stationAddr 96, 21), (0x206C, 7)],
          [.purchaseEnd .accepted, .request ⟨3, .evaluate, false⟩, .cause .purchaseDone]) &&
        t.chip.clu.reserved = 1) = true := by decide +kernel

theorem test_cancel_in_the_window :
    after .evaluationTenure (at' { deciding run with pcu := { (deciding run).pcu with
      inFlight := some ⟨.cancel, .a, 3, 0⟩ } } (memory3 1 1 7)) (fun t =>
        (t.chip.tau.running.map fun x => (x.writes, x.owed)) =
          some ([], [.purchaseEnd .window, .cause .purchaseDone])) = true := by decide +kernel

theorem witness_LogTenures :
    (offering .release run).offers .release = true ∧ (offering .close run).offers .close = true ∧
      (offering .logLoad run).offers .logLoad = true ∧ run.clu.copy.isSome = true ∧ 0 < (offering .close run).free ∧
      (offering .close { run with clu := { run.clu with reserved := 246 } }).free = 0 := by decide +kernel

/-- A log with `n` slots free at the grant of a release of two, reserve 4. -/
def releasing (n : Nat) (low : Bool) : Chip :=
  offering .release { run with clu := { run.clu with reserved := 246 - n, low := low } }

theorem witness_low_state_and_notice :
    (∀ n ∈ [0, 3, 4, 6], (releasing n true).free = n ∧ (releasing n true).tau.running = none ∧
      after .releaseTenure (at' (releasing n true) []) (fun t => t.chip.tau.running.isSome && t.chip.clu.copy.isSome) =
        true) ∧ run.settings.reserve = 4 ∧
      after .releaseTenure (at' (releasing 3 false) []) (fun t => t.chip.clu.low) = true ∧
      (inState .stopping 0 run).resetLow = false ∧ (inState .stopping 0 run).canStop = true ∧
      after .stoppedEntry (at' (inState .stopping 0 run) []) (fun t => t.chip.clu.copy.isSome) = true := by decide +kernel

/-- The release from no slot to two owes the notice; from 4 slots to 6 it leaves the low state, from 3 to 5 it enters it
where the part was not in it, owing LOG_LOW (R160, R161). -/
theorem test_low_state_and_notice :
    let grants := fun n low seen => after .releaseTenure (at' (releasing n low) []) fun t =>
      (t.chip.clu.low, t.chip.tau.running.map fun x => x.owed) = seen
    grants 0 true (true, some [.space]) = true ∧ grants 4 true (false, some []) = true ∧
      grants 3 false (true, some [.cause .logLow]) = true ∧ grants 6 false (false, some []) = true := by decide +kernel

/-- A part whose log has one free space, with a BUY to decide. -/
def tightLog : Chip := { deciding run with clu := { run.clu with reserved := 240 } }

theorem witness_TheLogKeepsWithinItsCapacity :
    tightLog.working = true ∧ tightLog.capacity ≤ 65535 ∧ tightLog.logFits ∧
      (∀ sub, (at' tightLog (memory3 1 1 0)).needs sub ≤ tightLog.clu.reserved) ∧
      (∀ e ∈ tightLog.lue.entries, e.event = true → field e.w1 0 8 ≠ 0) ∧ tightLog.swe.queue = [] ∧
      Instr.evaluationTenure ≠ .logCopyLoad ∧
      after .evaluationTenure (at' tightLog (memory3 1 1 0)) (owesResult .accepted) = true := by
  refine ⟨by decide +kernel, by decide +kernel, fun l h => ?_, fun sub => ?_, by decide +kernel, rfl, by decide,
    by decide +kernel⟩
  · cases h; decide +kernel
  · have h : ∀ (p q : Prop) [Decidable p] [Decidable q], (if p then 1 else 0) + (if q then 1 else 0) ≤ 240 := by
      intro p q _ _; split <;> split <;> decide
    exact h _ _

theorem test_release_tenure :
    after .releaseTenure (at' (offering .release run) []) (fun t =>
      (t.chip.tau.running.map fun x => x.writes) = some [(stationAddr 97, 12)] && t.chip.free = 248) = true := by
  decide +kernel

/-- The PERIOD record in slot 20, bank 1 emptied, and the write index (R163). -/
theorem test_close_tenure :
    after .closeTenure (at' (offering .close run) []) (fun t =>
      (t.chip.tau.running.map fun x => x.writes) =
        some [(0x30140, 0x30025), (0x30144, 150), (0x30148, 5), (0x3014C, 0xABCD), (stationAddr 101, 0),
          (stationAddr 102, 0), (stationAddr 103, 4), (stationAddr 96, 21)]) = true := by decide +kernel

theorem test_log_copy_load :
    after .logCopyLoad (at' (offering .logLoad (inState .loading 3 run)) (Memory.writeWord [] (stationAddr 98) 0xFACE))
      (fun t => t.chip.clu.copy = some ⟨0, 0, 0, 0xFACE, 0, 0⟩) = true := by decide +kernel

/-- What the RPU has to mirror after the release of the reset line, and a snapshot. -/
def reporting : Chip :=
  offering .report { run with rpu := Rpu.reset, slm := { run.slm with edge := some ⟨3, 140, 900⟩, edgeFresh := true } }

theorem witness_ReportTenureMirrors :
    reporting.offers .report = true ∧ reporting.rpu.statusDirty = true ∧ reporting.rpu.copyDirty = true ∧
      reporting.slm.edge = some ⟨3, 140, 900⟩ ∧ reporting.slm.edgeFresh = true := by decide +kernel

/-- The first report tenure makes thirteen writes (R172), and three more for the snapshot. -/
theorem test_report_tenure :
    after .reportTenure (at' reporting []) (fun t =>
      (t.chip.tau.running.map fun x => (x.writes.length, x.owed)) = some (16, [.snapshot])) = true := by decide +kernel

/-! ### Witnesses: loading, running, stopping -/

/-- A profile with every field in range: tables as in `smallMap` but for the counts of the fields, no guard. -/
def goodProfile : List Word :=
  [0x4A503430, 0x400, 0x04001000, 0x2000, 16, 0x22000, 0x22200, 0x30000, 256, 0xAAAAA] ++ List.replicate 16 0 ++
    [0xFF91, 0x00123219, 0x00090214, 30, 10 * 65536 + 4, 0xFFFF] ++ List.replicate 32 0

theorem test_good_profile :
    Profile.faults goodProfile = 0 ∧ (Profile.map goodProfile).memSize = 4194304 ∧
      (Profile.settings goodProfile).maxAttempts = 3 := by decide +kernel

/-- A channel map of 97 entries, also with a base that is no multiple of 32 or one below 0x400, and tables that overlap (R27,
R28). -/
theorem test_bad_profiles :
    Profile.faults (goodProfile.set 2 0x61001000) = 0b1000 ∧ Profile.faults (goodProfile.set 2 0x61001010) = 0b1100 ∧
      Profile.faults (goodProfile.set 2 0x61000020) = 0b1000 ∧ Profile.faults (goodProfile.set 2 0x04000020) = 0b100 ∧
      Profile.faults (goodProfile.set 5 0x2000) = 0b10 := by
  decide +kernel

/-- Loading, phase 1, the profile read. -/
def loading1 (p : List Word) : Chip := inState .loading 1 { run with lcc := { Lcc.reset with profile := p } }

theorem witness_LoadPhase1TestsTheProfile :
    (∀ k, k < 3 → (offering (.profile k) (loading1 [])).offers (.profile k) = true) ∧
      (offering .faultSet (loading1 [])).offers .faultSet = true ∧ (loading1 []).lcc.phase ≠ 3 ∧
      (loading1 goodProfile).quiet = true ∧ (loading1 goodProfile).lcc.lifecycle = .loading ∧
      (loading1 goodProfile).lcc.phase = 1 ∧ (loading1 goodProfile).lccIdle = true ∧
      Profile.faults (loading1 goodProfile).lcc.profile = 0 ∧ Profile.faults (loading1 []).lcc.profile ≠ 0 := by
  decide +kernel

/-- The profile with its first guard region in use: 64 KiB at 0x100000, rights READ_WRITE and READ. -/
theorem test_installed_map :
    after .loadPhase1 (at' (loading1 ((goodProfile.set 10 0x80000100).set 11 0x00060010)) []) (fun t =>
      t.chip.map.guards = [⟨0x100000, 65536, .readWrite, .read⟩] && t.chip.map.permitA = 0x91 && t.chip.rpu.mask = 0xFFFF &&
        t.chip.settings = ⟨25, 2, 3, 2, true, 20, 2, 9, 3000, true, 4, 10⟩) = true := by decide +kernel

theorem test_load_phase_1 :
    after .loadPhase1 (at' (loading1 goodProfile) []) (fun t => t.chip.lcc.phase = 2 && t.chip.map.guards = [] &&
      t.chip.tau.orders = [[.nodeTable 0, .report]]) = true ∧
    after .loadPhase1 (at' (loading1 []) []) (fun t => t.chip.lcc.lifecycle = .loadFault && t.chip.lcc.faults = 1 &&
      t.chip.map = RegionMap.reset && t.chip.interrupt) = true := by decide +kernel

/-- Loading, phase 2 and phase 3. -/
def loading2 (w : List Word) : Chip := inState .loading 2 { run with lcc := { Lcc.reset with nodeWords := w } }
def loading3 (x : Option (Word × Word)) : Chip := inState .loading 3 { run with lcc := { Lcc.reset with logIndexes := x } }

theorem witness_LoadPhases2And3 :
    (offering (.nodeTable 1) (loading2 [])).offers (.nodeTable 1) = true ∧ (loading2 [0x80000040]).quiet = true ∧
      (loading2 [0x80000040]).lcc.lifecycle = .loading ∧ (loading2 [0x80000040]).lcc.phase = 2 ∧
      (loading2 [0x80000040]).lccIdle = true ∧
      (offering .logIndexes (loading3 none)).offers .logIndexes = true ∧
      (offering .faultSet (loading3 none)).offers .faultSet = true ∧ (loading3 none).lcc.phase = 3 ∧
      (loading3 (some (256, 0))).quiet = true ∧ (loading3 (some (256, 0))).lccIdle = true ∧
      (loading3 (some (256, 0))).lcc.logIndexes = some (256, 0) ∧
      ((256 : Word) - 0).toNat ≤ (loading3 none).capacity ∧ (loading3 none).capacity < ((257 : Word) - 0).toNat ∧
      (loading3 none).lcc.faults = 0 ∧ (loading3 none).outstanding .clu = false := by decide +kernel

/-- A class code 4 of an in-use node fails; an occupancy of the capacity passes, one more does not (R29). -/
theorem test_load_phases_2_and_3 :
    after .loadPhase2 (at' (loading2 [0x80000040]) []) (fun t => t.chip.lcc.phase = 3 && t.chip.lcc.faults = 0x200) = true ∧
    after .loadPhase3 (at' (loading3 (some (256, 0))) []) (fun t => t.chip.clu.loadOwed &&
      t.chip.lcc.lifecycle = .loading) = true ∧
    after .loadPhase3 (at' (loading3 (some (257, 0))) []) (fun t => t.chip.lcc.lifecycle = .loadFault &&
      t.chip.lcc.faults = 0x400) = true := by decide +kernel

theorem witness_RecordsAreLaidOut :
    524287 < 524288 ∧ 8191 < 8192 ∧ (∀ b ∈ run.lue.eventMap, b.1 ≠ 8) ∧
      (∀ b ∈ run.lue.eventMap, b.1 = 7 → b.2 = 0) ∧ ((7 : BitVec 8), 0) ∈ run.lue.eventMap ∧
      run.lue.entries[0]? = some (eventEntry .inside) := by decide +kernel

theorem witness_ProfileFaultsAreFound :
    Profile.faults [] = 1 ∧ goodProfile.getD 0 0 = 0x4A503430 ∧ Profile.faults goodProfile = 0 := by decide +kernel

/-- A load at the end of a tenure of its phase, nothing else to do. -/
def loadEnds (phase : Nat) (j : Job) (f : Chip → Chip) : State := at' (endingTenure j [] (f (inState .loading phase run))) []

/-- Entries of the map walk with nothing to mirror. -/
def walkAt (n : Nat) (c : Chip) : Chip := { c with lue := { c.lue with walk := some n } }

theorem witness_load_goes_on :
    let ready := fun s : State => s.chip.resetLow = false ∧ s.chip.par.holder = .tau ∧ s.chip.tau.running.isSome = true ∧
      s.chip.portA.waiting = false ∧ s.chip.portB.waiting = false ∧ s.chip.lcc.lifecycle = .loading ∧ s.chip.tau.orders = []
    ready (loadEnds 3 .logLoad id) ∧ ready (loadEnds 4 .nextRead id) ∧ ready (loadEnds 5 .eventSet id) ∧
      run.slm.nextDirty = false ∧ (∀ y ∈ run.slm.slots, y.dirty = false) ∧ (∀ n ∈ run.slm.nodes, n.dirty = false) ∧
      run.slm.jobs = [] ∧ run.slm.nodes ≠ [] ∧ Job.nextRead.block = .slm ∧ Job.eventSet.block = .toe ∧
      Job.mirror.block = .lue ∧ (Job.profile 1).block = .lcc ∧ 0 < run.subscriberCount ∧ 0 < run.mapCount ∧
      run.lue.owesTime = [] ∧ (∀ e ∈ run.lue.entries, e.dirty = false) := by decide +kernel

/-- The copy is loaded: phase 4, its first read asked for. The last repair ends: every node UP and to be written. Their last
write ends: phase 5. The last subscriber: phase 6; and the walk goes on until the map is walked (R30, R123, R165). -/
theorem test_load_goes_on :
    after .tauTenureEnd (loadEnds 3 .logLoad id) (fun t => t.chip.lcc.phase = 4 &&
      t.chip.tau.orders.head? = some [.outageRead 0, .report] && t.chip.slm.jobs.length = 11) = true ∧
    after .tauTenureEnd (loadEnds 4 (.repair 3) fun c => { c with slm := { c.slm with nodes := [] } }) (fun t =>
      t.chip.lcc.phase = 4 && t.chip.slm.nodes = List.replicate 32 ⟨.up, 0, none, none, none, ⟨150, false, true⟩, true⟩ &&
        t.chip.tau.orders = [[.slmWrite]]) = true ∧
    after .tauTenureEnd (loadEnds 4 .slmWrite id) (fun t => t.chip.lcc.phase = 5 &&
      t.chip.toe.walk = some ⟨0, [], 0⟩ && t.chip.tau.orders.head? = some [.eventSet, .report]) = true ∧
    after .tauTenureEnd (loadEnds 5 .subscriberWalk (inToe fun t => { t with walk := some ⟨4, [], 16⟩ })) (fun t =>
      t.chip.lcc.phase = 6 && t.chip.toe.walk = none && t.chip.lue.walk = some 0 &&
        t.chip.tau.orders.head? = some [.mapWalk, .report]) = true ∧
    after .tauTenureEnd (loadEnds 6 .mirror (walkAt 2)) (fun t => t.chip.lcc.phase = 6 && t.chip.tau.orders = [[.mapWalk]]) =
      true := by decide +kernel

theorem witness_TheLoadGoesOnAndStatesAreEntered :
    let c := inState .loading 6 { run with lue := { run.lue with walk := some 4 } }
    c.quiet = true ∧ c.lcc.phase = 6 ∧ c.mapWalked = true ∧
      (inState .stopping 0 run).quiet = true ∧ (inState .stopping 0 run).toe.flights = [] ∧
      (inState .stopping 0 run).lue.order = none ∧
      (∀ b ∈ [Block.lcc, .lue, .toe, .slm, .swe, .pcu, .clu], (inState .stopping 0 run).outstanding b = false) ∧
      (flying id).toe.flights ≠ [] ∧ (routing 1 1000).lue.order.isSome = true := by decide +kernel

theorem test_running_entry :
    after .runningEntry (at' (inState .loading 6 { run with lue := { run.lue with walk := some 4 } }) []) (fun t =>
      t.chip.lcc.lifecycle = .running && t.chip.lcc.phase = 0) = true := by decide +kernel

theorem test_stopped_entry :
    after .stoppedEntry (at' (inState .stopping 0 run) []) (fun t => t.chip.lcc.lifecycle = .stopped &&
      t.chip.lue.entries = [] && t.chip.clu.copy.isSome) = true := by decide +kernel

/-! ### Witnesses: invariants -/

/-- Subscribers in every collection: two queued, one deferred, one held, one in flight. -/
def collecting : Chip :=
  flying id |> inToe fun t => { t with queue := [⟨1, false, 0⟩, ⟨2, true, 1⟩], deferred := [⟨7, false⟩], held := [5] }

theorem witness_StepKeepsTheCollections : collecting.collected ∧ collecting.toe.members = [1, 2, 7, 5, 3] :=
  ⟨⟨by decide, by decide, by decide, by decide, by decide, fun h => absurd h (by decide), fun h => absurd h (by decide),
    fun _ h => by cases h⟩, rfl⟩

/-- A state that satisfies every invariant and steps to a next one. -/
theorem witness_Step_invariants :
    (at' run []).mem.wf = true ∧ run.requests = [] ∧ run.par.holder = .free ∧ run.portA.waiting = false ∧
      run.portB.waiting = false ∧ run.tau.orders = [] ∧ run.tbu.deadline = none ∧ run.tbu.heartbeat = .disarmed ∧
      1048576 ≤ run.map.memSize ∧ run.map.memSize ≤ 16777216 ∧
      after .resetRelease State.reset (fun t => t.chip.par.holder = .tau) = true := by decide +kernel

/-- A step on an empty queue in RUNNING with nothing due: one unit passes. -/
theorem test_one_unit_passes : step (at' run []) = .next (at' run.passTime []) := by rfl

end Sys2Proof.Tests
end

section
/-! What one step can do. Every command is an event, an access, a tenure's grant, the end of a memory cycle or of a tenure,
or the reset line; `State.Moves` says so once, and each invariant is a case analysis of it. -/

namespace Sys2Proof.Machine

/-! ### What is done before requests are presented and the memory port is granted -/

/-- The part with an access of a port waiting, its LOCK line seen (R1, R5). -/
def Chip.withWaiting (p : Port) (a : Access) (c : Chip) : Chip :=
  c.withPort p ⟨some ⟨a, .waiting⟩, (c.port p).lockIgnored && a.lock, none⟩

/-- What presenting an access does itself: in a lock of its port the access is granted at once (R4). -/
def Chip.presented (p : Port) (a : Access) (c : Chip) : Chip :=
  match c.par.holder with
  | .host q true n => if q = p then (c.withWaiting p a).lockedAccess p a n else c.withWaiting p a
  | _ => c.withWaiting p a

theorem Chip.presentAccess_eq (p : Port) (a : Access) (c : Chip) : c.presentAccess p a = (c.presented p a).settle := by
  have hw : (c.putAccess p a .waiting).withPort p
      { (c.putAccess p a .waiting).port p with
        lockIgnored := ((c.putAccess p a .waiting).port p).lockIgnored && a.lock } = c.withWaiting p a := by
    cases p <;> rfl
  have hpar : (c.withWaiting p a).par = c.par := by cases p <;> rfl
  unfold Chip.presentAccess Chip.presented
  dsimp only
  rw [hw, hpar]
  cases c.par.holder with
  | free => rfl
  | tau => rfl
  | host q l n =>
    cases l with
    | false => rfl
    | true => by_cases h : q = p <;> simp only [h, if_true, if_false]

/-- What the end of a memory cycle does itself: READY, and the trigger (R2, R16). -/
def Chip.cycleEnded (p : Port) (data : Word) (t : Option Trigger) (c : Chip) : Chip :=
  match t with
  | some t => (c.endAccess p false data).handTrigger t
  | none => c.endAccess p false data

theorem Chip.finishCycle_eq (p : Port) (data : Word) (t : Option Trigger) (c : Chip) :
    c.finishCycle p data t = (c.cycleEnded p data t).settle := by
  cases t <;> rfl

/-- The part as a tenure has left it: the memory port is free. -/
def Chip.tauFreed (c : Chip) : Chip :=
  { c with tau := { c.tau with running := none }, par := { c.par with holder := .free } }

/-- What the end of a tenure hands on (R6). -/
def Chip.paid (t : Tenure) (c : Chip) : Chip := (t.owed.foldl Chip.payOwed c.tauFreed).jobEnded t.job

/-- What the end of a tenure does itself (R6, R33). -/
def Chip.tenureEnded (t : Tenure) (c : Chip) : Chip := (c.paid t).endPhase4.endPhase5.endStopping

theorem Chip.finishTenure_eq (t : Tenure) (c : Chip) : c.finishTenure t = (c.tenureEnded t).settle := rfl

/-! ### The pieces that no event and no tenure's grant reaches without saying so -/

/-- Every piece but the ports, the arbiter, the map and the timebase. -/
def workPieces : List Piece :=
  [.resetLine, .lines, .requests, .tenure, .jobs, .lcc, .settings, .lue, .toe, .slm, .swe, .pcu, .clu, .low, .rpu,
    .statusMark, .routeLink, .tapLink]

/-- What a command does to the part before it settles, where neither an access nor a tenure ends. -/
inductive Chip.Worked : Chip → Chip → Prop
  /-- The ports, the arbiter, the map and the timebase stay. -/
  | blocks (c d : Chip) (h : Chip.Same workPieces c d) : Worked c d
  /-- Time is changed, the heartbeat is not. -/
  | clock (c d : Chip) (h : Chip.Same timePieces c d) (hb : d.tbu.heartbeat = c.tbu.heartbeat)
      (hd : d.tbu.deadline = c.tbu.deadline) : Worked c d
  | expired (c : Chip) : Worked c c.enterExpired
  /-- The autostart check's tenure enters LOADING. -/
  | loading (c d e : Chip) (h1 : Chip.Same workPieces c d) (h2 : Chip.Same workPieces d.enterLoading e) : Worked c e
  | profile (c : Chip) : Worked c c.endPhase1
  | lock (p : Port) (c : Chip) : Worked c (c.releaseLock p)
  | access (p : Port) (a : Access) (c : Chip) (h : (c.port p).out = none) : Worked c (c.presented p a)

/-- What one step can do to a state. -/
inductive State.Moves (s : State) : State → Prop
  | stays : Moves s s
  | lines (v : Word) : Moves s { s with chip := { s.chip with lines := v } }
  | passes : Moves s { s with chip := s.chip.passTime }
  | reset (k : Nat) : Moves s { s with chip := s.chip.atReset s.mem, mem := s.chip.memoryAtReset k s.mem }
  | works (d : Chip) (h : Chip.Worked s.chip d) : Moves s { s with chip := d.settle }
  | cycle (p : Port) (a : Access) (t : Option Trigger) (h : s.chip.inMemory = some (p, a, t)) :
      Moves s { s with chip := (s.chip.cycleEnded p (s.mem.returned a) t).settle, mem := s.mem.cycle a }
  | tenure (x : Tenure) (h : s.chip.par.holder = .tau) (hx : s.chip.tau.running = some x) :
      Moves s { s with chip := (s.chip.tenureEnded x).settle, mem := s.mem.applyWrites x.writes }

/-! ### The three shapes of a meaning -/

theorem State.access_moves {s t : State} {p : Port} {a : Access} (h : s.access p a = .next t) : s.Moves t := by
  unfold State.access at h
  split at h
  · cases h
  · rename_i ho
    cases h
    rw [Chip.presentAccess_eq]
    exact .works _ (.access p a _ (by simpa using ho))

theorem State.command_moves {s t : State} {u : PortUse} {n : Nat} {w : Bool} {v : Word}
    (h : s.command u n w v = .next t) : s.Moves t := State.access_moves h

theorem State.event_moves {s t : State} {b : Bool} {f : Chip → Chip} (h : s.event b f = .next t)
    (hf : Chip.Worked s.chip (f s.chip)) : s.Moves t := by
  unfold State.event at h
  split at h
  · cases h; exact .works _ hf
  · cases h; exact .stays

/-- An event of the blocks. -/
theorem State.event_blocks {s t : State} {b : Bool} {f : Chip → Chip} {L : List Piece} (h : s.event b f = .next t)
    (hf : Chip.Same L s.chip (f s.chip)) (hL : ∀ x ∈ L, x ∈ workPieces := by decide) : s.Moves t :=
  State.event_moves h (.blocks _ _ (hf.mono hL))

/-- A tenure that is granted ran its body on a part that only the requests and the tenure tell from this one. -/
theorem State.tenure_next {s t : State} {pick : Chip → Job → Bool} {body : Memory → Job → Chip → Chip}
    (h : s.tenure pick body = .next t) :
    t = s ∨ ∃ j c, Chip.Same [.requests, .tenure] s.chip c ∧ t = { s with chip := (body s.mem j c).closeGrant.settle } := by
  unfold State.tenure at h
  split at h
  · cases h; exact Or.inl rfl
  · rename_i j c hg
    cases h
    exact Or.inr ⟨j, c, s.chip.same_grant _ j c hg, rfl⟩

/-- The grant of a tenure of the blocks. -/
theorem State.tenure_blocks {s t : State} {pick : Chip → Job → Bool} {body : Memory → Job → Chip → Chip} {L : List Piece}
    (h : s.tenure pick body = .next t) (hf : ∀ j c, Chip.Same L c (body s.mem j c))
    (hL : ∀ x ∈ L, x ∈ workPieces := by decide) : s.Moves t := by
  rcases State.tenure_next h with rfl | ⟨j, c, hc, rfl⟩
  · exact .stays
  · refine .works _ (.blocks _ _ ?_)
    exact ((hc.mono (by decide)).then ((hf j c).mono hL)).then ((Chip.same_closeGrant _).mono (by decide))

/-! ### The commands whose work has a shape of its own -/

theorem Tbu.heartbeat_timeChange (c : Chip) : c.timeChange.tbu = c.tbu := c.same_timeChange .tbu (by decide)

theorem Chip.tbu_marking (b c : Chip) : (Chip.marking b c).tbu = c.tbu := Chip.same_marking b c .tbu (by decide)

/-- A pulse leaves the heartbeat. -/
theorem Chip.pulse_heartbeat (c : Chip) :
    c.pulse.tbu.heartbeat = c.tbu.heartbeat ∧ c.pulse.tbu.deadline = c.tbu.deadline := by
  unfold Chip.pulse Chip.advanceWall
  split
  · dsimp only
    split
    · rw [Tbu.heartbeat_timeChange]
      dsimp only
      rw [Chip.tbu_marking]
      exact ⟨rfl, rfl⟩
    · dsimp only
      rw [Chip.tbu_marking]
      exact ⟨rfl, rfl⟩
  · exact ⟨rfl, rfl⟩

theorem execAutostartCheck_moves {s t : State} (h : execAutostartCheck s = .next t) : s.Moves t := by
  rcases State.tenure_next h with rfl | ⟨j, c, hc, rfl⟩
  · exact .stays
  · have hc' := hc.mono (N := workPieces) (by decide)
    refine .works _ ?_
    unfold Chip.autostart
    split
    · exact .loading _ _ _ hc' ((Chip.same_closeGrant _).mono (by decide))
    · exact .blocks _ _ (hc'.then ((Chip.same_closeGrant _).mono (by decide)))

theorem execResetRelease_moves {s t : State} (h : execResetRelease s = .next t) : s.Moves t := by
  unfold execResetRelease at h
  split at h
  · cases h
    refine .works _ (.blocks _ _ ?_)
    intro x hx
    cases x <;> first | exact absurd (by decide) hx | rfl
  · cases h; exact .stays

theorem execResetAssert_moves {s t : State} {k : Nat} (h : execResetAssert k s = .next t) : s.Moves t := by
  unfold execResetAssert at h
  split at h
  · cases h; exact .stays
  · cases h; exact .reset k

theorem execMemoryCycleComplete_moves {s t : State} (h : execMemoryCycleComplete s = .next t) : s.Moves t := by
  unfold execMemoryCycleComplete at h
  split at h
  · rename_i p a tr hm
    cases h
    rw [Chip.finishCycle_eq]
    exact .cycle p a tr hm
  · cases h; exact .stays

theorem execTauTenureEnd_moves {s t : State} (h : execTauTenureEnd s = .next t) : s.Moves t := by
  unfold execTauTenureEnd at h
  split at h
  · rename_i x hh hx
    cases h
    rw [Chip.finishTenure_eq]
    exact .tenure x hh hx
  · cases h; exact .stays

/-- New levels on the lines, and perhaps a sample (R107). -/
theorem execStatusLineChange_moves {s t : State} {v : Word} (h : execStatusLineChange v s = .next t) : s.Moves t := by
  unfold execStatusLineChange State.event at h
  split at h
  · cases h
    refine .works _ (.blocks _ _ (Chip.Same.trans (L := [.lines]) ?_ (Chip.same_sample v _) (by decide) (by decide)))
    intro x hx
    cases x <;> first | exact absurd (by decide) hx | rfl | exact ⟨rfl, rfl⟩
  · cases h; exact .lines v

theorem Chip.same_routeExpiry (c : Chip) : Chip.Same lineUpPieces c c.routeExpiry := by
  unfold Chip.routeExpiry
  split
  · exact c.same_expireRoute _
  · exact Chip.Same.refl _ c

theorem Chip.same_tapTimeout (n : Nat) (c : Chip) : Chip.Same tapPieces c (c.tapTimeout n) := by
  unfold Chip.tapTimeout
  split
  · exact c.same_tapExpiry _
  · exact Chip.Same.refl _ c

theorem Chip.same_logClearBody (m : Memory) (c : Chip) : Chip.Same [.tenure] c (c.logClearBody m) := c.same_write _ _

/-- The pieces that a tenure of phase 4 can change. -/
theorem Chip.same_outageBody (m : Memory) (j : Job) (c : Chip) :
    Chip.Same [.slm, .jobs, .swe, .tenure] c (c.outageBody m j) := by
  unfold Chip.outageBody
  split
  · exact (c.same_outageReadBody _ _).mono (by decide)
  · exact (c.same_nextReadBody _).mono (by decide)
  · exact (c.same_repairBody _).mono (by decide)
  · exact Chip.Same.refl _ c

theorem Chip.same_subscriberLoadBody (m : Memory) (j : Job) (c : Chip) :
    Chip.Same tapPieces c (if j = .eventSet then c.eventSetBody m else c.subscriberWalkBody m) :=
  Chip.Same.ite (c.same_eventSetBody m) (c.same_subscriberWalkBody m)

/-! ### Every command, every step -/

/-- What a command can do. -/
theorem exec_moves {i : Instr} {s t : State} (h : exec i s = .next t) : s.Moves t := by
  cases i <;> simp only [exec] at h
  case portAccess p a => exact State.access_moves h
  case lockRelease p => exact State.event_moves h (.lock p _)
  case memoryCycleComplete => exact execMemoryCycleComplete_moves h
  case resetAssert n => exact execResetAssert_moves h
  case resetRelease => exact execResetRelease_moves h
  case autostartCheck => exact execAutostartCheck_moves h
  case start u => exact State.command_moves h
  case stop u => exact State.command_moves h
  case logClear q =>
    cases q <;> simp only [execLogClear] at h
    case command u => exact State.command_moves h
    case tenure => exact State.tenure_blocks h (fun j c => c.same_logClearBody _)
  case arm u q => exact State.command_moves h
  case feed u q => exact State.command_moves h
  case pause u => exact State.command_moves h
  case expire u => exact State.command_moves h
  case disarm u => exact State.command_moves h
  case heartbeatCountdownExpiry => exact State.event_moves h (.expired _)
  case take u => exact State.command_moves h
  case takeCancel u => exact State.command_moves h
  case buy u b e => exact State.command_moves h
  case purchaseCancel u b e => exact State.command_moves h
  case timeWrite u v => exact State.command_moves h
  case release u v => exact State.command_moves h
  case periodClose u => exact State.command_moves h
  case causeRead u => exact State.command_moves h
  case causeWrite u v => exact State.command_moves h
  case unusedCommandWordAccess u o w v => exact State.command_moves h
  case wallSecondBoundary =>
    refine State.event_moves h (.clock _ _ (Chip.same_advanceWall _) ?_ ?_) <;>
      rw [Chip.advanceWall, Tbu.heartbeat_timeChange]
  case referencePulse =>
    exact State.event_moves h (.clock _ _ (Chip.same_pulse _) (Chip.pulse_heartbeat _).1 (Chip.pulse_heartbeat _).2)
  case lossWatchExpiry => exact State.event_moves h (.clock _ _ (Chip.same_loseSync _) rfl rfl)
  case routeReply bs => exact State.event_blocks h (Chip.Same.foldl _ (fun c b => c.same_routeByte b) bs _)
  case routeByteTimeout => exact State.event_blocks h (Chip.same_dropRoute _)
  case routeDeadline => exact State.event_blocks h (Chip.same_routeExpiry _)
  case mirrorTenure => exact State.tenure_blocks h (fun j c => c.same_mirrorBody)
  case tauTenureEnd => exact execTauTenureEnd_moves h
  case tapReply bs => exact State.event_blocks h (Chip.Same.foldl _ (fun c b => Chip.same_tapByte s.mem b c) bs _)
  case tapByteTimeout => exact State.event_blocks h (Chip.same_dropTap _)
  case tapDeadline n => exact State.event_blocks h (Chip.same_tapTimeout n _)
  case evaluate => exact State.tenure_blocks h (fun j c => c.same_evaluationBody _)
  case requeue => exact State.tenure_blocks h (fun j c => c.same_evaluationBody _)
  case retire => exact State.tenure_blocks h (fun j c => c.same_evaluationBody _)
  case sendTenure => exact State.tenure_blocks h (fun j c => c.same_sendBody _)
  case replyTenure => exact State.tenure_blocks h (fun j c => c.same_linkBody _ j)
  case endingFailed => exact State.tenure_blocks h (fun j c => c.same_linkBody _ j)
  case endingHeld => exact State.tenure_blocks h (fun j c => c.same_linkBody _ j)
  case endingReturned => exact State.tenure_blocks h (fun j c => c.same_linkBody _ j)
  case endingUnconfirmed => exact State.tenure_blocks h (fun j c => c.same_linkBody _ j)
  case endingConfirmed => exact State.tenure_blocks h (fun j c => c.same_linkBody _ j)
  case statusLineChange v => exact execStatusLineChange_moves h
  case onsetDeadline n => exact State.event_blocks h (Chip.same_enterDown n _)
  case holdDeadline n => exact State.event_blocks h (Chip.same_enterUp n _)
  case slmWriteTenure => exact State.tenure_blocks h (fun j c => c.same_slmWriteBody)
  case sweepStart => exact State.event_blocks h (Chip.same_startSweep _)
  case sweepStartTenure => exact State.tenure_blocks h (fun j c => c.same_sweepStartBody _)
  case restoreStep => exact State.tenure_blocks h (fun j c => c.same_sweepStepBody _)
  case eventCloseStep => exact State.tenure_blocks h (fun j c => c.same_sweepStepBody _)
  case sweepEndTenure => exact State.tenure_blocks h (fun j c => c.same_sweepEndBody)
  case evaluationTenure => exact State.tenure_blocks h (fun j c => c.same_purchaseBody _)
  case releaseTenure => exact State.tenure_blocks h (fun j c => c.same_releaseBody)
  case closeTenure => exact State.tenure_blocks h (fun j c => c.same_closeBody)
  case reportTenure => exact State.tenure_blocks h (fun j c => c.same_reportBody)
  case loadPhase1 =>
    unfold execLoadPhase1 at h
    split at h
    · exact State.event_moves h (.profile _)
    · exact State.tenure_blocks h (fun j c => c.same_phase1Body _ j)
  case loadPhase2 =>
    unfold execLoadPhase2 at h
    split at h
    · exact State.event_blocks h (Chip.same_endPhase2 _)
    · exact State.tenure_blocks h (fun j c => c.same_phase2Body _ j)
  case loadPhase3 =>
    unfold execLoadPhase3 at h
    split at h
    · exact State.event_blocks h (Chip.same_endPhase3 _)
    · exact State.tenure_blocks h (fun j c => c.same_phase3Body _ j)
  case logCopyLoad => exact State.tenure_blocks h (fun j c => c.same_logLoadBody _)
  case outageReconciliation => exact State.tenure_blocks h (fun j c => c.same_outageBody _ j)
  case subscriberLoadWalk => exact State.tenure_blocks h (fun j c => c.same_subscriberLoadBody _ j)
  case mapLoadWalk => exact State.tenure_blocks h (fun j c => c.same_mapWalkBody _)
  case runningEntry => exact State.event_blocks h (Chip.same_enterRunning _)
  case stoppedEntry => exact State.event_blocks h (Chip.same_enterStopped _)
  case firstSample => exact State.event_blocks h (Chip.same_sample _ _)

theorem State.idle_moves {s t : State} (h : s.idle = .next t) : s.Moves t := by
  unfold State.idle at h
  split at h
  · cases h; exact .stays
  · split at h
    · exact exec_moves h
    · split at h
      · exact State.event_blocks h (Chip.same_serveRoutes _)
      · cases h; exact .passes

/-- What a step can do, its command taken from the queue. -/
theorem step_moves {s t : State} (h : step s = .next t) : ∃ q, State.Moves { s with pending := q } t := by
  unfold step at h
  split at h
  · exact ⟨s.pending, State.idle_moves h⟩
  · rename_i i rest _
    exact ⟨rest, exec_moves h⟩

end Sys2Proof.Machine
end

section
/-! The invariants of every step (O53 to O56), each by the cases of `State.Moves`. -/

namespace Sys2Proof.Machine

/-! ### The memory -/

theorem State.Moves.canonical {s t : State} (h : s.Moves t) (hs : s.canonical) : t.canonical := by
  cases h with
  | stays => exact hs
  | lines v => exact hs
  | passes => exact hs
  | reset k => exact Memory.wf_atReset _ _ _ hs
  | works d h => exact hs
  | cycle p a t h => exact Memory.wf_cycle _ _ hs
  | tenure x h hx => exact Memory.wf_applyWrites _ _ hs

/-- Settles O53: memory changes by whole-word writes of a tenure and by memory cycles alone. -/
theorem stepKeepsMemoryCanonical : Obligations.StepKeepsMemoryCanonical := by
  intro s t hs h
  obtain ⟨q, hm⟩ := step_moves h
  exact hm.canonical hs

/-! ### The requests and the memory port -/

/-- A fold that always answers something answers nothing only for an empty list. -/
theorem foldl_some_eq_none {α : Type} (g : Option α → α → Option α) (hg : ∀ x a, g x a ≠ none) (l : List α) :
    l.foldl g none = none ↔ l = [] := by
  have key : ∀ (l : List α) (x : Option α), x ≠ none → l.foldl g x ≠ none := by
    intro l
    induction l with
    | nil => exact fun x hx => hx
    | cons a l ih => exact fun x _ => ih _ (hg x a)
  cases l with
  | nil => simp
  | cons a l => simpa using key l _ (hg none a)

/-- No record in flight has work where none has an ending or a waiting reply, at whatever count (R81). -/
theorem Chip.tapWork_eq_none (c : Chip) :
    c.tapWork = none ↔ (c.toe.flights.filter fun f => f.ending.isSome || f.reply.isSome) = [] := by
  unfold Chip.tapWork
  rw [Option.map_eq_none_iff]
  refine foldl_some_eq_none _ (fun x f => ?_) _
  cases x with
  | none => simp
  | some b => dsimp only; split <;> simp

theorem Chip.toeWants_eq_none (c : Chip) : c.toeWants = none ↔
    (c.working = true → c.tapWork = none ∧ c.sendAllowed = false ∧ c.toe.evals = []) ∧
    (c.working = false → c.loadingPhase 5 = true → ∀ w, c.toe.walk = some w →
      c.mapCount ≤ w.entry ∧ c.subscriberCount ≤ w.subscriber) := by
  unfold Chip.toeWants
  cases hw : c.working
  · cases hl : c.loadingPhase 5
    · simp
    · cases hk : c.toe.walk with
      | none => simp
      | some w =>
        simp only [Bool.false_eq_true, if_false, if_true, Option.some.injEq]
        split
        · simp; omega
        · split
          · simp; omega
          · simp; omega
  · cases ht : c.tapWork with
    | some n => simp
    | none =>
      cases hs : c.sendAllowed
      · cases he : c.toe.evals <;> simp
      · simp

/-- Passing time gives no block a new need. -/
theorem Chip.wants_passTime (c : Chip) (b : Block) : c.passTime.wants b = none ↔ c.wants b = none := by
  cases b
  case toe =>
    have key : c.passTime.tapWork = none ↔ c.tapWork = none := by
      rw [Chip.tapWork_eq_none, Chip.tapWork_eq_none]
      exact Iff.rfl
    show c.passTime.toeWants = none ↔ c.toeWants = none
    rw [Chip.toeWants_eq_none, Chip.toeWants_eq_none, key]
    exact Iff.rfl
  all_goals exact Iff.rfl

theorem Chip.requests_eq_nil (c : Chip) : c.requests = [] ↔ ∀ b, c.outstanding b = false → c.wants b = none := by
  have all : ∀ b, b ∈ allBlocks := by intro b; cases b <;> decide
  unfold Chip.requests
  rw [List.filterMap_eq_nil_iff]
  constructor
  · intro h b hb
    simpa [hb] using h b (all b)
  · intro h b _
    cases hb : c.outstanding b
    · simpa using h b hb
    · simp

theorem Chip.settled_passTime (c : Chip) (h : c.settled) : c.passTime.settled := by
  rcases h with h | ⟨hq, hf⟩
  · exact Or.inl h
  · refine Or.inr ⟨?_, hf⟩
    rw [Chip.requests_eq_nil] at hq ⊢
    exact fun b hb => (c.wants_passTime b).2 (hq b hb)

theorem State.Moves.settled {s t : State} (h : s.Moves t) (hs : s.chip.settled) : t.chip.settled := by
  cases h with
  | stays => exact hs
  | lines v => exact hs
  | passes => exact s.chip.settled_passTime hs
  | reset k => exact Or.inl rfl
  | works d h => exact d.settle_settled
  | cycle p a t h => exact Chip.settle_settled _
  | tenure x h hx => exact Chip.settle_settled _

/-- Settles O54: what a command changes is followed by `Chip.settle`, and passing time asks for nothing. -/
theorem stepLeavesASettledPart : Obligations.StepLeavesASettledPart := by
  intro s t hs h
  obtain ⟨q, hm⟩ := step_moves h
  exact hm.settled hs

/-! ### Invariants that hang on the arbiter, the map and the timebase -/

/-- A property that only the arbiter, the map and the timebase bear on. -/
def Chip.SeesFew (P : Chip → Prop) : Prop := ∀ c d, d.par = c.par → d.map = c.map → d.tbu = c.tbu → P c → P d

theorem Chip.SeesFew.same {P : Chip → Prop} (hP : Chip.SeesFew P) {L : List Piece} {c d : Chip} (h : Chip.Same L c d)
    (hc : P c) (hL : .arbiter ∉ L ∧ .map ∉ L ∧ .tbu ∉ L := by decide) : P d :=
  hP c d (h .arbiter hL.1) (h .map hL.2.1) (h .tbu hL.2.2) hc

/-- What such a property has to withstand, for every step to keep it: what the work of a command does, an access carried
out as it was classified, the end of a tenure, the grants of the memory port, and time. -/
structure Chip.Lasting (P : Chip → Prop) : Prop where
  few : Chip.SeesFew P
  passes : ∀ c, P c → P c.passTime
  reset : ∀ c m, P (Chip.atReset c m)
  works : ∀ c d, Chip.Worked c d → P c → P d
  cycle : ∀ c p data t, P c → P (c.cycleEnded p data t)
  tenure : ∀ c x, P c → P (c.tenureEnded x)
  given : ∀ c : Chip, P c → P { c with par := ⟨.tau, .tau⟩ }
  grants : ∀ c p, P c → P (c.grantPort p)

theorem Chip.Lasting.present {P : Chip → Prop} (hP : Chip.Lasting P) (c : Chip) (h : P c) : P c.present :=
  hP.few.same c.same_present h

theorem Chip.Lasting.arbitrate {P : Chip → Prop} (hP : Chip.Lasting P) (n : Nat) (c : Chip) (h : P c) :
    P (c.arbitrate n) := by
  induction n generalizing c with
  | zero => exact h
  | succ n ih =>
    unfold Chip.arbitrate
    split
    · split
      · exact h
      · exact hP.given c h
      · exact ih _ (hP.present _ (hP.grants c .a h))
      · exact ih _ (hP.present _ (hP.grants c .b h))
    · exact h

theorem Chip.Lasting.settle {P : Chip → Prop} (hP : Chip.Lasting P) (c : Chip) (h : P c) : P c.settle :=
  hP.arbitrate 3 _ (hP.present c h)

theorem Chip.Lasting.moves {P : Chip → Prop} (hP : Chip.Lasting P) {s t : State} (h : s.Moves t) (hs : P s.chip) :
    P t.chip := by
  cases h with
  | stays => exact hs
  | lines v => exact hP.few s.chip _ rfl rfl rfl hs
  | passes => exact hP.passes _ hs
  | reset k => exact hP.reset _ _
  | works d h => exact hP.settle _ (hP.works _ _ h hs)
  | cycle p a t h => exact hP.settle _ (hP.cycle _ _ _ _ hs)
  | tenure x h hx => exact hP.settle _ (hP.tenure _ _ hs)

theorem Chip.Lasting.step {P : Chip → Prop} (hP : Chip.Lasting P) (s t : State) (hs : P s.chip)
    (h : Machine.step s = .next t) : P t.chip := by
  obtain ⟨q, hm⟩ := step_moves h
  exact hP.moves hm hs

/-! ### Accesses that end, and the arbiter -/

/-- The end of an access frees the memory port or leaves the arbiter. -/
theorem Chip.par_endAccess (p : Port) (e : Bool) (d : Word) (c : Chip) :
    (Chip.endAccess p e d c).par = c.par ∨ (Chip.endAccess p e d c).par = { c.par with holder := .free } := by
  have hp : (c.withPort p { c.port p with out := none, answer := some ⟨e, d⟩ }).par = c.par := by cases p <;> rfl
  unfold Chip.endAccess
  dsimp only
  split
  · split
    · exact Or.inr (by rw [hp])
    · exact Or.inl hp
  · exact Or.inl hp

/-- On a free memory port the end of an access leaves the arbiter. -/
theorem Chip.par_endAccess_free (p : Port) (e : Bool) (d : Word) (c : Chip) (h : c.par.holder = .free) :
    (Chip.endAccess p e d c).par = c.par := by
  rcases Chip.par_endAccess p e d c with h1 | h1
  · exact h1
  · rw [h1, ← h]

/-- Held writes taken leave a free memory port free. -/
theorem Chip.par_takeHeld (l : List Port) (c : Chip) (h : c.par.holder = .free) : (Chip.takeHeld l c).par = c.par := by
  induction l generalizing c with
  | nil => rfl
  | cons p l ih =>
    unfold Chip.takeHeld
    split
    · rfl
    · dsimp only
      split
      · exact ih _ h
      · split
        · have h1 : ∀ k, (Chip.noteRefusal k p ‹Outstanding›.access.addr { c with pcu := { c.pcu with held := l } }).par =
              c.par := fun k => (Chip.same_noteRefusal _ _ _ _) .arbiter (by decide)
          have h2 := Chip.par_endAccess_free p true 0 _ ((congrArg Par.holder (h1 ‹RefusalKind›)).trans h)
          rw [ih _ ((congrArg Par.holder (h2.trans (h1 _))).trans h), h2, h1]
        · have h1 : (Chip.beginEvaluation p ‹Outstanding›.access.data { c with pcu := { c.pcu with held := l } }).par =
              c.par := (Chip.same_beginEvaluation _ _ _) .arbiter (by decide)
          have h2 := Chip.par_endAccess_free p false 0 _ ((congrArg Par.holder h1).trans h)
          rw [ih _ ((congrArg Par.holder (h2.trans h1)).trans h), h2, h1]

/-- An access carried out frees the memory port or leaves the arbiter. -/
theorem Chip.par_carryOut (p : Port) (a : Access) (v : Verdict) (c : Chip) :
    (c.carryOut p a v).par = c.par ∨ (c.carryOut p a v).par = { c.par with holder := .free } := by
  have hput : ∀ k, (c.putAccess p a k).par = c.par := fun k => Chip.withPort_par p _ c
  cases v with
  | refuse k =>
    have h1 : (c.noteRefusal k p a.addr).par = c.par := (c.same_noteRefusal _ _ _) .arbiter (by decide)
    have h2 := Chip.par_endAccess p true 0 (c.noteRefusal k p a.addr)
    rwa [h1] at h2
  | pass t => exact Or.inl (hput _)
  | answer d drop => cases drop <;> exact Chip.par_endAccess p false d _
  | hold => exact Or.inr (congrArg (fun x : Par => { x with holder := .free }) (hput .held))
  | take n =>
    have h1 : (c.takeCommand n p a.data).par = c.par := (c.same_takeCommand _ _ _) .arbiter (by decide)
    have h2 := Chip.par_endAccess p false 0 (c.takeCommand n p a.data)
    rwa [h1] at h2

/-! ### What the end of a tenure and the end of a memory cycle can change -/

/-- The pieces that what is owed at a tenure's end can reach. -/
def owedPieces : List Piece := [.lue, .toe, .slm, .swe, .pcu, .clu, .rpu, .statusMark, .routeLink, .tapLink, .tenure]

theorem Chip.same_payOwed (o : Owed) (c : Chip) : Chip.Same owedPieces c (c.payOwed o) := by
  cases o with
  | cause k => exact (c.same_raise k).mono (by decide)
  | space => exact c.same_spaceNotice.mono (by decide)
  | request r => exact (c.same_request r).mono (by decide)
  | attempt n => exact (c.same_firstAttempt n).mono (by decide)
  | redeadline n => exact (c.same_redeadline n).mono (by decide)
  | tapFailure => exact (c.same_count _).mono (by decide)
  | slot i d r => exact (c.same_handSlot i d r).mono (by decide)
  | snapshot => exact c.same_snapshotWritten.mono (by decide)
  | mirrored => exact c.same_handRouteCauses.mono (by decide)
  | purchaseEnd r => exact (c.same_endEvaluation r).mono (by decide)
  | spaceWait => exact Chip.Same.refl _ c

theorem Chip.same_outageTenureEnded (c : Chip) : Chip.Same [.slm] c c.outageTenureEnded :=
  Chip.Same.ite c.same_nodesUp (Chip.Same.refl _ c)

/-- The pieces that the end of a tenure can reach: never the map, the settings, the timebase or the requests. -/
def endPieces : List Piece :=
  [.portA, .portB, .arbiter, .tenure, .jobs, .lcc, .lue, .toe, .slm, .swe, .pcu, .clu, .low, .rpu, .statusMark, .routeLink,
    .tapLink]

theorem Chip.same_jobEnded (j : Job) (c : Chip) : Chip.Same endPieces c (c.jobEnded j) := by
  unfold Chip.jobEnded
  split
  · exact (c.same_sweepTenureEnded _).mono (by decide)
  · exact (c.same_sweepTenureEnded _).mono (by decide)
  · exact (c.same_sweepTenureEnded _).mono (by decide)
  · exact (Chip.same_takeHeld _ c).mono (by decide)
  · exact c.same_beginPhase4.mono (by decide)
  · exact c.same_outageTenureEnded.mono (by decide)
  · exact c.same_outageTenureEnded.mono (by decide)
  · exact c.same_outageTenureEnded.mono (by decide)
  · exact Chip.Same.refl _ c

theorem Chip.same_tauFreed (c : Chip) : Chip.Same [.tenure, .arbiter] c c.tauFreed := by
  intro x hx; cases x <;> first | exact absurd (by decide) hx | rfl | exact ⟨rfl, rfl⟩

theorem Chip.same_paid (t : Tenure) (c : Chip) : Chip.Same endPieces c (c.paid t) :=
  ((c.same_tauFreed.mono (by decide)).then
    ((Chip.Same.foldl Chip.payOwed (fun c o => c.same_payOwed o) t.owed _).mono (by decide))).then (Chip.same_jobEnded _ _)

theorem Chip.same_endPhases (c : Chip) : Chip.Same [.jobs, .lcc, .lue, .toe, .slm, .swe, .clu, .low, .statusMark] c
    c.endPhase4.endPhase5.endStopping :=
  ((c.same_endPhase4.mono (by decide)).then ((Chip.same_endPhase5 _).mono (by decide))).then
    ((Chip.same_endStopping _).mono (by decide))

theorem Chip.same_tenureEnded (t : Tenure) (c : Chip) : Chip.Same endPieces c (c.tenureEnded t) :=
  (c.same_paid t).then ((Chip.same_endPhases _).mono (by decide))

/-- A tenure that ends leaves the memory port free, the pointer as it was. -/
theorem Chip.par_tenureEnded (t : Tenure) (c : Chip) : (c.tenureEnded t).par = { c.par with holder := .free } := by
  have h1 : (t.owed.foldl Chip.payOwed c.tauFreed).par = { c.par with holder := .free } :=
    (Chip.Same.foldl Chip.payOwed (fun c o => c.same_payOwed o) t.owed c.tauFreed) .arbiter (by decide)
  have h2 : (c.paid t).par = { c.par with holder := .free } := by
    rw [← h1]
    unfold Chip.paid Chip.jobEnded
    split
    case h_4 => exact Chip.par_takeHeld _ _ (congrArg Par.holder h1)
    case h_5 => exact (Chip.same_beginPhase4 _) .arbiter (by decide)
    case h_9 => rfl
    all_goals first
      | exact (Chip.same_sweepTenureEnded _ _) .arbiter (by decide)
      | exact (Chip.same_outageTenureEnded _) .arbiter (by decide)
  exact ((Chip.same_endPhases _) .arbiter (by decide)).trans h2

/-- The pieces that a trigger can reach. -/
def triggerPieces : List Piece := .toe :: lineUpPieces

theorem Chip.same_handTrigger (t : Trigger) (c : Chip) : Chip.Same triggerPieces c (c.handTrigger t) := by
  unfold Chip.handTrigger
  refine Chip.Same.ite ?_ (Chip.Same.refl _ c)
  split
  · exact (c.same_mapTrigger _ _ _).mono (by decide)
  · split
    · exact Chip.Same.ite ((c.same_request _).mono (by decide)) ((c.same_request _).mono (by decide))
    · exact (c.same_request _).mono (by decide)
  · exact Chip.Same.refl _ c

theorem Chip.same_cycleEnded (p : Port) (d : Word) (t : Option Trigger) (c : Chip) :
    Chip.Same (portPiece p :: .arbiter :: triggerPieces) c (c.cycleEnded p d t) := by
  have h := (Chip.same_endAccess p false d c).mono (N := portPiece p :: .arbiter :: triggerPieces) (by simp)
  cases t with
  | none => exact h
  | some t => exact h.then ((Chip.same_handTrigger t _).mono fun x hx => by simp [hx])

theorem Chip.par_cycleEnded (p : Port) (d : Word) (t : Option Trigger) (c : Chip) :
    (c.cycleEnded p d t).par = (Chip.endAccess p false d c).par := by
  cases t with
  | none => rfl
  | some t => exact (Chip.same_handTrigger t _) .arbiter (by decide)

theorem Chip.same_releaseLock (p : Port) (c : Chip) : Chip.Same [portPiece p, .arbiter] c (c.releaseLock p) := by
  have h : Chip.Same [portPiece p, .arbiter] c (c.withPort p (c.port p).seenDeasserted) :=
    (c.same_withPort p _).mono (by simp)
  unfold Chip.releaseLock
  dsimp only
  refine Chip.Same.ite ?_ h
  split
  · exact Chip.Same.ite (h.then ((Chip.same_withPar _ _).mono (by simp))) h
  · exact h

theorem Chip.par_releaseLock (p : Port) (c : Chip) :
    (c.releaseLock p).par = c.par ∨ (c.releaseLock p).par = { c.par with holder := .free } := by
  have hp : (c.withPort p (c.port p).seenDeasserted).par = c.par := Chip.withPort_par p _ c
  unfold Chip.releaseLock
  dsimp only
  split
  · split
    · split
      · exact Or.inr (by rw [hp])
      · exact Or.inl hp
    · exact Or.inl hp
  · exact Or.inl hp

/-! ### The lock -/

theorem Chip.lockBounded_few : Chip.SeesFew Chip.lockBounded := by
  intro c d hp _ _ h
  unfold Chip.lockBounded
  rw [hp]
  exact h

/-- The bound holds of a free memory port, and of one whose holder stays. -/
theorem Chip.lockBounded_of_par {c d : Chip} (h : c.lockBounded)
    (hd : d.par = c.par ∨ d.par = { c.par with holder := .free }) : d.lockBounded := by
  unfold Chip.lockBounded
  rcases hd with hd | hd <;> rw [hd]
  · exact h
  · trivial

theorem Chip.lockBounded_carryOut (p : Port) (a : Access) (v : Verdict) (c : Chip) (h : c.lockBounded) :
    (c.carryOut p a v).lockBounded := Chip.lockBounded_of_par h (c.par_carryOut p a v)

theorem Chip.lockBounded_host (p : Port) (l : Bool) (n : Nat) (q : Claimant) (c : Chip) (h1 : 1 ≤ n) (h2 : n ≤ 16) :
    ({ c with par := ⟨.host p l n, q⟩ } : Chip).lockBounded := ⟨h1, h2⟩

theorem Chip.lockBounded_breakLock (p : Port) (a : Access) (c : Chip) : (c.breakLock p a).lockBounded := by
  unfold Chip.breakLock Chip.refuseAccess
  refine Chip.lockBounded_of_par ?_ (Chip.par_endAccess _ _ _ _)
  refine Chip.lockBounded_few.same (Chip.same_noteRefusal _ _ _ _) ?_
  cases p <;> trivial

theorem Chip.lockBounded_presented (p : Port) (a : Access) (c : Chip) (h : c.lockBounded) :
    (c.presented p a).lockBounded := by
  have hw : (c.withWaiting p a).lockBounded :=
    Chip.lockBounded_of_par h (Or.inl (Chip.withPort_par p _ c))
  unfold Chip.presented
  split
  · split
    · unfold Chip.lockedAccess
      split
      · rename_i hn
        exact Chip.lockBounded_carryOut _ _ _ _ (Chip.lockBounded_host _ _ _ _ _ (by omega) hn)
      · exact Chip.lockBounded_breakLock _ _ _
    · exact hw
  · exact hw

theorem Chip.lockBounded_lasting : Chip.Lasting Chip.lockBounded where
  few := Chip.lockBounded_few
  passes _ h := h
  reset _ _ := trivial
  works c d hw h := by
    cases hw with
    | blocks _ _ h1 => exact Chip.lockBounded_few.same h1 h (by decide)
    | clock _ _ h1 => exact Chip.lockBounded_of_par h (Or.inl (h1 .arbiter (by decide)))
    | expired => exact Chip.lockBounded_of_par h (Or.inl (c.same_enterExpired .arbiter (by decide)))
    | loading _ d _ h1 h2 =>
      refine Chip.lockBounded_of_par h (Or.inl ?_)
      rw [h2 .arbiter (by decide), d.same_enterLoading .arbiter (by decide), h1 .arbiter (by decide)]
    | profile => exact Chip.lockBounded_of_par h (Or.inl (c.same_endPhase1 .arbiter (by decide)))
    | lock p => exact Chip.lockBounded_of_par h (c.par_releaseLock p)
    | access p a => exact c.lockBounded_presented p a h
  cycle c p data t h := Chip.lockBounded_of_par h (by rw [Chip.par_cycleEnded]; exact Chip.par_endAccess _ _ _ _)
  tenure c x h := Chip.lockBounded_of_par h (Or.inr (c.par_tenureEnded x))
  given _ _ := trivial
  grants c p h := by
    unfold Chip.grantPort
    split
    · exact h
    · exact Chip.lockBounded_carryOut _ _ _ _ (Chip.lockBounded_host _ _ _ _ _ (by omega) (by omega))

/-- Settles O55: an access in a lock is granted under its bound, and every other grant opens a tenure of one. -/
theorem stepKeepsTheLockBounded : Obligations.StepKeepsTheLockBounded := Chip.lockBounded_lasting.step

end Sys2Proof.Machine
end

section
/-! The countdown and the memory size (O56). -/

namespace Sys2Proof.Machine

/-! ### A write that is taken was not refused -/

theorem Chip.commandWrite_take {n k : Nat} {v : Word} {c : Chip} (h : c.commandWrite n v = .take k) :
    k = n ∧ c.commandRefusal n v = none := by
  unfold Chip.commandWrite at h
  split at h
  · cases h
  · split at h
    · cases h
    · rename_i hr
      cases h
      exact ⟨rfl, hr⟩

theorem Chip.stationVerdict_take {p : Port} {a : Access} {n k : Nat} {c : Chip} (h : c.stationVerdict p a n = .take k) :
    k = n ∧ c.commandRefusal n a.data = none := by
  unfold Chip.stationVerdict at h
  split at h
  · cases h
  · split at h
    · split at h
      · cases h
      · split at h
        · cases h
        · split at h
          · cases h
          · exact Chip.commandWrite_take h
    · repeat' split at h
      all_goals cases h

/-- No word of a table is taken. -/
theorem Chip.tableVerdict_ne_take (p : Port) (a : Access) (t : Table) (k : Nat) (c : Chip) :
    c.tableVerdict p a t ≠ .take k := by
  have hmap : ∀ i w v, c.mapVerdict i w v ≠ .take k := by
    intro i w v
    unfold Chip.mapVerdict
    repeat' split
    all_goals simp
  have hsub : ∀ i w v, c.subscriberVerdict i w v ≠ .take k := by
    intro i w v
    unfold Chip.subscriberVerdict
    repeat' split
    all_goals simp
  have hwrite : ∀ i w v, c.tableWrite t i w v ≠ .take k := by
    intro i w v
    unfold Chip.tableWrite
    split
    · simp
    · split
      · simp
      · split
        · simp
        · split
          · exact hmap _ _ _
          · exact hsub _ _ _
          · simp
  unfold Chip.tableVerdict
  dsimp only
  split
  · simp
  · split
    · simp
    · split
      · simp
      · split
        · simp
        · exact hwrite _ _ _

/-- A write that the ACU takes passes the tests of its command word (R13). -/
theorem Chip.classify_take {p : Port} {a : Access} {k : Nat} {c : Chip} (h : c.classify p a = .take k) :
    c.commandRefusal k a.data = none := by
  unfold Chip.classify at h
  dsimp only at h
  split at h
  · cases h
  · split at h
    · obtain ⟨rfl, hr⟩ := Chip.stationVerdict_take h
      exact hr
    · split at h
      · exact absurd h (c.tableVerdict_ne_take _ _ _ _)
      · repeat' split at h
        all_goals cases h

/-! ### The countdown -/

theorem Chip.countdownArmed_of_tbu {c d : Chip} (h : c.countdownArmed) (hd : d.tbu = c.tbu) : d.countdownArmed := by
  unfold Chip.countdownArmed
  rw [hd]
  exact h

/-- Outside ARMED there is no countdown. -/
theorem Chip.countdownArmed_of_none {c : Chip} (hd : c.tbu.deadline = none) (hh : c.tbu.heartbeat ≠ .armed) :
    c.countdownArmed := by
  simp [Chip.countdownArmed, hd, hh]

theorem Chip.tbu_heartbeatTo (h : Heartbeat) (d : Option Tick) (c : Chip) :
    (c.heartbeatTo h d).tbu = { c.tbu with heartbeat := h, deadline := d } := by
  have h1 : ∀ x : Chip, x.fallbackRequests.tbu = x.tbu := fun x => x.same_fallbackRequests .tbu (by decide)
  unfold Chip.heartbeatTo
  dsimp only
  split
  · rw [h1, Chip.tbu_marking]
  · rw [Chip.tbu_marking]

theorem Chip.tbu_enterExpired (c : Chip) :
    c.enterExpired.tbu = { c.tbu with heartbeat := .expired, deadline := none } := by
  have h1 : ∀ x : Chip, x.fallbackRequests.tbu = x.tbu := fun x => x.same_fallbackRequests .tbu (by decide)
  unfold Chip.enterExpired
  rw [h1]
  rfl

theorem Chip.countdownArmed_enterExpired (c : Chip) : c.enterExpired.countdownArmed :=
  Chip.countdownArmed_of_none (by rw [Chip.tbu_enterExpired]) (by rw [Chip.tbu_enterExpired]; simp)

/-- A HEARTBEAT write that its state takes arms the countdown, keeps it or ends it (R44 to R47). -/
theorem Chip.countdownArmed_heartbeat (code : HeartbeatCode) (q : BitVec 16) (c : Chip)
    (ht : code.takenIn c.tbu.heartbeat = true) : (c.heartbeat code q).countdownArmed := by
  have hx := c.countdownArmed_enterExpired
  have hto : ∀ (x : Chip) (hb : Heartbeat) (d : Option Tick), (d.isSome = true ↔ hb = .armed) →
      (x.heartbeatTo hb d).countdownArmed := by
    intro x hb d hd
    unfold Chip.countdownArmed
    rw [Chip.tbu_heartbeatTo]
    exact hd
  cases code with
  | arm => exact hto _ _ _ (by simp [Chip.heartbeatDeadline])
  | feed =>
    unfold Chip.heartbeat
    dsimp only
    split
    · have hb : c.tbu.heartbeat = .armed := by
        cases hc : c.tbu.heartbeat <;> rw [hc] at ht <;> first | rfl | cases ht
      simpa [Chip.countdownArmed, Chip.heartbeatDeadline] using hb
    · exact hx
  | pause => exact hto _ _ _ (by decide)
  | expire => exact hx
  | disarm => exact hto _ _ _ (by decide)

theorem Chip.countdownArmed_enterLoading (c : Chip) : c.enterLoading.countdownArmed := by
  unfold Chip.countdownArmed Chip.enterLoading
  simp

theorem Chip.countdownArmed_enterStopping (c : Chip) : c.enterStopping.countdownArmed := by
  have h1 : c.enterStopping.tbu = c.beginStopping.tbu := c.beginStopping.same_endStopping .tbu (by decide)
  have h2 : c.beginStopping.tbu = { c.tbu with heartbeat := .disarmed, deadline := none } := by
    unfold Chip.beginStopping
    dsimp only
    rw [(Chip.same_stopSweeps _) .tbu (by decide), Chip.tbu_heartbeatTo]
    exact congrArg (fun x : Tbu => { x with heartbeat := .disarmed, deadline := none })
      (c.same_cancelTake .tbu (by decide))
  exact Chip.countdownArmed_of_none (by rw [h1, h2]) (by rw [h1, h2]; simp)

theorem Chip.countdownArmed_takeCommand (n : Nat) (p : Port) (v : Word) (c : Chip) (h : c.countdownArmed)
    (ht : c.commandRefusal n v = none) : (c.takeCommand n p v).countdownArmed := by
  unfold Chip.takeCommand
  split
  · unfold Chip.takeControl
    split
    · exact c.countdownArmed_enterLoading
    · exact c.countdownArmed_enterStopping
    · exact h
  · unfold Chip.takeHeartbeat
    change c.heartbeatRefusal v = none at ht
    unfold Chip.heartbeatRefusal at ht
    cases hr : c.isRunning
    · simp [hr] at ht
    · cases hc : heartbeatCodeOf v with
      | none => exact h
      | some code => exact c.countdownArmed_heartbeat code _ (by simpa [hr, hc] using ht)
  · unfold Chip.takeTake
    split
    · exact Chip.countdownArmed_of_tbu h (c.same_takeWalk .tbu (by decide))
    · exact Chip.countdownArmed_of_tbu h (c.same_cancelTake .tbu (by decide))
  · exact Chip.countdownArmed_of_tbu h (c.same_beginEvaluation _ _ .tbu (by decide))
  · unfold Chip.setTime
    have h1 : ∀ x : Chip, x.timeChange.tbu = x.tbu := fun x => x.same_timeChange .tbu (by decide)
    unfold Chip.countdownArmed
    rw [h1, Chip.tbu_marking]
    exact h
  · refine Chip.countdownArmed_of_tbu h ?_
    unfold Chip.takeRelease
    split
    · split <;> rfl
    · rfl
  · exact h
  · exact h

theorem Chip.countdownArmed_few : Chip.SeesFew Chip.countdownArmed :=
  fun _ _ _ _ ht h => Chip.countdownArmed_of_tbu h ht

/-- An access carried out as it was classified in the same part (R19). -/
theorem Chip.countdownArmed_carryOut (p : Port) (a : Access) (c : Chip) (h : c.countdownArmed) :
    (c.carryOut p a (c.classify p a)).countdownArmed := by
  have hend : ∀ (e : Bool) (d : Word) (x : Chip), x.countdownArmed → (Chip.endAccess p e d x).countdownArmed :=
    fun e d x hx => Chip.countdownArmed_of_tbu hx ((Chip.same_endAccess p e d x) .tbu (by cases p <;> decide))
  have hput : ∀ k, (c.putAccess p a k).tbu = c.tbu := fun k => Chip.withPort_tbu p _ c
  cases hv : c.classify p a with
  | refuse k => exact hend _ _ _ (Chip.countdownArmed_of_tbu h (c.same_noteRefusal k p a.addr .tbu (by decide)))
  | pass t => exact Chip.countdownArmed_of_tbu h (hput _)
  | answer d drop => cases drop <;> exact hend _ _ _ h
  | hold => exact Chip.countdownArmed_of_tbu h (hput .held)
  | take n => exact hend _ _ _ (c.countdownArmed_takeCommand n p a.data h (Chip.classify_take hv))

/-- The pieces that the break of a lock changes (R5). -/
theorem Chip.same_breakLock (p : Port) (a : Access) (c : Chip) :
    Chip.Same (portPiece p :: .arbiter :: commandPieces) c (c.breakLock p a) := by
  unfold Chip.breakLock Chip.refuseAccess
  dsimp only
  refine Chip.Same.then ?_ ((Chip.same_endAccess _ _ _ _).mono (by simp))
  refine Chip.Same.then ?_ ((Chip.same_noteRefusal _ _ _ _).mono (by simp [commandPieces]))
  refine Chip.Same.then ?_ ((Chip.same_raise _ _).mono (by simp [commandPieces]))
  refine Chip.Same.then ?_ ((Chip.same_count _ _).mono (by simp [commandPieces]))
  exact ((c.same_withPar _).mono (by simp)).then ((Chip.same_withPort _ _ _).mono (by simp))

theorem Chip.countdownArmed_presented (p : Port) (a : Access) (c : Chip) (h : c.countdownArmed) :
    (c.presented p a).countdownArmed := by
  have hw : (c.withWaiting p a).countdownArmed := Chip.countdownArmed_of_tbu h (Chip.withPort_tbu p _ c)
  unfold Chip.presented
  split
  · split
    · unfold Chip.lockedAccess
      split
      · exact Chip.countdownArmed_carryOut _ _ _ hw
      · unfold Chip.breakLock Chip.refuseAccess
        dsimp only
        refine Chip.countdownArmed_of_tbu hw ?_
        rw [(Chip.same_endAccess _ _ _ _) .tbu (by cases p <;> decide), (Chip.same_noteRefusal _ _ _ _) .tbu (by decide)]
        cases p <;> rfl
    · exact hw
  · exact hw

theorem Chip.countdownArmed_lasting : Chip.Lasting Chip.countdownArmed where
  few := Chip.countdownArmed_few
  passes _ h := h
  reset _ _ := Chip.countdownArmed_of_none rfl (by simp [Chip.atReset, Chip.reset, Tbu.reset])
  works c d hw h := by
    cases hw with
    | blocks _ _ h1 => exact Chip.countdownArmed_few.same h1 h (by decide)
    | clock _ _ h1 hb hd => simpa [Chip.countdownArmed, hb, hd] using h
    | expired => exact c.countdownArmed_enterExpired
    | loading _ d _ h1 h2 =>
      exact Chip.countdownArmed_of_tbu d.countdownArmed_enterLoading (h2 .tbu (by decide))
    | profile => exact Chip.countdownArmed_of_tbu h (c.same_endPhase1 .tbu (by decide))
    | lock p => exact Chip.countdownArmed_of_tbu h (c.same_releaseLock p .tbu (by cases p <;> decide))
    | access p a => exact c.countdownArmed_presented p a h
  cycle c p data t h := Chip.countdownArmed_of_tbu h (c.same_cycleEnded p data t .tbu (by cases p <;> decide))
  tenure c x h := Chip.countdownArmed_of_tbu h (c.same_tenureEnded x .tbu (by decide))
  given _ h := h
  grants c p h := by
    unfold Chip.grantPort
    split
    · exact h
    · exact Chip.countdownArmed_carryOut _ _ _ h

/-! ### The memory size -/

theorem Chip.mapSized_of_map {c d : Chip} (h : c.mapSized) (hd : d.map = c.map) : d.mapSized := by
  unfold Chip.mapSized
  rw [hd]
  exact h

theorem Chip.mapSized_of_reset {c : Chip} (h : c.map = .reset) : c.mapSized := by
  unfold Chip.mapSized
  rw [h]
  decide

theorem LoadFault.setIf_eq_zero (f : LoadFault) (b : Bool) : f.setIf b = 0#11 ↔ b = false := by
  cases b
  · exact ⟨fun _ => rfl, fun _ => rfl⟩
  · cases f <;> decide

/-- A profile without a fault has a memory size of 1 to 16 MiB (R27). -/
theorem Profile.sizeValid_of_faults (p : Profile) (h : p.faults = 0) : p.sizeValid = true := by
  have hc : p.countFails = false := by
    unfold Profile.faults at h
    split at h
    · change p.fieldFaults = 0#11 at h
      simp only [Profile.fieldFaults, BitVec.or_eq_zero_iff, LoadFault.setIf_eq_zero] at h
      obtain ⟨⟨⟨⟨⟨⟨⟨_, _⟩, hc⟩, _⟩, _⟩, _⟩, _⟩, _⟩ := h
      exact hc
    · exact absurd h (by decide)
  simp only [Profile.countFails, Bool.or_eq_false_iff, Bool.not_eq_false'] at hc
  obtain ⟨⟨⟨⟨⟨hs, _⟩, _⟩, _⟩, _⟩, _⟩ := hc
  exact hs

/-- Presenting an access leaves every piece but those that carrying one out can change. -/
theorem Chip.same_presented (p : Port) (a : Access) (c : Chip) :
    Chip.Same (portPiece p :: .arbiter :: commandPieces) c (c.presented p a) := by
  have hw : Chip.Same (portPiece p :: .arbiter :: commandPieces) c (c.withWaiting p a) :=
    (c.same_withPort p _).mono (by simp)
  unfold Chip.presented
  split
  · split
    · refine hw.then ?_
      unfold Chip.lockedAccess
      split
      · exact ((Chip.same_withPar _ _).mono (by simp)).then (Chip.same_carryOut _ _ _ _)
      · exact Chip.same_breakLock _ _ _
    · exact hw
  · exact hw

theorem Chip.mapSized_endPhase1 (c : Chip) : c.endPhase1.mapSized := by
  unfold Chip.endPhase1
  dsimp only
  split
  · rename_i hf
    have hs := Profile.sizeValid_of_faults _ hf
    simp only [Profile.sizeValid, Bool.and_eq_true, decide_eq_true_eq] at hs
    obtain ⟨h1, h2⟩ := hs
    simp only [Chip.mapSized, Chip.markStatus, Profile.map]
    omega
  · exact Chip.mapSized_of_reset ((Chip.same_enterLoadFault _ _) .map (by decide))

theorem Chip.mapSized_lasting : Chip.Lasting Chip.mapSized where
  few := fun _ _ _ hm _ h => Chip.mapSized_of_map h hm
  passes _ h := h
  reset _ _ := Chip.mapSized_of_reset rfl
  works c d hw h := by
    cases hw with
    | blocks _ _ h1 => exact Chip.mapSized_of_map h (h1 .map (by decide))
    | clock _ _ h1 => exact Chip.mapSized_of_map h (h1 .map (by decide))
    | expired => exact Chip.mapSized_of_map h (c.same_enterExpired .map (by decide))
    | loading _ d _ h1 h2 =>
      refine Chip.mapSized_of_map h ?_
      rw [h2 .map (by decide), d.same_enterLoading .map (by decide), h1 .map (by decide)]
    | profile => exact c.mapSized_endPhase1
    | lock p => exact Chip.mapSized_of_map h (c.same_releaseLock p .map (by cases p <;> decide))
    | access p a => exact Chip.mapSized_of_map h (c.same_presented p a .map (by cases p <;> decide))
  cycle c p data t h := Chip.mapSized_of_map h (c.same_cycleEnded p data t .map (by cases p <;> decide))
  tenure c x h := Chip.mapSized_of_map h (c.same_tenureEnded x .map (by decide))
  given _ h := h
  grants c p h := by
    unfold Chip.grantPort
    split
    · exact h
    · refine Chip.mapSized_of_map h ?_
      exact (Chip.same_carryOut _ _ _ _) .map (by cases p <;> decide)

/-- Settles O56: HEARTBEAT commands are taken only in the states that R44 to R46 name, and a map is installed only from a
profile that passes the tests of R27. -/
theorem stepKeepsTheCountdownArmedAndTheMapSized : Obligations.StepKeepsTheCountdownArmedAndTheMapSized :=
  ⟨Chip.countdownArmed_lasting.step, Chip.mapSized_lasting.step⟩

end Sys2Proof.Machine
end

section
/-! The reset line (O3, O4, O52), the bytes of a write (O6) and the presentation of accesses (O7). -/

namespace Sys2Proof.Machine

/-! ### The reset line -/

@[simp] theorem PortState.lockIgnored_atReset (x : PortState) (m : Memory) : (x.atReset m).lockIgnored = false := by
  unfold PortState.atReset
  split <;> rfl

@[simp] theorem PortState.out_atReset (x : PortState) (m : Memory) : (x.atReset m).out = none := by
  unfold PortState.atReset
  split <;> rfl

@[simp] theorem Chip.port_atReset (p : Port) (m : Memory) (c : Chip) : (c.atReset m).port p = (c.port p).atReset m := by
  cases p <;> rfl

/-- The pins and the ports alone tell a part held in reset from the reset state. -/
theorem Chip.same_atReset (m : Memory) (c : Chip) : Chip.Same [.lines, .portA, .portB] Chip.reset (c.atReset m) := by
  intro x hx
  cases x <;> first | exact absurd (by decide) hx | rfl | exact ⟨rfl, rfl⟩

theorem exec_resetAssert (s : State) (k : Nat) (h : s.chip.resetLow = false) :
    exec (.resetAssert k) s =
      .next { s with chip := s.chip.atReset s.mem, mem := s.chip.memoryAtReset k s.mem } := by
  simp [exec, execResetAssert, h]

theorem Chip.reset_counter (k : Counter) : Chip.reset.rpu.counter k = 0 := by cases k <;> rfl

/-- Settles O3: the reset state by its definition, and a part held in reset by `Chip.atReset`. -/
theorem resetLeaves : Obligations.ResetLeaves := by
  constructor
  · refine ⟨rfl, rfl, rfl, rfl, rfl, rfl, fun p => ?_, rfl, rfl, rfl, rfl, rfl, rfl, rfl, rfl, rfl, rfl, rfl, rfl, rfl, rfl,
      rfl, rfl, rfl, rfl, rfl, rfl, rfl, rfl, rfl, rfl, rfl, rfl, rfl, rfl, rfl, rfl, rfl, rfl, rfl, rfl, rfl, rfl, rfl, rfl,
      rfl, rfl, rfl, Chip.reset_counter, rfl, rfl, rfl⟩
    cases p <;> rfl
  · intro s k h
    exact ⟨_, exec_resetAssert s k h, s.chip.same_atReset s.mem, rfl, fun p => by simp⟩

/-- The access whose memory cycle runs is that of the port that holds the memory port. -/
theorem Chip.inMemory_iff (c : Chip) (p : Port) (a : Access) (t : Option Trigger) :
    c.inMemory = some (p, a, t) ↔
      ∃ l n, c.par.holder = .host p l n ∧ (c.port p).out = some ⟨a, .inMemory t⟩ := by
  unfold Chip.inMemory
  constructor
  · intro h
    split at h
    · rename_i q l n hh
      split at h
      · rename_i b tr ho
        cases h
        exact ⟨l, n, hh, ho⟩
      · cases h
    · cases h
  · rintro ⟨l, n, hh, ho⟩
    simp only [hh, ho]

/-- Settles O4: `Chip.memoryAtReset` for the memory, `PortState.atReset` for the ports. -/
theorem resetLineEndsEveryTenure : Obligations.ResetLineEndsEveryTenure := by
  intro s k h
  refine ⟨_, exec_resetAssert s k h, rfl, rfl, ?_, ?_, ?_, ?_, rfl, rfl, rfl, rfl, rfl, rfl, Chip.reset_counter⟩
  · intro x hx
    simp [Chip.memoryAtReset, hx]
  · intro hn p a tr hm
    obtain ⟨l, n, -, ho⟩ := (s.chip.inMemory_iff p a tr).1 hm
    refine ⟨by simp [Chip.memoryAtReset, hn, hm], by simp, ?_⟩
    simp [PortState.atReset, ho]
  · intro hn hm
    simp [Chip.memoryAtReset, hn, hm]
  · rintro p a (ho | ho)
    · exact ⟨by simp, 0, by simp [PortState.atReset, ho]⟩
    · exact ⟨by simp, 0, by simp [PortState.atReset, ho]⟩

theorem Chip.reset_collected : Chip.reset.collected :=
  ⟨by decide, by decide, by decide, by decide, by decide, fun _ => rfl, fun h => absurd h (by decide),
    fun _ h => by cases h⟩

/-- Settles O52: the reset state satisfies each invariant by evaluation of its own definition. -/
theorem invariantsHoldAtReset : Obligations.InvariantsHoldAtReset :=
  ⟨rfl, Or.inl rfl, trivial, Chip.countdownArmed_of_none rfl (by decide), Chip.mapSized_of_reset rfl,
    Chip.reset_collected, fun _ h => by cases h⟩

/-! ### The bytes of a write -/

/-- The address of a lane of a word. -/
def laneAddr (a : Addr) (lane : Nat) : Nat := (a + BitVec.ofNat 24 lane).toNat

theorem laneAddr_inj (a : Addr) {l k : Nat} (hl : l < 4) (hk : k < 4) (h : laneAddr a l = laneAddr a k) : l = k := by
  simp only [laneAddr, BitVec.toNat_add, BitVec.toNat_ofNat] at h
  have := a.isLt
  omega

theorem Memory.readByte_writeLane_same (m : Memory) (a : Addr) (e : BitVec 4) (d : Word) (l : Nat) (h : m.wf = true)
    (he : e.getLsbD l = true) : (m.writeLane a e d l).readByte (laneAddr a l) = field d (8 * l) 8 := by
  rw [Memory.readByte_writeLane _ _ _ _ _ _ h, if_pos ⟨he, rfl⟩]

/-- A lane leaves every byte but its own, and its own too where its enable is clear. -/
theorem Memory.readByte_writeLane_other (m : Memory) (a : Addr) (e : BitVec 4) (d : Word) (l b : Nat) (h : m.wf = true)
    (hb : e.getLsbD l = true → b ≠ laneAddr a l) : (m.writeLane a e d l).readByte b = m.readByte b := by
  rw [Memory.readByte_writeLane _ _ _ _ _ _ h, if_neg fun hh => hb hh.1 hh.2]

/-- The four lanes of a write, in their order. -/
theorem Memory.writeEnabled_eq_foldl (m : Memory) (a : Addr) (e : BitVec 4) (d : Word) :
    m.writeEnabled a e d = (List.range 4).foldl (fun m l => m.writeLane a e d l) m := rfl

theorem Memory.wf_foldl_writeLane (m : Memory) (a : Addr) (e : BitVec 4) (d : Word) (n : Nat) (h : m.wf = true) :
    ((List.range n).foldl (fun m l => m.writeLane a e d l) m).wf = true := by
  induction n with
  | zero => exact h
  | succ n ih =>
    rw [List.range_succ, List.foldl_append]
    exact Memory.wf_writeLane _ _ _ _ _ ih

/-- Bytes outside the enabled lanes stay. -/
theorem Memory.readByte_foldl_other (m : Memory) (a : Addr) (e : BitVec 4) (d : Word) (n b : Nat) (h : m.wf = true)
    (hb : ∀ l, l < n → e.getLsbD l = true → b ≠ laneAddr a l) :
    ((List.range n).foldl (fun m l => m.writeLane a e d l) m).readByte b = m.readByte b := by
  induction n with
  | zero => rfl
  | succ n ih =>
    rw [List.range_succ, List.foldl_append]
    refine (Memory.readByte_writeLane_other _ _ _ _ _ _ (Memory.wf_foldl_writeLane _ _ _ _ _ h) (hb n (by omega))).trans ?_
    exact ih fun l hl => hb l (by omega)

/-- An enabled lane reads what was written there: no later lane names its byte. -/
theorem Memory.readByte_foldl_lane (m : Memory) (a : Addr) (e : BitVec 4) (d : Word) (n l : Nat) (h : m.wf = true)
    (hn : n ≤ 4) (hl : l < n) (he : e.getLsbD l = true) :
    ((List.range n).foldl (fun m l => m.writeLane a e d l) m).readByte (laneAddr a l) = field d (8 * l) 8 := by
  induction n with
  | zero => omega
  | succ n ih =>
    rw [List.range_succ, List.foldl_append]
    by_cases hln : l = n
    · subst hln
      exact Memory.readByte_writeLane_same _ _ _ _ _ (Memory.wf_foldl_writeLane _ _ _ _ _ h) he
    · refine (Memory.readByte_writeLane_other _ _ _ _ _ _ (Memory.wf_foldl_writeLane _ _ _ _ _ h) ?_).trans
        (ih (by omega) (by omega))
      exact fun _ hh => hln (laneAddr_inj a (by omega) (by omega) hh)

/-- Settles O6: the lanes of a word lie at distinct addresses. -/
theorem writesStoreTheEnabledBytes : Obligations.WritesStoreTheEnabledBytes := by
  intro m a e d h
  rw [Memory.writeEnabled_eq_foldl]
  exact ⟨fun l hl he => Memory.readByte_foldl_lane m a e d 4 l h (by omega) hl he,
    fun b hb => Memory.readByte_foldl_other m a e d 4 b h hb⟩

/-! ### Presenting an access -/

/-- A command that is an access does what PORT_ACCESS does with it (log 9). -/
theorem exec_accessOf (i : Instr) (p : Port) (a : Access) (s : State) (h : accessOf i = some (p, a)) :
    exec i s = s.access p a := by
  cases i
  case logClear part =>
    cases part
    case command => cases h; rfl
    case tenure => cases h
  all_goals first | (cases h; rfl) | cases h

theorem State.access_busy (s : State) (p : Port) (a : Access) (h : (s.chip.port p).out.isSome = true) :
    s.access p a = .fault (.portBusy p) := by
  simp [State.access, h]

theorem State.access_next (s : State) (p : Port) (a : Access) (h : (s.chip.port p).out = none) :
    s.access p a = .next { s with chip := (s.chip.presented p a).settle } := by
  rw [State.access, if_neg (by simp [h]), Chip.presentAccess_eq]

@[simp] theorem Chip.port_withWaiting (p : Port) (a : Access) (c : Chip) :
    (c.withWaiting p a).port p = ⟨some ⟨a, .waiting⟩, (c.port p).lockIgnored && a.lock, none⟩ := Chip.port_withPort _ _ _

@[simp] theorem Chip.par_withWaiting (p : Port) (a : Access) (c : Chip) : (c.withWaiting p a).par = c.par :=
  Chip.withPort_par _ _ _

theorem Chip.same_withWaiting (p : Port) (a : Access) (c : Chip) : Chip.Same [portPiece p] c (c.withWaiting p a) :=
  c.same_withPort p _

/-- While another claimant holds the memory port, an access waits (R3). -/
theorem Chip.presented_waits (p : Port) (a : Access) (c : Chip)
    (h : c.par.holder = .tau ∨ ∃ l n, c.par.holder = .host (otherPort p) l n) : c.presented p a = c.withWaiting p a := by
  unfold Chip.presented
  rcases h with h | ⟨l, n, h⟩
  · rw [h]
  · rw [h]
    cases l with
    | false => rfl
    | true => exact if_neg (by cases p <;> decide)

/-- Settles O7: a port whose access is outstanding presents none, and an access waits while the memory port is held. -/
theorem accessesArePresented : Obligations.AccessesArePresented := by
  constructor
  · intro i p a s h
    rw [exec_accessOf i p a s h]
    exact ⟨rfl, s.access_busy p a⟩
  · intro s p a _ ho hh
    have hw := s.chip.presented_waits p a hh
    have held : (s.chip.withWaiting p a).par.holder ≠ .free := by
      rw [Chip.par_withWaiting]
      rcases hh with hh | ⟨l, n, hh⟩ <;> rw [hh] <;> simp
    refine ⟨_, s.access_next p a ho, rfl, rfl, ?_⟩
    have hport : ((s.chip.presented p a).settle).port p =
        ⟨some ⟨a, .waiting⟩, (s.chip.port p).lockIgnored && a.lock, none⟩ := by
      rw [hw, Chip.settle_held _ held, (Chip.same_present _).port p (by cases p <;> decide), Chip.port_withWaiting]
    have hsame : Chip.Same [portPiece p, .requests, .jobs] s.chip (s.chip.presented p a).settle := by
      rw [hw, Chip.settle_held _ held]
      exact (s.chip.same_withWaiting p a).trans (Chip.same_present _) (by simp) (by simp)
    exact ⟨by rw [State.with_chip_chip, hport], by rw [State.with_chip_chip, hport], hsame⟩

end Sys2Proof.Machine
end

section
/-! What the ACU decides (O12, O13): one equation for each kind of region, and the branches of station and table words. -/

namespace Sys2Proof.Machine

/-! ### Regions (R10) -/

theorem Chip.classify_above (p : Port) (a : Access) (c : Chip) (h : c.map.memSize ≤ (wordAddr a.addr).toNat) :
    c.classify p a = .refuse .range := by
  simp [Chip.classify, h]

theorem Chip.classify_station (p : Port) (a : Access) (c : Chip) (h : (wordAddr a.addr).toNat < c.map.memSize)
    (hs : (wordAddr a.addr).toNat < 0x400) : c.classify p a = c.stationVerdict p a ((wordAddr a.addr).toNat / 4) := by
  unfold Chip.classify
  dsimp only
  rw [if_neg (by omega), if_pos hs]

theorem Chip.classify_table (p : Port) (a : Access) (t : Table) (c : Chip) (h : (wordAddr a.addr).toNat < c.map.memSize)
    (hs : 0x400 ≤ (wordAddr a.addr).toNat) (ht : c.tableOf (wordAddr a.addr).toNat = some t) :
    c.classify p a = c.tableVerdict p a t := by
  unfold Chip.classify
  dsimp only
  rw [if_neg (by omega), if_neg (by omega), ht]

/-- A guard region holds a byte address. -/
def Guard.holds (g : Guard) (w : Nat) : Bool := decide (g.base ≤ w) && decide (w < g.base + g.size)

theorem Guard.holds_iff (g : Guard) (w : Nat) : g.holds w = true ↔ g.base ≤ w ∧ w < g.base + g.size := by
  simp [Guard.holds]

/-- Outside the tables the first guard region that holds the address decides by its right; open memory passes. -/
theorem Chip.classify_guard (p : Port) (a : Access) (c : Chip) (h : (wordAddr a.addr).toNat < c.map.memSize)
    (hs : 0x400 ≤ (wordAddr a.addr).toNat) (ht : c.tableOf (wordAddr a.addr).toNat = none) :
    c.classify p a = match c.map.guards.find? fun g => g.holds (wordAddr a.addr).toNat with
      | some g => if (g.right p).admits a.write then .pass none else .refuse .noRight
      | none => .pass none := by
  unfold Chip.classify
  dsimp only
  rw [if_neg (by omega), if_neg (by omega), ht]
  rfl

theorem Chip.classify_open (p : Port) (a : Access) (c : Chip) (h : (wordAddr a.addr).toNat < c.map.memSize)
    (hs : 0x400 ≤ (wordAddr a.addr).toNat) (ht : c.tableOf (wordAddr a.addr).toNat = none)
    (hg : ∀ g ∈ c.map.guards, g.holds (wordAddr a.addr).toNat = false) : c.classify p a = .pass none := by
  rw [c.classify_guard p a h hs ht, List.find?_eq_none.2 (by simpa using hg)]

/-- Where every guard region that holds the address gives the port one right, that right decides alone. -/
theorem Chip.classify_guarded (p : Port) (a : Access) (r : Right) (c : Chip)
    (h : (wordAddr a.addr).toNat < c.map.memSize) (hs : 0x400 ≤ (wordAddr a.addr).toNat)
    (ht : c.tableOf (wordAddr a.addr).toNat = none) (hex : ∃ g ∈ c.map.guards, g.holds (wordAddr a.addr).toNat = true)
    (hr : ∀ g ∈ c.map.guards, g.holds (wordAddr a.addr).toNat = true → g.right p = r) :
    c.classify p a = if r.admits a.write then .pass none else .refuse .noRight := by
  rw [c.classify_guard p a h hs ht]
  cases hf : c.map.guards.find? fun g => g.holds (wordAddr a.addr).toNat with
  | none =>
    obtain ⟨g, hg, hh⟩ := hex
    exact absurd hh (List.find?_eq_none.1 hf g hg)
  | some g =>
    dsimp only
    rw [hr g (List.mem_of_find?_eq_some hf) (by simpa using List.find?_some hf)]

@[simp] theorem Right.admits_readWrite (w : Bool) : Right.readWrite.admits w = true := rfl
@[simp] theorem Right.admits_read (w : Bool) : Right.read.admits w = !w := rfl
@[simp] theorem Right.admits_none (w : Bool) : Right.none.admits w = false := rfl

/-! ### The states in which the tables are watched (R15) -/

theorem Chip.watched_iff (c : Chip) : c.watched = true ↔
    c.lcc.lifecycle = .loading ∨ c.lcc.lifecycle = .running ∨ c.lcc.lifecycle = .stopping := by
  simp [Chip.watched, Chip.working]

theorem Chip.not_watched_iff (c : Chip) : c.watched = false ↔
    c.lcc.lifecycle = .offline ∨ c.lcc.lifecycle = .loadFault ∨ c.lcc.lifecycle = .stopped := by
  unfold Chip.watched Chip.working
  cases c.lcc.lifecycle <;> decide

/-! ### Station words (R13, R14, R20) -/

theorem Chip.stationVerdict_unused (p : Port) (a : Access) (n : Nat) (c : Chip) (h1 : 72 ≤ n) (h2 : n < 80) :
    c.stationVerdict p a n = .refuse .range := by
  simp [Chip.stationVerdict, h1, h2]

theorem accessPartial_iff (a : Access) : accessPartial a = true ↔ a.enables ≠ 0xF := by simp [accessPartial]

/-- A command word: the permission first, then a read is answered, a partial write refused, a whole one tested. -/
theorem Chip.stationVerdict_command (p : Port) (a : Access) (n : Nat) (c : Chip) (h1 : 64 ≤ n) (h2 : n < 72) :
    c.stationVerdict p a n =
      if (c.map.permits p).getLsbD (n - 64) = false then .refuse .noRight
      else if a.write = false then .answer (c.readCommand n) (n = 71)
      else if a.enables ≠ 0xF then .refuse .partialWrite
      else c.commandWrite n a.data := by
  have h3 : ¬72 ≤ n := by omega
  simp only [Chip.stationVerdict, h1, h2, h3, ← accessPartial_iff, decide_false, decide_true, Bool.false_and,
    Bool.and_self, Bool.false_eq_true, if_false, if_true, Bool.not_eq_true']

/-- A profile word, or a word of the report area. -/
theorem Chip.stationVerdict_memory (p : Port) (a : Access) (n : Nat) (c : Chip) (h : n < 64 ∨ 80 ≤ n) :
    c.stationVerdict p a n =
      if a.write = false then .pass none
      else if a.enables ≠ 0xF then .refuse .partialWrite
      else if 80 ≤ n then .refuse .owner
      else if c.watched then .refuse .tableLocked
      else .pass none := by
  have h1 : (decide (72 ≤ n) && decide (n < 80)) = false := by simp; omega
  have h2 : (decide (64 ≤ n) && decide (n < 72)) = false := by simp; omega
  simp only [Chip.stationVerdict, h1, h2, ← accessPartial_iff, Bool.false_eq_true, if_false, Bool.not_eq_true']

/-! ### Table words (R11, R12, R14, R15) -/

theorem Chip.tableVerdict_open (p : Port) (a : Access) (t : Table) (c : Chip) (h : c.watched = false) :
    c.tableVerdict p a t = .pass none := by
  simp [Chip.tableVerdict, h]

/-- A word of a watched table: the port's right first, then a read passes, a partial write is refused. -/
theorem Chip.tableVerdict_watched (p : Port) (a : Access) (t : Table) (c : Chip) (h : c.watched = true) :
    c.tableVerdict p a t =
      if ((c.placement t).right p).admits a.write = false then .refuse .noRight
      else if a.write = false then .pass none
      else if a.enables ≠ 0xF then .refuse .partialWrite
      else c.tableWrite t (((wordAddr a.addr).toNat - (c.placement t).base) / t.recordSize)
        (((wordAddr a.addr).toNat - (c.placement t).base) % t.recordSize / 4) a.data := by
  simp only [Chip.tableVerdict, h, ← accessPartial_iff, Bool.not_true, Bool.false_eq_true, if_false, Bool.not_eq_true']

/-! ### Partial enables -/

/-- A read is a read of the whole word, whatever its enables (R14). -/
theorem Chip.classify_read_enables (p : Port) (a : Access) (e : BitVec 4) (c : Chip) (h : a.write = false) :
    c.classify p { a with enables := e } = c.classify p a := by
  have hs : ∀ n, c.stationVerdict p { a with enables := e } n = c.stationVerdict p a n := by
    intro n
    simp [Chip.stationVerdict, h]
  have ht : ∀ t, c.tableVerdict p { a with enables := e } t = c.tableVerdict p a t := by
    intro t
    simp [Chip.tableVerdict, h]
  simp only [Chip.classify, hs, ht]

theorem Memory.returned_enables (m : Memory) (a : Access) (e : BitVec 4) :
    m.returned { a with enables := e } = m.returned a := rfl

theorem Chip.classify_partial_station (p : Port) (a : Access) (c : Chip) (hw : a.write = true) (he : a.enables ≠ 0xF)
    (h : (wordAddr a.addr).toNat < c.map.memSize) (hs : (wordAddr a.addr).toNat < 0x400)
    (hn : (wordAddr a.addr).toNat / 4 < 64 ∨ 80 ≤ (wordAddr a.addr).toNat / 4 ∨
      ((wordAddr a.addr).toNat / 4 < 72 ∧ (c.map.permits p).getLsbD ((wordAddr a.addr).toNat / 4 - 64) = true)) :
    c.classify p a = .refuse .partialWrite := by
  rw [c.classify_station p a h hs]
  generalize (wordAddr a.addr).toNat / 4 = n at hn
  by_cases hc : 64 ≤ n ∧ n < 72
  · have hperm : (c.map.permits p).getLsbD (n - 64) = true := by
      rcases hn with hn | hn | hn
      · omega
      · omega
      · exact hn.2
    rw [c.stationVerdict_command p a n hc.1 hc.2, if_neg (by simp [hperm]), if_neg (by simp [hw]), if_pos he]
  · rw [c.stationVerdict_memory p a n (by omega), if_neg (by simp [hw]), if_pos he]

/-- Settles O12: by region, the tests before PARTIAL in the report order held. -/
theorem partialWritesAreRefused : Obligations.PartialWritesAreRefused := by
  intro c p a
  refine ⟨fun hw e => ⟨c.classify_read_enables p a e hw, fun m => m.returned_enables a e⟩, fun hw he h => ⟨?_, ?_, ?_⟩⟩
  · exact fun hs hn => c.classify_partial_station p a hw he h hs hn
  · intro hs t ht
    rw [c.classify_table p a t h hs ht]
    refine ⟨fun hwat hr => ?_, fun hwat => c.tableVerdict_open p a t hwat⟩
    rw [c.tableVerdict_watched p a t hwat, if_neg (by simp [hr]), if_neg (by simp [hw]), if_pos he]
  · intro hs ht hg
    by_cases hex : ∃ g ∈ c.map.guards, g.holds (wordAddr a.addr).toNat = true
    · rw [c.classify_guarded p a .readWrite h hs ht hex fun g hmem hh =>
        (hg g hmem).resolve_left fun hn => hn ((g.holds_iff _).1 hh)]
      rfl
    · exact c.classify_open p a h hs ht fun g hmem => by simpa using fun hh => hex ⟨g, hmem, hh⟩

/-! ### The classes of words -/

/-- The part-owned words of a table (the tables of spec/04 to spec/06, R167). -/
theorem Table.partOwned_iff (t : Table) (word : Nat) : t.partOwned word = true ↔
    (t = .channelMap ∧ (word = 4 ∨ word = 5)) ∨ (t = .subscribers ∧ (word = 2 ∨ word = 3 ∨ word = 4)) ∨
      (t = .nodes ∧ (word = 1 ∨ word = 2)) ∨ t = .outages ∨ t = .chargeLog := by
  cases t <;> simp [Table.partOwned, or_assoc]

theorem Chip.tableWrite_owned (t : Table) (i word : Nat) (v : Word) (c : Chip) (h : t.partOwned word = true) :
    c.tableWrite t i word v = .refuse .owner := by
  simp [Chip.tableWrite, h]

theorem Chip.tableWrite_nodes (i word : Nat) (v : Word) (c : Chip) (h : Table.nodes.partOwned word = false) :
    c.tableWrite .nodes i word v = .refuse .tableLocked := by
  simp [Chip.tableWrite, h]

theorem Chip.tableWrite_loading (t : Table) (i word : Nat) (v : Word) (c : Chip) (h : t.partOwned word = false)
    (hn : t ≠ .nodes) (hl : c.lcc.lifecycle = .loading) : c.tableWrite t i word v = .refuse .notReady := by
  simp [Chip.tableWrite, h, hn, hl]

/-- Station words by their number (R13, R20). -/
theorem Chip.classify_stationWord (p : Port) (a : Access) (n : Nat) (c : Chip)
    (h : (wordAddr a.addr).toNat < c.map.memSize) (ha : (wordAddr a.addr).toNat = 4 * n) (hn : n < 256) :
    c.classify p a = c.stationVerdict p a n := by
  rw [c.classify_station p a h (by omega), show (wordAddr a.addr).toNat / 4 = n by omega]

/-- Settles O13: by region, each with its own equation. -/
theorem stationAndTableWordsAreClassed : Obligations.StationAndTableWordsAreClassed := by
  refine ⟨fun c p a n => ⟨c.classify_above p a, fun h ha hn => ?_⟩, fun c p a t word hs h ht hword => ⟨?_, ?_⟩,
    fun c p a hs h ht => ⟨?_, ?_⟩⟩
  · rw [c.classify_stationWord p a n h ha hn]
    refine ⟨c.stationVerdict_unused p a n, fun h1 h2 hp => ?_, fun hm hw => ?_, fun hm hw he => ?_, fun hm hw he => ?_⟩
    · rw [c.stationVerdict_command p a n h1 h2, if_pos hp]
    · rw [c.stationVerdict_memory p a n hm, if_pos hw]
    · rw [c.stationVerdict_memory p a n (Or.inr hm), if_neg (by simp [hw]), if_neg (by simp [he]), if_pos hm]
    · rw [c.stationVerdict_memory p a n (Or.inl hm), if_neg (by simp [hw]), if_neg (by simp [he]), if_neg (by omega)]
      simp only [← c.not_watched_iff]
      cases c.watched <;> rfl
  · intro hl
    rw [c.classify_table p a t h hs ht, c.tableVerdict_open p a t (c.not_watched_iff.2 hl)]
  · intro hl
    rw [c.classify_table p a t h hs ht, c.tableVerdict_watched p a t (c.watched_iff.2 hl), ← hword]
    refine ⟨fun hr => by simp [hr], fun hr hw => by simp [hr, hw], fun hr hw => ?_, fun hr hw he => ?_⟩
    · have hadm : ((c.placement t).right p).admits a.write = true := by
        rw [hw]
        cases hx : (c.placement t).right p <;> first | exact absurd hx hr | rfl
      rw [if_neg (by simp [hadm]), if_pos hw]
    · rw [if_neg (by simp [hr]), if_neg (by simp [hw]), if_neg (by simp [he])]
      simp only [← Table.partOwned_iff]
      refine ⟨c.tableWrite_owned t _ word _, fun hn ho => ?_, fun hn ho hload => ?_⟩
      · subst hn
        exact c.tableWrite_nodes _ word _ (by simpa using ho)
      · exact c.tableWrite_loading t _ word _ (by simpa using ho) hn hload
  · intro hg
    exact c.classify_open p a h hs ht fun g hmem => by
      simpa using fun hh => hg g hmem ((g.holds_iff _).1 hh)
  · intro g hmem hh hsame
    rw [c.classify_guarded p a (g.right p) h hs ht ⟨g, hmem, (g.holds_iff _).2 hh⟩ fun k hk hkh =>
      hsame k hk ((k.holds_iff _).1 hkh)]
    refine ⟨fun hr => by simp [hr], fun hr => ?_, fun hr => by simp [hr]⟩
    rw [hr]
    cases a.write <;> rfl

end Sys2Proof.Machine
end

section
/-! Grants (O8): an access granted when it is presented, the cyclic order of a freed memory port, and what a passed access
leaves. -/

namespace Sys2Proof.Machine

/-! ### Pieces that together are one block -/

theorem Chip.Same.rpu {L : List Piece} {c d : Chip} (h : Chip.Same L c d)
    (hL : .rpu ∉ L ∧ .statusMark ∉ L := by decide) : d.rpu = c.rpu := by
  have h1 : { d.rpu with statusDirty := false } = { c.rpu with statusDirty := false } := h .rpu hL.1
  have h2 : d.rpu.statusDirty = c.rpu.statusDirty := h .statusMark hL.2
  calc d.rpu = { ({ d.rpu with statusDirty := false } : Rpu) with statusDirty := d.rpu.statusDirty } := rfl
    _ = c.rpu := by rw [h1, h2]

theorem Chip.Same.slm {L : List Piece} {c d : Chip} (h : Chip.Same L c d)
    (hL : .slm ∉ L ∧ .jobs ∉ L := by decide) : d.slm = c.slm := by
  have h1 : { d.slm with jobs := [] } = { c.slm with jobs := [] } := h .slm hL.1
  have h2 : d.lcc.jobs = c.lcc.jobs ∧ d.slm.jobs = c.slm.jobs := h .jobs hL.2
  calc d.slm = { ({ d.slm with jobs := [] } : Slm) with jobs := d.slm.jobs } := rfl
    _ = c.slm := by rw [h1, h2.2]

theorem Chip.Same.lcc {L : List Piece} {c d : Chip} (h : Chip.Same L c d)
    (hL : .lcc ∉ L ∧ .jobs ∉ L := by decide) : d.lcc = c.lcc := by
  have h1 : { d.lcc with jobs := [] } = { c.lcc with jobs := [] } := h .lcc hL.1
  have h2 : d.lcc.jobs = c.lcc.jobs ∧ d.slm.jobs = c.slm.jobs := h .jobs hL.2
  calc d.lcc = { ({ d.lcc with jobs := [] } : Lcc) with jobs := d.lcc.jobs } := rfl
    _ = c.lcc := by rw [h1, h2.1]

theorem Chip.Same.clu {L : List Piece} {c d : Chip} (h : Chip.Same L c d)
    (hL : .clu ∉ L ∧ .low ∉ L := by decide) : d.clu = c.clu := by
  have h1 : { d.clu with low := false } = { c.clu with low := false } := h .clu hL.1
  have h2 : d.clu.low = c.clu.low := h .low hL.2
  calc d.clu = { ({ d.clu with low := false } : Clu) with low := d.clu.low } := rfl
    _ = c.clu := by rw [h1, h2]

/-! ### When an access is granted at once -/

theorem Chip.grantsAt_iff (p : Port) (c : Chip) : c.grantsAt p = true ↔
    c.resetLow = false ∧ (c.port p).out = none ∧ (c.port (otherPort p)).waiting = false ∧
      ((c.par.holder = .free ∧ c.requests = [] ∧ c.tau.orders = []) ∨ ∃ n, c.par.holder = .host p true n ∧ n < Config.lockLimit) := by
  unfold Chip.grantsAt
  cases hh : c.par.holder with
  | free => simp [and_assoc]
  | tau => simp
  | host q l n => cases l <;> simp [and_assoc]

/-! ### Requests presented -/

theorem Chip.present_nothing (c : Chip) (h : c.requests = []) : c.present = c := by
  unfold Chip.present
  rw [if_pos (by simp [h])]

/-- Presenting requests bears neither on what is decided of an access nor on its carrying out. -/
theorem Chip.classify_present (p : Port) (a : Access) (c : Chip) : c.present.classify p a = c.classify p a := by
  obtain ⟨x, y, o, h, -⟩ := c.present_eq
  rw [h]
  rfl

theorem Chip.port_present (p : Port) (c : Chip) : c.present.port p = c.port p :=
  c.same_present.port p (by cases p <;> decide)

@[simp] theorem Chip.par_present (c : Chip) : c.present.par = c.par := c.same_present .arbiter (by decide)

@[simp] theorem Chip.resetLow_present (c : Chip) : c.present.resetLow = c.resetLow :=
  c.same_present .resetLine (by decide)

/-- Requests that stand at the TAU stay there. -/
theorem Chip.orders_present_ne_nil (c : Chip) (h : c.tau.orders ≠ []) : c.present.tau.orders ≠ [] := by
  obtain ⟨x, y, o, hp, -, -, -, ho⟩ := c.present_eq
  obtain ⟨b, hb⟩ := List.exists_mem_of_ne_nil _ h
  rw [hp]
  exact List.ne_nil_of_mem (ho b hb)

/-! ### The cyclic order (R3) -/

theorem Chip.nextClaimant_eq (c : Chip) : c.nextClaimant =
    if c.waiting c.par.pointer.after then some c.par.pointer.after
    else if c.waiting c.par.pointer.after.after then some c.par.pointer.after.after
    else if c.waiting c.par.pointer.after.after.after then some c.par.pointer.after.after.after
    else none := by
  simp only [Chip.nextClaimant, List.find?_cons, List.find?_nil]
  cases c.waiting c.par.pointer.after <;> cases c.waiting c.par.pointer.after.after <;>
    cases c.waiting c.par.pointer.after.after.after <;> rfl

theorem PortState.waiting_of_out {x : PortState} {a : Access} (h : x.out = some ⟨a, .waiting⟩) : x.waiting = true := by
  simp [PortState.waiting, h]

@[simp] theorem Chip.waiting_claimant (p : Port) (c : Chip) : c.waiting (Port.claimant p) = (c.port p).waiting := by
  cases p <;> rfl

@[simp] theorem Chip.waiting_tau (c : Chip) : c.waiting .tau = !c.tau.orders.isEmpty := rfl

/-- The part with an access of a port in memory, in a tenure of the port. -/
def Chip.passed (p : Port) (a : Access) (tr : Option Trigger) (x : Par) (c : Chip) : Chip :=
  { c with par := x }.putAccess p a (.inMemory tr)

@[simp] theorem Chip.par_passed (p : Port) (a : Access) (tr : Option Trigger) (x : Par) (c : Chip) :
    (c.passed p a tr x).par = x := Chip.withPort_par _ _ _

theorem Chip.port_passed (p : Port) (a : Access) (tr : Option Trigger) (x : Par) (c : Chip) :
    (c.passed p a tr x).port p = { c.port p with out := some ⟨a, .inMemory tr⟩, answer := none } := by
  cases p <;> rfl

theorem Chip.same_passed (p : Port) (a : Access) (tr : Option Trigger) (x : Par) (c : Chip) :
    Chip.Same [portPiece p, .arbiter] c (c.passed p a tr x) :=
  ((c.same_withPar x).mono (by simp)).then ((Chip.same_withPort p _ _).mono (by simp))

theorem Chip.inMemory_passed (p : Port) (a : Access) (tr : Option Trigger) (l : Bool) (n : Nat) (q : Claimant) (c : Chip) :
    (c.passed p a tr ⟨.host p l n, q⟩).inMemory = some (p, a, tr) := by
  rw [Chip.inMemory_iff]
  exact ⟨l, n, by rw [Chip.par_passed], by rw [Chip.port_passed]⟩

/-- Presenting requests leaves the access in memory. -/
theorem Chip.inMemory_present (c : Chip) : c.present.inMemory = c.inMemory := by
  obtain ⟨x, y, o, h, -⟩ := c.present_eq
  rw [h]
  rfl

/-- The grant to a port whose waiting access passes. -/
theorem Chip.grantPort_passes (p : Port) (a : Access) (tr : Option Trigger) (c : Chip)
    (ho : (c.port p).out = some ⟨a, .waiting⟩) (hc : c.classify p a = .pass tr) :
    c.grantPort p = c.passed p a tr ⟨.host p (a.lock && !(c.port p).lockIgnored) 1, Port.claimant p⟩ := by
  have h : ∀ x : Par, ({ c with par := x } : Chip).classify p a = .pass tr := fun x => hc
  unfold Chip.grantPort
  simp only [ho, h, Chip.carryOut]
  rfl

/-- A free memory port goes to the port that the cyclic order names; its access, which passes, is then in memory, and only
requests follow. -/
theorem Chip.settle_passes (p : Port) (a : Access) (tr : Option Trigger) (c : Chip) (hr : c.resetLow = false)
    (hf : c.par.holder = .free) (hn : c.present.nextClaimant = some (Port.claimant p))
    (ho : (c.port p).out = some ⟨a, .waiting⟩) (hc : c.classify p a = .pass tr) :
    c.settle = (c.present.passed p a tr
      ⟨.host p (a.lock && !(c.port p).lockIgnored) 1, Port.claimant p⟩).present := by
  have hg := c.present.grantPort_passes p a tr (by rw [Chip.port_present]; exact ho)
    (by rw [Chip.classify_present]; exact hc)
  rw [Chip.port_present] at hg
  have h1 : c.settle = Chip.arbitrate 2 (c.present.grantPort p).present := by
    unfold Chip.settle
    conv => lhs; unfold Chip.arbitrate
    rw [if_pos ⟨by simpa using hr, by simpa using hf⟩, hn]
    cases p <;> rfl
  rw [h1, hg]
  exact Chip.arbitrate_held 2 _ (by simp)

/-- What `Chip.settle_passes` leaves, in the terms of the statements. -/
theorem Chip.settle_given (p : Port) (a : Access) (tr : Option Trigger) (c : Chip) (hr : c.resetLow = false)
    (hf : c.par.holder = .free) (hn : c.present.nextClaimant = some (Port.claimant p))
    (ho : (c.port p).out = some ⟨a, .waiting⟩) (hc : c.classify p a = .pass tr) :
    c.givenTo p a tr c.settle ∧ Chip.Same [portPiece p, .arbiter, .requests, .jobs] c c.settle ∧
      (c.settle.port p).out = some ⟨a, .inMemory tr⟩ ∧ (c.settle.port p).answer = none := by
  rw [c.settle_passes p a tr hr hf hn ho hc]
  refine ⟨⟨by simp, ?_⟩, ?_, ?_, ?_⟩
  · rw [Chip.inMemory_present, Chip.inMemory_passed]
  · refine Chip.Same.then ?_ ((Chip.same_present _).mono (by simp))
    exact ((c.same_present).mono (by simp)).then ((Chip.same_passed _ _ _ _ _).mono (by simp))
  · rw [Chip.port_present, Chip.port_passed]
  · rw [Chip.port_present, Chip.port_passed]

/-- A free memory port goes to the TAU where the cyclic order names it. -/
theorem Chip.settle_tau (c : Chip) (hr : c.resetLow = false) (hf : c.par.holder = .free)
    (hn : c.present.nextClaimant = some .tau) : c.settle = { c.present with par := ⟨.tau, .tau⟩ } := by
  unfold Chip.settle Chip.arbitrate
  rw [if_pos ⟨by simpa using hr, by simpa using hf⟩, hn]

/-! ### An access presented -/

/-- A settled part with a free memory port grants the access that a port presents. -/
theorem Chip.nextClaimant_withWaiting (p : Port) (a : Access) (c : Chip) (ho : c.tau.orders = [])
    (hw : (c.port (otherPort p)).waiting = false) :
    (c.withWaiting p a).nextClaimant = some (Port.claimant p) := by
  have h1 : ((c.withWaiting p a).port p).waiting = true := PortState.waiting_of_out (by rw [Chip.port_withWaiting])
  have h2 : ((c.withWaiting p a).port (otherPort p)).waiting = false := by
    rw [(c.same_withWaiting p a).port (otherPort p) (by cases p <;> decide)]
    exact hw
  have h3 : (c.withWaiting p a).tau.orders = [] := by
    rw [(c.same_withWaiting p a) .requests (by cases p <;> decide)]
    exact ho
  have hwait : ∀ y, (c.withWaiting p a).waiting y = decide (y = Port.claimant p) := by
    intro y
    cases p <;> cases y <;> simp_all [Chip.waiting, otherPort, Port.claimant]
  rw [Chip.nextClaimant_eq]
  simp only [hwait]
  cases p <;> cases (c.withWaiting _ a).par.pointer <;> rfl

/-- In a lock the access is granted at once (R4). -/
theorem Chip.presented_locked (p : Port) (a : Access) (n : Nat) (c : Chip) (hh : c.par.holder = .host p true n)
    (hn : n < Config.lockLimit) :
    c.presented p a =
      ({ c.withWaiting p a with par := ⟨.host p a.lock (n + 1), c.par.pointer⟩ } : Chip).carryOut p a
        (c.classify p a) := by
  have hc : ({ c.withWaiting p a with par := ⟨.host p a.lock (n + 1), c.par.pointer⟩ } : Chip).classify p a =
      c.classify p a := Chip.classify_congr p p a _ _ c
  rw [← hc]
  unfold Chip.presented
  rw [hh]
  simp only [if_true, Chip.lockedAccess, hn, Chip.par_withWaiting]

/-- On a free memory port the access waits for the grant that follows. -/
theorem Chip.presented_free (p : Port) (a : Access) (c : Chip) (hh : c.par.holder = .free) :
    c.presented p a = c.withWaiting p a := by
  unfold Chip.presented
  rw [hh]

theorem Chip.classify_withWaiting (p : Port) (a : Access) (c : Chip) :
    (c.withWaiting p a).classify p a = c.classify p a := Chip.classify_withPort p p a _ c

/-- An access granted at once that passes. -/
theorem State.access_passes (s : State) (p : Port) (a : Access) (tr : Option Trigger) (h : s.chip.grantsAt p = true)
    (hc : s.chip.classify p a = .pass tr) :
    ∃ t, s.access p a = .next t ∧ t.mem = s.mem ∧ t.pending = s.pending ∧
      (t.chip.port p).out = some ⟨a, .inMemory tr⟩ ∧ (t.chip.port p).answer = none ∧ t.chip.inMemory = some (p, a, tr) ∧
      Chip.Same [portPiece p, .arbiter, .requests, .jobs] s.chip t.chip ∧
      (s.chip.par.holder = .free → s.chip.givenTo p a tr t.chip) ∧
      (∀ n, s.chip.par.holder = .host p true n → t.chip.par = ⟨.host p a.lock (n + 1), s.chip.par.pointer⟩) := by
  obtain ⟨hr, ho, hw, hh⟩ := (s.chip.grantsAt_iff p).1 h
  refine ⟨_, s.access_next p a ho, rfl, rfl, ?_⟩
  rcases hh with ⟨hh, hreq, hord⟩ | ⟨n, hh, hn⟩
  · rw [s.chip.presented_free p a hh]
    have hsame := s.chip.same_withWaiting p a
    have hpres : (s.chip.withWaiting p a).present = s.chip.withWaiting p a :=
      Chip.present_nothing _ (by cases p <;> exact hreq)
    obtain ⟨⟨hpar, hmem⟩, hs, hout, hans⟩ := Chip.settle_given p a tr (s.chip.withWaiting p a)
      (by rw [hsame .resetLine (by cases p <;> decide)]; exact hr) (by rw [Chip.par_withWaiting]; exact hh)
      (by rw [hpres]; exact s.chip.nextClaimant_withWaiting p a hord hw) (by rw [Chip.port_withWaiting])
      (by rw [Chip.classify_withWaiting]; exact hc)
    refine ⟨hout, hans, hmem, (hsame.mono (by simp)).then hs, fun _ => ⟨?_, hmem⟩, fun n hn => by simp [hh] at hn⟩
    rw [State.with_chip_chip, hpar, Chip.port_withWaiting]
    cases a.lock <;> cases (s.chip.port p).lockIgnored <;> rfl
  · have hp : s.chip.presented p a =
        (s.chip.withWaiting p a).passed p a tr ⟨.host p a.lock (n + 1), s.chip.par.pointer⟩ := by
      rw [s.chip.presented_locked p a n hh hn, hc]
      rfl
    have hset : (s.chip.presented p a).settle = (s.chip.presented p a).present :=
      Chip.settle_held _ (by rw [hp, Chip.par_passed]; simp)
    simp only [hset, Chip.port_present, Chip.inMemory_present, Chip.par_present]
    rw [hp]
    refine ⟨by rw [Chip.port_passed], by rw [Chip.port_passed], Chip.inMemory_passed _ _ _ _ _ _ _, ?_,
      fun hf => by simp [hh] at hf, fun k hk => ?_⟩
    · rw [← hp]
      refine Chip.Same.then ?_ ((Chip.same_present _).mono (by simp))
      rw [hp]
      exact ((s.chip.same_withWaiting p a).mono (by simp)).then ((Chip.same_passed _ _ _ _ _).mono (by simp))
    · rw [hh] at hk
      cases hk
      rw [Chip.par_passed]

/-! ### A memory port that becomes free -/

/-- In RUNNING the end of a tenure that owes nothing and ends no work frees the memory port and does nothing else. -/
theorem Chip.tenureEnded_report (x : Tenure) (c : Chip) (hj : x.job = .report) (ho : x.owed = [])
    (hl : c.lcc.lifecycle = .running) : c.tenureEnded x = c.tauFreed := by
  have hpaid : c.paid x = c.tauFreed := by simp [Chip.paid, ho, hj, Chip.jobEnded]
  have h1 : c.tauFreed.lcc.lifecycle = .running := hl
  have h4 : c.tauFreed.endPhase4 = c.tauFreed := by simp [Chip.endPhase4, Chip.loadingPhase, h1]
  have h5 : c.tauFreed.endPhase5 = c.tauFreed := by
    unfold Chip.endPhase5
    split
    · rfl
    · simp [Chip.loadingPhase, h1]
  have hs : c.tauFreed.canStop = false := by simp [Chip.canStop, h1]
  rw [Chip.tenureEnded, hpaid, h4, h5, Chip.endStopping_goes_on _ hs]

theorem exec_tauTenureEnd (s : State) (x : Tenure) (hh : s.chip.par.holder = .tau) (hx : s.chip.tau.running = some x) :
    exec .tauTenureEnd s =
      .next { s with chip := (s.chip.tenureEnded x).settle, mem := s.mem.applyWrites x.writes } := by
  simp [exec, execTauTenureEnd, hh, hx, Chip.finishTenure_eq]

theorem exec_memoryCycleComplete (s : State) (p : Port) (a : Access) (tr : Option Trigger)
    (h : s.chip.inMemory = some (p, a, tr)) :
    exec .memoryCycleComplete s =
      .next { s with chip := (s.chip.cycleEnded p (s.mem.returned a) tr).settle, mem := s.mem.cycle a } := by
  simp [exec, execMemoryCycleComplete, h, Chip.finishCycle_eq]

/-- The end of an access in a tenure of one frees the memory port. -/
theorem Chip.par_endAccess_unlocked (p : Port) (e : Bool) (d : Word) (n : Nat) (q : Claimant) (c : Chip)
    (h : c.par = ⟨.host p false n, q⟩) : (Chip.endAccess p e d c).par = ⟨.free, q⟩ := by
  have h1 := Chip.holder_endAccess p e d c false n (by rw [h])
  rcases Chip.par_endAccess p e d c with h2 | h2
  · rw [h2, h] at h1
    cases h1
  · rw [h2, h]

theorem Chip.passedAccess_tenure (s : State) (x : Tenure) (hr : s.chip.resetLow = false) (hp : s.chip.par = ⟨.tau, .tau⟩)
    (hx : s.chip.tau.running = some x) (hj : x.job = .report) (ho : x.owed = [])
    (hl : s.chip.lcc.lifecycle = .running) :
    ∃ t, exec .tauTenureEnd s = .next t ∧
      (∀ a tr, s.chip.portA.out = some ⟨a, .waiting⟩ → s.chip.classify .a a = .pass tr →
        s.chip.givenTo .a a tr t.chip ∧ t.chip.portB = s.chip.portB) ∧
      (∀ a tr, s.chip.portA.waiting = false → s.chip.portB.out = some ⟨a, .waiting⟩ → s.chip.classify .b a = .pass tr →
        s.chip.givenTo .b a tr t.chip) ∧
      (s.chip.portA.waiting = false → s.chip.portB.waiting = false → s.chip.tau.orders ≠ [] →
        t.chip.par = ⟨.tau, .tau⟩) := by
  refine ⟨_, exec_tauTenureEnd s x (by rw [hp]) hx, ?_⟩
  simp only [s.chip.tenureEnded_report x hj ho hl]
  have hpt : s.chip.tauFreed.present.par.pointer = .tau := by
    rw [Chip.par_present]
    exact congrArg Par.pointer hp
  have hA : s.chip.tauFreed.present.waiting .portA = s.chip.portA.waiting := by
    exact congrArg PortState.waiting (s.chip.tauFreed.port_present .a)
  have hB : s.chip.tauFreed.present.waiting .portB = s.chip.portB.waiting := by
    exact congrArg PortState.waiting (s.chip.tauFreed.port_present .b)
  have hnext := Chip.nextClaimant_eq s.chip.tauFreed.present
  simp only [hpt, Claimant.after, hA, hB] at hnext
  refine ⟨fun a tr hout hc => ?_, fun a tr hw hout hc => ?_, fun hwa hwb hord => ?_⟩
  · rw [if_pos (PortState.waiting_of_out hout)] at hnext
    obtain ⟨hg, hs, -⟩ := s.chip.tauFreed.settle_given .a a tr hr rfl hnext hout hc
    exact ⟨hg, hs .portB (by decide)⟩
  · rw [if_neg (by simp [hw]), if_pos (PortState.waiting_of_out hout)] at hnext
    exact (s.chip.tauFreed.settle_given .b a tr hr rfl hnext hout hc).1
  · have ht : s.chip.tauFreed.present.waiting .tau = true := by
      simpa using s.chip.tauFreed.orders_present_ne_nil hord
    rw [if_neg (by simp [hwa]), if_neg (by simp [hwb]), if_pos ht] at hnext
    rw [s.chip.tauFreed.settle_tau hr rfl hnext]

theorem Chip.passedAccess_cycle (s : State) (p : Port) (a : Access) (n : Nat) (hr : s.chip.resetLow = false)
    (hp : s.chip.par = ⟨.host p false n, Port.claimant p⟩) (ho : (s.chip.port p).out = some ⟨a, .inMemory none⟩) :
    ∃ t, exec .memoryCycleComplete s = .next t ∧
      (∀ b tr, p = .a → s.chip.portB.out = some ⟨b, .waiting⟩ → s.chip.classify .b b = .pass tr →
        s.chip.givenTo .b b tr t.chip) ∧
      (p = .a → s.chip.portB.waiting = false → s.chip.tau.orders ≠ [] → t.chip.par = ⟨.tau, .tau⟩) ∧
      (p = .b → s.chip.tau.orders ≠ [] → t.chip.par = ⟨.tau, .tau⟩ ∧ t.chip.portA = s.chip.portA) ∧
      (∀ b tr, p = .b → s.chip.tau.orders = [] → s.chip.requests = [] → s.chip.portA.out = some ⟨b, .waiting⟩ →
        s.chip.classify .a b = .pass tr → s.chip.givenTo .a b tr t.chip) := by
  refine ⟨_, exec_memoryCycleComplete s p a none ((s.chip.inMemory_iff _ _ _).2 ⟨_, _, by rw [hp], ho⟩), ?_⟩
  dsimp only
  generalize hd : s.chip.cycleEnded p (s.mem.returned a) none = d
  have hsame : Chip.Same [portPiece p, .arbiter] s.chip d := by
    rw [← hd]
    exact Chip.same_endAccess _ _ _ _
  have hpar : d.par = ⟨.free, Port.claimant p⟩ := by
    rw [← hd]
    exact Chip.par_endAccess_unlocked p _ _ n _ _ hp
  have hfree : d.par.holder = .free := by rw [hpar]
  have hrd : d.resetLow = false := by rw [hsame .resetLine (by cases p <;> decide)]; exact hr
  have hwp : (d.port p).waiting = false := by
    rw [← hd]
    exact congrArg PortState.waiting (Chip.port_endAccess p false (s.mem.returned a) s.chip)
  have hother : d.port (otherPort p) = s.chip.port (otherPort p) := hsame.port _ (by cases p <;> decide)
  have hcl : ∀ q b, d.classify q b = s.chip.classify q b := by
    intro q b
    rw [← hd]
    show (Chip.endAccess p false _ s.chip).classify q b = _
    unfold Chip.endAccess
    dsimp only
    repeat' split
    all_goals cases p <;> rfl
  have hord : d.tau.orders = s.chip.tau.orders := hsame .requests (by cases p <;> decide)
  have hwait : ∀ q, d.present.waiting (Port.claimant q) = (d.port q).waiting := by
    intro q
    rw [Chip.waiting_claimant, Chip.port_present]
  have hwt : s.chip.tau.orders ≠ [] → d.present.waiting .tau = true := by
    intro h
    simpa using d.orders_present_ne_nil (by rw [hord]; exact h)
  have hpt : d.present.par.pointer = Port.claimant p := by rw [Chip.par_present, hpar]
  have hnext := Chip.nextClaimant_eq d.present
  cases p with
  | a =>
    have hB : d.portB = s.chip.portB := hother
    have hwB := hwait .b
    simp only [Port.claimant, Chip.port_b, hB] at hwB
    rw [Port.claimant] at hpt
    simp only [hpt, Claimant.after, hwB] at hnext
    refine ⟨fun b tr _ hout hc => ?_, fun _ hw ht => ?_, nofun, fun _ _ => nofun⟩
    · rw [if_pos (PortState.waiting_of_out hout)] at hnext
      obtain ⟨⟨h1, h2⟩, -⟩ := d.settle_given .b b tr hrd hfree hnext (by rw [Chip.port_b, hB]; exact hout)
        (by rw [hcl]; exact hc)
      rw [Chip.port_b, hB] at h1
      exact ⟨h1, h2⟩
    · rw [if_neg (by simp [hw]), if_pos (hwt ht)] at hnext
      rw [Chip.settle_tau _ hrd hfree hnext]
  | b =>
    have hA : d.portA = s.chip.portA := hother
    have hwA := hwait .a
    simp only [Port.claimant, Chip.port_a, hA] at hwA
    rw [Port.claimant] at hpt
    simp only [hpt, Claimant.after, hwA] at hnext
    refine ⟨fun _ _ => nofun, nofun, fun _ ht => ?_, fun b tr _ hto hreq hout hc => ?_⟩
    · rw [if_pos (hwt ht)] at hnext
      rw [Chip.settle_tau _ hrd hfree hnext]
      exact ⟨rfl, (d.same_present .portA (by decide)).trans hA⟩
    · have hpres : d.present = d := Chip.present_nothing _ (by
        rw [← hd]
        show (Chip.endAccess .b false _ s.chip).requests = []
        unfold Chip.endAccess
        dsimp only
        repeat' split
        all_goals exact hreq)
      have hte : d.present.waiting .tau = false := by rw [hpres, Chip.waiting_tau, hord, hto]; rfl
      rw [if_neg (by simp [hte]), if_pos (PortState.waiting_of_out hout)] at hnext
      obtain ⟨⟨h1, h2⟩, -⟩ := d.settle_given .a b tr hrd hfree hnext (by rw [Chip.port_a, hA]; exact hout)
        (by rw [hcl]; exact hc)
      rw [Chip.port_a, hA] at h1
      exact ⟨h1, h2⟩

/-- Settles O8: an access granted at once, at a tenure's end, and at a cycle's end. -/
theorem passedAccessEntersMemory : Obligations.PassedAccessEntersMemory :=
  ⟨fun s p a tr h hc => s.access_passes p a tr h hc, Chip.passedAccess_tenure, Chip.passedAccess_cycle⟩

end Sys2Proof.Machine
end

section
/-! Refused accesses (O10) and how a lock ends (O11): what a refusal leaves in the Report Unit, and the LOCK line. -/

namespace Sys2Proof.Machine

/-! ### Causes and their bits -/

theorem Cause.rank_bounds (k : Cause) : 1 ≤ k.rank ∧ k.rank ≤ 16 := by cases k <;> decide

theorem allCauses_at_rank (k : Cause) : allCauses[k.rank - 1]? = some k := by cases k <;> rfl

theorem Cause.rank_inj {k k' : Cause} (h : k.rank - 1 = k'.rank - 1) : k = k' := by
  have h1 := allCauses_at_rank k
  rw [h, allCauses_at_rank k'] at h1
  exact (Option.some.inj h1).symm

/-- The mask of a cause is its own bit. -/
theorem Cause.getLsbD_mask (k k' : Cause) : k.mask.getLsbD (k'.rank - 1) = decide (k' = k) := by
  have hm : k.mask = BitVec.twoPow 16 (k.rank - 1) := by cases k <;> rfl
  obtain ⟨_, hk⟩ := k.rank_bounds
  have hlt : k.rank - 1 < 16 := by omega
  have hiff : k.rank - 1 = k'.rank - 1 ↔ k' = k := ⟨fun h => (Cause.rank_inj h).symm, fun h => by rw [h]⟩
  rw [hm, BitVec.getLsbD_twoPow]
  simp [hlt, hiff]

/-- A cause raised is pending, and the others as before (R169). -/
theorem Rpu.isPending_raise (r : Rpu) (k k' : Cause) :
    (r.raise k).isPending k' = (r.isPending k' || decide (k' = k)) := by
  unfold Rpu.raise
  split
  · rename_i h
    by_cases hk : k' = k
    · subst hk
      simpa [Rpu.isPending] using h
    · simp [hk]
  · simp [Rpu.isPending, Cause.getLsbD_mask]

@[simp] theorem Rpu.notes_raise (r : Rpu) (k : Cause) : (r.raise k).notes = r.notes := by
  unfold Rpu.raise; split <;> rfl
@[simp] theorem Rpu.noteCount_raise (r : Rpu) (k : Cause) : (r.raise k).noteCount = r.noteCount := by
  unfold Rpu.raise; split <;> rfl
@[simp] theorem Rpu.counters_raise (r : Rpu) (k : Cause) : (r.raise k).counters = r.counters := by
  unfold Rpu.raise; split <;> rfl
@[simp] theorem Rpu.mask_raise (r : Rpu) (k : Cause) : (r.raise k).mask = r.mask := by
  unfold Rpu.raise; split <;> rfl
@[simp] theorem Rpu.isPending_increment (r : Rpu) (k : Counter) (k' : Cause) :
    (r.increment k).isPending k' = r.isPending k' := rfl

@[simp] theorem Chip.rpu_raise (k : Cause) (c : Chip) : (c.raise k).rpu = c.rpu.raise k := rfl
@[simp] theorem Chip.rpu_count (k : Counter) (c : Chip) : (c.count k).rpu = c.rpu.increment k := rfl

/-! ### What a refusal leaves (R17, R173) -/

/-- The cause that a refusal makes pending. -/
def RefusalKind.cause (k : RefusalKind) : Cause := if k = .lockBroken then .lockBroken else .accessRefused

theorem Chip.rpu_noteRefusal (k : RefusalKind) (p : Port) (a : Addr) (c : Chip) :
    (c.noteRefusal k p a).rpu =
      ((c.rpu.enter k p a c.tbu.wall c.tbu.mono).increment .refusedAccesses).raise k.cause := rfl

theorem Chip.notes_noteRefusal (k : RefusalKind) (p : Port) (a : Addr) (c : Chip) :
    (c.noteRefusal k p a).rpu.notes =
      (c.rpu.notes.filter fun n => ringEntry n.number != ringEntry c.rpu.noteCount) ++
        [⟨c.rpu.noteCount, k, p, a, c.tbu.wall, c.tbu.mono⟩] := by
  rw [Chip.rpu_noteRefusal, Rpu.notes_raise]
  rfl

theorem Chip.noteCount_noteRefusal (k : RefusalKind) (p : Port) (a : Addr) (c : Chip) :
    (c.noteRefusal k p a).rpu.noteCount = c.rpu.noteCount + 1 := by
  rw [Chip.rpu_noteRefusal, Rpu.noteCount_raise]
  rfl

theorem Chip.counters_noteRefusal (k : RefusalKind) (p : Port) (a : Addr) (c : Chip) :
    (c.noteRefusal k p a).rpu.counters = c.rpu.counters.modify Counter.refusedAccesses.index (· + 1) := by
  rw [Chip.rpu_noteRefusal, Rpu.counters_raise]
  rfl

theorem Chip.isPending_noteRefusal (k : RefusalKind) (p : Port) (a : Addr) (c : Chip) (k' : Cause) :
    (c.noteRefusal k p a).rpu.isPending k' = (c.rpu.isPending k' || decide (k' = k.cause)) := by
  rw [Chip.rpu_noteRefusal, Rpu.isPending_raise]
  rfl

/-- An access that ends at once in a lock, with LOCK asserted, leaves the lock counted and going on (R4). -/
theorem Chip.presented_lock_goes_on (p : Port) (a : Access) (e : Bool) (d : Word) (f : Chip → Chip) (n : Nat) (c : Chip)
    (hh : c.par.holder = .host p true n) (hn : n < Config.lockLimit) (hl : a.lock = true)
    (hc : ∀ c1 : Chip, c1.carryOut p a (c.classify p a) = Chip.endAccess p e d (f c1)) (hf : ∀ c1, (f c1).par = c1.par) :
    (c.presented p a).settle.par.holder = .host p true (n + 1) := by
  have h1 : (c.presented p a).par.holder = .host p true (n + 1) := by
    rw [c.presented_locked p a n hh hn, hc, Chip.holder_endAccess p e d _ true (n + 1) (by rw [hf, hl])]
    rfl
  rw [Chip.settle_held _ (by rw [h1]; simp), Chip.par_present, h1]

/-- Settles O10: the refusal is the end of the access, with the note, the count and the cause of `Chip.noteRefusal`. -/
theorem refusedAccessIsNoted : Obligations.RefusedAccessIsNoted := by
  intro s p a kind h hc
  have hcarry : ∀ c1 : Chip, c1.carryOut p a (s.chip.classify p a) =
      Chip.endAccess p true 0 (c1.noteRefusal kind p a.addr) := fun c1 => by rw [hc]; rfl
  obtain ⟨t, c1, ht, h1, h2, hend⟩ := s.access_ended p a true 0 (fun c1 => c1.noteRefusal kind p a.addr) [.rpu] h hcarry
    (fun c1 => c1.same_noteRefusal kind p a.addr) (by cases p <;> decide)
  have hrpu : t.chip.rpu = (c1.noteRefusal kind p a.addr).rpu := h2.rpu (by cases p <;> decide)
  have hr1 : c1.rpu = s.chip.rpu := h1.rpu (by cases p <;> decide)
  have ht1 : c1.tbu = s.chip.tbu := h1 .tbu (by cases p <;> decide)
  refine ⟨t, ht, hend, ?_, ?_, ?_, ?_, fun n hh hl => ?_⟩
  · rw [hrpu, Chip.notes_noteRefusal, hr1, ht1]
  · rw [hrpu, Chip.noteCount_noteRefusal, hr1]
  · rw [hrpu, Chip.counters_noteRefusal, hr1]
  · rw [hrpu, Chip.isPending_noteRefusal]
    exact Bool.or_eq_true_iff.2 (Or.inr (decide_eq_true rfl))
  · obtain ⟨-, ho, -, hg⟩ := (s.chip.grantsAt_iff p).1 h
    have hn : n < Config.lockLimit := by
      rcases hg with ⟨hf, -⟩ | ⟨k, hk, hlt⟩
      · rw [hh] at hf
        cases hf
      · rw [hh] at hk
        cases hk
        exact hlt
    have heq : exec (.portAccess p a) s = .next t := ht
    rw [show exec (.portAccess p a) s = s.access p a from rfl, s.access_next p a ho] at heq
    cases heq
    exact s.chip.presented_lock_goes_on p a true 0 _ n hh hn hl hcarry
      fun c1 => (c1.same_noteRefusal kind p a.addr) .arbiter (by decide)

/-! ### A memory port that becomes free with no port waiting -/

/-- It stays free or goes to the TAU. -/
theorem Chip.holder_settle_quiet (c : Chip) (hf : c.par.holder = .free) (ha : c.portA.waiting = false)
    (hb : c.portB.waiting = false) : c.settle.par.holder = .free ∨ c.settle.par.holder = .tau := by
  obtain ⟨pa, pb⟩ := c.present_ports
  unfold Chip.settle
  rcases Chip.arbitrate_quiet 3 c.present (by rw [pa]; exact ha) (by rw [pb]; exact hb) with h | h <;> rw [h]
  · exact Or.inl (by rw [Chip.par_present]; exact hf)
  · exact Or.inr rfl

/-- Neither port waits where one named port and the other do not. -/
theorem Chip.no_port_waits (p : Port) (c : Chip) (h1 : (c.port p).waiting = false)
    (h2 : (c.port (otherPort p)).waiting = false) : c.portA.waiting = false ∧ c.portB.waiting = false := by
  cases p
  · exact ⟨h1, h2⟩
  · exact ⟨h2, h1⟩

/-! ### The break of a lock (R5) -/

/-- The first reason in the report order, LOCK_BROKEN where no other applies (R18). -/
def Verdict.breakKind : Verdict → RefusalKind
  | .refuse k => k
  | _ => .lockBroken

/-- The part whose lock a 17th access has broken, before the refusal is noted. -/
def Chip.lockFreed (p : Port) (a : Access) (c : Chip) : Chip :=
  Chip.raise .lockBroken (Chip.count .lockBreaks
    ({ c with par := { c.par with holder := .free } }.withPort p ⟨some ⟨a, .waiting⟩, a.lock, none⟩))

theorem Chip.presented_breaks (p : Port) (a : Access) (n : Nat) (c : Chip) (hh : c.par.holder = .host p true n)
    (hn : ¬n < Config.lockLimit) :
    c.presented p a = Chip.endAccess p true 0 ((c.lockFreed p a).noteRefusal (c.classify p a).breakKind p a.addr) := by
  unfold Chip.presented
  rw [hh]
  simp only [if_true, Chip.lockedAccess, if_neg hn]
  rw [← c.classify_withWaiting p a]
  cases p <;> (unfold Chip.breakLock; cases (c.withWaiting _ a).classify _ a <;> rfl)

theorem Chip.same_lockFreed (p : Port) (a : Access) (c : Chip) :
    Chip.Same [portPiece p, .arbiter, .rpu] c (c.lockFreed p a) := by
  refine Chip.Same.then ?_ ((Chip.same_raise _ _).mono (by simp))
  refine Chip.Same.then ?_ ((Chip.same_count _ _).mono (by simp))
  exact ((c.same_withPar _).mono (by simp)).then ((Chip.same_withPort p _ _).mono (by simp))

theorem Chip.rpu_lockFreed (p : Port) (a : Access) (c : Chip) :
    (c.lockFreed p a).rpu = (c.rpu.increment .lockBreaks).raise .lockBroken := by
  cases p <;> rfl

theorem Chip.port_lockFreed (p : Port) (a : Access) (c : Chip) :
    (c.lockFreed p a).port p = ⟨some ⟨a, .waiting⟩, a.lock, none⟩ := by
  cases p <;> rfl

theorem Chip.holder_lockFreed (p : Port) (a : Access) (c : Chip) : (c.lockFreed p a).par.holder = .free := by
  cases p <;> rfl

theorem State.lock_breaks (s : State) (p : Port) (a : Access) (ho : (s.chip.port p).out = none)
    (hw : (s.chip.port (otherPort p)).waiting = false) (hh : s.chip.par.holder = .host p true 16) :
    ∃ t n, exec (.portAccess p a) s = .next t ∧ State.ended p ⟨true, 0⟩ [.rpu] s t ∧
      (t.chip.par.holder = .free ∨ t.chip.par.holder = .tau) ∧ (t.chip.port p).lockIgnored = a.lock ∧
      t.chip.rpu.isPending .lockBroken = true ∧
      t.chip.rpu.counters = (s.chip.rpu.counters.modify Counter.lockBreaks.index (· + 1)).modify
        Counter.refusedAccesses.index (· + 1) ∧
      t.chip.rpu.notes.getLast? = some n ∧ n.number = s.chip.rpu.noteCount ∧ n.port = p ∧ n.addr = a.addr ∧
      (∀ k, s.chip.classify p a = .refuse k → n.kind = k) ∧
      ((∀ k, s.chip.classify p a ≠ .refuse k) → n.kind = .lockBroken) := by
  -- the part that settles
  generalize hd : s.chip.presented p a = d
  have hbr := s.chip.presented_breaks p a 16 hh (by decide)
  rw [hd] at hbr
  generalize hkind : (s.chip.classify p a).breakKind = kind at hbr
  generalize hx : (s.chip.lockFreed p a).noteRefusal kind p a.addr = x at hbr
  have hsx : Chip.Same [.rpu] (s.chip.lockFreed p a) x := by
    rw [← hx]
    exact Chip.same_noteRefusal _ _ _ _
  have hfree : d.par.holder = .free := by
    have hxf : x.par.holder = .free := by rw [hsx .arbiter (by decide), Chip.holder_lockFreed]
    rw [hbr, Chip.par_endAccess_free _ _ _ _ hxf, hxf]
  have hport : d.port p = ⟨none, a.lock, some ⟨true, 0⟩⟩ := by
    rw [hbr, Chip.port_endAccess, hsx.port p (by cases p <;> decide), Chip.port_lockFreed]
  have hsame : Chip.Same [portPiece p, .arbiter, .rpu] s.chip d := by
    rw [hbr]
    exact ((s.chip.same_lockFreed p a).then (hsx.mono (by simp))).then ((Chip.same_endAccess _ _ _ _).mono (by simp))
  have hquiet := d.no_port_waits p (by rw [hport]; rfl)
    (by rw [hsame.port (otherPort p) (by cases p <;> decide)]; exact hw)
  have hset : Chip.Same [.requests, .jobs, .arbiter] d d.settle := Chip.same_settle_quiet d fun _ => hquiet
  have hrpu : d.settle.rpu = x.rpu := by
    rw [hset.rpu, hbr, (Chip.same_endAccess p true 0 x).rpu (by cases p <;> decide)]
  have hsp : d.settle.port p = ⟨none, a.lock, some ⟨true, 0⟩⟩ := by
    rw [hset.port p (by cases p <;> decide), hport]
  refine ⟨{ s with chip := d.settle }, ⟨s.chip.rpu.noteCount, kind, p, a.addr, s.chip.tbu.wall, s.chip.tbu.mono⟩, ?_,
    ⟨rfl, rfl, by rw [State.with_chip_chip, hsp], by rw [State.with_chip_chip, hsp], ?_⟩,
    d.holder_settle_quiet hfree hquiet.1 hquiet.2, by rw [State.with_chip_chip, hsp], ?_, ?_, ?_, rfl, rfl, rfl, ?_, ?_⟩
  · rw [show exec (.portAccess p a) s = s.access p a from rfl, s.access_next p a ho, hd]
  · exact (hsame.mono (by simp)).then (hset.mono (by simp))
  · rw [State.with_chip_chip, hrpu, ← hx, Chip.isPending_noteRefusal, Chip.rpu_lockFreed, Rpu.isPending_raise]
    simp
  · rw [State.with_chip_chip, hrpu, ← hx, Chip.counters_noteRefusal, Chip.rpu_lockFreed, Rpu.counters_raise]
    rfl
  · have htbu : (s.chip.lockFreed p a).tbu = s.chip.tbu := s.chip.same_lockFreed p a .tbu (by cases p <;> decide)
    rw [State.with_chip_chip, hrpu, ← hx, Chip.notes_noteRefusal, List.getLast?_concat, htbu, Chip.rpu_lockFreed,
      Rpu.noteCount_raise]
    rfl
  · intro k hk
    rw [hk] at hkind
    exact hkind.symm
  · intro hne
    cases hv : s.chip.classify p a with
    | refuse k => exact absurd hv (hne k)
    | _ => rw [hv] at hkind; exact hkind.symm

/-! ### LOCK deasserted (R4, R5, log 38) -/

theorem PortState.seenDeasserted_eq (x : PortState) (h : x.waiting = false) :
    x.seenDeasserted = { x with lockIgnored := false } := by
  unfold PortState.seenDeasserted
  unfold PortState.waiting at h
  rcases ho : x.out with _ | ⟨a, k⟩
  · rfl
  · cases k <;> simp_all

theorem Chip.port_releaseLock (p : Port) (c : Chip) : (c.releaseLock p).port p = (c.port p).seenDeasserted := by
  have h := Chip.port_withPort p (c.port p).seenDeasserted c
  have hpar : ∀ x : Par, ({ c.withPort p (c.port p).seenDeasserted with par := x } : Chip).port p =
      (c.port p).seenDeasserted := by intro x; cases p <;> rfl
  unfold Chip.releaseLock
  dsimp only
  split
  · split
    · split
      · exact hpar _
      · exact h
    · exact h
  · exact h

/-- With no access outstanding a lock of the port ends; any other tenure stands (R4). -/
theorem Chip.par_releaseLock_idle (p : Port) (c : Chip) (ho : (c.port p).out = none) :
    (c.releaseLock p).par = match c.par.holder with
      | .host q true _ => if q = p then { c.par with holder := .free } else c.par
      | _ => c.par := by
  have hpar := Chip.withPort_par p (c.port p).seenDeasserted c
  unfold Chip.releaseLock
  dsimp only
  rw [if_pos ho]
  cases hh : c.par.holder with
  | free => simp only [hpar, hh]
  | tau => simp only [hpar, hh]
  | host q l n =>
    cases l with
    | false => simp only [hpar, hh]
    | true => by_cases hq : q = p <;> simp only [hpar, hh, hq, if_true, if_false]

/-- With an access outstanding the tenure stands (log 38). -/
theorem Chip.par_releaseLock_busy (p : Port) (c : Chip) (ho : (c.port p).out ≠ none) : (c.releaseLock p).par = c.par := by
  unfold Chip.releaseLock
  dsimp only
  rw [if_neg ho, Chip.withPort_par]

theorem exec_lockRelease (s : State) (p : Port) (h : s.chip.resetLow = false) :
    exec (.lockRelease p) s = .next { s with chip := (s.chip.releaseLock p).settle } := by
  simp [exec, execLockRelease, State.event, h]

/-- LOCK deasserted while neither port waits on a free memory port: the line is regarded again, and beside the port, the
arbiter and requests nothing changes. -/
theorem Chip.releaseLock_settle (p : Port) (c : Chip) (hp : (c.port p).waiting = false)
    (hq : (c.releaseLock p).par.holder = .free → (c.port (otherPort p)).waiting = false) :
    (c.releaseLock p).settle.port p = { c.port p with lockIgnored := false } ∧
      Chip.Same [portPiece p, .arbiter, .requests, .jobs] c (c.releaseLock p).settle ∧
      ((c.releaseLock p).par.holder = .free →
        (c.releaseLock p).settle.par.holder = .free ∨ (c.releaseLock p).settle.par.holder = .tau) ∧
      ((c.releaseLock p).par.holder ≠ .free → (c.releaseLock p).settle.par = (c.releaseLock p).par) := by
  have hport : (c.releaseLock p).port p = { c.port p with lockIgnored := false } := by
    rw [Chip.port_releaseLock, PortState.seenDeasserted_eq _ hp]
  have hother : (c.releaseLock p).port (otherPort p) = c.port (otherPort p) :=
    (c.same_releaseLock p).port _ (by cases p <;> decide)
  have hquiet : (c.releaseLock p).par.holder = .free →
      (c.releaseLock p).portA.waiting = false ∧ (c.releaseLock p).portB.waiting = false := fun hf =>
    (c.releaseLock p).no_port_waits p (by rw [hport]; exact hp) (by rw [hother]; exact hq hf)
  have hset := Chip.same_settle_quiet (c.releaseLock p) hquiet
  refine ⟨?_, ?_, fun hf => Chip.holder_settle_quiet _ hf (hquiet hf).1 (hquiet hf).2, fun hf => ?_⟩
  · rw [hset.port p (by cases p <;> decide), hport]
  · exact ((c.same_releaseLock p).mono (by simp)).then (hset.mono (by simp))
  · rw [Chip.settle_held _ hf, Chip.par_present]

/-- Settles O11: the break by `State.lock_breaks`, and LOCK deasserted with no access and with one outstanding. -/
theorem locksEnd : Obligations.LocksEnd := by
  refine ⟨fun s p a _ ho hw hh => s.lock_breaks p a ho hw hh, fun s p hr ho hw => ?_, fun s p o hq ho hk => ?_⟩
  · have hp : (s.chip.port p).waiting = false := by simp [PortState.waiting, ho]
    obtain ⟨h1, h2, h3, h4⟩ := s.chip.releaseLock_settle p hp fun _ => hw
    have hpar := s.chip.par_releaseLock_idle p ho
    refine ⟨_, exec_lockRelease s p hr, rfl, rfl, h1, h2, ?_, ?_⟩
    · rintro ⟨n, hn⟩
      refine h3 ?_
      rw [hpar, hn]
      simp
    · intro hh
      have hkeep : (s.chip.releaseLock p).par = s.chip.par := by
        rw [hpar]
        rcases hh with hh | ⟨l, n, hh⟩ <;> rw [hh]
        cases l
        · rfl
        · exact if_neg (by cases p <;> decide)
      have hne : s.chip.par.holder ≠ .free := by
        rcases hh with hh | ⟨l, n, hh⟩ <;> rw [hh] <;> simp
      exact (h4 (by rw [hkeep]; exact hne)).trans hkeep
  · obtain ⟨hr, hwait⟩ := s.chip.quiet_iff.1 hq
    have hp : (s.chip.port p).waiting = false := by simp [PortState.waiting, ho, hk]
    have hkeep := s.chip.par_releaseLock_busy p (by rw [ho]; simp)
    obtain ⟨h1, h2, -, h4⟩ := s.chip.releaseLock_settle p hp fun hf => by
      rw [hkeep] at hf
      cases p
      · exact (hwait hf).2
      · exact (hwait hf).1
    exact ⟨_, exec_lockRelease s p hr, rfl, rfl, h1, h2, fun hf => (h4 (by rw [hkeep]; exact hf)).trans hkeep⟩

end Sys2Proof.Machine
end

section
/-! Command words: what a permitted read answers (O15), and which accesses and writes are refused (O16). -/

namespace Sys2Proof.Machine

/-! ### Access to a command word -/

theorem wordAddr_stationAddr : ∀ n < 256, (wordAddr (stationAddr n)).toNat = 4 * n := by decide +kernel

theorem stationAddr_toNat (n : Nat) (h : n < 256) : (stationAddr n).toNat = 4 * n := by
  rw [stationAddr, BitVec.toNat_ofNat]
  omega

theorem Chip.commands_iff (p : Port) (n : Nat) (c : Chip) : c.commands p n = true ↔
    c.grantsAt p = true ∧ 0x400 ≤ c.map.memSize ∧ (c.map.permits p).getLsbD (n - 64) = true := by
  simp [Chip.commands, and_assoc]

/-- A permitted read of a command word is answered (R22). -/
theorem Chip.classify_command_read (p : Port) (a : Access) (n : Nat) (c : Chip) (h : c.commands p n = true) (h1 : 64 ≤ n)
    (h2 : n < 72) (ha : (wordAddr a.addr).toNat = 4 * n) (hw : a.write = false) :
    c.classify p a = .answer (c.readCommand n) (n = 71) := by
  obtain ⟨-, hm, hp⟩ := (c.commands_iff p n).1 h
  rw [c.classify_stationWord p a n (by omega) ha (by omega), c.stationVerdict_command p a n h1 h2,
    if_neg (by simp [hp]), if_pos hw]

/-- A permitted whole-word write of a command word is decided by its own tests (R22). -/
theorem Chip.classify_command_write (p : Port) (n : Nat) (v : Word) (lock : Bool) (c : Chip) (h : c.commands p n = true)
    (h1 : 64 ≤ n) (h2 : n < 72) : c.classify p (stationAccess n true v lock) = c.commandWrite n v := by
  obtain ⟨-, hm, hp⟩ := (c.commands_iff p n).1 h
  rw [c.classify_stationWord p (stationAccess n true v lock) n
      (Nat.lt_of_lt_of_le (by rw [stationAccess, wordAddr_stationAddr n (by omega)]; omega) hm)
      (wordAddr_stationAddr n (by omega)) (by omega),
    c.stationVerdict_command p _ n h1 h2, if_neg (by simp [hp]), if_neg (by simp [stationAccess]),
    if_neg (by simp [stationAccess])]
  rfl

/-! ### What the words answer (R24, R50, R74, R146) -/

theorem Chip.readControl_fields (c : Chip) :
    field c.readControl 0 3 = c.lcc.lifecycle.code ∧ field c.readControl 8 3 = BitVec.ofNat 3 c.lcc.phase := by
  unfold Chip.readControl
  constructor
  · rw [field_or, field_place _ 0 (by decide), field_place_off _ 8 0 3 (by decide) (by decide)]
    simp
  · rw [field_or, field_place_off _ 0 8 3 (by decide) (by decide), field_place _ 8 (by decide)]
    simp

theorem Chip.readHeartbeat_fields (c : Chip) :
    field c.readHeartbeat 24 2 = c.tbu.heartbeat.code ∧ field c.readHeartbeat 0 16 = c.tbu.expected := by
  unfold Chip.readHeartbeat
  constructor
  · rw [field_or, field_place_off _ 0 24 2 (by decide) (by decide), field_place _ 24 (by decide)]
    simp
  · rw [field_or, field_place _ 0 (by decide), field_place_off _ 24 0 16 (by decide) (by decide)]
    simp

theorem Chip.readTake_fields (c : Chip) :
    field c.readTake 0 1 = c.lue.take.code ∧ field c.readTake 8 2 = c.lue.takeResult.code ∧
      field c.readTake 16 7 = BitVec.ofNat 7 c.lue.takeFailed := by
  unfold Chip.readTake
  refine ⟨?_, ?_, ?_⟩
  · rw [field_or, field_or, field_place _ 0 (by decide), field_place_off _ 8 0 1 (by decide) (by decide),
      field_place_off _ 16 0 1 (by decide) (by decide)]
    simp
  · rw [field_or, field_or, field_place_off _ 0 8 2 (by decide) (by decide), field_place _ 8 (by decide),
      field_place_off _ 16 8 2 (by decide) (by decide)]
    simp
  · rw [field_or, field_or, field_place_off _ 0 16 7 (by decide) (by decide),
      field_place_off _ 8 16 7 (by decide) (by decide), field_place _ 16 (by decide)]
    simp

theorem PurchaseRecord.word_bit (r : PurchaseRecord) : bit r.word 19 = r.op.isCancel ∧ bit r.word 20 = portIsB r.port := by
  simp only [PurchaseRecord.word, bit_or]
  constructor
  · rw [bit_place_off _ 0 19 (by decide) (by decide), bit_place_off _ 12 19 (by decide) (by decide),
      bit_flagAt _ 19 (by decide), bit_flagAt_off _ 20 19 (by decide) (by decide),
      bit_place_off _ 21 19 (by decide) (by decide), bit_place_off _ 25 19 (by decide) (by decide)]
    simp
  · rw [bit_place_off _ 0 20 (by decide) (by decide), bit_place_off _ 12 20 (by decide) (by decide),
      bit_flagAt_off _ 19 20 (by decide) (by decide), bit_flagAt _ 20 (by decide),
      bit_place_off _ 21 20 (by decide) (by decide), bit_place_off _ 25 20 (by decide) (by decide)]
    simp

theorem PurchaseRecord.word_field (r : PurchaseRecord) :
    field r.word 0 12 = r.subscriber ∧ field r.word 12 7 = r.entry ∧ field r.word 21 4 = r.result.code ∧
      field r.word 25 7 = r.number.setWidth 7 := by
  simp only [PurchaseRecord.word, field_or]
  refine ⟨?_, ?_, ?_, ?_⟩
  · rw [field_place _ 0 (by decide), field_place_off _ 12 0 12 (by decide) (by decide),
      field_flagAt_off _ 19 0 12 (by decide) (by decide), field_flagAt_off _ 20 0 12 (by decide) (by decide),
      field_place_off _ 21 0 12 (by decide) (by decide), field_place_off _ 25 0 12 (by decide) (by decide)]
    simp
  · rw [field_place_off _ 0 12 7 (by decide) (by decide), field_place _ 12 (by decide),
      field_flagAt_off _ 19 12 7 (by decide) (by decide), field_flagAt_off _ 20 12 7 (by decide) (by decide),
      field_place_off _ 21 12 7 (by decide) (by decide), field_place_off _ 25 12 7 (by decide) (by decide)]
    simp
  · rw [field_place_off _ 0 21 4 (by decide) (by decide), field_place_off _ 12 21 4 (by decide) (by decide),
      field_flagAt_off _ 19 21 4 (by decide) (by decide), field_flagAt_off _ 20 21 4 (by decide) (by decide),
      field_place _ 21 (by decide), field_place_off _ 25 21 4 (by decide) (by decide)]
    simp
  · rw [field_place_off _ 0 25 7 (by decide) (by decide), field_place_off _ 12 25 7 (by decide) (by decide),
      field_flagAt_off _ 19 25 7 (by decide) (by decide), field_flagAt_off _ 20 25 7 (by decide) (by decide),
      field_place_off _ 21 25 7 (by decide) (by decide), field_place _ 25 (by decide)]
    simp

/-- PERIOD: the period, the count as far as 15 bits hold it, and whether a close waits or runs (R164). -/
theorem Chip.readPeriod_fields (c : Chip) (l : LogCopy) (h : c.clu.copy = some l) :
    field c.readPeriod 0 16 = l.period ∧ (field c.readPeriod 16 15).toNat = min l.count.toNat 32767 ∧
      bit c.readPeriod 31 = (c.clu.close != .none) := by
  simp only [Chip.readPeriod, h]
  refine ⟨?_, ?_, ?_⟩
  · rw [field_or, field_or, field_place _ 0 (by decide), field_place_off _ 16 0 16 (by decide) (by decide),
      field_flagAt_off _ 31 0 16 (by decide) (by decide)]
    simp
  · rw [field_or, field_or, field_place_off _ 0 16 15 (by decide) (by decide), field_place _ 16 (by decide),
      field_flagAt_off _ 31 16 15 (by decide) (by decide)]
    simp
  · rw [bit_or, bit_or, bit_place_off _ 0 31 (by decide) (by decide), bit_place_off _ 16 31 (by decide) (by decide),
      bit_flagAt _ 31 (by decide)]
    simp

/-! ### The pending causes (R169 to R171) -/

theorem allCauses_mem (k : Cause) : k ∈ allCauses := by cases k <;> decide

theorem allCauses_ranks : allCauses.map Cause.rank = (List.range 16).map (· + 1) := by decide

/-- The causes stand in the order of their ranks. -/
theorem allCauses_sorted : allCauses.Pairwise fun k k' => k.rank < k'.rank := by decide

/-- The kind a CAUSE read returns is pending, and none pending ranks above it (R170). -/
theorem Rpu.highest_spec (r : Rpu) (k : Cause) (h : r.highest = some k) :
    r.isPending k = true ∧ ∀ k', r.isPending k' = true → k.rank ≤ k'.rank := by
  obtain ⟨hk, pre, post, hsplit, hpre⟩ := List.find?_eq_some_iff_append.1 h
  refine ⟨hk, fun k' hk' => ?_⟩
  have hmem := allCauses_mem k'
  have hsort := allCauses_sorted
  rw [hsplit] at hmem hsort
  rcases List.mem_append.1 hmem with hm | hm
  · exact absurd hk' (by simpa using hpre k' hm)
  · rcases List.mem_cons.1 hm with rfl | hm
    · exact Nat.le_refl _
    · exact Nat.le_of_lt ((List.pairwise_cons.1 (List.pairwise_append.1 hsort).2.1).1 k' hm)

/-- A kind that leaves the pending set, the others stay. -/
theorem Rpu.isPending_drop (r : Rpu) (k k' : Cause) :
    (r.drop k).isPending k' = (r.isPending k' && decide (k' ≠ k)) := by
  obtain ⟨h1, h2⟩ := k'.rank_bounds
  have hlt : k'.rank - 1 < 16 := by omega
  simp only [Rpu.isPending, Rpu.drop, BitVec.getLsbD_and, BitVec.getLsbD_not, hlt, Cause.getLsbD_mask, decide_true,
    Bool.true_and, decide_not]

/-- A set of causes is empty where it holds no kind. -/
theorem causes_ne_zero_iff (v : BitVec 16) : v ≠ 0 ↔ ∃ k : Cause, v.getLsbD (k.rank - 1) = true := by
  constructor
  · intro h
    by_contra hn
    refine h (BitVec.eq_of_getLsbD_eq fun i hi => ?_)
    have hk : ∃ k : Cause, k.rank - 1 = i := by
      have hmem : i + 1 ∈ allCauses.map Cause.rank := by
        rw [allCauses_ranks]
        exact List.mem_map.2 ⟨i, List.mem_range.2 hi, rfl⟩
      obtain ⟨k, -, hk⟩ := List.mem_map.1 hmem
      exact ⟨k, by omega⟩
    obtain ⟨k, rfl⟩ := hk
    simpa using fun hb => hn ⟨k, hb⟩
  · rintro ⟨k, hk⟩ rfl
    simp at hk

/-- The word that a CAUSE read answers while a kind is pending. -/
theorem Rpu.causeWord_fields (r : Rpu) (k : Cause) (h : r.highest = some k) :
    (field r.causeWord 0 5).toNat = k.rank ∧ (bit r.causeWord 8 = true ↔ ∃ k', (r.drop k).isPending k' = true) := by
  unfold Rpu.causeWord
  rw [h]
  constructor
  · rw [field_or, field_place _ 0 (by decide), field_flagAt_off _ 8 0 5 (by decide) (by decide)]
    cases k <;> decide
  · rw [bit_or, bit_place_off _ 0 8 (by decide) (by decide), bit_flagAt _ 8 (by decide)]
    simpa [Rpu.isPending] using causes_ne_zero_iff (r.drop k).causes

/-- The interrupt line is asserted where a pending kind is enabled (R171). -/
theorem Chip.interrupt_iff (c : Chip) :
    c.interrupt = true ↔ ∃ k : Cause, c.rpu.isPending k = true ∧ c.rpu.mask.getLsbD (k.rank - 1) = true := by
  simpa [Chip.interrupt, Rpu.isPending] using causes_ne_zero_iff (c.rpu.causes &&& c.rpu.mask)

/-- A CAUSE read of port `p`, granted at once. -/
theorem State.causeRead_ended (s : State) (p : Port) (a : Access) (h : s.chip.commands p 71 = true)
    (ha : (wordAddr a.addr).toNat = 4 * 71) (hw : a.write = false) :
    ∃ t, s.access p a = .next t ∧ State.ended p ⟨false, s.chip.rpu.causeWord⟩ [.rpu] s t ∧
      t.chip.rpu = s.chip.rpu.afterCauseRead := by
  have hc := s.chip.classify_command_read p a 71 h (by decide) (by decide) ha hw
  have hcarry : ∀ c1 : Chip, c1.carryOut p a (s.chip.classify p a) =
      Chip.endAccess p false s.chip.rpu.causeWord { c1 with rpu := c1.rpu.afterCauseRead } := fun c1 => by rw [hc]; rfl
  have hsame : ∀ c1 : Chip, Chip.Same [.rpu] c1 { c1 with rpu := c1.rpu.afterCauseRead } := by
    intro c1 x hx
    have hmark : c1.rpu.afterCauseRead.statusDirty = c1.rpu.statusDirty := by
      unfold Rpu.afterCauseRead
      split <;> rfl
    cases x
    case rpu => simp at hx
    case statusMark => exact hmark
    case jobs => exact ⟨rfl, rfl⟩
    all_goals rfl
  obtain ⟨t, c1, ht, h1, h2, hend⟩ := s.access_ended p a false s.chip.rpu.causeWord _ [.rpu]
    ((s.chip.commands_iff p 71).1 h).1 hcarry hsame (by cases p <;> decide)
  refine ⟨t, ht, hend, ?_⟩
  rw [h2.rpu (by cases p <;> decide), ← h1.rpu (by cases p <;> decide)]

/-- Settles O15: each command word by the fields of its answer. -/
theorem commandReadsAreAnswered : Obligations.CommandReadsAreAnswered := by
  refine ⟨fun s p a n h1 h2 ha hw h => ?_, fun s use h => ?_⟩
  · have hword : (wordAddr a.addr).toNat = 4 * n := by rw [ha, stationAddr_toNat n (by omega)]
    have hc := s.chip.classify_command_read p a n h h1 (by omega) hword hw
    have hcarry : ∀ c1 : Chip, c1.carryOut p a (s.chip.classify p a) =
        Chip.endAccess p false (s.chip.readCommand n) (id c1) := fun c1 => by
      rw [hc]
      simp [Chip.carryOut, show n ≠ 71 by omega]
    obtain ⟨t, -, ht, -, -, hend⟩ := s.access_ended p a false (s.chip.readCommand n) id []
      ((s.chip.commands_iff p n).1 h).1 hcarry (fun c1 => Chip.Same.refl _ c1) (by simp)
    refine ⟨t, s.chip.readCommand n, ht, hend, ?_, ?_, ?_, ?_, ?_, ?_, ?_⟩
    · rintro rfl
      exact s.chip.readControl_fields
    · rintro rfl
      exact s.chip.readHeartbeat_fields
    · rintro rfl
      exact s.chip.readTake_fields
    · rintro rfl
      obtain ⟨hsub, hentry, hres, hnum⟩ := s.chip.pcu.record.word_field
      obtain ⟨hcancel, hport⟩ := s.chip.pcu.record.word_bit
      exact ⟨hsub, hentry, hcancel, hport, hres, hnum⟩
    · rintro rfl
      rfl
    · rintro rfl
      rfl
    · rintro rfl
      cases hl : s.chip.clu.copy with
      | none => simp [Chip.readCommand, Chip.readPeriod, hl]
      | some l => exact s.chip.readPeriod_fields l hl
  · obtain ⟨t, ht, hend, hrpu⟩ := s.causeRead_ended use.port (stationAccess 71 false 0 use.lock) h
      (wordAddr_stationAddr 71 (by decide)) rfl
    refine ⟨t, _, (exec_accessOf _ _ _ s rfl).trans ht, hend, fun hn => ?_, fun k hk => ?_⟩
    · rw [hrpu]
      simp [Rpu.causeWord, Rpu.afterCauseRead, hn]
    · have hdrop : t.chip.rpu = s.chip.rpu.drop k := by rw [hrpu, Rpu.afterCauseRead, hk]
      obtain ⟨hpend, hmin⟩ := s.chip.rpu.highest_spec k hk
      obtain ⟨hrank, hmore⟩ := s.chip.rpu.causeWord_fields k hk
      refine ⟨hrank, hpend, hmin, ?_, ?_, ?_, ?_⟩
      · exact fun k' => by rw [hdrop, Rpu.isPending_drop]
      · rw [hdrop]
        exact hmore
      · rw [hdrop]
        rfl
      · rw [Chip.interrupt_iff, hdrop]
        refine exists_congr fun k' => ?_
        rw [Rpu.isPending_drop, Bool.and_eq_true, decide_eq_true_eq, and_comm (b := k' ≠ k), and_assoc]
        rfl

/-! ### Refused accesses and writes (R13, R22, R23, R43, R69, R138) -/

/-- A refused access, not for a broken lock, leaves its note and ACCESS_REFUSED. -/
theorem State.refused_noted (s : State) (i : Instr) (p : Port) (a : Access) (kind : RefusalKind)
    (hi : accessOf i = some (p, a)) (h : s.chip.grantsAt p = true) (hc : s.chip.classify p a = .refuse kind)
    (hk : kind ≠ .lockBroken) :
    ∃ t, exec i s = .next t ∧ State.ended p ⟨true, 0⟩ [.rpu] s t ∧ t.chip.rpu.isPending .accessRefused = true ∧
      ∃ n ∈ t.chip.rpu.notes, n.kind = kind ∧ n.port = p := by
  obtain ⟨t, ht, hend, hnotes, -, -, hpend, -⟩ := refusedAccessIsNoted s p a kind h hc
  rw [if_neg hk] at hpend
  refine ⟨t, (exec_accessOf i p a s hi).trans ht, hend, hpend,
    ⟨s.chip.rpu.noteCount, kind, p, a.addr, s.chip.tbu.wall, s.chip.tbu.mono⟩, ?_, rfl, rfl⟩
  rw [hnotes]
  exact List.mem_append_right _ (List.mem_singleton.2 rfl)

theorem Chip.commandWrite_refused (n : Nat) (v : Word) (kind : RefusalKind) (c : Chip)
    (hn : n = 67 → c.pcu.inFlight = none) (h : c.commandRefusal n v = some kind) :
    c.commandWrite n v = .refuse kind := by
  have hhold : ¬(decide (n = 67) && c.pcu.inFlight.isSome) = true := by
    simp only [Bool.and_eq_true, decide_eq_true_eq]
    rintro ⟨h1, h2⟩
    simp [hn h1] at h2
  unfold Chip.commandWrite
  rw [if_neg hhold, h]

/-- A command write that its word's tests refuse, PURCHASE while no evaluation is in flight. -/
theorem Chip.classify_command_refused (p : Port) (n : Nat) (v : Word) (lock : Bool) (kind : RefusalKind) (c : Chip)
    (h1 : 64 ≤ n) (h2 : n < 72) (hn : n = 67 → c.pcu.inFlight = none) (hr : c.commandRefusal n v = some kind)
    (h : c.commands p n = true) : c.classify p (stationAccess n true v lock) = .refuse kind := by
  rw [c.classify_command_write p n v lock h h1 h2, c.commandWrite_refused n v kind hn hr]

/-- Outside RUNNING the job command words are refused with NOT_RUNNING (R22). -/
theorem Chip.commandRefusal_notRunning (n : Nat) (v : Word) (c : Chip)
    (hn : n = 65 ∨ n = 66 ∨ n = 67 ∨ n = 69 ∨ n = 70) (h : c.lcc.lifecycle ≠ .running) :
    c.commandRefusal n v = some .notRunning := by
  have hr : c.isRunning = false := decide_eq_false h
  rcases hn with rfl | rfl | rfl | rfl | rfl
  · simp [Chip.commandRefusal, Chip.heartbeatRefusal, hr]
  · simp [Chip.commandRefusal, Chip.takeRefusal, hr]
  · simp [Chip.commandRefusal, Chip.purchaseRefusal, h]
  · simp [Chip.commandRefusal, Chip.releaseRefusal, hr]
  · simp [Chip.commandRefusal, Chip.periodRefusal, hr]

/-- Any CONTROL value but 1 to 3 is no command (R23). -/
theorem Chip.controlRefusal_unknown (v : Word) (c : Chip) (h : commandValue v = 0 ∨ 3 < commandValue v) :
    c.controlRefusal v = some .badCommand := by
  unfold Chip.controlRefusal
  split <;> first | omega | rfl

/-- Any TAKE value but 1 and 2 is no command (R69). -/
theorem Chip.takeRefusal_unknown (v : Word) (c : Chip) (hr : c.isRunning = true)
    (h : commandValue v = 0 ∨ 2 < commandValue v) : c.takeRefusal v = some .badCommand := by
  unfold Chip.takeRefusal
  rw [if_neg (by simp [hr])]
  split <;> first | omega | rfl

/-- A HEARTBEAT code but 1 to 5 is no command (R43). -/
theorem heartbeatCodeOf_unknown (v : Word) (h : fieldNat v 24 8 = 0 ∨ 5 < fieldNat v 24 8) :
    heartbeatCodeOf v = none := by
  have hne : ∀ k : BitVec 8, k.toNat ≠ fieldNat v 24 8 → ¬field v 24 8 = k := fun k hk he => hk (by rw [fieldNat, he])
  have hk : ∀ k : Nat, 1 ≤ k → k ≤ 5 → k ≠ fieldNat v 24 8 := by omega
  unfold heartbeatCodeOf
  dsimp only
  rw [if_neg (hne 1 (hk 1 (by decide) (by decide))), if_neg (hne 2 (hk 2 (by decide) (by decide))),
    if_neg (hne 3 (hk 3 (by decide) (by decide))), if_neg (hne 4 (hk 4 (by decide) (by decide))),
    if_neg (hne 5 (hk 5 (by decide) (by decide)))]

/-- A PURCHASE op of 0 or 3 is none (R138). -/
theorem purchaseOpOfCode_unknown (v : Word) (h : fieldNat v 28 2 = 0 ∨ fieldNat v 28 2 = 3) :
    purchaseOpOfCode (field v 28 2) = none := by
  have hb : field v 28 2 = 0 ∨ field v 28 2 = 3 :=
    h.imp (fun h => BitVec.eq_of_toNat_eq h) (fun h => BitVec.eq_of_toNat_eq h)
  rcases hb with hb | hb <;> rw [hb] <;> decide

/-- Settles O16: each refusal classified, then noted as any refused access. -/
theorem refusedCommandsDoNotAct : Obligations.RefusedCommandsDoNotAct := by
  refine ⟨fun s use k write v h hm => ?_, fun s use v h => ?_, fun c p n v lock h hn hl => ?_, fun c p v lock => ?_⟩
  · have hk : 72 + k.toNat < 80 := by have := k.isLt; omega
    have haddr := wordAddr_stationAddr (72 + k.toNat) (by omega)
    refine s.refused_noted _ use.port _ .range rfl h ?_ (by decide)
    rw [s.chip.classify_stationWord use.port (stationAccess (72 + k.toNat) write v use.lock) _
        (Nat.lt_of_lt_of_le (by rw [stationAccess, haddr]; omega) hm) haddr (by omega),
      s.chip.stationVerdict_unused _ _ _ (by omega) hk]
  · exact s.refused_noted _ use.port _ .badCommand rfl ((s.chip.commands_iff _ _).1 h).1
      (s.chip.classify_command_refused use.port 71 v use.lock .badCommand (by decide) (by decide) nofun rfl h) (by decide)
  · have hr := c.commandRefusal_notRunning n v (by omega) hl
    exact c.classify_command_refused p n v lock _ (by omega) (by omega) (by rintro rfl; simpa using hn) hr h
  · have hrun : c.lcc.lifecycle = .running → c.isRunning = true := decide_eq_true
    refine ⟨fun hv hs => ?_, fun hv hs => ?_, fun hv hs => ?_, fun hv => ?_, fun hl hv ht => ?_, fun hl hv ht => ?_,
      fun hl hv => ?_, fun hl hc => ?_, fun hl hf ho => ?_⟩
    · have hr : c.controlRefusal v = some .badCommand := by
        have hst : c.startable = false := by simpa [Chip.startable, and_assoc] using hs
        simp [Chip.controlRefusal, commandValue, hv, hst]
      exact c.classify_command_refused p 64 v lock _ (by decide) (by decide) nofun hr
    · have hr : c.controlRefusal v = some .badCommand := by
        have hst : c.isRunning = false := decide_eq_false hs
        simp [Chip.controlRefusal, commandValue, hv, hst]
      exact c.classify_command_refused p 64 v lock _ (by decide) (by decide) nofun hr
    · have hr : c.controlRefusal v = some .badCommand := by
        have hst : ¬(decide (c.lcc.lifecycle = .loadFault) && c.lcc.faults.getLsbD 10) = true := by simpa using hs
        simp only [Chip.controlRefusal, commandValue, hv, if_neg hst]
      exact c.classify_command_refused p 64 v lock _ (by decide) (by decide) nofun hr
    · exact c.classify_command_refused p 64 v lock _ (by decide) (by decide) nofun (c.controlRefusal_unknown v hv)
    · have hr : c.takeRefusal v = some .tableBusy := by simp [Chip.takeRefusal, commandValue, hrun hl, hv, ht]
      exact c.classify_command_refused p 66 v lock _ (by decide) (by decide) nofun hr
    · have hr : c.takeRefusal v = some .badCommand := by simp [Chip.takeRefusal, commandValue, hrun hl, hv, ht]
      exact c.classify_command_refused p 66 v lock _ (by decide) (by decide) nofun hr
    · exact c.classify_command_refused p 66 v lock _ (by decide) (by decide) nofun
        (c.takeRefusal_unknown v (hrun hl) hv)
    · have hr : c.heartbeatRefusal v = some .badCommand := by
        simp [Chip.heartbeatRefusal, hrun hl, heartbeatCodeOf_unknown v hc]
      exact c.classify_command_refused p 65 v lock _ (by decide) (by decide) nofun hr
    · have hr : c.purchaseRefusal v = some .badCommand := by
        simp [Chip.purchaseRefusal, hl, purchaseOpOfCode_unknown v ho]
      exact c.classify_command_refused p 67 v lock _ (by decide) (by decide) (fun _ => hf) hr

end Sys2Proof.Machine
end

section
/-! The line-up after a map write (O9): what the write does to its entry, and what serving the free link does after it. -/

namespace Sys2Proof.Machine

/-! ### Takes and requests: what they leave -/

theorem Chip.same_checkTake_few (l : List Nat) (c : Chip) : Chip.Same [.lue, .rpu, .statusMark] c (c.checkTake l) := by
  unfold Chip.checkTake Chip.endTake Chip.oweRoute
  split
  · split
    · refine Chip.Same.then ?_ ((Chip.same_raise _ _).mono (by decide))
      intro x hx; cases x <;> first | exact absurd (by decide) hx | rfl | exact ⟨rfl, rfl⟩
    · intro x hx; cases x <;> first | exact absurd (by decide) hx | rfl | exact ⟨rfl, rfl⟩
  · exact Chip.Same.refl _ c

@[simp] theorem Chip.swe_checkTake (l : List Nat) (c : Chip) : (c.checkTake l).swe = c.swe :=
  c.same_checkTake_few l .swe (by decide)

@[simp] theorem Chip.eventMap_checkTake (l : List Nat) (c : Chip) : (c.checkTake l).lue.eventMap = c.lue.eventMap := by
  unfold Chip.checkTake Chip.endTake Chip.oweRoute
  split
  · split <;> rfl
  · rfl

@[simp] theorem Chip.swe_routeRequest (k : RouteClass) (i : Nat) (c : Chip) : (c.routeRequest k i).swe = c.swe :=
  Chip.swe_checkTake _ _

@[simp] theorem Chip.eventMap_routeRequest (k : RouteClass) (i : Nat) (c : Chip) :
    (c.routeRequest k i).lue.eventMap = c.lue.eventMap := Chip.eventMap_checkTake _ _

/-! ### Serving the link (R62) -/

/-- An entry as serving the link may leave it: its image, its applied source and its phase stay, and a change is to be
mirrored (R63). -/
def Entry.Served (x x' : Entry) : Prop :=
  ∃ r k n b, x' = { x with route := r, cls := k, attempts := n, dirty := b } ∧ (x' = x ∨ b = true)

theorem Entry.Served.refl (x : Entry) : x.Served x := ⟨x.route, x.cls, x.attempts, x.dirty, rfl, Or.inl rfl⟩

theorem Entry.Served.trans {x y z : Entry} (h1 : x.Served y) (h2 : y.Served z) : x.Served z := by
  obtain ⟨r, k, n, b, rfl, h⟩ := h1
  obtain ⟨r', k', n', b', rfl, h'⟩ := h2
  refine ⟨r', k', n', b', rfl, ?_⟩
  rcases h' with h' | h'
  · rw [h']
    rcases h with h | h
    · exact Or.inl h
    · have hb : b' = b := congrArg Entry.dirty h'
      exact Or.inr (hb.trans h)
  · exact Or.inr h'

/-- What serving the link leaves: the bindings, the sweep queue, and every entry but for its route state. -/
structure Chip.LinkServed (c d : Chip) : Prop where
  map : d.lue.eventMap = c.lue.eventMap
  swe : d.swe = c.swe
  entry : ∀ (j : Nat) (x : Entry), c.lue.entries[j]? = some x → ∃ x', d.lue.entries[j]? = some x' ∧ Entry.Served x x'

theorem Chip.LinkServed.refl (c : Chip) : Chip.LinkServed c c := ⟨rfl, rfl, fun _ x h => ⟨x, h, .refl x⟩⟩

theorem Chip.LinkServed.trans {c d f : Chip} (h1 : Chip.LinkServed c d) (h2 : Chip.LinkServed d f) :
    Chip.LinkServed c f := by
  refine ⟨h2.map.trans h1.map, h2.swe.trans h1.swe, fun j x hx => ?_⟩
  obtain ⟨y, hy, hxy⟩ := h1.entry j x hx
  obtain ⟨z, hz, hyz⟩ := h2.entry j y hy
  exact ⟨z, hz, hxy.trans hyz⟩

/-- One entry changed as serving may change it. -/
theorem Chip.LinkServed.of_modify {c d : Chip} {i : Nat} {f : Entry → Entry} (hm : d.lue.eventMap = c.lue.eventMap)
    (hs : d.swe = c.swe) (he : d.lue.entries = c.lue.entries.modify i f) (hf : ∀ x : Entry, x.Served (f x)) :
    Chip.LinkServed c d := by
  refine ⟨hm, hs, fun j x hx => ⟨if i = j then f x else x, ?_, ?_⟩⟩
  · rw [he, List.getElem?_modify, hx]
    rfl
  · split
    · exact hf x
    · exact .refl x

/-- The link settles an entry that carries its target. -/
def Chip.routeSettled (i : Nat) (c : Chip) : Chip :=
  Chip.checkTake [i] { c with lue := c.lue.modify i fun e => { e with route := .settled, cls := none }.touch }

theorem Chip.chooseRoute_succ (n : Nat) (c : Chip) (hl : c.lcc.lifecycle = .running) (ho : c.lue.order = none) :
    c.chooseRoute (n + 1) = match c.lue.choice with
      | none => c
      | some (i, k) =>
        match c.lue.entries[i]? with
        | none => c
        | some e => if e.applied = c.target e then (c.routeSettled i).chooseRoute n else c.startRoute i k (c.target e) := by
  conv => lhs; unfold Chip.chooseRoute
  rw [if_pos ⟨hl, ho⟩]
  rfl

theorem Chip.linkServed_routeSettled (i : Nat) (c : Chip) : Chip.LinkServed c (c.routeSettled i) :=
  .of_modify (Chip.eventMap_checkTake _ _) (Chip.swe_checkTake _ _) (Chip.entries_checkTake _ _)
    fun x => ⟨.settled, none, x.attempts, true, rfl, Or.inr rfl⟩

theorem Chip.linkServed_chooseRoute (n : Nat) (c : Chip) : Chip.LinkServed c (c.chooseRoute n) := by
  induction n generalizing c with
  | zero => exact .refl c
  | succ n ih =>
    by_cases hfree : c.lcc.lifecycle = .running ∧ c.lue.order = none
    · rw [c.chooseRoute_succ n hfree.1 hfree.2]
      split
      · exact .refl c
      · split
        · exact .refl c
        · split
          · exact (c.linkServed_routeSettled _).trans (ih _)
          · exact .of_modify rfl rfl rfl fun x => ⟨.inFlight, none, 1, true, rfl, Or.inr rfl⟩
    · unfold Chip.chooseRoute
      rw [if_neg hfree]
      exact .refl c

theorem Chip.linkServed_serveRoutes (c : Chip) : Chip.LinkServed c c.serveRoutes := c.linkServed_chooseRoute _

/-- A link that is not free, or is not served in this state, serves nothing. -/
theorem Chip.serveRoutes_busy (c : Chip) (h : c.lue.order.isSome = true ∨ c.lcc.lifecycle ≠ .running) :
    c.serveRoutes = c := by
  unfold Chip.serveRoutes Chip.chooseRoute
  refine if_neg ?_
  rintro ⟨h1, h2⟩
  rcases h with h | h
  · simp [h2] at h
  · exact h h1

/-- With no entry PENDING the link has no choice. -/
theorem Lue.choice_none (l : Lue) (h : ∀ x ∈ l.entries, x.route ≠ .pending) : l.choice = none := by
  have hn : ∀ k, l.entries.findIdx? (fun e => e.pendingWith k) = none := fun k =>
    List.findIdx?_eq_none_iff.2 fun x hx => by simp [Entry.pendingWith, h x hx]
  simp [Lue.choice, hn]

/-- The only element that passes a test is the first. -/
theorem findIdx?_only {α : Type} {p : α → Bool} {l : List α} {i : Nat} {x : α} (hx : l[i]? = some x)
    (hp : p x = true) (ho : ∀ j y, j ≠ i → l[j]? = some y → p y = false) : l.findIdx? p = some i := by
  obtain ⟨hi, hxi⟩ := List.getElem?_eq_some_iff.1 hx
  refine List.findIdx?_eq_some_iff_getElem.2 ⟨hi, by rw [hxi]; exact hp, fun j hj => ?_⟩
  have hlt : j < l.length := by omega
  simpa using ho j l[j] (by omega) (List.getElem?_eq_getElem hlt)

/-- With one entry PENDING the link's choice is this one. -/
theorem Lue.choice_only (l : Lue) (i : Nat) (x : Entry) (k : RouteClass) (hx : l.entries[i]? = some x)
    (hr : x.route = .pending) (hk : x.cls = some k)
    (ho : ∀ j y, j ≠ i → l.entries[j]? = some y → y.route ≠ .pending) : l.choice = some (i, k) := by
  have hyes : l.entries.findIdx? (fun e => e.pendingWith k) = some i :=
    findIdx?_only hx ((x.pendingWith_iff k).2 ⟨hr, hk⟩) fun j y hj hy => by
      simp [Entry.pendingWith, ho j y hj hy]
  have hno : ∀ k', k' ≠ k → l.entries.findIdx? (fun e => e.pendingWith k') = none := by
    intro k' hne
    refine List.findIdx?_eq_none_iff.2 fun y hy => ?_
    obtain ⟨j, hj⟩ := List.mem_iff_getElem?.1 hy
    by_cases hji : j = i
    · subst hji
      rw [hx] at hj
      cases hj
      simp [Entry.pendingWith, hk, Ne.symm hne]
    · simp [Entry.pendingWith, ho j y hji hj]
  unfold Lue.choice
  cases k with
  | fallback => simp [hyes]
  | event => simp [hyes, hno .fallback nofun]
  | take => simp [hyes, hno .fallback nofun, hno .event nofun]

theorem Chip.chooseRoute_quiet (n : Nat) (c : Chip) (h : ∀ x ∈ c.lue.entries, x.route ≠ .pending) : c.chooseRoute n = c := by
  cases n with
  | zero => rfl
  | succ n =>
    unfold Chip.chooseRoute
    rw [Lue.choice_none _ h]
    exact ite_self c

theorem Chip.serveRoutes_quiet (c : Chip) (h : ∀ x ∈ c.lue.entries, x.route ≠ .pending) : c.serveRoutes = c :=
  c.chooseRoute_quiet _ h

/-- The free link with one entry PENDING: SETTLED where it carries its target, and otherwise sent. -/
theorem Chip.serveRoutes_only (c : Chip) (i : Nat) (x : Entry) (k : RouteClass) (hl : c.lcc.lifecycle = .running)
    (hf : c.lue.order = none) (hx : c.lue.entries[i]? = some x) (hr : x.route = .pending) (hk : x.cls = some k)
    (ho : ∀ j y, j ≠ i → c.lue.entries[j]? = some y → y.route ≠ .pending) :
    c.serveRoutes = if x.applied = c.target x then c.routeSettled i else c.startRoute i k (c.target x) := by
  unfold Chip.serveRoutes
  rw [c.chooseRoute_succ _ hl hf, c.lue.choice_only i x k hx hr hk ho]
  simp only [hx]
  split
  · refine Chip.chooseRoute_quiet _ _ fun y hy => ?_
    obtain ⟨j, hj⟩ := List.mem_iff_getElem?.1 hy
    rw [Chip.routeSettled, Chip.entries_checkTake] at hj
    simp only [Lue.modify, List.getElem?_modify] at hj
    by_cases hji : i = j
    · subst hji
      rw [hx] at hj
      cases hj
      simp [Entry.touch]
    · simp only [hji, if_false] at hj
      exact ho j y (Ne.symm hji) (by simpa [hji] using hj)
  · rfl

end Sys2Proof.Machine
end

section
/-! A map write (O9): the entry it leaves, by whether it is set aside, enters use as an EVENT entry, leaves it, or stays. -/

namespace Sys2Proof.Machine

/-! ### The parts of the statement -/

/-- An in-use EVENT entry that is not set aside, as the statements write it. -/
abbrev Entry.Tracked (x : Entry) : Prop := (bit x.w0 31 = true ∧ x.aside = false) ∧ bit x.w0 12 = true

theorem Entry.event_iff (x : Entry) : x.event = true ↔ x.Tracked := by
  simp [Entry.event, Entry.live, Entry.inUse, Entry.kindEvent]

theorem Entry.not_tracked_of_aside (x : Entry) (h : x.aside = true) : ¬x.Tracked := fun ht =>
  Bool.noConfusion (h.symm.trans ht.1.2)

/-- An entry passes the tests of R52, those of an entry in use where it is (R75). -/
abbrev Entry.Passes (x : Entry) (i : Nat) (bound : List (BitVec 8 × Nat)) : Prop :=
  (field x.w0 16 7).toNat ≤ 64 ∧ (field x.w1 8 7).toNat ≤ 64 ∧ (bit x.w0 31 = true → ¬x.breaks i bound)

theorem Entry.whole_iff_passes (x : Entry) (i : Nat) (m : List (BitVec 8 × Nat)) : x.whole m i = true ↔ x.Passes i m := by
  by_cases h : bit x.w0 31 = true
  · rw [x.whole_iff m i h]
    constructor
    · exact fun hn => ⟨Nat.le_of_not_lt fun hd => hn (Or.inl hd), Nat.le_of_not_lt fun hs => hn (Or.inr (Or.inl hs)),
        fun _ => hn⟩
    · exact fun hp => hp.2.2 h
  · have hd : x.desired = field x.w0 16 7 := rfl
    have hs : x.eventSource = field x.w1 8 7 := rfl
    simp [Entry.whole, Entry.Passes, Entry.inUse, hd, hs, h]

/-- A write to a window word of an EVENT entry that stays one (R57). -/
abbrev Entry.WindowWritten (word : Nat) (e x : Entry) : Prop := e.Tracked ∧ x.Tracked ∧ (word = 2 ∨ word = 3)

/-- The write puts the entry in CLOSING (R58). -/
abbrev Entry.WindowCloses (word : Nat) (e x : Entry) : Prop :=
  Entry.WindowWritten word e x ∧ x.phase = some .closing ∧ e.phase ≠ some .closing

/-- The route state and class that the write leaves before any request (R55, R75). -/
abbrev Entry.routeLeft (e x : Entry) : RouteState × Option RouteClass :=
  if e.aside = true ∧ x.aside = false then (.settled, none)
  else if (bit e.w0 31 = true ∧ e.aside = false) ∧ bit x.w0 31 = false then
    (match e.route with
      | .pending => (.settled, none)
      | .inFlight => (.inFlight, none)
      | r => (r, e.cls))
  else (e.route, e.cls)

/-- The write raises a request of class EVENT (R55, R57). -/
abbrev Entry.EventAsked (word : Nat) (e x : Entry) : Prop :=
  (¬e.Tracked ∧ x.Tracked ∧ x.phase = some .inside) ∨
    (Entry.WindowWritten word e x ∧ x.phase ≠ e.phase ∧ (e.phase = some .inside ∨ x.phase = some .inside))

/-- What a map write does to entry `i`, `e` before and `x` after, before the free link is served. -/
structure Chip.EntryWritten (i word : Nat) (e x : Entry) (c d : Chip) : Prop where
  entries : d.lue.entries = c.lue.entries.modify i fun _ => x
  link : d.linkUse = c.linkUse
  aside : x.aside = true ↔ e.aside = true ∧ ¬x.Passes i c.lue.eventMap
  applied : x.applied = e.applied
  map : d.lue.eventMap =
    if x.Tracked ∧ (¬e.Tracked ∨ field e.w1 0 8 ≠ field x.w1 0 8) then
      (c.lue.eventMap.filter fun b => b.2 ≠ i) ++ [(field x.w1 0 8, i)]
    else if e.Tracked ∧ ¬x.Tracked then c.lue.eventMap.filter fun b => b.2 ≠ i else c.lue.eventMap
  phase : x.phase = if ¬e.Tracked ∧ x.Tracked then some (x.phaseFound c.tbu.wall)
    else if e.Tracked ∧ ¬x.Tracked then none
    else if Entry.WindowWritten word e x then Entry.phaseMoved { x with phase := e.phase } c.tbu.wall else e.phase
  swe : ¬Entry.WindowCloses word e x ∨ c.lcc.lifecycle = .stopping → d.swe = c.swe
  close : Entry.WindowCloses word e x → c.lcc.lifecycle = .running → c.swe.queue.length < 192 →
    ∃ y ∈ d.swe.queue, y.kind = .eventClose (field x.w1 0 8)
  dirty : x.phase ≠ e.phase ∨ x.route ≠ e.route ∨ x.cls ≠ e.cls → x.dirty = true
  keeps : ¬Entry.EventAsked word e x → x.route = (e.routeLeft x).1 ∧ x.cls = (e.routeLeft x).2
  asks : Entry.EventAsked word e x →
    x.route = (Entry.asked { x with route := (e.routeLeft x).1, cls := (e.routeLeft x).2 } .event).route ∧
      x.cls = (Entry.asked { x with route := (e.routeLeft x).1, cls := (e.routeLeft x).2 } .event).cls

/-! ### Requests and phases of one entry -/

/-- A request is decided by use, by whether the entry is set aside, and by its route state and class. -/
theorem Entry.asked_congr (x y : Entry) (k : RouteClass) (h0 : x.w0 = y.w0) (ha : x.aside = y.aside)
    (hr : x.route = y.route) (hc : x.cls = y.cls) :
    (x.asked k).route = (y.asked k).route ∧ (x.asked k).cls = (y.asked k).cls := by
  unfold Entry.asked
  simp only [h0, ha, hr, hc]
  constructor <;> split <;> try split <;> try split <;> simp [hr, hc]
  all_goals simp [hr, hc]

/-- A request changes the route state and the class alone, and marks a change. -/
theorem Entry.asked_eq (x : Entry) (k : RouteClass) :
    x.asked k = { x with route := (x.asked k).route, cls := (x.asked k).cls, dirty := (x.asked k).dirty } ∧
      (x.dirty = true → (x.asked k).dirty = true) := by
  unfold Entry.asked
  split
  · exact ⟨rfl, id⟩
  · split
    · exact ⟨rfl, fun _ => rfl⟩
    · split
      · exact ⟨rfl, fun _ => rfl⟩
      · exact ⟨rfl, id⟩

/-- An entry that enters use as an EVENT entry: its phase as found, and INSIDE asked for (R55, R57). -/
def Entry.entered (x : Entry) (wall : Word) : Entry :=
  let y := { x with phase := some (x.phaseFound wall), dirty := true }
  if x.phaseFound wall = .inside then y.asked .event else y

theorem Entry.entered_eq (x : Entry) (wall : Word) : ∃ r k,
    x.entered wall = { x with phase := some (x.phaseFound wall), dirty := true, route := r, cls := k } ∧
      (x.phaseFound wall ≠ .inside → r = x.route ∧ k = x.cls) ∧
      (x.phaseFound wall = .inside → r = (x.asked .event).route ∧ k = (x.asked .event).cls) := by
  unfold Entry.entered
  dsimp only
  split
  · rename_i hf
    obtain ⟨h1, h2⟩ := Entry.asked_eq { x with phase := some (x.phaseFound wall), dirty := true } .event
    rw [h2 rfl] at h1
    exact ⟨_, _, h1, fun hn => absurd hf hn, fun _ => Entry.asked_congr _ x .event rfl rfl rfl rfl⟩
  · rename_i hf
    exact ⟨x.route, x.cls, rfl, fun _ => ⟨rfl, rfl⟩, fun hn => absurd hn hf⟩

/-- The evaluation of a tracked entry changes its phase, and its route state where it goes into INSIDE or out of it. -/
theorem Entry.atTime_eq (x : Entry) (wall : Word) (h : x.Tracked) : ∃ r k b,
    x.atTime wall = { x with phase := x.phaseMoved wall, dirty := b, route := r, cls := k } ∧
      (x.phaseMoved wall ≠ x.phase → b = true) ∧
      (¬(x.phaseMoved wall ≠ x.phase ∧ (x.phase = some .inside ∨ x.phaseMoved wall = some .inside)) →
        r = x.route ∧ k = x.cls) ∧
      (x.phaseMoved wall ≠ x.phase ∧ (x.phase = some .inside ∨ x.phaseMoved wall = some .inside) →
        r = (x.asked .event).route ∧ k = (x.asked .event).cls) := by
  unfold Entry.atTime
  dsimp only
  rw [if_neg (by simp [h.1.1, h.1.2, h.2])]
  split
  · rename_i hm
    obtain ⟨h1, h2⟩ := Entry.asked_eq
      { x with phase := x.phaseMoved wall, dirty := x.dirty || decide (x.phaseMoved wall ≠ x.phase) } .event
    rw [h2 (by simp [hm.1])] at h1
    exact ⟨_, _, true, h1, fun _ => rfl, fun hn => absurd hm hn, fun _ => Entry.asked_congr _ x .event rfl rfl rfl rfl⟩
  · rename_i hm
    exact ⟨x.route, x.cls, _, rfl, fun hne => by simp [hne], fun _ => ⟨rfl, rfl⟩, fun hn => absurd hn hm⟩

/-! ### The operations of a map write -/

theorem modify_const {α : Type} (l : List α) (i : Nat) (x : α) (f : α → α) :
    (l.modify i fun _ => x).modify i f = l.modify i fun _ => f x := by
  rw [List.modify_modify_eq]
  rfl

theorem Lue.eventMap_bind (l : Lue) (n : BitVec 8) (i : Nat) :
    (l.bind n i).eventMap = (l.eventMap.filter fun b => b.2 ≠ i) ++ [(n, i)] := by
  simp [Lue.bind, bne]
  rfl

theorem Lue.eventMap_unbind (l : Lue) (i : Nat) : (l.unbind i).eventMap = l.eventMap.filter fun b => b.2 ≠ i := by
  simp [Lue.unbind, bne]
  rfl

theorem Chip.entries_enterEvent (i : Nat) (e : Entry) (c : Chip) (l : List Entry)
    (h : c.lue.entries = l.modify i fun _ => e) :
    (c.enterEvent i e).lue.entries = l.modify i fun _ => e.entered c.tbu.wall := by
  have hset : ((({ c with lue := c.lue.bind e.number i } : Chip).setPhase i (e.phaseAt c.tbu.wall))).lue.entries =
      l.modify i fun _ => { e with phase := some (e.phaseFound c.tbu.wall), dirty := true } := by
    rw [Chip.entries_setPhase]
    show (c.lue.entries.modify i _) = _
    rw [h, modify_const]
    rfl
  unfold Chip.enterEvent Entry.entered
  by_cases hf : e.phaseFound c.tbu.wall = .inside
  · rw [if_pos (show e.phaseAt c.tbu.wall = .inside from hf), if_pos hf, Chip.entries_routeRequest, hset, modify_const]
  · rw [if_neg (show ¬e.phaseAt c.tbu.wall = .inside from hf), if_neg hf, hset]

theorem Chip.enterEvent_rest (i : Nat) (e : Entry) (c : Chip) :
    (c.enterEvent i e).lue.eventMap = (c.lue.eventMap.filter fun b => b.2 ≠ i) ++ [(e.number, i)] ∧
      (c.enterEvent i e).swe = c.swe ∧ (c.enterEvent i e).linkUse = c.linkUse := by
  have hm := c.lue.eventMap_bind e.number i
  unfold Chip.enterEvent
  dsimp only
  split
  · rw [Chip.eventMap_routeRequest, Chip.swe_routeRequest, Chip.linkUse_routeRequest]
    exact ⟨hm, rfl, rfl⟩
  · exact ⟨hm, rfl, rfl⟩

@[simp] theorem Chip.eventMap_closeWindow (i : Nat) (n : BitVec 8) (c : Chip) :
    (c.closeWindow i n).lue.eventMap = c.lue.eventMap := by
  unfold Chip.closeWindow Chip.handClose
  dsimp only
  repeat' split
  all_goals rfl

/-- The close of a window is handed in RUNNING (R58). -/
theorem Chip.swe_closeWindow (i : Nat) (n : BitVec 8) (c : Chip) :
    (c.closeWindow i n).swe = if c.lcc.lifecycle = .running then c.swe.handClose n else c.swe := by
  have hs : (c.setPhase i .closing).lcc = c.lcc := rfl
  unfold Chip.closeWindow Chip.handClose Chip.takesSweeps
  dsimp only
  rw [hs]
  split
  · rename_i hr
    rw [if_pos (by simp [hr])]
    rfl
  · rfl

theorem Swe.handClose_mem (s : Swe) (n : BitVec 8) (h : s.queue.length < 192) :
    ∃ y ∈ (s.handClose n).queue, y.kind = .eventClose n := by
  unfold Swe.handClose
  split
  · rename_i hany
    simpa using hany
  · unfold Swe.join
    rw [if_pos (show s.queue.length < Config.sweepQueueLimit from h)]
    exact ⟨_, List.mem_append_right _ (List.mem_singleton.2 rfl), rfl⟩

theorem Chip.eventMap_movePhase (i : Nat) (e : Entry) (p q : Phase) (c : Chip) :
    (c.movePhase i e p q).lue.eventMap = c.lue.eventMap := by
  unfold Chip.movePhase
  split <;> (try simp only [Chip.eventMap_routeRequest, Chip.eventMap_closeWindow]) <;> rfl

theorem Chip.eventMap_evaluatePhase (i : Nat) (c : Chip) : (c.evaluatePhase i).lue.eventMap = c.lue.eventMap := by
  unfold Chip.evaluatePhase
  repeat' split
  all_goals first | rfl | exact Chip.eventMap_movePhase _ _ _ _ _

/-- The move of a phase hands a close where it goes into CLOSING. -/
theorem Chip.swe_movePhase (i : Nat) (e : Entry) (p : Phase) (wall : Word) (c : Chip) (hp : e.phase = some p) :
    (c.movePhase i e p (e.phaseFound wall)).swe =
      if e.phaseMoved wall = some .closing ∧ p ≠ .closing ∧ c.lcc.lifecycle = .running then c.swe.handClose e.number
      else c.swe := by
  have hne := e.phaseFound_ne_closing wall
  unfold Entry.phaseMoved
  rw [hp]
  unfold Chip.movePhase
  cases p <;> cases hq : e.phaseFound wall <;> first | exact absurd hq hne | skip
  all_goals simp [Chip.swe_closeWindow]

theorem Chip.evaluatePhase_tracked (i : Nat) (e : Entry) (p : Phase) (c : Chip) (he : c.lue.entries[i]? = some e)
    (ht : e.Tracked) (hp : e.phase = some p) (hc : p ≠ .closing) :
    c.evaluatePhase i = c.movePhase i e p (e.phaseFound c.tbu.wall) := by
  unfold Chip.evaluatePhase
  simp only [he, hp]
  cases p <;> first | exact absurd rfl hc | exact if_pos (e.event_iff.2 ht)

theorem Chip.evaluatePhase_closing (i : Nat) (e : Entry) (c : Chip) (he : c.lue.entries[i]? = some e)
    (hp : e.phase = none ∨ e.phase = some .closing) : c.evaluatePhase i = c := by
  unfold Chip.evaluatePhase
  rcases hp with hp | hp <;> simp only [he, hp]

theorem Chip.swe_evaluatePhase (i : Nat) (e : Entry) (c : Chip) (he : c.lue.entries[i]? = some e) (ht : e.Tracked) :
    (c.evaluatePhase i).swe =
      if e.phaseMoved c.tbu.wall = some .closing ∧ e.phase ≠ some .closing ∧ c.lcc.lifecycle = .running then
        c.swe.handClose e.number
      else c.swe := by
  cases hp : e.phase with
  | none =>
    rw [c.evaluatePhase_closing i e he (Or.inl hp)]
    simp [Entry.phaseMoved, hp]
  | some p =>
    by_cases hc : p = .closing
    · subst hc
      rw [c.evaluatePhase_closing i e he (Or.inr hp)]
      simp
    · rw [c.evaluatePhase_tracked i e p he ht hp hc, c.swe_movePhase i e p _ hp]
      simp

end Sys2Proof.Machine
end

section
/-! The cases of a map write (O9), and the write with the service of the free link after it. -/

namespace Sys2Proof.Machine

/-- A written image: the four host-owned words may differ, the part's own fields stay. -/
structure Entry.Image (e y : Entry) : Prop where
  aside : y.aside = e.aside
  applied : y.applied = e.applied
  route : y.route = e.route
  cls : y.cls = e.cls
  phase : y.phase = e.phase
  dirty : y.dirty = e.dirty

theorem Entry.image_withWord (e : Entry) (word : Nat) (v : Word) : Entry.Image e (e.withWord word v) := by
  unfold Entry.withWord
  split <;> exact ⟨rfl, rfl, rfl, rfl, rfl, rfl⟩

theorem Entry.withWord_words (e : Entry) (word : Nat) (v : Word) (h : word < 4) :
    (e.withWord word v).w0 = (if word = 0 then v else e.w0) ∧ (e.withWord word v).w1 = (if word = 1 then v else e.w1) ∧
      (e.withWord word v).w2 = (if word = 2 then v else e.w2) ∧ (e.withWord word v).w3 = (if word = 3 then v else e.w3) := by
  obtain rfl | rfl | rfl | rfl : word = 0 ∨ word = 1 ∨ word = 2 ∨ word = 3 := by omega
  all_goals exact ⟨rfl, rfl, rfl, rfl⟩

/-! ### The shapes of a write -/

/-- An entry that enters use as an EVENT entry (R55). -/
theorem Chip.entryWritten_enters (i word : Nat) (e z : Entry) (c c1 : Chip) (hz : z.Tracked) (he : ¬e.Tracked)
    (hent : c1.lue.entries = c.lue.entries.modify i fun _ => z) (hlink : c1.linkUse = c.linkUse)
    (hmap : c1.lue.eventMap = c.lue.eventMap) (hswe : c1.swe = c.swe) (hwall : c1.tbu = c.tbu)
    (haside : z.aside = true ↔ e.aside = true ∧ ¬z.Passes i c.lue.eventMap) (happ : z.applied = e.applied)
    (hr : z.route = (e.routeLeft z).1) (hc : z.cls = (e.routeLeft z).2) :
    ∃ x, c.EntryWritten i word e x (c1.enterEvent i z) ∧ x.w0 = z.w0 ∧ x.w1 = z.w1 ∧ x.w2 = z.w2 ∧ x.w3 = z.w3 := by
  obtain ⟨hm, hs, hl⟩ := c1.enterEvent_rest i z
  have hentries := c1.entries_enterEvent i z _ hent
  obtain ⟨r, k, hx, hkeep, hask⟩ := z.entered_eq c1.tbu.wall
  rw [hx] at hentries
  rw [hwall] at hentries hkeep hask
  have hwin : ∀ P : Prop, ¬(e.Tracked ∧ P) := fun P h => he h.1
  refine ⟨_, ⟨hentries, hl.trans hlink, haside, happ, ?_, ?_, fun _ => hs.trans hswe, fun h => absurd h.1 (hwin _),
    fun _ => rfl, fun hn => ?_, fun ha => ?_⟩, rfl, rfl, rfl, rfl⟩
  · rw [if_pos ⟨hz, Or.inl he⟩, hm, hmap]
    rfl
  · rw [if_pos ⟨he, hz⟩]
    rfl
  · have hne : z.phaseFound c.tbu.wall ≠ .inside := fun hf => hn (Or.inl ⟨he, hz, congrArg some hf⟩)
    exact ⟨(hkeep hne).1.trans hr, (hkeep hne).2.trans hc⟩
  · have hf : z.phaseFound c.tbu.wall = .inside := by
      rcases ha with ⟨-, -, hp⟩ | ⟨hw, -⟩
      · exact Option.some.inj hp
      · exact absurd hw (hwin _)
    have hcg := Entry.asked_congr z
      { z with
        phase := some (z.phaseFound c.tbu.wall)
        dirty := true
        route := (e.routeLeft z).1
        cls := (e.routeLeft z).2 } .event rfl rfl hr hc
    exact ⟨(hask hf).1.trans hcg.1, (hask hf).2.trans hcg.2⟩

/-- An entry whose phase the write leaves: it is tracked as before, and no window word of it is written. -/
theorem Chip.entryWritten_stays (i word : Nat) (e z : Entry) (c d : Chip) (hz : z.Tracked ↔ e.Tracked)
    (hw : e.Tracked → ¬(word = 2 ∨ word = 3)) (hent : d.lue.entries = c.lue.entries.modify i fun _ => z)
    (hlink : d.linkUse = c.linkUse)
    (hmap : d.lue.eventMap = if z.Tracked ∧ field e.w1 0 8 ≠ field z.w1 0 8 then
      (c.lue.eventMap.filter fun b => b.2 ≠ i) ++ [(field z.w1 0 8, i)] else c.lue.eventMap)
    (hswe : d.swe = c.swe) (hphase : z.phase = e.phase)
    (haside : z.aside = true ↔ e.aside = true ∧ ¬z.Passes i c.lue.eventMap) (happ : z.applied = e.applied)
    (hdirty : z.route ≠ e.route ∨ z.cls ≠ e.cls → z.dirty = true)
    (hr : z.route = (e.routeLeft z).1) (hc : z.cls = (e.routeLeft z).2) : c.EntryWritten i word e z d := by
  have hwin : ¬Entry.WindowWritten word e z := fun h => hw h.1 h.2.2
  have hasked : ¬Entry.EventAsked word e z := by
    rintro (⟨h1, h2, -⟩ | ⟨h1, -⟩)
    · exact h1 (hz.1 h2)
    · exact hwin h1
  refine ⟨hent, hlink, haside, happ, ?_, ?_, fun _ => hswe, fun h => absurd h.1 hwin, fun h => ?_, fun _ => ⟨hr, hc⟩,
    fun h => absurd h hasked⟩
  · have h1 : (z.Tracked ∧ (¬e.Tracked ∨ field e.w1 0 8 ≠ field z.w1 0 8)) ↔
        (z.Tracked ∧ field e.w1 0 8 ≠ field z.w1 0 8) :=
      ⟨fun h => ⟨h.1, h.2.resolve_left (not_not_intro (hz.1 h.1))⟩, fun h => ⟨h.1, Or.inr h.2⟩⟩
    have h2 : ¬(e.Tracked ∧ ¬z.Tracked) := fun h => h.2 (hz.2 h.1)
    rw [hmap]
    by_cases h : z.Tracked ∧ field e.w1 0 8 ≠ field z.w1 0 8
    · rw [if_pos h, if_pos (h1.2 h)]
    · rw [if_neg h, if_neg (fun hh => h (h1.1 hh)), if_neg h2]
  · rw [if_neg fun h => h.1 (hz.1 h.2), if_neg fun h => h.2 (hz.2 h.1), if_neg hwin]
    exact hphase
  · exact hdirty (h.resolve_left (not_not_intro hphase))

/-- A window word of a tracked entry is written: its phase is evaluated (R57). -/
theorem Chip.entryWritten_window (i word : Nat) (e z : Entry) (c c1 : Chip) (he : e.Tracked) (hz : z.Tracked)
    (hw : word = 2 ∨ word = 3) (hi : i < c.lue.entries.length)
    (hent : c1.lue.entries = c.lue.entries.modify i fun _ => z) (hlink : c1.linkUse = c.linkUse)
    (hmap : c1.lue.eventMap = if z.Tracked ∧ field e.w1 0 8 ≠ field z.w1 0 8 then
      (c.lue.eventMap.filter fun b => b.2 ≠ i) ++ [(field z.w1 0 8, i)] else c.lue.eventMap)
    (hswe : c1.swe = c.swe) (hwall : c1.tbu = c.tbu) (hlcc : c1.lcc = c.lcc) (himg : Entry.Image e z) :
    ∃ x, c.EntryWritten i word e x (c1.evaluatePhase i) ∧ x.w0 = z.w0 ∧ x.w1 = z.w1 ∧ x.w2 = z.w2 ∧ x.w3 = z.w3 := by
  obtain ⟨r, k, b, hx, hdirty, hkeep, hask⟩ := z.atTime_eq c.tbu.wall hz
  have hentries : (c1.evaluatePhase i).lue.entries = c.lue.entries.modify i fun _ =>
      ({ z with phase := z.phaseMoved c.tbu.wall, dirty := b, route := r, cls := k } : Entry) := by
    rw [Chip.entries_evaluatePhase, hent, modify_const, hwall, hx]
  have hget : c1.lue.entries[i]? = some z := by
    rw [hent, List.getElem?_modify_eq, List.getElem?_eq_getElem hi]
    rfl
  have hs := c1.swe_evaluatePhase i z hget hz
  rw [hswe, hwall, hlcc, himg.phase] at hs
  have hleft : ∀ x : Entry, x.aside = z.aside → x.w0 = z.w0 → e.routeLeft x = (e.route, e.cls) := by
    intro x h1 h2
    unfold Entry.routeLeft
    rw [if_neg (by simp [he.1.2]), if_neg (by simp [h2, hz.1.1])]
  have hmoved : Entry.phaseMoved { z with phase := e.phase } c.tbu.wall = z.phaseMoved c.tbu.wall := by
    unfold Entry.phaseMoved
    rw [himg.phase]
    rfl
  rw [himg.phase] at hdirty hkeep hask
  refine ⟨_, ⟨hentries, (c1.linkUse_evaluatePhase i).trans hlink, ?_, himg.applied, ?_, ?_, fun hn => ?_, fun hc hr hq => ?_,
    fun hch => ?_, fun hn => ?_, fun ha => ?_⟩, rfl, rfl, rfl, rfl⟩
  · show z.aside = true ↔ _
    simp [he.1.2, hz.1.2]
  · rw [Chip.eventMap_evaluatePhase, hmap]
    have h2 : ¬(e.Tracked ∧ ¬z.Tracked) := fun h => h.2 hz
    by_cases h : field e.w1 0 8 ≠ field z.w1 0 8
    · rw [if_pos ⟨hz, h⟩]
      exact (if_pos ⟨hz, Or.inr h⟩).symm
    · rw [if_neg (fun hh => h hh.2)]
      refine Eq.symm ((if_neg ?_).trans (if_neg h2))
      rintro ⟨-, hh | hh⟩
      · exact hh he
      · exact h hh
  · refine Eq.symm ((if_neg fun h => h.1 he).trans ((if_neg fun h => h.2 hz).trans ((if_pos ⟨he, hz, hw⟩).trans ?_)))
    exact hmoved
  · rw [hs]
    refine if_neg ?_
    rintro ⟨h1, h2, h3⟩
    rcases hn with hn | hn
    · exact hn ⟨⟨he, hz, hw⟩, h1, h2⟩
    · rw [h3] at hn
      cases hn
  · rw [hs, if_pos ⟨hc.2.1, hc.2.2, hr⟩]
    exact Swe.handClose_mem _ _ hq
  · by_cases hp : z.phaseMoved c.tbu.wall = e.phase
    · obtain ⟨h1, h2⟩ := hkeep fun h => h.1 hp
      rcases hch with h | h | h
      · exact absurd hp h
      · exact absurd (h1.trans himg.route) h
      · exact absurd (h2.trans himg.cls) h
    · exact hdirty hp
  · obtain ⟨h1, h2⟩ := hkeep fun h => hn (Or.inr ⟨⟨he, hz, hw⟩, h⟩)
    rw [hleft _ rfl rfl]
    exact ⟨h1.trans himg.route, h2.trans himg.cls⟩
  · have hcond : z.phaseMoved c.tbu.wall ≠ e.phase ∧ (e.phase = some .inside ∨ z.phaseMoved c.tbu.wall = some .inside) := by
      rcases ha with ⟨h1, -⟩ | ⟨-, h1⟩
      · exact absurd he h1
      · exact h1
    obtain ⟨h1, h2⟩ := hask hcond
    rw [hleft _ rfl rfl]
    obtain ⟨h3, h4⟩ := Entry.asked_congr z
      { z with
        phase := z.phaseMoved c.tbu.wall
        dirty := b
        route := e.route
        cls := e.cls } .event rfl rfl himg.route himg.cls
    exact ⟨h1.trans h3, h2.trans h4⟩

/-- An EVENT entry that leaves use or its kind: its number is unbound, its phase is none (R55). -/
theorem Chip.entryWritten_leaves (i word : Nat) (e z : Entry) (c d : Chip) (he : e.Tracked) (hz : ¬z.Tracked)
    (hent : d.lue.entries = c.lue.entries.modify i fun _ => ({ z with phase := none, dirty := true } : Entry))
    (hlink : d.linkUse = c.linkUse) (hmap : d.lue.eventMap = c.lue.eventMap.filter fun b => b.2 ≠ i)
    (hswe : d.swe = c.swe) (haside : z.aside = e.aside) (happ : z.applied = e.applied)
    (hr : z.route = (e.routeLeft z).1) (hc : z.cls = (e.routeLeft z).2) :
    c.EntryWritten i word e { z with phase := none, dirty := true } d := by
  have hwin : ∀ P : Prop, ¬(e.Tracked ∧ z.Tracked ∧ P) := fun P h => hz h.2.1
  refine ⟨hent, hlink, ?_, happ, ?_, ?_, fun _ => hswe, fun h => absurd h.1 (hwin _), fun _ => rfl, fun _ => ⟨hr, hc⟩, ?_⟩
  · show z.aside = true ↔ _
    simp [haside, he.1.2]
  · rw [hmap]
    exact ((if_neg fun h => hz h.1).trans (if_pos ⟨he, hz⟩)).symm
  · exact ((if_neg fun h => hz h.2).trans (if_pos ⟨he, hz⟩)).symm
  · rintro (⟨h, -⟩ | ⟨h, -⟩)
    · exact absurd he h
    · exact absurd h (hwin _)

end Sys2Proof.Machine
end

section
/-! The end of a memory cycle (O9): the trigger of a map write put together, and that of a subscriber write. -/

namespace Sys2Proof.Machine

/-! ### The write to an entry -/

/-- The trigger of a write to a set-aside entry (R75). -/
theorem Chip.asideWrite_written (i word : Nat) (e y : Entry) (c : Chip) (ha : e.aside = true) (himg : Entry.Image e y) :
    ∃ x, c.EntryWritten i word e x (c.asideWrite i y) ∧ x.w0 = y.w0 ∧ x.w1 = y.w1 ∧ x.w2 = y.w2 ∧ x.w3 = y.w3 := by
  have he := e.not_tracked_of_aside ha
  unfold Chip.asideWrite
  by_cases hp : y.whole c.lue.eventMap i = true
  · rw [if_pos hp]
    have hpass := (y.whole_iff_passes i _).1 hp
    dsimp only
    generalize hz : Entry.touch { y with aside := false, route := .settled, cls := none } = z
    have haside : z.aside = true ↔ e.aside = true ∧ ¬z.Passes i c.lue.eventMap := by
      subst hz
      exact ⟨nofun, fun h => absurd hpass h.2⟩
    have hleft : e.routeLeft z = (.settled, none) := by
      subst hz
      exact if_pos ⟨ha, rfl⟩
    have happ : z.applied = e.applied := by subst hz; exact himg.applied
    have hr : z.route = (e.routeLeft z).1 := by rw [hleft]; subst hz; rfl
    have hc : z.cls = (e.routeLeft z).2 := by rw [hleft]; subst hz; rfl
    have hw : z.w0 = y.w0 ∧ z.w1 = y.w1 ∧ z.w2 = y.w2 ∧ z.w3 = y.w3 := by subst hz; exact ⟨rfl, rfl, rfl, rfl⟩
    by_cases hev : z.event = true
    · rw [if_pos hev]
      obtain ⟨x, hx, h0, h1, h2, h3⟩ := c.entryWritten_enters i word e z { c with lue := c.lue.modify i fun _ => z }
        (z.event_iff.1 hev) he rfl rfl rfl rfl rfl haside happ hr hc
      exact ⟨x, hx, h0.trans hw.1, h1.trans hw.2.1, h2.trans hw.2.2.1, h3.trans hw.2.2.2⟩
    · rw [if_neg hev]
      have hnt : ¬z.Tracked := fun h => hev (z.event_iff.2 h)
      refine ⟨z, c.entryWritten_stays i word e z _ (iff_of_false hnt he) (fun h => absurd h he) rfl rfl
        (if_neg fun h => hnt h.1).symm rfl ?_ haside happ (fun _ => ?_) hr hc, hw⟩
      · subst hz
        exact himg.phase
      · subst hz
        rfl
  · rw [if_neg hp]
    have hya : y.aside = true := himg.aside.trans ha
    have hnt := y.not_tracked_of_aside hya
    have hleft : e.routeLeft y = (e.route, e.cls) := by
      unfold Entry.routeLeft
      rw [if_neg (by simp [hya]), if_neg (by simp [ha])]
    have hnp : ¬y.Passes i c.lue.eventMap := fun h => hp ((y.whole_iff_passes i _).2 h)
    exact ⟨y, c.entryWritten_stays i word e y _ (iff_of_false hnt he) (fun h => absurd h he) rfl rfl
      (if_neg fun h => hnt h.1).symm rfl himg.phase (iff_of_true hya ⟨ha, hnp⟩) himg.applied
      (fun h => absurd h (by simp [himg.route, himg.cls])) (by rw [hleft, himg.route]) (by rw [hleft, himg.cls]),
      rfl, rfl, rfl, rfl⟩

/-- A written image as it stands when the entry may have left use (R55). -/
def Entry.leftUse (e y : Entry) : Entry := if e.inUse && !y.inUse then y.leaveUse else y

theorem Entry.leaveUse_eq (y : Entry) : ∃ b, y.leaveUse =
    { y with
      route := match y.route with | .pending => .settled | r => r
      cls := match y.route with | .pending => none | .inFlight => none | _ => y.cls
      dirty := b } ∧ (b = true ∨ (y.leaveUse.route = y.route ∧ y.leaveUse.cls = y.cls)) := by
  obtain ⟨w0, w1, w2, w3, aside, applied, route, cls, phase, attempts, unset, unlocked, dirty⟩ := y
  cases route with
  | settled => exact ⟨dirty, rfl, Or.inr ⟨rfl, rfl⟩⟩
  | failed => exact ⟨dirty, rfl, Or.inr ⟨rfl, rfl⟩⟩
  | pending => exact ⟨true, rfl, Or.inl rfl⟩
  | inFlight =>
    cases cls with
    | none => exact ⟨dirty, rfl, Or.inr ⟨rfl, rfl⟩⟩
    | some k => exact ⟨true, rfl, Or.inl rfl⟩

/-- Leaving use changes the route state and the class alone, as R55 says. -/
theorem Entry.leftUse_spec (e y : Entry) (ha : e.aside = false) (himg : Entry.Image e y) :
    ∃ r k b, e.leftUse y = { y with route := r, cls := k, dirty := b } ∧ r = (e.routeLeft y).1 ∧ k = (e.routeLeft y).2 ∧
      (b = true ∨ (r = e.route ∧ k = e.cls)) := by
  unfold Entry.leftUse Entry.routeLeft
  rw [if_neg (show ¬(e.aside = true ∧ y.aside = false) by simp [ha])]
  by_cases hleave : bit e.w0 31 = true ∧ bit y.w0 31 = false
  · rw [if_pos (by simp [Entry.inUse, hleave.1, hleave.2]), if_pos ⟨⟨hleave.1, ha⟩, hleave.2⟩]
    obtain ⟨b, hb, hd⟩ := y.leaveUse_eq
    refine ⟨_, _, b, hb, ?_, ?_, ?_⟩
    · rw [himg.route]
      cases e.route <;> rfl
    · rw [himg.route, himg.cls]
      cases e.route <;> rfl
    · refine hd.imp id fun h => ?_
      rw [hb, himg.route, himg.cls] at h
      rw [himg.route, himg.cls]
      exact h
  · have h1 : ¬(e.inUse && !y.inUse) = true := by simpa [Entry.inUse] using hleave
    rw [if_neg h1, if_neg fun h => hleave ⟨h.1.1, h.2⟩]
    exact ⟨y.route, y.cls, y.dirty, rfl, himg.route, himg.cls, Or.inr ⟨himg.route, himg.cls⟩⟩

/-- The trigger of a write to an entry that is not set aside (R55). -/
theorem Chip.entryWrite_written (i word : Nat) (e y : Entry) (c : Chip) (hi : i < c.lue.entries.length)
    (ha : e.aside = false) (himg : Entry.Image e y) :
    ∃ x, c.EntryWritten i word e x (c.entryWrite i word e y) ∧ x.w0 = y.w0 ∧ x.w1 = y.w1 ∧ x.w2 = y.w2 ∧ x.w3 = y.w3 := by
  obtain ⟨r, k, b, hz, hr, hk, hb⟩ := e.leftUse_spec y ha himg
  unfold Chip.entryWrite
  rw [show (if e.inUse && !y.inUse then y.leaveUse else y) = e.leftUse y from rfl, hz]
  generalize hz' : ({ y with route := r, cls := k, dirty := b } : Entry) = z
  have hzr : z.route = r := by subst hz'; rfl
  have hzk : z.cls = k := by subst hz'; rfl
  have hzb : z.dirty = b := by subst hz'; rfl
  have hzp : z.phase = e.phase := by subst hz'; exact himg.phase
  have hzapp : z.applied = e.applied := by subst hz'; exact himg.applied
  have hza : z.aside = e.aside := by subst hz'; exact himg.aside
  have hw : z.w0 = y.w0 ∧ z.w1 = y.w1 ∧ z.w2 = y.w2 ∧ z.w3 = y.w3 := by subst hz'; exact ⟨rfl, rfl, rfl, rfl⟩
  have hleft : e.routeLeft z = e.routeLeft y := by subst hz'; rfl
  have hroute : z.route = (e.routeLeft z).1 := by rw [hleft, hzr, hr]
  have hcls : z.cls = (e.routeLeft z).2 := by rw [hleft, hzk, hk]
  have haside : z.aside = true ↔ e.aside = true ∧ ¬z.Passes i c.lue.eventMap := by simp [hza, ha]
  have hdirty : z.route ≠ e.route ∨ z.cls ≠ e.cls → z.dirty = true := by
    rw [hzr, hzk, hzb]
    rintro h
    rcases hb with hb | ⟨h1, h2⟩
    · exact hb
    · rcases h with h | h
      · exact absurd h1 h
      · exact absurd h2 h
  -- the part with the image written and the take checked
  dsimp only
  generalize hc1 : Chip.checkTake [i] { c with lue := c.lue.modify i fun _ => z } = c1
  have hent : c1.lue.entries = c.lue.entries.modify i fun _ => z := by rw [← hc1, Chip.entries_checkTake]; rfl
  have hlink : c1.linkUse = c.linkUse := by rw [← hc1, Chip.linkUse_checkTake]; rfl
  have hmap : c1.lue.eventMap = c.lue.eventMap := by rw [← hc1, Chip.eventMap_checkTake]; rfl
  have hswe : c1.swe = c.swe := by rw [← hc1, Chip.swe_checkTake]
  have htbu : c1.tbu = c.tbu := by rw [← hc1]; exact Chip.same_checkTake [i] _ .tbu (by decide)
  have hlcc : c1.lcc = c.lcc := by rw [← hc1]; exact (Chip.same_checkTake [i] _).lcc
  by_cases hzt : z.Tracked
  · have hzev := z.event_iff.2 hzt
    by_cases het : e.Tracked
    · have heev := e.event_iff.2 het
      rw [if_neg (by simp [heev]), if_neg (by simp [hzev]), if_pos hzev]
      -- the number is bound again where it has changed
      generalize hc2 : (if z.number = e.number then c1 else { c1 with lue := c1.lue.bind z.number i } : Chip) = c2
      have hmap2 : c2.lue.eventMap = if z.Tracked ∧ field e.w1 0 8 ≠ field z.w1 0 8 then
          (c.lue.eventMap.filter fun b => b.2 ≠ i) ++ [(field z.w1 0 8, i)] else c.lue.eventMap := by
        rw [← hc2]
        by_cases hn : z.number = e.number
        · rw [if_pos hn, if_neg fun h => h.2 hn.symm]
          exact hmap
        · rw [if_neg hn, if_pos ⟨hzt, fun h => hn h.symm⟩, ← hmap]
          exact c1.lue.eventMap_bind z.number i
      have hrest : c2.lue.entries = c1.lue.entries ∧ c2.linkUse = c1.linkUse ∧ c2.swe = c1.swe ∧ c2.tbu = c1.tbu ∧
          c2.lcc = c1.lcc := by
        rw [← hc2]
        split <;> exact ⟨rfl, rfl, rfl, rfl, rfl⟩
      obtain ⟨hent2, hlink2, hswe2, htbu2, hlcc2⟩ := hrest
      by_cases hword : word = 2 ∨ word = 3
      · rw [if_pos hword]
        have hnot : e.routeLeft z = (e.route, e.cls) := by
          unfold Entry.routeLeft
          rw [if_neg (by simp [ha]), if_neg (by simp [hzt.1.1])]
        have hyz : z.dirty = e.dirty := by
          have hin : ¬(e.inUse && !y.inUse) = true := by
            have hy31 : y.inUse = true := by rw [Entry.inUse, ← hw.1]; exact hzt.1.1
            simp [hy31]
          have hzy : z = y := by
            rw [← hz', ← hz, Entry.leftUse, if_neg hin]
          rw [hzy, himg.dirty]
        obtain ⟨x, hx, h0, h1, h2, h3⟩ := c.entryWritten_window i word e z c2 het hzt hword hi (hent2.trans hent)
          (hlink2.trans hlink) hmap2 (hswe2.trans hswe) (htbu2.trans htbu) (hlcc2.trans hlcc)
          ⟨hza, hzapp, by rw [hroute, hnot], by rw [hcls, hnot], hzp, hyz⟩
        exact ⟨x, hx, h0.trans hw.1, h1.trans hw.2.1, h2.trans hw.2.2.1, h3.trans hw.2.2.2⟩
      · rw [if_neg hword]
        exact ⟨z, c.entryWritten_stays i word e z c2 (iff_of_true hzt het) (fun _ => hword) (hent2.trans hent)
          (hlink2.trans hlink) hmap2 (hswe2.trans hswe) hzp haside hzapp hdirty hroute hcls, hw⟩
    · have heev : ¬e.event = true := fun h => het (e.event_iff.1 h)
      rw [if_pos (by simp [hzev, heev])]
      obtain ⟨x, hx, h0, h1, h2, h3⟩ := c.entryWritten_enters i word e z c1 hzt het hent hlink hmap hswe htbu haside hzapp
        hroute hcls
      exact ⟨x, hx, h0.trans hw.1, h1.trans hw.2.1, h2.trans hw.2.2.1, h3.trans hw.2.2.2⟩
  · have hzev : ¬z.event = true := fun h => hzt (z.event_iff.1 h)
    by_cases het : e.Tracked
    · have heev := e.event_iff.2 het
      rw [if_neg (by simp [hzev]), if_pos (by simp [heev, hzev])]
      refine ⟨{ z with phase := none, dirty := true }, c.entryWritten_leaves i word e z _ het hzt ?_ hlink ?_ hswe hza hzapp
        hroute hcls, hw⟩
      · show (c1.lue.entries.modify i _) = _
        rw [hent, modify_const]
        rfl
      · rw [← hmap]
        exact c1.lue.eventMap_unbind i
    · have heev : ¬e.event = true := fun h => het (e.event_iff.1 h)
      rw [if_neg (by simp [hzev]), if_neg (by simp [heev]), if_neg hzev]
      exact ⟨z, c.entryWritten_stays i word e z c1 (iff_of_false hzt het) (fun h => absurd h het) hent hlink
        (hmap.trans (if_neg fun h => hzt h.1).symm) hswe hzp haside hzapp hdirty hroute hcls, hw⟩

end Sys2Proof.Machine
end

section
/-! Settles O9: the memory cycle, the subscriber trigger, and the map trigger with the service of the free link. -/

namespace Sys2Proof.Machine

/-! ### The routes after a map write -/

/-- A write leaves no request of its own (R55). -/
theorem Entry.routeLeft_ne_pending (e x : Entry) (h : e.route ≠ .pending) : (e.routeLeft x).1 ≠ .pending := by
  unfold Entry.routeLeft
  split
  · simp
  · split
    · cases hr : e.route <;> simp_all
    · exact h

/-- A request on a live entry that is SETTLED or FAILED makes it PENDING with the class; one IN_FLIGHT stays so (R61). -/
theorem Entry.asked_of_idle (x : Entry) (k : RouteClass) (h0 : bit x.w0 31 = true) (ha : x.aside = false)
    (hr : x.route = .settled ∨ x.route = .failed) : (x.asked k).route = .pending ∧ (x.asked k).cls = some k := by
  unfold Entry.asked
  rw [if_neg (by simp [h0, ha]), if_pos hr]
  exact ⟨rfl, rfl⟩

theorem Entry.asked_of_inFlight (x : Entry) (k : RouteClass) (hr : x.route = .inFlight) :
    (x.asked k).route = .inFlight := by
  unfold Entry.asked
  split
  · exact hr
  · rw [if_neg (by simp [hr])]
    split <;> exact hr

theorem Entry.tracked_of_eventAsked {word : Nat} {e x : Entry} (h : Entry.EventAsked word e x) : x.Tracked := by
  rcases h with ⟨-, h, -⟩ | ⟨⟨-, h, -⟩, -⟩ <;> exact h

/-- A write to an entry that is not PENDING leaves it so, but where it is asked for while its link is idle. -/
theorem Chip.EntryWritten.pending_iff {i word : Nat} {e x : Entry} {c d : Chip} (h : c.EntryWritten i word e x d)
    (hq : e.route ≠ .pending) : x.route = .pending ↔
      Entry.EventAsked word e x ∧ ((e.routeLeft x).1 = .settled ∨ (e.routeLeft x).1 = .failed) := by
  have hne := e.routeLeft_ne_pending x hq
  by_cases ha : Entry.EventAsked word e x
  · obtain ⟨h1, -⟩ := h.asks ha
    have ht := Entry.tracked_of_eventAsked ha
    rw [h1]
    generalize hx : ({ x with route := (e.routeLeft x).1, cls := (e.routeLeft x).2 } : Entry) = y
    have hy : y.route = (e.routeLeft x).1 := by rw [← hx]
    have hyt : y.Tracked := by rw [← hx]; exact ht
    rw [← hy] at hne ⊢
    by_cases hr : y.route = .settled ∨ y.route = .failed
    · exact iff_of_true (y.asked_of_idle .event hyt.1.1 hyt.1.2 hr).1 ⟨ha, hr⟩
    · have hf : y.route = .inFlight := by
        cases hyr : y.route <;> simp_all
      rw [y.asked_of_inFlight .event hf]
      exact iff_of_false nofun fun hh => hr hh.2
  · rw [(h.keeps ha).1]
    exact iff_of_false hne fun hh => ha hh.1

/-- What the free link does after a map write, where nothing waited before it. -/
theorem Chip.EntryWritten.serve_quiet {i word : Nat} {e x : Entry} {c c1 : Chip} (h : c.EntryWritten i word e x c1)
    (hi : c.lue.entries[i]? = some e) (hlife : c1.lcc.lifecycle = .running) (hord : c1.lue.order = none)
    (hq : ∀ y ∈ c.lue.entries, y.route ≠ .pending) :
    c1.serveRoutes = if x.route = .pending then
        (if x.applied = c1.target x then c1.routeSettled i else c1.startRoute i .event (c1.target x))
      else c1 := by
  have hx : c1.lue.entries[i]? = some x := by
    rw [h.entries, List.getElem?_modify_eq, hi]
    rfl
  have hothers : ∀ j y, j ≠ i → c1.lue.entries[j]? = some y → y.route ≠ .pending := by
    intro j y hj hy
    rw [h.entries, List.getElem?_modify_ne _ _ (Ne.symm hj)] at hy
    exact hq y (List.mem_of_getElem? hy)
  by_cases hp : x.route = .pending
  · rw [if_pos hp]
    obtain ⟨ha, hr⟩ := (h.pending_iff (hq e (List.mem_of_getElem? hi))).1 hp
    have ht := Entry.tracked_of_eventAsked ha
    refine c1.serveRoutes_only i x .event hlife hord hx hp ?_ hothers
    rw [(h.asks ha).2]
    exact (Entry.asked_of_idle { x with route := (e.routeLeft x).1, cls := (e.routeLeft x).2 } .event ht.1.1 ht.1.2 hr).2
  · rw [if_neg hp]
    refine c1.serveRoutes_quiet fun y hy => ?_
    obtain ⟨j, hj⟩ := List.mem_iff_getElem?.1 hy
    by_cases hji : j = i
    · subst hji
      rw [hx] at hj
      cases hj
      exact hp
    · exact hothers j y hji hj

/-- Other entries are not touched by the choice for entry `i`. -/
theorem Chip.entries_routeSettled (i : Nat) (c : Chip) : (c.routeSettled i).lue.entries =
    c.lue.entries.modify i fun e => { e with route := .settled, cls := none }.touch := Chip.entries_checkTake _ _

theorem Chip.entries_startRoute (i : Nat) (k : RouteClass) (v : BitVec 7) (c : Chip) : (c.startRoute i k v).lue.entries =
    c.lue.entries.modify i fun e => { e with route := .inFlight, cls := none, attempts := 1 }.touch := rfl

theorem Chip.linkUse_routeSettled (i : Nat) (c : Chip) : (c.routeSettled i).linkUse = c.linkUse :=
  Chip.linkUse_checkTake _ _

theorem Chip.linkUse_iff (c d : Chip) :
    d.linkUse = c.linkUse ↔ d.lue.order = c.lue.order ∧ d.lue.tag = c.lue.tag ∧ d.routeLink = c.routeLink := by
  simp [Chip.linkUse]

/-- A map write with the service of the link after it has the effects of `Chip.mapWritten`. -/
theorem Chip.EntryWritten.mapWritten {i word : Nat} {e x : Entry} {c c1 : Chip} (h : c.EntryWritten i word e x c1)
    (hi : c.lue.entries[i]? = some e) (hs : Chip.Same lineUpPieces c c1) :
    ∃ e', c1.serveRoutes.lue.entries[i]? = some e' ∧ e'.w0 = x.w0 ∧ e'.w1 = x.w1 ∧ e'.w2 = x.w2 ∧ e'.w3 = x.w3 ∧
      c.mapWritten i word e e' c1.serveRoutes := by
  have hx : c1.lue.entries[i]? = some x := by
    rw [h.entries, List.getElem?_modify_eq, hi]
    rfl
  obtain ⟨horder, htag, hlink⟩ := (Chip.linkUse_iff _ _).1 h.link
  have hlife : c1.lcc.lifecycle = c.lcc.lifecycle := by rw [hs.lcc]
  have htbu : c1.tbu = c.tbu := hs .tbu (by decide)
  have hset : c1.settings = c.settings := hs .settings (by decide)
  have hserved := c1.linkServed_serveRoutes
  -- a link that is busy serves nothing; with nothing else waiting it serves the entry at most
  have hbusy : c.lue.order.isSome = true ∨ c.lcc.lifecycle ≠ .running → c1.serveRoutes = c1 := fun hb =>
    c1.serveRoutes_busy (by rw [horder, hlife]; exact hb)
  have hquiet : ¬(c.lue.order.isSome = true ∨ c.lcc.lifecycle ≠ .running) → (∀ y ∈ c.lue.entries, y.route ≠ .pending) →
      c1.serveRoutes = if x.route = .pending then
        (if x.applied = c1.target x then c1.routeSettled i else c1.startRoute i .event (c1.target x)) else c1 := by
    intro hb hq
    simp only [not_or, not_not, Bool.not_eq_true, Option.isSome_eq_false_iff, Option.isNone_iff_eq_none] at hb
    exact h.serve_quiet hi (by rw [hlife]; exact hb.2) (by rw [horder]; exact hb.1) hq
  have hidle : (c.lue.order.isSome = true ∨ c.lcc.lifecycle ≠ .running) ∨ (∀ y ∈ c.lue.entries, y.route ≠ .pending) →
      ¬Entry.EventAsked word e x → c1.serveRoutes = c1 := by
    intro hb hn
    by_cases hbb : c.lue.order.isSome = true ∨ c.lcc.lifecycle ≠ .running
    · exact hbusy hbb
    · have hq := hb.resolve_left hbb
      have hnp : ¬x.route = .pending := fun hp => hn ((h.pending_iff (hq e (List.mem_of_getElem? hi))).1 hp).1
      rw [hquiet hbb hq, if_neg hnp]
  obtain ⟨e', he', r, k, n, b, rfl, hdirty⟩ := hserved.entry i x hx
  refine ⟨_, he', rfl, rfl, rfl, rfl, h.aside, h.applied, hserved.map.trans h.map, h.phase,
    fun hc => hserved.swe.trans (h.swe hc), fun hc hl hlen => ?_, fun hch => ?_, fun hb j hj => ?_, fun hn hb => ?_,
    fun ha hb => ?_, fun ha hb hq hr => ?_⟩
  · rw [hserved.swe]
    exact h.close hc hl hlen
  · rcases hdirty with hd | hd
    · rw [hd] at hch ⊢
      exact h.dirty hch
    · exact hd
  · have hother : c1.lue.entries[j]? = c.lue.entries[j]? := by rw [h.entries, List.getElem?_modify_ne _ _ (Ne.symm hj)]
    rw [← hother]
    by_cases hbb : c.lue.order.isSome = true ∨ c.lcc.lifecycle ≠ .running
    · rw [hbusy hbb]
    · rw [hquiet hbb (hb.resolve_left hbb)]
      split
      · split
        · rw [Chip.entries_routeSettled, List.getElem?_modify_ne _ _ (Ne.symm hj)]
        · rw [Chip.entries_startRoute, List.getElem?_modify_ne _ _ (Ne.symm hj)]
      · rfl
  · have hsame := hidle hb hn
    rw [hsame, hx] at he'
    rw [hsame, ← Option.some.inj he']
    exact ⟨(h.keeps hn).1, (h.keeps hn).2, horder, hlink⟩
  · have hsame := hbusy hb
    rw [hsame, hx] at he'
    rw [hsame, ← Option.some.inj he']
    exact ⟨(h.asks ha).1, (h.asks ha).2, horder, hlink⟩
  · have hp : x.route = .pending := (h.pending_iff (hq e (List.mem_of_getElem? hi))).2 ⟨ha, hr⟩
    have hserve := hquiet hb hq
    rw [if_pos hp] at hserve
    have hfb : c1.fallback = c.fallback := congrArg (fun t : Tbu => decide (t.heartbeat = .expired)) htbu
    have htarget : c1.target x = x.wanted c.fallback c.settings.fallbackSource := by
      rw [c1.target_eq_wanted, hfb, hset]
    have hnone : c.lue.order = none := by
      cases ho : c.lue.order with
      | none => rfl
      | some o => exact absurd (Or.inl (by rw [ho]; rfl)) hb
    refine ⟨fun happ => ?_, fun happ => ?_⟩
    · rw [if_pos (htarget ▸ happ)] at hserve
      rw [hserve, Chip.entries_routeSettled, List.getElem?_modify_eq, hx] at he'
      rw [hserve, ← Option.some.inj he', ((Chip.linkUse_iff _ _).1 (Chip.linkUse_routeSettled i c1)).1, horder, hnone]
      exact ⟨rfl, rfl, rfl⟩
    · rw [if_neg (htarget ▸ happ)] at hserve
      rw [hserve, Chip.entries_startRoute, List.getElem?_modify_eq, hx] at he'
      rw [hserve, htarget, ← Option.some.inj he']
      refine ⟨⟨?_, ?_, ?_⟩, rfl, rfl, rfl⟩
      · show some (RouteOrder.mk i _ c1.lue.tag (c1.tbu.mono + c1.settings.routeTimeout) .event) = _
        rw [htag, htbu, hset]
        rfl
      · show c1.lue.tag + 1 = _
        rw [htag]
      · show c1.routeLink.sent ++ [routeFrame i _ c1.lue.tag] = _
        rw [hlink, htag]
        rfl

/-- The trigger of a taken map write (R51, R55, R75). -/
theorem Chip.mapTrigger_written (i word : Nat) (v : Word) (e : Entry) (c : Chip) (hi : c.lue.entries[i]? = some e)
    (hword : word < 4) :
    ∃ e', (c.mapTrigger i word v).lue.entries[i]? = some e' ∧ e'.w0 = (if word = 0 then v else e.w0) ∧
      e'.w1 = (if word = 1 then v else e.w1) ∧ e'.w2 = (if word = 2 then v else e.w2) ∧
      e'.w3 = (if word = 3 then v else e.w3) ∧ c.mapWritten i word e e' (c.mapTrigger i word v) := by
  have himg := e.image_withWord word v
  obtain ⟨hw0, hw1, hw2, hw3⟩ := e.withWord_words word v hword
  have hlen : i < c.lue.entries.length := (List.getElem?_eq_some_iff.1 hi).1
  unfold Chip.mapTrigger
  rw [hi]
  dsimp only
  generalize hd : (if e.aside then c.asideWrite i (e.withWord word v) else c.entryWrite i word e (e.withWord word v)) = d
  have hwritten : ∃ x, c.EntryWritten i word e x d ∧ x.w0 = (e.withWord word v).w0 ∧ x.w1 = (e.withWord word v).w1 ∧
      x.w2 = (e.withWord word v).w2 ∧ x.w3 = (e.withWord word v).w3 := by
    rw [← hd]
    cases ha : e.aside with
    | true => exact c.asideWrite_written i word e _ ha himg
    | false => exact c.entryWrite_written i word e _ hlen ha himg
  have hsame : Chip.Same lineUpPieces c d := by
    rw [← hd]
    exact Chip.Same.ite (c.same_asideWrite _ _) (c.same_entryWrite _ _ _ _)
  obtain ⟨x, hx, h0, h1, h2, h3⟩ := hwritten
  obtain ⟨e', he', k0, k1, k2, k3, hm⟩ := hx.mapWritten hi hsame
  exact ⟨e', he', by rw [k0, h0, hw0], by rw [k1, h1, hw1], by rw [k2, h2, hw2], by rw [k3, h3, hw3], hm⟩

/-- What `Chip.mapWritten` says is about the line-up, the sweep queue, the route link, time, settings and the lifecycle. -/
theorem Chip.mapWritten_congr (i word : Nat) (e e' : Entry) {c c' d d' : Chip} (hl : c'.lue = c.lue)
    (hcc : c'.lcc = c.lcc) (ht : c'.tbu = c.tbu) (hst : c'.settings = c.settings) (hsw : c'.swe = c.swe)
    (hr : c'.routeLink = c.routeLink) (hl' : d'.lue = d.lue) (hsw' : d'.swe = d.swe) (hr' : d'.routeLink = d.routeLink)
    (h : c.mapWritten i word e e' d) : c'.mapWritten i word e e' d' := by
  have hfb : c'.fallback = c.fallback := congrArg (fun t : Tbu => decide (t.heartbeat = .expired)) ht
  unfold Chip.mapWritten Chip.orderSent at h ⊢
  rw [hl, hcc, ht, hst, hsw, hr, hl', hsw', hr', hfb]
  exact h

/-! ### Grants leave a port that does not wait -/

theorem Chip.port_grantPort (p q : Port) (c : Chip) (h : (c.port p).waiting = false) (hq : (c.port q).waiting = true) :
    (c.grantPort q).port p = c.port p := by
  have hpq : p = otherPort q := by
    cases p <;> cases q <;> first | rfl | (rw [h] at hq; cases hq)
  rw [hpq]
  exact (c.grantPort_waiting q hq).2

/-- A port that does not wait stays as it is while requests are presented and the memory port is granted. -/
theorem Chip.port_arbitrate (p : Port) (n : Nat) (c : Chip) (h : (c.port p).waiting = false) :
    (c.arbitrate n).port p = c.port p := by
  induction n generalizing c with
  | zero => rfl
  | succ n ih =>
    have hgrant : ∀ q, (c.port q).waiting = true → ((c.grantPort q).present.arbitrate n).port p = c.port p := by
      intro q hq
      have hport : (c.grantPort q).present.port p = c.port p := by
        rw [Chip.port_present, c.port_grantPort p q h hq]
      rw [ih _ (by rw [hport]; exact h), hport]
    unfold Chip.arbitrate
    split
    · split
      · rfl
      · cases p <;> rfl
      · rename_i hn
        exact hgrant .a (c.nextClaimant_waits _ hn)
      · rename_i hn
        exact hgrant .b (c.nextClaimant_waits _ hn)
    · rfl

theorem Chip.port_settle (p : Port) (c : Chip) (h : (c.port p).waiting = false) : c.settle.port p = c.port p := by
  unfold Chip.settle
  rw [Chip.port_arbitrate p 3 _ (by rw [Chip.port_present]; exact h), Chip.port_present]

/-! ### The end of a memory cycle -/

theorem Chip.port_cycleEnded (p : Port) (d : Word) (tr : Option Trigger) (c : Chip) :
    (c.cycleEnded p d tr).port p = { c.port p with out := none, answer := some ⟨false, d⟩ } := by
  rw [← Chip.port_endAccess p false d c]
  cases tr with
  | none => rfl
  | some t => exact (Chip.same_handTrigger t _).port p (by cases p <;> decide)

/-- With no access of the other port waiting, the end of a memory cycle changes what it changes itself, the arbiter and
requests. -/
theorem Chip.same_settle_cycleEnded (p : Port) (d : Word) (tr : Option Trigger) (c : Chip)
    (hw : (c.port (otherPort p)).waiting = false) :
    Chip.Same [.requests, .jobs, .arbiter] (c.cycleEnded p d tr) (c.cycleEnded p d tr).settle := by
  refine Chip.same_settle_quiet _ fun _ => Chip.no_port_waits p _ ?_ ?_
  · rw [Chip.port_cycleEnded]
    rfl
  · rw [(Chip.same_cycleEnded p d tr c).port (otherPort p) (by cases p <;> decide)]
    exact hw

theorem Chip.request_eq (r : EvalRequest) (c : Chip) (h : c.working = true) :
    c.request r = { c with toe := { c.toe with evals := placeEval c.toe.evals r } } := if_pos h

/-- The request that a subscriber write places (R77). -/
def Trigger.evalRequest (tr : Trigger) : EvalRequest :=
  if tr.word ≠ 0 then ⟨tr.index, .evaluate, false⟩
  else if bit tr.value 31 = true then ⟨tr.index, .evaluate, true⟩ else ⟨tr.index, .retire, false⟩

theorem Chip.handTrigger_subscribers (tr : Trigger) (c : Chip) (hw : c.working = true) (ht : tr.table = .subscribers) :
    c.handTrigger tr = { c with toe := { c.toe with evals := placeEval c.toe.evals tr.evalRequest } } := by
  unfold Chip.handTrigger Trigger.evalRequest
  rw [if_pos hw, ht]
  dsimp only
  by_cases h0 : tr.word = 0
  · rw [if_pos h0, if_neg (not_not_intro h0)]
    unfold subInUse
    split <;> exact c.request_eq _ hw
  · rw [if_neg h0, if_pos h0]
    exact c.request_eq _ hw

theorem Chip.handTrigger_channelMap (tr : Trigger) (c : Chip) (hw : c.working = true) (ht : tr.table = .channelMap) :
    c.handTrigger tr = c.mapTrigger tr.index tr.word tr.value := by
  unfold Chip.handTrigger
  rw [if_pos hw, ht]

/-- Settles O9: what the cycle's end does itself, then the trigger by its table. -/
theorem memoryCycleEndsTheAccess : Obligations.MemoryCycleEndsTheAccess := by
  refine ⟨fun s p a tr hm => ?_, fun s p a tr hm hw hl => ?_⟩
  · refine ⟨_, exec_memoryCycleComplete s p a tr hm, rfl, rfl, ?_⟩
    have hport := s.chip.port_cycleEnded p (s.mem.returned a) tr
    have hset := Chip.port_settle p (s.chip.cycleEnded p (s.mem.returned a) tr) (by rw [hport]; rfl)
    rw [hport] at hset
    refine ⟨by dsimp only; rw [hset], by dsimp only; rw [hset], fun n hh => ?_, fun htr hw => ?_⟩
    · have hkeep : (s.chip.cycleEnded p (s.mem.returned a) tr).par.holder = .host p true n := by
        rw [Chip.par_cycleEnded, Chip.holder_endAccess p _ _ _ true n hh]
        rfl
      dsimp only
      rw [Chip.settle_held _ (by rw [hkeep]; simp), Chip.par_present, hkeep]
    · subst htr
      have h1 := Chip.same_endAccess p false (s.mem.returned a) s.chip
      have h2 := s.chip.same_settle_cycleEnded p (s.mem.returned a) none hw
      exact (h1.mono (by simp)).then (h2.mono (by simp))
  · refine ⟨_, exec_memoryCycleComplete s p a (some tr) hm, rfl, ?_⟩
    have hend := Chip.same_endAccess p false (s.mem.returned a) s.chip
    have hset := s.chip.same_settle_cycleEnded p (s.mem.returned a) (some tr) hw
    have hwork : (s.chip.endAccess p false (s.mem.returned a)).working = true := by
      unfold Chip.working
      rw [hend.lcc (by cases p <;> decide)]
      simpa using hl
    refine ⟨fun ht => ?_, fun ht e he hword => ?_⟩
    · have hhand : s.chip.cycleEnded p (s.mem.returned a) (some tr) = _ := Chip.handTrigger_subscribers tr _ hwork ht
      have hpieces : Chip.Same [.toe] (s.chip.endAccess p false (s.mem.returned a))
          (s.chip.cycleEnded p (s.mem.returned a) (some tr)) := by
        rw [hhand]
        intro x hx; cases x <;> first | exact absurd (by decide) hx | rfl | exact ⟨rfl, rfl⟩
      refine ⟨((hend.mono (by simp)).then (hpieces.mono (by simp))).then (hset.mono (by simp)), ?_⟩
      dsimp only
      rw [hset .toe (by decide), hhand]
      dsimp only
      rw [hend .toe (by cases p <;> decide)]
      rfl
    · have hhand : s.chip.cycleEnded p (s.mem.returned a) (some tr) = _ := Chip.handTrigger_channelMap tr _ hwork ht
      have hlue : (s.chip.endAccess p false (s.mem.returned a)).lue = s.chip.lue := hend .lue (by cases p <;> decide)
      obtain ⟨e', he', h0, h1, h2, h3, hm'⟩ := Chip.mapTrigger_written tr.index tr.word tr.value e
        (s.chip.endAccess p false (s.mem.returned a)) (by rw [hlue]; exact he) hword
      rw [← hhand] at he' hm'
      have hpieces : Chip.Same lineUpPieces (s.chip.endAccess p false (s.mem.returned a))
          (s.chip.cycleEnded p (s.mem.returned a) (some tr)) := by
        rw [hhand]
        exact Chip.same_mapTrigger _ _ _ _
      refine ⟨((hend.mono (by simp)).then (hpieces.mono fun x hx => by simp [hx])).then (hset.mono (by simp)), e', ?_, h0,
        h1, h2, h3, ?_⟩
      · dsimp only
        rw [hset .lue (by decide)]
        exact he'
      · exact Chip.mapWritten_congr tr.index tr.word e e' hlue.symm (hend.lcc (by cases p <;> decide)).symm
          (hend .tbu (by cases p <;> decide)).symm (hend .settings (by cases p <;> decide)).symm
          (hend .swe (by cases p <;> decide)).symm (hend .routeLink (by cases p <;> decide)).symm (hset .lue (by decide))
          (hset .swe (by decide)) (hset .routeLink (by decide)) hm'

end Sys2Proof.Machine
end

section
/-! What blocks ask for, and what presenting it leaves (R6): the jobs to come and the TAU's requests. -/

namespace Sys2Proof.Machine

/-- The LCC's items but for its jobs to come. -/
theorem Chip.Same.lccItems {L : List Piece} {c d : Chip} (h : Chip.Same L c d) (hL : .lcc ∉ L := by decide) :
    d.lcc.lifecycle = c.lcc.lifecycle ∧ d.lcc.phase = c.lcc.phase ∧ d.lcc.faults = c.lcc.faults ∧
      d.lcc.profile = c.lcc.profile := by
  have h1 : { d.lcc with jobs := [] } = { c.lcc with jobs := [] } := h .lcc hL
  have hlife := congrArg Lcc.lifecycle h1
  have hphase := congrArg Lcc.phase h1
  have hfaults := congrArg Lcc.faults h1
  have hprofile := congrArg Lcc.profile h1
  exact ⟨hlife, hphase, hfaults, hprofile⟩

/-- The request that a block is about to present. -/
def Chip.asks (b : Block) (c : Chip) : Option Job := if c.outstanding b then none else c.wants b

theorem Chip.asks_block (b : Block) (j : Job) (c : Chip) (h : c.asks b = some j) : j.block = b := by
  unfold Chip.asks at h
  split at h
  · cases h
  · exact c.wants_block b j h

theorem allBlocks_mem (b : Block) : b ∈ allBlocks := by cases b <;> decide

theorem allBlocks_count (b : Block) : allBlocks.countP (fun b' => decide (b' = b)) = 1 := by cases b <;> decide

theorem Chip.mem_requests (j : Job) (c : Chip) : j ∈ c.requests ↔ c.asks j.block = some j := by
  rw [Chip.requests, List.mem_filterMap]
  constructor
  · rintro ⟨b, -, hb⟩
    rw [c.asks_block b j hb]
    exact hb
  · exact fun h => ⟨j.block, allBlocks_mem _, h⟩

/-- Each block presents one request at most. -/
theorem Chip.countP_requests (b : Block) (p : Job → Bool) (c : Chip) (hp : ∀ j, p j = true → j.block = b) :
    c.requests.countP p = if (c.asks b).any p then 1 else 0 := by
  have hsel : ∀ b', ((c.asks b').map p).getD false = (decide (b' = b) && (c.asks b).any p) := by
    intro b'
    cases ha : c.asks b' with
    | none =>
      by_cases hb : b' = b
      · subst hb
        simp [ha]
      · simp [hb]
    | some j =>
      by_cases hb : b' = b
      · subst hb
        simp [ha]
      · have hf : p j = false := by
          cases hpj : p j with
          | false => rfl
          | true => exact absurd ((c.asks_block b' j ha).symm.trans (hp j hpj)) hb
        simp [hb, hf]
  have hcount : c.requests.countP p = allBlocks.countP fun b' => ((c.asks b').map p).getD false := by
    rw [show c.requests = allBlocks.filterMap fun b' => c.asks b' from rfl, List.countP_filterMap]
  rw [hcount]
  simp only [hsel]
  cases hany : (c.asks b).any p with
  | true => simpa using allBlocks_count b
  | false => simp

theorem Chip.lcc_jobs_asked (l : List Job) (c : Chip) :
    (l.foldl Chip.asked c).lcc.jobs = c.lcc.jobs.drop (l.countP fun j => j.block = .lcc) := by
  induction l generalizing c with
  | nil => rfl
  | cons j l ih =>
    rw [List.foldl_cons, ih, List.countP_cons]
    by_cases hj : j.block = .lcc
    · have h : (c.asked j).lcc.jobs = c.lcc.jobs.tail := by unfold Chip.asked; simp [hj]
      simp [h, hj, Nat.add_comm]
    · obtain ⟨x, y, h, hx, -⟩ := c.asked_eq j
      simp [h, hx hj, hj]

/-- A job that leaves the SLM's list when it is asked for: any but that of the write set. -/
def Job.ofSlmList (j : Job) : Bool := decide (j.block = .slm) && decide (j ≠ .slmWrite)

theorem Chip.slm_jobs_asked (l : List Job) (c : Chip) :
    (l.foldl Chip.asked c).slm.jobs = c.slm.jobs.drop (l.countP Job.ofSlmList) := by
  induction l generalizing c with
  | nil => rfl
  | cons j l ih =>
    have h : (c.asked j).slm.jobs = if j.ofSlmList then c.slm.jobs.tail else c.slm.jobs := by
      cases j <;> rfl
    rw [List.foldl_cons, ih, List.countP_cons, h]
    split <;> simp

/-- What presenting requests leaves of the jobs to come, out of reset. -/
theorem Chip.jobs_present (c : Chip) (hr : c.resetLow = false) :
    c.present.lcc.jobs = (if (c.asks .lcc).isSome then c.lcc.jobs.tail else c.lcc.jobs) ∧
      c.present.slm.jobs = (if (c.asks .slm).any Job.ofSlmList then c.slm.jobs.tail else c.slm.jobs) := by
  have hl := c.countP_requests .lcc (fun j => decide (j.block = .lcc)) fun j hj => of_decide_eq_true hj
  have hs := c.countP_requests .slm Job.ofSlmList fun j hj => by
    simp only [Job.ofSlmList, Bool.and_eq_true, decide_eq_true_eq] at hj
    exact hj.1
  have hall : (c.asks .lcc).any (fun j => decide (j.block = .lcc)) = (c.asks .lcc).isSome := by
    cases h : c.asks .lcc with
    | none => rfl
    | some j => simpa using c.asks_block _ j h
  rw [hall] at hl
  have hjobs : c.present.lcc.jobs = c.lcc.jobs.drop (c.requests.countP fun j => decide (j.block = .lcc)) ∧
      c.present.slm.jobs = c.slm.jobs.drop (c.requests.countP Job.ofSlmList) := by
    unfold Chip.present
    split
    · rename_i he
      simp only [hr, Bool.false_or, List.isEmpty_iff] at he
      simp [he]
    · exact ⟨Chip.lcc_jobs_asked _ c, Chip.slm_jobs_asked _ c⟩
  rw [hjobs.1, hjobs.2, hl, hs]
  constructor
  · split <;> simp
  · split <;> simp

/-! ### The same where no port is granted in the step -/

/-- Where no port waits on a free memory port, only the arbiter tells what settles from what has presented. -/
theorem Chip.settle_quiet (c : Chip) (h : c.par.holder = .free → c.portA.waiting = false ∧ c.portB.waiting = false) :
    ∃ x, c.settle = { c.present with par := x } := by
  by_cases hf : c.par.holder = .free
  · obtain ⟨pa, pb⟩ := c.present_ports
    unfold Chip.settle
    rcases Chip.arbitrate_quiet 3 c.present (by rw [pa]; exact (h hf).1) (by rw [pb]; exact (h hf).2) with h1 | h1
    · exact ⟨c.present.par, h1⟩
    · exact ⟨_, h1⟩
  · exact ⟨c.present.par, c.settle_held hf⟩

/-- A request that a block is about to present stands at the TAU when the part has settled. -/
theorem Chip.requested_settle (j : Job) (c : Chip) (hr : c.resetLow = false)
    (h : c.par.holder = .free → c.portA.waiting = false ∧ c.portB.waiting = false) (ha : c.asks j.block = some j) :
    c.settle.requested j := by
  obtain ⟨x, hx⟩ := c.settle_quiet h
  obtain ⟨_, _, o, hp, -, -, hreq, -⟩ := c.present_eq
  rw [hx]
  unfold Chip.requested
  dsimp only
  rw [hp]
  exact hreq hr j ((c.mem_requests j).2 ha)

theorem Chip.jobs_settle (c : Chip) (hr : c.resetLow = false)
    (h : c.par.holder = .free → c.portA.waiting = false ∧ c.portB.waiting = false) :
    c.settle.lcc.jobs = (if (c.asks .lcc).isSome then c.lcc.jobs.tail else c.lcc.jobs) ∧
      c.settle.slm.jobs = (if (c.asks .slm).any Job.ofSlmList then c.slm.jobs.tail else c.slm.jobs) := by
  obtain ⟨x, hx⟩ := c.settle_quiet h
  rw [hx]
  exact c.jobs_present hr

/-- The LCC's next job is asked for. -/
theorem Chip.asks_lcc (j : Job) (rest : List Job) (c : Chip) (hj : c.lcc.jobs = j :: rest) (hb : j.block = .lcc)
    (ho : c.outstanding .lcc = false) : c.asks .lcc = some j := by
  simp [Chip.asks, ho, Chip.wants, hj, hb]

/-- The LCC's next job stands at the TAU when the part has settled, and the others are to come. -/
theorem Chip.lcc_settle_asked (j : Job) (rest : List Job) (c : Chip) (hr : c.resetLow = false)
    (h : c.par.holder = .free → c.portA.waiting = false ∧ c.portB.waiting = false) (hj : c.lcc.jobs = j :: rest)
    (hb : j.block = .lcc) (ho : c.outstanding .lcc = false) :
    c.settle.requested j ∧ c.settle.lcc.jobs = rest := by
  have ha := c.asks_lcc j rest hj hb ho
  refine ⟨c.requested_settle j hr h (by rw [hb]; exact ha), ?_⟩
  rw [(c.jobs_settle hr h).1, ha, hj]
  rfl

end Sys2Proof.Machine
end

section
/-! Phase 1 of a load (O49): its tenures, and the map, the settings and the mask that a profile without a fault gives. -/

namespace Sys2Proof.Machine

/-- A job that the TAU offers keeps its block outstanding. -/
theorem Chip.outstanding_of_offers (j : Job) (c : Chip) (h : c.offers j = true) : c.outstanding j.block = true := by
  obtain ⟨-, -, -, batch, rest, ho, hj, -⟩ := (c.offers_iff j).1 h
  simp only [Chip.outstanding, ho, Bool.or_eq_true, List.any_cons]
  exact Or.inl (Or.inl (List.any_eq_true.2 ⟨j, hj, by simp⟩))

theorem Chip.lccIdle_iff (c : Chip) : c.lccIdle = true ↔ c.lcc.jobs = [] ∧ c.outstanding .lcc = false := by
  simp [Chip.lccIdle]

theorem Chip.loadingPhase_iff (n : Nat) (c : Chip) :
    c.loadingPhase n = true ↔ c.lcc.lifecycle = .loading ∧ c.lcc.phase = n := by
  simp [Chip.loadingPhase]

/-- While the TAU offers a tenure of the LCC, phase 1 is not at its end. -/
theorem exec_loadPhase1_tenure (s : State) (j : Job) (h : s.chip.offers j = true) (hj : j.block = .lcc) :
    exec .loadPhase1 s = s.tenure phase1Pick Chip.phase1Body := by
  have hout := s.chip.outstanding_of_offers j h
  rw [hj] at hout
  have hn : ¬(s.chip.loadingPhase 1 && s.chip.lccIdle) = true := by simp [Chip.lccIdle, hout]
  exact if_neg hn

theorem phase1Pick_block (c : Chip) (j : Job) (h : phase1Pick c j = true) : j.block = .lcc := by
  cases j <;> first | rfl | simp [phase1Pick] at h

/-- The tenure granted runs the job, with the writes that its body has made. -/
theorem Chip.runs_granted (j : Job) (writes : List (Addr × Word)) (t : Tenure) (c : Chip) (hr : c.tau.running = some t)
    (hj : t.job = j) (hw : t.writes = writes) : c.closeGrant.present.runs j writes := by
  obtain ⟨o, ho⟩ := c.closeGrant_running t hr
  exact ⟨{ t with owed := t.owed ++ o }, by rw [Chip.running_present, ho], hj, hw⟩

/-! ### The layout of the profile (spec/11) -/

theorem rightOf_eq (code : BitVec 2) :
    rightOf code = if code.toNat = 1 then .read else if code.toNat = 2 then .readWrite else .none := by
  revert code
  decide

/-- The map of a profile, word by word. -/
theorem Profile.map_eq (p : Profile) :
    (let w := fun n => p.getD n 0
    let num := fun n lo width => fieldNat (w n) lo width
    let right := fun n lo : Nat =>
      if num n lo 2 = 1 then Right.read else if num n lo 2 = 2 then Right.readWrite else Right.none
    p.map.memSize = 1048576 * num 1 8 5 ∧
      p.map.tables = some {
        channelMap := ⟨num 2 0 24, num 2 24 8, right 9 0, right 9 2⟩
        subscribers := ⟨num 3 0 24, num 4 0 13, right 9 4, right 9 6⟩
        nodes := ⟨num 5 0 24, 32, right 9 8, right 9 10⟩
        outages := ⟨num 6 0 24, 64, right 9 12, right 9 14⟩
        chargeLog := ⟨num 7 0 24, num 8 0 16, right 9 16, right 9 18⟩ } ∧
      p.map.guards = ((List.range 8).filter fun g => bit (w (10 + 2 * g)) 31).map (fun g =>
        ⟨4096 * num (10 + 2 * g) 0 12, 4096 * num (11 + 2 * g) 0 13, right (11 + 2 * g) 16, right (11 + 2 * g) 18⟩) ∧
      p.map.permitA = field (w 26) 0 8 ∧ p.map.permitB = field (w 26) 8 8) := by
  simp only [Profile.map, Profile.placement, Profile.guardCode, Profile.rightCode, rightOf_eq]
  exact ⟨rfl, rfl, rfl, rfl, rfl⟩

/-! ### The end of phase 1 -/

theorem Chip.endPhase1_passed (c : Chip) (h : Profile.faults c.lcc.profile = 0) :
    c.endPhase1 = Chip.markStatus { c with
      map := Profile.map c.lcc.profile
      settings := Profile.settings c.lcc.profile
      rpu := { c.rpu with mask := Profile.mask c.lcc.profile }
      lcc := { c.lcc with phase := 2, jobs := [.nodeTable 0, .nodeTable 1] } } := if_pos h

theorem Chip.endPhase1_failed (c : Chip) (h : Profile.faults c.lcc.profile ≠ 0) :
    c.endPhase1 = Chip.enterLoadFault (Profile.faults c.lcc.profile)
      { c with map := .reset, rpu := { c.rpu with mask := 0xFFFF } } := if_neg h

/-- The end of phase 1 leaves what is outstanding. -/
theorem Chip.outstanding_endPhase1 (b : Block) (c : Chip) : c.endPhase1.outstanding b = c.outstanding b := by
  have h : c.endPhase1.tau = c.tau := by
    unfold Chip.endPhase1
    dsimp only
    split <;> rfl
  simp only [Chip.outstanding, h]

theorem exec_loadPhase1_end (s : State) (hl : s.chip.lcc.lifecycle = .loading) (hp : s.chip.lcc.phase = 1)
    (hi : s.chip.lccIdle = true) : exec .loadPhase1 s = s.event true Chip.endPhase1 := by
  have h : (s.chip.loadingPhase 1 && s.chip.lccIdle) = true := by
    rw [(s.chip.loadingPhase_iff 1).2 ⟨hl, hp⟩, hi]
    rfl
  exact if_pos h

/-- Settles O49: one branch per job of the phase, and its end by the faults found. -/
theorem loadPhase1TestsTheProfile : Obligations.LoadPhase1TestsTheProfile := by
  refine fun s => ⟨fun k h => ?_, fun h hp => ?_, fun hq hl hp hi => ?_⟩
  · obtain ⟨ht, hg⟩ := s.tenure_granted (.profile k) phase1Pick Chip.phase1Body [.lcc] h rfl
      (fun j hj => phase1Pick_block _ j hj)
      (by intro x hx; cases x <;> first | exact absurd (by decide) hx | rfl | exact ⟨rfl, rfl⟩) (by decide)
    refine ⟨_, (exec_loadPhase1_tenure s _ h rfl).trans ht, hg, Chip.runs_granted (.profile k) [] _ _ rfl rfl rfl, ?_⟩
    have hlcc : ∀ c : Chip, c.closeGrant.present.lcc.profile = c.lcc.profile := fun c =>
      (c.closeGrant.same_present.lccItems).2.2.2.trans (c.same_closeGrant.lccItems).2.2.2
    exact hlcc _
  · obtain ⟨ht, hg⟩ := s.tenure_granted .faultSet phase1Pick Chip.phase1Body [.tenure] h (by simpa [phase1Pick] using hp)
      (fun j hj => phase1Pick_block _ j hj) (Chip.same_writeStation _ _ _) (by decide)
    exact ⟨_, (exec_loadPhase1_tenure s _ h rfl).trans ht, ⟨hg.1, hg.2.1, hg.2.2.mono (by decide)⟩,
      Chip.runs_granted .faultSet _ _ _ rfl rfl rfl⟩
  · obtain ⟨hjobs, hout⟩ := s.chip.lccIdle_iff.1 hi
    obtain ⟨hr, hw⟩ := s.chip.quiet_iff.1 hq
    obtain ⟨ht, hh⟩ := s.event_happened true Chip.endPhase1 _ rfl hq s.chip.same_endPhase1 (by decide)
    have hsame := s.chip.same_endPhase1
    have hrd : s.chip.endPhase1.resetLow = false := by rw [hsame .resetLine (by decide)]; exact hr
    have hwd : s.chip.endPhase1.par.holder = .free →
        s.chip.endPhase1.portA.waiting = false ∧ s.chip.endPhase1.portB.waiting = false := by
      rw [hsame .arbiter (by decide), hsame .portA (by decide), hsame .portB (by decide)]
      exact hw
    have hod : s.chip.endPhase1.outstanding .lcc = false := by rw [Chip.outstanding_endPhase1]; exact hout
    have hset := Chip.same_settle_quiet _ hwd
    refine ⟨_, (exec_loadPhase1_end s hl hp hi).trans ht, ⟨hh.1, hh.2.1, hh.2.2.mono (by decide)⟩, fun hf => ?_, fun hf => ?_⟩
    · have heq := s.chip.endPhase1_passed hf
      obtain ⟨hreq, hrest⟩ := s.chip.endPhase1.lcc_settle_asked (.nodeTable 0) [.nodeTable 1] hrd hwd (by rw [heq]; rfl) rfl
        hod
      obtain ⟨hlife, hphase, -⟩ := hset.lccItems
      have hmap : s.chip.endPhase1.settle.map = Profile.map s.chip.lcc.profile := by
        rw [hset .map (by decide), heq]
        rfl
      obtain ⟨hm1, hm2, hm3, hm4, hm5⟩ := Profile.map_eq s.chip.lcc.profile
      refine ⟨?_, ?_, ?_, ?_, ?_, ?_, ?_, ?_, ?_, ?_, hreq, hrest⟩
      · rw [hlife, heq]
        exact hl
      · rw [hphase, heq]
        rfl
      · exact (congrArg RegionMap.memSize hmap).trans hm1
      · exact (congrArg RegionMap.tables hmap).trans hm2
      · exact (congrArg RegionMap.guards hmap).trans hm3
      · exact (congrArg RegionMap.permitA hmap).trans hm4
      · exact (congrArg RegionMap.permitB hmap).trans hm5
      · rw [hset .settings (by decide), heq]
        rfl
      · rw [hset.rpu, heq]
        rfl
      · rw [hset.rpu, heq]
        rfl
    · have heq := s.chip.endPhase1_failed hf
      obtain ⟨hreq, -⟩ := s.chip.endPhase1.lcc_settle_asked .faultSet [] hrd hwd
        (by rw [heq]; exact congrArg (· ++ [Job.faultSet]) hjobs) rfl hod
      obtain ⟨hlife, hphase, hfaults, -⟩ := hset.lccItems
      refine ⟨?_, ?_, ?_, ?_, ?_, ?_, hreq⟩
      · rw [hlife, heq]
        rfl
      · rw [hphase, heq]
        exact hp
      · rw [hfaults, heq]
        rfl
      · rw [hset .map (by decide), heq]
        rfl
      · rw [hset.rpu, heq, Chip.enterLoadFault, Chip.rpu_raise, Rpu.mask_raise]
        rfl
      · rw [hset.rpu, heq, Chip.enterLoadFault, Chip.rpu_raise, Rpu.isPending_raise]
        simp

end Sys2Proof.Machine
end

section
/-! The end of a tenure, part by part: which pieces each thing owed and each job's end can reach, the load phases, the entry
into STOPPED, and what then settles. -/

namespace Sys2Proof.Machine

/-! ### What is owed -/

/-- The pieces that one thing owed can reach. -/
def payPieces : Owed → List Piece
  | .cause _ => [.rpu]
  | .space => [.toe, .statusMark, .swe, .clu]
  | .request _ => [.toe]
  | .attempt _ => [.toe, .tapLink]
  | .redeadline _ => [.toe]
  | .tapFailure => [.rpu]
  | .slot _ _ _ => [.slm, .swe, .rpu]
  | .snapshot => [.slm, .rpu]
  | .mirrored => [.lue, .rpu]
  | .purchaseEnd _ => [.pcu]
  | .spaceWait => []

theorem Chip.same_firstAttempt_few (n : Nat) (c : Chip) : Chip.Same [.toe, .tapLink] c (c.firstAttempt n) := by
  have hd : ∀ (e : Ending) (d : Chip), Chip.Same [.toe, .tapLink] d (d.decideEnding n e) := fun e d =>
    (d.same_withToe _).mono (by decide)
  unfold Chip.firstAttempt
  split
  · exact .refl _ c
  · refine .ite (.refl _ c) (.ite (hd _ _) (.ite (((c.same_withToe _).mono (by decide)).then (hd _ _)) ?_))
    intro x hx; cases x <;> first | exact absurd (by decide) hx | rfl | exact ⟨rfl, rfl⟩

theorem Chip.same_handRouteCauses_few (c : Chip) : Chip.Same [.lue, .rpu] c c.handRouteCauses := by
  refine Chip.Same.then ?_ (Chip.Same.foldl _ (fun c o => (c.same_raise _).mono (by decide)) _ _)
  intro x hx; cases x <;> first | exact absurd (by decide) hx | rfl | exact ⟨rfl, rfl⟩

theorem Chip.same_snapshotWritten_few (c : Chip) : Chip.Same [.slm, .rpu] c c.snapshotWritten := by
  have h := (c.same_raise .lineEdge).mono (N := [.slm, .rpu]) (by decide)
  exact .ite h (h.then ((Chip.same_withSlm _ _).mono (by decide)))

theorem Chip.same_payOwed_pieces (o : Owed) (c : Chip) : Chip.Same (payPieces o) c (c.payOwed o) := by
  cases o with
  | cause k => exact c.same_raise k
  | space => exact c.same_spaceNotice
  | request r => exact c.same_request r
  | attempt n => exact c.same_firstAttempt_few n
  | redeadline n => exact c.same_withToe _
  | tapFailure => exact c.same_count _
  | slot i d r => exact c.same_handSlot i d r
  | snapshot => exact c.same_snapshotWritten_few
  | mirrored => exact c.same_handRouteCauses_few
  | purchaseEnd r => exact c.same_endEvaluation r
  | spaceWait => exact .refl _ c

/-- What is owed is paid in turn: pieces that none of it reaches stay. -/
theorem Chip.same_paidOff (l : List Owed) (L : List Piece) (c : Chip) (h : ∀ o ∈ l, ∀ x ∈ payPieces o, x ∈ L) :
    Chip.Same L c (l.foldl Chip.payOwed c) := by
  induction l generalizing c with
  | nil => exact .refl _ c
  | cons o l ih =>
    rw [List.foldl_cons]
    exact ((c.same_payOwed_pieces o).mono (h o (by simp))).then (ih _ fun q hq => h q (by simp [hq]))

/-- All pieces that what is owed can reach. -/
def anyPayPieces : List Piece := [.rpu, .toe, .statusMark, .swe, .clu, .tapLink, .slm, .lue, .pcu]

theorem payPieces_any (o : Owed) : ∀ x ∈ payPieces o, x ∈ anyPayPieces := by
  cases o <;> simp [payPieces, anyPayPieces]

theorem Chip.same_paidOff_any (l : List Owed) (c : Chip) : Chip.Same anyPayPieces c (l.foldl Chip.payOwed c) :=
  c.same_paidOff l _ fun o _ => payPieces_any o

/-- A property that everything owed keeps holds when all is paid. -/
theorem Chip.paidOff_keeps (P : Chip → Prop) (l : List Owed) (c : Chip)
    (h : ∀ o ∈ l, ∀ d, P d → P (d.payOwed o)) (hc : P c) : P (l.foldl Chip.payOwed c) := by
  induction l generalizing c with
  | nil => exact hc
  | cons o l ih =>
    rw [List.foldl_cons]
    exact ih _ (fun q hq => h q (by simp [hq])) (h o (by simp) c hc)

/-- What one thing owed brings about stands when all is paid, if the others keep it. -/
theorem Chip.paidOff_reaches (P Q : Chip → Prop) (l : List Owed) (o : Owed) (c : Chip) (ho : o ∈ l)
    (hP : ∀ q ∈ l, ∀ d, P d → P (d.payOwed q)) (hPQ : ∀ d, P d → Q (d.payOwed o))
    (hQ : ∀ q ∈ l, ∀ d, Q d → Q (d.payOwed q)) (hc : P c) : Q (l.foldl Chip.payOwed c) := by
  obtain ⟨l1, l2, rfl⟩ := List.append_of_mem ho
  rw [List.foldl_append, List.foldl_cons]
  refine Chip.paidOff_keeps Q l2 _ (fun q hq => hQ q (by simp [hq])) (hPQ _ ?_)
  exact Chip.paidOff_keeps P l1 c (fun q hq => hP q (by simp [hq])) hc

/-! ### The end of a job -/

/-- The pieces that the end of a sweep tenure can reach. -/
def sweepEndPieces : List Piece := [.swe, .slm, .lue, .rpu, .statusMark, .routeLink]

theorem Chip.same_sweepLeaves_few (c : Chip) : Chip.Same sweepEndPieces c c.sweepLeaves :=
  (c.same_sweepOff _).mono (by decide)

theorem Chip.same_endClose_few (n : BitVec 8) (c : Chip) : Chip.Same sweepEndPieces c (c.endClose n) :=
  (c.same_sweepLeaves_few.then ((Chip.same_closeEnded _ _).mono (by decide))).then
    ((Chip.same_raise _ _).mono (by decide))

theorem Chip.same_endRecorded_few (n : BitVec 16) (c : Chip) : Chip.Same sweepEndPieces c (c.endRecorded n) :=
  (((Chip.same_markSwept n c).mono (by decide)).then (Chip.same_sweepLeaves_few _)).then
    ((Chip.same_raise _ _).mono (by decide))

theorem Chip.same_sweepAdvance_few (c : Chip) : Chip.Same sweepEndPieces c c.sweepAdvance := by
  unfold Chip.sweepAdvance
  split
  · split
    · split
      · exact c.same_endClose_few _
      · exact .ite (.refl _ c) (((c.same_sweepOff _).mono (by decide)).then ((Chip.same_raise _ _).mono (by decide)))
    · exact .refl _ c
  · exact .refl _ c

theorem Chip.same_sweepTenureEnded_few (j : Job) (c : Chip) : Chip.Same sweepEndPieces c (c.sweepTenureEnded j) := by
  unfold Chip.sweepTenureEnded
  split
  · exact .refl _ c
  · split
    · exact c.same_endRecorded_few _
    · exact .ite c.same_sweepAdvance_few (.ite (c.same_endClose_few _) c.same_sweepLeaves_few)
    · exact .ite c.same_sweepAdvance_few c.same_sweepLeaves_few

/-- The pieces that the end of a job can reach. -/
def jobPieces : Job → List Piece
  | .sweepStart | .sweepStep | .sweepEnd => sweepEndPieces
  | .purchase => [.pcu, .portA, .portB, .arbiter, .rpu]
  | .logLoad => [.lcc, .jobs, .statusMark]
  | .outageRead _ | .nextRead | .repair _ => [.slm]
  | _ => []

theorem Chip.same_jobEnded_pieces (j : Job) (c : Chip) : Chip.Same (jobPieces j) c (c.jobEnded j) := by
  cases j with
  | sweepStart => exact c.same_sweepTenureEnded_few _
  | sweepStep => exact c.same_sweepTenureEnded_few _
  | sweepEnd => exact c.same_sweepTenureEnded_few _
  | purchase => exact c.same_takeHeld _
  | logLoad => exact c.same_beginPhase4
  | outageRead _ => exact c.same_outageTenureEnded
  | nextRead => exact c.same_outageTenureEnded
  | repair _ => exact c.same_outageTenureEnded
  | _ => exact .refl _ c

/-! ### What is paid in full -/

/-- The pieces that the payment and the end of the job can reach. -/
def paidPieces : List Piece :=
  [.arbiter, .tenure, .rpu, .toe, .statusMark, .swe, .clu, .tapLink, .slm, .lue, .pcu, .routeLink, .portA, .portB, .lcc,
    .jobs]

theorem jobPieces_paid (j : Job) : ∀ x ∈ jobPieces j, x ∈ paidPieces := by
  cases j <;> simp [jobPieces, paidPieces, sweepEndPieces]

theorem Chip.same_paid_pieces (t : Tenure) (c : Chip) : Chip.Same paidPieces c (c.paid t) :=
  ((c.same_tauFreed.mono (by decide)).then ((Chip.same_paidOff_any _ _).mono (by decide))).then
    ((Chip.same_jobEnded_pieces _ _).mono (jobPieces_paid _))

/-- The end of a tenure leaves the requests at the TAU and no tenure running. -/
theorem Chip.tau_paid (t : Tenure) (c : Chip) :
    (c.paid t).tau.orders = c.tau.orders ∧ (c.paid t).tau.running = none := by
  refine ⟨c.same_paid_pieces t .requests (by decide), ?_⟩
  have h1 : (t.owed.foldl Chip.payOwed c.tauFreed).tau.running = none :=
    Chip.same_paidOff_any t.owed c.tauFreed .tenure (by decide)
  have h2 : ∀ j : Job, .tenure ∉ jobPieces j := by
    intro j; cases j <;> simp [jobPieces, sweepEndPieces]
  exact (Chip.same_jobEnded_pieces t.job _ .tenure (h2 _)).trans h1

theorem Chip.tau_endPhases (c : Chip) :
    c.endPhase4.endPhase5.endStopping.tau.orders = c.tau.orders ∧
      c.endPhase4.endPhase5.endStopping.tau.running = c.tau.running :=
  ⟨c.same_endPhases .requests (by decide), c.same_endPhases .tenure (by decide)⟩

theorem Chip.tau_tenureEnded (t : Tenure) (c : Chip) :
    (c.tenureEnded t).tau.orders = c.tau.orders ∧ (c.tenureEnded t).tau.running = none := by
  obtain ⟨h1, h2⟩ := (c.paid t).tau_endPhases
  obtain ⟨h3, h4⟩ := c.tau_paid t
  exact ⟨h1.trans h3, h2.trans h4⟩

/-- With no tenure running, a block is outstanding where a request of it stands at the TAU. -/
theorem Chip.outstanding_iff (b : Block) (c : Chip) (h : c.tau.running = none) :
    c.outstanding b = true ↔ ∃ batch ∈ c.tau.orders, ∃ j ∈ batch, j.block = b := by
  simp [Chip.outstanding, h]

/-- After the end of a tenure a block is outstanding where a request of it stood at the TAU. -/
theorem Chip.not_outstanding_of_orders {c d : Chip} {b : Block} (ho : d.tau.orders = c.tau.orders)
    (hr : d.tau.running = none) (h : ¬∃ batch ∈ c.tau.orders, ∃ j ∈ batch, j.block = b) : d.outstanding b = false := by
  cases hd : d.outstanding b with
  | false => rfl
  | true => exact absurd (ho ▸ (d.outstanding_iff b hr).1 hd) h

/-! ### No port comes to wait -/

theorem Chip.waiting_endAccess (p q : Port) (e : Bool) (v : Word) (c : Chip) (h : (c.port q).waiting = false) :
    ((Chip.endAccess p e v c).port q).waiting = false := by
  by_cases hq : q = p
  · subst hq
    rw [Chip.port_endAccess]
    rfl
  · rw [(Chip.same_endAccess p e v c).port q (by cases p <;> cases q <;> first | exact absurd rfl hq | decide)]
    exact h

theorem Chip.waiting_takeHeld (q : Port) (l : List Port) (c : Chip) (h : (c.port q).waiting = false) :
    ((Chip.takeHeld l c).port q).waiting = false := by
  induction l generalizing c with
  | nil => exact h
  | cons p l ih =>
    have hport : ∀ d : Chip, Chip.Same [.pcu, .rpu] c d → (d.port q).waiting = false := fun d hd => by
      rw [hd.port q (by cases q <;> decide)]
      exact h
    have hheld : Chip.Same [.pcu, .rpu] c { c with pcu := { c.pcu with held := l } } :=
      (c.same_withPcu _).mono (by decide)
    unfold Chip.takeHeld
    split
    · exact h
    · dsimp only
      split
      · exact ih _ (hport _ hheld)
      · split
        · exact ih _ (Chip.waiting_endAccess _ _ _ _ _
            (hport _ (hheld.then ((Chip.same_noteRefusal _ _ _ _).mono (by decide)))))
        · exact ih _ (Chip.waiting_endAccess _ _ _ _ _
            (hport _ (hheld.then ((Chip.same_beginEvaluation _ _ _).mono (by decide)))))

theorem Chip.waiting_tenureEnded (q : Port) (t : Tenure) (c : Chip) (h : (c.port q).waiting = false) :
    ((c.tenureEnded t).port q).waiting = false := by
  have h1 : ((t.owed.foldl Chip.payOwed c.tauFreed).port q).waiting = false := by
    rw [(Chip.same_paidOff_any t.owed c.tauFreed).port q (by cases q <;> decide),
      c.same_tauFreed.port q (by cases q <;> decide)]
    exact h
  have h2 : ((c.paid t).port q).waiting = false := by
    unfold Chip.paid
    by_cases hj : t.job = .purchase
    · rw [hj]
      exact Chip.waiting_takeHeld q _ _ h1
    · have hn : ∀ j : Job, j ≠ .purchase → portPiece q ∉ jobPieces j := by
        intro j hne
        cases j <;> cases q <;> simp_all [jobPieces, sweepEndPieces, portPiece]
      rw [(Chip.same_jobEnded_pieces t.job _).port q (hn _ hj)]
      exact h1
  rw [Chip.tenureEnded, (Chip.same_endPhases _).port q (by cases q <;> decide)]
  exact h2

/-- With no port waiting, what settles after the end of a tenure differs from it in the arbiter and requests alone. -/
theorem Chip.ports_quiet_tenureEnded (t : Tenure) (c : Chip) (ha : c.portA.waiting = false) (hb : c.portB.waiting = false) :
    (c.tenureEnded t).par.holder = .free →
      (c.tenureEnded t).portA.waiting = false ∧ (c.tenureEnded t).portB.waiting = false := fun _ =>
  ⟨c.waiting_tenureEnded .a t ha, c.waiting_tenureEnded .b t hb⟩

theorem Chip.same_settle_tenureEnded (t : Tenure) (c : Chip) (ha : c.portA.waiting = false) (hb : c.portB.waiting = false) :
    Chip.Same [.requests, .jobs, .arbiter] (c.tenureEnded t) (c.tenureEnded t).settle :=
  Chip.same_settle_quiet _ (c.ports_quiet_tenureEnded t ha hb)

/-! ### The phases and the stop -/

theorem Chip.endPhase4_of_ne (c : Chip) (h : ¬(c.lcc.lifecycle = .loading ∧ c.lcc.phase = 4)) : c.endPhase4 = c := by
  have hn : c.loadingPhase 4 = false := by
    cases hp : c.loadingPhase 4 with
    | false => rfl
    | true => exact absurd ((c.loadingPhase_iff 4).1 hp) h
  simp [Chip.endPhase4, hn]

theorem Chip.endPhase5_of_ne (c : Chip) (h : ¬(c.lcc.lifecycle = .loading ∧ c.lcc.phase = 5)) : c.endPhase5 = c := by
  have hn : c.loadingPhase 5 = false := by
    cases hp : c.loadingPhase 5 with
    | false => rfl
    | true => exact absurd ((c.loadingPhase_iff 5).1 hp) h
  unfold Chip.endPhase5
  split
  · rfl
  · simp [hn]

theorem Chip.canStop_of_ne (c : Chip) (h : c.lcc.lifecycle ≠ .stopping) : c.canStop = false := by
  simp [Chip.canStop, h]

/-- In LOADING the end of a tenure goes on to the load phases alone. -/
theorem Chip.endStopping_loading (c : Chip) (h : c.lcc.lifecycle ≠ .stopping) : c.endStopping = c :=
  c.endStopping_goes_on (c.canStop_of_ne h)

/-- Outside LOADING the load phases have no end. -/
theorem Chip.endPhases_of_not_loading (c : Chip) (h : c.lcc.lifecycle ≠ .loading) :
    c.endPhase4.endPhase5.endStopping = c.endStopping := by
  rw [c.endPhase4_of_ne fun hh => h hh.1, c.endPhase5_of_ne fun hh => h hh.1]

end Sys2Proof.Machine
end

section
/-! How a load goes on at the end of a TAU tenure (O51), and the entries into RUNNING and STOPPED. -/

namespace Sys2Proof.Machine

/-- What the statement lets a tenure owe: the space notice, the causes of mirrored changes, and causes. -/
def Owed.light (o : Owed) : Prop := o = .space ∨ o = .mirrored ∨ ∃ k, o = .cause k

theorem Chip.lue_handRouteCauses (c : Chip) :
    c.handRouteCauses.lue = { c.lue with owedCauses := c.lue.owedCauses.filter fun o => o.entries != [] } := by
  unfold Chip.handRouteCauses
  exact (Chip.Same.foldl (L := [.rpu]) (fun (c : Chip) (o : OwedCause) => c.raise o.cause) (fun c o => c.same_raise o.cause)
    _ _) .lue (by decide)

/-- A tenure in LOADING at its end, with no port waiting. -/
structure Chip.LoadEnds (c : Chip) (x : Tenure) : Prop where
  resetHigh : c.resetLow = false
  portA : c.portA.waiting = false
  portB : c.portB.waiting = false
  owed : ∀ o ∈ x.owed, o.light
  loading : c.lcc.lifecycle = .loading

/-- The part as what is owed in LOADING has left it: the line-up and the rest of the blocks as they were. -/
structure Chip.LoadPaid (c d : Chip) : Prop where
  same : Chip.Same [.tenure, .arbiter, .lue, .rpu] c d
  entries : d.lue.entries = c.lue.entries
  owesTime : d.lue.owesTime = c.lue.owesTime
  walk : d.lue.walk = c.lue.walk

theorem Chip.LoadEnds.paid {c : Chip} {x : Tenure} (h : c.LoadEnds x) :
    c.LoadPaid (x.owed.foldl Chip.payOwed c.tauFreed) := by
  refine Chip.paidOff_keeps (fun d => c.LoadPaid d) x.owed c.tauFreed (fun o ho d hd => ?_)
    ⟨c.same_tauFreed.mono (by decide), rfl, rfl, rfl⟩
  rcases h.owed o ho with rfl | rfl | ⟨k, rfl⟩
  · have hw : d.working = false := by
      unfold Chip.working
      rw [(hd.same.lccItems).1, h.loading]
      rfl
    have hs : d.payOwed .space = d := by
      show d.spaceNotice = d
      simp [Chip.spaceNotice, hw]
    rw [hs]
    exact hd
  · have hlue := d.lue_handRouteCauses
    exact ⟨hd.same.then (d.same_handRouteCauses_few.mono (by decide)), (congrArg Lue.entries hlue).trans hd.entries,
      (congrArg Lue.owesTime hlue).trans hd.owesTime, (congrArg Lue.walk hlue).trans hd.walk⟩
  · exact ⟨hd.same.then ((d.same_raise k).mono (by decide)), hd.entries, hd.owesTime, hd.walk⟩

theorem Chip.LoadPaid.slm {c d : Chip} (h : c.LoadPaid d) : d.slm = c.slm := h.same.slm

theorem Chip.LoadPaid.toe {c d : Chip} (h : c.LoadPaid d) : d.toe = c.toe := h.same .toe (by decide)

theorem Chip.LoadPaid.lcc {c d : Chip} (h : c.LoadPaid d) : d.lcc = c.lcc := h.same.lcc

theorem Chip.LoadPaid.map {c d : Chip} (h : c.LoadPaid d) : d.map = c.map := h.same .map (by decide)

theorem Chip.LoadPaid.subscriberCount {c d : Chip} (h : c.LoadPaid d) : d.subscriberCount = c.subscriberCount := by
  simp only [Chip.subscriberCount, Chip.placement, h.map]

theorem Chip.mapCount_congr {c d : Chip} (h : d.map = c.map) : d.mapCount = c.mapCount := by
  simp only [Chip.mapCount, Chip.placement, h]

theorem Chip.subscriberCount_congr {c d : Chip} (h : d.map = c.map) : d.subscriberCount = c.subscriberCount := by
  simp only [Chip.subscriberCount, Chip.placement, h]

/-- With the part that a tenure's end leaves known, what settles is known but for the arbiter, requests and jobs. -/
theorem Chip.LoadEnds.settled {c d : Chip} {x : Tenure} (h : c.LoadEnds x) (hd : c.tenureEnded x = d) :
    Chip.Same [.requests, .jobs, .arbiter] d (c.tenureEnded x).settle ∧
      (∀ j, d.asks j.block = some j → (c.tenureEnded x).settle.requested j) ∧
      (c.tenureEnded x).settle.slm.jobs = (if (d.asks .slm).any Job.ofSlmList then d.slm.jobs.tail else d.slm.jobs) ∧
      (∀ b, (¬∃ batch ∈ c.tau.orders, ∃ j ∈ batch, j.block = b) → d.outstanding b = false) := by
  have hq := c.ports_quiet_tenureEnded x h.portA h.portB
  have hr : (c.tenureEnded x).resetLow = false := by
    rw [c.same_tenureEnded x .resetLine (by decide)]
    exact h.resetHigh
  obtain ⟨hto, htr⟩ := c.tau_tenureEnded x
  rw [hd] at hq hr hto htr ⊢
  exact ⟨Chip.same_settle_quiet d hq, fun j hj => d.requested_settle j hr hq hj, (d.jobs_settle hr hq).2,
    fun b hb => Chip.not_outstanding_of_orders hto htr hb⟩

/-! ### What blocks ask for in LOADING -/

theorem Chip.not_working_of_loading (c : Chip) (h : c.lcc.lifecycle = .loading) : c.working = false := by
  simp [Chip.working, h]

/-- In phase 4 what is to be written goes first, then the next read or repair (R121, log 22). -/
theorem Chip.asks_slm (c : Chip) (hl : c.lcc.lifecycle = .loading) (hp : c.lcc.phase = 4) (ho : c.outstanding .slm = false) :
    c.asks .slm = if c.slm.hasDirty then some .slmWrite else c.slm.jobs.head?.filter fun j => j.block = .slm := by
  have h4 : c.loadingPhase 4 = true := (c.loadingPhase_iff 4).2 ⟨hl, hp⟩
  simp [Chip.asks, ho, Chip.wants, Chip.slmWants, h4]

theorem Chip.asks_toe (w : TapWalk) (c : Chip) (hl : c.lcc.lifecycle = .loading) (hp : c.lcc.phase = 5)
    (hw : c.toe.walk = some w) (ho : c.outstanding .toe = false) :
    c.asks .toe = if w.entry < c.mapCount then some .eventSet
      else if w.subscriber < c.subscriberCount then some .subscriberWalk else none := by
  have h5 : c.loadingPhase 5 = true := (c.loadingPhase_iff 5).2 ⟨hl, hp⟩
  simp [Chip.asks, ho, Chip.wants, Chip.toeWants, c.not_working_of_loading hl, h5, hw]

theorem Chip.asks_lue (n : Nat) (c : Chip) (hl : c.lcc.lifecycle = .loading) (hp : c.lcc.phase = 6)
    (hw : c.lue.walk = some n) (ho : c.outstanding .lue = false) :
    c.asks .lue = if c.lue.entries.any (fun e => e.dirty) || !c.lue.owesTime.isEmpty then some .mirror
      else if n < c.mapCount then some .mapWalk else none := by
  have h6 : c.loadingPhase 6 = true := (c.loadingPhase_iff 6).2 ⟨hl, hp⟩
  simp [Chip.asks, ho, Chip.wants, Chip.lueWants, Chip.watched, hl, h6, hw]

/-- The write set is not empty, as the statement writes it. -/
theorem Slm.hasDirty_iff (s : Slm) :
    s.hasDirty = true ↔ s.nextDirty = true ∨ (∃ y ∈ s.slots, y.dirty = true) ∨ ∃ n ∈ s.nodes, n.dirty = true := by
  simp [Slm.hasDirty, or_assoc]

/-- Something is to be mirrored, as the statement writes it. -/
theorem Lue.unmirrored_iff (l : Lue) : (l.entries.any (fun e => e.dirty) || !l.owesTime.isEmpty) = true ↔
    l.owesTime ≠ [] ∨ ∃ e ∈ l.entries, e.dirty = true := by
  simp [or_comm]

/-! ### The beginnings of phases 4 to 6 -/

def Chip.phase4Begun (c : Chip) : Chip :=
  Chip.markStatus { c with lcc := { c.lcc with phase := 4 }, slm := { c.slm with jobs := outageJobs } }

def Chip.phase5Begun (c : Chip) : Chip :=
  Chip.markStatus { c with lcc := { c.lcc with phase := 5 }, toe := { c.toe with walk := some ⟨0, [], 0⟩ } }

def Chip.phase6Begun (c : Chip) : Chip :=
  Chip.markStatus { c with
    lcc := { c.lcc with phase := 6 }
    toe := { c.toe with walk := none }
    lue := { c.lue with walk := some 0 } }

theorem Chip.beginPhase4_eq (c : Chip) (hl : c.lcc.lifecycle = .loading) (hp : c.lcc.phase = 3) :
    c.beginPhase4 = c.phase4Begun := if_pos ((c.loadingPhase_iff 3).2 ⟨hl, hp⟩)

theorem Chip.endPhase4_eq (c : Chip) (hl : c.lcc.lifecycle = .loading) (hp : c.lcc.phase = 4)
    (ho : c.outstanding .slm = false) :
    c.endPhase4 = if c.slm.jobs = [] ∧ c.slm.hasDirty = false then c.phase5Begun else c := by
  have h4 : c.loadingPhase 4 = true := (c.loadingPhase_iff 4).2 ⟨hl, hp⟩
  simp [Chip.endPhase4, Chip.phase5Begun, h4, ho]

theorem Chip.endPhase5_eq (w : TapWalk) (c : Chip) (hl : c.lcc.lifecycle = .loading) (hp : c.lcc.phase = 5)
    (hw : c.toe.walk = some w) (ho : c.outstanding .toe = false) :
    c.endPhase5 = if c.subscriberCount ≤ w.subscriber then c.phase6Begun else c := by
  have h5 : c.loadingPhase 5 = true := (c.loadingPhase_iff 5).2 ⟨hl, hp⟩
  simp [Chip.endPhase5, Chip.phase6Begun, hw, h5, ho]

/-- A walk that has subscribers to go does not end. -/
theorem Chip.endPhase5_goes_on (w : TapWalk) (c : Chip) (hw : c.toe.walk = some w) (h : w.subscriber < c.subscriberCount) :
    c.endPhase5 = c := by
  have hn : ¬c.subscriberCount ≤ w.subscriber := by omega
  simp [Chip.endPhase5, hw, hn]

/-! ### Phase 3 to phase 4 -/

/-- The load of the log copy leads to phase 4 and its first read (R121, R165). -/
theorem Chip.LoadEnds.logLoad {c : Chip} {x : Tenure} (h : c.LoadEnds x) (hp : c.lcc.phase = 3) (hj : x.job = .logLoad) :
    (c.tenureEnded x).settle.lcc.lifecycle = .loading ∧ (c.tenureEnded x).settle.lcc.phase = 4 ∧
      (c.tenureEnded x).settle.rpu.statusDirty = true ∧
      ((¬∃ batch ∈ c.tau.orders, ∃ j ∈ batch, j.block = .slm) → c.slm.hasDirty = false →
        (c.tenureEnded x).settle.requested (.outageRead 0) ∧
          (c.tenureEnded x).settle.slm.jobs = (List.range 10).map (fun k => .outageRead (k + 1)) ++ [.nextRead]) := by
  have hpaid := h.paid
  generalize hc1 : x.owed.foldl Chip.payOwed c.tauFreed = c1 at hpaid
  have hl1 : c1.lcc.lifecycle = .loading := by rw [hpaid.lcc]; exact h.loading
  have hd : c.tenureEnded x = c1.phase4Begun := by
    have hbegin : c.paid x = c1.phase4Begun := by
      rw [Chip.paid, hc1, hj]
      exact c1.beginPhase4_eq hl1 (by rw [hpaid.lcc]; exact hp)
    have h4 : c1.phase4Begun.endPhase4 = c1.phase4Begun :=
      if_neg (by simp [Chip.phase4Begun, Chip.markStatus, outageJobs])
    rw [Chip.tenureEnded, hbegin, h4, Chip.endPhase5_of_ne _ (by simp [Chip.phase4Begun, Chip.markStatus]),
      Chip.endStopping_loading _ (by simp [Chip.phase4Begun, Chip.markStatus, hl1])]
  obtain ⟨hset, hreq, hjobs, hout⟩ := h.settled hd
  obtain ⟨hlife, hphase, -⟩ := hset.lccItems
  refine ⟨hlife.trans hl1, hphase, hset .statusMark (by decide), fun hb hclean => ?_⟩
  have hask : c1.phase4Begun.asks .slm = some (.outageRead 0) := by
    rw [c1.phase4Begun.asks_slm hl1 rfl (hout _ hb)]
    have hclean1 : c1.phase4Begun.slm.hasDirty = false := by
      show Slm.hasDirty { c1.slm with jobs := outageJobs } = false
      rw [hpaid.slm]
      exact hclean
    rw [hclean1]
    rfl
  refine ⟨hreq _ hask, ?_⟩
  rw [hjobs, hask]
  rfl

/-! ### Phase 4 -/

/-- A tenure of the SLM in phase 4 that is no write leaves every node UP where no read and no repair is left (R123). -/
theorem Chip.jobEnded_slm (j : Job) (c : Chip) (hj : j.block = .slm) (hl : c.lcc.lifecycle = .loading)
    (hp : c.lcc.phase = 4) :
    c.jobEnded j = if j ≠ .slmWrite ∧ c.slm.jobs = [] ∧ c.slm.nodes = [] then c.nodesUp else c := by
  have h4 : c.loadingPhase 4 = true := (c.loadingPhase_iff 4).2 ⟨hl, hp⟩
  have hend : c.outageTenureEnded = if c.slm.jobs = [] ∧ c.slm.nodes = [] then c.nodesUp else c := by
    simp [Chip.outageTenureEnded, h4]
  cases j with
  | slmWrite => exact (if_neg fun h => h.1 rfl).symm
  | outageRead k => simpa [Chip.jobEnded] using hend
  | nextRead => simpa [Chip.jobEnded] using hend
  | repair k => simpa [Chip.jobEnded] using hend
  | _ => cases hj

theorem Chip.hasDirty_nodesUp (c : Chip) : c.nodesUp.slm.hasDirty = true := by
  rw [Slm.hasDirty_iff]
  exact Or.inr (Or.inr ⟨_, List.mem_replicate.2 ⟨by decide, rfl⟩, rfl⟩)

/-- What the end of a tenure of the SLM leaves in phase 4: phase 5 where nothing is left to do, and phase 4 otherwise. -/
theorem Chip.LoadEnds.phase4 {c : Chip} {x : Tenure} (h : c.LoadEnds x) (hp : c.lcc.phase = 4) (hj : x.job.block = .slm)
    (hb : ¬∃ batch ∈ c.tau.orders, ∃ j ∈ batch, j.block = .slm) :
    ∃ c1, c.LoadPaid c1 ∧ (∀ c2, c2 = (if x.job ≠ .slmWrite ∧ c.slm.jobs = [] ∧ c.slm.nodes = [] then c1.nodesUp else c1) →
      c.tenureEnded x =
        if c2.slm.jobs = [] ∧ c2.slm.hasDirty = false then c2.phase5Begun.endPhase5 else c2) := by
  have hpaid := h.paid
  obtain ⟨hto, htr⟩ := c.tau_paid x
  generalize hc1 : x.owed.foldl Chip.payOwed c.tauFreed = c1 at hpaid
  have hl1 : c1.lcc.lifecycle = .loading := by rw [hpaid.lcc]; exact h.loading
  have hp1 : c1.lcc.phase = 4 := by rw [hpaid.lcc]; exact hp
  refine ⟨c1, hpaid, fun c2 hc2 => ?_⟩
  have hp2 : c.paid x = c2 := by
    rw [Chip.paid, hc1, c1.jobEnded_slm x.job hj hl1 hp1, hpaid.slm, hc2]
  rw [hp2] at hto htr
  have ho2 : c2.outstanding .slm = false := Chip.not_outstanding_of_orders hto htr hb
  have hlcc : c2.lcc = c1.lcc := by
    rw [hc2]
    split <;> rfl
  rw [Chip.tenureEnded, hp2, c2.endPhase4_eq (by rw [hlcc]; exact hl1) (by rw [hlcc]; exact hp1) ho2]
  split
  · refine Chip.endStopping_loading _ ?_
    have hkeep : ∀ d : Chip, d.endPhase5.lcc.lifecycle = d.lcc.lifecycle := by
      intro d
      unfold Chip.endPhase5
      split
      · rfl
      · split <;> rfl
    rw [hkeep, show c2.phase5Begun.lcc.lifecycle = c2.lcc.lifecycle from rfl, hlcc, hl1]
    decide
  · rw [Chip.endPhase5_of_ne _ (by rw [hlcc, hp1]; simp), Chip.endStopping_loading _ (by rw [hlcc, hl1]; decide)]

end Sys2Proof.Machine
end

section
/-! Settles O51: phases 4 to 6 at the end of a tenure, the next tenure of the LCC, and the entries into RUNNING and STOPPED. -/

namespace Sys2Proof.Machine

/-! ### Phase 4 -/

/-- After the last read or repair every node is UP, to be written (R123). -/
theorem Chip.LoadEnds.allUp {c : Chip} {x : Tenure} (h : c.LoadEnds x) (hp : c.lcc.phase = 4) (hj : x.job.block = .slm)
    (hb : ¬∃ batch ∈ c.tau.orders, ∃ j ∈ batch, j.block = .slm)
    (hup : x.job ≠ .slmWrite ∧ c.slm.jobs = [] ∧ c.slm.nodes = []) :
    (c.tenureEnded x).settle.lcc.lifecycle = .loading ∧ (c.tenureEnded x).settle.lcc.phase = 4 ∧
      (c.tenureEnded x).settle.requested .slmWrite ∧
      (c.tenureEnded x).settle.slm.nodes = List.replicate 32 ⟨.up, 0, none, none, none, c.stamp, true⟩ := by
  obtain ⟨c1, hpaid, hend⟩ := h.phase4 hp hj hb
  have hdirty := c1.hasDirty_nodesUp
  have hd : c.tenureEnded x = c1.nodesUp := by
    rw [hend _ rfl, if_pos hup, if_neg (by simp [hdirty])]
  obtain ⟨hset, hreq, -, hout⟩ := h.settled hd
  obtain ⟨hlife, hphase, -⟩ := hset.lccItems
  have hl1 : c1.nodesUp.lcc.lifecycle = .loading := by
    rw [show c1.nodesUp.lcc = c1.lcc from rfl, hpaid.lcc]
    exact h.loading
  have hp1 : c1.nodesUp.lcc.phase = 4 := by
    rw [show c1.nodesUp.lcc = c1.lcc from rfl, hpaid.lcc]
    exact hp
  refine ⟨hlife.trans hl1, hphase.trans hp1, hreq _ ?_, ?_⟩
  · show c1.nodesUp.asks .slm = _
    rw [c1.nodesUp.asks_slm hl1 hp1 (hout _ hb), hdirty]
    rfl
  · have hslm := hset .slm (by decide)
    have hnodes := congrArg Slm.nodes hslm
    have htbu : c1.tbu = c.tbu := hpaid.same .tbu (by decide)
    have hstamp : c1.stamp = c.stamp := by simp only [Chip.stamp, htbu]
    exact hnodes.trans (by rw [← hstamp]; rfl)

/-- With reads, repairs or writes left phase 4 goes on with them (R121, log 22). -/
theorem Chip.LoadEnds.phase4_goes_on {c : Chip} {x : Tenure} (h : c.LoadEnds x) (hp : c.lcc.phase = 4)
    (hj : x.job.block = .slm) (hb : ¬∃ batch ∈ c.tau.orders, ∃ j ∈ batch, j.block = .slm)
    (hup : ¬(x.job ≠ .slmWrite ∧ c.slm.jobs = [] ∧ c.slm.nodes = []))
    (hleft : ¬(c.slm.jobs = [] ∧ c.slm.hasDirty = false)) :
    (c.tenureEnded x).settle.lcc.lifecycle = .loading ∧ (c.tenureEnded x).settle.lcc.phase = 4 ∧
      (c.tenureEnded x).settle.slm.nodes = c.slm.nodes ∧
      (c.slm.hasDirty = true → (c.tenureEnded x).settle.requested .slmWrite) ∧
      (∀ j rest, c.slm.hasDirty = false → c.slm.jobs = j :: rest → j.block = .slm → j ≠ .slmWrite →
        (c.tenureEnded x).settle.requested j ∧ (c.tenureEnded x).settle.slm.jobs = rest) := by
  obtain ⟨c1, hpaid, hend⟩ := h.phase4 hp hj hb
  have hd : c.tenureEnded x = c1 := by
    rw [hend _ rfl, if_neg hup, hpaid.slm, if_neg hleft]
  obtain ⟨hset, hreq, hjobs, hout⟩ := h.settled hd
  obtain ⟨hlife, hphase, -⟩ := hset.lccItems
  have hl1 : c1.lcc.lifecycle = .loading := by rw [hpaid.lcc]; exact h.loading
  have hp1 : c1.lcc.phase = 4 := by rw [hpaid.lcc]; exact hp
  have hask := c1.asks_slm hl1 hp1 (hout _ hb)
  rw [hpaid.slm] at hask hjobs
  refine ⟨hlife.trans hl1, hphase.trans hp1, ?_, fun hdirty => hreq _ ?_, fun j rest hclean hjs hjb hjw => ?_⟩
  · have hnodes := congrArg Slm.nodes (hset .slm (by decide))
    have hpaidNodes := congrArg Slm.nodes hpaid.slm
    exact hnodes.trans hpaidNodes
  · show c1.asks .slm = _
    rw [hask, hdirty]
    rfl
  · have hnext : c1.asks .slm = some j := by
      rw [hask, hclean, hjs]
      simp [hjb]
    refine ⟨hreq _ (by rw [hjb]; exact hnext), ?_⟩
    rw [hjobs, hnext, hjs]
    simp [Job.ofSlmList, hjb, hjw]

/-- With nothing left to do phase 4 leads to phase 5 and the walk of the map's numbers (R103, R123). -/
theorem Chip.LoadEnds.phase4_done {c : Chip} {x : Tenure} (h : c.LoadEnds x) (hp : c.lcc.phase = 4)
    (hj : x.job.block = .slm) (hb : ¬∃ batch ∈ c.tau.orders, ∃ j ∈ batch, j.block = .slm)
    (hup : ¬(x.job ≠ .slmWrite ∧ c.slm.jobs = [] ∧ c.slm.nodes = []))
    (hdone : c.slm.jobs = [] ∧ c.slm.hasDirty = false) :
    (c.tenureEnded x).settle.slm.nodes = c.slm.nodes ∧
      (0 < c.subscriberCount →
        (c.tenureEnded x).settle.lcc.lifecycle = .loading ∧ (c.tenureEnded x).settle.lcc.phase = 5 ∧
        (c.tenureEnded x).settle.toe.walk = some ⟨0, [], 0⟩ ∧ (c.tenureEnded x).settle.rpu.statusDirty = true ∧
        ((¬∃ batch ∈ c.tau.orders, ∃ j ∈ batch, j.block = .toe) → 0 < c.mapCount →
          (c.tenureEnded x).settle.requested .eventSet)) := by
  obtain ⟨c1, hpaid, hend⟩ := h.phase4 hp hj hb
  have hd : c.tenureEnded x = c1.phase5Begun.endPhase5 := by
    rw [hend _ rfl, if_neg hup, hpaid.slm, if_pos hdone]
  have hl1 : c1.phase5Begun.lcc.lifecycle = .loading := by
    rw [show c1.phase5Begun.lcc.lifecycle = c1.lcc.lifecycle from rfl, hpaid.lcc]
    exact h.loading
  constructor
  · obtain ⟨hset, -⟩ := h.settled hd
    have h5 : c1.phase5Begun.endPhase5.slm = c1.slm := (Chip.same_endPhase5 c1.phase5Begun).slm
    have hnodes := congrArg Slm.nodes (hset .slm (by decide))
    exact hnodes.trans ((congrArg Slm.nodes h5).trans (congrArg Slm.nodes hpaid.slm))
  · intro hcount
    have hmap1 : c1.phase5Begun.map = c.map := hpaid.map
    have hd5 : c.tenureEnded x = c1.phase5Begun := by
      rw [hd]
      exact Chip.endPhase5_goes_on ⟨0, [], 0⟩ _ rfl (by rw [Chip.subscriberCount_congr hmap1]; exact hcount)
    obtain ⟨hset, hreq, -, hout⟩ := h.settled hd5
    obtain ⟨hlife, hphase, -⟩ := hset.lccItems
    refine ⟨hlife.trans hl1, hphase, congrArg Toe.walk (hset .toe (by decide)), hset .statusMark (by decide),
      fun ht hmc => hreq _ ?_⟩
    show c1.phase5Begun.asks .toe = _
    rw [c1.phase5Begun.asks_toe ⟨0, [], 0⟩ hl1 rfl rfl (hout _ ht)]
    exact if_pos (by rw [Chip.mapCount_congr hmap1]; exact hmc)

/-! ### Phases 5 and 6 -/

/-- A tenure of another block than the SLM, the SWE, the PCU and the CLU ends with what was owed. -/
theorem Chip.jobEnded_other (j : Job) (c : Chip) (h : j.block = .lcc ∨ j.block = .toe ∨ j.block = .lue) :
    c.jobEnded j = c := by
  cases j <;> first | rfl | simp [Job.block] at h

theorem Chip.LoadEnds.phase5 {c : Chip} {x : Tenure} (h : c.LoadEnds x) (hp : c.lcc.phase = 5) (hj : x.job.block = .toe)
    (hb : ¬∃ batch ∈ c.tau.orders, ∃ j ∈ batch, j.block = .toe) (w : TapWalk) (hw : c.toe.walk = some w) :
    (w.subscriber < c.subscriberCount →
      (c.tenureEnded x).settle.lcc.lifecycle = .loading ∧ (c.tenureEnded x).settle.lcc.phase = 5 ∧
      (c.tenureEnded x).settle.toe.walk = some w ∧
      (c.tenureEnded x).settle.requested (if w.entry < c.mapCount then .eventSet else .subscriberWalk)) ∧
    (c.subscriberCount ≤ w.subscriber →
      (c.tenureEnded x).settle.lcc.lifecycle = .loading ∧ (c.tenureEnded x).settle.lcc.phase = 6 ∧
      (c.tenureEnded x).settle.toe.walk = none ∧ (c.tenureEnded x).settle.lue.walk = some 0 ∧
      (c.tenureEnded x).settle.rpu.statusDirty = true ∧
      ((¬∃ batch ∈ c.tau.orders, ∃ j ∈ batch, j.block = .lue) →
        ¬(c.lue.owesTime ≠ [] ∨ ∃ e ∈ c.lue.entries, e.dirty = true) → 0 < c.mapCount →
        (c.tenureEnded x).settle.requested .mapWalk)) := by
  have hpaid := h.paid
  obtain ⟨hto, htr⟩ := c.tau_paid x
  have hp1 : c.paid x = x.owed.foldl Chip.payOwed c.tauFreed := Chip.jobEnded_other _ _ (Or.inr (Or.inl hj))
  generalize x.owed.foldl Chip.payOwed c.tauFreed = c1 at hpaid hp1
  rw [hp1] at hto htr
  have hl1 : c1.lcc.lifecycle = .loading := by rw [hpaid.lcc]; exact h.loading
  have hph1 : c1.lcc.phase = 5 := by rw [hpaid.lcc]; exact hp
  have hw1 : c1.toe.walk = some w := by rw [hpaid.toe]; exact hw
  have ho1 : c1.outstanding .toe = false := Chip.not_outstanding_of_orders hto htr hb
  have hend : c.tenureEnded x = (if c.subscriberCount ≤ w.subscriber then c1.phase6Begun else c1).endStopping := by
    rw [Chip.tenureEnded, hp1, c1.endPhase4_of_ne (by rw [hph1]; simp), c1.endPhase5_eq w hl1 hph1 hw1 ho1,
      hpaid.subscriberCount]
  constructor
  · intro hcount
    have hd : c.tenureEnded x = c1 := by
      rw [hend, if_neg (by omega), Chip.endStopping_loading _ (by rw [hl1]; decide)]
    obtain ⟨hset, hreq, -, -⟩ := h.settled hd
    obtain ⟨hlife, hphase, -⟩ := hset.lccItems
    have hask := c1.asks_toe w hl1 hph1 hw1 ho1
    rw [hpaid.subscriberCount, Chip.mapCount_congr hpaid.map] at hask
    refine ⟨hlife.trans hl1, hphase.trans hph1, (congrArg Toe.walk (hset .toe (by decide))).trans hw1, hreq _ ?_⟩
    by_cases hm : w.entry < c.mapCount
    · rw [if_pos hm] at hask ⊢
      exact hask
    · rw [if_neg hm, if_pos hcount] at hask
      rw [if_neg hm]
      exact hask
  · intro hcount
    have hl6 : c1.phase6Begun.lcc.lifecycle = .loading := hl1
    have hd : c.tenureEnded x = c1.phase6Begun := by
      rw [hend, if_pos hcount, Chip.endStopping_loading _ (by rw [hl6]; decide)]
    obtain ⟨hset, hreq, -, hout⟩ := h.settled hd
    obtain ⟨hlife, hphase, -⟩ := hset.lccItems
    have hlue := hset .lue (by decide)
    refine ⟨hlife.trans hl6, hphase, congrArg Toe.walk (hset .toe (by decide)), congrArg Lue.walk hlue,
      hset .statusMark (by decide), fun hl hclean hmc => hreq _ ?_⟩
    show c1.phase6Begun.asks .lue = _
    rw [c1.phase6Begun.asks_lue 0 hl6 rfl rfl (hout _ hl)]
    have hmirror : ¬(c1.phase6Begun.lue.entries.any (fun e => e.dirty) || !c1.phase6Begun.lue.owesTime.isEmpty) = true := by
      rw [Lue.unmirrored_iff]
      show ¬(c1.lue.owesTime ≠ [] ∨ ∃ e ∈ c1.lue.entries, e.dirty = true)
      rw [hpaid.owesTime, hpaid.entries]
      exact hclean
    rw [if_neg hmirror]
    exact if_pos (by rw [Chip.mapCount_congr (d := c1.phase6Begun) hpaid.map]; exact hmc)

theorem Chip.LoadEnds.phase6 {c : Chip} {x : Tenure} (h : c.LoadEnds x) (hp : c.lcc.phase = 6) (hj : x.job.block = .lue)
    (hb : ¬∃ batch ∈ c.tau.orders, ∃ j ∈ batch, j.block = .lue) (n : Nat) (hw : c.lue.walk = some n) :
    (c.tenureEnded x).settle.lcc.lifecycle = .loading ∧ (c.tenureEnded x).settle.lcc.phase = 6 ∧
      (c.tenureEnded x).settle.lue.walk = some n ∧
      (c.lue.owesTime ≠ [] ∨ (∃ e ∈ c.lue.entries, e.dirty = true) → (c.tenureEnded x).settle.requested .mirror) ∧
      (¬(c.lue.owesTime ≠ [] ∨ ∃ e ∈ c.lue.entries, e.dirty = true) → n < c.mapCount →
        (c.tenureEnded x).settle.requested .mapWalk) := by
  have hpaid := h.paid
  obtain ⟨hto, htr⟩ := c.tau_paid x
  have hp1 : c.paid x = x.owed.foldl Chip.payOwed c.tauFreed := Chip.jobEnded_other _ _ (Or.inr (Or.inr hj))
  generalize x.owed.foldl Chip.payOwed c.tauFreed = c1 at hpaid hp1
  rw [hp1] at hto htr
  have hl1 : c1.lcc.lifecycle = .loading := by rw [hpaid.lcc]; exact h.loading
  have hph1 : c1.lcc.phase = 6 := by rw [hpaid.lcc]; exact hp
  have hw1 : c1.lue.walk = some n := hpaid.walk.trans hw
  have hd : c.tenureEnded x = c1 := by
    rw [Chip.tenureEnded, hp1, c1.endPhase4_of_ne (by rw [hph1]; simp), c1.endPhase5_of_ne (by rw [hph1]; simp),
      Chip.endStopping_loading _ (by rw [hl1]; decide)]
  obtain ⟨hset, hreq, -, hout⟩ := h.settled hd
  obtain ⟨hlife, hphase, -⟩ := hset.lccItems
  have hask := c1.asks_lue n hl1 hph1 hw1 (hout _ hb)
  have hmirror := c1.lue.unmirrored_iff
  rw [hpaid.owesTime, hpaid.entries] at hmirror
  rw [hpaid.owesTime, hpaid.entries, Chip.mapCount_congr hpaid.map] at hask
  refine ⟨hlife.trans hl1, hphase.trans hph1, (congrArg Lue.walk (hset .lue (by decide))).trans hw1,
    fun hm => hreq _ ?_, fun hm hn => hreq _ ?_⟩
  · exact hask.trans (if_pos (hmirror.2 hm))
  · exact hask.trans ((if_neg fun hh => hm (hmirror.1 hh)).trans (if_pos hn))

/-! ### The next tenure of the LCC -/

theorem Chip.lcc_jobs_paid (x : Tenure) (c : Chip) (h : x.job.block = .lcc) : (c.paid x).lcc.jobs = c.lcc.jobs := by
  rw [Chip.paid, Chip.jobEnded_other _ _ (Or.inl h)]
  exact (Chip.same_paidOff_any x.owed c.tauFreed .jobs (by decide)).1

theorem Chip.lcc_jobs_endPhases (c : Chip) : c.endPhase4.endPhase5.endStopping.lcc.jobs = c.lcc.jobs := by
  have h4 : c.endPhase4.lcc.jobs = c.lcc.jobs := (c.same_endPhase4 .jobs (by decide)).1
  have h5 : c.endPhase4.endPhase5.lcc.jobs = c.endPhase4.lcc.jobs := (c.endPhase4.same_endPhase5 .jobs (by decide)).1
  have hs : ∀ d : Chip, d.endStopping.lcc.jobs = d.lcc.jobs := by
    intro d
    have hlow : ∀ e : Chip, e.findLow.lcc.jobs = e.lcc.jobs := fun e => (e.same_findLow .jobs (by decide)).1
    have htaps : d.stopTaps.lcc.jobs = d.lcc.jobs := (d.same_stopTaps .jobs (by decide)).1
    unfold Chip.endStopping Chip.enterStopped
    split
    · rw [hlow]
      exact htaps
    · rfl
  rw [hs, h5, h4]

/-- A tenure of the LCC is followed by its next one. -/
theorem Chip.lcc_goes_on (c : Chip) (x : Tenure) (j : Job) (rest : List Job) (hr : c.resetLow = false)
    (ha : c.portA.waiting = false) (hb : c.portB.waiting = false) (hx : x.job.block = .lcc) (hj : c.lcc.jobs = j :: rest)
    (hjb : j.block = .lcc) (ho : ¬∃ batch ∈ c.tau.orders, ∃ j ∈ batch, j.block = .lcc) :
    (c.tenureEnded x).settle.requested j ∧ (c.tenureEnded x).settle.lcc.jobs = rest := by
  obtain ⟨hto, htr⟩ := c.tau_tenureEnded x
  refine Chip.lcc_settle_asked j rest _ ?_ (c.ports_quiet_tenureEnded x ha hb) ?_ hjb
    (Chip.not_outstanding_of_orders hto htr ho)
  · rw [c.same_tenureEnded x .resetLine (by decide)]
    exact hr
  · rw [Chip.tenureEnded, Chip.lcc_jobs_endPhases, c.lcc_jobs_paid x hx, hj]

/-! ### RUNNING and STOPPED -/

/-- Serving the link leaves the walk of the map and the mark of the status word. -/
theorem Chip.serveRoutes_walk (c : Chip) : c.serveRoutes.lue.walk = c.lue.walk ∧
    (c.rpu.statusDirty = true → c.serveRoutes.rpu.statusDirty = true) := by
  have htake : ∀ (l : List Nat) (d : Chip), (d.checkTake l).lue.walk = d.lue.walk ∧
      (d.rpu.statusDirty = true → (d.checkTake l).rpu.statusDirty = true) := by
    intro l d
    unfold Chip.checkTake Chip.endTake Chip.oweRoute
    split
    · split
      · exact ⟨rfl, fun _ => Rpu.raise_statusDirty _ _⟩
      · exact ⟨rfl, fun _ => rfl⟩
    · exact ⟨rfl, id⟩
  have hchoose : ∀ (n : Nat) (d : Chip), (d.chooseRoute n).lue.walk = d.lue.walk ∧
      (d.rpu.statusDirty = true → (d.chooseRoute n).rpu.statusDirty = true) := by
    intro n
    induction n with
    | zero => exact fun d => ⟨rfl, id⟩
    | succ n ih =>
      intro d
      by_cases hfree : d.lcc.lifecycle = .running ∧ d.lue.order = none
      · rw [d.chooseRoute_succ n hfree.1 hfree.2]
        split
        · exact ⟨rfl, id⟩
        · split
          · exact ⟨rfl, id⟩
          · split
            · obtain ⟨h1, h2⟩ := ih (d.routeSettled _)
              obtain ⟨h3, h4⟩ := htake [_] { d with lue := d.lue.modify _ fun e => { e with route := .settled, cls := none }.touch }
              exact ⟨h1.trans h3, fun h => h2 (h4 h)⟩
            · exact ⟨rfl, id⟩
      · unfold Chip.chooseRoute
        rw [if_neg hfree]
        exact ⟨rfl, id⟩
  exact hchoose _ c

theorem State.running_entered (s : State) (hq : s.chip.quiet = true) (hl : s.chip.lcc.lifecycle = .loading)
    (hp : s.chip.lcc.phase = 6) (hw : s.chip.mapWalked = true) :
    ∃ t, exec .runningEntry s = .next t ∧ State.happened (.lcc :: lineUpPieces) s t ∧
      t.chip.lcc.lifecycle = .running ∧ t.chip.lcc.phase = 0 ∧ t.chip.lue.walk = none ∧ t.chip.rpu.statusDirty = true := by
  have h6 : (s.chip.loadingPhase 6 && s.chip.mapWalked) = true := by
    rw [(s.chip.loadingPhase_iff 6).2 ⟨hl, hp⟩, hw]
    rfl
  obtain ⟨ht, hh⟩ := s.event_happened _ Chip.enterRunning _ h6 hq s.chip.same_enterRunning (by decide)
  obtain ⟨-, hwait⟩ := s.chip.quiet_iff.1 hq
  have hsame := s.chip.same_enterRunning
  have hset := Chip.same_settle_quiet s.chip.enterRunning (by
    rw [hsame .arbiter (by decide), hsame .portA (by decide), hsame .portB (by decide)]
    exact hwait)
  obtain ⟨hlife, hphase, -⟩ := hset.lccItems
  have hserve : ∀ d : Chip, d.serveRoutes.lcc = d.lcc := fun d => d.same_serveRoutes.lcc
  refine ⟨_, ht, hh, hlife.trans ?_, hphase.trans ?_, (congrArg Lue.walk (hset .lue (by decide))).trans ?_,
    (hset .statusMark (by decide)).trans ?_⟩
  · exact congrArg Lcc.lifecycle (hserve _)
  · exact congrArg Lcc.phase (hserve _)
  · exact (Chip.serveRoutes_walk _).1
  · exact (Chip.serveRoutes_walk _).2 rfl

/-- The values that the statements give for an entry into STOPPED. -/
theorem Chip.enterStopped_values (c : Chip) :
    c.enterStopped.lcc.lifecycle = .stopped ∧ c.enterStopped.toe.queue = [] ∧ c.enterStopped.toe.held = [] ∧
      c.enterStopped.toe.deferred = [] ∧ c.enterStopped.toe.evals = [] ∧ c.enterStopped.toe.blocked = false ∧
      c.enterStopped.toe.tag = c.toe.tag ∧ c.enterStopped.lue.entries = [] ∧ c.enterStopped.lue.eventMap = [] ∧
      c.enterStopped.swe = ⟨[], none⟩ ∧ c.enterStopped.clu.reserved = 0 ∧ c.enterStopped.clu.copy = c.clu.copy := by
  have htoe : ∀ d : Chip, d.findLow.toe = d.toe := fun d => d.same_findLow .toe (by decide)
  have hclu : ∀ d : Chip, d.findLow.clu.reserved = d.clu.reserved ∧ d.findLow.clu.copy = d.clu.copy := by
    intro d
    have h1 : { d.findLow.clu with low := false } = { d.clu with low := false } := d.same_findLow .clu (by decide)
    have hres := congrArg Clu.reserved h1
    have hcopy := congrArg Clu.copy h1
    exact ⟨hres, hcopy⟩
  have hblock : c.stopTaps.toe.blocked = false ∧ c.stopTaps.toe.tag = c.toe.tag ∧ c.stopTaps.clu.copy = c.clu.copy := by
    unfold Chip.stopTaps Chip.releaseBlock
    split
    · exact ⟨rfl, rfl, rfl⟩
    · rename_i hb
      exact ⟨by simpa using hb, rfl, rfl⟩
  unfold Chip.enterStopped
  dsimp only
  rw [htoe, (hclu _).1, (hclu _).2]
  refine ⟨((Chip.same_findLow _).lccItems).1, rfl, rfl, rfl, rfl, hblock.1, hblock.2.1, ?_, ?_,
    (Chip.same_findLow _) .swe (by decide), rfl, hblock.2.2⟩
  · exact congrArg Lue.entries ((Chip.same_findLow _) .lue (by decide))
  · exact congrArg Lue.eventMap ((Chip.same_findLow _) .lue (by decide))

theorem Chip.canStop_iff (c : Chip) : c.canStop = true ↔ c.lcc.lifecycle = .stopping ∧ c.toe.flights = [] ∧
    c.lue.order = none ∧ c.workOutstanding = false := by
  simp [Chip.canStop, and_assoc]

theorem Chip.workOutstanding_iff (c : Chip) :
    c.workOutstanding = true ↔ ∃ b, b ≠ .rpu ∧ c.outstanding b = true := by
  simp only [Chip.workOutstanding, List.any_eq_true]
  constructor
  · rintro ⟨b, hb, ho⟩
    refine ⟨b, ?_, ho⟩
    rintro rfl
    simp at hb
  · rintro ⟨b, hb, ho⟩
    refine ⟨b, ?_, ho⟩
    cases b <;> simp_all

theorem State.stopped_entered (s : State) (hq : s.chip.quiet = true) (hs : s.chip.canStop = true) :
    ∃ t, exec .stoppedEntry s = .next t ∧
      State.happened [.tenure, .lcc, .lue, .toe, .slm, .swe, .clu, .low, .statusMark] s t ∧
      t.chip.lcc.lifecycle = .stopped ∧ t.chip.toe.queue = [] ∧ t.chip.toe.held = [] ∧ t.chip.toe.deferred = [] ∧
      t.chip.toe.evals = [] ∧ t.chip.toe.blocked = false ∧ t.chip.toe.tag = s.chip.toe.tag ∧
      t.chip.lue.entries = [] ∧ t.chip.lue.eventMap = [] ∧ t.chip.swe.queue = [] ∧ t.chip.swe.work = none ∧
      t.chip.clu.reserved = 0 ∧ t.chip.clu.copy = s.chip.clu.copy := by
  have hsame := s.chip.same_enterStopped
  obtain ⟨ht, hh⟩ := s.event_happened _ Chip.enterStopped _ hs hq hsame (by decide)
  obtain ⟨-, hwait⟩ := s.chip.quiet_iff.1 hq
  have hset := Chip.same_settle_quiet s.chip.enterStopped (by
    rw [hsame .arbiter (by decide), hsame .portA (by decide), hsame .portB (by decide)]
    exact hwait)
  obtain ⟨hlife, -⟩ := hset.lccItems
  obtain ⟨v1, v2, v3, v4, v5, v6, v7, v8, v9, v10, v11, v12⟩ := s.chip.enterStopped_values
  have htoe := hset .toe (by decide)
  have hlue := hset .lue (by decide)
  have hswe := hset .swe (by decide)
  have hclu := hset.clu
  refine ⟨_, ht, ⟨hh.1, hh.2.1, hh.2.2.mono (by decide)⟩, hlife.trans v1, ?_⟩
  dsimp only
  rw [htoe, hlue, hswe, hclu, v10]
  exact ⟨v2, v3, v4, v5, v6, v7, v8, v9, rfl, rfl, v11, v12⟩

/-- Settles O51: one lemma per phase for the end of a tenure, and one per state entered. -/
theorem theLoadGoesOnAndStatesAreEntered : Obligations.TheLoadGoesOnAndStatesAreEntered := by
  refine ⟨fun s x hr hh hx ha hb ho => ?_, State.running_entered, fun s hq hl hf hord hout => ?_, fun s h => ?_⟩
  · refine ⟨_, exec_tauTenureEnd s x hh hx, rfl, rfl, ?_, ?_, ?_, ?_, ?_⟩
    · exact fun j rest hxb hj hjb hn => s.chip.lcc_goes_on x j rest hr ha hb hxb hj hjb hn
    · intro hl hp hj
      have h : s.chip.LoadEnds x := ⟨hr, ha, hb, ho, hl⟩
      obtain ⟨h1, h2, h3, h4⟩ := h.logLoad hp hj
      refine ⟨⟨h1, h2⟩, h3, fun hn hclean => h4 hn ?_⟩
      rw [← Bool.not_eq_true, Slm.hasDirty_iff]
      exact hclean
    · intro hl hp hj hn
      have h : s.chip.LoadEnds x := ⟨hr, ha, hb, ho, hl⟩
      have hupiff : (x.job.block = .slm ∧ x.job ≠ .slmWrite ∧ s.chip.slm.jobs = [] ∧ s.chip.slm.nodes = []) ↔
          (x.job ≠ .slmWrite ∧ s.chip.slm.jobs = [] ∧ s.chip.slm.nodes = []) := and_iff_right hj
      dsimp only
      rw [hupiff]
      simp only [← Slm.hasDirty_iff, Bool.not_eq_true]
      refine ⟨fun hup => ?_, fun hup => ?_, fun hdirty => ?_, fun j rest hclean hjs hjb hjw => ?_,
        fun hclean hup hjs hcount => ?_⟩
      · by_cases hdone : s.chip.slm.jobs = [] ∧ s.chip.slm.hasDirty = false
        · exact (h.phase4_done hp hj hn hup hdone).1
        · exact (h.phase4_goes_on hp hj hn hup hdone).2.2.1
      · obtain ⟨h1, h2, h3, h4⟩ := h.allUp hp hj hn hup
        rw [h4]
        exact ⟨⟨h1, h2⟩, h3, List.length_replicate, fun n hmem => List.eq_of_mem_replicate hmem⟩
      · by_cases hup : x.job ≠ .slmWrite ∧ s.chip.slm.jobs = [] ∧ s.chip.slm.nodes = []
        · obtain ⟨h1, h2, h3, -⟩ := h.allUp hp hj hn hup
          exact ⟨⟨h1, h2⟩, h3⟩
        · obtain ⟨h1, h2, -, h4, -⟩ := h.phase4_goes_on hp hj hn hup (by simp [hdirty])
          exact ⟨⟨h1, h2⟩, h4 hdirty⟩
      · obtain ⟨h1, h2, -, -, h5⟩ := h.phase4_goes_on hp hj hn (by simp [hjs]) (by simp [hjs])
        exact ⟨⟨h1, h2⟩, h5 j rest hclean hjs hjb hjw⟩
      · obtain ⟨h1, h2, h3, h4, h5⟩ := (h.phase4_done hp hj hn hup ⟨hjs, hclean⟩).2 hcount
        exact ⟨⟨h1, h2⟩, h3, h4, h5⟩
    · intro w hl hp hj hn hw
      have h : s.chip.LoadEnds x := ⟨hr, ha, hb, ho, hl⟩
      obtain ⟨hgo, hend⟩ := h.phase5 hp hj hn w hw
      refine ⟨fun hc => ?_, fun hc => ?_⟩
      · obtain ⟨h1, h2, h3⟩ := hgo hc
        exact ⟨⟨h1, h2⟩, h3⟩
      · obtain ⟨h1, h2, h3⟩ := hend hc
        exact ⟨⟨h1, h2⟩, h3⟩
    · intro n hl hp hj hn hw
      have h : s.chip.LoadEnds x := ⟨hr, ha, hb, ho, hl⟩
      obtain ⟨h1, h2, h3⟩ := h.phase6 hp hj hn n hw
      exact ⟨⟨h1, h2⟩, h3⟩
  · refine s.stopped_entered hq (s.chip.canStop_iff.2 ⟨hl, hf, hord, ?_⟩)
    rw [← Bool.not_eq_true, Chip.workOutstanding_iff]
    rintro ⟨b, hb, hbo⟩
    rw [hout b hb] at hbo
    cases hbo
  · have hn : s.chip.canStop = false := by
      rw [← Bool.not_eq_true, Chip.canStop_iff]
      rintro ⟨-, hf, hord, -⟩
      rcases h with h | h
      · exact h hf
      · rw [hord] at h
        cases h
    exact if_neg (by simp [hn])

end Sys2Proof.Machine
end

section
/-! What the end of a TAU tenure leaves, part by part: causes and counters, what stays while the part does not stop, and the
stop (R33). -/

namespace Sys2Proof.Machine

/-! ### Causes, counters and the mark of the status word -/

/-- No cause leaves the pending set, no counter counts, and a status word that is marked stays so. -/
structure Chip.Flagged (c d : Chip) : Prop where
  pending : ∀ k, c.rpu.isPending k = true → d.rpu.isPending k = true
  counters : d.rpu.counters = c.rpu.counters
  marked : c.rpu.statusDirty = true → d.rpu.statusDirty = true

theorem Chip.Flagged.of_rpu {c d : Chip} (h : d.rpu = c.rpu) : Chip.Flagged c d := by
  refine ⟨fun k hk => ?_, by rw [h], fun hm => ?_⟩
  · rw [h]
    exact hk
  · rw [h]
    exact hm

theorem Chip.Flagged.refl (c : Chip) : Chip.Flagged c c := .of_rpu (by rfl)

theorem Chip.Flagged.trans {c d e : Chip} (h1 : Chip.Flagged c d) (h2 : Chip.Flagged d e) : Chip.Flagged c e :=
  ⟨fun k hk => h2.pending k (h1.pending k hk), h2.counters.trans h1.counters, fun hm => h2.marked (h1.marked hm)⟩

theorem Chip.Flagged.raise {c d : Chip} (h : Chip.Flagged c d) (k : Cause) : Chip.Flagged c (d.raise k) := by
  refine h.trans ⟨fun k' hk => ?_, Rpu.counters_raise _ _, fun hm => ?_⟩
  · rw [Chip.rpu_raise, Rpu.isPending_raise, hk]
    rfl
  · rw [Chip.rpu_raise, Rpu.raise_statusDirty]
    exact hm

theorem Chip.Flagged.markStatus {c d : Chip} (h : Chip.Flagged c d) : Chip.Flagged c d.markStatus :=
  h.trans ⟨fun _ hk => hk, rfl, fun _ => rfl⟩

theorem Chip.Flagged.marking {c d : Chip} (h : Chip.Flagged c d) (b : Chip) : Chip.Flagged c (Chip.marking b d) := by
  unfold Chip.marking
  split
  · exact h
  · exact h.markStatus

/-- The end of a take raises TAKE_DONE at most. -/
theorem Chip.Flagged.checkTake {c d : Chip} (h : Chip.Flagged c d) (l : List Nat) : Chip.Flagged c (d.checkTake l) := by
  unfold Chip.checkTake Chip.endTake Chip.oweRoute
  refine h.trans ?_
  split
  · split
    · refine Chip.Flagged.raise ?_ _
      exact ⟨fun _ hk => hk, rfl, fun _ => rfl⟩
    · exact ⟨fun _ hk => hk, rfl, fun _ => rfl⟩
  · exact .refl d

theorem Chip.Flagged.routeRequest {c d : Chip} (h : Chip.Flagged c d) (k : RouteClass) (i : Nat) :
    Chip.Flagged c (d.routeRequest k i) := by
  unfold Chip.routeRequest
  exact Chip.Flagged.checkTake (h.trans (.of_rpu (by rfl))) [i]

theorem Chip.flagged_chooseRoute (n : Nat) (c : Chip) : Chip.Flagged c (c.chooseRoute n) := by
  induction n generalizing c with
  | zero => exact .refl c
  | succ n ih =>
    by_cases hfree : c.lcc.lifecycle = .running ∧ c.lue.order = none
    · rw [c.chooseRoute_succ n hfree.1 hfree.2]
      split
      · exact .refl c
      · split
        · exact .refl c
        · split
          · refine Chip.Flagged.trans ?_ (ih _)
            unfold Chip.routeSettled
            exact Chip.Flagged.checkTake (.of_rpu (by rfl)) _
          · exact .of_rpu (by rfl)
    · unfold Chip.chooseRoute
      rw [if_neg hfree]
      exact .refl c

/-- What holds through the evaluation, the request and the service of the link holds at the end of an EVENT_CLOSE sweep. -/
theorem Chip.closeEnded_keeps (P : Chip → Prop) (n : BitVec 8) (c : Chip) (hc : P c) (hset : ∀ i p, P (c.setPhase i p))
    (hreq : ∀ i d, P d → P (d.routeRequest .event i)) (hserve : ∀ d, P d → P d.serveRoutes) : P (c.closeEnded n) := by
  unfold Chip.closeEnded
  split
  · exact hc
  · split
    · exact hc
    · dsimp only
      split
      · split
        · exact hserve _ (hreq _ _ (hset _ _))
        · exact hset _ _
      · exact hc

theorem Chip.Flagged.closeEnded {c d : Chip} (h : Chip.Flagged c d) (n : BitVec 8) : Chip.Flagged c (d.closeEnded n) :=
  h.trans (d.closeEnded_keeps (fun e => Chip.Flagged d e) n (.refl d) (fun _ _ => .of_rpu (by rfl))
    (fun i _ he => he.routeRequest _ i) fun e he => he.trans (e.flagged_chooseRoute _))

theorem Chip.Flagged.sweepOff {c d : Chip} (h : Chip.Flagged c d) (l : List SweepEntry) : Chip.Flagged c (d.sweepOff l) := by
  unfold Chip.sweepOff
  exact Chip.Flagged.marking (h.trans (.of_rpu (by rfl))) d

theorem Chip.rpu_markSwept (n : BitVec 16) (c : Chip) : (c.markSwept n).rpu = c.rpu := by
  unfold Chip.markSwept
  split <;> rfl

theorem Chip.flagged_endClose (n : BitVec 8) (c : Chip) : Chip.Flagged c (c.endClose n) :=
  (((Chip.Flagged.refl c).sweepOff _).closeEnded n).raise _

theorem Chip.flagged_endRecorded (n : BitVec 16) (c : Chip) : Chip.Flagged c (c.endRecorded n) :=
  ((Chip.Flagged.of_rpu (c.rpu_markSwept n)).sweepOff _).raise _

theorem Chip.flagged_endUnrecorded (e : SweepEntry) (c : Chip) : Chip.Flagged c (c.endUnrecorded e) :=
  ((Chip.Flagged.refl c).sweepOff _).raise _

theorem Chip.flagged_sweepAdvance (c : Chip) : Chip.Flagged c c.sweepAdvance := by
  unfold Chip.sweepAdvance
  split
  · split
    · split
      · exact c.flagged_endClose _
      · split
        · exact .refl c
        · exact c.flagged_endUnrecorded _
    · exact .refl c
  · exact .refl c

theorem Chip.flagged_sweepTenureEnded (j : Job) (c : Chip) : Chip.Flagged c (c.sweepTenureEnded j) := by
  unfold Chip.sweepTenureEnded
  split
  · exact .refl c
  · split
    · exact c.flagged_endRecorded _
    · split
      · exact c.flagged_sweepAdvance
      · split
        · exact c.flagged_endClose _
        · exact (Chip.Flagged.refl c).sweepOff _
    · split
      · exact c.flagged_sweepAdvance
      · exact (Chip.Flagged.refl c).sweepOff _

/-- No end of a job but that of a purchase counts. -/
theorem Chip.flagged_jobEnded (j : Job) (c : Chip) (hj : j ≠ .purchase) : Chip.Flagged c (c.jobEnded j) := by
  have houtage : Chip.Flagged c c.outageTenureEnded := .of_rpu (c.same_outageTenureEnded.rpu)
  have hbegin : Chip.Flagged c c.beginPhase4 := by
    unfold Chip.beginPhase4
    split
    · exact ⟨fun _ hk => hk, rfl, fun _ => rfl⟩
    · exact .refl c
  cases j with
  | purchase => exact absurd rfl hj
  | sweepStart => exact c.flagged_sweepTenureEnded .sweepStart
  | sweepStep => exact c.flagged_sweepTenureEnded .sweepStep
  | sweepEnd => exact c.flagged_sweepTenureEnded .sweepEnd
  | logLoad => exact hbegin
  | outageRead _ => exact houtage
  | nextRead => exact houtage
  | repair _ => exact houtage
  | _ => exact .refl c

theorem Chip.Flagged.foldl_raise {c d : Chip} (h : Chip.Flagged c d) (l : List OwedCause) :
    Chip.Flagged c (l.foldl (fun c o => c.raise o.cause) d) := by
  induction l generalizing d with
  | nil => exact h
  | cons o l ih => exact ih (h.raise o.cause)

/-! ### What a written slot owed (R115) -/

/-- NODE_DOWN is handed, and the slot owes it no more. -/
def Chip.slotDown (i : Nat) (c : Chip) : Chip :=
  Chip.raise .nodeDown { c with slm := c.slm.modifySlot i fun x => { x with owesDown := false } }

/-- In RUNNING the RESTORE of the slot is handed, and the slot owes it no more. -/
def Chip.slotRestored (i : Nat) (c : Chip) : Chip :=
  if c.lcc.lifecycle = .running then
    match c.slm.slots[i]? with
    | some x =>
      Chip.handRestore x.node.toNat x.number 0
        { c with slm := c.slm.modifySlot i fun x => { x with owesRestore := false } }
    | none => c
  else c

/-- What a written slot owed is handed in two parts. -/
theorem Chip.handSlot_eq (i : Nat) (down restore : Bool) (c : Chip) : c.handSlot i down restore =
    if restore then ((if down then c.slotDown i else c).raise .nodeUp).slotRestored i else if down then c.slotDown i else c :=
  rfl

theorem Chip.rpu_slotRestored (i : Nat) (c : Chip) : (c.slotRestored i).rpu = c.rpu := by
  unfold Chip.slotRestored Chip.handRestore
  split
  · split
    · split <;> rfl
    · rfl
  · rfl

theorem Chip.flagged_handSlot (i : Nat) (down restore : Bool) (c : Chip) : Chip.Flagged c (c.handSlot i down restore) := by
  have hdown : Chip.Flagged c (if down then c.slotDown i else c) := by
    split
    · unfold Chip.slotDown
      exact Chip.Flagged.raise (.of_rpu (by rfl)) _
    · exact .refl c
  rw [Chip.handSlot_eq]
  split
  · exact (hdown.raise .nodeUp).trans (.of_rpu (Chip.rpu_slotRestored i _))
  · exact hdown

/-- Of what can be owed only a tap failure counts. -/
theorem Chip.flagged_payOwed (o : Owed) (c : Chip) (ho : o ≠ .tapFailure) : Chip.Flagged c (c.payOwed o) := by
  cases o with
  | cause k => exact (Chip.Flagged.refl c).raise k
  | space =>
    show Chip.Flagged c c.spaceNotice
    unfold Chip.spaceNotice Chip.releaseBlock
    split
    · dsimp only
      split
      · exact ⟨fun _ hk => hk, rfl, fun _ => rfl⟩
      · exact .of_rpu (by rfl)
    · exact .refl c
  | request r => exact .of_rpu ((c.same_request r).rpu)
  | attempt n => exact .of_rpu ((c.same_firstAttempt_few n).rpu)
  | redeadline n => exact .of_rpu (by rfl)
  | tapFailure => exact absurd rfl ho
  | slot i d r => exact c.flagged_handSlot i d r
  | snapshot =>
    show Chip.Flagged c c.snapshotWritten
    unfold Chip.snapshotWritten
    dsimp only
    split
    · exact (Chip.Flagged.refl c).raise _
    · exact ((Chip.Flagged.refl c).raise .lineEdge).trans (.of_rpu (by rfl))
  | mirrored =>
    show Chip.Flagged c c.handRouteCauses
    unfold Chip.handRouteCauses
    exact Chip.Flagged.foldl_raise (.of_rpu (by rfl)) _
  | purchaseEnd r => exact .of_rpu (by rfl)
  | spaceWait => exact .refl c

end Sys2Proof.Machine
end

section
/-! What stays at the end of a TAU tenure while the part does not stop, and the stop (R33). -/

namespace Sys2Proof.Machine

/-! ### What the payment leaves -/

/-- The part when all that the tenure owed is paid. -/
def Chip.owedPaid (t : Tenure) (c : Chip) : Chip := t.owed.foldl Chip.payOwed c.tauFreed

theorem Chip.paid_eq (t : Tenure) (c : Chip) : c.paid t = (c.owedPaid t).jobEnded t.job := rfl

theorem Chip.same_owedPaid (t : Tenure) (c : Chip) :
    Chip.Same [.tenure, .arbiter, .rpu, .toe, .statusMark, .swe, .clu, .tapLink, .slm, .lue, .pcu] c (c.owedPaid t) :=
  (c.same_tauFreed.mono (by decide)).then ((Chip.same_paidOff_any _ _).mono (by decide))

theorem Chip.working_congr {c d : Chip} (h : d.lcc.lifecycle = c.lcc.lifecycle) : d.working = c.working := by
  simp only [Chip.working, h]

/-- What everything owed keeps, at lifecycle state, map, timebase and settings as they were, holds when all is paid. -/
theorem Chip.owedPaid_keeps (P : Chip → Prop) (t : Tenure) (c : Chip) (h : ∀ o ∈ t.owed, ∀ d, P d → P (d.payOwed o))
    (hc : P c.tauFreed) : P (c.owedPaid t) := Chip.paidOff_keeps P t.owed _ h hc

theorem toe_not_mem_jobPieces (j : Job) : .toe ∉ jobPieces j := by
  cases j <;> simp [jobPieces, sweepEndPieces]

theorem Chip.toe_jobEnded (j : Job) (c : Chip) : (c.jobEnded j).toe = c.toe :=
  Chip.same_jobEnded_pieces j c .toe (toe_not_mem_jobPieces j)

theorem Chip.lifecycle_jobEnded (j : Job) (c : Chip) : (c.jobEnded j).lcc.lifecycle = c.lcc.lifecycle := by
  by_cases hj : j = .logLoad
  · subst hj
    show c.beginPhase4.lcc.lifecycle = _
    unfold Chip.beginPhase4
    split <;> rfl
  · have hn : .lcc ∉ jobPieces j := by
      cases j <;> first | exact absurd rfl hj | simp [jobPieces, sweepEndPieces]
    exact ((Chip.same_jobEnded_pieces j c).lccItems hn).1

theorem Chip.lifecycle_paid (t : Tenure) (c : Chip) : (c.paid t).lcc.lifecycle = c.lcc.lifecycle :=
  (Chip.lifecycle_jobEnded _ _).trans ((c.same_owedPaid t).lccItems).1

/-! ### Flights and the order of the route link -/

theorem Toe.modifyFlight_length (t : Toe) (n : Nat) (f : Flight → Flight) :
    (t.modifyFlight n f).flights.length = t.flights.length := by
  simp [Toe.modifyFlight]

theorem Chip.flights_payOwed_length (o : Owed) (c : Chip) : (c.payOwed o).toe.flights.length = c.toe.flights.length := by
  cases o with
  | space =>
    show c.spaceNotice.toe.flights.length = _
    unfold Chip.spaceNotice Chip.releaseBlock
    split
    · dsimp only
      split <;> rfl
    · rfl
  | request r =>
    show (c.request r).toe.flights.length = _
    unfold Chip.request
    split <;> rfl
  | attempt n =>
    show (c.firstAttempt n).toe.flights.length = _
    unfold Chip.firstAttempt Chip.decideEnding Chip.startAttempt Chip.sendTap
    split
    · rfl
    · split
      · rfl
      · split
        · exact Toe.modifyFlight_length _ _ _
        · split
          · exact (Toe.modifyFlight_length _ _ _).trans (Toe.modifyFlight_length _ _ _)
          · exact Toe.modifyFlight_length _ _ _
  | redeadline n => exact Toe.modifyFlight_length _ _ _
  | _ =>
    refine congrArg (fun t : Toe => t.flights.length) (Chip.same_payOwed_pieces _ c .toe ?_)
    simp [payPieces]

theorem Chip.flights_paid_length (t : Tenure) (c : Chip) : (c.paid t).toe.flights.length = c.toe.flights.length := by
  rw [Chip.paid_eq, Chip.toe_jobEnded]
  exact c.owedPaid_keeps (fun d => d.toe.flights.length = c.toe.flights.length) t
    (fun o _ d hd => (d.flights_payOwed_length o).trans hd) rfl

theorem Chip.order_payOwed (o : Owed) (c : Chip) : (c.payOwed o).lue.order = c.lue.order := by
  cases o with
  | mirrored =>
    have hlue := congrArg Lue.order c.lue_handRouteCauses
    exact hlue
  | _ =>
    refine congrArg Lue.order (Chip.same_payOwed_pieces _ c .lue ?_)
    simp [payPieces]

theorem Chip.order_routeRequest (k : RouteClass) (i : Nat) (c : Chip) : (c.routeRequest k i).lue.order = c.lue.order :=
  ((Chip.linkUse_iff _ _).1 (c.linkUse_routeRequest k i)).1

/-- An order in flight stays through the end of an EVENT_CLOSE sweep. -/
theorem Chip.order_closeEnded (n : BitVec 8) (c : Chip) (h : c.lue.order.isSome = true) :
    (c.closeEnded n).lue.order = c.lue.order := by
  refine c.closeEnded_keeps (fun d => d.lue.order = c.lue.order) n rfl (fun _ _ => rfl)
    (fun i d hd => (d.order_routeRequest _ i).trans hd) fun d hd => ?_
  rw [d.serveRoutes_busy (Or.inl (by rw [hd]; exact h))]
  exact hd

theorem Chip.order_sweepTenureEnded (j : Job) (c : Chip) (h : c.lue.order.isSome = true) :
    (c.sweepTenureEnded j).lue.order = c.lue.order := by
  have hoff : ∀ (l : List SweepEntry) (d : Chip), (d.sweepOff l).lue = d.lue := fun l d => d.same_sweepOff l .lue (by decide)
  have hleaves : c.sweepLeaves.lue = c.lue := hoff _ c
  have hclose : ∀ n, (c.endClose n).lue.order = c.lue.order := fun n => by
    show (c.sweepLeaves.closeEnded n).lue.order = c.lue.order
    rw [Chip.order_closeEnded n _ (by rw [hleaves]; exact h), hleaves]
  have hswept : ∀ n, (c.markSwept n).lue = c.lue := fun n => by
    unfold Chip.markSwept
    split <;> rfl
  have hadvance : c.sweepAdvance.lue.order = c.lue.order := by
    unfold Chip.sweepAdvance
    split
    · split
      · split
        · exact hclose _
        · split
          · rfl
          · exact congrArg Lue.order (hoff _ c)
      · rfl
    · rfl
  unfold Chip.sweepTenureEnded
  split
  · rfl
  · split
    · exact congrArg Lue.order ((hoff _ _).trans (hswept _))
    · split
      · exact hadvance
      · split
        · exact hclose _
        · exact congrArg Lue.order hleaves
    · split
      · exact hadvance
      · exact congrArg Lue.order hleaves

theorem Chip.order_jobEnded (j : Job) (c : Chip) (h : c.lue.order.isSome = true) :
    (c.jobEnded j).lue.order = c.lue.order := by
  cases j with
  | sweepStart => exact c.order_sweepTenureEnded .sweepStart h
  | sweepStep => exact c.order_sweepTenureEnded .sweepStep h
  | sweepEnd => exact c.order_sweepTenureEnded .sweepEnd h
  | _ =>
    refine congrArg Lue.order (Chip.same_jobEnded_pieces _ c .lue ?_)
    simp [jobPieces]

/-! ### What keeps the part in STOPPING -/

/-- An order is in flight on a link, or a block but the RPU has asked for a tenure (R33). -/
def Chip.HoldsStop (c : Chip) : Prop :=
  c.toe.flights ≠ [] ∨ c.lue.order.isSome = true ∨ ∃ batch ∈ c.tau.orders, ∃ j ∈ batch, j.block ≠ .rpu

/-- With no tenure running a request of a block but the RPU is work outstanding. -/
theorem Chip.workOutstanding_of_orders (c : Chip) (h : ∃ batch ∈ c.tau.orders, ∃ j ∈ batch, j.block ≠ .rpu) :
    c.workOutstanding = true := by
  obtain ⟨batch, hb, j, hj, hne⟩ := h
  refine c.workOutstanding_iff.2 ⟨j.block, hne, ?_⟩
  simp only [Chip.outstanding, Bool.or_eq_true, List.any_eq_true]
  exact Or.inl ⟨batch, hb, j, hj, by simp⟩

/-- What keeps the part in STOPPING keeps it there when the tenure is paid. -/
theorem Chip.canStop_paid (t : Tenure) (c : Chip) (h : c.lcc.lifecycle ≠ .stopping ∨ c.HoldsStop) :
    (c.paid t).canStop = false := by
  rw [← Bool.not_eq_true, Chip.canStop_iff]
  rintro ⟨hl, hf, ho, hw⟩
  rcases h with h | h | h | h
  · exact h ((c.lifecycle_paid t).symm.trans hl)
  · refine h (List.eq_nil_of_length_eq_zero ?_)
    rw [← c.flights_paid_length t, hf]
    rfl
  · have h1 : (c.owedPaid t).lue.order = c.lue.order :=
      c.owedPaid_keeps (fun d => d.lue.order = c.lue.order) t (fun o _ d hd => (d.order_payOwed o).trans hd) rfl
    have h2 : (c.paid t).lue.order = c.lue.order := by
      rw [Chip.paid_eq, Chip.order_jobEnded _ _ (by rw [h1]; exact h), h1]
    rw [h2] at ho
    rw [ho] at h
    cases h
  · rw [Chip.workOutstanding_of_orders _ (by rw [(c.tau_paid t).1]; exact h)] at hw
    cases hw

/-! ### What stays while the part does not stop -/

/-- The part goes on: the load phase may change, and beside it only the requests, jobs and the arbiter. -/
structure Chip.GoesOn (c d : Chip) : Prop where
  same : Chip.Same [.requests, .jobs, .arbiter, .lcc, .lue, .toe, .statusMark] c d
  lue : ∃ w, d.lue = { c.lue with walk := w }
  toe : ∃ w, d.toe = { c.toe with walk := w }
  lifecycle : d.lcc.lifecycle = c.lcc.lifecycle

theorem Chip.GoesOn.refl (c : Chip) : Chip.GoesOn c c := ⟨.refl _ c, ⟨_, rfl⟩, ⟨_, rfl⟩, rfl⟩

theorem Chip.GoesOn.trans {c d e : Chip} (h1 : Chip.GoesOn c d) (h2 : Chip.GoesOn d e) : Chip.GoesOn c e := by
  obtain ⟨w1, hl1⟩ := h1.lue
  obtain ⟨w2, hl2⟩ := h2.lue
  obtain ⟨v1, ht1⟩ := h1.toe
  obtain ⟨v2, ht2⟩ := h2.toe
  exact ⟨h1.same.then h2.same, ⟨w2, by rw [hl2, hl1]⟩, ⟨v2, by rw [ht2, ht1]⟩, h2.lifecycle.trans h1.lifecycle⟩

theorem Chip.GoesOn.of_same {c d : Chip} (h : Chip.Same [.requests, .jobs, .arbiter] c d) : Chip.GoesOn c d :=
  ⟨h.mono (by decide), ⟨c.lue.walk, h .lue (by decide)⟩, ⟨c.toe.walk, h .toe (by decide)⟩, h.lccItems.1⟩

theorem Chip.goesOn_endPhase4 (c : Chip) : Chip.GoesOn c c.endPhase4 := by
  refine ⟨c.same_endPhase4.mono (by decide), ⟨c.lue.walk, c.same_endPhase4 .lue (by decide)⟩, ?_, ?_⟩
  · unfold Chip.endPhase4
    split
    · exact ⟨_, rfl⟩
    · exact ⟨_, rfl⟩
  · unfold Chip.endPhase4
    split <;> rfl

theorem Chip.goesOn_endPhase5 (c : Chip) : Chip.GoesOn c c.endPhase5 := by
  have hkeep := Chip.GoesOn.refl c
  unfold Chip.endPhase5
  split
  · exact hkeep
  · split
    · refine ⟨?_, ⟨_, rfl⟩, ⟨_, rfl⟩, rfl⟩
      intro x hx; cases x <;> first | exact absurd (by decide) hx | rfl
    · exact hkeep

/-- The part does not stop where what keeps it holds, or where a block is about to ask. -/
def Chip.DoesNotStop (c : Chip) : Prop := c.canStop = false ∨ c.workWanted = true

theorem Chip.endStopping_of_doesNotStop (c : Chip) (h : c.DoesNotStop) : c.endStopping = c := by
  refine if_neg ?_
  rcases h with h | h <;> simp [h]

theorem Chip.goesOn_endPhases (c : Chip) (h : c.DoesNotStop) : Chip.GoesOn c c.endPhase4.endPhase5.endStopping := by
  by_cases hl : c.lcc.lifecycle = .loading
  · have h45 := c.goesOn_endPhase4.trans c.endPhase4.goesOn_endPhase5
    rw [Chip.endStopping_loading _ (by rw [h45.lifecycle, hl]; decide)]
    exact h45
  · rw [c.endPhases_of_not_loading hl, c.endStopping_of_doesNotStop h]
    exact .refl c

/-- With no port waiting and no stop, what settles is what was paid. -/
theorem Chip.goesOn_after (t : Tenure) (c : Chip) (ha : c.portA.waiting = false) (hb : c.portB.waiting = false)
    (h : (c.paid t).DoesNotStop) : Chip.GoesOn (c.paid t) (c.tenureEnded t).settle :=
  ((c.paid t).goesOn_endPhases h).trans (.of_same (c.same_settle_tenureEnded t ha hb))

/-! ### What stays in any case -/

theorem Chip.same_after (t : Tenure) (c : Chip) (ha : c.portA.waiting = false) (hb : c.portB.waiting = false) :
    Chip.Same [.requests, .arbiter, .jobs, .lcc, .lue, .toe, .slm, .swe, .clu, .low, .statusMark] (c.paid t)
      (c.tenureEnded t).settle :=
  ((c.paid t).same_endPhases.mono (by decide)).then ((c.same_settle_tenureEnded t ha hb).mono (by decide))

theorem Chip.flagged_enterStopped (c : Chip) : Chip.Flagged c c.enterStopped := by
  have hlow : ∀ d : Chip, Chip.Flagged d d.findLow := by
    intro d
    unfold Chip.findLow
    split
    · exact .refl d
    · dsimp only
      split
      · exact .refl d
      · exact Chip.Flagged.markStatus (.of_rpu (by rfl))
  have htaps : Chip.Flagged c c.stopTaps := by
    unfold Chip.stopTaps Chip.releaseBlock
    split
    · exact ⟨fun _ hk => hk, rfl, fun _ => rfl⟩
    · exact .of_rpu (by rfl)
  unfold Chip.enterStopped
  refine Chip.Flagged.trans ?_ (hlow _)
  exact htaps.trans ⟨fun _ hk => hk, rfl, fun _ => rfl⟩

/-- Of causes, counters and the mark of the status word none is lost after the payment. -/
theorem Chip.flagged_after (t : Tenure) (c : Chip) (ha : c.portA.waiting = false) (hb : c.portB.waiting = false) :
    Chip.Flagged (c.paid t) (c.tenureEnded t).settle := by
  have h4 : ∀ d : Chip, Chip.Flagged d d.endPhase4 := by
    intro d
    unfold Chip.endPhase4
    split
    · exact ⟨fun _ hk => hk, rfl, fun _ => rfl⟩
    · exact .refl d
  have h5 : ∀ d : Chip, Chip.Flagged d d.endPhase5 := by
    intro d
    unfold Chip.endPhase5
    split
    · exact .refl d
    · split
      · exact ⟨fun _ hk => hk, rfl, fun _ => rfl⟩
      · exact .refl d
  have hs : ∀ d : Chip, Chip.Flagged d d.endStopping := by
    intro d
    unfold Chip.endStopping
    split
    · exact d.flagged_enterStopped
    · exact .refl d
  exact (((h4 _).trans (h5 _)).trans (hs _)).trans (.of_rpu ((c.same_settle_tenureEnded t ha hb).rpu))

/-- The notes and the pending causes, but for the mark of the status word. -/
theorem Chip.Same.rpuItems {L : List Piece} {c d : Chip} (h : Chip.Same L c d) (hL : .rpu ∉ L := by decide) :
    d.rpu.notes = c.rpu.notes ∧ ∀ k, d.rpu.isPending k = c.rpu.isPending k := by
  have h1 : { d.rpu with statusDirty := false } = { c.rpu with statusDirty := false } := h .rpu hL
  have hnotes := congrArg Rpu.notes h1
  have hcauses := congrArg Rpu.causes h1
  refine ⟨hnotes, fun k => ?_⟩
  dsimp only at hcauses
  rw [Rpu.isPending, Rpu.isPending, hcauses]

/-! ### The stop -/

theorem Chip.after_stopped (t : Tenure) (c : Chip) (ha : c.portA.waiting = false) (hb : c.portB.waiting = false)
    (hs : (c.paid t).canStop = true) (hw : (c.paid t).workWanted = false) :
    Chip.Same [.requests, .jobs, .arbiter] (c.paid t).enterStopped (c.tenureEnded t).settle := by
  have hl : (c.paid t).lcc.lifecycle ≠ .loading := by
    rw [((c.paid t).canStop_iff.1 hs).1]
    decide
  have hend : c.tenureEnded t = (c.paid t).enterStopped := by
    rw [Chip.tenureEnded, Chip.endPhases_of_not_loading _ hl, Chip.endStopping, hs, hw]
    rfl
  rw [← hend]
  exact c.same_settle_tenureEnded t ha hb

end Sys2Proof.Machine
end

section
/-! Held PURCHASE writes taken at the end of an evaluation (R8, R138, R145). -/

namespace Sys2Proof.Machine

/-! ### Taking one held write -/

/-- The held writes that are still to be taken. -/
def Chip.heldLeft (rest : List Port) (c : Chip) : Chip := { c with pcu := { c.pcu with held := rest } }

/-- A held write is refused. -/
def Chip.heldRefused (k : RefusalKind) (p : Port) (a : Addr) (rest : List Port) (c : Chip) : Chip :=
  Chip.endAccess p true 0 ((c.heldLeft rest).noteRefusal k p a)

/-- A held write begins an evaluation. -/
def Chip.heldTaken (p : Port) (v : Word) (rest : List Port) (c : Chip) : Chip :=
  Chip.endAccess p false 0 ((c.heldLeft rest).beginEvaluation p v)

/-- While an evaluation is in flight held writes wait. -/
theorem Chip.takeHeld_busy (l : List Port) (c : Chip) (h : c.pcu.inFlight.isSome = true) : Chip.takeHeld l c = c := by
  cases l with
  | nil => rfl
  | cons p l =>
    unfold Chip.takeHeld
    rw [if_pos h]

/-- The first of the held writes. -/
theorem Chip.takeHeld_cons (p : Port) (rest : List Port) (c : Chip) (h : c.pcu.inFlight = none) :
    Chip.takeHeld (p :: rest) c = Chip.takeHeld rest (match (c.port p).out with
      | none => c.heldLeft rest
      | some o => match c.purchaseRefusal o.access.data with
        | some k => c.heldRefused k p o.access.addr rest
        | none => c.heldTaken p o.access.data rest) := by
  have hport : ∀ x : Pcu, ({ c with pcu := x } : Chip).port p = c.port p := fun x => by cases p <;> rfl
  have href : ∀ (x : Pcu) v, ({ c with pcu := x } : Chip).purchaseRefusal v = c.purchaseRefusal v := fun x v => rfl
  conv => lhs; unfold Chip.takeHeld
  rw [if_neg (by simp [h])]
  dsimp only
  rw [hport]
  cases (c.port p).out with
  | none => rfl
  | some o =>
    dsimp only
    rw [href]
    cases c.purchaseRefusal o.access.data <;> rfl

theorem Chip.same_heldLeft (l : List Port) (c : Chip) : Chip.Same [.pcu] c (c.heldLeft l) := c.same_withPcu _

theorem Chip.same_heldRefused (k : RefusalKind) (p : Port) (a : Addr) (l : List Port) (c : Chip) :
    Chip.Same [portPiece p, .arbiter, .pcu, .rpu] c (c.heldRefused k p a l) :=
  (((c.same_heldLeft l).mono (by simp)).then ((Chip.same_noteRefusal _ _ _ _).mono (by simp))).then
    ((Chip.same_endAccess _ _ _ _).mono (by simp))

theorem Chip.same_heldTaken (p : Port) (v : Word) (l : List Port) (c : Chip) :
    Chip.Same [portPiece p, .arbiter, .pcu] c (c.heldTaken p v l) :=
  (((c.same_heldLeft l).mono (by simp)).then ((Chip.same_beginEvaluation _ _ _).mono (by simp))).then
    ((Chip.same_endAccess _ _ _ _).mono (by simp))

/-- What a refused held write leaves. -/
theorem Chip.heldRefused_items (k : RefusalKind) (p : Port) (a : Addr) (l : List Port) (c : Chip) :
    (c.heldRefused k p a l).port p = { c.port p with out := none, answer := some ⟨true, 0⟩ } ∧
      (c.heldRefused k p a l).rpu = (c.noteRefusal k p a).rpu ∧
      (c.heldRefused k p a l).pcu = { c.pcu with held := l } := by
  have hn : ((c.heldLeft l).noteRefusal k p a).port p = c.port p := by cases p <;> rfl
  have hend := Chip.same_endAccess p true 0 ((c.heldLeft l).noteRefusal k p a)
  refine ⟨?_, ?_, ?_⟩
  · rw [Chip.heldRefused, Chip.port_endAccess, hn]
  · exact hend.rpu (by cases p <;> decide)
  · exact hend .pcu (by cases p <;> decide)

/-- What an accepted held write leaves. -/
theorem Chip.heldTaken_items (p : Port) (v : Word) (op : PurchaseOp) (l : List Port) (c : Chip)
    (h : purchaseOpOfCode (field v 28 2) = some op) :
    (c.heldTaken p v l).port p = { c.port p with out := none, answer := some ⟨false, 0⟩ } ∧
      (c.heldTaken p v l).pcu = ⟨some ⟨op, p, field v 0 12, field v 12 7⟩,
        ⟨c.pcu.record.number + 1, p, op, field v 0 12, field v 12 7, .inProgress⟩, l⟩ := by
  have hb : (c.heldLeft l).beginEvaluation p v = { c with pcu := ⟨some ⟨op, p, field v 0 12, field v 12 7⟩,
      ⟨c.pcu.record.number + 1, p, op, field v 0 12, field v 12 7, .inProgress⟩, l⟩ } := by
    unfold Chip.beginEvaluation
    rw [h]
    rfl
  unfold Chip.heldTaken
  rw [hb]
  constructor
  · rw [Chip.port_endAccess]
    cases p <;> rfl
  · exact Chip.same_endAccess p false 0 _ .pcu (by cases p <;> decide)

/-! ### Refused and accepted -/

/-- The refusal of a PURCHASE write that fails (R138). -/
def Chip.purchaseRefusalKind (c : Chip) : RefusalKind := if c.lcc.lifecycle = .running then .badCommand else .notRunning

theorem Chip.purchaseRefusal_of_fails (v : Word) (c : Chip)
    (h : ¬c.lcc.lifecycle = .running ∨ purchaseOpOfCode (field v 28 2) = none) :
    c.purchaseRefusal v = some c.purchaseRefusalKind := by
  unfold Chip.purchaseRefusal Chip.purchaseRefusalKind
  by_cases hr : c.lcc.lifecycle = .running
  · have hn : purchaseOpOfCode (field v 28 2) = none := h.resolve_left fun hh => hh hr
    simp [hr, hn]
  · simp [hr]

theorem Chip.purchaseRefusal_of_op (v : Word) (op : PurchaseOp) (c : Chip) (hr : c.lcc.lifecycle = .running)
    (h : purchaseOpOfCode (field v 28 2) = some op) : c.purchaseRefusal v = none := by
  simp [Chip.purchaseRefusal, hr, h]

theorem Chip.op_of_purchaseRefusal (v : Word) (c : Chip) (h : c.purchaseRefusal v = none) :
    ∃ op, purchaseOpOfCode (field v 28 2) = some op := by
  cases hop : purchaseOpOfCode (field v 28 2) with
  | some op => exact ⟨op, rfl⟩
  | none =>
    rw [c.purchaseRefusal_of_fails v (Or.inr hop)] at h
    cases h

/-- The access of a port has ended with ERROR and a note. -/
def Chip.AccessNoted (k : RefusalKind) (q : Port) (b : Access) (d : Chip) : Prop :=
  (d.port q).out = none ∧ (d.port q).answer = some ⟨true, 0⟩ ∧ d.rpu.isPending .accessRefused = true ∧
    ∃ n ∈ d.rpu.notes, n.kind = k ∧ n.port = q ∧ n.addr = b.addr

/-- The access of a port has ended with READY and begun an evaluation; `number` is that of the evaluation before. -/
def Chip.EvaluationBegun (number : BitVec 8) (q : Port) (b : Access) (op : PurchaseOp) (d : Chip) : Prop :=
  (d.port q).out = none ∧ (d.port q).answer = some ⟨false, 0⟩ ∧
    d.pcu.inFlight = some ⟨op, q, field b.data 0 12, field b.data 12 7⟩ ∧
    d.pcu.record = ⟨number + 1, q, op, field b.data 0 12, field b.data 12 7, .inProgress⟩

/-- The first held write is accepted: the later ones stay held. -/
theorem Chip.takeHeld_accepts (p : Port) (rest : List Port) (a : Access) (k : Condition) (op : PurchaseOp) (c : Chip)
    (hi : c.pcu.inFlight = none) (ho : (c.port p).out = some ⟨a, k⟩) (hr : c.lcc.lifecycle = .running)
    (hop : purchaseOpOfCode (field a.data 28 2) = some op) :
    Chip.EvaluationBegun c.pcu.record.number p a op (Chip.takeHeld (p :: rest) c) ∧
      (Chip.takeHeld (p :: rest) c).pcu.held = rest ∧ ∀ q, q ≠ p → (Chip.takeHeld (p :: rest) c).port q = c.port q := by
  obtain ⟨hport, hpcu⟩ := c.heldTaken_items p a.data op rest hop
  have htake : Chip.takeHeld (p :: rest) c = c.heldTaken p a.data rest := by
    rw [Chip.takeHeld_cons p rest c hi, ho]
    dsimp only
    rw [c.purchaseRefusal_of_op a.data op hr hop]
    exact Chip.takeHeld_busy rest _ (by rw [hpcu]; rfl)
  rw [htake]
  unfold Chip.EvaluationBegun
  rw [hport, hpcu]
  refine ⟨⟨rfl, rfl, rfl, rfl⟩, rfl, fun q hq => (c.same_heldTaken p a.data rest).port q ?_⟩
  cases p <;> cases q <;> first | exact absurd rfl hq | decide

/-- The first held write is refused, and the next are taken. -/
theorem Chip.takeHeld_refused (p : Port) (rest : List Port) (a : Access) (k : Condition) (c : Chip)
    (hi : c.pcu.inFlight = none) (ho : (c.port p).out = some ⟨a, k⟩)
    (hf : ¬c.lcc.lifecycle = .running ∨ purchaseOpOfCode (field a.data 28 2) = none) :
    Chip.takeHeld (p :: rest) c = Chip.takeHeld rest (c.heldRefused c.purchaseRefusalKind p a.addr rest) := by
  rw [Chip.takeHeld_cons p rest c hi, ho]
  dsimp only
  rw [c.purchaseRefusal_of_fails a.data hf]

/-! ### The note of a refused write survives -/

theorem ringEntry_next (n : Word) : ringEntry n ≠ ringEntry (n + 1) := by
  have hadd := BitVec.toNat_add n 1
  have hone : (1 : Word).toNat = 1 := rfl
  rw [hone] at hadd
  simp only [ringEntry, Config.ringSize, hadd]
  omega

/-- The newest note stays when one more is entered. -/
theorem Chip.newest_note_stays (n : Note) (k : RefusalKind) (q : Port) (b : Addr) (c : Chip) (hn : n ∈ c.rpu.notes)
    (hc : c.rpu.noteCount = n.number + 1) : n ∈ (c.noteRefusal k q b).rpu.notes := by
  rw [Chip.notes_noteRefusal, List.mem_append, List.mem_filter, hc]
  exact Or.inl ⟨hn, by simpa using ringEntry_next n.number⟩

/-- With no port's access outstanding, taking held writes does nothing but forget them. -/
theorem Chip.takeHeld_idle (l : List Port) (c : Chip) (h : ∀ p, (c.port p).out = none) :
    Chip.Same [.pcu] c (Chip.takeHeld l c) := by
  induction l generalizing c with
  | nil => exact .refl _ c
  | cons p l ih =>
    cases hi : c.pcu.inFlight with
    | some e =>
      rw [Chip.takeHeld_busy _ _ (by rw [hi]; rfl)]
      exact .refl _ c
    | none =>
      rw [Chip.takeHeld_cons p l c hi, h p]
      exact (c.same_heldLeft l).then (ih _ fun q => by
        rw [(c.same_heldLeft l).port q (by cases q <;> decide)]
        exact h q)

/-- With one port idle, taking held writes leaves this port and enters one note at most. -/
theorem Chip.takeHeld_other (p : Port) (l : List Port) (c : Chip) (h : (c.port p).out = none) :
    (Chip.takeHeld l c).port p = c.port p ∧ ((Chip.takeHeld l c).rpu = c.rpu ∨
      ∃ k q b, (Chip.takeHeld l c).rpu = (c.noteRefusal k q b).rpu) := by
  induction l generalizing c with
  | nil => exact ⟨rfl, Or.inl rfl⟩
  | cons q l ih =>
    cases hi : c.pcu.inFlight with
    | some e =>
      rw [Chip.takeHeld_busy _ _ (by rw [hi]; rfl)]
      exact ⟨rfl, Or.inl rfl⟩
    | none =>
      rw [Chip.takeHeld_cons q l c hi]
      cases ho : (c.port q).out with
      | none =>
        have hs := c.same_heldLeft l
        have hport := hs.port p (by cases p <;> decide)
        obtain ⟨h1, h2⟩ := ih (c.heldLeft l) (by rw [hport]; exact h)
        exact ⟨h1.trans hport, h2⟩
      | some o =>
        have hne : p ≠ q := by
          rintro rfl
          rw [h] at ho
          cases ho
        dsimp only
        cases href : c.purchaseRefusal o.access.data with
        | none =>
          have hs := c.same_heldTaken q o.access.data l
          obtain ⟨op, hop⟩ := c.op_of_purchaseRefusal _ href
          rw [Chip.takeHeld_busy l _ (by rw [(c.heldTaken_items q _ op l hop).2]; rfl)]
          exact ⟨hs.port p (by cases p <;> cases q <;> first | exact absurd rfl hne | decide),
            Or.inl (hs.rpu (by cases q <;> decide))⟩
        | some k =>
          have hs := c.same_heldRefused k q o.access.addr l
          have hport := hs.port p (by cases p <;> cases q <;> first | exact absurd rfl hne | decide)
          obtain ⟨hq, hrpu, -⟩ := c.heldRefused_items k q o.access.addr l
          have hidle := Chip.takeHeld_idle l (c.heldRefused k q o.access.addr l) fun r => by
            by_cases hr : r = q
            · subst hr
              rw [hq]
            · have hrp : r = p := by cases r <;> cases p <;> cases q <;> simp_all
              rw [hrp, hport]
              exact h
          refine ⟨(hidle.port p (by cases p <;> decide)).trans hport, Or.inr ⟨k, q, o.access.addr, ?_⟩⟩
          rw [hidle.rpu, hrpu]

/-- A refused held write is noted, whatever the later ones come to. -/
theorem Chip.takeHeld_refuses (p : Port) (rest : List Port) (a : Access) (k : Condition) (c : Chip)
    (hi : c.pcu.inFlight = none) (ho : (c.port p).out = some ⟨a, k⟩)
    (hf : ¬c.lcc.lifecycle = .running ∨ purchaseOpOfCode (field a.data 28 2) = none) :
    Chip.AccessNoted c.purchaseRefusalKind p a (Chip.takeHeld (p :: rest) c) := by
  rw [c.takeHeld_refused p rest a k hi ho hf]
  generalize hk : c.purchaseRefusalKind = kind
  have hcause : kind.cause = .accessRefused := by
    rw [← hk, Chip.purchaseRefusalKind]
    split <;> rfl
  obtain ⟨hport, hrpu, -⟩ := c.heldRefused_items kind p a.addr rest
  generalize c.heldRefused kind p a.addr rest = d at hport hrpu
  have hpend : d.rpu.isPending .accessRefused = true := by
    rw [hrpu, Chip.isPending_noteRefusal, hcause]
    simp
  have hnote : (⟨c.rpu.noteCount, kind, p, a.addr, c.tbu.wall, c.tbu.mono⟩ : Note) ∈ d.rpu.notes := by
    rw [hrpu, Chip.notes_noteRefusal]
    simp
  have hcount : d.rpu.noteCount = c.rpu.noteCount + 1 := by rw [hrpu, Chip.noteCount_noteRefusal]
  obtain ⟨hp, hr⟩ := d.takeHeld_other p rest (by rw [hport])
  unfold Chip.AccessNoted
  rw [hp, hport]
  rcases hr with hr | ⟨k', q, b, hr⟩
  · rw [hr]
    exact ⟨rfl, rfl, hpend, _, hnote, rfl, rfl, rfl⟩
  · rw [hr]
    refine ⟨rfl, rfl, ?_, _, d.newest_note_stays _ k' q b hnote hcount, rfl, rfl, rfl⟩
    rw [Chip.isPending_noteRefusal, hpend]
    rfl

/-! ### Refused accesses and causes -/

/-- No cause leaves the pending set while held writes are taken. -/
theorem Chip.pending_takeHeld (l : List Port) (c : Chip) (k : Cause) (h : c.rpu.isPending k = true) :
    (Chip.takeHeld l c).rpu.isPending k = true := by
  induction l generalizing c with
  | nil => exact h
  | cons p l ih =>
    cases hi : c.pcu.inFlight with
    | some e =>
      rw [Chip.takeHeld_busy _ _ (by rw [hi]; rfl)]
      exact h
    | none =>
      rw [Chip.takeHeld_cons p l c hi]
      refine ih _ ?_
      split
      · exact h
      · split
        · rw [(c.heldRefused_items _ p _ l).2.1, Chip.isPending_noteRefusal, h]
          rfl
        · rw [(c.same_heldTaken p _ l).rpu (by cases p <;> decide)]
          exact h

end Sys2Proof.Machine
end

section
/-! What a tenure's end leaves of what it owed to the Tap Order Engine and of the tap failures (R82, R87, R91, R174). -/

namespace Sys2Proof.Machine

/-! ### A tenure's end with no port waiting -/

/-- Out of reset no port waits, so no access is granted in the step. -/
structure Chip.EndsQuiet (c : Chip) : Prop where
  resetHigh : c.resetLow = false
  portA : c.portA.waiting = false
  portB : c.portB.waiting = false

/-- The part when a tenure has ended and all has settled. -/
def Chip.afterTenure (t : Tenure) (c : Chip) : Chip := (c.tenureEnded t).settle

theorem Chip.EndsQuiet.goesOn {c : Chip} (h : c.EndsQuiet) (t : Tenure) (hs : (c.paid t).DoesNotStop) :
    Chip.GoesOn (c.paid t) (c.afterTenure t) := c.goesOn_after t h.portA h.portB hs

theorem Chip.EndsQuiet.goesOn_of_stays {c : Chip} (h : c.EndsQuiet) (t : Tenure)
    (hs : c.lcc.lifecycle ≠ .stopping ∨ c.HoldsStop) : Chip.GoesOn (c.paid t) (c.afterTenure t) :=
  h.goesOn t (Or.inl (c.canStop_paid t hs))

theorem Chip.EndsQuiet.flagged {c : Chip} (h : c.EndsQuiet) (t : Tenure) :
    Chip.Flagged (c.paid t) (c.afterTenure t) := c.flagged_after t h.portA h.portB

theorem Chip.EndsQuiet.same {c : Chip} (h : c.EndsQuiet) (t : Tenure) :
    Chip.Same [.requests, .arbiter, .jobs, .lcc, .lue, .toe, .slm, .swe, .clu, .low, .statusMark] (c.paid t)
      (c.afterTenure t) := c.same_after t h.portA h.portB

/-- The part goes on, or it enters STOPPED. -/
theorem Chip.EndsQuiet.goesOn_or_stops {c : Chip} (h : c.EndsQuiet) (t : Tenure) :
    Chip.GoesOn (c.paid t) (c.afterTenure t) ∨
      Chip.Same [.requests, .jobs, .arbiter] (c.paid t).enterStopped (c.afterTenure t) := by
  by_cases hs : (c.paid t).DoesNotStop
  · exact Or.inl (h.goesOn t hs)
  · have hstop : (c.paid t).canStop = true ∧ (c.paid t).workWanted = false := by
      simpa [Chip.DoesNotStop] using hs
    exact Or.inr (c.after_stopped t h.portA h.portB hstop.1 hstop.2)

/-- The items that the load phases leave. -/
theorem Chip.GoesOn.toeItems {c d : Chip} (h : Chip.GoesOn c d) :
    d.toe.flights = c.toe.flights ∧ d.toe.evals = c.toe.evals ∧ d.toe.blocked = c.toe.blocked := by
  obtain ⟨w, hw⟩ := h.toe
  rw [hw]
  exact ⟨rfl, rfl, rfl⟩

theorem Chip.GoesOn.lueItems {c d : Chip} (h : Chip.GoesOn c d) :
    d.lue.entries = c.lue.entries ∧ d.lue.owedCauses = c.lue.owedCauses := by
  obtain ⟨w, hw⟩ := h.lue
  rw [hw]
  exact ⟨rfl, rfl⟩

theorem Chip.GoesOn.slmItems {c d : Chip} (h : Chip.GoesOn c d) :
    d.slm.slots = c.slm.slots ∧ d.slm.edge = c.slm.edge ∧ d.slm.edgeFresh = c.slm.edgeFresh := by
  have hslm : { d.slm with jobs := [] } = { c.slm with jobs := [] } := h.same .slm (by decide)
  have hslots := congrArg Slm.slots hslm
  have hedge := congrArg Slm.edge hslm
  have hfresh := congrArg Slm.edgeFresh hslm
  exact ⟨hslots, hedge, hfresh⟩

/-! ### Paying what is owed, one thing after the other -/

/-- The pieces that payment reaches. -/
def duesPieces : List Piece := [.tenure, .arbiter, .rpu, .toe, .statusMark, .swe, .clu, .tapLink, .slm, .lue, .pcu]

theorem Chip.same_payOwed_dues (o : Owed) {c d : Chip} (h : Chip.Same duesPieces c d) :
    Chip.Same duesPieces c (d.payOwed o) :=
  h.then (((d.same_payOwed_pieces o).mono (payPieces_any o)).mono (by decide))

theorem Chip.same_tauFreed_dues (c : Chip) : Chip.Same duesPieces c c.tauFreed := c.same_tauFreed.mono (by decide)

/-- What everything owed keeps holds when all is paid. -/
theorem Chip.owedPaid_invariant (P : Chip → Prop) (t : Tenure) (c : Chip)
    (h : ∀ o ∈ t.owed, ∀ d, Chip.Same duesPieces c d → P d → P (d.payOwed o)) (hc : P c.tauFreed) : P (c.owedPaid t) :=
  (Chip.paidOff_keeps (fun d => Chip.Same duesPieces c d ∧ P d) t.owed _
    (fun o ho d hd => ⟨Chip.same_payOwed_dues o hd.1, h o ho d hd.1 hd.2⟩) ⟨c.same_tauFreed_dues, hc⟩).2

/-- What one thing owed brings about stands when all is paid. -/
theorem Chip.owedPaid_reaches (P Q : Chip → Prop) (t : Tenure) (o : Owed) (c : Chip) (ho : o ∈ t.owed)
    (hP : ∀ q ∈ t.owed, ∀ d, Chip.Same duesPieces c d → P d → P (d.payOwed q))
    (hPQ : ∀ d, Chip.Same duesPieces c d → P d → Q (d.payOwed o))
    (hQ : ∀ q ∈ t.owed, ∀ d, Chip.Same duesPieces c d → Q d → Q (d.payOwed q)) (hc : P c.tauFreed) : Q (c.owedPaid t) :=
  (Chip.paidOff_reaches (fun d => Chip.Same duesPieces c d ∧ P d) (fun d => Chip.Same duesPieces c d ∧ Q d) t.owed o _ ho
    (fun q hq d hd => ⟨Chip.same_payOwed_dues q hd.1, hP q hq d hd.1 hd.2⟩)
    (fun d hd => ⟨Chip.same_payOwed_dues o hd.1, hPQ d hd.1 hd.2⟩)
    (fun q hq d hd => ⟨Chip.same_payOwed_dues q hd.1, hQ q hq d hd.1 hd.2⟩) ⟨c.same_tauFreed_dues, hc⟩).2

/-! ### The evaluation list (R82) -/

theorem EvalKind.merge_merge (a b : EvalKind) : (a.merge b).merge b = a.merge b := by
  cases a <;> cases b <;> rfl

theorem EvalKind.merge_self (a : EvalKind) : a.merge a = a := by
  cases a <;> rfl

/-- A request merged into an older one of its subscriber. -/
def EvalRequest.mergedWith (r q : EvalRequest) : EvalRequest :=
  if q.subscriber = r.subscriber then ⟨q.subscriber, q.kind.merge r.kind, q.reassert || r.reassert⟩ else q

theorem EvalRequest.mergedWith_subscriber (r q : EvalRequest) : (r.mergedWith q).subscriber = q.subscriber := by
  unfold EvalRequest.mergedWith
  split <;> rfl

theorem EvalRequest.mergedWith_twice (r q : EvalRequest) : r.mergedWith (r.mergedWith q) = r.mergedWith q := by
  unfold EvalRequest.mergedWith
  by_cases h : q.subscriber = r.subscriber
  · simp [h, EvalKind.merge_merge]
  · simp [h]

theorem placeEval_older (l : List EvalRequest) (r : EvalRequest) (h : ∃ q ∈ l, q.subscriber = r.subscriber) :
    placeEval l r = l.map r.mergedWith := if_pos (by simpa using h)

theorem placeEval_new (l : List EvalRequest) (r : EvalRequest) (h : ¬∃ q ∈ l, q.subscriber = r.subscriber) :
    placeEval l r = l ++ [r] := if_neg (by simpa using h)

/-- A request placed twice is placed once. -/
theorem placeEval_twice (l : List EvalRequest) (r : EvalRequest) : placeEval (placeEval l r) r = placeEval l r := by
  by_cases h : ∃ q ∈ l, q.subscriber = r.subscriber
  · obtain ⟨q, hq, hs⟩ := h
    rw [placeEval_older l r ⟨q, hq, hs⟩, placeEval_older, List.map_map]
    · exact List.map_congr_left fun q _ => r.mergedWith_twice q
    · exact ⟨_, List.mem_map_of_mem hq, (r.mergedWith_subscriber q).trans hs⟩
  · rw [placeEval_new l r h, placeEval_older _ _ ⟨r, by simp, rfl⟩, List.map_append]
    congr 1
    · refine (List.map_congr_left fun q hq => ?_).trans (List.map_id l)
      exact if_neg fun hs => h ⟨q, hq, hs⟩
    · simp [EvalRequest.mergedWith, EvalKind.merge_self]

theorem placeEval_ne_nil (l : List EvalRequest) (r : EvalRequest) : placeEval l r ≠ [] := by
  by_cases h : ∃ q ∈ l, q.subscriber = r.subscriber
  · rw [placeEval_older l r h]
    obtain ⟨q, hq, -⟩ := h
    simpa using List.ne_nil_of_mem hq
  · rw [placeEval_new l r h]
    simp

/-- Only a request changes the evaluation list. -/
theorem Chip.evals_payOwed (o : Owed) (c : Chip) (h : ∀ r, o ≠ .request r) : (c.payOwed o).toe.evals = c.toe.evals := by
  cases o with
  | request r => exact absurd rfl (h r)
  | space =>
    show c.spaceNotice.toe.evals = _
    unfold Chip.spaceNotice Chip.releaseBlock
    split
    · dsimp only
      split <;> rfl
    · rfl
  | attempt n =>
    show (c.firstAttempt n).toe.evals = _
    unfold Chip.firstAttempt Chip.decideEnding Chip.startAttempt Chip.sendTap
    split
    · rfl
    · repeat' split
      all_goals rfl
  | redeadline n => rfl
  | _ =>
    refine congrArg Toe.evals (Chip.same_payOwed_pieces _ c .toe ?_)
    simp [payPieces]

theorem Chip.evals_request (r : EvalRequest) (c : Chip) :
    (c.payOwed (.request r)).toe.evals = if c.working then placeEval c.toe.evals r else c.toe.evals := by
  show (c.request r).toe.evals = _
  unfold Chip.request
  split <;> rfl

/-- The one request that is owed is placed. -/
theorem Chip.evals_paid (t : Tenure) (r : EvalRequest) (c : Chip) (hr : .request r ∈ t.owed)
    (hu : ∀ r', .request r' ∈ t.owed → r' = r) :
    (c.paid t).toe.evals = if c.working then placeEval c.toe.evals r else c.toe.evals := by
  rw [Chip.paid_eq, Chip.toe_jobEnded]
  have hwork : ∀ d, Chip.Same duesPieces c d → d.working = c.working := fun d hd => Chip.working_congr hd.lccItems.1
  have hother : ∀ q ∈ t.owed, ∀ d : Chip, (d.payOwed q).toe.evals = d.toe.evals ∨ q = .request r := by
    intro q hq d
    by_cases h : ∃ r', q = .request r'
    · obtain ⟨r', rfl⟩ := h
      exact Or.inr (by rw [hu r' hq])
    · exact Or.inl (d.evals_payOwed q fun r' he => h ⟨r', he⟩)
  cases hw : c.working with
  | false =>
    rw [if_neg (by simp)]
    refine c.owedPaid_invariant (fun d => d.toe.evals = c.toe.evals) t (fun q hq d hs hd => ?_) rfl
    rcases hother q hq d with h | rfl
    · exact h.trans hd
    · rw [d.evals_request, hwork d hs, hw]
      exact hd
  | true =>
    rw [if_pos rfl]
    refine c.owedPaid_reaches (fun d => d.toe.evals = c.toe.evals ∨ d.toe.evals = placeEval c.toe.evals r)
      (fun d => d.toe.evals = placeEval c.toe.evals r) t (.request r) hr (fun q hq d hs hd => ?_) (fun d hs hd => ?_)
      (fun q hq d hs hd => ?_) (Or.inl rfl)
    · rcases hother q hq d with h | rfl
      · rw [h]
        exact hd
      · rw [d.evals_request, hwork d hs, hw, if_pos rfl]
        rcases hd with hd | hd <;> rw [hd]
        · exact Or.inr rfl
        · exact Or.inr (placeEval_twice _ r)
    · rw [d.evals_request, hwork d hs, hw, if_pos rfl]
      rcases hd with hd | hd <;> rw [hd]
      exact placeEval_twice _ r
    · rcases hother q hq d with h | rfl
      · rw [h]
        exact hd
      · rw [d.evals_request, hwork d hs, hw, if_pos rfl, hd]
        exact placeEval_twice _ r

/-- With the evaluation list not empty the Tap Order Engine asks for a tenure. -/
theorem Chip.workWanted_of_evals (c : Chip) (hw : c.working = true) (he : c.toe.evals ≠ []) : c.workWanted = true := by
  have hne : (c.wants .toe).isSome = true := by
    simp only [Chip.wants, Chip.toeWants, hw, if_true]
    split
    · rfl
    · split
      · rfl
      · simp [he]
  simp only [Chip.workWanted, List.any_eq_true]
  exact ⟨.toe, by decide, hne⟩

theorem Chip.EndsQuiet.evals {c : Chip} (h : c.EndsQuiet) (t : Tenure) (r : EvalRequest) (hr : .request r ∈ t.owed)
    (hu : ∀ r', .request r' ∈ t.owed → r' = r) :
    (c.afterTenure t).toe.evals = if c.working then placeEval c.toe.evals r else c.toe.evals := by
  have hpaid := c.evals_paid t r hr hu
  have hstop : (c.paid t).DoesNotStop := by
    cases hw : c.working with
    | false =>
      refine Or.inl (c.canStop_paid t (Or.inl fun hl => ?_))
      simp [Chip.working, hl] at hw
    | true =>
      refine Or.inr (Chip.workWanted_of_evals _ ((Chip.working_congr (c.lifecycle_paid t)).trans hw) ?_)
      rw [hpaid, if_pos hw]
      exact placeEval_ne_nil _ r
  rw [(h.goesOn t hstop).toeItems.2.1, hpaid]

/-! ### Orders in flight -/

/-- What is found of a subscriber in flight after a change of one subscriber's record. -/
theorem Toe.flight_modifyFlight (t : Toe) (n sub : Nat) (g : Flight → Flight) (hg : ∀ x, (g x).subscriber = x.subscriber) :
    (t.modifyFlight n g).flight sub = if sub = n then (t.flight sub).map g else t.flight sub := by
  have hkeep : ∀ x : Flight, (if x.subscriber = n then g x else x).subscriber = x.subscriber := by
    intro x
    split
    · exact hg x
    · rfl
  have hcomp : (fun f : Flight => decide (f.subscriber = sub)) ∘ (fun x => if x.subscriber = n then g x else x) =
      fun f => decide (f.subscriber = sub) := by
    funext x
    simp only [Function.comp_apply, hkeep]
  simp only [Toe.flight, Toe.modifyFlight, List.find?_map, hcomp]
  cases hf : t.flights.find? fun f => decide (f.subscriber = sub) with
  | none => simp
  | some f =>
    have hs : f.subscriber = sub := by simpa using List.find?_some hf
    simp only [Option.map_some, hs]
    split <;> rfl

/-- What is found of the subscriber whose record changes. -/
theorem Toe.flight_modifyFlight_same {t : Toe} {sub : Nat} {f : Flight} (g : Flight → Flight) (h : t.flight sub = some f)
    (hg : ∀ x, (g x).subscriber = x.subscriber) : (t.modifyFlight sub g).flight sub = some (g f) := by
  rw [Toe.flight_modifyFlight t sub sub g hg, if_pos rfl, h]
  rfl

/-- A record in flight keeps the part in STOPPING. -/
theorem Chip.holdsStop_of_flight {c : Chip} {sub : Nat} {f : Flight} (h : c.toe.flight sub = some f) : c.HoldsStop := by
  refine Or.inl fun he => ?_
  rw [Toe.flight, he] at h
  cases h

theorem Chip.EndsQuiet.flight {c : Chip} (h : c.EndsQuiet) (t : Tenure) (sub : Nat) (f : Flight)
    (hf : c.toe.flight sub = some f) : (c.afterTenure t).toe.flight sub = (c.owedPaid t).toe.flight sub := by
  have hon := (h.goesOn_of_stays t (Or.inr (Chip.holdsStop_of_flight hf))).toeItems.1
  rw [Toe.flight, hon, Chip.paid_eq, Chip.toe_jobEnded]
  rfl

/-- Only first attempts and new deadlines change a record in flight. -/
theorem Chip.flights_payOwed (o : Owed) (c : Chip) (h : (∀ n, o ≠ .attempt n) ∧ ∀ n, o ≠ .redeadline n) :
    (c.payOwed o).toe.flights = c.toe.flights := by
  cases o with
  | request r =>
    show (c.request r).toe.flights = _
    unfold Chip.request
    split <;> rfl
  | space =>
    show c.spaceNotice.toe.flights = _
    unfold Chip.spaceNotice Chip.releaseBlock
    split
    · dsimp only
      split <;> rfl
    · rfl
  | attempt n => exact absurd rfl (h.1 n)
  | redeadline n => exact absurd rfl (h.2 n)
  | _ =>
    refine congrArg Toe.flights (Chip.same_payOwed_pieces _ c .toe ?_)
    simp [payPieces]

/-- A record whose ending is withdrawn has its deadline one attempt timeout on (R91). -/
def Chip.redeadlined (c : Chip) (f : Flight) : Flight :=
  if f.ending = none then { f with deadline := some (c.tbu.mono + c.settings.tapTimeout) } else f

theorem Chip.redeadlined_twice (c : Chip) (f : Flight) : c.redeadlined (c.redeadlined f) = c.redeadlined f := by
  unfold Chip.redeadlined
  split <;> simp_all

theorem Chip.flight_redeadline (n sub : Nat) (c : Chip) :
    (c.redeadline n).toe.flight sub = if sub = n then (c.toe.flight sub).map c.redeadlined else c.toe.flight sub := by
  have hg : (fun f : Flight => if f.ending.isNone then
      { f with deadline := some (c.tbu.mono + c.settings.tapTimeout) } else f) = c.redeadlined := by
    funext f
    unfold Chip.redeadlined
    simp
  show (c.toe.modifyFlight n _).flight sub = _
  rw [hg, Toe.flight_modifyFlight]
  intro x
  unfold Chip.redeadlined
  split <;> rfl

/-- The deadline owed is set, once for all that set it (R91). -/
theorem Chip.flight_owedPaid_redeadline (t : Tenure) (sub : Nat) (f : Flight) (c : Chip)
    (hr : .redeadline sub ∈ t.owed) (hn : ∀ k, .attempt k ∉ t.owed) (hf : c.toe.flight sub = some f) :
    (c.owedPaid t).toe.flight sub = some (c.redeadlined f) := by
  have hsame : ∀ d, Chip.Same duesPieces c d → d.redeadlined = c.redeadlined := by
    intro d hd
    have htbu : d.tbu = c.tbu := hd .tbu (by decide)
    have hset : d.settings = c.settings := hd .settings (by decide)
    unfold Chip.redeadlined
    rw [htbu, hset]
  have hpay : ∀ q ∈ t.owed, ∀ d : Chip, (d.payOwed q).toe.flight sub = d.toe.flight sub ∨
      (d.payOwed q).toe.flight sub = (d.toe.flight sub).map d.redeadlined := by
    intro q hq d
    by_cases h : ∃ n, q = .redeadline n
    · obtain ⟨n, rfl⟩ := h
      have := d.flight_redeadline n sub
      by_cases hs : sub = n
      · rw [if_pos hs] at this
        exact Or.inr this
      · rw [if_neg hs] at this
        exact Or.inl this
    · refine Or.inl ?_
      rw [Toe.flight, d.flights_payOwed q ⟨fun n he => hn n (he ▸ hq), fun n he => h ⟨n, he⟩⟩]
      rfl
  refine c.owedPaid_reaches (fun d => d.toe.flight sub = some f ∨ d.toe.flight sub = some (c.redeadlined f))
    (fun d => d.toe.flight sub = some (c.redeadlined f)) t (.redeadline sub) hr (fun q hq d hs hd => ?_) (fun d hs hd => ?_)
    (fun q hq d hs hd => ?_) (Or.inl hf)
  · rcases hpay q hq d with h | h <;> rw [h]
    · exact hd
    · rw [hsame d hs]
      rcases hd with hd | hd <;> rw [hd]
      · exact Or.inr rfl
      · exact Or.inr (congrArg some (c.redeadlined_twice f))
  · show (d.redeadline sub).toe.flight sub = _
    rw [d.flight_redeadline, if_pos rfl, hsame d hs]
    rcases hd with hd | hd <;> rw [hd]
    · rfl
    · exact congrArg some (c.redeadlined_twice f)
  · rcases hpay q hq d with h | h <;> rw [h]
    · exact hd
    · rw [hsame d hs, hd]
      exact congrArg some (c.redeadlined_twice f)

/-! ### The first attempt (R87, R94, log 16) -/

/-- The record whose first attempt is not made. -/
def Flight.decided (f : Flight) (e : Ending) (now : Tick) : Flight :=
  { f with ending := some e, deadline := none, workAt := now }

theorem Chip.flight_decideEnding (sub : Nat) (e : Ending) (f : Flight) (c : Chip) (hf : c.toe.flight sub = some f) :
    (c.decideEnding sub e).toe.flight sub = some (f.decided e c.tbu.mono) := by
  exact Toe.flight_modifyFlight_same (fun f => f.decided e c.tbu.mono) hf fun _ => rfl

theorem Chip.firstAttempt_out (sub : Nat) (f : Flight) (c : Chip) (hf : c.toe.flight sub = some f) (he : f.ending = none)
    (ho : c.nodeOut f.node.toNat = true) :
    (c.firstAttempt sub).tapLink = c.tapLink ∧
      (c.firstAttempt sub).toe.flight sub = some (f.decided .held c.tbu.mono) := by
  have h : c.firstAttempt sub = c.decideEnding sub .held := by
    unfold Chip.firstAttempt
    rw [hf]
    simp [he, ho]
  rw [h]
  exact ⟨rfl, c.flight_decideEnding sub .held f hf⟩

theorem Chip.firstAttempt_withheld (sub : Nat) (f : Flight) (c : Chip) (hf : c.toe.flight sub = some f)
    (he : f.ending = none) (ho : ¬c.nodeOut f.node.toNat = true) (hw : c.lcc.lifecycle ≠ .running ∨ c.frozen = true) :
    (c.firstAttempt sub).tapLink = c.tapLink ∧
      (c.firstAttempt sub).toe.flight sub = some ({ f with sent := f.sent - 1 }.decided .returned c.tbu.mono) := by
  have h : c.firstAttempt sub = Chip.decideEnding sub .returned
      { c with toe := c.toe.modifyFlight sub fun x => { x with sent := x.sent - 1 } } := by
    unfold Chip.firstAttempt
    rw [hf]
    rcases hw with hw | hw <;> simp [he, ho, hw]
  rw [h]
  refine ⟨rfl, Chip.flight_decideEnding sub .returned _ _ ?_⟩
  exact Toe.flight_modifyFlight_same (fun x => { x with sent := x.sent - 1 }) hf fun _ => rfl

theorem Chip.firstAttempt_sent (sub : Nat) (f : Flight) (c : Chip) (hf : c.toe.flight sub = some f) (he : f.ending = none)
    (ho : ¬c.nodeOut f.node.toNat = true) (hr : c.lcc.lifecycle = .running) (hz : ¬c.frozen = true) :
    (c.firstAttempt sub).tapLink.sent = c.tapLink.sent ++ [tapFrame f.tapAddress f.tapPort f.level f.gate f.tag] ∧
      (c.firstAttempt sub).toe.flight sub =
        some { f with deadline := some (c.tbu.mono + c.settings.tapTimeout) } := by
  have hs : f.subscriber = sub := by simpa using List.find?_some hf
  have h : c.firstAttempt sub = c.startAttempt f := by
    unfold Chip.firstAttempt
    rw [hf]
    simp [he, ho, hr, hz]
  rw [h]
  refine ⟨rfl, ?_⟩
  subst hs
  exact Toe.flight_modifyFlight_same
    (fun x => { x with deadline := some (c.tbu.mono + c.settings.tapTimeout) }) hf fun _ => rfl

/-- A send tenure that owes its attempt first: the link and the record are as the first attempt leaves them. -/
theorem Chip.EndsQuiet.attempt {c : Chip} (h : c.EndsQuiet) (t : Tenure) (sub : Nat) (os : List Owed) (f : Flight)
    (hj : t.job = .send) (ho : t.owed = .attempt sub :: os) (hos : ∀ o ∈ os, o = .space ∨ ∃ k, o = .cause k)
    (hf : c.toe.flight sub = some f) :
    (c.afterTenure t).tapLink = (c.tauFreed.firstAttempt sub).tapLink ∧
      (c.afterTenure t).toe.flight sub = (c.tauFreed.firstAttempt sub).toe.flight sub := by
  have hpaid : (c.owedPaid t).tapLink = (c.tauFreed.firstAttempt sub).tapLink ∧
      (c.owedPaid t).toe.flight sub = (c.tauFreed.firstAttempt sub).toe.flight sub := by
    rw [Chip.owedPaid, ho, List.foldl_cons]
    refine Chip.paidOff_keeps (fun d => d.tapLink = (c.tauFreed.firstAttempt sub).tapLink ∧
      d.toe.flight sub = (c.tauFreed.firstAttempt sub).toe.flight sub) os _ (fun o hmem d hd => ?_) ⟨rfl, rfl⟩
    have hlink : (d.payOwed o).tapLink = d.tapLink := by
      refine d.same_payOwed_pieces o .tapLink ?_
      rcases hos o hmem with rfl | ⟨k, rfl⟩ <;> simp [payPieces]
    have hfl : (d.payOwed o).toe.flights = d.toe.flights := by
      refine d.flights_payOwed o ?_
      rcases hos o hmem with rfl | ⟨k, rfl⟩ <;> exact ⟨nofun, nofun⟩
    refine ⟨hlink.trans hd.1, ?_⟩
    rw [Toe.flight, hfl]
    exact hd.2
  refine ⟨?_, (h.flight t sub f hf).trans hpaid.2⟩
  have hsame : (c.afterTenure t).tapLink = (c.paid t).tapLink := h.same t .tapLink (by decide)
  rw [hsame, Chip.paid_eq, hj]
  exact hpaid.1

/-! ### The tap failures (R174) -/

theorem Chip.counters_paidOff (l : List Owed) (c : Chip) (h : .tapFailure ∉ l) :
    (l.foldl Chip.payOwed c).rpu.counters = c.rpu.counters :=
  Chip.paidOff_keeps (fun d => d.rpu.counters = c.rpu.counters) l c
    (fun o ho d hd => (d.flagged_payOwed o fun he => h (he ▸ ho)).counters.trans hd) rfl

/-- One tap failure owed is counted once. -/
theorem Chip.counters_owedPaid (t : Tenure) (c : Chip) (h : t.owed.count .tapFailure = 1) :
    (c.owedPaid t).rpu.counters = c.rpu.counters.modify Counter.tapFailures.index (· + 1) := by
  obtain ⟨l1, l2, hl⟩ := List.append_of_mem (List.count_pos_iff.1 (by rw [h]; decide) : Owed.tapFailure ∈ t.owed)
  rw [hl, List.count_append, List.count_cons_self] at h
  have h1 : Owed.tapFailure ∉ l1 := List.count_eq_zero.1 (by omega)
  have h2 : Owed.tapFailure ∉ l2 := List.count_eq_zero.1 (by omega)
  rw [Chip.owedPaid, hl, List.foldl_append, List.foldl_cons, Chip.counters_paidOff l2 _ h2]
  have hfirst := Chip.counters_paidOff l1 c.tauFreed h1
  exact congrArg (fun l : List Word => l.modify Counter.tapFailures.index (· + 1)) hfirst

theorem Chip.EndsQuiet.counters {c : Chip} (h : c.EndsQuiet) (t : Tenure) (ht : t.owed.count .tapFailure = 1)
    (hj : t.job ≠ .purchase) :
    (c.afterTenure t).rpu.counters = c.rpu.counters.modify Counter.tapFailures.index (· + 1) := by
  rw [(h.flagged t).counters, Chip.paid_eq, (Chip.flagged_jobEnded t.job _ hj).counters, c.counters_owedPaid t ht]

end Sys2Proof.Machine
end

section
/-! What a tenure's end leaves of causes, the space notice, the mirrored causes, the slots and the snapshot (R63, R115, R118,
R160), and of the evaluation that ends (R145). -/

namespace Sys2Proof.Machine

/-! ### Causes -/

/-- No cause leaves the pending set at the end of a job. -/
theorem Chip.pending_jobEnded (j : Job) (k : Cause) (c : Chip) (h : c.rpu.isPending k = true) :
    (c.jobEnded j).rpu.isPending k = true := by
  by_cases hj : j = .purchase
  · subst hj
    exact Chip.pending_takeHeld _ c k h
  · exact (c.flagged_jobEnded j hj).pending k h

theorem Chip.pending_payOwed (o : Owed) (k : Cause) (c : Chip) (h : c.rpu.isPending k = true) :
    (c.payOwed o).rpu.isPending k = true := by
  by_cases ho : o = .tapFailure
  · subst ho
    exact h
  · exact (c.flagged_payOwed o ho).pending k h

/-- A cause that one thing owed makes pending is pending at the end. -/
theorem Chip.EndsQuiet.pending {c : Chip} (h : c.EndsQuiet) (t : Tenure) (o : Owed) (k : Cause) (ho : o ∈ t.owed)
    (hk : ∀ d : Chip, (d.payOwed o).rpu.isPending k = true) : (c.afterTenure t).rpu.isPending k = true := by
  have hpaid : (c.owedPaid t).rpu.isPending k = true :=
    c.owedPaid_reaches (fun _ => True) (fun d => d.rpu.isPending k = true) t o ho (fun _ _ _ _ _ => trivial)
      (fun d _ _ => hk d) (fun q _ d _ hd => d.pending_payOwed q k hd) trivial
  exact (h.flagged t).pending k (Chip.pending_jobEnded _ k _ hpaid)

theorem Chip.pending_raise_self (k : Cause) (c : Chip) : (c.raise k).rpu.isPending k = true := by
  rw [Chip.rpu_raise, Rpu.isPending_raise]
  simp

/-- A written slot that owed NODE_DOWN or NODE_UP makes it pending. -/
theorem Chip.pending_handSlot (i : Nat) (down restore : Bool) (c : Chip) :
    (down = true → (c.handSlot i down restore).rpu.isPending .nodeDown = true) ∧
      (restore = true → (c.handSlot i down restore).rpu.isPending .nodeUp = true) := by
  rw [Chip.handSlot_eq]
  constructor
  · rintro rfl
    have hdown : (c.slotDown i).rpu.isPending .nodeDown = true := Chip.pending_raise_self _ _
    split
    · rw [Chip.rpu_slotRestored]
      exact ((Chip.Flagged.refl (c.slotDown i)).raise .nodeUp).pending _ hdown
    · exact hdown
  · rintro rfl
    rw [if_pos rfl, Chip.rpu_slotRestored]
    exact Chip.pending_raise_self _ _

/-! ### The evaluation that ends (R145) -/

theorem Chip.pcu_payOwed (o : Owed) (c : Chip) (h : ∀ r, o ≠ .purchaseEnd r) : (c.payOwed o).pcu = c.pcu := by
  cases o with
  | purchaseEnd r => exact absurd rfl (h r)
  | _ =>
    refine Chip.same_payOwed_pieces _ c .pcu ?_
    simp [payPieces]

/-- The Purchase Unit with its evaluation ended. -/
def Pcu.ended (p : Pcu) (r : PurchaseResult) : Pcu := { p with inFlight := none, record := { p.record with result := r } }

/-- The result owed is written. -/
theorem Chip.pcu_owedPaid (t : Tenure) (r : PurchaseResult) (c : Chip) (hr : .purchaseEnd r ∈ t.owed)
    (hu : ∀ r', .purchaseEnd r' ∈ t.owed → r' = r) : (c.owedPaid t).pcu = c.pcu.ended r := by
  have hpay : ∀ q ∈ t.owed, ∀ d : Chip, (d.payOwed q).pcu = d.pcu ∨ (d.payOwed q).pcu = d.pcu.ended r := by
    intro q hq d
    by_cases h : ∃ r', q = .purchaseEnd r'
    · obtain ⟨r', rfl⟩ := h
      rw [hu r' hq]
      exact Or.inr rfl
    · exact Or.inl (d.pcu_payOwed q fun r' he => h ⟨r', he⟩)
  refine c.owedPaid_reaches (fun d => d.pcu = c.pcu ∨ d.pcu = c.pcu.ended r) (fun d => d.pcu = c.pcu.ended r) t _ hr
    (fun q hq d _ hd => ?_) (fun d _ hd => ?_) (fun q hq d _ hd => ?_) (Or.inl rfl)
  · rcases hpay q hq d with h | h <;> rw [h]
    · exact hd
    · rcases hd with hd | hd <;> rw [hd] <;> exact Or.inr rfl
  · show d.pcu.ended r = _
    rcases hd with hd | hd <;> rw [hd]
    rfl
  · rcases hpay q hq d with h | h <;> rw [h, hd]
    rfl

/-- With no write held the evaluation ends, and no other begins. -/
theorem Chip.EndsQuiet.purchaseEnd {c : Chip} (h : c.EndsQuiet) (t : Tenure) (r : PurchaseResult)
    (hr : .purchaseEnd r ∈ t.owed) (hu : ∀ r', .purchaseEnd r' ∈ t.owed → r' = r) (hh : c.pcu.held = []) :
    (c.afterTenure t).pcu = c.pcu.ended r := by
  have hpcu := c.pcu_owedPaid t r hr hu
  have hsame : (c.afterTenure t).pcu = (c.paid t).pcu := h.same t .pcu (by decide)
  rw [hsame, Chip.paid_eq]
  by_cases hj : t.job = .purchase
  · have hheld : (c.owedPaid t).pcu.held = [] := by
      rw [hpcu]
      exact hh
    rw [hj]
    show (Chip.takeHeld (c.owedPaid t).pcu.held (c.owedPaid t)).pcu = _
    rw [hheld]
    exact hpcu
  · have hn : .pcu ∉ jobPieces t.job := by
      revert hj
      cases t.job <;> simp [jobPieces, sweepEndPieces]
    exact (Chip.same_jobEnded_pieces t.job _ .pcu hn).trans hpcu

/-! ### Requests that stand when all has settled -/

/-- A block that needs a tenure has a request at the TAU when all has settled. -/
theorem Chip.requested_of_settled (b : Block) (c : Chip) (hs : c.settled) (hr : c.resetLow = false)
    (hrun : c.tau.running = none) (hw : c.wants b ≠ none) : ∃ batch ∈ c.tau.orders, ∃ j ∈ batch, j.block = b := by
  rcases hs with h | ⟨hreq, -⟩
  · rw [hr] at h
    cases h
  · rw [← c.outstanding_iff b hrun]
    have hb := List.filterMap_eq_nil_iff.1 hreq b (allBlocks_mem b)
    by_contra ho
    rw [if_neg ho] at hb
    exact hw hb

/-- With an evaluation in flight a purchase is requested when all has settled. -/
theorem Chip.purchase_requested (c : Chip) (hs : c.settled) (hr : c.resetLow = false) (hrun : c.tau.running = none)
    (hi : c.pcu.inFlight.isSome = true) : c.requested .purchase := by
  obtain ⟨batch, hb, j, hj, hblock⟩ := c.requested_of_settled .pcu hs hr hrun (by simp [Chip.wants, hi])
  cases j with
  | purchase => exact ⟨batch, hb, hj⟩
  | _ => cases hblock

/-! ### The space notice (R160) -/

/-- Nothing waits for space: the queue block is released, every queued sweep is ready, and no close waits. -/
structure Chip.SpaceGiven (c : Chip) : Prop where
  blocked : c.toe.blocked = false
  ready : ∀ e ∈ c.swe.queue, e.ready = true
  close : c.clu.close ≠ .waiting

theorem Chip.spaceGiven_spaceNotice (c : Chip) (hw : c.working = true) : c.spaceNotice.SpaceGiven := by
  have hb : c.releaseBlock.toe.blocked = false ∧ c.releaseBlock.swe = c.swe ∧ c.releaseBlock.clu = c.clu := by
    unfold Chip.releaseBlock
    split
    · exact ⟨rfl, rfl, rfl⟩
    · rename_i h
      exact ⟨by simpa using h, rfl, rfl⟩
  unfold Chip.spaceNotice
  rw [if_pos hw]
  refine ⟨hb.1, fun e he => ?_, ?_⟩
  · obtain ⟨e0, -, rfl⟩ := List.mem_map.1 he
    rfl
  · dsimp only
    split
    · decide
    · rename_i h
      exact h

/-- A RESTORE handed to ready sweeps leaves ready sweeps. -/
theorem Swe.handRestore_ready (s : Swe) (node : Nat) (outage : BitVec 16) (resume : Nat) (h : ∀ e ∈ s.queue, e.ready = true) :
    ∀ e ∈ (s.handRestore node outage resume).queue, e.ready = true := by
  unfold Swe.handRestore Swe.join
  split
  · intro e he
    obtain ⟨e0, hmem, rfl⟩ := List.mem_map.1 he
    split <;> exact h e0 hmem
  · split
    · intro e he
      rcases List.mem_append.1 he with he | he
      · exact h e he
      · rw [List.mem_singleton.1 he]
    · exact h

/-- A slot's RESTORE is handed to the Sweep Engine or nothing is. -/
theorem Chip.swe_slotRestored (i : Nat) (c : Chip) : (c.slotRestored i).swe = c.swe ∨
    ∃ node outage, (c.slotRestored i).swe = c.swe.handRestore node outage 0 := by
  unfold Chip.slotRestored Chip.handRestore
  split
  · split
    · split
      · exact Or.inr ⟨_, _, rfl⟩
      · exact Or.inl rfl
    · exact Or.inl rfl
  · exact Or.inl rfl

theorem Chip.swe_handSlot (i : Nat) (down restore : Bool) (c : Chip) : (c.handSlot i down restore).swe = c.swe ∨
    ∃ node outage, (c.handSlot i down restore).swe = c.swe.handRestore node outage 0 := by
  have hdown : ∀ d : Bool, (if d then c.slotDown i else c).swe = c.swe := by
    intro d
    cases d <;> rfl
  rw [Chip.handSlot_eq]
  split
  · rw [← hdown down]
    exact Chip.swe_slotRestored i _
  · exact Or.inl (hdown down)

/-- What is owed leaves the sweep queue, readies it, or hands it a RESTORE. -/
theorem Chip.swe_payOwed (o : Owed) (c : Chip) : (c.payOwed o).swe = c.swe ∨
    (c.payOwed o).swe = { c.swe with queue := c.swe.queue.map fun e => { e with ready := true } } ∨
    ∃ node outage, (c.payOwed o).swe = c.swe.handRestore node outage 0 := by
  cases o with
  | space =>
    show c.spaceNotice.swe = _ ∨ c.spaceNotice.swe = _ ∨ _
    unfold Chip.spaceNotice Chip.releaseBlock
    split
    · dsimp only
      split <;> exact Or.inr (Or.inl rfl)
    · exact Or.inl rfl
  | slot i d r =>
    rcases c.swe_handSlot i d r with h | h
    · exact Or.inl h
    · exact Or.inr (Or.inr h)
  | _ =>
    refine Or.inl (Chip.same_payOwed_pieces _ c .swe ?_)
    simp [payPieces]

theorem Chip.blocked_payOwed (o : Owed) (c : Chip) (h : o ≠ .space) : (c.payOwed o).toe.blocked = c.toe.blocked := by
  cases o with
  | space => exact absurd rfl h
  | request r =>
    show (c.request r).toe.blocked = _
    unfold Chip.request
    split <;> rfl
  | attempt n =>
    show (c.firstAttempt n).toe.blocked = _
    unfold Chip.firstAttempt Chip.decideEnding Chip.startAttempt Chip.sendTap
    split
    · rfl
    · repeat' split
      all_goals rfl
  | redeadline n => rfl
  | _ =>
    refine congrArg Toe.blocked (Chip.same_payOwed_pieces _ c .toe ?_)
    simp [payPieces]

/-- The space that is given stays given. -/
theorem Chip.SpaceGiven.payOwed {c : Chip} (h : c.SpaceGiven) (o : Owed) (hw : c.working = true) :
    (c.payOwed o).SpaceGiven := by
  by_cases ho : o = .space
  · subst ho
    exact c.spaceGiven_spaceNotice hw
  · refine ⟨(c.blocked_payOwed o ho).trans h.blocked, ?_, ?_⟩
    · rcases c.swe_payOwed o with hs | hs | ⟨node, outage, hs⟩ <;> rw [hs]
      · exact h.ready
      · intro e he
        obtain ⟨e0, -, rfl⟩ := List.mem_map.1 he
        rfl
      · exact Swe.handRestore_ready _ _ _ _ h.ready
    · have hn : .clu ∉ payPieces o := by
        cases o <;> first | exact absurd rfl ho | simp [payPieces]
      have hclu : { (c.payOwed o).clu with low := false } = { c.clu with low := false } :=
        Chip.same_payOwed_pieces o c .clu hn
      have hclose := congrArg Clu.close hclu
      dsimp only at hclose
      rw [hclose]
      exact h.close

/-- The end of an EVENT_CLOSE sweep leaves the sweep queue to the sweep. -/
theorem Chip.swe_closeEnded (n : BitVec 8) (c : Chip) : (c.closeEnded n).swe = c.swe :=
  c.closeEnded_keeps (fun d => d.swe = c.swe) n rfl (fun _ _ => rfl) (fun _ _ hd => (Chip.swe_routeRequest _ _ _).trans hd)
    fun d hd => (d.linkServed_serveRoutes.swe).trans hd

theorem Chip.swe_sweepOff (l : List SweepEntry) (c : Chip) : (c.sweepOff l).swe = ⟨l, none⟩ :=
  Chip.same_marking c { c with swe := ⟨l, none⟩ } .swe (by decide)

theorem Chip.swe_endClose (n : BitVec 8) (c : Chip) : (c.endClose n).swe = ⟨c.swe.others, none⟩ :=
  (Chip.swe_closeEnded n _).trans (c.swe_sweepOff _)

theorem Chip.swe_markSwept (n : BitVec 16) (c : Chip) : (c.markSwept n).swe = c.swe := by
  unfold Chip.markSwept
  split <;> rfl

theorem Chip.swe_endRecorded (n : BitVec 16) (c : Chip) : (c.endRecorded n).swe = ⟨c.swe.others, none⟩ := by
  have h : (c.endRecorded n).swe = ⟨(c.markSwept n).swe.others, none⟩ := Chip.swe_sweepOff _ _
  rw [h, Chip.swe_markSwept]

theorem Chip.swe_endUnrecorded (e : SweepEntry) (c : Chip) : (c.endUnrecorded e).swe =
    ⟨if e.repeatMark then c.swe.others ++ [⟨e.kind, 0, true, false, false⟩] else c.swe.others, none⟩ := c.swe_sweepOff _

/-- A sweep that has made its last step or its end tenure leaves the queue, or goes to its tail as READY. -/
theorem Chip.swe_sweepAdvance (c : Chip) : c.sweepAdvance.swe = c.swe ∨ c.sweepAdvance.swe = ⟨c.swe.others, none⟩ ∨
    ∃ e : SweepEntry, e.ready = true ∧ c.sweepAdvance.swe = ⟨c.swe.others ++ [e], none⟩ := by
  unfold Chip.sweepAdvance
  split
  · split
    · split
      · exact Or.inr (Or.inl (c.swe_endClose _))
      · split
        · exact Or.inl rfl
        · rw [Chip.swe_endUnrecorded]
          split
          · exact Or.inr (Or.inr ⟨_, rfl, rfl⟩)
          · exact Or.inr (Or.inl rfl)
    · exact Or.inl rfl
  · exact Or.inl rfl

/-- The same at the end of any tenure of a sweep. -/
theorem Chip.swe_sweepTenureEnded (j : Job) (c : Chip) :
    (c.sweepTenureEnded j).swe = c.swe ∨ (c.sweepTenureEnded j).swe = ⟨c.swe.others, none⟩ ∨
    ∃ e : SweepEntry, e.ready = true ∧ (c.sweepTenureEnded j).swe = ⟨c.swe.others ++ [e], none⟩ := by
  unfold Chip.sweepTenureEnded
  split
  · exact Or.inl rfl
  · split
    · exact Or.inr (Or.inl (c.swe_endRecorded _))
    · split
      · exact c.swe_sweepAdvance
      · split
        · exact Or.inr (Or.inl (c.swe_endClose _))
        · exact Or.inr (Or.inl (c.swe_sweepOff _))
    · split
      · exact c.swe_sweepAdvance
      · exact Or.inr (Or.inl (c.swe_sweepOff _))

theorem Chip.ready_sweepTenureEnded (j : Job) (c : Chip) (h : ∀ e ∈ c.swe.queue, e.ready = true) :
    ∀ e ∈ (c.sweepTenureEnded j).swe.queue, e.ready = true := by
  have hothers : ∀ e ∈ c.swe.others, e.ready = true := fun e he => h e (List.mem_filter.1 he).1
  rcases c.swe_sweepTenureEnded j with hs | hs | ⟨e0, he0, hs⟩ <;> rw [hs]
  · exact h
  · exact hothers
  · intro e he
    rcases List.mem_append.1 he with he | he
    · exact hothers e he
    · rw [List.mem_singleton.1 he]
      exact he0

theorem Chip.SpaceGiven.jobEnded {c : Chip} (h : c.SpaceGiven) (j : Job) : (c.jobEnded j).SpaceGiven := by
  have hclu : { (c.jobEnded j).clu with low := false } = { c.clu with low := false } :=
    Chip.same_jobEnded_pieces j c .clu (by cases j <;> simp [jobPieces, sweepEndPieces])
  have hclose := congrArg Clu.close hclu
  dsimp only at hclose
  refine ⟨by rw [Chip.toe_jobEnded]; exact h.blocked, ?_, by rw [hclose]; exact h.close⟩
  have hready : ∀ j', ∀ e ∈ (c.sweepTenureEnded j').swe.queue, e.ready = true :=
    fun j' => c.ready_sweepTenureEnded j' h.ready
  cases j with
  | sweepStart => exact hready .sweepStart
  | sweepStep => exact hready .sweepStep
  | sweepEnd => exact hready .sweepEnd
  | _ =>
    intro e he
    refine h.ready e ?_
    rwa [Chip.same_jobEnded_pieces _ c .swe (by simp [jobPieces])] at he

/-- Entry into STOPPED drops a close (R163). -/
theorem Chip.close_enterStopped (c : Chip) : c.enterStopped.clu.close = .none := by
  have hlow : ∀ d : Chip, d.findLow.clu.close = d.clu.close := by
    intro d
    have h1 : { d.findLow.clu with low := false } = { d.clu with low := false } := d.same_findLow .clu (by decide)
    have hclose := congrArg Clu.close h1
    exact hclose
  unfold Chip.enterStopped
  exact hlow _

/-- The space notice owed gives space to all that waits for it. -/
theorem Chip.EndsQuiet.space {c : Chip} (h : c.EndsQuiet) (t : Tenure) (ho : .space ∈ t.owed) (hw : c.working = true) :
    (c.afterTenure t).SpaceGiven := by
  have hwork : ∀ d, Chip.Same duesPieces c d → d.working = true := fun d hd =>
    (Chip.working_congr hd.lccItems.1).trans hw
  have hpaid : (c.paid t).SpaceGiven := by
    rw [Chip.paid_eq]
    refine Chip.SpaceGiven.jobEnded ?_ t.job
    exact c.owedPaid_reaches (fun _ => True) (fun d => d.SpaceGiven) t .space ho (fun _ _ _ _ _ => trivial)
      (fun d hd _ => d.spaceGiven_spaceNotice (hwork d hd)) (fun q _ d hd hg => hg.payOwed q (hwork d hd)) trivial
  rcases h.goesOn_or_stops t with hon | hset
  · have hswe : (c.afterTenure t).swe = (c.paid t).swe := hon.same .swe (by decide)
    have hclu : (c.afterTenure t).clu = (c.paid t).clu := hon.same.clu
    exact ⟨hon.toeItems.2.2.trans hpaid.blocked, by rw [hswe]; exact hpaid.ready, by rw [hclu]; exact hpaid.close⟩
  · have htoe : (c.afterTenure t).toe = (c.paid t).enterStopped.toe := hset .toe (by decide)
    have hswe : (c.afterTenure t).swe = (c.paid t).enterStopped.swe := hset .swe (by decide)
    have hclu : (c.afterTenure t).clu = (c.paid t).enterStopped.clu := hset.clu
    obtain ⟨-, -, -, -, -, hblocked, -, -, -, hqueue, -, -⟩ := (c.paid t).enterStopped_values
    refine ⟨by rw [htoe]; exact hblocked, by rw [hswe, hqueue]; simp, ?_⟩
    rw [hclu, Chip.close_enterStopped]
    decide

end Sys2Proof.Machine
end

section
/-! What a tenure's end leaves of the mirrored causes, the snapshot and the written slots (R63, R115, R118, R125). -/

namespace Sys2Proof.Machine

/-! ### The causes of mirrored changes (R63) -/

theorem Chip.pending_foldl_raise (l : List OwedCause) (c : Chip) :
    ∀ o ∈ l, (l.foldl (fun c o => c.raise o.cause) c).rpu.isPending o.cause = true := by
  induction l generalizing c with
  | nil => simp
  | cons o l ih =>
    intro q hq
    rw [List.foldl_cons]
    rcases List.mem_cons.1 hq with rfl | hq
    · exact ((Chip.Flagged.refl (c.raise q.cause)).foldl_raise l).pending _ (Chip.pending_raise_self _ c)
    · exact ih _ q hq

theorem Chip.owedCauses_handRouteCauses (c : Chip) :
    c.handRouteCauses.lue.owedCauses = c.lue.owedCauses.filter fun o => o.entries != [] := by
  have hlue := congrArg Lue.owedCauses c.lue_handRouteCauses
  exact hlue

/-- A cause that waits for no entry is handed. -/
theorem Chip.pending_handRouteCauses (c : Chip) (o : OwedCause) (ho : o ∈ c.lue.owedCauses) (he : o.entries = []) :
    c.handRouteCauses.rpu.isPending o.cause = true := by
  unfold Chip.handRouteCauses
  exact Chip.pending_foldl_raise _ _ o (List.mem_filter.2 ⟨ho, by simpa using he⟩)

/-- The causes of a mirrored route change: those with no entry left are pending, and the others stay owed. -/
structure Chip.CausesHanded (l : List OwedCause) (d : Chip) : Prop where
  left : d.lue.owedCauses = l.filter fun o => o.entries != []
  pending : ∀ o ∈ l, o.entries = [] → d.rpu.isPending o.cause = true

theorem Chip.owedCauses_payOwed (o : Owed) (c : Chip) (h : o ≠ .mirrored) :
    (c.payOwed o).lue.owedCauses = c.lue.owedCauses := by
  cases o with
  | mirrored => exact absurd rfl h
  | _ =>
    refine congrArg Lue.owedCauses (Chip.same_payOwed_pieces _ c .lue ?_)
    simp [payPieces]

theorem Chip.CausesHanded.payOwed {l : List OwedCause} {d : Chip} (h : Chip.CausesHanded l d) (o : Owed) :
    Chip.CausesHanded l (d.payOwed o) := by
  refine ⟨?_, fun q hq he => d.pending_payOwed o _ (h.pending q hq he)⟩
  by_cases ho : o = .mirrored
  · subst ho
    show d.handRouteCauses.lue.owedCauses = _
    rw [d.owedCauses_handRouteCauses, h.left, List.filter_filter]
    simp
  · exact (d.owedCauses_payOwed o ho).trans h.left

theorem Chip.causesHanded_owedPaid (t : Tenure) (c : Chip) (ho : .mirrored ∈ t.owed) :
    Chip.CausesHanded c.lue.owedCauses (c.owedPaid t) := by
  refine c.owedPaid_reaches (fun d => d.lue.owedCauses = c.lue.owedCauses ∨ Chip.CausesHanded c.lue.owedCauses d)
    (Chip.CausesHanded c.lue.owedCauses) t .mirrored ho (fun q hq d _ hd => ?_) (fun d _ hd => ?_)
    (fun q _ d _ hd => hd.payOwed q) (Or.inl rfl)
  · rcases hd with hd | hd
    · by_cases hm : q = .mirrored
      · subst hm
        exact Or.inr ⟨hd ▸ d.owedCauses_handRouteCauses, fun o ho he => d.pending_handRouteCauses o (hd ▸ ho) he⟩
      · exact Or.inl ((d.owedCauses_payOwed q hm).trans hd)
    · exact Or.inr (hd.payOwed q)
  · rcases hd with hd | hd
    · exact ⟨hd ▸ d.owedCauses_handRouteCauses, fun o ho he => d.pending_handRouteCauses o (hd ▸ ho) he⟩
    · exact hd.payOwed .mirrored

theorem Chip.EndsQuiet.mirrored {c : Chip} (h : c.EndsQuiet) (t : Tenure) (ho : .mirrored ∈ t.owed) (hj : t.job = .mirror) :
    (∀ o ∈ c.lue.owedCauses, o.entries = [] → (c.afterTenure t).rpu.isPending o.cause = true) ∧
      (c.lcc.lifecycle ≠ .stopping ∨ c.HoldsStop →
        (c.afterTenure t).lue.owedCauses = c.lue.owedCauses.filter fun o => o.entries != []) := by
  have hpaid : Chip.CausesHanded c.lue.owedCauses (c.paid t) := by
    rw [Chip.paid_eq, hj]
    exact c.causesHanded_owedPaid t ho
  exact ⟨fun o hmem he => (h.flagged t).pending _ (hpaid.pending o hmem he),
    fun hs => (h.goesOn_of_stays t hs).lueItems.2.trans hpaid.left⟩

/-! ### The snapshot (R118) -/

/-- Only slots and the snapshot change the Status Line Monitor. -/
theorem Chip.slm_payOwed (o : Owed) (c : Chip) (h : .slm ∉ payPieces o) : (c.payOwed o).slm = c.slm :=
  (c.same_payOwed_pieces o).slm ⟨h, by cases o <;> simp [payPieces]⟩

/-- The pending-edge state after a snapshot is written: a newer one stays. -/
def Slm.edgeLeft (s : Slm) : Option Snapshot := if s.edgeFresh then s.edge else none

theorem Chip.slm_snapshotWritten (c : Chip) : c.snapshotWritten.slm = { c.slm with edge := c.slm.edgeLeft } := by
  have hfresh : (c.raise .lineEdge).slm = c.slm := rfl
  unfold Chip.snapshotWritten Slm.edgeLeft
  dsimp only
  split
  · rename_i h
    rw [hfresh] at h ⊢
    rw [if_pos h]
  · rename_i h
    rw [hfresh] at h
    rw [if_neg h]
    rfl

/-- Slots handed leave the snapshot. -/
theorem Chip.edge_handSlot (i : Nat) (down restore : Bool) (c : Chip) :
    (c.handSlot i down restore).slm.edgeFresh = c.slm.edgeFresh ∧ (c.handSlot i down restore).slm.edge = c.slm.edge := by
  have hdown : ∀ d : Bool, (if d then c.slotDown i else c).slm.edgeFresh = c.slm.edgeFresh ∧
      (if d then c.slotDown i else c).slm.edge = c.slm.edge := by
    intro d
    cases d <;> exact ⟨rfl, rfl⟩
  have hrest : ∀ d : Chip, (d.slotRestored i).slm.edgeFresh = d.slm.edgeFresh ∧
      (d.slotRestored i).slm.edge = d.slm.edge := by
    intro d
    unfold Chip.slotRestored Chip.handRestore
    split
    · split
      · split <;> exact ⟨rfl, rfl⟩
      · exact ⟨rfl, rfl⟩
    · exact ⟨rfl, rfl⟩
  rw [Chip.handSlot_eq]
  split
  · exact ⟨(hrest _).1.trans (hdown down).1, (hrest _).2.trans (hdown down).2⟩
  · exact hdown down

/-- Payment keeps whether a newer snapshot was handed, and leaves the snapshot or what a written one leaves of it. -/
theorem Chip.edge_payOwed (o : Owed) (c : Chip) : (c.payOwed o).slm.edgeFresh = c.slm.edgeFresh ∧
    ((c.payOwed o).slm.edge = c.slm.edge ∨ (c.payOwed o).slm.edge = c.slm.edgeLeft) := by
  cases o with
  | snapshot =>
    show c.snapshotWritten.slm.edgeFresh = _ ∧ (c.snapshotWritten.slm.edge = _ ∨ c.snapshotWritten.slm.edge = _)
    rw [c.slm_snapshotWritten]
    exact ⟨rfl, Or.inr rfl⟩
  | slot i down restore =>
    obtain ⟨h1, h2⟩ := c.edge_handSlot i down restore
    exact ⟨h1, Or.inl h2⟩
  | _ => rw [Chip.slm_payOwed _ c (by simp [payPieces])]; exact ⟨rfl, Or.inl rfl⟩

/-- Of the ends of a sweep's tenure only that of a recorded outage reaches the Status Line Monitor. -/
theorem Chip.slm_endClose (n : BitVec 8) (c : Chip) : (c.endClose n).slm = c.slm := by
  have hclose : (c.sweepLeaves.closeEnded n).slm = c.sweepLeaves.slm := (Chip.same_closeEnded n _).slm
  have hleaves : c.sweepLeaves.slm = c.slm := (c.same_sweepOff _).slm
  exact hclose.trans hleaves

theorem Chip.slm_endRecorded (n : BitVec 16) (c : Chip) : (c.endRecorded n).slm = (c.markSwept n).slm := by
  have hleaves : (c.markSwept n).sweepLeaves.slm = (c.markSwept n).slm := (Chip.same_sweepOff _ _).slm
  exact hleaves

theorem Chip.slm_sweepAdvance (c : Chip) : c.sweepAdvance.slm = c.slm := by
  have hoff : ∀ e, (c.endUnrecorded e).slm = c.slm := fun e => by
    have hleaves := (c.same_sweepOff
      (if e.repeatMark then c.swe.others ++ [⟨e.kind, 0, true, false, false⟩] else c.swe.others)).slm
    exact hleaves
  unfold Chip.sweepAdvance
  split
  · split
    · split
      · exact c.slm_endClose _
      · split
        · rfl
        · exact hoff _
    · rfl
  · rfl

theorem Chip.slm_sweepTenureEnded (j : Job) (c : Chip) :
    (c.sweepTenureEnded j).slm = c.slm ∨ ∃ n, (c.sweepTenureEnded j).slm = (c.markSwept n).slm := by
  have hleaves : c.sweepLeaves.slm = c.slm := (c.same_sweepOff _).slm
  unfold Chip.sweepTenureEnded
  split
  · exact Or.inl rfl
  · split
    · exact Or.inr ⟨_, c.slm_endRecorded _⟩
    · split
      · exact Or.inl c.slm_sweepAdvance
      · split
        · exact Or.inl (c.slm_endClose _)
        · exact Or.inl hleaves
    · split
      · exact Or.inl c.slm_sweepAdvance
      · exact Or.inl hleaves

/-- The end of a job leaves the snapshot. -/
theorem Chip.edge_jobEnded (j : Job) (c : Chip) : (c.jobEnded j).slm.edge = c.slm.edge := by
  have hsweep : ∀ j', (c.sweepTenureEnded j').slm.edge = c.slm.edge := by
    intro j'
    rcases c.slm_sweepTenureEnded j' with h | ⟨n, h⟩ <;> rw [h]
    unfold Chip.markSwept
    split <;> rfl
  have houtage : c.outageTenureEnded.slm.edge = c.slm.edge := by
    unfold Chip.outageTenureEnded
    split <;> rfl
  have hbegin : c.beginPhase4.slm.edge = c.slm.edge := by
    unfold Chip.beginPhase4
    split <;> rfl
  cases j with
  | sweepStart => exact hsweep .sweepStart
  | sweepStep => exact hsweep .sweepStep
  | sweepEnd => exact hsweep .sweepEnd
  | purchase => exact congrArg Slm.edge (Chip.same_takeHeld _ c).slm
  | logLoad => exact hbegin
  | outageRead _ => exact houtage
  | nextRead => exact houtage
  | repair _ => exact houtage
  | _ => rfl

/-- A snapshot written makes LINE_EDGE pending, and a newer one handed since stays (R118). -/
theorem Chip.EndsQuiet.snapshot {c : Chip} (h : c.EndsQuiet) (t : Tenure) (ho : .snapshot ∈ t.owed) :
    (c.afterTenure t).rpu.isPending .lineEdge = true ∧
      (c.lcc.lifecycle ≠ .stopping ∨ c.HoldsStop → (c.afterTenure t).slm.edge = c.slm.edgeLeft) := by
  constructor
  · refine h.pending t .snapshot .lineEdge ho fun d => ?_
    show d.snapshotWritten.rpu.isPending .lineEdge = true
    have hp := Chip.pending_raise_self .lineEdge d
    unfold Chip.snapshotWritten
    dsimp only
    split <;> exact hp
  · intro hs
    have hleft : ∀ d : Chip, d.slm.edgeFresh = c.slm.edgeFresh ∧ (d.slm.edge = c.slm.edge ∨ d.slm.edge = c.slm.edgeLeft) →
        d.slm.edgeLeft = c.slm.edgeLeft := by
      rintro d ⟨hf, he⟩
      unfold Slm.edgeLeft at he ⊢
      rw [hf]
      split
      · rename_i hc
        rw [if_pos hc] at he
        exact he.elim id id
      · rfl
    have hpaid : (c.owedPaid t).slm.edgeFresh = c.slm.edgeFresh ∧ (c.owedPaid t).slm.edge = c.slm.edgeLeft := by
      refine c.owedPaid_reaches (fun d => d.slm.edgeFresh = c.slm.edgeFresh ∧
        (d.slm.edge = c.slm.edge ∨ d.slm.edge = c.slm.edgeLeft))
        (fun d => d.slm.edgeFresh = c.slm.edgeFresh ∧ d.slm.edge = c.slm.edgeLeft) t .snapshot ho
        (fun q _ d _ hd => ?_) (fun d _ hd => ?_) (fun q _ d _ hd => ?_) ⟨rfl, Or.inl rfl⟩
      · obtain ⟨h1, h2⟩ := d.edge_payOwed q
        refine ⟨h1.trans hd.1, ?_⟩
        rcases h2 with h2 | h2 <;> rw [h2]
        · exact hd.2
        · exact Or.inr (hleft d hd)
      · show d.snapshotWritten.slm.edgeFresh = _ ∧ d.snapshotWritten.slm.edge = _
        rw [d.slm_snapshotWritten]
        exact ⟨hd.1, hleft d hd⟩
      · obtain ⟨h1, h2⟩ := d.edge_payOwed q
        refine ⟨h1.trans hd.1, ?_⟩
        rcases h2 with h2 | h2 <;> rw [h2]
        · exact hd.2
        · exact hleft d ⟨hd.1, Or.inr hd.2⟩
    rw [(h.goesOn_of_stays t hs).slmItems.2.1, Chip.paid_eq, Chip.edge_jobEnded, hpaid.2]

/-! ### Written slots (R115) -/

/-- What a slot may lose between its write and the end of the tenure: what it owed. -/
def Slot.Cleared (y y' : Slot) : Prop :=
  ∃ down restore, y' = { y with owesDown := down, owesRestore := restore } ∧ (y.owesDown = false → down = false) ∧
    (y.owesRestore = false → restore = false)

theorem Slot.Cleared.refl (y : Slot) : y.Cleared y := ⟨y.owesDown, y.owesRestore, rfl, id, id⟩

theorem Slot.Cleared.trans {x y z : Slot} (h1 : x.Cleared y) (h2 : y.Cleared z) : x.Cleared z := by
  obtain ⟨a, b, rfl, ha, hb⟩ := h1
  obtain ⟨a', b', rfl, ha', hb'⟩ := h2
  exact ⟨a', b', rfl, fun h => ha' (ha h), fun h => hb' (hb h)⟩

theorem Slm.slots_modifySlot {s : Slm} {i : Nat} {y : Slot} (k : Nat) (f : Slot → Slot) (h : s.slots[i]? = some y) :
    (s.modifySlot k f).slots[i]? = some (if k = i then f y else y) := by
  simp only [Slm.modifySlot, List.getElem?_modify, h]
  split <;> rfl

theorem Chip.slots_slotDown {i : Nat} {y : Slot} (k : Nat) (c : Chip) (h : c.slm.slots[i]? = some y) :
    ∃ y', (c.slotDown k).slm.slots[i]? = some y' ∧ y.Cleared y' ∧ (k = i → y'.owesDown = false) := by
  refine ⟨_, Slm.slots_modifySlot k _ h, ?_, fun hk => ?_⟩
  · split
    · exact ⟨false, y.owesRestore, rfl, fun _ => rfl, id⟩
    · exact .refl y
  · rw [if_pos hk]

/-- In RUNNING the slot's RESTORE is handed with its node and number. -/
theorem Chip.slotRestored_running {i : Nat} {y : Slot} (c : Chip) (hl : c.lcc.lifecycle = .running)
    (h : c.slm.slots[i]? = some y) : c.slotRestored i = { c with
      slm := c.slm.modifySlot i fun x => { x with owesRestore := false }
      swe := c.swe.handRestore y.node.toNat y.number 0 } := by
  unfold Chip.slotRestored Chip.handRestore
  rw [if_pos hl, h]
  exact if_pos (by simp [Chip.takesSweeps, hl])

theorem Chip.slots_slotRestored {i : Nat} {y : Slot} (k : Nat) (c : Chip) (h : c.slm.slots[i]? = some y) :
    ∃ y', (c.slotRestored k).slm.slots[i]? = some y' ∧ y.Cleared y' ∧
      (k = i → c.lcc.lifecycle = .running → y'.owesRestore = false) := by
  by_cases hl : c.lcc.lifecycle = .running
  · cases hk : c.slm.slots[k]? with
    | none =>
      have hkeep : c.slotRestored k = c := by
        unfold Chip.slotRestored
        rw [if_pos hl, hk]
      refine ⟨y, by rw [hkeep]; exact h, .refl y, fun hki => ?_⟩
      rw [hki, h] at hk
      cases hk
    | some z =>
      rw [c.slotRestored_running hl hk]
      refine ⟨_, Slm.slots_modifySlot k _ h, ?_, fun hki _ => ?_⟩
      · split
        · exact ⟨y.owesDown, false, rfl, id, fun _ => rfl⟩
        · exact .refl y
      · rw [if_pos hki]
  · have hkeep : c.slotRestored k = c := if_neg hl
    exact ⟨y, by rw [hkeep]; exact h, .refl y, fun _ hh => absurd hh hl⟩

theorem Chip.slots_handSlot {i : Nat} {y : Slot} (k : Nat) (down restore : Bool) (c : Chip)
    (h : c.slm.slots[i]? = some y) : ∃ y', (c.handSlot k down restore).slm.slots[i]? = some y' ∧ y.Cleared y' ∧
      (k = i → down = true → y'.owesDown = false) ∧
      (k = i → restore = true → c.lcc.lifecycle = .running → y'.owesRestore = false) := by
  have hdown : ∃ y1, (if down then c.slotDown k else c).slm.slots[i]? = some y1 ∧ y.Cleared y1 ∧
      (k = i → down = true → y1.owesDown = false) := by
    cases down with
    | true =>
      obtain ⟨y1, h1, h2, h3⟩ := c.slots_slotDown k h
      exact ⟨y1, h1, h2, fun hk _ => h3 hk⟩
    | false => exact ⟨y, h, .refl y, nofun⟩
  obtain ⟨y1, h1, hc1, hd1⟩ := hdown
  have hlcc : (if down then c.slotDown k else c).lcc = c.lcc := by cases down <;> rfl
  rw [Chip.handSlot_eq]
  generalize (if down then c.slotDown k else c) = c1 at h1 hlcc
  cases restore with
  | false => exact ⟨y1, h1, hc1, hd1, nofun⟩
  | true =>
    obtain ⟨y2, h2, hc2, hr2⟩ := (c1.raise .nodeUp).slots_slotRestored k h1
    refine ⟨y2, h2, hc1.trans hc2, fun hk hd => ?_, fun hk _ hl => hr2 hk (by rw [← hl, ← hlcc]; rfl)⟩
    obtain ⟨a, b, rfl, ha, -⟩ := hc2
    exact ha (hd1 hk hd)

theorem Chip.slots_payOwed {i : Nat} {y : Slot} (o : Owed) (c : Chip) (h : c.slm.slots[i]? = some y) :
    ∃ y', (c.payOwed o).slm.slots[i]? = some y' ∧ y.Cleared y' := by
  cases o with
  | slot k down restore =>
    obtain ⟨y', h1, h2, -⟩ := c.slots_handSlot k down restore h
    exact ⟨y', h1, h2⟩
  | snapshot =>
    show ∃ y', c.snapshotWritten.slm.slots[i]? = some y' ∧ _
    rw [c.slm_snapshotWritten]
    exact ⟨y, h, .refl y⟩
  | _ => rw [Chip.slm_payOwed _ c (by simp [payPieces])]; exact ⟨y, h, .refl y⟩

theorem Chip.slots_paidOff {i : Nat} {y : Slot} (l : List Owed) (c : Chip) (h : c.slm.slots[i]? = some y) :
    ∃ y', (l.foldl Chip.payOwed c).slm.slots[i]? = some y' ∧ y.Cleared y' := by
  refine Chip.paidOff_keeps (fun d => ∃ y', d.slm.slots[i]? = some y' ∧ y.Cleared y') l c (fun o _ d hd => ?_)
    ⟨y, h, .refl y⟩
  obtain ⟨y1, h1, hc1⟩ := hd
  obtain ⟨y2, h2, hc2⟩ := d.slots_payOwed o h1
  exact ⟨y2, h2, hc1.trans hc2⟩

/-! ### The sweep queue while what is owed is paid (R125) -/

/-- One more entry at most. -/
theorem Swe.handRestore_length (s : Swe) (node : Nat) (outage : BitVec 16) (resume : Nat) :
    (s.handRestore node outage resume).queue.length ≤ s.queue.length + 1 := by
  unfold Swe.handRestore Swe.join
  split
  · simp
  · split <;> simp

/-- The RESTORE handed stands in the queue, if there is room for it. -/
theorem Swe.handRestore_mem (s : Swe) (node : Nat) (outage : BitVec 16) (resume : Nat) (h : s.queue.length < 192) :
    ∃ e ∈ (s.handRestore node outage resume).queue, e.kind = .restore node outage := by
  unfold Swe.handRestore
  split
  · rename_i hmerge
    obtain ⟨hz, hany⟩ := hmerge
    obtain ⟨e, he, hk⟩ := List.any_eq_true.1 hany
    refine ⟨_, List.mem_map_of_mem he, ?_⟩
    rw [hz]
    split <;> exact of_decide_eq_true hk
  · refine ⟨⟨.restore node outage, resume, true, false, false⟩, ?_, rfl⟩
    unfold Swe.join
    rw [if_pos (show s.queue.length < Config.sweepQueueLimit from h)]
    simp

/-- A RESTORE handed leaves the others in the queue. -/
theorem Swe.handRestore_keeps (s : Swe) (node : Nat) (outage : BitVec 16) (resume : Nat) (k : SweepKind)
    (h : ∃ e ∈ s.queue, e.kind = k) : ∃ e ∈ (s.handRestore node outage resume).queue, e.kind = k := by
  obtain ⟨e, he, hk⟩ := h
  unfold Swe.handRestore Swe.join
  split
  · refine ⟨_, List.mem_map_of_mem he, ?_⟩
    split <;> exact hk
  · split
    · exact ⟨e, List.mem_append_left _ he, hk⟩
    · exact ⟨e, he, hk⟩

theorem Chip.queue_payOwed_length (o : Owed) (c : Chip) : (c.payOwed o).swe.queue.length ≤ c.swe.queue.length + 1 := by
  rcases c.swe_payOwed o with h | h | ⟨node, outage, h⟩ <;> rw [h]
  · omega
  · simp
  · exact Swe.handRestore_length _ _ _ _

theorem Chip.queue_paidOff_length (l : List Owed) (c : Chip) :
    (l.foldl Chip.payOwed c).swe.queue.length ≤ c.swe.queue.length + l.length := by
  induction l generalizing c with
  | nil => simp
  | cons o l ih =>
    have h1 := ih (c.payOwed o)
    have h2 := c.queue_payOwed_length o
    rw [List.foldl_cons, List.length_cons]
    omega

theorem Chip.queue_payOwed_keeps (o : Owed) (k : SweepKind) (c : Chip) (h : ∃ e ∈ c.swe.queue, e.kind = k) :
    ∃ e ∈ (c.payOwed o).swe.queue, e.kind = k := by
  rcases c.swe_payOwed o with hs | hs | ⟨node, outage, hs⟩ <;> rw [hs]
  · exact h
  · obtain ⟨e, he, hk⟩ := h
    exact ⟨_, List.mem_map_of_mem he, hk⟩
  · exact Swe.handRestore_keeps _ _ _ _ k h

theorem Chip.queue_paidOff_keeps (l : List Owed) (k : SweepKind) (c : Chip) (h : ∃ e ∈ c.swe.queue, e.kind = k) :
    ∃ e ∈ (l.foldl Chip.payOwed c).swe.queue, e.kind = k :=
  Chip.paidOff_keeps (fun d => ∃ e ∈ d.swe.queue, e.kind = k) l c (fun o _ d hd => d.queue_payOwed_keeps o k hd) h

/-- In RUNNING a slot that owes its RESTORE hands it to a queue with room. -/
theorem Chip.queue_handSlot (i : Nat) (down : Bool) (y : Slot) (c : Chip) (hl : c.lcc.lifecycle = .running)
    (h : c.slm.slots[i]? = some y) (hq : c.swe.queue.length < 192) :
    ∃ e ∈ (c.handSlot i down true).swe.queue, e.kind = .restore y.node.toNat y.number := by
  have hdown : (if down then c.slotDown i else c).lcc = c.lcc ∧ (if down then c.slotDown i else c).swe = c.swe ∧
      ∃ y1, (if down then c.slotDown i else c).slm.slots[i]? = some y1 ∧ y.Cleared y1 := by
    cases down with
    | true =>
      obtain ⟨y1, h1, h2, -⟩ := c.slots_slotDown i h
      exact ⟨rfl, rfl, y1, h1, h2⟩
    | false => exact ⟨rfl, rfl, y, h, .refl y⟩
  rw [Chip.handSlot_eq, if_pos rfl]
  generalize (if down then c.slotDown i else c) = c1 at hdown
  obtain ⟨hlcc, hswe, y1, hy1, a, b, rfl, -, -⟩ := hdown
  have hl1 : (c1.raise .nodeUp).lcc.lifecycle = .running := (congrArg Lcc.lifecycle hlcc).trans hl
  have hq1 : (c1.raise .nodeUp).swe.queue.length < 192 := by
    rw [show (c1.raise .nodeUp).swe = c.swe from hswe]
    exact hq
  rw [Chip.slotRestored_running _ hl1 hy1]
  exact Swe.handRestore_mem _ _ _ _ hq1

/-- What a written slot owed is handed when the tenure has ended (R115, R125). -/
theorem Chip.EndsQuiet.slot {c : Chip} (h : c.EndsQuiet) (t : Tenure) (i : Nat) (down restore : Bool) (y : Slot)
    (hj : t.job = .slmWrite) (ho : .slot i down restore ∈ t.owed) (hy : c.slm.slots[i]? = some y)
    (hs : c.lcc.lifecycle ≠ .stopping ∨ c.HoldsStop) :
    ∃ y', (c.afterTenure t).slm.slots[i]? = some y' ∧ (down = true → y'.owesDown = false) ∧
      (restore = true → c.lcc.lifecycle = .running → c.swe.queue.length + t.owed.length ≤ 192 →
        y'.owesRestore = false ∧ ∃ e ∈ (c.afterTenure t).swe.queue, e.kind = .restore y.node.toNat y.number) := by
  have hon := h.goesOn_of_stays t hs
  have hpaid : c.paid t = c.owedPaid t := by rw [Chip.paid_eq, hj]; rfl
  rw [hpaid] at hon
  have hswe : (c.afterTenure t).swe = (c.owedPaid t).swe := hon.same .swe (by decide)
  rw [hon.slmItems.1, hswe]
  obtain ⟨l1, l2, hl⟩ := List.append_of_mem ho
  have hsplit : c.owedPaid t = l2.foldl Chip.payOwed ((l1.foldl Chip.payOwed c.tauFreed).handSlot i down restore) := by
    rw [Chip.owedPaid, hl, List.foldl_append]
    rfl
  have hlen := Chip.queue_paidOff_length l1 c.tauFreed
  obtain ⟨y1, hy1, hc1⟩ := Chip.slots_paidOff l1 c.tauFreed hy
  have hlife := (Chip.same_paidOff_any l1 c.tauFreed).lccItems.1
  rw [hsplit]
  generalize l1.foldl Chip.payOwed c.tauFreed = d at hlen hy1 hlife
  obtain ⟨y2, hy2, hc2, hd2, hr2⟩ := d.slots_handSlot i down restore hy1
  obtain ⟨y3, hy3, a, b, rfl, ha, hb⟩ := Chip.slots_paidOff l2 _ hy2
  refine ⟨_, hy3, fun hd => ha (hd2 rfl hd), fun hr hrun hroom => ⟨hb (hr2 rfl hr (hlife.trans hrun)), ?_⟩⟩
  subst hr
  refine Chip.queue_paidOff_keeps l2 _ _ ?_
  obtain ⟨a1, b1, rfl, -, -⟩ := hc1
  have hq : c.tauFreed.swe.queue.length = c.swe.queue.length := rfl
  rw [hl, List.length_append, List.length_cons] at hroom
  have hmem := d.queue_handSlot i down _ (hlife.trans hrun) hy1 (by omega)
  exact hmem

end Sys2Proof.Machine
end

section
/-! What the end of a sweep's tenure leaves (R127, R131, R133, R134). -/

namespace Sys2Proof.Machine

/-! ### The status word shows whether a sweep is active (R168) -/

theorem Chip.statusWord_sweep (c : Chip) : bit c.statusWord 15 = c.swe.work.isSome := by
  simp only [Chip.statusWord, bit_or]
  rw [bit_place_off _ 0 15 (by decide) (by decide), bit_place_off _ 4 15 (by decide) (by decide),
    bit_place_off _ 8 15 (by decide) (by decide), bit_flagAt_off _ 10 15 (by decide) (by decide),
    bit_flagAt_off _ 11 15 (by decide) (by decide), bit_place_off _ 12 15 (by decide) (by decide),
    bit_flagAt_off _ 13 15 (by decide) (by decide), bit_flagAt_off _ 14 15 (by decide) (by decide),
    bit_flagAt _ 15 (by decide)]
  simp

/-- When the active sweep goes, the status word is marked. -/
theorem Chip.marked_sweepOff (l : List SweepEntry) (c : Chip) (h : c.swe.work.isSome = true) :
    (c.sweepOff l).rpu.statusDirty = true := by
  have hne : ({ c with swe := ⟨l, none⟩ } : Chip).statusWord ≠ c.statusWord := by
    intro he
    have hbit := congrArg (fun v => bit v 15) he
    simp only [Chip.statusWord_sweep, h] at hbit
    cases hbit
  unfold Chip.sweepOff Chip.marking
  rw [if_neg hne]
  rfl

/-! ### The end of a sweep's tenure out of RUNNING (R134) -/

/-- The tenure of the active sweep that ends it with SWEEP_DONE: an end tenure, or the last step of an EVENT_CLOSE. -/
def Chip.LastTenure (c : Chip) (j : Job) (e : SweepEntry) : Prop :=
  (j = .sweepEnd ∧ ∃ node outage, e.kind = .restore node outage) ∨
    (j = .sweepStep ∧ c.subscriberCount ≤ e.resume ∧ ∃ number, e.kind = .eventClose number)

/-- What every end of a sweep leaves: the entry is gone, the status word is marked and SWEEP_DONE is pending. -/
structure Chip.SweepDone (c d : Chip) : Prop where
  swe : d.swe = ⟨c.swe.others, none⟩
  marked : d.rpu.statusDirty = true
  done : d.rpu.isPending .sweepDone = true

theorem Chip.sweepDone_endClose (n : BitVec 8) (c : Chip) (h : c.swe.work.isSome = true) : c.SweepDone (c.endClose n) := by
  refine ⟨c.swe_endClose n, ?_, Chip.pending_raise_self _ _⟩
  have hmark := c.marked_sweepOff c.swe.others h
  exact (((Chip.Flagged.refl c.sweepLeaves).closeEnded n).raise .sweepDone).marked hmark

theorem Chip.sweepDone_endRecorded (n : BitVec 16) (c : Chip) (h : c.swe.work.isSome = true) :
    c.SweepDone (c.endRecorded n) := by
  refine ⟨c.swe_endRecorded n, ?_, Chip.pending_raise_self _ _⟩
  have hmark := Chip.marked_sweepOff (c.markSwept n).swe.others (c.markSwept n) (by rw [Chip.swe_markSwept]; exact h)
  exact ((Chip.Flagged.refl (c.markSwept n).sweepLeaves).raise .sweepDone).marked hmark

/-- Out of RUNNING the last tenure ends the sweep. -/
theorem Chip.sweepTenureEnded_last (j : Job) (e : SweepEntry) (c : Chip) (ha : c.swe.active = some e)
    (hw : c.swe.work.isSome = true) (hl : c.lcc.lifecycle ≠ .running) (h : c.LastTenure j e) :
    c.SweepDone (c.sweepTenureEnded j) := by
  unfold Chip.sweepTenureEnded
  rw [ha]
  dsimp only
  rcases h with ⟨rfl, node, outage, hk⟩ | ⟨rfl, hcount, number, hk⟩
  · rw [hk]
    exact c.sweepDone_endRecorded outage hw
  · rw [hk]
    dsimp only
    rw [if_neg hl, if_pos hcount]
    exact c.sweepDone_endClose number hw

/-- Out of RUNNING any other tenure makes the sweep leave the queue without more. -/
theorem Chip.sweepTenureEnded_leaves (j : Job) (e : SweepEntry) (c : Chip) (ha : c.swe.active = some e)
    (hl : c.lcc.lifecycle ≠ .running) (h : ¬c.LastTenure j e) : c.sweepTenureEnded j = c.sweepLeaves := by
  unfold Chip.sweepTenureEnded
  rw [ha]
  dsimp only
  split
  · rename_i node outage hk
    exact absurd (Or.inl ⟨rfl, node, outage, hk⟩) h
  · rename_i number hk
    rw [if_neg hl, if_neg fun hcount => h (Or.inr ⟨rfl, hcount, number, hk⟩)]
  · rw [if_neg hl]

/-! ### The same in RUNNING (R127, R131, R133) -/

/-- In RUNNING a start tenure or a step is followed by what is next of the sweep. -/
theorem Chip.sweepTenureEnded_advances (j : Job) (e : SweepEntry) (c : Chip) (ha : c.swe.active = some e)
    (hl : c.lcc.lifecycle = .running) (hj : j = .sweepStart ∨ j = .sweepStep) : c.sweepTenureEnded j = c.sweepAdvance := by
  unfold Chip.sweepTenureEnded
  rw [ha]
  dsimp only
  split
  · rcases hj with hj | hj <;> cases hj
  · rw [if_pos hl]
  · rw [if_pos hl]

/-- A started sweep has steps left, or its end tenure, or ends. -/
theorem Chip.sweepAdvance_eq (e : SweepEntry) (w : SweepWork) (c : Chip) (ha : c.swe.active = some e)
    (hw : c.swe.work = some w) (hs : w.started = true) : c.sweepAdvance =
      if c.subscriberCount ≤ e.resume then
        match e.kind with
        | .eventClose number => c.endClose number
        | .restore _ _ => if w.slot.isSome then c else c.endUnrecorded e
      else c := by
  unfold Chip.sweepAdvance
  rw [ha, hw]
  simp only [hs, Bool.true_and, decide_eq_true_eq] <;> rfl

/-- The slot of a swept outage (R116). -/
theorem Chip.slots_markSwept (n : BitVec 16) (i : Nat) (c : Chip)
    (h : (c.slm.slots.findIdx? fun y => y.status = .closed && y.number = n) = some i) :
    ∃ y, (c.markSwept n).slm.slots[i]? = some y ∧ y.status = .swept ∧ y.number = n := by
  obtain ⟨hi, hp, -⟩ := List.findIdx?_eq_some_iff_getElem.1 h
  have hnum : c.slm.slots[i].number = n := by
    simp only [Bool.and_eq_true, decide_eq_true_eq] at hp
    exact hp.2
  have hswept : c.markSwept n = { c with slm := c.slm.modifySlot i fun x => { x with status := .swept } } := by
    unfold Chip.markSwept
    rw [h]
  rw [hswept]
  exact ⟨_, Slm.slots_modifySlot i _ (List.getElem?_eq_getElem hi), by rw [if_pos rfl], by rw [if_pos rfl]; exact hnum⟩

/-- The closing entry takes the phase found at the end of its sweep (R59). -/
theorem Chip.phase_closeEnded (n : BitVec 8) (i : Nat) (e : Entry) (c : Chip) (hb : c.lue.bound n = some i)
    (he : c.lue.entries[i]? = some e) (hp : e.phase = some .closing) :
    ∃ e', (c.closeEnded n).lue.entries[i]? = some e' ∧ e'.phase = some (e.phaseFound c.tbu.wall) := by
  have hset : ∀ p, (c.setPhase i p).lue.entries[i]? = some { e with phase := some p, dirty := true } := by
    intro p
    rw [c.entries_setPhase, List.getElem?_modify, he]
    simp [Entry.touch]
  rw [← Entry.phaseAt_eq_phaseFound]
  unfold Chip.closeEnded
  rw [hb]
  dsimp only
  rw [he]
  dsimp only
  rw [if_pos hp]
  generalize e.phaseAt c.tbu.wall = p at hset ⊢
  split
  · have hreq : ((c.setPhase i p).routeRequest .event i).lue.entries[i]? =
        some (Entry.asked { e with phase := some p, dirty := true } .event) := by
      rw [Chip.entries_routeRequest, List.getElem?_modify, hset p]
      simp
    obtain ⟨e', he', r, k, m, b, rfl, -⟩ := (Chip.linkServed_serveRoutes _).entry i _ hreq
    have hphase := congrArg Entry.phase (Entry.asked_eq { e with phase := some p, dirty := true } .event).1
    exact ⟨_, he', hphase⟩
  · exact ⟨_, hset p, rfl⟩

/-! ### What the payment of causes and requests leaves -/

/-- What the statement lets a sweep's tenure owe: causes and requests. -/
def Owed.ofSweep (o : Owed) : Prop := (∃ k, o = .cause k) ∨ ∃ r, o = .request r

theorem Chip.same_owedPaid_sweep (t : Tenure) (c : Chip) (h : ∀ o ∈ t.owed, o.ofSweep) :
    Chip.Same [.tenure, .arbiter, .rpu, .toe] c (c.owedPaid t) := by
  refine (c.same_tauFreed.mono (by decide)).then (Chip.same_paidOff t.owed _ _ fun o ho => ?_)
  rcases h o ho with ⟨k, rfl⟩ | ⟨r, rfl⟩ <;> simp [payPieces]

/-- Only what is owed raises SWEEP_DONE there. -/
theorem Chip.sweepDone_owedPaid (t : Tenure) (c : Chip) (h : ∀ o ∈ t.owed, o.ofSweep) (hn : .cause .sweepDone ∉ t.owed) :
    (c.owedPaid t).rpu.isPending .sweepDone = c.rpu.isPending .sweepDone := by
  refine c.owedPaid_invariant (fun d => d.rpu.isPending .sweepDone = c.rpu.isPending .sweepDone) t
    (fun o ho d _ hd => ?_) rfl
  rcases h o ho with ⟨k, rfl⟩ | ⟨r, rfl⟩
  · have hk : Cause.sweepDone ≠ k := fun hk => hn (hk ▸ ho)
    show (d.raise k).rpu.isPending .sweepDone = _
    rw [Chip.rpu_raise, Rpu.isPending_raise, hd]
    simp [hk]
  · rw [show (d.payOwed (.request r)).rpu = d.rpu from (d.same_request r).rpu]
    exact hd

/-! ### The tenure of the active sweep at its end -/

/-- A sweep that is active, at the end of a tenure that owes causes and requests. -/
structure Chip.SweepEnds (c : Chip) (t : Tenure) (e : SweepEntry) (w : SweepWork) : Prop where
  quiet : c.EndsQuiet
  owed : ∀ o ∈ t.owed, o.ofSweep
  active : c.swe.active = some e
  work : c.swe.work = some w

/-- The part as what is owed has left it, as far as the sweep goes. -/
structure Chip.SweepPaid (c d : Chip) : Prop where
  swe : d.swe = c.swe
  slm : d.slm = c.slm
  lue : d.lue = c.lue
  lcc : d.lcc = c.lcc
  tbu : d.tbu = c.tbu
  count : d.subscriberCount = c.subscriberCount

theorem Chip.SweepEnds.paid {c : Chip} {t : Tenure} {e : SweepEntry} {w : SweepWork} (h : c.SweepEnds t e w) :
    c.SweepPaid (c.owedPaid t) := by
  have hsame := c.same_owedPaid_sweep t h.owed
  exact ⟨hsame .swe (by decide), hsame.slm, hsame .lue (by decide), hsame.lcc, hsame .tbu (by decide),
    Chip.subscriberCount_congr (hsame .map (by decide))⟩

theorem Job.of_swe (j : Job) (h : j.block = .swe) : ∀ c : Chip, c.jobEnded j = c.sweepTenureEnded j := by
  cases j <;> first | exact fun _ => rfl | cases h

/-- In STOPPING the sweep ends with its tenure (R134). -/
theorem Chip.SweepEnds.stopping {c : Chip} {t : Tenure} {e : SweepEntry} {w : SweepWork} (h : c.SweepEnds t e w)
    (hl : c.lcc.lifecycle = .stopping) (hj : t.job.block = .swe) :
    (c.afterTenure t).swe.work = none ∧ (c.afterTenure t).rpu.statusDirty = true ∧
      (c.LastTenure t.job e → (c.afterTenure t).rpu.isPending .sweepDone = true) ∧
      (¬c.LastTenure t.job e → .cause .sweepDone ∉ t.owed →
        (c.afterTenure t).rpu.isPending .sweepDone = c.rpu.isPending .sweepDone) := by
  have hp := h.paid
  have hpaid : c.paid t = (c.owedPaid t).sweepTenureEnded t.job := Job.of_swe t.job hj _
  have hdone := c.sweepDone_owedPaid t h.owed
  generalize c.owedPaid t = d at hp hpaid hdone
  have ha : d.swe.active = some e := by rw [hp.swe]; exact h.active
  have hw : d.swe.work.isSome = true := by rw [hp.swe, h.work]; rfl
  have hld : d.lcc.lifecycle ≠ .running := by rw [hp.lcc, hl]; decide
  have hlast : d.LastTenure t.job e ↔ c.LastTenure t.job e := by rw [Chip.LastTenure, Chip.LastTenure, hp.count]
  have hflag := h.quiet.flagged t
  have hitems := (h.quiet.same t).rpuItems.2
  have hoff : (c.paid t).swe.work = none ∧ (c.paid t).rpu.statusDirty = true := by
    rw [hpaid]
    by_cases hlt : d.LastTenure t.job e
    · have hend := d.sweepTenureEnded_last t.job e ha hw hld hlt
      exact ⟨by rw [hend.swe], hend.marked⟩
    · rw [d.sweepTenureEnded_leaves t.job e ha hld hlt]
      exact ⟨congrArg Swe.work (d.swe_sweepOff _), d.marked_sweepOff _ hw⟩
  refine ⟨?_, hflag.marked hoff.2, fun hlt => ?_, fun hlt hn => ?_⟩
  · rcases h.quiet.goesOn_or_stops t with hon | hset
    · have hswe : (c.afterTenure t).swe = (c.paid t).swe := hon.same .swe (by decide)
      rw [hswe, hoff.1]
    · have hswe : (c.afterTenure t).swe = (c.paid t).enterStopped.swe := hset .swe (by decide)
      obtain ⟨-, -, -, -, -, -, -, -, -, hreset, -⟩ := (c.paid t).enterStopped_values
      rw [hswe, hreset]
  · refine hflag.pending _ ?_
    rw [hpaid]
    exact (d.sweepTenureEnded_last t.job e ha hw hld (hlast.2 hlt)).done
  · have hleaves : d.sweepLeaves.rpu.isPending .sweepDone = d.rpu.isPending .sweepDone :=
      (d.same_sweepOff d.swe.others).rpuItems.2 .sweepDone
    rw [hitems, hpaid, d.sweepTenureEnded_leaves t.job e ha hld fun hh => hlt (hlast.1 hh), hleaves, hdone hn]

/-- In RUNNING the part goes on with the sweep as its tenure's end leaves it. -/
theorem Chip.SweepEnds.goesOn {c : Chip} {t : Tenure} {e : SweepEntry} {w : SweepWork} (h : c.SweepEnds t e w)
    (hl : c.lcc.lifecycle = .running) : Chip.GoesOn (c.paid t) (c.afterTenure t) :=
  h.quiet.goesOn_of_stays t (Or.inl (by rw [hl]; decide))

/-- In RUNNING the end tenure of a recorded outage ends its sweep, and the slot is SWEPT (R116, R131). -/
theorem Chip.SweepEnds.endTenure {c : Chip} {t : Tenure} {e : SweepEntry} {w : SweepWork} (h : c.SweepEnds t e w)
    (hl : c.lcc.lifecycle = .running) (node : Nat) (outage : BitVec 16) (hj : t.job = .sweepEnd)
    (hk : e.kind = .restore node outage) :
    (c.afterTenure t).rpu.isPending .sweepDone = true ∧ (c.afterTenure t).swe = ⟨c.swe.others, none⟩ ∧
      ∀ i, (c.slm.slots.findIdx? fun y => y.status = .closed && y.number = outage) = some i →
        ∃ y, (c.afterTenure t).slm.slots[i]? = some y ∧ y.status = .swept ∧ y.number = outage := by
  have hp := h.paid
  have hon := h.goesOn hl
  have hflag := h.quiet.flagged t
  have hpaid : c.paid t = (c.owedPaid t).sweepTenureEnded .sweepEnd := by rw [Chip.paid_eq, hj]; rfl
  generalize c.owedPaid t = d at hp hpaid
  have ha : d.swe.active = some e := by rw [hp.swe]; exact h.active
  have hw : d.swe.work.isSome = true := by rw [hp.swe, h.work]; rfl
  have hend : d.sweepTenureEnded .sweepEnd = d.endRecorded outage := by
    unfold Chip.sweepTenureEnded
    rw [ha]
    dsimp only
    rw [hk]
  have hdone := d.sweepDone_endRecorded outage hw
  have hswe : (c.afterTenure t).swe = (c.paid t).swe := hon.same .swe (by decide)
  rw [hpaid, hend] at hon hflag hswe
  refine ⟨hflag.pending _ hdone.done, by rw [hswe, hdone.swe, hp.swe], fun i hi => ?_⟩
  rw [hon.slmItems.1, Chip.slm_endRecorded]
  exact d.slots_markSwept outage i (by rw [hp.slm]; exact hi)

/-- In RUNNING what follows a start tenure or a step is the advance of the sweep. -/
theorem Chip.SweepEnds.advanced {c : Chip} {t : Tenure} {e : SweepEntry} {w : SweepWork} (h : c.SweepEnds t e w)
    (hl : c.lcc.lifecycle = .running) (hs : w.started = true) (hj : t.job = .sweepStart ∨ t.job = .sweepStep) :
    ∃ d, c.SweepPaid d ∧ c.paid t = if c.subscriberCount ≤ e.resume then
        match e.kind with
        | .eventClose number => d.endClose number
        | .restore _ _ => if w.slot.isSome then d else d.endUnrecorded e
      else d := by
  have hp := h.paid
  have hblock : t.job.block = .swe := by rcases hj with hj | hj <;> rw [hj] <;> rfl
  have hpaid : c.paid t = (c.owedPaid t).sweepTenureEnded t.job := Job.of_swe t.job hblock _
  refine ⟨c.owedPaid t, hp, ?_⟩
  generalize c.owedPaid t = d at hp hpaid
  have ha : d.swe.active = some e := by rw [hp.swe]; exact h.active
  rw [hpaid, d.sweepTenureEnded_advances t.job e ha (by rw [hp.lcc]; exact hl) hj,
    d.sweepAdvance_eq e w ha (by rw [hp.swe]; exact h.work) hs, hp.count]

/-- A RESTORE without a record ends with its last step, and its repeat mark sends it to the tail (R131). -/
theorem Chip.SweepEnds.unrecorded {c : Chip} {t : Tenure} {e : SweepEntry} {w : SweepWork} (h : c.SweepEnds t e w)
    (hl : c.lcc.lifecycle = .running) (hs : w.started = true) (hj : t.job = .sweepStart ∨ t.job = .sweepStep) (node : Nat)
    (outage : BitVec 16) (hk : e.kind = .restore node outage) (hc : c.subscriberCount ≤ e.resume) (hn : w.slot = none) :
    (c.afterTenure t).rpu.isPending .sweepDone = true ∧ (c.afterTenure t).swe =
      ⟨if e.repeatMark then c.swe.others ++ [⟨e.kind, 0, true, false, false⟩] else c.swe.others, none⟩ := by
  obtain ⟨d, hp, hpaid⟩ := h.advanced hl hs hj
  have hflag := h.quiet.flagged t
  have hswe : (c.afterTenure t).swe = (c.paid t).swe := (h.goesOn hl).same .swe (by decide)
  have hend : c.paid t = d.endUnrecorded e := by
    rw [hpaid, if_pos hc, hk, hn]
    rfl
  rw [hend] at hflag hswe
  exact ⟨hflag.pending _ (Chip.pending_raise_self _ _), by rw [hswe, d.swe_endUnrecorded, hp.swe]⟩

/-- An EVENT_CLOSE ends with its last step, and the closing entry takes the phase found (R59, R133). -/
theorem Chip.SweepEnds.closed {c : Chip} {t : Tenure} {e : SweepEntry} {w : SweepWork} (h : c.SweepEnds t e w)
    (hl : c.lcc.lifecycle = .running) (hs : w.started = true) (number : BitVec 8) (hj : t.job = .sweepStep)
    (hk : e.kind = .eventClose number) (hc : c.subscriberCount ≤ e.resume) :
    (c.afterTenure t).rpu.isPending .sweepDone = true ∧ (c.afterTenure t).swe = ⟨c.swe.others, none⟩ ∧
      ∀ i x, c.lue.bound number = some i → c.lue.entries[i]? = some x → x.phase = some .closing →
        ∃ x', (c.afterTenure t).lue.entries[i]? = some x' ∧ x'.phase = some (x.phaseFound c.tbu.wall) := by
  obtain ⟨d, hp, hpaid⟩ := h.advanced hl hs (Or.inr hj)
  have hflag := h.quiet.flagged t
  have hon := h.goesOn hl
  have hswe : (c.afterTenure t).swe = (c.paid t).swe := hon.same .swe (by decide)
  have hend : c.paid t = d.endClose number := by rw [hpaid, if_pos hc, hk]
  rw [hend] at hflag hswe hon
  refine ⟨hflag.pending _ (Chip.pending_raise_self _ _), by rw [hswe, d.swe_endClose, hp.swe], fun i x hb hx hph => ?_⟩
  have hlue : d.sweepLeaves.lue = c.lue := (d.same_sweepOff d.swe.others .lue (by decide)).trans hp.lue
  have htbu : d.sweepLeaves.tbu = c.tbu := (d.same_sweepOff d.swe.others .tbu (by decide)).trans hp.tbu
  rw [hon.lueItems.1, ← htbu]
  exact d.sweepLeaves.phase_closeEnded number i x (by rw [hlue]; exact hb) (by rw [hlue]; exact hx) hph

/-- With an end tenure or steps to come the sweep stays. -/
theorem Chip.SweepEnds.stays {c : Chip} {t : Tenure} {e : SweepEntry} {w : SweepWork} (h : c.SweepEnds t e w)
    (hl : c.lcc.lifecycle = .running) (hs : w.started = true) (hj : t.job = .sweepStart ∨ t.job = .sweepStep)
    (hc : e.resume < c.subscriberCount ∨ (w.slot ≠ none ∧ ∃ node outage, e.kind = .restore node outage)) :
    ∃ d, c.SweepPaid d ∧ c.paid t = d ∧ (c.afterTenure t).swe = c.swe := by
  obtain ⟨d, hp, hpaid⟩ := h.advanced hl hs hj
  have hswe : (c.afterTenure t).swe = (c.paid t).swe := (h.goesOn hl).same .swe (by decide)
  have hend : c.paid t = d := by
    rw [hpaid]
    rcases hc with hc | ⟨hn, node, outage, hk⟩
    · rw [if_neg (by omega)]
    · rw [hk]
      split
      · exact if_pos (Option.isSome_iff_ne_none.2 hn)
      · rfl
  exact ⟨d, hp, hend, by rw [hswe, hend, hp.swe]⟩

/-- A recorded outage's sweep with no step left asks for its end tenure (R131). -/
theorem Chip.SweepEnds.asksEnd {c : Chip} {t : Tenure} {e : SweepEntry} {w : SweepWork} (h : c.SweepEnds t e w)
    (hl : c.lcc.lifecycle = .running) (hs : w.started = true) (hj : t.job = .sweepStart ∨ t.job = .sweepStep)
    (hc : c.subscriberCount ≤ e.resume) (hn : w.slot ≠ none) (node : Nat) (outage : BitVec 16)
    (hk : e.kind = .restore node outage) (ho : ∀ batch ∈ c.tau.orders, ∀ j ∈ batch, j.block ≠ .swe) :
    (c.afterTenure t).requested .sweepEnd := by
  obtain ⟨d, hp, hpaid, -⟩ := h.stays hl hs hj (Or.inr ⟨hn, node, outage, hk⟩)
  have hend : c.tenureEnded t = d := by
    have hld : d.lcc.lifecycle = .running := by rw [hp.lcc]; exact hl
    rw [Chip.tenureEnded, hpaid, d.endPhases_of_not_loading (by rw [hld]; decide),
      d.endStopping_of_doesNotStop (Or.inl (d.canStop_of_ne (by rw [hld]; decide)))]
  obtain ⟨hto, htr⟩ := c.tau_tenureEnded t
  have hquiet := c.ports_quiet_tenureEnded t h.quiet.portA h.quiet.portB
  have hreset : (c.tenureEnded t).resetLow = c.resetLow := c.same_tenureEnded t .resetLine (by decide)
  unfold Chip.afterTenure
  rw [hend] at hto htr hquiet hreset ⊢
  refine d.requested_settle .sweepEnd (by rw [hreset]; exact h.quiet.resetHigh) hquiet ?_
  have hout : d.outstanding .swe = false :=
    Chip.not_outstanding_of_orders hto htr fun ⟨batch, hb, j, hj, hblock⟩ => ho batch hb j hj hblock
  have hslot : w.slot.isSome = true := Option.isSome_iff_ne_none.2 hn
  show d.asks .swe = _
  simp only [Chip.asks, hout, Chip.wants, Chip.isRunning, hp.lcc, hl, Chip.sweepJob, hp.swe, h.active, h.work, hs, hslot,
    hp.count]
  simp [hc]

end Sys2Proof.Machine
end

section
/-! Settles O31: the stop at a tenure's end (R33), the held PURCHASE writes (R8, R145), and the statement. -/

namespace Sys2Proof.Machine

/-! ### The stop (R33) -/

/-- Out of RUNNING taking held writes begins no evaluation. -/
theorem Chip.inFlight_takeHeld (l : List Port) (c : Chip) (hl : c.lcc.lifecycle ≠ .running) (hi : c.pcu.inFlight = none) :
    (Chip.takeHeld l c).pcu.inFlight = none := by
  induction l generalizing c with
  | nil => exact hi
  | cons p l ih =>
    rw [Chip.takeHeld_cons p l c hi]
    refine ih _ ?_ ?_
    · split
      · exact hl
      · rw [c.purchaseRefusal_of_fails _ (Or.inl hl)]
        rw [((c.same_heldRefused _ p _ l).lccItems (by cases p <;> decide)).1]
        exact hl
    · split
      · exact hi
      · rw [c.purchaseRefusal_of_fails _ (Or.inl hl)]
        exact (congrArg Pcu.inFlight (c.heldRefused_items _ p _ l).2.2).trans hi

/-- A part that differs in the ports, the memory port, the TAU, the Purchase Unit and the flags alone. -/
theorem Chip.Same.eq_with {c d : Chip} (h : Chip.Same [.tenure, .arbiter, .rpu, .pcu, .portA, .portB] c d) :
    d = { c with portA := d.portA, portB := d.portB, par := d.par, tau := d.tau, pcu := d.pcu, rpu := d.rpu } := by
  have hreset : d.resetLow = c.resetLow := h .resetLine (by decide)
  have hlines : d.lines = c.lines := h .lines (by decide)
  have hmap : d.map = c.map := h .map (by decide)
  have hset : d.settings = c.settings := h .settings (by decide)
  have htbu : d.tbu = c.tbu := h .tbu (by decide)
  have hlue : d.lue = c.lue := h .lue (by decide)
  have htoe : d.toe = c.toe := h .toe (by decide)
  have hswe : d.swe = c.swe := h .swe (by decide)
  have hroute : d.routeLink = c.routeLink := h .routeLink (by decide)
  have htap : d.tapLink = c.tapLink := h .tapLink (by decide)
  rw [← hreset, ← hlines, ← hmap, ← hset, ← htbu, ← hlue, ← htoe, ← hswe, ← hroute, ← htap, ← h.lcc, ← h.slm, ← h.clu]

/-- What a block asks for but the RPU does not turn on the ports, the memory port, the running tenure or the flags. -/
theorem Chip.wants_congr {c d : Chip} (b : Block) (hb : b ≠ .rpu)
    (h : Chip.Same [.tenure, .arbiter, .rpu, .pcu, .portA, .portB] c d) (hi : d.pcu.inFlight = c.pcu.inFlight) :
    d.wants b = c.wants b := by
  cases b with
  | rpu => exact absurd rfl hb
  | pcu => simp only [Chip.wants, hi]
  | _ => rw [h.eq_with]; rfl

/-- In STOPPING, with no evaluation in flight, no end of a job but a sweep's reaches what blocks ask for. -/
theorem Chip.jobEnded_stopping (j : Job) (c : Chip) (hl : c.lcc.lifecycle = .stopping) (hj : j.block ≠ .swe)
    (hi : c.pcu.inFlight = none) :
    Chip.Same [.tenure, .arbiter, .rpu, .pcu, .portA, .portB] c (c.jobEnded j) ∧ (c.jobEnded j).pcu.inFlight = none := by
  have hload : ∀ n, c.loadingPhase n = false := fun n => by simp [Chip.loadingPhase, hl]
  have houtage : c.outageTenureEnded = c := if_neg (by simp [hload])
  have hbegin : c.beginPhase4 = c := if_neg (by simp [hload])
  have hkeep : ∀ d, d = c → Chip.Same [.tenure, .arbiter, .rpu, .pcu, .portA, .portB] c d ∧ d.pcu.inFlight = none := by
    rintro d rfl
    exact ⟨.refl _ d, hi⟩
  cases j with
  | sweepStart => exact absurd rfl hj
  | sweepStep => exact absurd rfl hj
  | sweepEnd => exact absurd rfl hj
  | purchase =>
    exact ⟨(c.same_takeHeld c.pcu.held).mono (by decide),
      Chip.inFlight_takeHeld c.pcu.held c (by rw [hl]; decide) hi⟩
  | logLoad => exact hkeep _ hbegin
  | outageRead _ => exact hkeep _ houtage
  | nextRead => exact hkeep _ houtage
  | repair _ => exact hkeep _ houtage
  | _ => exact hkeep _ rfl

/-- With nothing that keeps it, a tenure that owes causes alone is the last one in STOPPING (R33, log 46). -/
theorem Chip.paid_stops (t : Tenure) (c : Chip) (hl : c.lcc.lifecycle = .stopping) (hn : ¬c.HoldsStop)
    (ho : ∀ o ∈ t.owed, ∃ k, o = .cause k) (hj : t.job.block ≠ .swe) (hw : ∀ b, b ≠ .rpu → c.wants b = none) :
    Chip.Same [.tenure, .arbiter, .rpu, .pcu, .portA, .portB] c (c.paid t) ∧ (c.paid t).canStop = true ∧
      (c.paid t).workWanted = false := by
  have howed : Chip.Same [.tenure, .arbiter, .rpu] c (c.owedPaid t) :=
    (c.same_tauFreed.mono (by decide)).then (Chip.same_paidOff t.owed _ _ fun o hmem => by
      obtain ⟨k, rfl⟩ := ho o hmem
      simp [payPieces])
  have hi : c.pcu.inFlight = none := by simpa [Chip.wants] using hw .pcu (by decide)
  have hpcu : (c.owedPaid t).pcu = c.pcu := howed .pcu (by decide)
  obtain ⟨hjob, hi2⟩ := Chip.jobEnded_stopping t.job (c.owedPaid t) (howed.lccItems.1.trans hl) hj (by rw [hpcu]; exact hi)
  have hsame : Chip.Same [.tenure, .arbiter, .rpu, .pcu, .portA, .portB] c (c.paid t) :=
    (howed.mono (by decide)).then hjob
  have htoe : (c.paid t).toe = c.toe := hsame .toe (by decide)
  have hlue : (c.paid t).lue = c.lue := hsame .lue (by decide)
  obtain ⟨hto, htr⟩ := c.tau_paid t
  refine ⟨hsame, ?_, ?_⟩
  · rw [Chip.canStop_iff, htoe, hlue, c.lifecycle_paid t]
    refine ⟨hl, ?_, ?_, ?_⟩
    · by_contra hf
      exact hn (Or.inl hf)
    · cases hord : c.lue.order with
      | none => rfl
      | some o => exact absurd (Or.inr (Or.inl (by rw [hord]; rfl))) hn
    · rw [← Bool.not_eq_true, Chip.workOutstanding_iff]
      rintro ⟨b, hb, hout⟩
      obtain ⟨batch, hbatch, j, hmem, rfl⟩ := ((c.paid t).outstanding_iff b htr).1 hout
      exact hn (Or.inr (Or.inr ⟨batch, hto ▸ hbatch, j, hmem, hb⟩))
  · rw [← Bool.not_eq_true]
    intro hwant
    obtain ⟨b, hb, hsome⟩ := List.any_eq_true.1 hwant
    have hne : b ≠ .rpu := by
      rintro rfl
      simp at hb
    rw [Chip.wants_congr b hne hsame (hi2.trans hi.symm), hw b hne] at hsome
    cases hsome

theorem Chip.EndsQuiet.stops {c : Chip} (h : c.EndsQuiet) (t : Tenure) (hl : c.lcc.lifecycle = .stopping)
    (hn : ¬c.HoldsStop) (ho : ∀ o ∈ t.owed, ∃ k, o = .cause k) (hj : t.job.block ≠ .swe)
    (hw : ∀ b, b ≠ .rpu → c.wants b = none) :
    (c.afterTenure t).lcc.lifecycle = .stopped ∧ (c.afterTenure t).toe.queue = [] ∧ (c.afterTenure t).toe.held = [] ∧
      (c.afterTenure t).toe.deferred = [] ∧ (c.afterTenure t).toe.evals = [] ∧ (c.afterTenure t).toe.blocked = false ∧
      (c.afterTenure t).toe.tag = c.toe.tag ∧ (c.afterTenure t).lue.entries = [] ∧ (c.afterTenure t).lue.eventMap = [] ∧
      (c.afterTenure t).swe = ⟨[], none⟩ ∧ (c.afterTenure t).clu.reserved = 0 ∧
      (c.afterTenure t).clu.copy = c.clu.copy := by
  obtain ⟨hsame, hs, hwork⟩ := c.paid_stops t hl hn ho hj hw
  have hset := c.after_stopped t h.portA h.portB hs hwork
  have htoe : (c.afterTenure t).toe = (c.paid t).enterStopped.toe := hset .toe (by decide)
  have hlue : (c.afterTenure t).lue = (c.paid t).enterStopped.lue := hset .lue (by decide)
  have hswe : (c.afterTenure t).swe = (c.paid t).enterStopped.swe := hset .swe (by decide)
  have hclu : (c.afterTenure t).clu = (c.paid t).enterStopped.clu := hset.clu
  have htoe0 : (c.paid t).toe = c.toe := hsame .toe (by decide)
  have hclu0 : (c.paid t).clu = c.clu := hsame.clu
  have hvalues := (c.paid t).enterStopped_values
  rw [htoe0, hclu0] at hvalues
  obtain ⟨v1, v⟩ := hvalues
  rw [htoe, hlue, hswe, hclu]
  exact ⟨hset.lccItems.1.trans v1, v⟩

/-! ### The held PURCHASE writes (R8, R145) -/

/-- The part as what is owed has left it, as far as held writes go. -/
structure Chip.PurchasePaid (c : Chip) (r : PurchaseResult) (d : Chip) : Prop where
  pcu : d.pcu = c.pcu.ended r
  port : ∀ q, d.port q = c.port q
  lifecycle : d.lcc.lifecycle = c.lcc.lifecycle

theorem Chip.purchasePaid_owedPaid (t : Tenure) (r : PurchaseResult) (c : Chip) (hr : .purchaseEnd r ∈ t.owed)
    (hu : ∀ r', .purchaseEnd r' ∈ t.owed → r' = r) : c.PurchasePaid r (c.owedPaid t) :=
  ⟨c.pcu_owedPaid t r hr hu, fun q => (c.same_owedPaid t).port q (by cases q <;> decide), ((c.same_owedPaid t).lccItems).1⟩

/-- What settles after held writes are taken keeps what became of them. -/
theorem Chip.EndsQuiet.held {c : Chip} (h : c.EndsQuiet) (t : Tenure) (hj : t.job = .purchase) (d : Chip) (l : List Port)
    (hd : c.owedPaid t = d) (hl : d.pcu.held = l) :
    (∀ q, (c.afterTenure t).port q = (Chip.takeHeld l d).port q) ∧ (c.afterTenure t).pcu = (Chip.takeHeld l d).pcu ∧
      (c.afterTenure t).rpu.notes = (Chip.takeHeld l d).rpu.notes ∧
      ∀ k, (c.afterTenure t).rpu.isPending k = (Chip.takeHeld l d).rpu.isPending k := by
  have hpaid : c.paid t = Chip.takeHeld l d := by
    rw [Chip.paid_eq, hd, hj, ← hl]
    rfl
  have hsame := h.same t
  rw [hpaid] at hsame
  obtain ⟨hnotes, hpend⟩ := hsame.rpuItems
  exact ⟨fun q => hsame.port q (by cases q <;> decide), hsame .pcu (by decide), hnotes, hpend⟩

theorem Chip.AccessNoted.of_items {k : RefusalKind} {q : Port} {b : Access} {d t : Chip} (h : Chip.AccessNoted k q b d)
    (hport : ∀ q, t.port q = d.port q) (hnotes : t.rpu.notes = d.rpu.notes)
    (hpend : ∀ k, t.rpu.isPending k = d.rpu.isPending k) : Chip.AccessNoted k q b t := by
  unfold Chip.AccessNoted at h ⊢
  rw [hport, hnotes, hpend]
  exact h

theorem Chip.EvaluationBegun.of_items {n : BitVec 8} {q : Port} {b : Access} {op : PurchaseOp} {d t : Chip}
    (h : Chip.EvaluationBegun n q b op d) (hport : ∀ q, t.port q = d.port q) (hpcu : t.pcu = d.pcu) :
    Chip.EvaluationBegun n q b op t := by
  unfold Chip.EvaluationBegun at h ⊢
  rw [hport, hpcu]
  exact h

/-- The write of a port fails when it is taken: the part is not RUNNING, or the op is none (R138). -/
def Chip.HeldFails (c : Chip) (b : Access) : Prop :=
  ¬c.lcc.lifecycle = .running ∨ purchaseOpOfCode (field b.data 28 2) = none

/-- A purchase tenure that ends with its first held write accepted. -/
theorem Chip.EndsQuiet.heldAccepted {c : Chip} (h : c.EndsQuiet) (t : Tenure) (r : PurchaseResult) (p : Port)
    (rest : List Port) (a : Access) (op : PurchaseOp) (hr : .purchaseEnd r ∈ t.owed)
    (hu : ∀ r', .purchaseEnd r' ∈ t.owed → r' = r) (hj : t.job = .purchase) (hh : c.pcu.held = p :: rest)
    (ho : (c.port p).out = some ⟨a, .held⟩) (hl : c.lcc.lifecycle = .running)
    (hop : purchaseOpOfCode (field a.data 28 2) = some op) :
    Chip.EvaluationBegun c.pcu.record.number p a op (c.afterTenure t) ∧ (c.afterTenure t).pcu.held = rest ∧
      ∀ q, q ≠ p → (c.afterTenure t).port q = c.port q := by
  have hp := c.purchasePaid_owedPaid t r hr hu
  generalize hd : c.owedPaid t = d at hp
  have hheld : d.pcu.held = p :: rest := by rw [hp.pcu]; exact hh
  obtain ⟨hport, hpcu, -, -⟩ := h.held t hj d _ hd hheld
  obtain ⟨hbegun, hleft, hothers⟩ := d.takeHeld_accepts p rest a .held op (by rw [hp.pcu]; rfl) (by rw [hp.port]; exact ho)
    (hp.lifecycle.trans hl) hop
  have hnumber : d.pcu.record.number = c.pcu.record.number := by rw [hp.pcu]; rfl
  rw [hnumber] at hbegun
  exact ⟨hbegun.of_items hport hpcu, by rw [hpcu]; exact hleft, fun q hq => by rw [hport, hothers q hq, hp.port]⟩

/-- A purchase tenure that ends with its first held write refused: the next one is taken. -/
theorem Chip.EndsQuiet.heldRefused {c : Chip} (h : c.EndsQuiet) (t : Tenure) (r : PurchaseResult) (p : Port)
    (rest : List Port) (a : Access) (hr : .purchaseEnd r ∈ t.owed) (hu : ∀ r', .purchaseEnd r' ∈ t.owed → r' = r)
    (hj : t.job = .purchase) (hh : c.pcu.held = p :: rest) (ho : (c.port p).out = some ⟨a, .held⟩) (hf : c.HeldFails a) :
    Chip.AccessNoted c.purchaseRefusalKind p a (c.afterTenure t) ∧
      (rest = [] → (c.afterTenure t).pcu = { c.pcu.ended r with held := [] }) ∧
      ∀ q b, rest = [q] → q ≠ p → (c.port q).out = some ⟨b, .held⟩ → (c.afterTenure t).pcu.held = [] ∧
        (c.HeldFails b → Chip.AccessNoted c.purchaseRefusalKind q b (c.afterTenure t) ∧
          (c.afterTenure t).pcu.inFlight = none) ∧
        ∀ op, c.lcc.lifecycle = .running → purchaseOpOfCode (field b.data 28 2) = some op →
          Chip.EvaluationBegun c.pcu.record.number q b op (c.afterTenure t) := by
  have hp := c.purchasePaid_owedPaid t r hr hu
  generalize hd : c.owedPaid t = d at hp
  have hheld : d.pcu.held = p :: rest := by rw [hp.pcu]; exact hh
  obtain ⟨hport, hpcu, hnotes, hpend⟩ := h.held t hj d _ hd hheld
  have hkind : d.purchaseRefusalKind = c.purchaseRefusalKind := by simp only [Chip.purchaseRefusalKind, hp.lifecycle]
  have hfails : ∀ b, c.HeldFails b → d.HeldFails b := by
    intro b hb
    unfold Chip.HeldFails
    rw [hp.lifecycle]
    exact hb
  have hi : d.pcu.inFlight = none := by rw [hp.pcu]; rfl
  have ho' : (d.port p).out = some ⟨a, .held⟩ := by rw [hp.port]; exact ho
  have hnoted := d.takeHeld_refuses p rest a .held hi ho' (hfails a hf)
  have hnext := d.takeHeld_refused p rest a .held hi ho' (hfails a hf)
  rw [hkind] at hnoted hnext
  have hitems := d.heldRefused_items c.purchaseRefusalKind p a.addr rest
  have hsame := d.same_heldRefused c.purchaseRefusalKind p a.addr rest
  refine ⟨hnoted.of_items hport hnotes hpend, fun hn => ?_, fun q b hq hqp hob => ?_⟩
  · subst hn
    rw [hpcu, hnext]
    exact hitems.2.2.trans (by rw [hp.pcu])
  · subst hq
    rw [hnext] at hport hpcu hnotes hpend
    generalize d.heldRefused c.purchaseRefusalKind p a.addr [q] = e at hitems hsame hport hpcu hnotes hpend
    obtain ⟨-, -, hepcu⟩ := hitems
    have hei : e.pcu.inFlight = none := by rw [hepcu]; exact hi
    have helife : e.lcc.lifecycle = c.lcc.lifecycle := (hsame.lccItems (by cases p <;> decide)).1.trans hp.lifecycle
    have heo : (e.port q).out = some ⟨b, .held⟩ := by
      rw [hsame.port q (by cases p <;> cases q <;> first | exact absurd rfl hqp | decide), hp.port]
      exact hob
    have hekind : e.purchaseRefusalKind = c.purchaseRefusalKind := by simp only [Chip.purchaseRefusalKind, helife]
    have hefails : c.HeldFails b → e.HeldFails b := by
      intro hb
      unfold Chip.HeldFails
      rw [helife]
      exact hb
    have hrefused : c.HeldFails b → (Chip.takeHeld [q] e).pcu = { e.pcu with held := [] } := by
      intro hb
      rw [e.takeHeld_refused q [] b .held hei heo (hefails hb)]
      exact (e.heldRefused_items _ q b.addr []).2.2
    have haccepts := fun op hl hop => e.takeHeld_accepts q [] b .held op hei heo (helife.trans hl) hop
    refine ⟨?_, fun hb => ⟨?_, ?_⟩, fun op hl hop => ?_⟩
    · rw [hpcu]
      by_cases hb : c.HeldFails b
      · rw [hrefused hb]
      · simp only [Chip.HeldFails, not_or, not_not] at hb
        cases hop : purchaseOpOfCode (field b.data 28 2) with
        | none => exact absurd hop hb.2
        | some op => exact (haccepts op hb.1 hop).2.1
    · have hnote := e.takeHeld_refuses q [] b .held hei heo (hefails hb)
      rw [hekind] at hnote
      exact hnote.of_items hport hnotes hpend
    · rw [hpcu, hrefused hb]
      exact hei
    · have hnumber : e.pcu.record.number = c.pcu.record.number := by rw [hepcu, hp.pcu]; rfl
      have hbegun := (haccepts op hl hop).1
      rw [hnumber] at hbegun
      exact hbegun.of_items hport hpcu

/-! ### What settles runs no tenure -/

theorem Chip.running_arbitrate (n : Nat) (c : Chip) : (c.arbitrate n).tau.running = c.tau.running := by
  have hgrant : ∀ (p : Port) (d : Chip), (d.grantPort p).present.tau.running = d.tau.running := by
    intro p d
    have hpresent : (d.grantPort p).present.tau.running = (d.grantPort p).tau.running :=
      (d.grantPort p).same_present .tenure (by decide)
    rw [hpresent]
    unfold Chip.grantPort
    split
    · rfl
    · exact Chip.same_carryOut p _ _ _ .tenure (by cases p <;> decide)
  induction n generalizing c with
  | zero => rfl
  | succ n ih =>
    unfold Chip.arbitrate
    split
    · split
      · rfl
      · rfl
      · exact (ih _).trans (hgrant .a c)
      · exact (ih _).trans (hgrant .b c)
    · rfl

theorem Chip.running_settle (c : Chip) : c.settle.tau.running = c.tau.running :=
  (Chip.running_arbitrate 3 c.present).trans (c.same_present .tenure (by decide))

/-! ### The statement -/

/-- With an evaluation in flight when all has settled, a purchase is requested. -/
theorem Chip.EndsQuiet.purchaseRequested {c : Chip} (h : c.EndsQuiet) (t : Tenure)
    (hi : (c.afterTenure t).pcu.inFlight.isSome = true) : (c.afterTenure t).requested .purchase := by
  have hreset : (c.afterTenure t).resetLow = (c.paid t).resetLow := h.same t .resetLine (by decide)
  have hreset0 : (c.paid t).resetLow = c.resetLow := c.same_paid_pieces t .resetLine (by decide)
  refine Chip.purchase_requested _ (Chip.settle_settled _) ?_ ?_ hi
  · rw [hreset, hreset0]
    exact h.resetHigh
  · exact (Chip.running_settle _).trans (c.tau_tenureEnded t).2

/-- Settles O31: each clause is a lemma about `Chip.afterTenure`, the part when the tenure has ended and all has settled. -/
theorem tenureEndMakesItsWrites : Obligations.TenureEndMakesItsWrites := by
  intro s x hr hh hx
  refine ⟨_, exec_tauTenureEnd s x hh hx, rfl, rfl, (Chip.running_settle _).trans (s.chip.tau_tenureEnded x).2,
    Chip.settle_settled _, fun ha hb => ?_⟩
  have h : s.chip.EndsQuiet := ⟨hr, ha, hb⟩
  intro waits stays
  refine ⟨?_, ?_, ?_, ?_, ?_, ?_, ?_, ?_, ?_, ?_, ?_, ?_, ?_, ?_, ?_⟩
  · intro hl hw
    exact (h.goesOn_of_stays x (Or.inr hw)).lifecycle.trans ((s.chip.lifecycle_paid x).trans hl)
  · exact fun hl hn ho hj hw => h.stops x hl hn ho hj hw
  · exact fun k hk => h.pending x _ k hk fun d => Chip.pending_raise_self k d
  · intro r hr hu hheld
    have hpcu := h.purchaseEnd x r hr hu hheld
    exact ⟨congrArg Pcu.inFlight hpcu, congrArg Pcu.record hpcu⟩
  · intro r p rest a hr hu hj hheld ho running refusal refused accepted fails
    have haccepted : ∀ q b op, Chip.EvaluationBegun s.chip.pcu.record.number q b op (s.chip.afterTenure x) →
        accepted q b op := by
      rintro q b op ⟨h1, h2, h3, h4⟩
      exact ⟨h1, h2, h.purchaseRequested x (by rw [h3]; rfl), h3, h4⟩
    refine ⟨fun op hl hop => ?_, fun hf => ?_⟩
    · obtain ⟨h1, h2, h3⟩ := h.heldAccepted x r p rest a op hr hu hj hheld ho hl hop
      exact ⟨haccepted p a op h1, h2, fun q _ hq => h3 q hq⟩
    · obtain ⟨h1, h2, h3⟩ := h.heldRefused x r p rest a hr hu hj hheld ho hf
      refine ⟨h1, h2, fun q b hq hqp hob => ?_⟩
      obtain ⟨h4, h5, h6⟩ := h3 q b hq hqp hob
      exact ⟨h4, h5, fun op hl hop => haccepted q b op (h6 op hl hop)⟩
  · intro r hr hu older
    have hevals := h.evals x r hr hu
    refine ⟨fun hw => ?_, fun hw hn => ?_, fun hw ho => ?_⟩
    · rw [hw] at hevals
      exact hevals
    · rw [if_pos hw, placeEval_new _ r hn] at hevals
      exact hevals
    · rw [if_pos hw, placeEval_older _ r ho] at hevals
      refine hevals.trans (List.map_congr_left fun q _ => ?_)
      unfold EvalRequest.mergedWith EvalKind.merge
      split <;> rfl
  · intro sub f hr hn hf
    exact (h.flight x sub f hf).trans (s.chip.flight_owedPaid_redeadline x sub f hr hn hf)
  · exact fun ht hj _ => h.counters x ht hj
  · exact fun ho hj => h.mirrored x ho hj
  · intro ho hw
    obtain ⟨h1, h2, h3⟩ := h.space x ho hw
    exact ⟨h1, h2, h3⟩
  · intro sub f os hj ho hos hf he out withheld
    obtain ⟨hlink, hflight⟩ := h.attempt x sub os f hj ho hos hf
    refine ⟨fun hout => ?_, fun hout hw => ?_, fun hout hw => ?_⟩
    · obtain ⟨h1, h2⟩ := s.chip.tauFreed.firstAttempt_out sub f hf he hout
      exact ⟨hlink.trans h1, hflight.trans h2⟩
    · obtain ⟨h1, h2⟩ := s.chip.tauFreed.firstAttempt_withheld sub f hf he hout hw
      exact ⟨hlink.trans h1, hflight.trans h2⟩
    · obtain ⟨hl, hz⟩ := not_or.1 hw
      obtain ⟨h1, h2⟩ := s.chip.tauFreed.firstAttempt_sent sub f hf he hout (not_not.1 hl) hz
      exact ⟨(congrArg Link.sent hlink).trans h1, hflight.trans h2⟩
  · intro i down restore y hj ho hy
    refine ⟨?_, ?_, fun hs => h.slot x i down restore y hj ho hy hs⟩
    · rintro rfl
      exact h.pending x _ .nodeDown ho fun d => (d.pending_handSlot i true restore).1 rfl
    · rintro rfl
      exact h.pending x _ .nodeUp ho fun d => (d.pending_handSlot i down true).2 rfl
  · exact fun ho => h.snapshot x ho
  · intro e w ha hw hl hj ho ends
    exact Chip.SweepEnds.stopping ⟨h, ho, ha, hw⟩ hl hj
  · intro e w ha hw hs hl ho
    have hsweep : s.chip.SweepEnds x e w := ⟨h, ho, ha, hw⟩
    refine ⟨fun node outage hj hk => hsweep.endTenure hl node outage hj hk,
      fun node outage hj hk hc hn => hsweep.unrecorded hl hs hj node outage hk hc hn,
      fun number hj hk hc => hsweep.closed hl hs number hj hk hc, fun hj hc hn node outage hk => ?_, fun hj hc => ?_⟩
    · obtain ⟨d, -, -, hswe⟩ := hsweep.stays hl hs hj (Or.inr ⟨hn, node, outage, hk⟩)
      exact ⟨hswe, fun ho => hsweep.asksEnd hl hs hj hc hn node outage hk ho⟩
    · obtain ⟨d, -, -, hswe⟩ := hsweep.stays hl hs hj (Or.inl hc)
      exact hswe

end Sys2Proof.Machine
end
section
/-! A write to a command word that is granted when it is presented and taken (R1, R22): the part it leaves is that of the
taken command, its access answered, when all has settled. -/

namespace Sys2Proof.Machine

/-! ### An access granted when it is presented, and the part that settles after it -/

/-- With neither port waiting, one grant is all that arbitration can make. -/
theorem Chip.arbitrate_quiet_fuel (n k : Nat) (c : Chip) (ha : c.portA.waiting = false) (hb : c.portB.waiting = false) :
    c.arbitrate (n + 1) = c.arbitrate (k + 1) := by
  simp only [Chip.arbitrate]
  split
  · split
    · rfl
    · rfl
    · rename_i hx
      exact absurd (c.nextClaimant_waits _ hx) (by simpa [Chip.waiting] using ha)
    · rename_i hx
      exact absurd (c.nextClaimant_waits _ hx) (by simpa [Chip.waiting] using hb)
  · rfl

/-- The grant to the port that presents an access on a free memory port, as it is carried out. -/
theorem Chip.grantPort_withWaiting (p : Port) (a : Access) (c : Chip) :
    ∃ x : Par, (c.withWaiting p a).grantPort p =
      ({ c.withWaiting p a with par := x } : Chip).carryOut p a (c.classify p a) := by
  refine ⟨⟨.host p (a.lock && !((c.port p).lockIgnored && a.lock)) 1, Port.claimant p⟩, ?_⟩
  have hc : ∀ x : Par, ({ c.withWaiting p a with par := x } : Chip).classify p a = c.classify p a :=
    fun x => Chip.classify_congr p p a _ x c
  unfold Chip.grantPort
  rw [Chip.port_withWaiting]
  simp only [hc]

/-- An access granted when it is presented is carried out in a part that differs from the one before in the port and the
arbiter; neither port waits then, and the rest is what settles after it. -/
theorem Chip.presentAccess_carriedOut (p : Port) (a : Access) (c : Chip) (h : c.grantsAt p = true) :
    ∃ c1, Chip.Same [portPiece p, .arbiter] c c1 ∧
      (c1.carryOut p a (c.classify p a)).portA.waiting = false ∧
      (c1.carryOut p a (c.classify p a)).portB.waiting = false ∧
      c.presentAccess p a = (c1.carryOut p a (c.classify p a)).settle := by
  obtain ⟨hr, -, hw, hh⟩ := (c.grantsAt_iff p).1 h
  have hsame : ∀ x : Par, Chip.Same [portPiece p, .arbiter] c { c.withWaiting p a with par := x } := fun x =>
    ((c.same_withWaiting p a).mono (by simp)).then ((Chip.same_withPar x _).mono (by simp))
  have hquiet : ∀ x : Par,
      (({ c.withWaiting p a with par := x } : Chip).carryOut p a (c.classify p a)).portA.waiting = false ∧
        (({ c.withWaiting p a with par := x } : Chip).carryOut p a (c.classify p a)).portB.waiting = false := by
    intro x
    refine Chip.no_port_waits p _ (Chip.carryOut_not_waiting _ _ _ _) ?_
    rw [Chip.carryOut_other, (hsame x).port (otherPort p) (by cases p <;> decide)]
    exact hw
  rw [Chip.presentAccess_eq]
  rcases hh with ⟨hf, hreq, hord⟩ | ⟨n, hl, hn⟩
  · obtain ⟨x, hx⟩ := c.grantPort_withWaiting p a
    refine ⟨_, hsame x, (hquiet x).1, (hquiet x).2, ?_⟩
    have hpres : (c.withWaiting p a).present = c.withWaiting p a :=
      Chip.present_nothing _ (by cases p <;> exact hreq)
    have hrw : (c.withWaiting p a).resetLow = false := by
      rw [(c.same_withWaiting p a) .resetLine (by cases p <;> decide)]
      exact hr
    have hgrant : (c.withWaiting p a).settle = Chip.arbitrate 2 ((c.withWaiting p a).grantPort p).present := by
      unfold Chip.settle
      rw [hpres]
      conv => lhs; unfold Chip.arbitrate
      rw [if_pos ⟨hrw, by simpa using hf⟩, c.nextClaimant_withWaiting p a hord hw]
      cases p <;> rfl
    rw [c.presented_free p a hf, hgrant, hx]
    obtain ⟨pa, pb⟩ := Chip.present_ports (({ c.withWaiting p a with par := x } : Chip).carryOut p a (c.classify p a))
    exact Chip.arbitrate_quiet_fuel 1 2 _ (by rw [pa]; exact (hquiet x).1) (by rw [pb]; exact (hquiet x).2)
  · exact ⟨_, hsame _, (hquiet _).1, (hquiet _).2, congrArg Chip.settle (c.presented_locked p a n hl hn)⟩

/-! ### A write that is taken -/

/-- What waits at the TAU and what runs tell what is outstanding. -/
theorem Chip.Same.outstanding {L : List Piece} {c d : Chip} (h : Chip.Same L c d)
    (hL : .requests ∉ L ∧ .tenure ∉ L := by decide) (b : Block) : d.outstanding b = c.outstanding b := by
  have horders : d.tau.orders = c.tau.orders := h .requests hL.1
  have hrunning : d.tau.running = c.tau.running := h .tenure hL.2
  simp only [Chip.outstanding, horders, hrunning]

/-- Ports and the arbiter bear on no request. -/
theorem Chip.asks_endAccess (p : Port) (e : Bool) (d : Word) (b : Block) (c : Chip) :
    (Chip.endAccess p e d c).asks b = c.asks b := by
  unfold Chip.endAccess
  dsimp only
  cases p
  · split
    · split
      · rfl
      · rfl
    · rfl
  · split
    · split
      · rfl
      · rfl
    · rfl

/-- `d` is what the answer to a write leaves of the part `c`, in which the write was carried out and no port waits then. -/
structure Chip.Answered (p : Port) (c d : Chip) : Prop where
  resetHigh : c.resetLow = false
  portA : (Chip.endAccess p false 0 c).portA.waiting = false
  portB : (Chip.endAccess p false 0 c).portB.waiting = false
  settled : d = (Chip.endAccess p false 0 c).settle

theorem Chip.Answered.resetHigh_endAccess {p : Port} {c d : Chip} (h : Chip.Answered p c d) :
    (Chip.endAccess p false 0 c).resetLow = false := by
  rw [Chip.same_endAccess p false 0 c .resetLine (by cases p <;> decide)]
  exact h.resetHigh

theorem Chip.Answered.same {p : Port} {c d : Chip} (h : Chip.Answered p c d) :
    Chip.Same [portPiece p, .arbiter, .requests, .jobs] c d := by
  rw [h.settled]
  exact (Chip.same_endAccess p false 0 c).trans (Chip.same_settle_quiet _ fun _ => ⟨h.portA, h.portB⟩) (by simp) (by simp)

theorem Chip.Answered.port {p : Port} {c d : Chip} (h : Chip.Answered p c d) :
    d.port p = { c.port p with out := none, answer := some ⟨false, 0⟩ } := by
  rw [h.settled, (Chip.same_settle_quiet _ fun _ => ⟨h.portA, h.portB⟩).port p (by cases p <;> decide),
    Chip.port_endAccess]

/-- What a block asks for is requested when the write has been answered. -/
theorem Chip.Answered.requested {p : Port} {c d : Chip} (h : Chip.Answered p c d) (j : Job) (ha : c.asks j.block = some j) :
    d.requested j := by
  rw [h.settled]
  exact Chip.requested_settle j _ h.resetHigh_endAccess (fun _ => ⟨h.portA, h.portB⟩)
    (by rw [Chip.asks_endAccess]; exact ha)

/-- The LCC's next job is requested, and the others are to come. -/
theorem Chip.Answered.lcc {p : Port} {c d : Chip} (h : Chip.Answered p c d) (j : Job) (rest : List Job)
    (hj : c.lcc.jobs = j :: rest) (hb : j.block = .lcc) (ho : c.outstanding .lcc = false) :
    d.requested j ∧ d.lcc.jobs = rest := by
  have hlcc : (Chip.endAccess p false 0 c).lcc = c.lcc :=
    (Chip.same_endAccess p false 0 c).lcc (by cases p <;> decide)
  refine ⟨h.requested j (by rw [hb]; exact c.asks_lcc j rest hj hb ho), ?_⟩
  rw [h.settled, (Chip.jobs_settle _ h.resetHigh_endAccess fun _ => ⟨h.portA, h.portB⟩).1, Chip.asks_endAccess,
    c.asks_lcc j rest hj hb ho, hlcc, hj]
  rfl

/-- A permitted write of a command word that is not refused is taken: in a part that differs from the one before in the port
and the arbiter the command is carried out, and then the write is answered (R1, R22). -/
theorem State.command_taken (s : State) (use : PortUse) (n : Nat) (v : Word) (L : List Piece)
    (h : s.chip.commands use.port n = true) (h1 : 64 ≤ n) (h2 : n < 72) (hn : n ≠ 67)
    (hr : s.chip.commandRefusal n v = none) (hL : ∀ c : Chip, Chip.Same L c (c.takeCommand n use.port v)) :
    ∃ t c, s.command use n true v = .next t ∧ Chip.Same [portPiece use.port, .arbiter] s.chip c ∧
      Chip.Answered use.port (c.takeCommand n use.port v) t.chip ∧ State.ended use.port ⟨false, 0⟩ L s t := by
  have hg := ((s.chip.commands_iff use.port n).1 h).1
  have hc : s.chip.classify use.port (stationAccess n true v use.lock) = .take n := by
    rw [s.chip.classify_command_write use.port n v use.lock h h1 h2]
    simp [Chip.commandWrite, hn, hr]
  obtain ⟨c, hsame, ha, hb, hpres⟩ := s.chip.presentAccess_carriedOut use.port (stationAccess n true v use.lock) hg
  rw [hc] at ha hb hpres
  rw [Chip.presentAccess_eq] at hpres
  have hreset : (c.takeCommand n use.port v).resetLow = false := by
    rw [c.same_takeCommand n use.port v .resetLine (by decide), hsame .resetLine (by cases use.port <;> decide)]
    exact ((s.chip.grantsAt_iff use.port).1 hg).1
  have hans : Chip.Answered use.port (c.takeCommand n use.port v)
      (s.chip.presented use.port (stationAccess n true v use.lock)).settle := ⟨hreset, ha, hb, hpres⟩
  refine ⟨_, c, s.access_next _ _ (s.chip.grantsAt_out _ hg), hsame, hans, rfl, rfl, congrArg PortState.out hans.port,
    congrArg PortState.answer hans.port, ?_⟩
  have h0 : Chip.Same (portPiece use.port :: .arbiter :: .requests :: .jobs :: L) s.chip c := hsame.mono (by simp)
  exact (h0.then ((hL c).mono fun x hx => by simp [hx])).then (hans.same.mono (by simp))

end Sys2Proof.Machine
end

section
/-! The reset line's release and the autostart check (O5), START (O17) and LOG_CLEAR (O19). -/

namespace Sys2Proof.Machine

/-! ### The values that LOADING begins with (R26) -/

/-- A CONTROL write of START is taken in OFFLINE, LOAD_FAULT and STOPPED (R23). -/
theorem Chip.commandRefusal_start (c : Chip)
    (h : c.lcc.lifecycle = .offline ∨ c.lcc.lifecycle = .loadFault ∨ c.lcc.lifecycle = .stopped) :
    c.commandRefusal 64 1 = none := by
  have hs : c.startable = true := by simpa [Chip.startable, or_assoc] using h
  exact if_pos hs

/-- Settles O17: what START leaves is `Chip.enterLoading`, answered; the LCC's first tenure is the fault set's. -/
theorem startEntersLoading : Obligations.StartEntersLoading := by
  intro s use h hl
  obtain ⟨t, c, ht, hc, hans, hend⟩ := s.command_taken use 64 1 loadPieces h (by decide) (by decide) (by decide)
    (s.chip.commandRefusal_start hl) Chip.same_enterLoading
  have hsame : Chip.Same [portPiece use.port, .arbiter, .requests, .jobs] c.enterLoading t.chip := hans.same
  obtain ⟨hlife, hphase, hfaults, -⟩ := hsame.lccItems (by cases use.port <;> decide)
  have htbu : c.tbu = s.chip.tbu := hc .tbu (by cases use.port <;> decide)
  have hlue : c.lue = s.chip.lue := hc .lue (by cases use.port <;> decide)
  have htoe : c.toe = s.chip.toe := hc .toe (by cases use.port <;> decide)
  have hpcu : c.pcu = s.chip.pcu := hc .pcu (by cases use.port <;> decide)
  obtain ⟨hm, hq, ho, ha, hpieces⟩ := hend
  refine ⟨t, ht, ⟨hm, hq, ho, ha, hpieces.mono (by simp [loadPieces])⟩, hlife, hphase, hfaults,
    ?_, ?_, ?_, ?_, ?_, ?_, ?_, ?_, fun hi => ?_⟩
  · rw [← htbu]
    exact hsame .tbu (by cases use.port <;> decide)
  · rw [← hlue]
    exact hsame .lue (by cases use.port <;> decide)
  · rw [← htoe]
    exact hsame .toe (by cases use.port <;> decide)
  · exact hsame .slm (by cases use.port <;> decide)
  · exact hsame .swe (by cases use.port <;> decide)
  · rw [← hpcu]
    exact hsame .pcu (by cases use.port <;> decide)
  · exact hsame.clu (by cases use.port <;> decide)
  · exact hsame .statusMark (by cases use.port <;> decide)
  · obtain ⟨hjobs, hout⟩ := s.chip.lccIdle_iff.1 hi
    have hcjobs : c.lcc.jobs = [] := by rw [hc.lcc (by cases use.port <;> decide), hjobs]
    refine hans.lcc .faultSet [.profile 0, .profile 1, .profile 2] ?_ rfl ?_
    · exact congrArg (· ++ [Job.faultSet, .profile 0, .profile 1, .profile 2]) hcjobs
    · exact (hc.outstanding (by cases use.port <;> decide) .lcc).trans hout

/-! ### LOG_CLEAR (R23) -/

theorem Chip.commandRefusal_logClear (c : Chip) (hl : c.lcc.lifecycle = .loadFault)
    (hf : c.lcc.faults.getLsbD 10 = true) : c.commandRefusal 64 3 = none :=
  if_pos (by simp [hl, hf])

theorem Chip.same_takeCommand_logClear (p : Port) (c : Chip) : Chip.Same [.jobs] c (c.takeCommand 64 p 3) := by
  intro x hx
  cases x <;> first | exact absurd (by decide) hx | rfl

/-- Settles O19: the write leaves one job of the LCC to come, and the body of its tenure is one write. -/
theorem logClearEqualisesTheIndexes : Obligations.LogClearEqualisesTheIndexes := by
  refine ⟨fun s use h hl hf => ?_, fun s h => ?_⟩
  · obtain ⟨t, c, ht, hc, hans, hend⟩ := s.command_taken use 64 3 [.jobs] h (by decide) (by decide) (by decide)
      (s.chip.commandRefusal_logClear hl hf) (Chip.same_takeCommand_logClear use.port)
    obtain ⟨hm, hq, ho, ha, hpieces⟩ := hend
    refine ⟨t, ht, ⟨hm, hq, ho, ha, hpieces.mono (by simp)⟩, fun hi => ?_⟩
    obtain ⟨hjobs, hout⟩ := s.chip.lccIdle_iff.1 hi
    have hcjobs : c.lcc.jobs = [] := by rw [hc.lcc (by cases use.port <;> decide), hjobs]
    exact (hans.lcc .logClear [] (congrArg (· ++ [Job.logClear]) hcjobs) rfl
      ((hc.outstanding (by cases use.port <;> decide) .lcc).trans hout)).1
  · obtain ⟨ht, hg⟩ := s.tenure_granted .logClear (fun _ j => j = .logClear) (fun m _ c => c.logClearBody m) [.tenure] h
      (by simp) (fun k hk => by rw [of_decide_eq_true hk]) (Chip.same_logClearBody _ _) (by decide)
    exact ⟨_, ht, ⟨hg.1, hg.2.1, hg.2.2.mono (by decide)⟩, Chip.runs_granted .logClear _ _ _ rfl rfl rfl⟩

/-! ### The release of the reset line (R25, R172) -/

/-- The grants of the memory port leave the reset line. -/
theorem Chip.resetLow_arbitrate (n : Nat) (c : Chip) : (c.arbitrate n).resetLow = c.resetLow := by
  induction n generalizing c with
  | zero => rfl
  | succ n ih =>
    have hgrant : ∀ p, (Chip.arbitrate n (c.grantPort p).present).resetLow = c.resetLow := fun p => by
      rw [ih, Chip.resetLow_present, Chip.grantPort_reset]
    unfold Chip.arbitrate
    split
    · split
      · rfl
      · rfl
      · exact hgrant .a
      · exact hgrant .b
    · rfl

theorem Chip.resetLow_settle (c : Chip) : c.settle.resetLow = c.resetLow :=
  (Chip.resetLow_arbitrate 3 c.present).trans c.resetLow_present

/-- The part as the release of the reset line leaves it, before its requests are presented. -/
def Chip.released (c : Chip) : Chip := { c with resetLow := false, lcc := { c.lcc with jobs := [.autostart] } }

/-- Just released from the state after the reset line, the LCC and the RPU ask for their tenures, and no other block does. -/
theorem Chip.requests_released (l : Word) (x y : PortState) :
    Chip.requests ({ Chip.reset with lines := l, portA := x, portB := y } : Chip).released = [.autostart, .report] := rfl

theorem Chip.orders_present_of_requests (c : Chip) (hr : c.resetLow = false) (h : c.requests ≠ []) :
    c.present.tau.orders = c.tau.orders ++ [c.requests] := by
  unfold Chip.present
  rw [if_neg (by simp [hr, h])]
  obtain ⟨x, y, hasked, -⟩ := Chip.foldl_asked_eq c.requests c
  dsimp only
  rw [hasked]

/-- With neither port waiting and a request standing, the TAU is the next claimant, wherever the pointer is (R3). -/
theorem Chip.nextClaimant_requests (c : Chip) (ha : c.portA.waiting = false) (hb : c.portB.waiting = false)
    (ho : c.tau.orders ≠ []) : c.nextClaimant = some .tau := by
  rw [Chip.nextClaimant_eq]
  cases c.par.pointer <;> simp [Claimant.after, Chip.waiting, ha, hb, ho]

/-- With no access waiting the first requests stand in one batch and the TAU is granted (R3, R172). -/
theorem Chip.settle_released (l : Word) (x y : PortState) (c : Chip)
    (hc : c = { Chip.reset with lines := l, portA := x, portB := y }) (hx : x.waiting = false) (hy : y.waiting = false) :
    c.released.settle.tau.orders = [[.autostart, .report]] ∧ c.released.settle.par = ⟨.tau, .tau⟩ ∧
      Chip.Same [.resetLine, .arbiter, .requests, .jobs] c c.released.settle := by
  have hreq : c.released.requests = [.autostart, .report] := by rw [hc]; exact Chip.requests_released l x y
  have hord : c.released.present.tau.orders = [[.autostart, .report]] := by
    rw [c.released.orders_present_of_requests rfl (by rw [hreq]; simp), hreq, hc]
    rfl
  obtain ⟨ha, hb⟩ := c.released.present_ports
  have hset := c.released.settle_tau rfl (by rw [hc]; rfl)
    (Chip.nextClaimant_requests _ (by rw [ha, hc]; exact hx) (by rw [hb, hc]; exact hy) (by rw [hord]; simp))
  have hsame : Chip.Same [.resetLine, .arbiter, .requests, .jobs] c c.released := by
    intro z hz
    cases z <;> first | exact absurd (by decide) hz | rfl
  rw [hset]
  exact ⟨hord, rfl, (hsame.then (c.released.same_present.mono (by decide))).then ((Chip.same_withPar _ _).mono (by decide))⟩

/-! ### The autostart check (R25) -/

/-- The tenure of the check, granted. -/
theorem State.autostart_granted (s : State) (L : List Piece) (h : s.chip.offers .autostart = true)
    (hs : Chip.Same L (s.chip.atGrant .autostart) ((s.chip.atGrant .autostart).autostart s.mem)) (hL : .arbiter ∉ L) :
    exec .autostartCheck s =
        .next { s with chip := (((s.chip.atGrant .autostart).autostart s.mem).closeGrant).present } ∧
      State.granted L s { s with chip := (((s.chip.atGrant .autostart).autostart s.mem).closeGrant).present } :=
  s.tenure_granted .autostart (fun _ j => j = .autostart) (fun m _ c => c.autostart m) L h (by simp)
    (fun k hk => by rw [of_decide_eq_true hk]) hs hL

/-- Settles O5: the requests of a part just released, and the check by its test. -/
theorem releaseAndAutostart : Obligations.ReleaseAndAutostart := by
  refine ⟨fun s hr => ?_, fun s h => ⟨fun hl hsig hflag => ?_, fun hn => ?_⟩⟩
  · exact ⟨{ s with chip := s.chip.released.settle }, if_pos hr, rfl, rfl, Chip.resetLow_settle _, Chip.settle_settled _,
      fun l x y hc hx hy => Chip.settle_released l x y s.chip hc hx hy⟩
  · obtain ⟨ht, hg⟩ := s.autostart_granted loadPieces h (Chip.same_autostart _ _) (by decide)
    have henter : (s.chip.atGrant .autostart).autostart s.mem = (s.chip.atGrant .autostart).enterLoading :=
      if_pos ⟨hl, hsig, hflag⟩
    have hlcc : ∀ c : Chip, Chip.Same [.requests, .jobs, .tenure, .low, .statusMark] c c.closeGrant.present := fun c =>
      (c.same_closeGrant.mono (by decide)).then (Chip.same_present _ |>.mono (by decide))
    obtain ⟨hlife, hphase, hfaults, -⟩ := (hlcc ((s.chip.atGrant .autostart).autostart s.mem)).lccItems
    rw [henter] at hlife hphase hfaults ht hg
    exact ⟨_, ht, ⟨hg.1, hg.2.1, hg.2.2.mono (by decide)⟩, hlife, hphase, hfaults⟩
  · have hstay : (s.chip.atGrant .autostart).autostart s.mem = s.chip.atGrant .autostart := by
      refine if_neg ?_
      rintro ⟨hl, hsig, hflag⟩
      rcases hn with hn | hn | hn
      · exact hn hl
      · exact hn hsig
      · exact absurd hflag (by simp [hn])
    obtain ⟨ht, hg⟩ := s.autostart_granted [] h (by rw [hstay]; exact Chip.Same.refl _ _) (by decide)
    exact ⟨_, ht, hg⟩

end Sys2Proof.Machine
end

section
/-! Phases 2 and 3 of a load (O50): the node table and the log. -/

namespace Sys2Proof.Machine

/-! ### The tenures of the LCC in a phase (R29) -/

/-- While the TAU offers a tenure of the LCC, the LCC is not idle, so no phase is at its end. -/
theorem Chip.not_lccIdle_of_offers (j : Job) (c : Chip) (h : c.offers j = true) (hj : j.block = .lcc) :
    c.lccIdle = false := by
  have hout := c.outstanding_of_offers j h
  rw [hj] at hout
  simp [Chip.lccIdle, hout]

theorem exec_loadPhase2_tenure (s : State) (j : Job) (h : s.chip.offers j = true) (hj : j.block = .lcc) :
    exec .loadPhase2 s = s.tenure (fun _ j => j = .nodeTable 0 || j = .nodeTable 1) Chip.phase2Body :=
  if_neg (by simp [s.chip.not_lccIdle_of_offers j h hj])

theorem exec_loadPhase3_tenure (s : State) (j : Job) (h : s.chip.offers j = true) (hj : j.block = .lcc) :
    exec .loadPhase3 s = s.tenure phase3Pick Chip.phase3Body :=
  if_neg (by simp [s.chip.not_lccIdle_of_offers j h hj])

theorem phase3Pick_block (c : Chip) (j : Job) (h : phase3Pick c j = true) : j.block = .lcc := by
  cases j <;> first | rfl | simp [phase3Pick] at h

/-- The LCC's words from memory, but for the jobs to come, once a tenure has been granted. -/
theorem Chip.lcc_granted (c : Chip) :
    { c.closeGrant.present.lcc with jobs := [] } = { c.lcc with jobs := [] } :=
  ((c.closeGrant.same_present) .lcc (by decide)).trans (c.same_closeGrant .lcc (by decide))

/-! ### The ends of the phases -/

/-- The end of a phase, in a part that is quiet: what settles differs from it in the requests, the jobs and the arbiter, and
what a block asks for is requested. -/
theorem Chip.quiet_settles {L : List Piece} {c d : Chip} (hq : c.quiet = true) (h : Chip.Same L c d)
    (hL : .resetLine ∉ L ∧ .portA ∉ L ∧ .portB ∉ L ∧ .arbiter ∉ L := by decide) :
    Chip.Same [.requests, .jobs, .arbiter] d d.settle ∧ ∀ j, d.asks j.block = some j → d.settle.requested j := by
  obtain ⟨hr, hw⟩ := c.quiet_iff.1 hq
  obtain ⟨h1, h2, h3, h4⟩ := hL
  have hwd : d.par.holder = .free → d.portA.waiting = false ∧ d.portB.waiting = false := by
    rw [h .arbiter h4, h .portA h2, h .portB h3]
    exact hw
  exact ⟨d.same_settle_quiet hwd, fun j ha => d.requested_settle j ((h .resetLine h1).trans hr) hwd ha⟩

/-- A fault joins the set where its test fails. -/
theorem LoadFault.getLsbD_setIf (f : LoadFault) (b : Bool) (n : Nat) (hn : n < 11) :
    (f.setIf b).getLsbD n = (b && decide (n = f.bitIndex)) := by
  have h : ∀ n < 11, (f.setIf b).getLsbD n = (b && decide (n = f.bitIndex)) := by
    cases f <;> cases b <;> decide
  exact h n hn

/-- A node table entry fails by its class codes (R29). -/
theorem nodeFails_iff (w : Word) :
    nodeFails w = true ↔ bit w 31 = true ∧ (3 < (field w 4 3).toNat ∨ 3 < (field w 8 3).toNat) := by
  unfold nodeFails
  rw [Bool.and_eq_true, Bool.or_eq_true, decide_eq_true_iff, decide_eq_true_iff]
  rfl

/-- The bit of NODE_TABLE after phase 2. -/
theorem Chip.nodeTable_fault (c : Chip) :
    c.endPhase2.lcc.faults.getLsbD 9 = true ↔ c.lcc.faults.getLsbD 9 = true ∨
      ∃ w ∈ c.lcc.nodeWords, bit w 31 = true ∧ (3 < (field w 4 3).toNat ∨ 3 < (field w 8 3).toNat) := by
  have h : c.endPhase2.lcc.faults = c.lcc.faults ||| LoadFault.nodeTable.setIf (c.lcc.nodeWords.any nodeFails) := rfl
  rw [h, BitVec.getLsbD_or, LoadFault.getLsbD_setIf _ _ 9 (by decide)]
  simp [LoadFault.bitIndex, nodeFails_iff]

/-- The load fault set after phase 3 (R29). -/
def Chip.phase3Faults (w r : Word) (c : Chip) : BitVec 11 :=
  c.lcc.faults ||| LoadFault.logState.setIf (decide (c.capacity < (w - r).toNat))

theorem Chip.phase3Faults_eq_zero (w r : Word) (c : Chip) :
    c.phase3Faults w r = 0 ↔ (w - r).toNat ≤ c.capacity ∧ c.lcc.faults = 0 := by
  have h : c.phase3Faults w r = 0#11 ↔
      c.lcc.faults = 0#11 ∧ LoadFault.logState.setIf (decide (c.capacity < (w - r).toNat)) = 0#11 := BitVec.or_eq_zero_iff
  refine h.trans ?_
  rw [LoadFault.setIf_eq_zero, decide_eq_false_iff_not, Nat.not_lt, and_comm]
  rfl

/-- An occupancy above the capacity puts LOG_STATE in the set. -/
theorem Chip.logState_phase3Faults (w r : Word) (c : Chip) (h : c.capacity < (w - r).toNat) :
    (c.phase3Faults w r).getLsbD 10 = true := by
  rw [Chip.phase3Faults, BitVec.getLsbD_or, LoadFault.getLsbD_setIf _ _ 10 (by decide)]
  rw [decide_eq_true h, Bool.or_eq_true]
  exact Or.inr rfl

/-- The end of phase 3 with no fault: the CLU owes the load of its copy (R165). -/
theorem Chip.endPhase3_passed (w r : Word) (c : Chip) (hx : c.lcc.logIndexes = some (w, r)) (h : c.phase3Faults w r = 0) :
    c.endPhase3 = { c with lcc := { c.lcc with logIndexes := none }, clu := { c.clu with loadOwed := true } } := by
  unfold Chip.endPhase3
  rw [hx]
  exact if_pos h

/-- The end of phase 3 with a fault: LOAD_FAULT (R30). -/
theorem Chip.endPhase3_failed (w r : Word) (c : Chip) (hx : c.lcc.logIndexes = some (w, r)) (h : c.phase3Faults w r ≠ 0) :
    c.endPhase3 = Chip.enterLoadFault (c.phase3Faults w r) { c with lcc := { c.lcc with logIndexes := none } } := by
  unfold Chip.endPhase3
  rw [hx]
  exact if_neg h

/-! ### The statement -/

/-- Phase 2: its two tenures, and its end. -/
theorem State.phase2_end (s : State) (hq : s.chip.quiet = true) (hl : s.chip.lcc.lifecycle = .loading)
    (hp : s.chip.lcc.phase = 2) (hi : s.chip.lccIdle = true) :
    ∃ t, exec .loadPhase2 s = .next t ∧ State.happened [.slm, .lcc, .statusMark] s t ∧
      t.chip.lcc.lifecycle = .loading ∧ t.chip.lcc.phase = 3 ∧ t.chip.slm.image = s.chip.lcc.nodeWords ∧
      t.chip.lcc.faults = s.chip.endPhase2.lcc.faults ∧ t.chip.requested .logIndexes := by
  have hexec : exec .loadPhase2 s = s.event true Chip.endPhase2 :=
    if_pos (by rw [(s.chip.loadingPhase_iff 2).2 ⟨hl, hp⟩, hi]; rfl)
  obtain ⟨ht, hm, hpend, hpieces⟩ := s.event_happened true Chip.endPhase2 _ rfl hq s.chip.same_endPhase2 (by decide)
  obtain ⟨hset, hreq⟩ := Chip.quiet_settles hq s.chip.same_endPhase2
  obtain ⟨hlife, hphase, hfaults, -⟩ := hset.lccItems
  have hslm : { s.chip.endPhase2.settle.slm with jobs := [] } = { s.chip.endPhase2.slm with jobs := [] } :=
    hset .slm (by decide)
  have himage := congrArg Slm.image hslm
  refine ⟨_, hexec.trans ht, ⟨hm, hpend, hpieces.mono (by decide)⟩, hlife.trans hl, hphase, himage, hfaults, ?_⟩
  exact hreq .logIndexes (Chip.asks_lcc .logIndexes [] _ rfl rfl (s.chip.lccIdle_iff.1 hi).2)

/-- Phase 3: its end, by the faults found. -/
theorem State.phase3_end (s : State) (w r : Word) (hq : s.chip.quiet = true) (hl : s.chip.lcc.lifecycle = .loading)
    (hp : s.chip.lcc.phase = 3) (hi : s.chip.lccIdle = true) (hx : s.chip.lcc.logIndexes = some (w, r)) :
    ∃ t, exec .loadPhase3 s = .next t ∧ State.happened [.lcc, .clu, .rpu, .statusMark] s t ∧ t.chip.lcc.phase = 3 ∧
      (s.chip.capacity < (w - r).toNat ∨ s.chip.lcc.faults ≠ 0 → t.chip.lcc.lifecycle = .loadFault ∧
        t.chip.rpu.isPending .loadFault = true ∧ t.chip.requested .faultSet ∧
        (s.chip.capacity < (w - r).toNat → t.chip.lcc.faults.getLsbD 10 = true)) ∧
      ((w - r).toNat ≤ s.chip.capacity → s.chip.lcc.faults = 0 → t.chip.lcc.lifecycle = .loading ∧
        t.chip.clu.loadOwed = true ∧ (s.chip.outstanding .clu = false → t.chip.requested .logLoad)) := by
  have hexec : exec .loadPhase3 s = s.event true Chip.endPhase3 :=
    if_pos (by rw [(s.chip.loadingPhase_iff 3).2 ⟨hl, hp⟩, hi]; rfl)
  obtain ⟨hjobs, hout⟩ := s.chip.lccIdle_iff.1 hi
  obtain ⟨ht, hm, hpend, hpieces⟩ := s.event_happened true Chip.endPhase3 _ rfl hq s.chip.same_endPhase3 (by decide)
  obtain ⟨hset, hreq⟩ := Chip.quiet_settles hq s.chip.same_endPhase3
  obtain ⟨hlife, hphase, hfaults, -⟩ := hset.lccItems
  have hout' : ∀ b, s.chip.endPhase3.outstanding b = s.chip.outstanding b := s.chip.same_endPhase3.outstanding
  have hzero := s.chip.phase3Faults_eq_zero w r
  by_cases hz : s.chip.phase3Faults w r = 0
  · have heq := s.chip.endPhase3_passed w r hx hz
    obtain ⟨hfits, hnone⟩ := hzero.1 hz
    have hclu : s.chip.endPhase3.settle.clu.loadOwed = true := by
      have h : { s.chip.endPhase3.settle.clu with low := false } = { s.chip.endPhase3.clu with low := false } :=
        hset .clu (by decide)
      refine (congrArg Clu.loadOwed h).trans ?_
      rw [heq]
    refine ⟨_, hexec.trans ht, ⟨hm, hpend, hpieces.mono (by decide)⟩, ?_, fun hf => ?_, fun _ _ => ⟨?_, hclu, fun ho => ?_⟩⟩
    · rw [hphase, heq]
      exact hp
    · exact absurd hf (not_or.2 ⟨hfits.not_gt, fun h => h hnone⟩)
    · rw [hlife, heq]
      exact hl
    · refine hreq .logLoad ?_
      have hwants : s.chip.endPhase3.wants .clu = some .logLoad := by
        rw [heq]
        rfl
      exact (if_neg (Bool.eq_false_iff.1 ((hout' .clu).trans ho))).trans hwants
  · have heq := s.chip.endPhase3_failed w r hx hz
    refine ⟨_, hexec.trans ht, ⟨hm, hpend, hpieces.mono (by decide)⟩, ?_, fun _ => ⟨?_, ?_, ?_, fun hover => ?_⟩,
      fun hfits hnone => absurd (hzero.2 ⟨hfits, hnone⟩) hz⟩
    · rw [hphase, heq]
      exact hp
    · rw [hlife, heq]
      rfl
    · rw [hset.rpu, heq, Chip.enterLoadFault, Chip.rpu_raise, Rpu.isPending_raise]
      simp
    · exact hreq .faultSet (Chip.asks_lcc .faultSet [] _ (by rw [heq]; exact congrArg (· ++ [Job.faultSet]) hjobs) rfl
        (by rw [hout']; exact hout))
    · rw [hfaults, heq]
      exact s.chip.logState_phase3Faults w r hover

/-- Settles O50: the tenures by their jobs, and the ends of the phases by the faults found. -/
theorem loadPhases2And3 : Obligations.LoadPhases2And3 := by
  refine ⟨fun s => ⟨fun k hk h => ?_, fun hq hl hp hi => ?_⟩,
    fun s => ⟨fun h => ?_, fun h hp => ?_, fun w r hq hl hp hi hx => ?_⟩⟩
  · have hpick : (Job.nodeTable k = .nodeTable 0 || Job.nodeTable k = .nodeTable 1) = true := by
      obtain rfl | rfl : k = 0 ∨ k = 1 := by omega
      · rfl
      · rfl
    have hblock : ∀ j : Job, (j = .nodeTable 0 || j = .nodeTable 1) = true → j.block = .lcc := by
      intro j hj
      simp only [Bool.or_eq_true, decide_eq_true_eq] at hj
      rcases hj with rfl | rfl <;> rfl
    obtain ⟨ht, hg⟩ := s.tenure_granted (.nodeTable k) (fun _ j => j = .nodeTable 0 || j = .nodeTable 1)
      Chip.phase2Body [.lcc] h hpick hblock (Chip.same_phase2Body _ _ _) (by decide)
    refine ⟨_, (exec_loadPhase2_tenure s _ h rfl).trans ht, hg, Chip.runs_granted (.nodeTable k) [] _ _ rfl rfl rfl, ?_⟩
    have hwords := congrArg Lcc.nodeWords
      (Chip.lcc_granted ((s.chip.atGrant (.nodeTable k)).phase2Body s.mem (.nodeTable k)))
    exact hwords
  · obtain ⟨t, ht, hh, hlife, hphase, himage, hfaults, hreq⟩ := s.phase2_end hq hl hp hi
    exact ⟨t, ht, hh, hlife, hphase, himage, by rw [hfaults]; exact s.chip.nodeTable_fault, hreq⟩
  · obtain ⟨ht, hg⟩ := s.tenure_granted .logIndexes phase3Pick Chip.phase3Body [.lcc] h rfl
      (fun j hj => phase3Pick_block _ j hj)
      (by intro x hx; cases x <;> first | exact absurd (by decide) hx | rfl | exact ⟨rfl, rfl⟩) (by decide)
    refine ⟨_, (exec_loadPhase3_tenure s _ h rfl).trans ht, hg, Chip.runs_granted .logIndexes [] _ _ rfl rfl rfl, ?_⟩
    have hindexes := congrArg Lcc.logIndexes
      (Chip.lcc_granted ((s.chip.atGrant .logIndexes).phase3Body s.mem .logIndexes))
    exact hindexes
  · obtain ⟨ht, hg⟩ := s.tenure_granted .faultSet phase3Pick Chip.phase3Body [.tenure] h
      (by simpa [phase3Pick] using hp) (fun j hj => phase3Pick_block _ j hj) (Chip.same_writeStation _ _ _) (by decide)
    exact ⟨_, (exec_loadPhase3_tenure s _ h rfl).trans ht, ⟨hg.1, hg.2.1, hg.2.2.mono (by decide)⟩,
      Chip.runs_granted .faultSet _ _ _ rfl rfl rfl⟩
  · exact s.phase3_end w r hq hl hp hi hx

end Sys2Proof.Machine
end

section
/-! The tests of phase 1 against the profile's words (O60). -/

namespace Sys2Proof.Machine

/-! ### The set of faults, fault by fault -/

/-- The test of phase 1 for each fault of a profile whose signature is good (R27, R28). -/
def Profile.fails (p : Profile) : LoadFault → Bool
  | .regionOverlap => p.placedTables.any fun s => p.placedTables.any fun t => p.tablesOverlap s t
  | .regionRange => p.regionFails
  | .countRange => p.countFails
  | .timingRange => p.timingFails
  | .attempts => p.attemptsFail
  | .fallbackSource => !within 1 64 (p.num 28 16 7)
  | .guardRegion => (List.range 8).any fun g => p.guardFails g
  | .reserve => p.reserveFails
  | .signature | .nodeTable | .logState => false

theorem LoadFault.bitIndex_lt (f : LoadFault) : f.bitIndex < 11 := by cases f <;> decide

/-- With a good signature, the bit of a fault is there exactly when its test fails. -/
theorem Profile.getLsbD_faults (p : Profile) (f : LoadFault) (h : p.word 0 = Config.signature) :
    p.faults.getLsbD f.bitIndex = p.fails f := by
  have hf : p.faults = p.fieldFaults := if_pos h
  simp only [hf, Profile.fieldFaults, BitVec.getLsbD_or, LoadFault.getLsbD_setIf _ _ _ f.bitIndex_lt]
  cases f <;> simp [LoadFault.bitIndex, Profile.fails]

/-- A bad signature is the only fault. -/
theorem Profile.faults_of_bad_signature (p : Profile) (h : p.word 0 ≠ Config.signature) : p.faults = 1 := if_neg h

/-! ### Ranges and extents -/

theorem within_eq_false_iff (lo hi n : Nat) : (!within lo hi n) = true ↔ n < lo ∨ hi < n := by
  simp only [within, Bool.not_and, Bool.or_eq_true, Bool.not_eq_true', decide_eq_false_iff_not, Nat.not_le]

theorem overlaps_iff (b1 s1 b2 s2 : Nat) :
    overlaps b1 s1 b2 s2 = true ↔ b1 < b2 + s2 ∧ b2 < b1 + s1 ∧ 0 < s1 ∧ 0 < s2 := by
  simp only [overlaps, Bool.and_eq_true, decide_eq_true_eq, and_assoc]

theorem capacities_eq : capacities = (List.range 8).map fun i => 2 ^ (8 + i) := by decide

/-- The capacities are the powers of two from 256 to 32,768. -/
theorem capacities_contains_iff (n : Nat) : capacities.contains n = true ↔ ∃ k, 8 ≤ k ∧ k ≤ 15 ∧ n = 2 ^ k := by
  rw [List.contains_iff_mem, capacities_eq, List.mem_map]
  constructor
  · rintro ⟨i, hi, rfl⟩
    have hlt := List.mem_range.1 hi
    exact ⟨8 + i, by omega, by omega, rfl⟩
  · rintro ⟨k, hlo, hhi, rfl⟩
    exact ⟨k - 8, List.mem_range.2 (by omega), congrArg (2 ^ ·) (by omega)⟩

/-- A table whose count has not failed is not empty. -/
theorem Profile.extent_pos (p : Profile) (t : Table) (h : p.countValid t = true) : 0 < p.extent t := by
  have hcount : 0 < p.count t := by
    cases t with
    | channelMap | subscribers => exact of_decide_eq_true (Bool.and_eq_true _ _ ▸ h).1
    | nodes | outages => exact Nat.succ_pos _
    | chargeLog =>
      obtain ⟨k, -, -, hk⟩ := (capacities_contains_iff _).1 h
      rw [hk]
      exact Nat.two_pow_pos k
  exact Nat.mul_pos (by cases t <;> decide) hcount

theorem mem_allTables (t : Table) : t ∈ allTables := by cases t <;> decide

theorem Profile.mem_placedTables (p : Profile) (t : Table) : t ∈ p.placedTables ↔ p.countValid t = true := by
  rw [Profile.placedTables, List.mem_filter]
  exact and_iff_right (mem_allTables t)

/-! ### The region tests (R28) -/

theorem Profile.regionOverlap_iff (p : Profile) :
    p.fails .regionOverlap = true ↔ ∃ t u, t ≠ u ∧ p.countValid t = true ∧ p.countValid u = true ∧
      p.base t < p.base u + p.extent u ∧ p.base u < p.base t + p.extent t := by
  simp only [Profile.fails, List.any_eq_true, Profile.mem_placedTables, Profile.tablesOverlap, Bool.and_eq_true,
    bne_iff_ne, overlaps_iff]
  constructor
  · rintro ⟨t, ht, u, hu, hne, h1, h2, -⟩
    exact ⟨t, u, hne, ht, hu, h1, h2⟩
  · rintro ⟨t, u, hne, ht, hu, h1, h2⟩
    exact ⟨t, ht, u, hu, hne, h1, h2, p.extent_pos t ht, p.extent_pos u hu⟩

/-- A rights code of two bits read as a number. -/
theorem fieldNat_eq_three_iff (w : Word) (lo : Nat) : fieldNat w lo 2 = 3 ↔ field w lo 2 = 3 :=
  BitVec.toNat_inj (x := field w lo 2) (y := 3)

/-- The ten codes of word 9 are the rights of the two ports to the five tables (R9). -/
theorem Profile.rightCode_three_iff (p : Profile) :
    (∃ t, p.rightCode t .a = 3 ∨ p.rightCode t .b = 3) ↔ ∃ k, k < 10 ∧ p.num 9 (2 * k) 2 = 3 := by
  have hcode : ∀ t port k, t.rightsBit + (if port = Port.a then 0 else 2) = 2 * k →
      (p.rightCode t port = 3 ↔ p.num 9 (2 * k) 2 = 3) := by
    intro t port k hk
    rw [Profile.num, fieldNat_eq_three_iff, ← hk]
    rfl
  constructor
  · rintro ⟨t, h | h⟩
    · exact ⟨t.rightsBit / 2, by cases t <;> decide, (hcode t .a _ (by cases t <;> rfl)).1 h⟩
    · exact ⟨t.rightsBit / 2 + 1, by cases t <;> decide, (hcode t .b _ (by cases t <;> rfl)).1 h⟩
  · rintro ⟨k, hk, h⟩
    have hplaces : ∀ k < 10, ∃ t ∈ allTables, ∃ port ∈ [Port.a, Port.b],
        t.rightsBit + (if port = Port.a then 0 else 2) = 2 * k := by decide
    obtain ⟨t, -, port, -, hbit⟩ := hplaces k hk
    have hthree := (hcode t port k hbit).2 h
    cases port with
    | a => exact ⟨t, Or.inl hthree⟩
    | b => exact ⟨t, Or.inr hthree⟩

theorem Profile.regionRange_iff (p : Profile) :
    p.fails .regionRange = true ↔ (∃ t : Table, p.base t % t.recordSize ≠ 0) ∨
      (∃ t, p.countValid t = true ∧ (p.base t < 0x400 ∨ p.testSize < p.base t + p.extent t)) ∨
      ∃ k, k < 10 ∧ p.num 9 (2 * k) 2 = 3 := by
  rw [← p.rightCode_three_iff]
  simp only [Profile.fails, Profile.regionFails, Bool.or_eq_true, List.any_eq_true, Profile.mem_placedTables,
    Profile.misaligned, Profile.misplaced, decide_eq_true_eq, mem_allTables, true_and, or_assoc, exists_or]
  exact or_congr_right (by rw [← or_assoc, or_comm])

/-! ### The guard regions (R28) -/

theorem Profile.guardFails_iff (p : Profile) (g : Nat) :
    p.guardFails g = true ↔ p.guardOn g = true ∧
      (p.guardSize g = 0 ∨ p.testSize < p.guardBase g + p.guardSize g ∨ p.guardBase g = 0 ∨
        (∃ t, p.countValid t = true ∧ p.base t < p.guardBase g + p.guardSize g ∧
          p.guardBase g < p.base t + p.extent t ∧ p.guardSize g ≠ 0) ∨
        (∃ h, h < 8 ∧ h ≠ g ∧ p.guardOn h = true ∧ p.guardSize h ≠ 0 ∧ p.guardBase h < p.guardBase g + p.guardSize g ∧
          p.guardBase g < p.guardBase h + p.guardSize h) ∨
        p.num (11 + 2 * g) 16 2 = 3 ∨ p.num (11 + 2 * g) 18 2 = 3) := by
  have htables : (∃ t, p.countValid t = true ∧ overlaps (p.guardBase g) (p.guardSize g) (p.base t) (p.extent t) = true) ↔
      ∃ t, p.countValid t = true ∧ p.base t < p.guardBase g + p.guardSize g ∧
        p.guardBase g < p.base t + p.extent t ∧ p.guardSize g ≠ 0 := by
    refine exists_congr fun t => and_congr_right fun ht => ?_
    have hpos := p.extent_pos t ht
    rw [overlaps_iff]
    omega
  have hguards (hsize : p.guardSize g ≠ 0) : (∃ h, h < 8 ∧ (h ≠ g ∧ p.guardOn h = true) ∧
        overlaps (p.guardBase g) (p.guardSize g) (p.guardBase h) (p.guardSize h) = true) ↔
      ∃ h, h < 8 ∧ h ≠ g ∧ p.guardOn h = true ∧ p.guardSize h ≠ 0 ∧ p.guardBase h < p.guardBase g + p.guardSize g ∧
        p.guardBase g < p.guardBase h + p.guardSize h := by
    refine exists_congr fun h => and_congr_right fun _ => ?_
    rw [overlaps_iff, and_assoc]
    refine and_congr_right fun _ => and_congr_right fun _ => ?_
    omega
  have hcodeA : p.guardCode g .a = 3 ↔ p.num (11 + 2 * g) 16 2 = 3 := (fieldNat_eq_three_iff _ _).symm
  have hcodeB : p.guardCode g .b = 3 ↔ p.num (11 + 2 * g) 18 2 = 3 := (fieldNat_eq_three_iff _ _).symm
  simp only [Profile.guardFails, Bool.and_eq_true, Bool.or_eq_true, decide_eq_true_eq, List.any_eq_true,
    Profile.mem_placedTables, List.mem_range, bne_iff_ne, htables, hcodeA, hcodeB, or_assoc]
  by_cases hsize : p.guardSize g = 0
  · simp only [hsize, true_or]
  · rw [hguards hsize]

/-! ### The field tests (R27) -/

theorem Profile.sizeValid_eq_false_iff (p : Profile) :
    (!p.sizeValid) = true ↔ p.num 1 8 5 < 1 ∨ 16 < p.num 1 8 5 :=
  within_eq_false_iff 1 16 _

theorem Profile.countValid_capacity_iff (p : Profile) :
    p.countValid .chargeLog = true ↔ ¬∀ k, 8 ≤ k → k ≤ 15 → p.num 8 0 16 ≠ 2 ^ k := by
  refine (capacities_contains_iff (p.num 8 0 16)).trans ?_
  push Not
  rfl

theorem Profile.counted_iff (p : Profile) (t : Table) :
    p.countValid t = true ↔ match t with
      | .channelMap => ¬(p.num 2 24 8 < 1 ∨ 96 < p.num 2 24 8)
      | .subscribers => ¬(p.num 4 0 13 < 1 ∨ 4096 < p.num 4 0 13)
      | .chargeLog => ¬∀ k, 8 ≤ k → k ≤ 15 → p.num 8 0 16 ≠ 2 ^ k
      | _ => True := by
  have hrange (hi n : Nat) : (decide (1 ≤ n) && decide (n ≤ hi)) = true ↔ ¬(n < 1 ∨ hi < n) := by
    rw [Bool.and_eq_true, decide_eq_true_iff, decide_eq_true_iff]
    omega
  cases t with
  | channelMap | subscribers => exact hrange _ _
  | nodes | outages => exact iff_of_true rfl trivial
  | chargeLog => exact p.countValid_capacity_iff

theorem Profile.countRange_iff (p : Profile) :
    p.fails .countRange = true ↔ (p.num 1 8 5 < 1 ∨ 16 < p.num 1 8 5) ∨ (p.num 2 24 8 < 1 ∨ 96 < p.num 2 24 8) ∨
      (p.num 4 0 13 < 1 ∨ 4096 < p.num 4 0 13) ∨ (∀ k, 8 ≤ k → k ≤ 15 → p.num 8 0 16 ≠ 2 ^ k) ∨
      ¬(within 1 8 p.minAttempts = true ∧ within 1 8 p.maxAttempts = true) ∨
      (p.num 27 16 3 < 1 ∨ 4 < p.num 27 16 3) ∨ (p.num 28 8 3 < 1 ∨ 4 < p.num 28 8 3) := by
  have hcounts : (∃ t : Table, (!p.countValid t) = true) ↔ (p.num 2 24 8 < 1 ∨ 96 < p.num 2 24 8) ∨
      (p.num 4 0 13 < 1 ∨ 4096 < p.num 4 0 13) ∨ ∀ k, 8 ≤ k → k ≤ 15 → p.num 8 0 16 ≠ 2 ^ k := by
    have hnot (t : Table) : (!p.countValid t) = true ↔ ¬p.countValid t = true := by simp
    simp only [hnot]
    constructor
    · rintro ⟨t, ht⟩
      rw [p.counted_iff t] at ht
      cases t with
      | channelMap => exact Or.inl (not_not.1 ht)
      | subscribers => exact Or.inr (Or.inl (not_not.1 ht))
      | nodes | outages => exact absurd trivial ht
      | chargeLog => exact Or.inr (Or.inr (not_not.1 ht))
    · rintro (h | h | h)
      · exact ⟨.channelMap, fun hv => (p.counted_iff _).1 hv h⟩
      · exact ⟨.subscribers, fun hv => (p.counted_iff _).1 hv h⟩
      · exact ⟨.chargeLog, fun hv => (p.counted_iff _).1 hv h⟩
  have hattempts : ¬(within 1 8 p.minAttempts = true ∧ within 1 8 p.maxAttempts = true) ↔
      (!within 1 8 p.minAttempts) = true ∨ (!within 1 8 p.maxAttempts) = true := by
    rw [not_and_or]
    simp
  rw [hattempts, ← p.sizeValid_eq_false_iff, ← within_eq_false_iff 1 4, ← within_eq_false_iff 1 4]
  simp only [Profile.fails, Profile.countFails, Bool.or_eq_true, List.any_eq_true, mem_allTables, true_and, hcounts, or_assoc]

theorem Profile.timingRange_iff (p : Profile) :
    p.fails .timingRange = true ↔ (p.num 27 0 8 < 10 ∨ 200 < p.num 27 0 8) ∨ (p.num 28 0 8 < 10 ∨ 100 < p.num 28 0 8) ∨
      p.num 29 0 8 = 0 ∨ 1440 < p.num 30 16 11 := by
  rw [← within_eq_false_iff, ← within_eq_false_iff]
  simp only [Profile.fails, Profile.timingFails, Bool.or_eq_true, decide_eq_true_eq, or_assoc]

theorem Profile.attempts_iff (p : Profile) :
    p.fails .attempts = true ↔ (within 1 8 p.minAttempts = true ∧ within 1 8 p.maxAttempts = true) ∧
      p.num 27 12 4 < p.num 27 8 4 := by
  rw [Profile.fails, Profile.attemptsFail, Bool.and_eq_true, Bool.and_eq_true, decide_eq_true_iff]
  rfl

theorem Profile.reserve_iff (p : Profile) :
    p.fails .reserve = true ↔ 1024 < p.num 30 0 11 ∨
      ((¬∀ k, 8 ≤ k → k ≤ 15 → p.num 8 0 16 ≠ 2 ^ k) ∧ p.num 8 0 16 ≤ 2 * p.num 30 0 11) := by
  rw [Profile.fails, Profile.reserveFails, Bool.or_eq_true, Bool.and_eq_true, p.countValid_capacity_iff,
    decide_eq_true_iff, decide_eq_true_iff]
  rfl

theorem Profile.guardRegion_iff (p : Profile) :
    p.fails .guardRegion = true ↔ ∃ g, g < 8 ∧ p.guardFails g = true := by
  simp only [Profile.fails, List.any_eq_true, List.mem_range]

theorem Profile.testSize_eq (p : Profile) :
    p.testSize = 1048576 * (if 1 ≤ p.num 1 8 5 ∧ p.num 1 8 5 ≤ 16 then p.num 1 8 5 else 16) := by
  have hvalid : p.sizeValid = true ↔ 1 ≤ p.num 1 8 5 ∧ p.num 1 8 5 ≤ 16 := by
    rw [Profile.sizeValid, Bool.and_eq_true, decide_eq_true_iff, decide_eq_true_iff]
    rfl
  simp only [Profile.testSize, hvalid]
  rfl

/-! ### The statement -/

/-- Settles O60: the bit of each fault is its test, and each test reads the profile's words. -/
theorem profileFaultsAreFound : Obligations.ProfileFaultsAreFound := by
  intro p w num out bit1 size base extent record capacityFails counted attempts guardOn guardBase guardSize
  have hbase (t : Table) : base t = p.base t := by cases t <;> rfl
  have hextent (t : Table) : extent t = p.extent t := by cases t <;> rfl
  have hrecord (t : Table) : record t = t.recordSize := by cases t <;> rfl
  have hcounted (t : Table) : counted t ↔ p.countValid t = true := by
    rw [p.counted_iff t]
    cases t <;> rfl
  have hsize : size = p.testSize := p.testSize_eq.symm
  have hattempts : attempts ↔ within 1 8 p.minAttempts = true ∧ within 1 8 p.maxAttempts = true := by
    have hrange (n : Nat) : within 1 8 n = true ↔ ¬(n < 1 ∨ 8 < n) := by
      rw [← within_eq_false_iff, Bool.not_eq_true', Bool.not_eq_false]
    rw [hrange, hrange]
    rfl
  refine ⟨p.faults_of_bad_signature, fun h => ?_⟩
  have hbit (f : LoadFault) : bit1 f.bitIndex ↔ p.fails f = true := by rw [← p.getLsbD_faults f h]
  simp only [hbase, hextent, hrecord, hcounted, hsize, hattempts]
  refine ⟨fun h0 => ?_, fun h9 => ?_, fun h10 => ?_, (hbit .regionOverlap).trans p.regionOverlap_iff,
    (hbit .regionRange).trans p.regionRange_iff, (hbit .countRange).trans p.countRange_iff,
    (hbit .timingRange).trans p.timingRange_iff, (hbit .attempts).trans p.attempts_iff,
    (hbit .fallbackSource).trans (within_eq_false_iff 1 64 _),
    (hbit .guardRegion).trans (p.guardRegion_iff.trans (exists_congr fun g => and_congr_right fun _ => p.guardFails_iff g)),
    (hbit .reserve).trans p.reserve_iff⟩
  · exact Bool.false_ne_true ((hbit .signature).1 h0)
  · exact Bool.false_ne_true ((hbit .nodeTable).1 h9)
  · exact Bool.false_ne_true ((hbit .logState).1 h10)

end Sys2Proof.Machine
end

section
/-! STOP (O18): the entry into STOPPING, step by step, and what it and the entry into STOPPED that may follow leave. -/

namespace Sys2Proof.Machine

/-! ### The take is cancelled (R73) -/

/-- An entry that a cancelled take leaves. -/
def Entry.cancelled (take : TakeState) (e : Entry) : Entry :=
  if take = .applying ∧ e.cls = some .take then
    if e.route = .pending then { e with route := .settled, cls := none, dirty := true }
    else if e.route = .inFlight then { e with cls := none, dirty := true }
    else e
  else e

theorem Chip.same_endTake_few (r : TakeResult) (l : List Nat) (c : Chip) :
    Chip.Same [.lue, .rpu, .statusMark] c (c.endTake r l) := by
  unfold Chip.endTake Chip.oweRoute
  split
  · refine Chip.Same.then ?_ ((Chip.same_raise _ _).mono (by decide))
    intro x hx; cases x <;> first | exact absurd (by decide) hx | rfl | exact ⟨rfl, rfl⟩
  · intro x hx; cases x <;> first | exact absurd (by decide) hx | rfl | exact ⟨rfl, rfl⟩

/-- The end of a take leaves the entries and the order. -/
theorem Chip.lue_endTake (r : TakeResult) (l : List Nat) (c : Chip) :
    (c.endTake r l).lue.take = .idle ∧ (c.endTake r l).lue.order = c.lue.order ∧
      (c.endTake r l).lue.entries = c.lue.entries := by
  unfold Chip.endTake Chip.oweRoute
  split
  · exact ⟨rfl, rfl, rfl⟩
  · exact ⟨rfl, rfl, rfl⟩

theorem Chip.cancelTake_idle (c : Chip) (h : c.lue.take = .idle) : c.cancelTake = c := if_neg (by rw [h]; decide)

theorem Chip.same_cancelTake_few (c : Chip) : Chip.Same [.lue, .rpu, .statusMark] c c.cancelTake := by
  unfold Chip.cancelTake
  split
  · refine Chip.Same.then ?_ (Chip.same_endTake_few _ _ _)
    intro x hx; cases x <;> first | exact absurd (by decide) hx | rfl | exact ⟨rfl, rfl⟩
  · exact .refl _ c

theorem Chip.lue_cancelTake (c : Chip) : c.cancelTake.lue.take = .idle ∧ c.cancelTake.lue.order = c.lue.order ∧
    c.cancelTake.lue.entries = c.lue.entries.map (Entry.cancelled c.lue.take) := by
  by_cases h : c.lue.take = .applying
  · unfold Chip.cancelTake
    rw [if_pos h]
    obtain ⟨htake, horder, hentries⟩ := Chip.lue_endTake .cancelled _ _
    refine ⟨htake, horder, hentries.trans (List.map_congr_left fun e _ => ?_)⟩
    simp only [Entry.cancelled, h, true_and, Entry.pendingWith, Entry.touch, Bool.and_eq_true, decide_eq_true_eq]
    by_cases hcls : e.cls = some .take
    · simp [hcls]
    · simp [hcls]
  · have hidle : c.lue.take = .idle := by
      cases ht : c.lue.take with
      | idle => rfl
      | applying => exact absurd ht h
    rw [c.cancelTake_idle hidle]
    refine ⟨hidle, rfl, (List.map_id _).symm.trans (List.map_congr_left fun e _ => ?_)⟩
    simp [Entry.cancelled, hidle]

/-! ### Fallback ends outside RUNNING (R70) -/

/-- An entry as a fallback start or end asks for its route. -/
def Entry.fallbackAsked (e : Entry) : Entry := if bit e.w0 13 = true then e.asked .fallback else e

/-- The part with other entries in the line-up. -/
def Chip.withEntries (l : List Entry) (c : Chip) : Chip := { c with lue := { c.lue with entries := l } }

/-- With no take applying, a request is a change of its entry alone. -/
theorem Chip.routeRequest_idle (k : RouteClass) (i : Nat) (c : Chip) (h : c.lue.take = .idle) :
    c.routeRequest k i = c.withEntries (c.lue.entries.modify i fun e => e.asked k) := by
  have hrequest : (fun e : Entry => e.request k) = fun e => e.asked k := funext fun e => e.request_eq_asked k
  have hcheck : c.routeRequest k i = { c with lue := c.lue.modify i fun e => e.request k } := if_neg fun hx => by
    have htake : c.lue.take = .applying := hx.1
    rw [h] at htake
    cases htake
  rw [hcheck, hrequest]
  rfl

/-- Changing every element in turn changes them all. -/
theorem foldl_modify_range {α : Type} (f : α → α) (l : List α) :
    (List.range l.length).foldl (fun l i => l.modify i f) l = l.map f := by
  have key : ∀ n j : Nat, ((List.range n).foldl (fun l i => l.modify i f) l)[j]? =
      if j < n then l[j]?.map f else l[j]? := by
    intro n
    induction n with
    | zero => exact fun j => rfl
    | succ n ih =>
      intro j
      rw [List.range_succ, List.foldl_append, List.foldl_cons, List.foldl_nil, List.getElem?_modify, ih]
      rcases Nat.lt_trichotomy j n with hj | rfl | hj
      · simp [hj, hj.ne', Nat.lt_succ_of_lt hj]
      · simp
      · simp [hj.ne, Nat.not_lt_of_lt hj, Nat.not_lt_of_le hj]
  apply List.ext_getElem?
  intro j
  rw [key, List.getElem?_map]
  split
  · rfl
  · rename_i hj
    rw [List.getElem?_eq_none (by omega)]
    rfl

/-- One step of a fallback start or end. -/
def Chip.fallbackStep (c : Chip) (i : Nat) : Chip :=
  match c.lue.entries[i]? with
  | some e => if e.fallbackFlag then c.routeRequest .fallback i else c
  | none => c

theorem Chip.fallbackRequests_eq (c : Chip) :
    c.fallbackRequests = ((List.range c.lue.entries.length).foldl Chip.fallbackStep c).serveRoutes := rfl

/-- Changes of one element agree when they agree on it. -/
theorem modify_congr_at {α : Type} (f g : α → α) (l : List α) (i : Nat) (h : ∀ x, l[i]? = some x → f x = g x) :
    l.modify i f = l.modify i g := by
  apply List.ext_getElem?
  intro j
  rw [List.getElem?_modify, List.getElem?_modify]
  by_cases hij : i = j
  · subst hij
    cases hi : l[i]? with
    | none => rfl
    | some x => simp [h x hi]
  · simp [hij]

/-- With no take applying, the step asks for the entry where its flag is set. -/
theorem Chip.fallbackStep_idle (i : Nat) (c : Chip) (h : c.lue.take = .idle) :
    c.fallbackStep i = c.withEntries (c.lue.entries.modify i Entry.fallbackAsked) := by
  have hkeep (he : ∀ e, c.lue.entries[i]? = some e → e.fallbackAsked = e) :
      c = c.withEntries (c.lue.entries.modify i Entry.fallbackAsked) := by
    rw [modify_congr_at Entry.fallbackAsked id _ i he, List.modify_id]
    rfl
  unfold Chip.fallbackStep
  split
  · rename_i e hi
    split
    · rename_i hf
      rw [c.routeRequest_idle .fallback i h]
      refine congrArg (fun l => c.withEntries l) (modify_congr_at _ _ _ i fun e' he => ?_)
      obtain rfl := Option.some.inj (hi.symm.trans he)
      exact (if_pos hf).symm
    · rename_i hf
      refine hkeep fun e' he => ?_
      obtain rfl := Option.some.inj (hi.symm.trans he)
      exact if_neg hf
  · rename_i hi
    exact hkeep fun e he => by rw [hi] at he; cases he

theorem Chip.foldl_fallbackStep_idle (l : List Nat) (c : Chip) (h : c.lue.take = .idle) :
    l.foldl Chip.fallbackStep c =
      c.withEntries (l.foldl (fun es i => es.modify i Entry.fallbackAsked) c.lue.entries) := by
  induction l generalizing c with
  | nil => rfl
  | cons i l ih =>
    rw [List.foldl_cons, List.foldl_cons, c.fallbackStep_idle i h]
    exact ih (c.withEntries (c.lue.entries.modify i Entry.fallbackAsked)) h

/-- With no take applying and the link not served, a fallback start or end is a change of the flagged entries alone. -/
theorem Chip.fallbackRequests_idle (c : Chip) (h : c.lue.take = .idle)
    (hs : c.lue.order.isSome = true ∨ c.lcc.lifecycle ≠ .running) :
    c.fallbackRequests = c.withEntries (c.lue.entries.map Entry.fallbackAsked) := by
  rw [c.fallbackRequests_eq, c.foldl_fallbackStep_idle _ h, foldl_modify_range]
  exact Chip.serveRoutes_busy _ hs

/-- Outside RUNNING, with no take applying, the heartbeat's way out of EXPIRED asks for the flagged routes and sends none. -/
theorem Chip.heartbeatTo_idle (h : Heartbeat) (deadline : Option Tick) (c : Chip) (ht : c.lue.take = .idle)
    (hl : c.lcc.lifecycle ≠ .running) :
    Chip.Same [.tbu, .lue, .statusMark] c (c.heartbeatTo h deadline) ∧
      (c.heartbeatTo h deadline).lue =
        { c.lue with entries := if c.fallback = true then c.lue.entries.map Entry.fallbackAsked else c.lue.entries } := by
  have hmark := Chip.same_marking c { c with tbu := { c.tbu with heartbeat := h, deadline := deadline } }
  have hset : Chip.Same [.tbu, .lue, .statusMark] c
      (Chip.marking c { c with tbu := { c.tbu with heartbeat := h, deadline := deadline } }) := by
    refine Chip.Same.then ?_ (hmark.mono (by decide))
    intro x hx; cases x <;> first | exact absurd (by decide) hx | rfl | exact ⟨rfl, rfl⟩
  have hlue : (Chip.marking c { c with tbu := { c.tbu with heartbeat := h, deadline := deadline } }).lue = c.lue :=
    hmark .lue (by decide)
  unfold Chip.heartbeatTo
  dsimp only
  split
  · rw [Chip.fallbackRequests_idle _ (by rw [hlue]; exact ht) (Or.inr (by rw [hset.lccItems.1]; exact hl)), hlue]
    refine ⟨hset.then ?_,
      congrArg (fun x : Lue => { x with entries := c.lue.entries.map Entry.fallbackAsked }) hlue⟩
    intro x hx; cases x <;> first | exact absurd (by decide) hx | rfl | exact ⟨rfl, rfl⟩
  · exact ⟨hset, hlue⟩

/-! ### The sweep queue (R134) -/

theorem Chip.waitsForSpace_iff (c : Chip) : c.waitsForSpace = true ↔ c.owes .spaceWait := by
  unfold Chip.waitsForSpace Chip.owes
  cases c.tau.running with
  | none => simp
  | some x => simp

/-- What is left of the sweeps: the active one, if it has asked for a tenure that is not one of a sweep in LOG_WAIT. -/
theorem Chip.swe_stopSweeps (c : Chip) :
    (c.outstanding .swe = false ∨ c.owes .spaceWait → c.stopSweeps.swe = ⟨[], none⟩) ∧
    (c.outstanding .swe = true → ¬c.owes .spaceWait →
      c.stopSweeps.swe = { c.swe with queue := c.swe.queue.filter fun e => e.active }) := by
  rw [← c.waitsForSpace_iff]
  unfold Chip.stopSweeps
  refine ⟨fun h => ?_, fun h hw => ?_⟩
  · rw [if_neg (by rcases h with h | h <;> simp [h])]
    exact c.swe_sweepOff []
  · rw [if_pos (by simp [h, hw])]

/-! ### Entry into STOPPING (R32) -/

/-- The part that a STOP leaves before the heartbeat is disarmed. -/
def Chip.runningLeft (c : Chip) : Chip :=
  Chip.markStatus { c.cancelTake with
    lcc := { c.cancelTake.lcc with lifecycle := .stopping }
    slm := c.cancelTake.slm.stopTracking
    clu := { c.cancelTake.clu with
      close := if c.cancelTake.clu.close = .waiting then .none else c.cancelTake.clu.close } }

theorem Chip.beginStopping_eq (c : Chip) : c.beginStopping = (c.runningLeft.heartbeatTo .disarmed none).stopSweeps := rfl

theorem Chip.same_runningLeft (c : Chip) : Chip.Same [.lcc, .lue, .slm, .clu, .rpu, .statusMark] c c.runningLeft := by
  refine Chip.Same.then (c.same_cancelTake_few.mono (by decide)) ?_
  intro x hx; cases x <;> first | exact absurd (by decide) hx | rfl | exact ⟨rfl, rfl⟩

theorem Chip.disarmed_runningLeft (c : Chip) :
    Chip.Same [.tbu, .lue, .statusMark] c.runningLeft (c.runningLeft.heartbeatTo .disarmed none) ∧
      (c.runningLeft.heartbeatTo .disarmed none).lue = { c.cancelTake.lue with
        entries := if c.fallback = true then c.cancelTake.lue.entries.map Entry.fallbackAsked
          else c.cancelTake.lue.entries } := by
  have hfallback : c.runningLeft.fallback = c.fallback :=
    congrArg (fun x : Tbu => decide (x.heartbeat = .expired)) (c.same_runningLeft .tbu (by decide))
  rw [← hfallback]
  exact c.runningLeft.heartbeatTo_idle .disarmed none c.lue_cancelTake.1 Lifecycle.noConfusion

/-- What is not the heartbeat, the line-up or the sweeps is as the STOP left it before them. -/
theorem Chip.beginStopping_runningLeft (c : Chip) :
    Chip.Same [.tbu, .lue, .swe, .statusMark] c.runningLeft c.beginStopping :=
  (c.disarmed_runningLeft.1.mono (by decide)).then ((Chip.same_stopSweeps _).mono (by decide))

/-- Entry into STOPPING leaves the TOE, the links, the purchases and what is to come of the jobs. -/
theorem Chip.same_beginStopping_few (c : Chip) :
    Chip.Same [.lcc, .tbu, .lue, .slm, .swe, .clu, .rpu, .statusMark] c c.beginStopping :=
  (c.same_runningLeft.mono (by decide)).then (c.beginStopping_runningLeft.mono (by decide))

theorem Chip.lcc_beginStopping (c : Chip) : c.beginStopping.lcc = { c.lcc with lifecycle := .stopping } := by
  rw [c.beginStopping_runningLeft.lcc, ← c.same_cancelTake_few.lcc]
  rfl

theorem Chip.slm_beginStopping (c : Chip) : c.beginStopping.slm = c.slm.stopTracking := by
  rw [c.beginStopping_runningLeft.slm, ← c.same_cancelTake_few.slm]
  rfl

theorem Chip.clu_beginStopping (c : Chip) :
    c.beginStopping.clu = { c.clu with close := if c.clu.close = .waiting then .none else c.clu.close } := by
  rw [c.beginStopping_runningLeft.clu, ← c.same_cancelTake_few.clu]
  rfl

theorem Chip.tbu_beginStopping (c : Chip) :
    c.beginStopping.tbu = { c.tbu with heartbeat := .disarmed, deadline := none } := by
  have htbu : c.runningLeft.tbu = c.tbu := c.same_runningLeft .tbu (by decide)
  rw [c.beginStopping_eq, Chip.same_stopSweeps _ .tbu (by decide), Chip.tbu_heartbeatTo, htbu]

theorem Chip.lue_beginStopping (c : Chip) : c.beginStopping.lue = { c.cancelTake.lue with
    entries := if c.fallback = true then c.cancelTake.lue.entries.map Entry.fallbackAsked
      else c.cancelTake.lue.entries } :=
  (Chip.same_stopSweeps _ .lue (by decide)).trans c.disarmed_runningLeft.2

theorem Chip.lineUp_beginStopping (c : Chip) : c.beginStopping.lue.take = .idle ∧
    c.beginStopping.lue.order = c.lue.order ∧
    c.beginStopping.lue.entries = c.lue.entries.map fun e =>
      if c.fallback = true ∧ bit e.w0 13 = true then (e.cancelled c.lue.take).asked .fallback
      else e.cancelled c.lue.take := by
  obtain ⟨htake, horder, hentries⟩ := c.lue_cancelTake
  rw [c.lue_beginStopping]
  refine ⟨htake, horder, ?_⟩
  have hw0 (e : Entry) : (e.cancelled c.lue.take).w0 = e.w0 := by
    unfold Entry.cancelled
    repeat' split
    all_goals rfl
  dsimp only
  rw [hentries]
  cases c.fallback with
  | false => simp
  | true =>
    rw [if_pos rfl, List.map_map]
    refine List.map_congr_left fun e _ => ?_
    simp only [Function.comp_apply, Entry.fallbackAsked, hw0, true_and]

/-- With no take applying and no fallback the line-up stays as it is. -/
theorem Chip.lue_beginStopping_idle (c : Chip) (ht : c.lue.take = .idle) (hf : c.fallback = false) :
    c.beginStopping.lue = c.lue := by
  rw [c.lue_beginStopping, c.cancelTake_idle ht, if_neg (by simp [hf])]

theorem Chip.swe_beginStopping (c : Chip) :
    (c.outstanding .swe = false ∨ c.owes .spaceWait → c.beginStopping.swe = ⟨[], none⟩) ∧
    (c.outstanding .swe = true → ¬c.owes .spaceWait →
      c.beginStopping.swe = { c.swe with queue := c.swe.queue.filter fun e => e.active }) := by
  have hsame : Chip.Same [.lcc, .tbu, .lue, .slm, .clu, .rpu, .statusMark] c (c.runningLeft.heartbeatTo .disarmed none) :=
    (c.same_runningLeft.mono (by decide)).then (c.disarmed_runningLeft.1.mono (by decide))
  have hout := hsame.outstanding (by decide) .swe
  have hrunning : (c.runningLeft.heartbeatTo .disarmed none).tau.running = c.tau.running := hsame .tenure (by decide)
  have howes : (c.runningLeft.heartbeatTo .disarmed none).owes .spaceWait ↔ c.owes .spaceWait := by
    unfold Chip.owes
    rw [hrunning]
  have hswe : (c.runningLeft.heartbeatTo .disarmed none).swe = c.swe := hsame .swe (by decide)
  have hstop := (c.runningLeft.heartbeatTo .disarmed none).swe_stopSweeps
  rw [hout, howes, hswe] at hstop
  exact hstop

end Sys2Proof.Machine
end

section
/-! STOP (O18): what a block may still ask for in STOPPING, and what the command leaves in either state. -/

namespace Sys2Proof.Machine

/-! ### What the blocks still ask for (log 46) -/

theorem Slm.hasDirty_stopTracking (s : Slm) : s.stopTracking.hasDirty = s.hasDirty := by
  have hnodes : (s.stopTracking.nodes.any fun x => x.dirty) = s.nodes.any fun x => x.dirty := by
    simp only [Slm.stopTracking, List.any_map]
    rfl
  unfold Slm.hasDirty
  rw [hnodes]
  rfl

/-- With no take and no fallback to end, entry into STOPPING gives no block but the RPU a new need. -/
theorem Chip.wants_beginStopping (b : Block) (c : Chip) (hl : c.lcc.lifecycle = .running) (ht : c.lue.take = .idle)
    (hf : c.fallback = false) (hb : b ≠ .rpu) (hw : b ≠ .swe → c.wants b = none) : c.beginStopping.wants b = none := by
  have hlife : c.beginStopping.lcc.lifecycle = .stopping := congrArg Lcc.lifecycle c.lcc_beginStopping
  have hload (n : Nat) : c.loadingPhase n = false := by simp [Chip.loadingPhase, hl]
  have hload' (n : Nat) : c.beginStopping.loadingPhase n = false := by simp [Chip.loadingPhase, hlife]
  have hworking : c.working = true := by simp [Chip.working, hl]
  have hworking' : c.beginStopping.working = true := by simp [Chip.working, hlife]
  cases b with
  | lcc =>
    have hjobs : c.beginStopping.lcc.jobs = c.lcc.jobs := by rw [c.lcc_beginStopping]
    have hwants := hw (by decide)
    simp only [Chip.wants, hjobs] at hwants ⊢
    exact hwants
  | lue =>
    have hwants : c.lueWants = none := hw (by decide)
    have hlue : c.beginStopping.lueWants = c.lueWants := by
      simp only [Chip.lueWants, Chip.watched, hworking, hworking', hload, hload', c.lue_beginStopping_idle ht hf,
        Bool.or_true, Bool.false_and]
    exact hlue.trans hwants
  | toe =>
    have htoe : c.beginStopping.toe = c.toe := c.same_beginStopping_few .toe (by decide)
    have hwants : c.toeWants = none := hw (by decide)
    obtain ⟨htap, -, hevals⟩ := (c.toeWants_eq_none.1 hwants).1 hworking
    rw [Chip.tapWork_eq_none] at htap
    refine (Chip.toeWants_eq_none _).2 ⟨fun _ => ⟨?_, ?_, ?_⟩, fun h => ?_⟩
    · rw [Chip.tapWork_eq_none, htoe]
      exact htap
    · simp [Chip.sendAllowed, hlife]
    · rw [htoe]
      exact hevals
    · rw [hworking'] at h
      cases h
  | slm =>
    have hwants : c.slmWants = none := hw (by decide)
    have hslm : c.beginStopping.slmWants = c.slmWants := by
      simp only [Chip.slmWants, hworking, hworking', c.slm_beginStopping, Slm.hasDirty_stopTracking, Bool.true_or]
      rfl
    exact hslm.trans hwants
  | swe => exact if_neg (by simp [Chip.isRunning, hlife])
  | pcu =>
    have hpcu : c.beginStopping.pcu = c.pcu := c.same_beginStopping_few .pcu (by decide)
    have hwants := hw (by decide)
    simp only [Chip.wants, hpcu] at hwants ⊢
    exact hwants
  | clu =>
    have hwants : c.cluWants = none := hw (by decide)
    have hasked : (if c.clu.close = .waiting then CloseState.none else c.clu.close) = .asked ↔ c.clu.close = .asked := by
      cases c.clu.close <;> decide
    have hclu : c.beginStopping.cluWants = c.cluWants := by
      simp only [Chip.cluWants, c.clu_beginStopping, hasked]
    exact hclu.trans hwants
  | rpu => exact absurd rfl hb

/-- The three conditions of STOPPED, as the STOP finds them (R33). -/
theorem Chip.canStop_beginStopping_iff (c : Chip) : c.beginStopping.canStop = true ↔
    c.toe.flights = [] ∧ c.lue.order = none ∧ ¬∃ b, b ≠ .rpu ∧ c.outstanding b = true := by
  have hlife : c.beginStopping.lcc.lifecycle = .stopping := congrArg Lcc.lifecycle c.lcc_beginStopping
  have htoe : c.beginStopping.toe = c.toe := c.same_beginStopping_few .toe (by decide)
  rw [Chip.canStop_iff, htoe, c.lineUp_beginStopping.2.1, ← Bool.not_eq_true, Chip.workOutstanding_iff]
  simp only [hlife, c.same_beginStopping_few.outstanding, true_and]

/-- A STOP leads to STOPPING, or at once to STOPPED where its conditions hold and no block is about to ask. -/
theorem Chip.enterStopping_cases (c : Chip) :
    (c.beginStopping.canStop = true ∧ c.enterStopping = c.beginStopping.enterStopped) ∨
      (c.beginStopping.DoesNotStop ∧ c.enterStopping = c.beginStopping) := by
  by_cases h : c.beginStopping.DoesNotStop
  · exact Or.inr ⟨h, c.beginStopping.endStopping_of_doesNotStop h⟩
  · obtain ⟨hcan, hwork⟩ : c.beginStopping.canStop = true ∧ c.beginStopping.workWanted = false := by
      simpa [Chip.DoesNotStop] using h
    exact Or.inl ⟨hcan, if_pos (by rw [hcan, hwork]; rfl)⟩

/-! ### What the command leaves -/

/-- What a STOP taken in the part `c` leaves, STOPPING or STOPPED (R32, R33, R49, R70, R73, R134). -/
structure Chip.Stops (c d : Chip) : Prop where
  lifecycle : d.lcc.lifecycle = .stopping ∨ d.lcc.lifecycle = .stopped
  tbu : d.tbu = { c.tbu with heartbeat := .disarmed, deadline := none }
  take : d.lue.take = .idle
  order : d.lue.order = c.lue.order
  lastSample : d.slm.lastSample = none
  nodes : ∀ n ∈ d.slm.nodes, n.deadline = none
  close : d.clu.close ≠ .waiting
  sweeps : ∀ e ∈ d.swe.queue, e ∈ c.swe.queue ∧ e.active = true
  goesOn : c.toe.flights ≠ [] ∨ c.lue.order.isSome = true ∨ (∃ b, b ≠ .rpu ∧ c.outstanding b = true) →
    d.lcc.lifecycle = .stopping
  entries : d.lcc.lifecycle = .stopping → d.lue.entries = c.lue.entries.map fun e =>
    if c.fallback = true ∧ bit e.w0 13 = true then (e.cancelled c.lue.take).asked .fallback else e.cancelled c.lue.take
  sweepsOff : d.lcc.lifecycle = .stopping → c.outstanding .swe = false ∨ c.owes .spaceWait → d.swe = ⟨[], none⟩
  sweepKept : d.lcc.lifecycle = .stopping → c.outstanding .swe = true → ¬c.owes .spaceWait →
    d.swe = { c.swe with queue := c.swe.queue.filter fun e => e.active }
  stopped : c.toe.flights = [] → c.lue.order = none → c.lue.take = .idle → c.fallback = false →
    (∀ b, b ≠ .rpu → c.outstanding b = false ∧ (b ≠ .swe → c.wants b = none)) →
    d.lcc.lifecycle = .stopped ∧ d.toe.queue = [] ∧ d.toe.held = [] ∧ d.toe.deferred = [] ∧ d.toe.evals = [] ∧
      d.toe.blocked = false ∧ d.lue.entries = [] ∧ d.lue.eventMap = [] ∧ d.swe = ⟨[], none⟩ ∧ d.clu.reserved = 0 ∧
      d.clu.copy = c.clu.copy

theorem Chip.sweeps_beginStopping (c : Chip) :
    ∀ e ∈ c.beginStopping.swe.queue, e ∈ c.swe.queue ∧ e.active = true := by
  intro e he
  obtain ⟨hoff, hkept⟩ := c.swe_beginStopping
  by_cases h : c.outstanding .swe = false ∨ c.owes .spaceWait
  · rw [hoff h] at he
    cases he
  · obtain ⟨hout, howes⟩ := not_or.1 h
    rw [hkept (by simpa using hout) howes] at he
    exact List.mem_filter.1 he

/-- With nothing that keeps the part and no block about to ask, it does stop. -/
theorem Chip.not_doesNotStop_beginStopping (c : Chip) (hl : c.lcc.lifecycle = .running) (hflights : c.toe.flights = [])
    (horder : c.lue.order = none) (ht : c.lue.take = .idle) (hf : c.fallback = false)
    (hb : ∀ b, b ≠ .rpu → c.outstanding b = false ∧ (b ≠ .swe → c.wants b = none)) :
    ¬c.beginStopping.DoesNotStop := by
  have hcan := c.canStop_beginStopping_iff.2 ⟨hflights, horder, by
    rintro ⟨b, hne, hout⟩
    rw [(hb b hne).1] at hout
    cases hout⟩
  rintro (h | h)
  · rw [hcan] at h
    cases h
  · obtain ⟨b, hmem, hsome⟩ := List.any_eq_true.1 h
    have hne : b ≠ .rpu := by
      rintro rfl
      simp at hmem
    rw [c.wants_beginStopping b hl ht hf hne (hb b hne).2] at hsome
    cases hsome

/-- The part goes on in STOPPING. -/
theorem Chip.stops_beginStopping (c : Chip) (hl : c.lcc.lifecycle = .running) (h : c.beginStopping.DoesNotStop) :
    c.Stops c.beginStopping := by
  have hlife : c.beginStopping.lcc.lifecycle = .stopping := congrArg Lcc.lifecycle c.lcc_beginStopping
  obtain ⟨htake, horder, hentries⟩ := c.lineUp_beginStopping
  obtain ⟨hoff, hkept⟩ := c.swe_beginStopping
  refine
    { lifecycle := Or.inl hlife
      tbu := c.tbu_beginStopping
      take := htake
      order := horder
      lastSample := congrArg Slm.lastSample c.slm_beginStopping
      nodes := ?nodes
      close := ?close
      sweeps := c.sweeps_beginStopping
      goesOn := fun _ => hlife
      entries := fun _ => hentries
      sweepsOff := fun _ => hoff
      sweepKept := fun _ => hkept
      stopped := fun hflights ho ht hf hb => absurd h (c.not_doesNotStop_beginStopping hl hflights ho ht hf hb) }
  case nodes =>
    intro n hn
    rw [c.slm_beginStopping] at hn
    obtain ⟨m, -, rfl⟩ := List.mem_map.1 hn
    rfl
  case close =>
    rw [c.clu_beginStopping]
    dsimp only
    cases c.clu.close <;> decide

/-- What is left of the line-up and of the nodes in STOPPED. -/
theorem Chip.enterStopped_emptied (c : Chip) : c.enterStopped.lue.take = .idle ∧ c.enterStopped.lue.order = none ∧
    c.enterStopped.slm.lastSample = none ∧ c.enterStopped.slm.nodes = [] := by
  unfold Chip.enterStopped
  dsimp only
  rw [(Chip.same_findLow _) .lue (by decide), (Chip.same_findLow _).slm]
  exact ⟨rfl, rfl, rfl, rfl⟩

/-- The part stops at once. -/
theorem Chip.stops_enterStopped (c : Chip) (h : c.beginStopping.canStop = true) :
    c.Stops c.beginStopping.enterStopped := by
  obtain ⟨hflights, hnone, hwork⟩ := c.canStop_beginStopping_iff.1 h
  obtain ⟨htake, horder, hsample, hnodes⟩ := c.beginStopping.enterStopped_emptied
  obtain ⟨hlife, hqueue, hheld, hdeferred, hevals, hblocked, -, hentries, hmap, hswe, hreserved, hcopy⟩ :=
    c.beginStopping.enterStopped_values
  have hleft : c.beginStopping.enterStopped.lcc.lifecycle ≠ .stopping := by rw [hlife]; decide
  have htbu : c.beginStopping.enterStopped.tbu = c.beginStopping.tbu :=
    c.beginStopping.same_enterStopped .tbu (by decide)
  have hkept : c.beginStopping.clu.copy = c.clu.copy := by rw [c.clu_beginStopping]
  exact
    { lifecycle := Or.inr hlife
      tbu := htbu.trans c.tbu_beginStopping
      take := htake
      order := horder.trans hnone.symm
      lastSample := hsample
      nodes := by rw [hnodes]; simp
      close := by rw [Chip.close_enterStopped]; decide
      sweeps := by rw [hswe]; simp
      goesOn := by
        rintro (hf | ho | hb)
        · exact absurd hflights hf
        · rw [hnone] at ho
          cases ho
        · exact absurd hb hwork
      entries := fun hs => absurd hs hleft
      sweepsOff := fun hs => absurd hs hleft
      sweepKept := fun hs => absurd hs hleft
      stopped := fun _ _ _ _ _ => ⟨hlife, hqueue, hheld, hdeferred, hevals, hblocked, hentries, hmap, hswe, hreserved,
        hcopy.trans hkept⟩ }

theorem Chip.stops_enterStopping (c : Chip) (hl : c.lcc.lifecycle = .running) : c.Stops c.enterStopping := by
  rcases c.enterStopping_cases with ⟨h, heq⟩ | ⟨h, heq⟩
  · rw [heq]
    exact c.stops_enterStopped h
  · rw [heq]
    exact c.stops_beginStopping hl h

/-- A part that goes on in STOPPING is as entry into it left it. -/
theorem Chip.same_enterStopping_of_stopping (c : Chip) (h : c.enterStopping.lcc.lifecycle = .stopping) :
    Chip.Same [.lcc, .tbu, .lue, .slm, .swe, .clu, .rpu, .statusMark] c c.enterStopping := by
  rcases c.enterStopping_cases with ⟨-, heq⟩ | ⟨-, heq⟩
  · rw [heq, c.beginStopping.enterStopped_values.1] at h
    cases h
  · rw [heq]
    exact c.same_beginStopping_few

/-- The answer to the write and the requests that follow leave what a STOP has left. -/
theorem Chip.Stops.of_same {c d e : Chip} (h : c.Stops d)
    (hs : Chip.Same [.portA, .portB, .arbiter, .requests, .jobs] d e) : c.Stops e := by
  have hlife : e.lcc.lifecycle = d.lcc.lifecycle := hs.lccItems.1
  have htbu : e.tbu = d.tbu := hs .tbu (by decide)
  have hlue : e.lue = d.lue := hs .lue (by decide)
  have htoe : e.toe = d.toe := hs .toe (by decide)
  have hswe : e.swe = d.swe := hs .swe (by decide)
  have hslm : { e.slm with jobs := [] } = { d.slm with jobs := [] } := hs .slm (by decide)
  have hsample := congrArg Slm.lastSample hslm
  have hnodes := congrArg Slm.nodes hslm
  dsimp only at hsample hnodes
  obtain ⟨h1, h2, h3, h4, h5, h6, h7, h8, h9, h10, h11, h12, h13⟩ := h
  rw [← hlife] at h1 h9 h10 h11 h12 h13
  rw [← hlue] at h3 h4 h10 h13
  rw [← hs.clu] at h7 h13
  rw [← hswe] at h8 h11 h12 h13
  rw [← htoe] at h13
  exact ⟨h1, htbu.trans h2, h3, h4, hsample.trans h5, hnodes ▸ h6, h7, h8, h9, h10, h11, h12, h13⟩

/-- Parts that differ in the ports and the memory port. -/
theorem Chip.Same.eq_withPorts {c d : Chip} (h : Chip.Same [.portA, .portB, .arbiter] c d) :
    d = { c with portA := d.portA, portB := d.portB, par := d.par } := by
  have htau : d.tau = c.tau := by
    have horders : d.tau.orders = c.tau.orders := h .requests (by decide)
    have hrunning : d.tau.running = c.tau.running := h .tenure (by decide)
    calc d.tau = ⟨d.tau.orders, d.tau.running⟩ := rfl
      _ = c.tau := by rw [horders, hrunning]
  have hpcu : d.pcu = c.pcu := h .pcu (by decide)
  have heq := (h.mono (N := [.tenure, .arbiter, .rpu, .pcu, .portA, .portB]) (by decide)).eq_with
  rw [htau, hpcu, h.rpu] at heq
  exact heq

/-- The access of a port bears on nothing that a STOP turns on. -/
theorem Chip.Stops.of_ports {c d e : Chip} (h : d.Stops e) (hs : Chip.Same [.portA, .portB, .arbiter] c d) :
    c.Stops e := by
  rw [hs.eq_withPorts] at h
  exact ⟨h.lifecycle, h.tbu, h.take, h.order, h.lastSample, h.nodes, h.close, h.sweeps, h.goesOn, h.entries, h.sweepsOff,
    h.sweepKept, h.stopped⟩

/-! ### The statement -/

/-- A CONTROL write of STOP is taken in RUNNING (R23). -/
theorem Chip.commandRefusal_stop (c : Chip) (h : c.lcc.lifecycle = .running) : c.commandRefusal 64 2 = none :=
  if_pos (by simp [Chip.isRunning, h])

/-- The pieces that a STOP can change. -/
theorem Chip.same_takeCommand_stop (p : Port) (c : Chip) :
    Chip.Same [.jobs, .lcc, .tbu, .lue, .toe, .slm, .swe, .clu, .low, .rpu, .statusMark] c (c.takeCommand 64 p 2) :=
  (c.same_beginStopping_few.mono (by decide)).then (c.beginStopping.same_endStopping.mono (by decide))

/-- Settles O18: what STOP leaves is `Chip.enterStopping`, answered. -/
theorem stopEntersStopping : Obligations.StopEntersStopping := by
  intro s use h hl
  obtain ⟨t, c, ht, hc, hans, hm, hq, ho, ha, hpieces⟩ := s.command_taken use 64 2 _ h (by decide) (by decide) (by decide)
    (s.chip.commandRefusal_stop hl) (Chip.same_takeCommand_stop use.port)
  have hports : Chip.Same [.portA, .portB, .arbiter] s.chip c := hc.mono (by cases use.port <;> decide)
  have hafter : Chip.Same [portPiece use.port, .arbiter, .requests, .jobs] c.enterStopping t.chip := hans.same
  have hcl : c.lcc.lifecycle = .running := hports.lccItems.1.trans hl
  have hstops : s.chip.Stops t.chip :=
    ((c.stops_enterStopping hcl).of_same (hafter.mono (by cases use.port <;> decide))).of_ports hports
  refine ⟨t, ht, ⟨hm, hq, ho, ha, hpieces.mono (by simp)⟩, hstops.lifecycle, hstops.tbu, ?_, hstops.take, hstops.order,
    hstops.lastSample, hstops.nodes, hstops.close, hstops.sweeps, hstops.goesOn,
    fun hs => ⟨?_, hstops.entries hs, hstops.sweepsOff hs, hstops.sweepKept hs⟩, hstops.stopped⟩
  · rw [Chip.fallback, hstops.tbu]
    rfl
  · have hstopping : c.enterStopping.lcc.lifecycle = .stopping :=
      ((hafter.lccItems (by cases use.port <;> decide)).1).symm.trans hs
    exact (((hc.mono (by simp)).then ((c.same_enterStopping_of_stopping hstopping).mono (by simp))).then
      (hafter.mono (by simp)))

end Sys2Proof.Machine
end

section
/-! The free link serves what waits (R62): the choice is the first in order of class and index, and serving it settles the
entries before the first that differs from its target. -/

namespace Sys2Proof.Machine

/-! ### The order of the choice -/

/-- The entry is PENDING with a class. -/
abbrev Entry.Waits (x : Entry) : Prop := x.route = .pending ∧ x.cls ≠ none

/-- Entry `x`, at `j`, comes before entry `e`, at `i`: by class, then by index. -/
abbrev Entry.GoesBefore (j : Nat) (x : Entry) (i : Nat) (e : Entry) : Prop :=
  classRank e.cls < classRank x.cls ∨ (x.cls = e.cls ∧ j < i)

theorem Entry.GoesBefore.asymm {j i : Nat} {x e : Entry} (h : Entry.GoesBefore j x i e) :
    ¬Entry.GoesBefore i e j x := by
  rintro (hr | ⟨hc, hi⟩)
  · rcases h with h | ⟨h, -⟩
    · omega
    · rw [h] at hr
      omega
  · rcases h with h | ⟨-, h⟩
    · rw [hc] at h
      omega
    · omega

/-- The choice of R62: entry `e`, at `i`, waits with class `k`, and comes before every other that waits. -/
structure Lue.First (l : Lue) (i : Nat) (k : RouteClass) (e : Entry) : Prop where
  entry : l.entries[i]? = some e
  route : e.route = .pending
  cls : e.cls = some k
  before : ∀ (j : Nat) (x : Entry), l.entries[j]? = some x → x.Waits → j ≠ i → Entry.GoesBefore i e j x

/-- The lowest entry of a class that waits is the first, where none of a higher class does. -/
theorem Lue.first_of_findIdx (l : Lue) (i : Nat) (k : RouteClass)
    (hi : l.entries.findIdx? (fun e => e.pendingWith k) = some i)
    (hno : ∀ k' : RouteClass, k.rank < k'.rank → l.entries.findIdx? (fun e => e.pendingWith k') = none) :
    ∃ e, l.First i k e := by
  obtain ⟨hlt, hp, hlow⟩ := List.findIdx?_eq_some_iff_getElem.1 hi
  obtain ⟨hr, hk⟩ := (Entry.pendingWith_iff _ k).1 hp
  refine ⟨l.entries[i], List.getElem?_eq_getElem hlt, hr, hk, fun j x hx hw hj => ?_⟩
  obtain ⟨k', hk'⟩ := Option.ne_none_iff_exists'.1 hw.2
  have hx' : x.pendingWith k' = true := (x.pendingWith_iff k').2 ⟨hw.1, hk'⟩
  rw [Entry.GoesBefore, hk, hk', classRank_some, classRank_some]
  rcases Nat.lt_trichotomy k'.rank k.rank with h | h | h
  · exact Or.inl h
  · have hkk : k' = k := by cases k' <;> cases k <;> first | rfl | cases h
    refine Or.inr ⟨by rw [hkk], ?_⟩
    by_contra hn
    obtain ⟨hjl, hjx⟩ := List.getElem?_eq_some_iff.1 hx
    have hnot := hlow j (by omega)
    rw [hjx, ← hkk, hx'] at hnot
    exact hnot rfl
  · have hnone := List.findIdx?_eq_none_iff.1 (hno k' h) x (List.mem_of_getElem? hx)
    rw [hx'] at hnone
    cases hnone

theorem Lue.choice_first (l : Lue) (i : Nat) (k : RouteClass) (h : l.choice = some (i, k)) : ∃ e, l.First i k e := by
  unfold Lue.choice at h
  split at h
  · rename_i j hf
    cases h
    exact l.first_of_findIdx i .fallback hf fun k' hk => by cases k' <;> simp [RouteClass.rank] at hk
  · rename_i hf
    split at h
    · rename_i j he
      cases h
      refine l.first_of_findIdx i .event he fun k' hk => ?_
      cases k' <;> first | exact hf | simp [RouteClass.rank] at hk
    · rename_i he
      obtain ⟨j, hj, heq⟩ := Option.map_eq_some_iff.1 h
      cases heq
      refine l.first_of_findIdx i .take hj fun k' hk => ?_
      cases k' <;> first | exact hf | exact he | simp [RouteClass.rank] at hk

/-- With the link free in RUNNING and no choice, nothing waits. -/
theorem Chip.not_waits_of_choice (c : Chip) (hl : c.lcc.lifecycle = .running) (ho : c.lue.order = none)
    (h : c.lue.choice = none) : ∀ x ∈ c.lue.entries, ¬x.Waits := by
  intro x hx hw
  have hdue := c.choiceDue_iff.2 ⟨hl, ho, x, hx, hw⟩
  simp [Chip.choiceDue, h] at hdue

/-! ### The entries served -/

/-- A change that ends a property of the element it changes leaves fewer that have it. -/
theorem countP_modify_lt {α : Type} (p : α → Bool) (f : α → α) (l : List α) (i : Nat) (x : α) (hx : l[i]? = some x)
    (hp : p x = true) (hf : p (f x) = false) : (l.modify i f).countP p < l.countP p := by
  induction l generalizing i with
  | nil => simp at hx
  | cons y l ih =>
    cases i with
    | zero =>
      obtain rfl : y = x := by simpa using hx
      simp [hp, hf]
    | succ i =>
      have hlt := ih i (by simpa using hx)
      simp only [List.modify_succ_cons, List.countP_cons]
      omega

/-- How many entries wait. -/
def Lue.waiters (l : Lue) : Nat := l.entries.countP fun x => decide x.Waits

/-- An entry as the link leaves it that settles it. -/
abbrev Entry.settledByLink (x : Entry) : Entry := { x with route := .settled, cls := none, dirty := true }

theorem Chip.getElem?_routeSettled (i j : Nat) (c : Chip) : (c.routeSettled i).lue.entries[j]? =
    c.lue.entries[j]?.map fun x => if i = j then x.settledByLink else x := by
  rw [Chip.entries_routeSettled, List.getElem?_modify]
  split <;> simp [Entry.touch]

theorem Chip.same_routeSettled (i : Nat) (c : Chip) : Chip.Same [.lue, .rpu, .statusMark] c (c.routeSettled i) := by
  unfold Chip.routeSettled
  refine Chip.Same.then ?_ (Chip.same_checkTake_few _ _)
  intro x hx; cases x <;> first | exact absurd (by decide) hx | rfl | exact ⟨rfl, rfl⟩

theorem Chip.waiters_routeSettled (i : Nat) (k : RouteClass) (e : Entry) (c : Chip) (h : c.lue.First i k e) :
    (c.routeSettled i).lue.waiters < c.lue.waiters := by
  unfold Lue.waiters
  rw [Chip.entries_routeSettled]
  refine countP_modify_lt _ _ _ i e h.entry ?_ ?_
  · simp [Entry.Waits, h.route, h.cls]
  · simp [Entry.Waits, Entry.touch]

/-- What serving the link says is about the line-up, the route link, the timebase and the settings. -/
theorem Chip.routesServed_congr {c c' d d' : Chip} (hl : c'.lue = c.lue) (ht : c'.tbu = c.tbu)
    (hst : c'.settings = c.settings) (hr : c'.routeLink = c.routeLink) (hl' : d'.lue = d.lue)
    (hr' : d'.routeLink = d.routeLink) (h : c.routesServed d) : c'.routesServed d' := by
  have hfb : c'.fallback = c.fallback := congrArg (fun t : Tbu => decide (t.heartbeat = .expired)) ht
  unfold Chip.routesServed Chip.orderSent Chip.linkUse at h ⊢
  rw [hl, ht, hst, hr, hl', hr', hfb]
  exact h

theorem Chip.routesServed_quiet (c : Chip) (h : ∀ x ∈ c.lue.entries, ¬x.Waits) : c.routesServed c := by
  refine ⟨fun i e k he hw => absurd hw (h e (List.mem_of_getElem? he)), fun _ => ⟨rfl, fun j x hx => ⟨fun hw => ?_, fun _ => hx⟩⟩⟩
  exact absurd hw (h x (List.mem_of_getElem? hx))

/-- The first of those that wait differs from its target: it is sent. -/
theorem Chip.routesServed_startRoute (i : Nat) (k : RouteClass) (e : Entry) (c : Chip) (h : c.lue.First i k e)
    (hne : e.applied ≠ c.target e) : c.routesServed (c.startRoute i k (c.target e)) := by
  rw [c.target_eq_wanted] at hne ⊢
  refine ⟨fun i' e' k' he' hw' hk' hd' hbefore => ?_, fun hall => ?_⟩
  · have hii : i' = i := by
      by_contra hn
      exact hne (hbefore i e h.entry ⟨h.route, by rw [h.cls]; simp⟩ (h.before i' e' he' hw' hn))
    subst hii
    obtain rfl := Option.some.inj (h.entry.symm.trans he')
    obtain rfl := Option.some.inj (h.cls.symm.trans hk')
    refine ⟨⟨rfl, rfl, rfl⟩, fun j x hx => ?_⟩
    refine ⟨if i' = j then { x with route := .inFlight, cls := none, attempts := 1, dirty := true } else x, ?_,
      fun hj => if_pos hj.symm, fun hw hb => ?_, fun hj _ => if_neg (Ne.symm hj)⟩
    · rw [Chip.entries_startRoute, List.getElem?_modify, hx]
      split <;> rfl
    · by_cases hj : j = i'
      · subst hj
        obtain rfl := Option.some.inj (h.entry.symm.trans hx)
        exact absurd hb (Entry.GoesBefore.asymm hb)
      · exact absurd hb (h.before j x hx hw hj).asymm
  · exact absurd (hall e (List.mem_of_getElem? h.entry) ⟨h.route, by rw [h.cls]; simp⟩) hne

/-- The first of those that wait carries its target: it is settled, and the choice is made again. -/
theorem Chip.routesServed_routeSettled (i : Nat) (k : RouteClass) (e : Entry) (c d : Chip) (h : c.lue.First i k e)
    (heq : e.applied = c.target e) (hd : (c.routeSettled i).routesServed d) : c.routesServed d := by
  have hsame := c.same_routeSettled i
  have htbu : (c.routeSettled i).tbu = c.tbu := hsame .tbu (by decide)
  have hset : (c.routeSettled i).settings = c.settings := hsame .settings (by decide)
  have hlink : (c.routeSettled i).routeLink = c.routeLink := hsame .routeLink (by decide)
  have hfb : (c.routeSettled i).fallback = c.fallback := congrArg (fun t : Tbu => decide (t.heartbeat = .expired)) htbu
  have huse := c.linkUse_routeSettled i
  obtain ⟨-, htag, -⟩ := (Chip.linkUse_iff _ _).1 huse
  rw [c.target_eq_wanted] at heq
  unfold Chip.routesServed Chip.orderSent at hd
  rw [htbu, hset, hlink, hfb, huse, htag] at hd
  obtain ⟨hsent, hnone⟩ := hd
  have hat : ∀ j x, c.lue.entries[j]? = some x →
      (c.routeSettled i).lue.entries[j]? = some (if i = j then x.settledByLink else x) := fun j x hx => by
    rw [Chip.getElem?_routeSettled, hx]
    rfl
  have hfrom : ∀ (j : Nat) (y : Entry), (c.routeSettled i).lue.entries[j]? = some y → y.Waits → c.lue.entries[j]? = some y := by
    intro j y hy hw
    rw [Chip.getElem?_routeSettled] at hy
    obtain ⟨x, hx, rfl⟩ := Option.map_eq_some_iff.1 hy
    by_cases hij : i = j
    · rw [if_pos hij] at hw
      cases hw.1
    · rw [if_neg hij]
      exact hx
  refine ⟨fun i' e' k' he' hw' hk' hd' hbefore => ?_, fun hall => ?_⟩
  · have hii : i' ≠ i := by
      rintro rfl
      obtain rfl := Option.some.inj (h.entry.symm.trans he')
      exact hd' heq
    have he1 := hat i' e' he'
    rw [if_neg (Ne.symm hii)] at he1
    obtain ⟨horder, hrest⟩ := hsent i' e' k' he1 hw' hk' hd' fun j x hx hw hb => hbefore j x (hfrom j x hx hw) hw hb
    refine ⟨horder, fun j x hx => ?_⟩
    obtain ⟨x', hx', h1, h2, h3⟩ := hrest j _ (hat j x hx)
    refine ⟨x', hx', ?_⟩
    by_cases hij : i = j
    · subst hij
      obtain rfl := Option.some.inj (h.entry.symm.trans hx)
      rw [if_pos rfl] at h3
      have hx2 : x' = e.settledByLink := h3 (Ne.symm hii) (by simp)
      exact ⟨fun hj => absurd hj.symm hii, fun _ _ => hx2, fun _ hn =>
        absurd ⟨⟨h.route, by rw [h.cls]; simp⟩, h.before i' e' he' hw' hii⟩ hn⟩
    · rw [if_neg hij] at h1 h2 h3
      exact ⟨h1, h2, h3⟩
  · obtain ⟨hu, hrest⟩ := hnone fun x hx hw => by
      obtain ⟨j, hj⟩ := List.mem_iff_getElem?.1 hx
      exact hall x (List.mem_of_getElem? (hfrom j x hj hw)) hw
    refine ⟨hu, fun j x hx => ?_⟩
    obtain ⟨h1, h2⟩ := hrest j _ (hat j x hx)
    by_cases hij : i = j
    · subst hij
      obtain rfl := Option.some.inj (h.entry.symm.trans hx)
      rw [if_pos rfl] at h2
      exact ⟨fun _ => h2 (by simp), fun hn => absurd ⟨h.route, by rw [h.cls]; simp⟩ hn⟩
    · rw [if_neg hij] at h1 h2
      exact ⟨h1, h2⟩

/-- Enough choices serve all that waits. -/
theorem Chip.routesServed_chooseRoute (n : Nat) (c : Chip) (hl : c.lcc.lifecycle = .running) (ho : c.lue.order = none)
    (hn : c.lue.waiters < n) : c.routesServed (c.chooseRoute n) := by
  induction n generalizing c with
  | zero => omega
  | succ n ih =>
    rw [c.chooseRoute_succ n hl ho]
    cases hc : c.lue.choice with
    | none => exact c.routesServed_quiet (c.not_waits_of_choice hl ho hc)
    | some ik =>
      obtain ⟨i, k⟩ := ik
      obtain ⟨e, h⟩ := c.lue.choice_first i k hc
      simp only [h.entry]
      split
      · rename_i heq
        refine c.routesServed_routeSettled i k e _ h heq (ih _ ?_ ?_ ?_)
        · rw [(c.same_routeSettled i).lccItems.1]
          exact hl
        · rw [((Chip.linkUse_iff _ _).1 (c.linkUse_routeSettled i)).1]
          exact ho
        · have := c.waiters_routeSettled i k e h
          omega
      · rename_i hne
        exact c.routesServed_startRoute i k e h hne

/-- The free link in RUNNING serves what waits. -/
theorem Chip.routesServed_serveRoutes (c : Chip) (hl : c.lcc.lifecycle = .running) (ho : c.lue.order = none) :
    c.routesServed c.serveRoutes :=
  c.routesServed_chooseRoute _ hl ho (Nat.lt_succ_of_le List.countP_le_length)

/-! ### An empty queue -/

/-- One unit of time moves the timebase and lets the lines be sampled again. -/
theorem Chip.same_passTime_few (c : Chip) : Chip.Same [.tbu, .slm] c c.passTime := by
  intro x hx; cases x <;> first | exact absurd (by decide) hx | rfl | exact ⟨rfl, rfl⟩

/-- Settles O2: the branches of `State.idle`, the service of the link by `Chip.routesServed_serveRoutes`. -/
theorem emptyQueueLetsTimePass : Obligations.EmptyQueueLetsTimePass := by
  intro s hs
  have hstep : step s = s.idle := by rw [step, hs]
  rw [hstep]
  unfold State.idle
  refine ⟨fun hr => if_pos hr, fun hr i hi => ?_, fun hq hdue hwaits => ?_, fun hr hdue hwaits => ?_⟩
  · rw [if_neg (by simp [hr]), hi]
  · have hr : s.chip.resetLow = false := (s.chip.quiet_iff.1 hq).1
    obtain ⟨ht, hhap⟩ := s.event_happened true Chip.serveRoutes lineUpPieces rfl hq s.chip.same_serveRoutes (by decide)
    have hsettle : Chip.Same [.requests, .jobs, .arbiter] s.chip.serveRoutes s.chip.serveRoutes.settle :=
      (Chip.quiet_settles hq s.chip.same_serveRoutes (by decide)).1
    rw [if_neg (by simp [hr]), hdue]
    refine ⟨_, (if_pos (s.chip.choiceDue_iff.2 hwaits)).trans ht, hhap, ?_⟩
    exact Chip.routesServed_congr rfl rfl rfl rfl (hsettle .lue (by decide)) (hsettle .routeLink (by decide))
      (s.chip.routesServed_serveRoutes hwaits.1 hwaits.2.1)
  · rw [if_neg (by simp [hr]), hdue]
    have hnot : ¬s.chip.choiceDue = true := fun h => hwaits (s.chip.choiceDue_iff.1 h)
    exact ⟨_, if_neg hnot, rfl, hs, rfl, rfl, s.chip.same_passTime_few⟩

end Sys2Proof.Machine
end

section
/-! A fallback start or end (R70): the requests to the flagged entries, and the service of the free link after them. -/

namespace Sys2Proof.Machine

/-! ### The requests -/

/-- The part when the flagged entries have been asked for, before the link is served. -/
def Chip.fallbackAsked (c : Chip) : Chip := (List.range c.lue.entries.length).foldl Chip.fallbackStep c

/-- The model's requests are the asking, then one service of the free link. -/
theorem Chip.fallbackRequests_eq_serve (c : Chip) : c.fallbackRequests = c.fallbackAsked.serveRoutes := rfl

/-- What a step does to the entries, whether a take applies or not. -/
theorem Chip.entries_fallbackStep (i : Nat) (c : Chip) :
    (c.fallbackStep i).lue.entries = c.lue.entries.modify i Entry.fallbackAsked := by
  have hkeep (he : ∀ e, c.lue.entries[i]? = some e → e.fallbackAsked = e) :
      c.lue.entries = c.lue.entries.modify i Entry.fallbackAsked := by
    rw [modify_congr_at Entry.fallbackAsked id _ i he, List.modify_id]
  unfold Chip.fallbackStep
  cases hi : c.lue.entries[i]? with
  | none => exact hkeep fun e he => by rw [hi] at he; cases he
  | some e =>
    by_cases hf : e.fallbackFlag = true
    · simp only [hf, if_true]
      rw [Chip.entries_routeRequest]
      refine modify_congr_at _ _ _ i fun e' he => ?_
      obtain rfl := Option.some.inj (hi.symm.trans he)
      exact (if_pos hf).symm
    · simp only [hf]
      refine hkeep fun e' he => ?_
      obtain rfl := Option.some.inj (hi.symm.trans he)
      exact if_neg hf

theorem Chip.linkUse_fallbackStep (i : Nat) (c : Chip) : (c.fallbackStep i).linkUse = c.linkUse := by
  unfold Chip.fallbackStep
  split
  · split
    · exact c.linkUse_routeRequest _ _
    · rfl
  · rfl

theorem Chip.same_routeRequest_few (k : RouteClass) (i : Nat) (c : Chip) :
    Chip.Same [.lue, .rpu, .statusMark] c (c.routeRequest k i) := by
  unfold Chip.routeRequest
  refine Chip.Same.then ?_ (Chip.same_checkTake_few _ _)
  intro x hx; cases x <;> first | exact absurd (by decide) hx | rfl | exact ⟨rfl, rfl⟩

theorem Chip.same_fallbackStep (i : Nat) (c : Chip) : Chip.Same [.lue, .rpu, .statusMark] c (c.fallbackStep i) := by
  unfold Chip.fallbackStep
  split
  · exact Chip.Same.ite (c.same_routeRequest_few _ _) (.refl _ c)
  · exact .refl _ c

theorem Chip.flagged_fallbackStep (i : Nat) (c : Chip) : Chip.Flagged c (c.fallbackStep i) := by
  unfold Chip.fallbackStep
  split
  · split
    · exact (Chip.Flagged.refl c).routeRequest _ _
    · exact .refl c
  · exact .refl c

theorem Chip.same_fallbackAsked (c : Chip) : Chip.Same [.lue, .rpu, .statusMark] c c.fallbackAsked :=
  Chip.Same.foldl _ (fun c i => c.same_fallbackStep i) _ c

theorem Chip.foldl_fallbackStep (l : List Nat) (c : Chip) :
    (l.foldl Chip.fallbackStep c).lue.entries = l.foldl (fun es i => es.modify i Entry.fallbackAsked) c.lue.entries ∧
      (l.foldl Chip.fallbackStep c).linkUse = c.linkUse ∧ Chip.Flagged c (l.foldl Chip.fallbackStep c) := by
  induction l generalizing c with
  | nil => exact ⟨rfl, rfl, .refl c⟩
  | cons i l ih =>
    obtain ⟨hentries, hlink, hflag⟩ := ih (c.fallbackStep i)
    rw [c.entries_fallbackStep i] at hentries
    exact ⟨hentries, hlink.trans (c.linkUse_fallbackStep i), (c.flagged_fallbackStep i).trans hflag⟩

/-- The requests change the flagged entries and nothing of the route link. -/
theorem Chip.fallbackAsked_lineUp (c : Chip) : c.fallbackAsked.lue.entries = c.lue.entries.map Entry.fallbackAsked ∧
    c.fallbackAsked.linkUse = c.linkUse := by
  obtain ⟨hentries, hlink, -⟩ := Chip.foldl_fallbackStep (List.range c.lue.entries.length) c
  exact ⟨hentries.trans (foldl_modify_range _ _), hlink⟩

theorem Chip.flagged_fallbackRequests (c : Chip) : Chip.Flagged c c.fallbackRequests :=
  (Chip.foldl_fallbackStep _ c).2.2.trans (Chip.flagged_chooseRoute _ _)

/-! ### The flagged entries asked for -/

/-- An entry in use, not set aside and flagged for fallback. -/
abbrev Entry.FallbackLive (x : Entry) : Prop := bit x.w0 31 = true ∧ x.aside = false ∧ bit x.w0 13 = true

theorem Entry.fallbackAsked_of_not_live (x : Entry) (h : ¬x.FallbackLive) : x.fallbackAsked = x := by
  unfold Entry.fallbackAsked
  split
  · rename_i hf
    unfold Entry.asked
    refine if_pos ?_
    by_contra hn
    simp only [not_or, Bool.not_eq_false, Bool.not_eq_true] at hn
    exact h ⟨hn.1, hn.2, hf⟩
  · rfl

/-- A flagged entry that is neither in flight nor waits with FALLBACK waits with it. -/
theorem Entry.fallbackAsked_of_live (x : Entry) (h : x.FallbackLive) (hr : x.route ≠ .inFlight)
    (hc : x.route = .pending → x.cls ≠ some .fallback) :
    x.fallbackAsked = { x with route := .pending, cls := some .fallback, dirty := true } := by
  obtain ⟨huse, haside, hflag⟩ := h
  rw [Entry.fallbackAsked, if_pos hflag, Entry.asked, if_neg (by simp [huse, haside])]
  cases hx : x.route with
  | settled => simp
  | failed => simp
  | inFlight => exact absurd hx hr
  | pending =>
    have hlt : classRank x.cls < classRank (some .fallback) := by
      have hne := hc hx
      rcases hcls : x.cls with _ | k
      · decide
      · cases k <;> first | decide | exact absurd hcls hne
    rw [if_neg (by simp), if_pos hlt, ← hx]

/-- An entry asked for waits with FALLBACK only where it is flagged. -/
theorem Entry.fallbackLive_of_asked (x : Entry) (hc : x.route = .pending → x.cls ≠ some .fallback)
    (hr : x.fallbackAsked.route = .pending) (hk : x.fallbackAsked.cls = some .fallback) : x.FallbackLive := by
  by_contra hn
  rw [x.fallbackAsked_of_not_live hn] at hr hk
  exact hc hr hk

/-- A request changes nothing of an entry that bears on its target. -/
theorem Entry.fallbackAsked_image (x : Entry) : ∃ r k b, x.fallbackAsked = { x with route := r, cls := k, dirty := b } := by
  unfold Entry.fallbackAsked Entry.asked
  split
  · split
    · exact ⟨x.route, x.cls, x.dirty, rfl⟩
    · split
      · exact ⟨_, _, _, rfl⟩
      · split
        · exact ⟨x.route, _, _, rfl⟩
        · exact ⟨x.route, x.cls, x.dirty, rfl⟩
  · exact ⟨x.route, x.cls, x.dirty, rfl⟩

theorem Entry.applied_fallbackAsked (x : Entry) : x.fallbackAsked.applied = x.applied := by
  obtain ⟨r, k, b, h⟩ := x.fallbackAsked_image
  rw [h]

theorem Entry.wanted_fallbackAsked (x : Entry) (f : Bool) (v : BitVec 7) : x.fallbackAsked.wanted f v = x.wanted f v := by
  obtain ⟨r, k, b, h⟩ := x.fallbackAsked_image
  rw [h]
  rfl

/-! ### The link after a fallback start or end -/

/-- What a fallback start or end says is about the line-up, the route link, the count, the settings and the lifecycle. -/
theorem Chip.fallbackMoved_congr {on : Bool} {c c' d d' : Chip} (hl : c'.lue = c.lue) (hm : c'.tbu.mono = c.tbu.mono)
    (hst : c'.settings = c.settings) (hr : c'.routeLink = c.routeLink) (hl' : d'.lue = d.lue)
    (hr' : d'.routeLink = d.routeLink) (hcc' : d'.lcc.lifecycle = d.lcc.lifecycle) (h : c.fallbackMoved on d) :
    c'.fallbackMoved on d' := by
  unfold Chip.fallbackMoved at h ⊢
  rw [hl, hm, hst, hr, hl', hr', hcc']
  exact h

/-- A link that is not free, or not served, leaves the requests waiting. -/
theorem Chip.fallbackRequests_busy (c : Chip) (h : c.lue.order.isSome = true ∨ c.lcc.lifecycle ≠ .running) :
    c.fallbackRequests = c.fallbackAsked := by
  obtain ⟨-, hlink⟩ := c.fallbackAsked_lineUp
  obtain ⟨horder, -, -⟩ := (Chip.linkUse_iff _ _).1 hlink
  have hbusy : c.fallbackAsked.lue.order.isSome = true ∨ c.fallbackAsked.lcc.lifecycle ≠ .running := by
    rw [horder, c.same_fallbackAsked.lccItems.1]
    exact h
  rw [c.fallbackRequests_eq_serve, c.fallbackAsked.serveRoutes_busy hbusy]

/-- With no FALLBACK request before, those that go before entry `i` are the flagged ones of lower index. -/
theorem Entry.goesBefore_fallbackAsked (x e : Entry) (i j : Nat) (hk : e.cls = some .fallback)
    (hc : x.route = .pending → x.cls ≠ some .fallback) (hw : x.fallbackAsked.Waits)
    (hb : Entry.GoesBefore j x.fallbackAsked i e) : x.FallbackLive ∧ j < i := by
  rw [Entry.GoesBefore, hk] at hb
  rcases hb with hlt | ⟨hcls, hj⟩
  · rcases hcls : x.fallbackAsked.cls with _ | k
    · exact absurd hcls hw.2
    · rw [hcls] at hlt
      cases k <;> exact absurd hlt (by decide)
  · exact ⟨x.fallbackLive_of_asked hc hw.1 hcls, hj⟩

/-- What the service of the link leaves of entry `x`, at `j`, where `e`, at `i`, is the one sent. -/
theorem Entry.fallback_left {x x' e : Entry} {i j : Nat} (hk : e.cls = some .fallback) (hr : x.route ≠ .inFlight)
    (hc : x.route = .pending → x.cls ≠ some .fallback)
    (hsettled : x.fallbackAsked.Waits → Entry.GoesBefore j x.fallbackAsked i e → x' = x.fallbackAsked.settledByLink)
    (hkept : ¬(x.fallbackAsked.Waits ∧ Entry.GoesBefore j x.fallbackAsked i e) → x' = x.fallbackAsked) :
    x' = if bit x.w0 13 = false ∨ bit x.w0 31 = false ∨ x.aside = true then x
      else if j < i then { x with route := .settled, cls := none, dirty := true }
      else x.asked .fallback := by
  by_cases hf : x.FallbackLive
  · have hasked := x.fallbackAsked_of_live hf hr hc
    rw [if_neg (by simp [hf.1, hf.2.1, hf.2.2])]
    by_cases hlt : j < i
    · rw [if_pos hlt, hsettled (by rw [hasked]; exact ⟨rfl, nofun⟩) (Or.inr ⟨by rw [hasked, hk], hlt⟩), hasked]
    · rw [if_neg hlt, hkept fun hh => hlt (x.goesBefore_fallbackAsked e i j hk hc hh.1 hh.2).2]
      exact if_pos hf.2.2
  · have hnot : bit x.w0 13 = false ∨ bit x.w0 31 = false ∨ x.aside = true := by
      by_contra hn
      simp only [not_or, Bool.not_eq_false, Bool.not_eq_true] at hn
      exact hf ⟨hn.2.1, hn.2.2, hn.1⟩
    rw [if_pos hnot, hkept fun hh => hf (x.goesBefore_fallbackAsked e i j hk hc hh.1 hh.2).1,
      x.fallbackAsked_of_not_live hf]

/-- The free link after a fallback start or end serves the requests that have been asked for, with the target, the tag and
the frames of before. -/
theorem Chip.routesServed_fallbackRequests (c : Chip) (hrun : c.lcc.lifecycle = .running) (hfree : c.lue.order = none) :
    ∃ c1 : Chip, c1.lue.entries = c.lue.entries.map Entry.fallbackAsked ∧ c1.fallback = c.fallback ∧ c1.settings = c.settings ∧
      c1.tbu = c.tbu ∧ c1.lue.tag = c.lue.tag ∧ c1.routeLink = c.routeLink ∧ c1.routesServed c.fallbackRequests := by
  obtain ⟨hentries, hlink⟩ := c.fallbackAsked_lineUp
  obtain ⟨horder, htag, hroute⟩ := (Chip.linkUse_iff _ _).1 hlink
  have hsame := c.same_fallbackAsked
  have htbu : c.fallbackAsked.tbu = c.tbu := hsame .tbu (by decide)
  refine ⟨c.fallbackAsked, hentries, congrArg (fun t : Tbu => decide (t.heartbeat = .expired)) htbu,
    hsame .settings (by decide), htbu, htag, hroute, ?_⟩
  rw [c.fallbackRequests_eq_serve]
  exact c.fallbackAsked.routesServed_serveRoutes (hsame.lccItems.1.trans hrun) (horder.trans hfree)

/-- The requests of a fallback start or end, with the state of fallback after it. -/
theorem Chip.fallbackMoved_requests (c : Chip) : c.fallbackMoved c.fallback c.fallbackRequests := by
  have hlife : c.fallbackRequests.lcc.lifecycle = c.lcc.lifecycle := c.same_fallbackRequests.lccItems.1
  refine ⟨fun hbusy => ?_, fun i e hfree hrun hidle hi hmoves hlow => ?_⟩
  · rw [hlife] at hbusy
    obtain ⟨hentries, hlink⟩ := c.fallbackAsked_lineUp
    obtain ⟨horder, -, hroute⟩ := (Chip.linkUse_iff _ _).1 hlink
    rw [c.fallbackRequests_busy hbusy, hroute]
    exact ⟨hentries, horder, rfl⟩
  · obtain ⟨c1, hentries, hfb, hset, htbu, htag, hroute, hserved⟩ :=
      c.routesServed_fallbackRequests (hlife.symm.trans hrun) hfree
    have hat : ∀ (j : Nat) (x : Entry), c.lue.entries[j]? = some x → c1.lue.entries[j]? = some x.fallbackAsked :=
      fun j x hx => by rw [hentries, List.getElem?_map, hx]; rfl
    have hquiet : ∀ (j : Nat) (x : Entry), c.lue.entries[j]? = some x →
        x.route ≠ .inFlight ∧ (x.route = .pending → x.cls ≠ some .fallback) := fun j x hx =>
      hidle x (List.mem_of_getElem? hx)
    obtain ⟨huse, haside, hflag, hdiffers⟩ := hmoves
    have hasked := e.fallbackAsked_of_live ⟨huse, haside, hflag⟩ (hquiet i e hi).1 (hquiet i e hi).2
    have hcls : e.fallbackAsked.cls = some .fallback := by rw [hasked]
    have hsent := hserved.1 i e.fallbackAsked .fallback (hat i e hi) (by rw [hasked]; exact ⟨rfl, nofun⟩) hcls
    rw [hfb, hset] at hsent
    beta_reduce at hsent
    obtain ⟨⟨hord, htg, hframe⟩, hothers⟩ := hsent
      (by rw [e.applied_fallbackAsked, e.wanted_fallbackAsked]; exact hdiffers) fun j y hy hw hb => by
        rw [hentries, List.getElem?_map] at hy
        obtain ⟨x, hx, rfl⟩ := Option.map_eq_some_iff.1 hy
        obtain ⟨hf, hj⟩ := x.goesBefore_fallbackAsked _ i j hcls (hquiet j x hx).2 hw hb
        rw [x.applied_fallbackAsked, x.wanted_fallbackAsked]
        by_contra hn
        exact hlow j x hj hx ⟨hf.1, hf.2.1, hf.2.2, hn⟩
    rw [e.wanted_fallbackAsked, htag, htbu, hset] at hord
    rw [htag] at htg
    rw [e.wanted_fallbackAsked, htag, hroute] at hframe
    refine ⟨hord, htg, hframe, fun j x hx => ?_⟩
    obtain ⟨x', hx', hsame, hsettled, hkept⟩ := hothers j _ (hat j x hx)
    refine hx'.trans (congrArg some ?_)
    by_cases hj : j = i
    · subst hj
      obtain rfl := Option.some.inj (hi.symm.trans hx)
      rw [if_pos rfl, hsame rfl, hasked]
    · rw [if_neg hj]
      exact Entry.fallback_left hcls (hquiet j x hx).1 (hquiet j x hx).2 hsettled (hkept hj)

end Sys2Proof.Machine
end

section
/-! The heartbeat (O20, O21, O22): ARM, FEED, PAUSE, EXPIRE, DISARM and the countdown, by what each leaves of the Timebase
and of fallback. -/

namespace Sys2Proof.Machine

/-! ### HEARTBEAT words (R43) -/

theorem heartbeatWord_fields (code : Byte) (q : BitVec 16) :
    field (heartbeatWord code q) 24 8 = code ∧ field (heartbeatWord code q) 0 16 = q := by
  unfold heartbeatWord
  constructor
  · rw [field_or, field_place _ 24 (by decide), field_place_off _ 0 24 8 (by decide) (by decide)]
    simp
  · rw [field_or, field_place_off _ 24 0 16 (by decide) (by decide), field_place _ 0 (by decide)]
    simp

/-- The code byte of a HEARTBEAT command. -/
def HeartbeatCode.byte : HeartbeatCode → Byte
  | .arm => 1
  | .feed => 2
  | .pause => 3
  | .expire => 4
  | .disarm => 5

theorem heartbeatCodeOf_word (code : HeartbeatCode) (q : BitVec 16) :
    heartbeatCodeOf (heartbeatWord code.byte q) = some code := by
  unfold heartbeatCodeOf
  rw [(heartbeatWord_fields code.byte q).1]
  cases code <;> rfl

theorem Chip.takeHeartbeat_word (code : HeartbeatCode) (q : BitVec 16) (c : Chip) :
    c.takeHeartbeat (heartbeatWord code.byte q) = c.heartbeat code q := by
  unfold Chip.takeHeartbeat
  rw [heartbeatCodeOf_word, (heartbeatWord_fields code.byte q).2]

/-- In RUNNING a code is refused with BAD_COMMAND where its state does not take it (R43 to R46). -/
theorem Chip.heartbeatRefusal_word (code : HeartbeatCode) (q : BitVec 16) (c : Chip) (hl : c.lcc.lifecycle = .running) :
    c.commandRefusal 65 (heartbeatWord code.byte q) =
      if code.takenIn c.tbu.heartbeat then none else some .badCommand := by
  show c.heartbeatRefusal _ = _
  unfold Chip.heartbeatRefusal
  rw [if_neg (by simp [Chip.isRunning, hl]), heartbeatCodeOf_word]

/-- A HEARTBEAT command that its state does not take. -/
theorem State.heartbeat_refused (s : State) (use : PortUse) (code : HeartbeatCode) (q : BitVec 16)
    (h : s.chip.commands use.port 65 = true) (hl : s.chip.lcc.lifecycle = .running)
    (ht : code.takenIn s.chip.tbu.heartbeat = false) :
    s.chip.classify use.port (stationAccess 65 true (heartbeatWord code.byte q) use.lock) = .refuse .badCommand ∧
      ∃ t, s.command use 65 true (heartbeatWord code.byte q) = .next t ∧ State.ended use.port ⟨true, 0⟩ [.rpu] s t := by
  have hr : s.chip.commandRefusal 65 (heartbeatWord code.byte q) = some .badCommand := by
    rw [s.chip.heartbeatRefusal_word code q hl, ht]
    rfl
  have hc := s.chip.classify_command_refused use.port 65 _ use.lock .badCommand (by decide) (by decide) nofun hr h
  obtain ⟨t, hexec, hend, -⟩ := s.refused_noted (.portAccess use.port _) use.port _ .badCommand rfl
    ((s.chip.commands_iff _ _).1 h).1 hc (by decide)
  exact ⟨hc, t, hexec, hend⟩

/-- A HEARTBEAT command that its state takes is carried out, and then answered. -/
theorem State.heartbeat_taken (s : State) (use : PortUse) (code : HeartbeatCode) (q : BitVec 16)
    (h : s.chip.commands use.port 65 = true) (hl : s.chip.lcc.lifecycle = .running)
    (ht : code.takenIn s.chip.tbu.heartbeat = true) :
    ∃ t c, s.command use 65 true (heartbeatWord code.byte q) = .next t ∧
      Chip.Same [portPiece use.port, .arbiter] s.chip c ∧
      Chip.Same [portPiece use.port, .arbiter, .requests, .jobs] (c.heartbeat code q) t.chip ∧
      State.ended use.port ⟨false, 0⟩ timePieces s t := by
  have hr : s.chip.commandRefusal 65 (heartbeatWord code.byte q) = none := by
    rw [s.chip.heartbeatRefusal_word code q hl, ht]
    rfl
  have htake : ∀ c : Chip, c.takeCommand 65 use.port (heartbeatWord code.byte q) = c.heartbeat code q :=
    fun c => c.takeHeartbeat_word code q
  obtain ⟨t, c, hexec, hc, hans, hend⟩ := s.command_taken use 65 _ timePieces h (by decide) (by decide) (by decide) hr
    fun c => by rw [htake]; exact c.same_heartbeat code q
  rw [htake] at hans
  exact ⟨t, c, hexec, hc, hans.same, hend⟩

/-! ### A heartbeat that is not EXPIRED (R49, R70) -/

/-- The heartbeat has taken a state other than EXPIRED, the Timebase left as `t`: fallback ends where it was in force, and
elsewhere only the pieces `L` differ. -/
structure Chip.LeavesExpired (L : List Piece) (t : Tbu) (c d : Chip) : Prop where
  tbu : d.tbu = t
  fallback : d.fallback = false
  ended : c.tbu.heartbeat = .expired → c.fallbackMoved false d
  stays : c.tbu.heartbeat ≠ .expired → Chip.Same L c d

theorem Chip.fallback_iff (c : Chip) : c.fallback = true ↔ c.tbu.heartbeat = .expired := by simp [Chip.fallback]

theorem Chip.fallback_eq_false {c : Chip} (h : c.tbu.heartbeat ≠ .expired) : c.fallback = false := by
  simp [Chip.fallback, h]

theorem Chip.same_tbu (t : Tbu) (c : Chip) : Chip.Same [.tbu] c { c with tbu := t } := by
  intro x hx; cases x <;> first | exact absurd (by decide) hx | rfl | exact ⟨rfl, rfl⟩

/-- The heartbeat is set with the mark of the status word, before any request. -/
theorem Chip.same_heartbeatSet (h : Heartbeat) (deadline : Option Tick) (c : Chip) :
    Chip.Same [.tbu, .statusMark] c (Chip.marking c { c with tbu := { c.tbu with heartbeat := h, deadline := deadline } }) :=
  ((Chip.same_tbu _ c).mono (by decide)).then ((Chip.same_marking _ _).mono (by decide))

theorem Chip.leavesExpired_heartbeatTo (h : Heartbeat) (deadline : Option Tick) (c : Chip) (hh : h ≠ .expired) :
    Chip.LeavesExpired [.tbu, .statusMark] { c.tbu with heartbeat := h, deadline := deadline } c
      (c.heartbeatTo h deadline) := by
  have htbu := c.tbu_heartbeatTo h deadline
  have hset := c.same_heartbeatSet h deadline
  have hmarked := Chip.tbu_marking c { c with tbu := { c.tbu with heartbeat := h, deadline := deadline } }
  refine ⟨htbu, Chip.fallback_eq_false (by rw [htbu]; exact hh), fun hx => ?_, fun hx => ?_⟩
  · have hto : c.heartbeatTo h deadline = Chip.fallbackRequests _ := if_pos (c.fallback_iff.2 hx)
    have hmoved := Chip.fallbackMoved_requests
      (Chip.marking c { c with tbu := { c.tbu with heartbeat := h, deadline := deadline } })
    rw [Chip.fallback_eq_false (by rw [hmarked]; exact hh)] at hmoved
    rw [hto]
    exact Chip.fallbackMoved_congr (hset .lue (by decide)).symm (by rw [hmarked]) (hset .settings (by decide)).symm
      (hset .routeLink (by decide)).symm rfl rfl rfl hmoved
  · have hto : c.heartbeatTo h deadline = Chip.marking c _ := if_neg (by simp [Chip.fallback_eq_false hx])
    rw [hto]
    exact hset

/-- ARM sets the expected sequence with the heartbeat. -/
theorem Chip.leavesExpired_arm (q : BitVec 16) (c : Chip) :
    Chip.LeavesExpired [.tbu, .statusMark] { c.tbu with
      heartbeat := .armed, expected := q + 1, deadline := some (c.tbu.mono + c.settings.heartbeatPeriod) } c
      (c.heartbeat .arm q) := by
  obtain ⟨htbu, hfb, hended, hstays⟩ := Chip.leavesExpired_heartbeatTo .armed c.heartbeatDeadline
    { c with tbu := { c.tbu with expected := q + 1 } } nofun
  exact ⟨htbu, hfb, fun hx => Chip.fallbackMoved_congr rfl rfl rfl rfl rfl rfl rfl (hended hx), fun hx =>
    ((Chip.same_tbu _ c).mono (by decide)).then (hstays hx)⟩

/-! ### Entry into EXPIRED (R48) -/

/-- The heartbeat has gone into EXPIRED: the counter, the cause, and a fallback start. -/
structure Chip.EntersExpired (c d : Chip) : Prop where
  tbu : d.tbu = { c.tbu with heartbeat := .expired, deadline := none }
  fallback : d.fallback = true
  pending : d.rpu.isPending .heartbeatExpired = true
  counters : d.rpu.counters = c.rpu.counters.modify Counter.heartbeatExpiries.index (· + 1)
  moved : c.fallbackMoved true d

/-- The part that has gone into EXPIRED, before its requests. -/
def Chip.expired (c : Chip) : Chip :=
  Chip.raise .heartbeatExpired (Chip.count .heartbeatExpiries
    (Chip.markStatus { c with tbu := { c.tbu with heartbeat := .expired, deadline := none } }))

theorem Chip.enterExpired_eq (c : Chip) : c.enterExpired = c.expired.fallbackRequests := rfl

theorem Chip.entersExpired (c : Chip) : c.EntersExpired c.enterExpired := by
  have htbu := c.tbu_enterExpired
  have hflag := c.expired.flagged_fallbackRequests
  rw [← c.enterExpired_eq] at hflag
  refine ⟨htbu, c.enterExpired.fallback_iff.2 (by rw [htbu]), hflag.pending _ ?_, hflag.counters.trans ?_, ?_⟩
  · rw [Chip.expired, Chip.rpu_raise, Rpu.isPending_raise]
    simp
  · rw [Chip.expired, Chip.rpu_raise, Rpu.counters_raise]
    rfl
  · exact Chip.fallbackMoved_congr rfl rfl rfl rfl rfl rfl rfl c.expired.fallbackMoved_requests

/-! ### The same across the answer to a write and the requests that follow -/

/-- Ports, the memory port, requests and jobs bear on nothing that fallback turns on. -/
theorem Chip.fallbackMoved_of_same {on : Bool} {c0 c d e : Chip} (hc : Chip.Same [.portA, .portB, .arbiter] c0 c)
    (h : c.fallbackMoved on d) (he : Chip.Same [.portA, .portB, .arbiter, .requests, .jobs] d e) :
    c0.fallbackMoved on e := by
  have htbu : c.tbu = c0.tbu := hc .tbu (by decide)
  exact Chip.fallbackMoved_congr (hc .lue (by decide)).symm (by rw [htbu]) (hc .settings (by decide)).symm
    (hc .routeLink (by decide)).symm (he .lue (by decide)) (he .routeLink (by decide)) he.lccItems.1 h

theorem Chip.LeavesExpired.answered {p : Port} {t : Tbu} {c0 c d e : Chip}
    (h : Chip.LeavesExpired [.tbu, .statusMark] t c d) (hc : Chip.Same [portPiece p, .arbiter] c0 c)
    (he : Chip.Same [portPiece p, .arbiter, .requests, .jobs] d e) :
    Chip.LeavesExpired [portPiece p, .arbiter, .requests, .jobs, .tbu, .statusMark] t c0 e := by
  have hbefore : c.tbu = c0.tbu := hc .tbu (by cases p <;> decide)
  have hafter : e.tbu = d.tbu := he .tbu (by cases p <;> decide)
  refine ⟨hafter.trans h.tbu, ?_, fun hx => ?_, fun hx => ?_⟩
  · rw [← h.fallback, Chip.fallback, hafter]
    rfl
  · exact Chip.fallbackMoved_of_same (hc.mono (by cases p <;> decide)) (h.ended (by rw [hbefore]; exact hx))
      (he.mono (by cases p <;> decide))
  · exact ((hc.mono (by simp)).then ((h.stays (by rw [hbefore]; exact hx)).mono (by simp))).then (he.mono (by simp))

theorem Chip.EntersExpired.of_same {c0 c d e : Chip} (h : c.EntersExpired d)
    (hc : Chip.Same [.portA, .portB, .arbiter] c0 c) (he : Chip.Same [.portA, .portB, .arbiter, .requests, .jobs] d e) :
    c0.EntersExpired e := by
  have htbu : e.tbu = d.tbu := he .tbu (by decide)
  have hrpu : e.rpu = d.rpu := he.rpu
  refine ⟨?_, ?_, ?_, ?_, Chip.fallbackMoved_of_same hc h.moved he⟩
  · rw [htbu, h.tbu, hc .tbu (by decide)]
  · rw [← h.fallback, Chip.fallback, htbu]
    rfl
  · rw [hrpu]
    exact h.pending
  · rw [hrpu, h.counters, hc.rpu]

/-- A command that its state takes, to a state other than EXPIRED. -/
theorem State.heartbeat_leaves (s : State) (use : PortUse) (code : HeartbeatCode) (q : BitVec 16) (tbu : Tbu)
    (h : s.chip.commands use.port 65 = true) (hl : s.chip.lcc.lifecycle = .running)
    (ht : code.takenIn s.chip.tbu.heartbeat = true)
    (hx : ∀ c : Chip, c.tbu = s.chip.tbu → c.settings = s.chip.settings →
      Chip.LeavesExpired [.tbu, .statusMark] tbu c (c.heartbeat code q)) :
    ∃ t, s.command use 65 true (heartbeatWord code.byte q) = .next t ∧
      State.ended use.port ⟨false, 0⟩ timePieces s t ∧
      Chip.LeavesExpired [portPiece use.port, .arbiter, .requests, .jobs, .tbu, .statusMark] tbu s.chip t.chip := by
  obtain ⟨t, c, hexec, hc, hafter, hend⟩ := s.heartbeat_taken use code q h hl ht
  have hleft := hx c (hc .tbu (by cases use.port <;> decide)) (hc .settings (by cases use.port <;> decide))
  exact ⟨t, hexec, hend, hleft.answered hc hafter⟩

/-- A command that its state takes, to EXPIRED. -/
theorem State.heartbeat_expires (s : State) (use : PortUse) (code : HeartbeatCode) (q : BitVec 16)
    (h : s.chip.commands use.port 65 = true) (hl : s.chip.lcc.lifecycle = .running)
    (ht : code.takenIn s.chip.tbu.heartbeat = true)
    (hx : ∀ c : Chip, c.tbu = s.chip.tbu → c.heartbeat code q = c.enterExpired) :
    ∃ t, s.command use 65 true (heartbeatWord code.byte q) = .next t ∧
      State.ended use.port ⟨false, 0⟩ timePieces s t ∧ s.chip.EntersExpired t.chip := by
  obtain ⟨t, c, hexec, hc, hafter, hend⟩ := s.heartbeat_taken use code q h hl ht
  rw [hx c (hc .tbu (by cases use.port <;> decide))] at hafter
  exact ⟨t, hexec, hend, c.entersExpired.of_same (hc.mono (by cases use.port <;> decide))
    (hafter.mono (by cases use.port <;> decide))⟩

/-! ### The statements -/

theorem HeartbeatCode.takenIn_arm (h : Heartbeat) : HeartbeatCode.arm.takenIn h = decide (h ≠ .armed) := by
  cases h <;> rfl

theorem HeartbeatCode.takenIn_feed (h : Heartbeat) : HeartbeatCode.feed.takenIn h = decide (h = .armed) := by
  cases h <;> rfl

theorem HeartbeatCode.takenIn_pause (h : Heartbeat) : HeartbeatCode.pause.takenIn h = decide (h = .armed) := by
  cases h <;> rfl

theorem HeartbeatCode.takenIn_expire (h : Heartbeat) :
    HeartbeatCode.expire.takenIn h = decide (h = .armed ∨ h = .paused) := by
  cases h <;> rfl

theorem HeartbeatCode.takenIn_disarm (h : Heartbeat) : HeartbeatCode.disarm.takenIn h = decide (h ≠ .disarmed) := by
  cases h <;> rfl

/-- An ARM that is taken (R44). -/
theorem State.arm_taken (s : State) (use : PortUse) (q : BitVec 16) (h : s.chip.commands use.port 65 = true)
    (hl : s.chip.lcc.lifecycle = .running) (ha : s.chip.tbu.heartbeat ≠ .armed) :
    ∃ t, exec (.arm use q) s = .next t ∧ State.ended use.port ⟨false, 0⟩ timePieces s t ∧
      Chip.LeavesExpired [portPiece use.port, .arbiter, .requests, .jobs, .tbu, .statusMark]
        { s.chip.tbu with
          heartbeat := .armed, expected := q + 1, deadline := some (s.chip.tbu.mono + s.chip.settings.heartbeatPeriod) }
        s.chip t.chip := by
  refine s.heartbeat_leaves use .arm q _ h hl ?_ fun c htbu hset => ?_
  · rw [HeartbeatCode.takenIn_arm]
    exact decide_eq_true ha
  · rw [← htbu, ← hset]
    exact c.leavesExpired_arm q

/-- Settles O20: ARM by `State.arm_taken` and, in ARMED, as any code that its state does not take. -/
theorem armStartsTheCountdown : Obligations.ArmStartsTheCountdown := by
  intro s use q h hl
  refine ⟨fun ha => ?_, fun ha => ?_⟩
  · obtain ⟨t, ht, hend, hleft⟩ := s.arm_taken use q h hl ha
    exact ⟨t, ht, hend, hleft.tbu, hleft.fallback, hleft.ended, hleft.stays⟩
  · obtain ⟨hc, t, ht, hend⟩ := s.heartbeat_refused use .arm q h hl (by rw [HeartbeatCode.takenIn_arm]; simp [ha])
    exact ⟨t, ht, hend, hc⟩

/-- A FEED in turn moves the deadline and the expected sequence alone. -/
theorem Chip.heartbeat_feed (q : BitVec 16) (c : Chip) (hq : q = c.tbu.expected) : c.heartbeat .feed q =
    { c with tbu := { c.tbu with expected := q + 1, deadline := some (c.tbu.mono + c.settings.heartbeatPeriod) } } :=
  if_pos hq

/-- Settles O21: FEED in turn, out of turn and refused, and the countdown, which goes into EXPIRED as FEED does. -/
theorem feedAndExpiry : Obligations.FeedAndExpiry := by
  refine ⟨fun s use q h hl => ⟨fun ha hq => ?_, fun ha hq => ?_, fun ha => ?_⟩, fun s hq ha hd => ?_⟩
  · obtain ⟨t, c, ht, hc, hafter, hm, hp, ho, hans, -⟩ := s.heartbeat_taken use .feed q h hl (by
      rw [HeartbeatCode.takenIn_feed]; exact decide_eq_true ha)
    have htbu : c.tbu = s.chip.tbu := hc .tbu (by cases use.port <;> decide)
    have hset : c.settings = s.chip.settings := hc .settings (by cases use.port <;> decide)
    rw [c.heartbeat_feed q (by rw [htbu]; exact hq)] at hafter
    refine ⟨t, ht, ⟨hm, hp, ho, hans, ?_⟩, ?_⟩
    · exact ((hc.mono (by simp)).then ((Chip.same_tbu _ c).mono (by simp))).then (hafter.mono (by simp))
    · rw [← htbu, ← hset]
      exact hafter .tbu (by cases use.port <;> decide)
  · obtain ⟨t, ht, hend, hx⟩ := s.heartbeat_expires use .feed q h hl
      (by rw [HeartbeatCode.takenIn_feed]; exact decide_eq_true ha)
      fun c htbu => if_neg (by rw [htbu]; exact hq)
    exact ⟨t, ht, hend, hx.tbu, hx.fallback, hx.pending, hx.counters, hx.moved⟩
  · obtain ⟨hc, t, ht, hend⟩ := s.heartbeat_refused use .feed q h hl (by rw [HeartbeatCode.takenIn_feed]; simp [ha])
    exact ⟨t, ht, hend, hc⟩
  · obtain ⟨ht, hhap⟩ := s.event_happened s.chip.heartbeatDue Chip.enterExpired timePieces
      (by simp [Chip.heartbeatDue, ha, hd]) hq s.chip.same_enterExpired (by decide)
    have hsettle := (Chip.quiet_settles hq s.chip.same_enterExpired (by decide)).1
    have hx := s.chip.entersExpired.of_same (.refl _ _) (hsettle.mono (by decide))
    exact ⟨_, ht, hhap, hx.tbu, hx.fallback, hx.pending, hx.counters, hx.moved⟩

/-- Settles O22: PAUSE and DISARM leave EXPIRED or its absence, EXPIRE goes into it; the others are refused. -/
theorem pauseExpireDisarm : Obligations.PauseExpireDisarm := by
  intro s use h hl
  have hleaves : ∀ (code : HeartbeatCode) (hb : Heartbeat), code.takenIn s.chip.tbu.heartbeat = true → hb ≠ .expired →
      (∀ c : Chip, c.heartbeat code 0 = c.heartbeatTo hb none) → _ := fun code hb ht hne hto =>
    s.heartbeat_leaves use code 0 { s.chip.tbu with heartbeat := hb, deadline := none } h hl ht fun c htbu _ => by
      rw [hto, ← htbu]
      exact c.leavesExpired_heartbeatTo hb none hne
  refine ⟨?_, ?_, fun hp => ⟨?_, fun q => ?_, fun q => ?_⟩⟩
  · rintro i hb (⟨rfl, rfl, ha⟩ | ⟨rfl, rfl, ha⟩ | ⟨rfl, rfl, ha⟩)
    · obtain ⟨t, ht, hend, hx⟩ := hleaves .pause .paused
        (by rw [HeartbeatCode.takenIn_pause]; exact decide_eq_true ha) nofun fun _ => rfl
      exact ⟨t, ht, hend, hx.tbu, nofun, fun _ => ⟨hx.fallback, hx.ended, hx.stays⟩⟩
    · obtain ⟨t, ht, hend, hx⟩ := s.heartbeat_expires use .expire 0 h hl
        (by rw [HeartbeatCode.takenIn_expire]; exact decide_eq_true ha) fun _ _ => rfl
      exact ⟨t, ht, hend, hx.tbu, fun _ => ⟨hx.fallback, hx.pending, hx.counters, hx.moved⟩, fun hn => absurd rfl hn⟩
    · obtain ⟨t, ht, hend, hx⟩ := hleaves .disarm .disarmed
        (by rw [HeartbeatCode.takenIn_disarm]; exact decide_eq_true ha) nofun fun _ => rfl
      exact ⟨t, ht, hend, hx.tbu, nofun, fun _ => ⟨hx.fallback, hx.ended, hx.stays⟩⟩
  · rintro i v (⟨rfl, rfl, ha⟩ | ⟨rfl, rfl, ha, hp⟩ | ⟨rfl, rfl, ha⟩)
    · exact s.heartbeat_refused use .pause 0 h hl (by rw [HeartbeatCode.takenIn_pause]; simp [ha])
    · exact s.heartbeat_refused use .expire 0 h hl (by rw [HeartbeatCode.takenIn_expire]; simp [ha, hp])
    · exact s.heartbeat_refused use .disarm 0 h hl (by rw [HeartbeatCode.takenIn_disarm]; simp [ha])
  · exact if_neg (by simp [Chip.heartbeatDue, hp])
  · exact (s.heartbeat_refused use .feed q h hl (by rw [HeartbeatCode.takenIn_feed]; simp [hp])).1
  · obtain ⟨t, ht, -, hx⟩ := s.arm_taken use q h hl (by simp [hp])
    exact ⟨t, ht, by rw [hx.tbu], by rw [hx.tbu]⟩

end Sys2Proof.Machine
end

section
/-! The layouts of records (O58): each field of a word that the part composes, and the bits that no field takes. -/

namespace Sys2Proof.Machine

/-! ### Bits beside the fields -/

theorem orWords_and_eq_zero {a b m : Word} (ha : a &&& m = 0) (hb : b &&& m = 0) : (a ||| b) &&& m = 0 := by
  rw [BitVec.and_or_distrib_right, ha, hb]
  rfl

/-- A placed value has no bit of a mask that leaves its field out. -/
theorem place_and_eq_zero {n : Nat} (v : BitVec n) (lo : Nat) (m : Word) (h : field m lo n = 0) : place v lo &&& m = 0 := by
  apply BitVec.eq_of_getLsbD_eq
  intro i hi
  rw [BitVec.getLsbD_and, getLsbD_place _ _ _ hi]
  by_cases hlo : lo ≤ i
  · by_cases hn : i - lo < n
    · have hm : (field m lo n).getLsbD (i - lo) = m.getLsbD i := by
        rw [field, BitVec.getLsbD_extractLsb']
        simp [hn, Nat.add_sub_cancel' hlo]
      rw [← hm, h]
      simp
    · rw [BitVec.getLsbD_of_ge v _ (Nat.le_of_not_lt hn)]
      simp
  · simp [hlo]

theorem flagAt_and_eq_zero (b : Bool) (n : Nat) (m : Word) (h : bit m n = false) : flagAt b n &&& m = 0 := by
  apply BitVec.eq_of_getLsbD_eq
  intro i hi
  rw [BitVec.getLsbD_and, getLsbD_flagAt _ _ _ hi]
  by_cases hin : i = n
  · have hm : m.getLsbD i = false := by rw [hin]; exact h
    simp [hm]
  · simp [hin]

/-- A bit of a placed value. -/
theorem bit_place_on {n : Nat} (v : BitVec n) (lo i : Nat) (hi : i < 32) (h : lo ≤ i) :
    bit (place v lo) i = v.getLsbD (i - lo) := by
  rw [bit, getLsbD_place _ _ _ hi]
  simp [h]

/-! ### Subscriber records (R78, R175) -/

theorem orderStateOfCode_code (s : OrderState) : orderStateOfCode s.code = s := by cases s <;> rfl

/-- A code that names no order state is read as IDLE (R175). -/
theorem orderStateOfCode_spec (k : BitVec 3) :
    k = (orderStateOfCode k).code ∨ (5 < k.toNat ∧ orderStateOfCode k = .idle) := by
  revert k
  decide

theorem TapStatus.word_rest (t : TapStatus) : field t.word 0 2 = t.level ∧ bit t.word 2 = t.gate ∧
    field t.word 12 4 = t.attempts ∧ bit t.word 16 = t.lowSignal ∧ bit t.word 20 = t.unset ∧
      bit t.word 21 = t.unlocked := by
  simp (disch := decide) [TapStatus.word, field_or, bit_or, field_place, field_place_off, field_flagAt_off,
    bit_flagAt, bit_flagAt_off, bit_place_off]

/-- What w2 is written from is what it is read as. -/
theorem tapStatusOf_word (t : TapStatus) : tapStatusOf t.word = t := by
  obtain ⟨hlevel, hgate, hattempts, hlow, hunset, hunlocked⟩ := t.word_rest
  rw [tapStatusOf, hlevel, hgate, hattempts, hlow, hunset, hunlocked, t.word_order, t.word_result, orderStateOfCode_code]

theorem TapStatus.word_and (t : TapStatus) : t.word &&& 0xFFCE0888 = 0 := by
  simp (disch := decide) only [TapStatus.word, BitVec.and_or_distrib_right, place_and_eq_zero, flagAt_and_eq_zero, BitVec.or_self]

theorem subW3_fields (demand : BitVec 8) (delivered : Bool) : field (subW3 demand delivered) 0 8 = demand ∧
    bit (subW3 demand delivered) 8 = delivered ∧ subW3 demand delivered &&& 0xFFFFFE00 = 0 := by
  refine ⟨?_, ?_, orWords_and_eq_zero (place_and_eq_zero _ _ _ (by decide)) (flagAt_and_eq_zero _ _ _ (by decide))⟩
  · simp (disch := decide) [subW3, field_or, field_place, field_flagAt_off]
  · simp (disch := decide) [subW3, bit_or, bit_place_off, bit_flagAt]

/-! ### Channel map entries (R175) -/

theorem Entry.w4_fields (e : Entry) : field e.w4 0 7 = e.applied ∧ field e.w4 8 2 = e.route.code ∧
    field e.w4 10 2 = classCode e.cls ∧ field e.w4 12 3 = phaseCode e.phase ∧ field e.w4 16 3 = e.attempts ∧
      bit e.w4 20 = e.unset ∧ bit e.w4 21 = e.unlocked := by
  simp (disch := decide) [Entry.w4, field_or, bit_or, field_place, field_place_off, field_flagAt_off, bit_flagAt,
    bit_flagAt_off, bit_place_off]

theorem Entry.w4_and (e : Entry) : e.w4 &&& 0xFFC88080 = 0 := by
  simp (disch := decide) only [Entry.w4, BitVec.and_or_distrib_right, place_and_eq_zero, flagAt_and_eq_zero, BitVec.or_self]

/-! ### The status word (R168) -/

theorem Chip.statusWord_fields (c : Chip) : field c.statusWord 0 3 = c.lcc.lifecycle.code ∧
    field c.statusWord 4 3 = BitVec.ofNat 3 c.lcc.phase ∧ field c.statusWord 8 2 = c.tbu.heartbeat.code := by
  simp (disch := decide) [Chip.statusWord, field_or, field_place, field_place_off, field_flagAt_off]

theorem Chip.statusWord_flags (c : Chip) : bit c.statusWord 10 = c.tbu.set ∧ bit c.statusWord 11 = c.tbu.locked ∧
    bit c.statusWord 12 = decide (c.lue.take = .applying) ∧ bit c.statusWord 13 = c.clu.low ∧
      bit c.statusWord 14 = c.toe.blocked ∧ bit c.statusWord 15 = c.swe.work.isSome := by
  have htake : c.lue.take.code.getLsbD 0 = decide (c.lue.take = .applying) := by cases c.lue.take <;> rfl
  rw [← htake]
  simp (disch := decide) [Chip.statusWord, bit_or, bit_flagAt, bit_flagAt_off, bit_place_off, bit_place_on]

theorem Chip.statusWord_and (c : Chip) : c.statusWord &&& 0xFFFF0088 = 0 := by
  simp (disch := decide) only [Chip.statusWord, BitVec.and_or_distrib_right, place_and_eq_zero, flagAt_and_eq_zero, BitVec.or_self]

/-! ### Outage and charge log records (R156, R157) -/

theorem outageW3_fields (duration progress : Nat) (hd : duration < 524288) (hp : progress < 8192) :
    fieldNat (outageW3 duration progress) 0 19 = duration ∧ fieldNat (outageW3 duration progress) 19 13 = progress := by
  have hlow : field (outageW3 duration progress) 0 19 = BitVec.ofNat 19 duration := by
    simp (disch := decide) [outageW3, field_or, field_place, field_place_off]
  have hhigh : field (outageW3 duration progress) 19 13 = BitVec.ofNat 13 progress := by
    simp (disch := decide) [outageW3, field_or, field_place, field_place_off]
  rw [fieldNat, fieldNat, hlow, hhigh, BitVec.toNat_ofNat, BitVec.toNat_ofNat]
  exact ⟨Nat.mod_eq_of_lt hd, Nat.mod_eq_of_lt hp⟩

/-- The first two words of a record say its kind, the stamp and the subject (R157). -/
theorem logRecord_head (kind : BitVec 4) (stamp : Stamp) (subject : BitVec 16) (w2 w3 : Word) :
    field (logRecord kind stamp subject w2 w3).w0 0 4 = kind ∧ bit (logRecord kind stamp subject w2 w3).w0 4 = stamp.unset ∧
      bit (logRecord kind stamp subject w2 w3).w0 5 = stamp.unlocked ∧
      field (logRecord kind stamp subject w2 w3).w0 16 16 = subject ∧
      (logRecord kind stamp subject w2 w3).w0 &&& 0xFFC0 = 0 ∧ (logRecord kind stamp subject w2 w3).w1 = stamp.wall := by
  refine ⟨?_, ?_, ?_, ?_, ?_, rfl⟩
  case refine_5 =>
    simp (disch := decide) only [logRecord, BitVec.and_or_distrib_right, place_and_eq_zero, flagAt_and_eq_zero,
      BitVec.or_self]
  all_goals simp (disch := decide) [logRecord, field_or, bit_or, field_place, field_place_off, field_flagAt_off, bit_flagAt,
    bit_flagAt_off, bit_place_off]

/-- Two values placed beside each other. -/
theorem placed_pair {n k : Nat} (v : BitVec n) (x : BitVec k) (lo : Nat) (m : Word) (hlo : n ≤ lo) (hk : lo + k ≤ 32)
    (hm : field m 0 n = 0) (hm' : field m lo k = 0) :
    field (place v 0 ||| place x lo) 0 n = v ∧ field (place v 0 ||| place x lo) lo k = x ∧
      (place v 0 ||| place x lo) &&& m = 0 := by
  refine ⟨?_, ?_, orWords_and_eq_zero (place_and_eq_zero _ _ _ hm) (place_and_eq_zero _ _ _ hm')⟩
  · rw [field_or, field_place _ 0 (by omega), field_place_off _ lo 0 n (by omega) (Or.inl (by omega))]
    simp
  · rw [field_or, field_place_off _ 0 lo k hk (Or.inr (by omega)), field_place _ lo hk]
    simp

/-- One value in the low bits. -/
theorem placed_low {n : Nat} (v : BitVec n) (m : Word) (hn : n ≤ 32) (hm : field m 0 n = 0) :
    field (place v 0) 0 n = v ∧ place v 0 &&& m = 0 :=
  ⟨field_place v 0 (by omega), place_and_eq_zero _ _ _ hm⟩

/-! ### Prices and digests (R156) -/

theorem Chip.priceOf_unbound (c : Chip) (number : BitVec 8) (h : ∀ b ∈ c.lue.eventMap, b.1 ≠ number) :
    c.priceOf number = 0 := by
  have hf : c.lue.bound number = none := by
    rw [Lue.bound, Option.map_eq_none_iff, List.find?_eq_none]
    simpa using h
  rw [Chip.priceOf, hf]

theorem Chip.priceOf_bound (c : Chip) (number : BitVec 8) (i : Nat) (e : Entry)
    (honly : ∀ b ∈ c.lue.eventMap, b.1 = number → b.2 = i) (hi : (number, i) ∈ c.lue.eventMap)
    (he : c.lue.entries[i]? = some e) : c.priceOf number = field e.w1 16 16 := by
  have hf : c.lue.bound number = some i := by
    cases hx : c.lue.eventMap.find? (fun b => b.1 = number) with
    | none =>
      have hnot := List.find?_eq_none.1 hx _ hi
      simp at hnot
    | some b =>
      have hb : b.1 = number := by simpa using List.find?_some hx
      rw [Lue.bound, hx, ← honly b (List.mem_of_find?_eq_some hx) hb]
      rfl
  simp only [Chip.priceOf, hf, he]
  rfl

/-- A digest may be taken in parts. -/
theorem crcExtend_append (stored : Word) (a b : List Byte) : crcExtend stored (a ++ b) = crcExtend (crcExtend stored a) b := by
  simp only [crcExtend, List.foldl_append, BitVec.not_not]

/-- The check value of the CRC over the nine digits. -/
theorem crcExtend_digits : crcExtend 0 [0x31, 0x32, 0x33, 0x34, 0x35, 0x36, 0x37, 0x38, 0x39] = 0xCBF43926 := by
  decide +kernel

/-- Settles O58: each word by the fields that it is composed of. -/
theorem recordsAreLaidOut : Obligations.RecordsAreLaidOut := by
  refine ⟨fun c m sub => ?_, fun x demand delivered => ?_, fun e => ?_, fun c => ?_, Chip.interrupt_iff, crcExtend_append,
    crcExtend_digits, outageW3_fields, ?_, fun c number => ⟨rfl, c.priceOf_unbound number, c.priceOf_bound number⟩⟩
  · exact ⟨rfl, rfl, rfl, rfl, rfl, rfl, rfl, rfl, orderStateOfCode_spec _, rfl, rfl⟩
  · exact ⟨tapStatusOf_word x, x.word_and, subW3_fields demand delivered⟩
  · obtain ⟨happlied, hroute, hcls, hphase, hattempts, hunset, hunlocked⟩ := e.w4_fields
    refine ⟨happlied, hroute.trans ?_, hcls.trans ?_, hphase.trans ?_, hattempts, hunset, hunlocked, e.w4_and⟩
    · cases e.route <;> rfl
    · rcases e.cls with _ | k
      · rfl
      · cases k <;> rfl
    · rcases e.phase with _ | p
      · rfl
      · cases p <;> rfl
  · obtain ⟨hlife, hphase, hheart⟩ := c.statusWord_fields
    obtain ⟨hset, hlocked, htake, hlow, hblocked, hwork⟩ := c.statusWord_flags
    refine ⟨hlife.trans ?_, hphase, hheart.trans ?_, hset, hlocked, htake, hlow, hblocked, hwork, c.statusWord_and⟩
    · cases c.lcc.lifecycle <;> rfl
    · cases c.tbu.heartbeat <;> rfl
  · intro stamp sub minutes node old new result reason number entry price outage period count digest
    refine ⟨⟨logRecord_head _ _ _ _ _, ?_⟩, ⟨logRecord_head _ _ _ _ _, ?_⟩, ⟨logRecord_head _ _ _ _ _, ?_⟩,
      ⟨logRecord_head _ _ _ _ _, ?_⟩, ⟨logRecord_head _ _ _ _ _, rfl, rfl⟩⟩
    · obtain ⟨hold, hnew, hrest⟩ := placed_pair old new 8 0xFFFFFCFC (by decide) (by decide) (by decide) (by decide)
      exact ⟨hold, hnew, hrest, placed_low result 0xFFFFFFFC (by decide) (by decide)⟩
    · obtain ⟨hnumber, hentry, hrest⟩ := placed_pair number entry 8 0xFFFF8000 (by decide) (by decide) (by decide) (by decide)
      exact ⟨hnumber, hentry, hrest, placed_low price 0xFFFF0000 (by decide) (by decide)⟩
    · obtain ⟨hnumber, hreason, hrest⟩ := placed_pair number reason 8 0xFFFFFC00 (by decide) (by decide) (by decide) (by decide)
      exact ⟨hnumber, hreason, hrest, placed_low price 0xFFFF0000 (by decide) (by decide)⟩
    · obtain ⟨houtage, hnode, hrest⟩ := placed_pair outage (BitVec.ofNat 5 node) 16 0xFFE00000 (by decide) (by decide)
        (by decide) (by decide)
      exact ⟨houtage, hnode, hrest, placed_low (BitVec.ofNat 16 minutes) 0xFFFF0000 (by decide) (by decide)⟩

end Sys2Proof.Machine
end

section
/-! Time (O25, O27): TIME writes, wall seconds, reference pulses and the loss of lock, with what a time change does to the
line-up and hands to the sweep queue. -/

namespace Sys2Proof.Machine

/-! ### Closes handed (R58, R125) -/

/-- A close that is handed is queued already, finds no room, or joins the tail. -/
theorem Swe.handClose_cases (s : Swe) (n : BitVec 8) :
    ((∃ y ∈ s.queue, y.kind = .eventClose n) ∧ s.handClose n = s) ∨
      (192 ≤ s.queue.length ∧ s.handClose n = s) ∨
      ((∀ y ∈ s.queue, y.kind ≠ .eventClose n) ∧
        s.handClose n = { s with queue := s.queue ++ [⟨.eventClose n, 0, true, false, false⟩] }) := by
  unfold Swe.handClose
  split
  · rename_i hany
    exact Or.inl ⟨by simpa using hany, rfl⟩
  · rename_i hany
    have hnone : ∀ y ∈ s.queue, y.kind ≠ .eventClose n := by simpa using hany
    unfold Swe.join
    split
    · exact Or.inr (Or.inr ⟨hnone, rfl⟩)
    · rename_i hroom
      exact Or.inr (Or.inl ⟨Nat.le_of_not_lt hroom, rfl⟩)

/-- A time change to `wall` puts the entry in CLOSING (R57). -/
abbrev Entry.Closes (wall : Word) (e : Entry) : Prop :=
  bit e.w0 31 = true ∧ e.aside = false ∧ bit e.w0 12 = true ∧ e.phaseMoved wall = some .closing ∧ e.phase ≠ some .closing

/-- The sweep queue after the evaluation of an entry in RUNNING. -/
def Swe.closed (wall : Word) (s : Swe) (e : Entry) : Swe := if e.Closes wall then s.handClose e.number else s

/-- What the closes of the entries `l` leave of the sweep queue `s`. -/
structure Swe.Handed (wall : Word) (l : List Entry) (s d : Swe) : Prop where
  work : d.work = s.work
  joined : ∃ new, d.queue = s.queue ++ new ∧ (new.map fun x => x.kind).Nodup ∧
    ∀ x ∈ new, (∀ y ∈ s.queue, y.kind ≠ x.kind) ∧
      ∃ e ∈ l, e.Closes wall ∧ x = ⟨.eventClose (field e.w1 0 8), 0, true, false, false⟩
  all : s.queue.length + l.length ≤ 192 → ∀ e ∈ l, e.Closes wall → ∃ x ∈ d.queue, x.kind = .eventClose (field e.w1 0 8)

/-- One entry's close at most joins the tail, and where there is room it is queued then. -/
theorem Swe.closed_cases (wall : Word) (s : Swe) (e : Entry) :
    (s.closed wall e = s ∨ (e.Closes wall ∧ (∀ y ∈ s.queue, y.kind ≠ .eventClose e.number) ∧
      s.closed wall e = { s with queue := s.queue ++ [⟨.eventClose e.number, 0, true, false, false⟩] })) ∧
    (e.Closes wall → s.queue.length < 192 → ∃ x ∈ (s.closed wall e).queue, x.kind = .eventClose e.number) := by
  unfold Swe.closed
  split
  · rename_i hc
    refine ⟨?_, fun _ hroom => s.handClose_mem e.number hroom⟩
    rcases s.handClose_cases e.number with ⟨-, h⟩ | ⟨-, h⟩ | ⟨hnone, h⟩
    · exact Or.inl h
    · exact Or.inl h
    · exact Or.inr ⟨hc, hnone, h⟩
  · rename_i hc
    exact ⟨Or.inl rfl, fun h => absurd h hc⟩

/-- The closes are handed one after another. -/
theorem Swe.handed_foldl (wall : Word) (l : List Entry) (s : Swe) : Swe.Handed wall l s (l.foldl (Swe.closed wall) s) := by
  induction l generalizing s with
  | nil => exact ⟨rfl, ⟨[], by simp, by simp, by simp⟩, by simp⟩
  | cons e l ih =>
    obtain ⟨hcases, hqueued⟩ := s.closed_cases wall e
    obtain ⟨hwork, ⟨new, hnew, hnodup, hfrom⟩, hall⟩ := ih (s.closed wall e)
    rw [List.foldl_cons]
    have hrest : s.queue.length + (e :: l).length ≤ 192 → (s.closed wall e).queue.length ≤ s.queue.length + 1 →
        ∀ x ∈ e :: l, x.Closes wall →
          ∃ y ∈ (l.foldl (Swe.closed wall) (s.closed wall e)).queue, y.kind = .eventClose (field x.w1 0 8) := by
      intro hroom hlen x hx hc
      rw [List.length_cons] at hroom
      rcases List.mem_cons.1 hx with rfl | hx
      · obtain ⟨y, hy, hk⟩ := hqueued hc (by omega)
        exact ⟨y, by rw [hnew]; exact List.mem_append_left _ hy, hk⟩
      · exact hall (by omega) x hx hc
    rcases hcases with heq | ⟨hc, hnone, heq⟩
    · rw [heq] at hwork hnew hfrom hrest ⊢
      refine ⟨hwork, ⟨new, hnew, hnodup, fun x hx => ?_⟩, fun hroom => hrest hroom (by omega)⟩
      obtain ⟨hfresh, y, hy, hyc, rfl⟩ := hfrom x hx
      exact ⟨hfresh, y, List.mem_cons_of_mem _ hy, hyc, rfl⟩
    · rw [heq] at hwork hnew hfrom hrest ⊢
      refine ⟨hwork, ⟨⟨.eventClose e.number, 0, true, false, false⟩ :: new, ?_, ?_, fun x hx => ?_⟩,
        fun hroom => hrest hroom (by simp)⟩
      · rw [hnew, List.append_assoc]
        rfl
      · rw [List.map_cons, List.nodup_cons]
        refine ⟨fun hm => ?_, hnodup⟩
        obtain ⟨x, hx, hk⟩ := List.mem_map.1 hm
        exact (hfrom x hx).1 _ (List.mem_append_right _ (List.mem_singleton.2 rfl)) hk.symm
      · rcases List.mem_cons.1 hx with rfl | hx
        · exact ⟨hnone, e, List.mem_cons_self, hc, rfl⟩
        · obtain ⟨hfresh, y, hy, hyc, rfl⟩ := hfrom x hx
          exact ⟨fun z hz => hfresh z (List.mem_append_left _ hz), y, List.mem_cons_of_mem _ hy, hyc, rfl⟩

/-! ### The sweep queue after a time change -/

theorem Chip.evaluatePhase_untracked (i : Nat) (e : Entry) (c : Chip) (he : c.lue.entries[i]? = some e)
    (ht : ¬e.Tracked) : c.evaluatePhase i = c := by
  have hnot : ¬e.event = true := fun h => ht (e.event_iff.1 h)
  unfold Chip.evaluatePhase
  simp only [he]
  split
  · rfl
  · rfl
  · exact if_neg hnot

/-- The evaluation of an entry in RUNNING hands its close; elsewhere it hands none. -/
theorem Chip.swe_evaluatePhase_closed (i : Nat) (c : Chip) : (c.evaluatePhase i).swe =
    if c.lcc.lifecycle = .running then c.lue.entries[i]?.toList.foldl (Swe.closed c.tbu.wall) c.swe else c.swe := by
  cases he : c.lue.entries[i]? with
  | none =>
    have hkept : c.evaluatePhase i = c := by
      unfold Chip.evaluatePhase
      simp only [he]
    rw [hkept]
    simp
  | some e =>
    by_cases ht : e.Tracked
    · rw [c.swe_evaluatePhase i e he ht]
      by_cases hl : c.lcc.lifecycle = .running
      · rw [if_pos hl]
        exact if_congr ⟨fun ⟨hm, hp, _⟩ => ⟨ht.1.1, ht.1.2, ht.2, hm, hp⟩, fun h => ⟨h.2.2.2.1, h.2.2.2.2, hl⟩⟩ rfl rfl
      · rw [if_neg hl, if_neg fun h => hl h.2.2]
    · rw [c.evaluatePhase_untracked i e he ht]
      have hclosed : c.swe.closed c.tbu.wall e = c.swe := if_neg fun h => ht ⟨⟨h.1, h.2.1⟩, h.2.2.1⟩
      simp [hclosed]

/-- The part after the evaluation of the first `n` entries: time and the lifecycle stand, the other entries are as before,
and the closes of the first are handed. -/
theorem Chip.evaluated_prior (n : Nat) (c : Chip) :
    let d := (List.range n).foldl (fun c i => c.evaluatePhase i) c
    d.tbu = c.tbu ∧ d.lcc.lifecycle = c.lcc.lifecycle ∧ (∀ j, n ≤ j → d.lue.entries[j]? = c.lue.entries[j]?) ∧
      d.swe = if c.lcc.lifecycle = .running then (c.lue.entries.take n).foldl (Swe.closed c.tbu.wall) c.swe else c.swe := by
  induction n with
  | zero => exact ⟨rfl, rfl, fun _ _ => rfl, by simp⟩
  | succ n ih =>
    rw [List.range_succ, List.foldl_append, List.foldl_cons, List.foldl_nil]
    generalize (List.range n).foldl (fun c i => c.evaluatePhase i) c = d at ih ⊢
    obtain ⟨htbu, hlife, hlater, hswe⟩ := ih
    refine ⟨(d.same_evaluatePhase n .tbu (by decide)).trans htbu, (d.same_evaluatePhase n).lccItems.1.trans hlife,
      fun j hj => ?_, ?_⟩
    · rw [Chip.entries_evaluatePhase, List.getElem?_modify_ne _ _ (by omega)]
      exact hlater j (by omega)
    · rw [Chip.swe_evaluatePhase_closed, hlife, htbu, hlater n (Nat.le_refl n), hswe]
      split
      · rw [List.take_add_one, List.foldl_append]
      · rfl

theorem Chip.swe_timeChange (c : Chip) : c.timeChange.swe =
    if c.lcc.lifecycle = .running then c.lue.entries.foldl (Swe.closed c.tbu.wall) c.swe else c.swe := by
  unfold Chip.timeChange
  split
  · rw [(c.evaluated_prior c.lue.entries.length).2.2.2, List.take_length]
  · rename_i hw
    rw [if_neg fun hl => hw (by simp [Chip.working, hl])]

/-! ### What a time change leaves -/

/-- What a time change to `wall` leaves: the entries by the tables of R57 and R61, the route link as it was, and the closes
in the sweep queue. -/
structure Chip.TimeChanged (wall : Word) (c d : Chip) : Prop where
  entries : c.working = true → d.lue.entries = c.lue.entries.map fun e => e.atTime wall
  link : d.linkUse = c.linkUse
  closes : c.closesHanded wall d

theorem Chip.timeChanged_timeChange (c : Chip) : c.TimeChanged c.tbu.wall c.timeChange := by
  refine ⟨c.entries_timeChange, c.linkUse_timeChange, fun hl => ?_, fun hl => ?_⟩
  · rw [c.swe_timeChange, if_neg hl]
  · rw [c.swe_timeChange, if_pos hl]
    obtain ⟨hwork, hjoined, hall⟩ := Swe.handed_foldl c.tbu.wall c.lue.entries c.swe
    exact ⟨hwork, hjoined, hall⟩

/-- What a time change leaves is about the line-up, the sweep queue, the route link and the lifecycle. -/
theorem Chip.TimeChanged.congr {wall : Word} {c c' d d' : Chip} (h : c.TimeChanged wall d) (hl : c'.lue = c.lue)
    (hcc : c'.lcc.lifecycle = c.lcc.lifecycle) (hsw : c'.swe = c.swe) (hr : c'.routeLink = c.routeLink)
    (hl' : d'.lue = d.lue) (hsw' : d'.swe = d.swe) (hr' : d'.routeLink = d.routeLink) : c'.TimeChanged wall d' := by
  obtain ⟨hentries, hlink, hcloses⟩ := h
  unfold Chip.linkUse at hlink
  unfold Chip.closesHanded at hcloses
  rw [← Chip.working_congr hcc] at hentries
  rw [← hl, ← hl', ← hr, ← hr'] at hlink
  rw [← hl, ← hcc, ← hsw, ← hsw'] at hcloses
  rw [← hl, ← hl'] at hentries
  exact ⟨hentries, hlink, hcloses⟩

/-- Parts that agree on what a time change is about. -/
theorem Chip.TimeChanged.of_same {wall : Word} {c0 c d e : Chip} (h : c.TimeChanged wall d)
    (hc : Chip.Same [.portA, .portB, .arbiter, .requests, .jobs, .tbu, .statusMark] c0 c)
    (he : Chip.Same [.portA, .portB, .arbiter, .requests, .jobs] d e) : c0.TimeChanged wall e :=
  h.congr (hc .lue (by decide)).symm hc.lccItems.1.symm (hc .swe (by decide)).symm (hc .routeLink (by decide)).symm
    (he .lue (by decide)) (he .swe (by decide)) (he .routeLink (by decide))

/-! ### TIME writes (R37) -/

/-- The part with time set, before the time change. -/
def Chip.timeSet (v : Word) (c : Chip) : Chip := Chip.marking c { c with tbu := { c.tbu with wall := v, set := true } }

theorem Chip.setTime_eq (v : Word) (c : Chip) : c.setTime v = (c.timeSet v).timeChange := rfl

theorem Chip.tbu_timeSet (v : Word) (c : Chip) : (c.timeSet v).tbu = { c.tbu with wall := v, set := true } :=
  Chip.tbu_marking _ _

theorem Chip.same_timeSet (v : Word) (c : Chip) : Chip.Same [.tbu, .statusMark] c (c.timeSet v) :=
  ((Chip.same_tbu _ c).mono (by decide)).then ((Chip.same_marking _ _).mono (by decide))

theorem Chip.timeChanged_setTime (v : Word) (c : Chip) : c.TimeChanged v (c.setTime v) := by
  have hchanged := (c.timeSet v).timeChanged_timeChange
  rw [c.tbu_timeSet] at hchanged
  exact hchanged.of_same ((c.same_timeSet v).mono (by decide)) (.refl _ _)

/-- In a state that holds no phases only the Timebase differs. -/
theorem Chip.same_setTime_idle (v : Word) (c : Chip) (h : c.working = false) :
    Chip.Same [.tbu, .statusMark] c (c.setTime v) := by
  have hidle : (c.timeSet v).working = false := (Chip.working_congr (c.same_timeSet v).lccItems.1).trans h
  rw [c.setTime_eq, Chip.timeChange, if_neg (by simp [hidle])]
  exact c.same_timeSet v

/-- Settles O25: a TIME write is taken and answered, and leaves `Chip.setTime`. -/
theorem timeWriteSetsWallTime : Obligations.TimeWriteSetsWallTime := by
  intro s use v h
  obtain ⟨t, c, ht, hc, hans, hend⟩ := s.command_taken use 68 v timePieces h (by decide) (by decide) (by decide) rfl
    (Chip.same_setTime v)
  have hafter : Chip.Same [portPiece use.port, .arbiter, .requests, .jobs] (c.setTime v) t.chip := hans.same
  have htbu : c.tbu = s.chip.tbu := hc .tbu (by cases use.port <;> decide)
  have hchanged := (c.timeChanged_setTime v).of_same (hc.mono (by cases use.port <;> decide))
    (hafter.mono (by cases use.port <;> decide))
  refine ⟨t, ht, hend, ?_, fun hw => ?_, fun hw => ⟨hchanged.entries hw, hchanged.link⟩, hchanged.closes⟩
  · rw [hafter .tbu (by cases use.port <;> decide), c.setTime_eq, Tbu.heartbeat_timeChange, c.tbu_timeSet, htbu]
  · have hcw : c.working = false := (Chip.working_congr (hc.lccItems (by cases use.port <;> decide)).1).trans hw
    exact ((hc.mono (by simp)).then ((c.same_setTime_idle v hcw).mono (by simp))).then (hafter.mono (by simp))

/-! ### Wall seconds (R36) -/

theorem Chip.boundaryDue_iff (c : Chip) : c.boundaryDue = true ↔ 100 ≤ c.tbu.position := decide_eq_true_iff

theorem Chip.tbu_advanceWall (c : Chip) :
    c.advanceWall.tbu = { c.tbu with wall := c.tbu.wall + 1, position := 0 } := Tbu.heartbeat_timeChange _

theorem Chip.timeChanged_advanceWall (c : Chip) : c.TimeChanged (c.tbu.wall + 1) c.advanceWall :=
  (Chip.timeChanged_timeChange { c with tbu := { c.tbu with wall := c.tbu.wall + 1, position := 0 } }).of_same
    ((Chip.same_tbu _ c).mono (by decide)) (.refl _ _)

/-! ### The reference pulse (R39) -/

theorem Tbu.accepts_iff (t : Tbu) :
    t.accepts = true ↔ ∀ p, t.lastPulse = some p → 50 ≤ (t.mono - p).toNat := by
  unfold Tbu.accepts
  cases t.lastPulse with
  | none => simp
  | some p => simp [Config.pulseGuard, BitVec.le_def]

/-- The part that has recorded a pulse, before the boundary is aligned. -/
def Chip.pulsed (c : Chip) : Chip :=
  Chip.marking c { c with tbu := { c.tbu with lastPulse := some c.tbu.mono, locked := true } }

theorem Chip.tbu_pulsed (c : Chip) : c.pulsed.tbu = { c.tbu with lastPulse := some c.tbu.mono, locked := true } :=
  Chip.tbu_marking _ _

theorem Chip.same_pulsed (c : Chip) : Chip.Same [.tbu, .statusMark] c c.pulsed :=
  ((Chip.same_tbu _ c).mono (by decide)).then ((Chip.same_marking _ _).mono (by decide))

/-- A pulse that sets LOCKED marks the status word (R168). -/
theorem Chip.statusDirty_pulsed (c : Chip) (h : c.tbu.locked = false) : c.pulsed.rpu.statusDirty = true := by
  unfold Chip.pulsed Chip.marking
  split
  · rename_i heq
    have hbit := congrArg (fun w => bit w 11) heq
    dsimp only at hbit
    rw [(Chip.statusWord_flags _).2.1, (Chip.statusWord_flags _).2.1, h] at hbit
    cases hbit
  · rfl

/-- An accepted pulse aligns the boundary: early in a second it is put back, late it is made. -/
theorem Chip.pulse_accepted (c : Chip) (h : c.tbu.accepts = true) : c.pulse =
    if 50 ≤ c.tbu.position then c.pulsed.advanceWall else { c.pulsed with tbu := { c.pulsed.tbu with position := 0 } } := by
  have hposition : c.pulsed.tbu.position = c.tbu.position := by rw [c.tbu_pulsed]
  rw [← hposition]
  exact if_pos h

/-- A time change raises TAKE_DONE at most. -/
theorem Chip.flagged_evaluatePhase (i : Nat) (c : Chip) : Chip.Flagged c (c.evaluatePhase i) := by
  have hset : ∀ p, Chip.Flagged c (c.setPhase i p) := fun p => .of_rpu rfl
  have hclose : ∀ n, Chip.Flagged c (c.closeWindow i n) := fun n => .of_rpu (by
    unfold Chip.closeWindow Chip.handClose
    dsimp only
    repeat' split
    all_goals rfl)
  unfold Chip.evaluatePhase
  split
  · exact .refl c
  · split
    · exact .refl c
    · exact .refl c
    · split
      · unfold Chip.movePhase
        split
        · exact (hset _).routeRequest _ _
        · exact (hset _).routeRequest _ _
        · exact hclose _
        · exact (hclose _).routeRequest _ _
        · exact hset _
        · exact (hset _).routeRequest _ _
        · exact .refl c
      · exact .refl c

theorem Chip.flagged_timeChange (c : Chip) : Chip.Flagged c c.timeChange := by
  unfold Chip.timeChange
  split
  · exact List.foldlRecOn _ _ (.refl c) fun d hd i _ => hd.trans (d.flagged_evaluatePhase i)
  · exact .refl c

/-- What an accepted pulse leaves (R39, log 35). -/
structure Chip.PulseTaken (c d : Chip) : Prop where
  tbu : d.tbu = { c.tbu with
    lastPulse := some c.tbu.mono
    locked := true
    position := 0
    wall := if 50 ≤ c.tbu.position then c.tbu.wall + 1 else c.tbu.wall }
  late : 50 ≤ c.tbu.position → c.TimeChanged (c.tbu.wall + 1) d
  early : c.tbu.position < 50 → d.lue = c.lue ∧ d.swe = c.swe ∧ d.routeLink = c.routeLink
  marked : c.tbu.locked = false → d.rpu.statusDirty = true

theorem Chip.pulseTaken_pulse (c : Chip) (h : c.tbu.accepts = true) : c.PulseTaken c.pulse := by
  have hsame := c.same_pulsed
  rw [c.pulse_accepted h]
  by_cases hlate : 50 ≤ c.tbu.position
  · rw [if_pos hlate]
    refine ⟨?_, fun _ => ?_, fun hearly => absurd hlate (by omega), fun hl => ?_⟩
    · rw [Chip.tbu_advanceWall, c.tbu_pulsed, if_pos hlate]
    · have hchanged := c.pulsed.timeChanged_advanceWall
      rw [c.tbu_pulsed] at hchanged
      exact hchanged.of_same (hsame.mono (by decide)) (.refl _ _)
    · exact (Chip.flagged_timeChange _).marked (c.statusDirty_pulsed hl)
  · rw [if_neg hlate]
    refine ⟨?_, fun hl => absurd hl hlate, fun _ => ?_, c.statusDirty_pulsed⟩
    · rw [if_neg hlate]
      dsimp only
      rw [c.tbu_pulsed]
    · exact ⟨hsame .lue (by decide), hsame .swe (by decide), hsame .routeLink (by decide)⟩

theorem Chip.PulseTaken.of_same {c d e : Chip} (h : c.PulseTaken d) (he : Chip.Same [.requests, .jobs, .arbiter] d e) :
    c.PulseTaken e := by
  have hlue : e.lue = d.lue := he .lue (by decide)
  have hswe : e.swe = d.swe := he .swe (by decide)
  have hlink : e.routeLink = d.routeLink := he .routeLink (by decide)
  refine ⟨(he .tbu (by decide)).trans h.tbu, fun hl => (h.late hl).of_same (.refl _ _) (he.mono (by decide)), ?_, ?_⟩
  · rw [hlue, hswe, hlink]
    exact h.early
  · rw [he.rpu]
    exact h.marked

/-- The route link is neither used nor freed by a pulse. -/
theorem Chip.PulseTaken.linkUse {c d : Chip} (h : c.PulseTaken d) : d.linkUse = c.linkUse := by
  by_cases hlate : 50 ≤ c.tbu.position
  · exact (h.late hlate).link
  · obtain ⟨hlue, -, hlink⟩ := h.early (by omega)
    rw [Chip.linkUse, hlue, hlink]
    rfl

/-! ### The loss of the pulse (R40) -/

theorem Chip.same_loseSync_few (c : Chip) : Chip.Same [.tbu, .rpu, .statusMark] c c.loseSync :=
  (((Chip.same_tbu _ c).mono (by decide)).then ((Chip.same_markStatus _).mono (by decide))).then
    ((Chip.same_raise _ _).mono (by decide))

theorem Chip.rpu_loseSync (c : Chip) :
    c.loseSync.rpu.isPending .syncLost = true ∧ c.loseSync.rpu.statusDirty = true := by
  unfold Chip.loseSync
  rw [Chip.rpu_raise, Rpu.isPending_raise, Rpu.raise_statusDirty]
  exact ⟨by simp, rfl⟩

theorem Chip.lossDue_of (c : Chip) (p : Tick) (hl : c.tbu.locked = true) (hp : c.tbu.lastPulse = some p)
    (hm : c.tbu.mono = p + 300) : c.lossDue = true := by
  simp [Chip.lossDue, hl, hp, hm, Config.lossUnits]

/-- Settles O27: the boundary, the pulse and the loss watch as events of a quiet part. -/
theorem secondsAndPulses : Obligations.SecondsAndPulses := by
  refine ⟨fun s hq => ⟨fun hp => ?_, fun hp => ?_⟩, fun s hq => ⟨fun hp => ?_, fun p hp hg => ?_, fun p hl hp hm => ?_⟩⟩
  · obtain ⟨ht, hhap⟩ := s.event_happened s.chip.boundaryDue Chip.advanceWall timePieces (s.chip.boundaryDue_iff.2 hp) hq
      s.chip.same_advanceWall (by decide)
    have hsettle := (Chip.quiet_settles hq s.chip.same_advanceWall (by decide)).1
    have hchanged := s.chip.timeChanged_advanceWall.of_same (.refl _ _) (hsettle.mono (by decide))
    exact ⟨_, ht, hhap, (hsettle .tbu (by decide)).trans s.chip.tbu_advanceWall, hchanged.link, hchanged.closes,
      hchanged.entries⟩
  · exact if_neg fun h => absurd (s.chip.boundaryDue_iff.1 h.1) (by omega)
  · obtain ⟨ht, hhap⟩ := s.event_happened true Chip.pulse timePieces rfl hq s.chip.same_pulse (by decide)
    have hsettle := (Chip.quiet_settles hq s.chip.same_pulse (by decide)).1
    have htaken := (s.chip.pulseTaken_pulse (s.chip.tbu.accepts_iff.2 hp)).of_same hsettle
    refine ⟨_, ht, hhap, htaken.tbu, htaken.linkUse, fun hw hl => (htaken.late hl).entries hw,
      fun hl => (htaken.late hl).closes, fun he => ?_, htaken.marked⟩
    obtain ⟨hlue, hswe, -⟩ := htaken.early he
    exact ⟨hlue, hswe⟩
  · have hkept : s.chip.pulse = s.chip := if_neg fun h => absurd (s.chip.tbu.accepts_iff.1 h p hp) (by omega)
    obtain ⟨ht, hhap⟩ := s.event_happened true Chip.pulse [] rfl hq (by rw [hkept]; exact .refl _ _) (by decide)
    exact ⟨_, ht, hhap⟩
  · obtain ⟨ht, hhap⟩ := s.event_happened s.chip.lossDue Chip.loseSync [.tbu, .rpu, .statusMark]
      (s.chip.lossDue_of p hl hp hm) hq s.chip.same_loseSync_few (by decide)
    have hsettle := (Chip.quiet_settles hq s.chip.same_loseSync_few (by decide)).1
    have hrpu : s.chip.loseSync.settle.rpu = s.chip.loseSync.rpu := hsettle.rpu
    obtain ⟨hpending, hdirty⟩ := s.chip.rpu_loseSync
    refine ⟨_, ht, hhap, hsettle .tbu (by decide), ?_, ?_⟩
    · exact (congrArg (fun r : Rpu => r.isPending .syncLost) hrpu).trans hpending
    · exact (congrArg Rpu.statusDirty hrpu).trans hdirty

end Sys2Proof.Machine
end

section
/-! Whole-word writes to the channel map and to the subscriber table while they are watched (O14): the tests of R52 to R54
and R76, R77, one equation for each kind of word. -/

namespace Sys2Proof.Machine

/-! ### A permitted whole-word write to a watched table -/

/-- In RUNNING and STOPPING a permitted whole-word write is tested by its table alone. -/
theorem Chip.classify_tableWrite (p : Port) (a : Access) (t : Table) (c : Chip) (hs : 0x400 ≤ (wordAddr a.addr).toNat)
    (h : (wordAddr a.addr).toNat < c.map.memSize) (ht : c.tableOf (wordAddr a.addr).toNat = some t)
    (hl : c.lcc.lifecycle = .running ∨ c.lcc.lifecycle = .stopping) (hr : (c.placement t).right p = .readWrite)
    (hw : a.write = true) (he : a.enables = 0xF) :
    c.classify p a = c.tableWrite t (((wordAddr a.addr).toNat - (c.placement t).base) / t.recordSize)
      (((wordAddr a.addr).toNat - (c.placement t).base) % t.recordSize / 4) a.data := by
  have hwatched : c.watched = true := by
    rw [c.watched_iff]
    tauto
  rw [c.classify_table p a t h hs ht, c.tableVerdict_watched p a t hwatched, hr, if_neg (by simp), if_neg (by simp [hw]),
    if_neg (by simp [he])]

theorem Chip.not_loading_of_works {c : Chip} (hl : c.lcc.lifecycle = .running ∨ c.lcc.lifecycle = .stopping) :
    c.lcc.lifecycle ≠ .loading := by
  rcases hl with hl | hl <;> simp [hl]

theorem Chip.tableWrite_channelMap (i word : Nat) (v : Word) (c : Chip) (hl : c.lcc.lifecycle ≠ .loading)
    (h4 : word ≠ 4) (h5 : word ≠ 5) : c.tableWrite .channelMap i word v = c.mapVerdict i word v := by
  simp [Chip.tableWrite, Table.partOwned, hl, h4, h5]

theorem Chip.tableWrite_subscribers (i word : Nat) (v : Word) (c : Chip) (hl : c.lcc.lifecycle ≠ .loading)
    (h : word < 2 ∨ 5 ≤ word) : c.tableWrite .subscribers i word v = c.subscriberVerdict i word v := by
  have hn : Table.subscribers.partOwned word = false := by
    rw [Bool.eq_false_iff, Ne, Table.partOwned_iff]
    simp only [reduceCtorEq, false_and, true_and, false_or, or_false]
    omega
  simp [Chip.tableWrite, hn, hl]

/-! ### The tests of a map write (R52 to R54) -/

theorem wordInRange_eq_false (word : Nat) (v : Word) : wordInRange word v = false ↔
    (word = 0 ∧ 64 < (field v 16 7).toNat) ∨ (word = 1 ∧ 64 < (field v 8 7).toNat) := by
  match word with
  | 0 => simp [wordInRange]
  | 1 => simp [wordInRange]
  | n + 2 => simp [wordInRange]

/-- The test of R52: the field written, and, where the entry would stand in use and is not set aside, the entry as a whole. -/
theorem Lue.badValue_iff (l : Lue) (i word : Nat) (v : Word) (e : Entry) (he : l.entries[i]? = some e) :
    l.badValue i word v = true ↔
      (word = 0 ∧ 64 < (field v 16 7).toNat) ∨ (word = 1 ∧ 64 < (field v 8 7).toNat) ∨
        (e.aside = false ∧ bit (e.withWord word v).w0 31 = true ∧ (e.withWord word v).breaks i l.eventMap) := by
  have hwhole : bit (e.withWord word v).w0 31 = true → ((e.withWord word v).whole l.eventMap i = false ↔
      (e.withWord word v).breaks i l.eventMap) := fun hu => by
    rw [Bool.eq_false_iff, Ne, Entry.whole_iff _ _ _ hu, not_not]
  simp only [Lue.badValue, he, Bool.or_eq_true, Bool.and_eq_true, Bool.not_eq_true', wordInRange_eq_false, Entry.inUse,
    or_assoc, and_assoc]
  rw [and_congr_right fun _ => and_congr_right hwhole]

/-- The lock of R53, by the phase of the entry. -/
theorem Lue.eventLive_iff (l : Lue) (i word : Nat) (v : Word) (e : Entry) (he : l.entries[i]? = some e) :
    l.eventLive i word v = true ↔
      ((e.phase = some .inside ∨ e.phase = some .closing) ∧ (word ≠ 0 ∨ word = 0 ∧
        (bit (e.withWord word v).w0 31 = false ∨ bit (e.withWord word v).w0 12 ≠ bit e.w0 12))) ∨
      (e.phase = some .before ∧ ((word = 0 ∧
        (bit (e.withWord word v).w0 31 = false ∨ bit (e.withWord word v).w0 12 ≠ bit e.w0 12)) ∨
          (word = 1 ∧ field (e.withWord word v).w1 0 8 ≠ field e.w1 0 8))) := by
  unfold Lue.eventLive
  simp only [he]
  rcases hp : e.phase with _ | p
  · simp
  · cases p <;> simp [Entry.inUse, Entry.kindEvent, Entry.number]

/-- The order of the tests of a map write: BAD_VALUE, TABLE_BUSY, EVENT_LIVE. -/
theorem Chip.mapVerdict_hostWord (i word : Nat) (v : Word) (c : Chip) (h : word < 4) :
    c.mapVerdict i word v =
      if c.lue.badValue i word v = true then .refuse .badValue
      else if c.lue.take = .applying then .refuse .tableBusy
      else if c.lue.eventLive i word v = true then .refuse .eventLive
      else .pass (some ⟨.channelMap, i, word, v⟩) := by
  simp [Chip.mapVerdict, h, Nat.not_le.2 h]

/-- Words above w5 carry nothing: only a take locks them. -/
theorem Chip.mapVerdict_unusedWord (i word : Nat) (v : Word) (c : Chip) (h : 4 ≤ word) :
    c.mapVerdict i word v = if c.lue.take = .applying then .refuse .tableBusy else .pass none := by
  simp [Chip.mapVerdict, h, Nat.not_lt.2 h]

/-! ### The tests of a subscriber write (R76, R77) -/

theorem Chip.subscriberVerdict_unusedWord (i word : Nat) (v : Word) (c : Chip) (h : 2 ≤ word) :
    c.subscriberVerdict i word v = .pass none := by
  match word, h with
  | n + 2, _ => rfl

/-- Settles O14: by table and word, through the equations above. -/
theorem hostOwnedWritesAreTested : Obligations.HostOwnedWritesAreTested := by
  intro c p a t i word hs hsize ht hi hword hl hr hw he
  have hnot := Chip.not_loading_of_works hl
  have hclass := c.classify_tableWrite p a t hs hsize ht hl hr hw he
  rw [← hi, ← hword] at hclass
  refine ⟨fun e htab h4 hentry => ?_, fun htab h67 => ?_, fun htab h0 => ?_, fun htab h1 => ?_, fun htab h5 => ?_⟩
  · subst htab
    have hbad := c.lue.badValue_iff i word a.data e hentry
    have hlive := c.lue.eventLive_iff i word a.data e hentry
    rw [hclass, c.tableWrite_channelMap i word a.data hnot (by omega) (by omega), c.mapVerdict_hostWord i word a.data h4]
    dsimp only
    refine ⟨fun hb => if_pos (hbad.2 hb), fun hb htake => ?_, fun hb htake hlock => ?_, fun hb htake hlock => ?_⟩
    · rw [if_neg (hbad.not.2 hb), if_pos htake]
    · rw [if_neg (hbad.not.2 hb), if_neg (by simp [htake]), if_pos (hlive.2 hlock)]
    · rw [if_neg (hbad.not.2 hb), if_neg (by simp [htake]), if_neg (hlive.not.2 hlock)]
  · subst htab
    rw [hclass, c.tableWrite_channelMap i word a.data hnot (by omega) (by omega),
      c.mapVerdict_unusedWord i word a.data (by omega)]
  · subst htab h0
    rw [hclass, c.tableWrite_subscribers i 0 a.data hnot (by omega)]
    exact if_congr ((Bool.and_eq_true_iff).trans (and_congr_right fun _ => decide_eq_true_iff)) rfl rfl
  · subst htab h1
    rw [hclass, c.tableWrite_subscribers i 1 a.data hnot (by omega)]
    rfl
  · subst htab
    rw [hclass, c.tableWrite_subscribers i word a.data hnot (Or.inr h5), c.subscriberVerdict_unusedWord i word a.data (by omega)]

end Sys2Proof.Machine
end

section
/-! What the end of a take and the service of the link leave of the take, the owed times and the owed causes (R63, R72),
and the first of those that wait as the link's choice (R62). -/

namespace Sys2Proof.Machine

/-! ### The end of a take -/

/-- The end of a take is a change of the take's own items, and of the owed causes where entries are still to be written. -/
theorem Chip.lue_endTake_eq (r : TakeResult) (l : List Nat) (c : Chip) : (c.endTake r l).lue = { c.lue with
    take := .idle, takeResult := r,
    owedCauses := if l = [] then c.lue.owedCauses else c.lue.owedCauses ++ [⟨.takeDone, l⟩] } := by
  unfold Chip.endTake Chip.oweRoute
  split <;> rfl

/-- TAKE_DONE waits for the entries that the event has changed (R63). -/
theorem Chip.owed_endTake (r : TakeResult) (l : List Nat) (c : Chip) (h : l ≠ []) :
    (⟨.takeDone, l⟩ : OwedCause) ∈ (c.endTake r l).lue.owedCauses := by
  rw [Chip.lue_endTake_eq]
  dsimp only
  rw [if_neg h]
  exact List.mem_append_right _ (List.mem_singleton.2 rfl)

theorem Chip.pending_endTake (r : TakeResult) (c : Chip) : (c.endTake r []).rpu.isPending .takeDone = true :=
  Chip.pending_raise_self _ _

theorem Lue.takeWork_iff (l : Lue) : l.takeWork = true ↔
    (∃ e ∈ l.entries, e.pendingWith .take = true) ∨ ∃ o, l.order = some o ∧ o.cls = .take := by
  unfold Lue.takeWork
  cases l.order with
  | none => simp
  | some o => simp

theorem Chip.checkTake_goes_on (l : List Nat) (c : Chip) (h : c.lue.take = .applying → c.lue.takeWork = true) :
    c.checkTake l = c :=
  if_neg fun hx => by simp [h hx.1] at hx

theorem Chip.checkTake_ends (l : List Nat) (c : Chip) (h : c.lue.take = .applying) (hw : ¬c.lue.takeWork = true) :
    c.checkTake l = c.endTake (if c.lue.takeFailed = 0 then .complete else .partialTake) l :=
  if_pos ⟨h, Bool.eq_false_iff.2 hw⟩

/-- What is kept while requests settle and are sent: the failed count, the owed times, the owed causes, and a take that has
ended. -/
structure Chip.TakeKept (c d : Chip) : Prop where
  failed : d.lue.takeFailed = c.lue.takeFailed
  time : d.lue.owesTime = c.lue.owesTime
  causes : ∀ x ∈ c.lue.owedCauses, x ∈ d.lue.owedCauses
  idle : c.lue.take = .idle → d.lue.take = .idle ∧ d.lue.takeResult = c.lue.takeResult

theorem Chip.TakeKept.refl (c : Chip) : Chip.TakeKept c c := ⟨rfl, rfl, fun _ h => h, fun h => ⟨h, rfl⟩⟩

theorem Chip.TakeKept.trans {c d e : Chip} (h1 : Chip.TakeKept c d) (h2 : Chip.TakeKept d e) : Chip.TakeKept c e := by
  refine ⟨h2.failed.trans h1.failed, h2.time.trans h1.time, fun x hx => h2.causes x (h1.causes x hx), fun h => ?_⟩
  obtain ⟨ht, hr⟩ := h1.idle h
  obtain ⟨ht', hr'⟩ := h2.idle ht
  exact ⟨ht', hr'.trans hr⟩

theorem Chip.takeKept_checkTake (l : List Nat) (c : Chip) : Chip.TakeKept c (c.checkTake l) := by
  by_cases h : c.lue.take = .applying ∧ c.lue.takeWork = false
  · rw [c.checkTake_ends l h.1 (by simp [h.2])]
    refine ⟨?_, ?_, fun x hx => ?_, fun hidle => ?_⟩
    · rw [Chip.lue_endTake_eq]
    · rw [Chip.lue_endTake_eq]
    · rw [Chip.lue_endTake_eq]
      dsimp only
      split
      · exact hx
      · exact List.mem_append_left _ hx
    · rw [h.1] at hidle
      cases hidle
  · rw [show c.checkTake l = c from if_neg h]
    exact .refl c

theorem Chip.takeKept_routeSettled (i : Nat) (c : Chip) : Chip.TakeKept c (c.routeSettled i) := by
  unfold Chip.routeSettled
  refine Chip.TakeKept.trans ?_ (Chip.takeKept_checkTake _ _)
  exact ⟨rfl, rfl, fun _ h => h, fun h => ⟨h, rfl⟩⟩

theorem Chip.takeKept_chooseRoute (n : Nat) (c : Chip) : Chip.TakeKept c (c.chooseRoute n) := by
  induction n generalizing c with
  | zero => exact .refl c
  | succ n ih =>
    by_cases hfree : c.lcc.lifecycle = .running ∧ c.lue.order = none
    · rw [c.chooseRoute_succ n hfree.1 hfree.2]
      split
      · exact .refl c
      · split
        · exact .refl c
        · split
          · exact (c.takeKept_routeSettled _).trans (ih _)
          · exact ⟨rfl, rfl, fun _ h => h, fun h => ⟨h, rfl⟩⟩
    · unfold Chip.chooseRoute
      rw [if_neg hfree]
      exact .refl c

theorem Chip.takeKept_serveRoutes (c : Chip) : Chip.TakeKept c c.serveRoutes := c.takeKept_chooseRoute _

/-! ### The first of those that wait (R62) -/

/-- The first of those that wait is the choice. -/
theorem Chip.choice_of_first (c : Chip) (i : Nat) (k : RouteClass) (e : Entry) (hl : c.lcc.lifecycle = .running)
    (ho : c.lue.order = none) (h : c.lue.First i k e) : c.lue.choice = some (i, k) := by
  have hwaits : e.Waits := ⟨h.route, by simp [h.cls]⟩
  cases hc : c.lue.choice with
  | none => exact absurd hwaits (c.not_waits_of_choice hl ho hc e (List.mem_of_getElem? h.entry))
  | some ik =>
    obtain ⟨i', k'⟩ := ik
    obtain ⟨e', h'⟩ := c.lue.choice_first i' k' hc
    have hi : i' = i := by
      by_contra hn
      exact (h.before i' e' h'.entry ⟨h'.route, by simp [h'.cls]⟩ hn).asymm (h'.before i e h.entry hwaits (Ne.symm hn))
    subst hi
    obtain rfl := Option.some.inj (h.entry.symm.trans h'.entry)
    rw [Option.some.inj (h.cls.symm.trans h'.cls)]

/-- The free link sends the first of those that wait where it differs from its target. -/
theorem Chip.serveRoutes_first (c : Chip) (i : Nat) (k : RouteClass) (e : Entry) (hl : c.lcc.lifecycle = .running)
    (ho : c.lue.order = none) (h : c.lue.First i k e) (hne : e.applied ≠ c.target e) :
    c.serveRoutes = c.startRoute i k (c.target e) := by
  unfold Chip.serveRoutes
  rw [c.chooseRoute_succ _ hl ho, c.choice_of_first i k e hl ho h]
  simp only [h.entry]
  exact if_neg hne

end Sys2Proof.Machine
end

section
/-! TAKE and TAKE_CANCEL (O23): the walk of the map, the service of the link after it, and the end of an applying take. -/

namespace Sys2Proof.Machine

/-! ### The walk (R71) -/

/-- The entries after the walk: those that differ from their target are asked for with class TAKE. -/
def Chip.takeWalked (c : Chip) : List Entry := c.lue.entries.map fun e =>
  if e.applied != e.wanted c.fallback c.settings.fallbackSource then e.asked .take else e

/-- The part when the walk has been made, before the take is found without work and the link is served. -/
def Chip.takeBegun (c : Chip) : Chip :=
  Chip.markStatus { c with lue := { c.lue with take := .applying, takeFailed := 0, entries := c.takeWalked } }

theorem Chip.takeWalk_eq (c : Chip) : c.takeWalk =
    (Chip.checkTake (c.takeBegun.lue.alteredSince c.lue) c.takeBegun).serveRoutes := by
  have hmap : (c.lue.entries.map fun e => if e.applied != c.target e then e.request .take else e) = c.takeWalked :=
    List.map_congr_left fun e _ => by rw [Entry.request_eq_asked, Chip.target_eq_wanted]
  unfold Chip.takeWalk Chip.takeBegun
  rw [← hmap]
  rfl

/-- TAKE work after the walk: an entry that waits with class TAKE, or an order of that class in flight. -/
def Chip.TakeLeft (c : Chip) : Prop :=
  (∃ e ∈ c.takeWalked, e.pendingWith .take = true) ∨ ∃ o, c.lue.order = some o ∧ o.cls = .take

theorem Chip.takeBegun_work (c : Chip) : c.takeBegun.lue.takeWork = true ↔ c.TakeLeft := Lue.takeWork_iff _

theorem Chip.takeWalk_left (c : Chip) (h : c.TakeLeft) : c.takeWalk = c.takeBegun.serveRoutes := by
  rw [c.takeWalk_eq, Chip.checkTake_goes_on _ _ fun _ => c.takeBegun_work.2 h]

theorem Chip.takeWalk_done (c : Chip) (h : ¬c.TakeLeft) : c.takeWalk =
    (c.takeBegun.endTake .complete (c.takeBegun.lue.alteredSince c.lue)).serveRoutes := by
  rw [c.takeWalk_eq, Chip.checkTake_ends _ _ rfl (c.takeBegun_work.not.2 h)]
  rfl

theorem Chip.takeKept_takeWalk (c : Chip) : Chip.TakeKept c.takeBegun c.takeWalk := by
  rw [c.takeWalk_eq]
  exact (Chip.takeKept_checkTake _ _).trans (Chip.takeKept_serveRoutes _)

/-- With an order in flight the requests of the walk wait. -/
theorem Chip.takeWalk_busy (c : Chip) (h : c.lue.order.isSome = true) : c.takeWalk.lue.entries = c.takeWalked ∧
    (c.TakeLeft → c.takeWalk.lue.take = .applying) := by
  have horder : ∀ l, (c.takeBegun.checkTake l).lue.order = c.lue.order := fun l =>
    ((Chip.linkUse_iff _ _).1 (c.takeBegun.linkUse_checkTake l)).1
  rw [c.takeWalk_eq, Chip.serveRoutes_busy _ (Or.inl (by rw [horder]; exact h)), Chip.entries_checkTake]
  refine ⟨rfl, fun hleft => ?_⟩
  rw [Chip.checkTake_goes_on _ _ fun _ => c.takeBegun_work.2 hleft]
  rfl

/-- A walk that leaves no work ends the take; TAKE_DONE waits for the entries that it has changed (R63, log 20). -/
theorem Chip.takeWalk_ends (c : Chip) (h : ¬c.TakeLeft) :
    c.takeWalk.lue.take = .idle ∧ c.takeWalk.lue.takeResult = .complete ∧
      (c.takeWalked = c.lue.entries → c.takeWalk.rpu.isPending .takeDone = true) ∧
      (c.takeWalked ≠ c.lue.entries → ∃ x ∈ c.takeWalk.lue.owedCauses, x.cause = .takeDone ∧
        ∀ i, i ∈ x.entries ↔ c.takeWalked[i]? ≠ c.lue.entries[i]?) := by
  have hmem : ∀ i, i ∈ c.takeBegun.lue.alteredSince c.lue ↔ c.takeWalked[i]? ≠ c.lue.entries[i]? := by
    intro i
    refine (Lue.mem_alteredSince _ _ i).trans ⟨fun hi => Ne.symm hi.2, fun hi => ⟨?_, Ne.symm hi⟩⟩
    by_contra hn
    have hlen : c.takeWalked.length = c.lue.entries.length := List.length_map _
    have hout : c.takeWalked.length ≤ i := Nat.le_of_not_lt hn
    exact hi (by rw [List.getElem?_eq_none hout, List.getElem?_eq_none (by omega)])
  have hkept := Chip.takeKept_serveRoutes (c.takeBegun.endTake .complete (c.takeBegun.lue.alteredSince c.lue))
  rw [← c.takeWalk_done h] at hkept
  have hlue := c.takeBegun.lue_endTake_eq .complete (c.takeBegun.lue.alteredSince c.lue)
  obtain ⟨htake, hresult⟩ := hkept.idle (by rw [hlue])
  refine ⟨htake, hresult.trans (by rw [hlue]), fun hsame => ?_, fun hdiff => ?_⟩
  · have hnil : c.takeBegun.lue.alteredSince c.lue = [] :=
      List.eq_nil_iff_forall_not_mem.2 fun i hi => (hmem i).1 hi (by rw [hsame])
    rw [c.takeWalk_done h, hnil]
    exact (Chip.flagged_chooseRoute _ _).pending _ (Chip.pending_endTake _ _)
  · refine ⟨⟨.takeDone, _⟩, hkept.causes _ (Chip.owed_endTake _ _ _ fun hnil => ?_), rfl, hmem⟩
    refine hdiff (List.ext_getElem? fun i => ?_)
    by_contra hi
    have hin := (hmem i).2 hi
    rw [hnil] at hin
    cases hin

/-- An idle entry that the walk leaves waiting is in use and differs from its target; it waits with class TAKE. -/
theorem Entry.waits_of_asked (x : Entry) (k : RouteClass) (hx : x.route = .settled ∨ x.route = .failed)
    (hw : (x.asked k).Waits) : x.live = true ∧ x.asked k = { x with route := .pending, cls := some k, dirty := true } := by
  unfold Entry.asked at hw ⊢
  by_cases hout : bit x.w0 31 = false ∨ x.aside = true
  · rw [if_pos hout] at hw
    rcases hx with hx | hx <;> exact absurd hw.1 (by simp [hx])
  · rw [if_neg hout, if_pos hx]
    simp only [not_or, Bool.not_eq_false, Bool.not_eq_true] at hout
    exact ⟨by simp [Entry.live, Entry.inUse, hout.1, hout.2], rfl⟩

/-- With the link free and no entry waiting, the lowest entry that differs from its target is sent (R62, R71). -/
theorem Chip.takeWalk_sends (c : Chip) (i : Nat) (e : Entry) (hl : c.lcc.lifecycle = .running) (ho : c.lue.order = none)
    (hidle : ∀ x ∈ c.lue.entries, x.route = .settled ∨ x.route = .failed) (he : c.lue.entries[i]? = some e)
    (hlive : e.live = true) (hne : e.applied ≠ e.wanted c.fallback c.settings.fallbackSource)
    (hlow : ∀ j x, j < i → c.lue.entries[j]? = some x →
      x.live = false ∨ x.applied = x.wanted c.fallback c.settings.fallbackSource) :
    c.takeWalk = c.takeBegun.startRoute i .take (e.wanted c.fallback c.settings.fallbackSource) := by
  have hasked : e.asked .take = { e with route := .pending, cls := some .take, dirty := true } := by
    simp only [Entry.live, Entry.inUse, Bool.and_eq_true, Bool.not_eq_true'] at hlive
    rw [Entry.asked, if_neg (by simp [hlive.1, hlive.2]), if_pos (hidle e (List.mem_of_getElem? he))]
  have hat : ∀ (j : Nat) (x : Entry), c.lue.entries[j]? = some x → c.takeWalked[j]? = some
      (if x.applied != x.wanted c.fallback c.settings.fallbackSource then x.asked .take else x) := fun j x hx => by
    rw [Chip.takeWalked, List.getElem?_map, hx]
    rfl
  have hentry := hat i e he
  rw [if_pos (by simpa using hne), hasked] at hentry
  have hfirst : c.takeBegun.lue.First i .take { e with route := .pending, cls := some .take, dirty := true } := by
    refine ⟨hentry, rfl, rfl, fun j y hy hw hj => Or.inr ?_⟩
    have hmapped : (c.lue.entries[j]?).map _ = some y := (List.getElem?_map ..).symm.trans hy
    obtain ⟨x, hx, rfl⟩ := Option.map_eq_some_iff.1 hmapped
    have hxr := hidle x (List.mem_of_getElem? hx)
    by_cases hd : x.applied = x.wanted c.fallback c.settings.fallbackSource
    · rw [if_neg (by simpa using hd)] at hw
      rcases hxr with hxr | hxr <;> exact absurd hw.1 (by simp [hxr])
    · rw [if_pos (by simpa using hd)] at hw ⊢
      obtain ⟨hxl, hxa⟩ := x.waits_of_asked .take hxr hw
      refine ⟨by rw [hxa], ?_⟩
      by_contra hn
      rcases hlow j x (by omega) hx with h | h
      · rw [hxl] at h
        cases h
      · exact hd h
  have hleft : c.TakeLeft := Or.inl ⟨_, List.mem_of_getElem? hentry, (Entry.pendingWith_iff _ _).2 ⟨rfl, rfl⟩⟩
  have htarget : c.takeBegun.target { e with route := .pending, cls := some .take, dirty := true } =
      e.wanted c.fallback c.settings.fallbackSource := Chip.target_eq_wanted _ _
  rw [c.takeWalk_left hleft, c.takeBegun.serveRoutes_first i .take _ hl ho hfirst (by rw [htarget]; exact hne), htarget]

/-! ### The cancel (R73) -/

theorem Entry.cancelled_applying (e : Entry) : e.cancelled .applying =
    if e.route = .pending ∧ e.cls = some .take then { e with route := .settled, cls := none, dirty := true }
    else if e.route = .inFlight ∧ e.cls = some .take then { e with cls := none, dirty := true }
    else e := by
  by_cases hcls : e.cls = some .take
  · simp [Entry.cancelled, hcls]
  · simp [Entry.cancelled, hcls]

theorem Entry.cancelled_ne_iff (e : Entry) :
    e.cancelled .applying ≠ e ↔ e.cls = some .take ∧ (e.route = .pending ∨ e.route = .inFlight) := by
  have hcls (h : e.cancelled .applying = e) : (e.cancelled .applying).cls = e.cls := congrArg Entry.cls h
  rw [e.cancelled_applying] at hcls ⊢
  by_cases hk : e.cls = some .take
  · by_cases hp : e.route = .pending
    · simp only [hp, hk, true_or, and_self, if_true, iff_true]
      intro h
      simpa [hp, hk] using hcls (by simpa [hp, hk] using h)
    · by_cases hf : e.route = .inFlight
      · simp only [hf, hk, and_self, if_true, or_true, iff_true]
        intro h
        simpa [hf, hk] using hcls (by simpa [hf, hk] using h)
      · simp [hp, hf]
  · simp [hk]

/-- The part when an applying take's requests have been cleared, before the take ends. -/
def Chip.takeCleared (c : Chip) : Chip := c.withEntries (c.lue.entries.map (Entry.cancelled .applying))

theorem Chip.cancelTake_applying (c : Chip) (h : c.lue.take = .applying) :
    c.cancelTake = c.takeCleared.endTake .cancelled (c.takeCleared.lue.alteredSince c.lue) := by
  have hmap : (c.lue.entries.map fun e : Entry =>
      if e.pendingWith .take then { e with route := .settled, cls := none }.touch
      else if e.route = .inFlight ∧ e.cls = some .take then { e with cls := none }.touch
      else e) = c.lue.entries.map (Entry.cancelled .applying) :=
    List.map_congr_left fun e _ => by
      rw [e.cancelled_applying]
      simp only [Entry.pendingWith_iff]
      rfl
  unfold Chip.cancelTake Chip.takeCleared Chip.withEntries
  rw [if_pos h, ← hmap]

/-- An entry is altered by the cancel where class TAKE waits or is noted. -/
theorem Chip.mem_takeCleared (c : Chip) (i : Nat) : i ∈ c.takeCleared.lue.alteredSince c.lue ↔
    ∃ e, c.lue.entries[i]? = some e ∧ e.cls = some .take ∧ (e.route = .pending ∨ e.route = .inFlight) := by
  have hat : c.takeCleared.lue.entries[i]? = c.lue.entries[i]?.map (Entry.cancelled .applying) := List.getElem?_map ..
  have hlen : c.takeCleared.lue.entries.length = c.lue.entries.length := List.length_map _
  rw [Lue.mem_alteredSince, hat, hlen]
  cases he : c.lue.entries[i]? with
  | none => simp
  | some e =>
    have hlt : i < c.lue.entries.length := (List.getElem?_eq_some_iff.1 he).1
    simp only [hlt, true_and, Option.map_some, ne_eq, Option.some.injEq, exists_eq_left']
    rw [← e.cancelled_ne_iff]
    exact ⟨Ne.symm, Ne.symm⟩

theorem Chip.cancelTake_done (c : Chip) (h : c.lue.take = .applying) (i : Nat → Prop)
    (hi : ∀ j, i j ↔ j ∈ c.takeCleared.lue.alteredSince c.lue) :
    ((∀ j, ¬i j) → c.cancelTake.rpu.isPending .takeDone = true) ∧
      ((∃ j, i j) → ∃ x ∈ c.cancelTake.lue.owedCauses, x.cause = .takeDone ∧ ∀ j, j ∈ x.entries ↔ i j) := by
  rw [c.cancelTake_applying h]
  refine ⟨fun hnone => ?_, fun ⟨j, hj⟩ => ⟨⟨.takeDone, _⟩, ?_, rfl, fun j => (hi j).symm⟩⟩
  · rw [List.eq_nil_iff_forall_not_mem.2 fun j hj => hnone j ((hi j).2 hj)]
    exact Chip.pending_endTake _ _
  · exact Chip.owed_endTake _ _ _ (List.ne_nil_of_mem ((hi j).1 hj))

/-! ### The statement -/

theorem Chip.commandRefusal_take (c : Chip) (hl : c.lcc.lifecycle = .running) (ht : c.lue.take = .idle) :
    c.commandRefusal 66 1 = none := by
  have hv : commandValue 1 = 1 := by decide
  simp only [Chip.commandRefusal, Chip.takeRefusal, hv]
  simp [Chip.isRunning, hl, ht]

theorem Chip.commandRefusal_takeCancel (c : Chip) (hl : c.lcc.lifecycle = .running) (ht : c.lue.take = .applying) :
    c.commandRefusal 66 2 = none := by
  have hv : commandValue 2 = 2 := by decide
  simp only [Chip.commandRefusal, Chip.takeRefusal, hv]
  simp [Chip.isRunning, hl, ht]

theorem Chip.takeCommand_take (p : Port) (c : Chip) : c.takeCommand 66 p 1 = c.takeWalk := by
  show (if commandValue 1 = 1 then c.takeWalk else c.cancelTake) = c.takeWalk
  exact if_pos (by decide)

theorem Chip.takeCommand_takeCancel (p : Port) (c : Chip) : c.takeCommand 66 p 2 = c.cancelTake := by
  show (if commandValue 2 = 1 then c.takeWalk else c.cancelTake) = c.cancelTake
  exact if_neg (by decide)

/-- TAKE, taken. -/
theorem State.take_taken (s : State) (use : PortUse) (h : s.chip.commands use.port 66 = true)
    (hl : s.chip.lcc.lifecycle = .running) (ht : s.chip.lue.take = .idle) :
    ∃ (t : State) (c : Chip), exec (.take use) s = .next t ∧ State.ended use.port ⟨false, 0⟩ lineUpPieces s t ∧
      Chip.Same [portPiece use.port, .arbiter] s.chip c ∧ t.chip.lue = c.takeWalk.lue ∧ t.chip.rpu = c.takeWalk.rpu ∧
      t.chip.routeLink = c.takeWalk.routeLink := by
  obtain ⟨t, c, hexec, hsame, hans, hended⟩ := s.command_taken use 66 1 lineUpPieces h (by decide) (by decide) (by decide)
    (s.chip.commandRefusal_take hl ht) fun c => by rw [c.takeCommand_take]; exact c.same_takeWalk
  have hrest := hans.same
  rw [c.takeCommand_take] at hrest
  exact ⟨t, c, hexec, hended, hsame, hrest .lue (by cases use.port <;> decide), hrest.rpu (by cases use.port <;> decide),
    hrest .routeLink (by cases use.port <;> decide)⟩

/-- TAKE_CANCEL, taken. -/
theorem State.takeCancel_taken (s : State) (use : PortUse) (h : s.chip.commands use.port 66 = true)
    (hl : s.chip.lcc.lifecycle = .running) (ht : s.chip.lue.take = .applying) :
    ∃ (t : State) (c : Chip), exec (.takeCancel use) s = .next t ∧
      State.ended use.port ⟨false, 0⟩ [.lue, .rpu, .statusMark] s t ∧
      c.lue = s.chip.lue ∧ t.chip.lue = c.cancelTake.lue ∧ t.chip.rpu = c.cancelTake.rpu := by
  obtain ⟨t, c, hexec, hsame, hans, hended⟩ := s.command_taken use 66 2 [.lue, .rpu, .statusMark] h (by decide) (by decide)
    (by decide) (s.chip.commandRefusal_takeCancel hl ht) fun c => by
      rw [c.takeCommand_takeCancel]; exact c.same_cancelTake_few
  have hrest := hans.same
  rw [c.takeCommand_takeCancel] at hrest
  exact ⟨t, c, hexec, hended, hsame .lue (by cases use.port <;> decide), hrest .lue (by cases use.port <;> decide),
    hrest.rpu (by cases use.port <;> decide)⟩

/-- Settles O23: TAKE by `Chip.takeWalk_busy`, `Chip.takeWalk_ends` and `Chip.takeWalk_sends`, TAKE_CANCEL by the entries that
the cancel clears. -/
theorem takeBeginsAndIsCancelled : Obligations.TakeBeginsAndIsCancelled := by
  refine ⟨fun s use h hl ht => ?_, fun s use h hl ht => ?_⟩
  · obtain ⟨t, c, hexec, hended, hsame, hlue, hrpu, hlink⟩ := s.take_taken use h hl ht
    have hc : c.lue = s.chip.lue := hsame .lue (by cases use.port <;> decide)
    have htbu : c.tbu = s.chip.tbu := hsame .tbu (by cases use.port <;> decide)
    have hset : c.settings = s.chip.settings := hsame .settings (by cases use.port <;> decide)
    have hroute : c.routeLink = s.chip.routeLink := hsame .routeLink (by cases use.port <;> decide)
    have hfb : c.fallback = s.chip.fallback := congrArg (fun t : Tbu => decide (t.heartbeat = .expired)) htbu
    have hlife : c.lcc.lifecycle = .running := (hsame.lccItems (by cases use.port <;> decide)).1.trans hl
    have hwalked : c.takeWalked = s.chip.takeWalked := by simp only [Chip.takeWalked, hc, hfb, hset]
    have hleft : c.TakeLeft ↔ s.chip.TakeLeft := by simp only [Chip.TakeLeft, hwalked, hc]
    have hbusy := c.takeWalk_busy
    have hdone := c.takeWalk_ends
    have hsends := c.takeWalk_sends
    rw [hwalked, hleft] at hbusy hdone
    rw [hc] at hbusy hdone
    refine ⟨t, hexec, hended, ?_, fun ho => ?_, fun hw ho => ?_, fun hw => ?_, fun hw => ?_, fun hw => ?_,
      fun i e ho hidle he hlive hne hlow => ?_⟩
    · rw [hlue, c.takeKept_takeWalk.failed]
      rfl
    · rw [hlue]
      exact (hbusy ho).1
    · rw [hlue]
      exact (hbusy ho).2 hw
    · rw [hlue]
      exact ⟨(hdone hw).1, (hdone hw).2.1⟩
    · rw [hrpu]
      exact (hdone hw).2.2.1
    · rw [hlue]
      exact (hdone hw).2.2.2
    · rw [hc, hfb, hset] at hsends
      have hsent := hsends i e hlife ho hidle he hlive hne hlow
      rw [hlue, hlink, hsent]
      refine ⟨rfl, ?_, ?_, ?_⟩
      · show some (RouteOrder.mk i _ c.lue.tag (c.tbu.mono + c.settings.routeTimeout) .take) = _
        rw [hc, htbu, hset]
      · show c.routeLink.sent ++ [routeFrame i _ c.lue.tag] = _
        rw [hroute, hc]
      · rw [Chip.entries_startRoute]
        exact congrArg (fun l : List Entry => l.modify i _) hwalked
  · obtain ⟨t, c, hexec, hended, hc, hlue, hrpu⟩ := s.takeCancel_taken use h hl ht
    rw [← hc] at ht ⊢
    obtain ⟨htake, horder, hentries⟩ := c.lue_cancelTake
    have hcancel := c.cancelTake_applying ht
    refine ⟨t, hexec, hended, by rw [hlue, htake], ?_, ?_, by rw [hlue, horder], ?_, ?_⟩
    · rw [hlue, hcancel, Chip.lue_endTake_eq]
    · rw [hlue, hcancel, Chip.lue_endTake_eq]
      rfl
    · rw [hlue, hentries, ht]
      exact List.map_congr_left fun e _ => e.cancelled_applying
    · rw [hlue, hrpu]
      exact c.cancelTake_done ht _ fun j => (c.mem_takeCleared j).symm

end Sys2Proof.Machine
end

section
/-! The link after the end of an order (R62, R64, R65, R72): what serving it leaves of the entries that do not wait, of the
order that it sends, and of a take left without work. -/

namespace Sys2Proof.Machine

/-! ### Serving the link -/

/-- Serving leaves an entry that does not wait. -/
theorem Chip.chooseRoute_not_waiting (n j : Nat) (x : Entry) (c : Chip) (hx : c.lue.entries[j]? = some x)
    (hw : ¬x.Waits) : (c.chooseRoute n).lue.entries[j]? = some x := by
  induction n generalizing c with
  | zero => exact hx
  | succ n ih =>
    by_cases hfree : c.lcc.lifecycle = .running ∧ c.lue.order = none
    · rw [c.chooseRoute_succ n hfree.1 hfree.2]
      cases hc : c.lue.choice with
      | none => exact hx
      | some ik =>
        obtain ⟨i, k⟩ := ik
        obtain ⟨e, h⟩ := c.lue.choice_first i k hc
        have hij : i ≠ j := by
          rintro rfl
          obtain rfl := Option.some.inj (h.entry.symm.trans hx)
          exact hw ⟨h.route, by simp [h.cls]⟩
        simp only [h.entry]
        split
        · refine ih _ ?_
          rw [Chip.getElem?_routeSettled, hx, Option.map_some, if_neg hij]
        · rw [Chip.entries_startRoute, List.getElem?_modify, hx]
          simp [hij]
    · unfold Chip.chooseRoute
      rw [if_neg hfree]
      exact hx

/-- An order that the free link sends has the next tag, and one route timeout from now (R62). -/
theorem Chip.chooseRoute_order (n : Nat) (o : RouteOrder) (c : Chip) (hf : c.lue.order = none)
    (ho : (c.chooseRoute n).lue.order = some o) :
    o.tag = c.lue.tag ∧ o.deadline = c.tbu.mono + c.settings.routeTimeout ∧ (c.chooseRoute n).lue.tag = c.lue.tag + 1 := by
  induction n generalizing c with
  | zero =>
    rw [show c.chooseRoute 0 = c from rfl, hf] at ho
    cases ho
  | succ n ih =>
    by_cases hl : c.lcc.lifecycle = .running
    · rw [c.chooseRoute_succ n hl hf] at ho ⊢
      cases hc : c.lue.choice with
      | none =>
        simp only [hc, hf] at ho
        cases ho
      | some ik =>
        obtain ⟨i, k⟩ := ik
        obtain ⟨e, h⟩ := c.lue.choice_first i k hc
        simp only [hc, h.entry] at ho ⊢
        split at ho
        · rename_i heq
          rw [if_pos heq]
          obtain ⟨horder, htag, -⟩ := (Chip.linkUse_iff _ _).1 (c.linkUse_routeSettled i)
          have htbu : (c.routeSettled i).tbu = c.tbu := c.same_routeSettled i .tbu (by decide)
          have hset : (c.routeSettled i).settings = c.settings := c.same_routeSettled i .settings (by decide)
          rw [← htag, ← htbu, ← hset]
          exact ih _ (horder.trans hf) ho
        · rename_i hne
          rw [if_neg hne]
          obtain rfl := Option.some.inj ho
          exact ⟨rfl, rfl, rfl⟩
    · have hbusy : c.chooseRoute (n + 1) = c := by
        unfold Chip.chooseRoute
        exact if_neg fun hx => hl hx.1
      rw [hbusy, hf] at ho
      cases ho

/-! ### The end of an order -/

/-- The order of entry `i` has left the link, and the take is still to be found without work: the entry is `x` then and waits
with class `k`, or does not wait where no class is applied to it. -/
structure Chip.OrderLeft (i : Nat) (x : Entry) (k : Option RouteClass) (c c1 : Chip) : Prop where
  same : Chip.Same [.lue, .rpu, .statusMark] c c1
  entry : c1.lue.entries[i]? = some x
  others : ∀ j, j ≠ i → c1.lue.entries[j]? = c.lue.entries[j]?
  order : c1.lue.order = none
  tag : c1.lue.tag = c.lue.tag
  take : c1.lue.take = c.lue.take
  waits : ∀ k', k = some k' → x.route = .pending ∧ x.cls = some k'
  idle : k = none → x.route ≠ .pending

/-- The part when the link has been served after the end of an order. -/
def Chip.servedAfter (i : Nat) (c1 : Chip) : Chip := (c1.checkTake [i]).serveRoutes

section
variable {i : Nat} {x : Entry} {k : Option RouteClass} {c c1 : Chip}

/-- A take left without TAKE work has ended (R72). -/
theorem Chip.OrderLeft.take_ends (h : c.OrderLeft i x k c1) (ht : c.lue.take = .applying) (hk : k ≠ some .take)
    (hothers : ∀ (j : Nat) (y : Entry), j ≠ i → c.lue.entries[j]? = some y → y.route = .pending → y.cls ≠ some .take) :
    (c1.servedAfter i).lue.take = .idle ∧ (c1.servedAfter i).lue.takeResult =
      if (c1.servedAfter i).lue.takeFailed = 0 then .complete else .partialTake := by
  have hwork : ¬c1.lue.takeWork = true := by
    rw [Lue.takeWork_iff, h.order]
    rintro (⟨y, hy, hp⟩ | ⟨o, ho, -⟩)
    · obtain ⟨j, hj⟩ := List.mem_iff_getElem?.1 hy
      obtain ⟨hr, hcls⟩ := (y.pendingWith_iff .take).1 hp
      by_cases hji : j = i
      · subst hji
        obtain rfl := Option.some.inj (h.entry.symm.trans hj)
        cases hk' : k with
        | none => exact h.idle hk' hr
        | some k' =>
          rw [hk', Option.some.inj ((h.waits k' hk').2.symm.trans hcls)] at hk
          exact hk rfl
      · rw [h.others j hji] at hj
        exact hothers j y hji hj hr hcls
    · cases ho
  have hends := c1.checkTake_ends [i] (h.take.trans ht) hwork
  have hlue := c1.lue_endTake_eq (if c1.lue.takeFailed = 0 then .complete else .partialTake) [i]
  rw [← hends] at hlue
  have hkept := (c1.checkTake [i]).takeKept_serveRoutes
  obtain ⟨htake, hresult⟩ := hkept.idle (by rw [hlue])
  refine ⟨htake, hresult.trans ?_⟩
  rw [Chip.servedAfter, hkept.failed, hlue]

/-- The part that serves the link: the entries, the order, the tag and the frames as the end of the order left them. -/
theorem Chip.OrderLeft.serves (h : c.OrderLeft i x k c1) :
    Chip.Same [.lue, .rpu, .statusMark] c (c1.checkTake [i]) ∧ (c1.checkTake [i]).lue.entries = c1.lue.entries ∧
      (c1.checkTake [i]).lue.order = none ∧ (c1.checkTake [i]).lue.tag = c.lue.tag := by
  obtain ⟨horder, htag, -⟩ := (Chip.linkUse_iff _ _).1 (c1.linkUse_checkTake [i])
  exact ⟨h.same.then (c1.same_checkTake_few _), c1.entries_checkTake _, horder.trans h.order, htag.trans h.tag⟩

/-- No entry but the one at `i` is PENDING. -/
abbrev Chip.Alone (i : Nat) (c : Chip) : Prop :=
  ∀ (j : Nat) (y : Entry), j ≠ i → c.lue.entries[j]? = some y → y.route ≠ .pending

/-- Outside RUNNING, and with nothing that waits, the link serves nothing. -/
theorem Chip.OrderLeft.not_served (h : c.OrderLeft i x k c1) (hn : c.lcc.lifecycle ≠ .running ∨ (c.Alone i ∧ k = none)) :
    c1.servedAfter i = c1.checkTake [i] := by
  obtain ⟨hsame, hentries, -, -⟩ := h.serves
  rcases hn with hl | ⟨halone, hk⟩
  · exact Chip.serveRoutes_busy _ (Or.inr (by rw [hsame.lccItems.1]; exact hl))
  · refine Chip.serveRoutes_quiet _ fun y hy => ?_
    obtain ⟨j, hj⟩ := List.mem_iff_getElem?.1 hy
    rw [hentries] at hj
    by_cases hji : j = i
    · subst hji
      obtain rfl := Option.some.inj (h.entry.symm.trans hj)
      exact h.idle hk
    · rw [h.others j hji] at hj
      exact halone j y hji hj

/-- With no other entry PENDING the free link in RUNNING serves the entry of the order that ended. -/
theorem Chip.OrderLeft.served (h : c.OrderLeft i x k c1) (k' : RouteClass) (hl : c.lcc.lifecycle = .running)
    (halone : c.Alone i) (hk : k = some k') : c1.servedAfter i =
      if x.applied = x.wanted c.fallback c.settings.fallbackSource then (c1.checkTake [i]).routeSettled i
      else (c1.checkTake [i]).startRoute i k' (x.wanted c.fallback c.settings.fallbackSource) := by
  obtain ⟨hsame, hentries, horder, -⟩ := h.serves
  obtain ⟨hr, hcls⟩ := h.waits k' hk
  have htarget : (c1.checkTake [i]).target x = x.wanted c.fallback c.settings.fallbackSource := by
    have htbu : (c1.checkTake [i]).tbu = c.tbu := hsame .tbu (by decide)
    have hset : (c1.checkTake [i]).settings = c.settings := hsame .settings (by decide)
    rw [Chip.target_eq_wanted, hset,
      show (c1.checkTake [i]).fallback = c.fallback from congrArg (fun t : Tbu => decide (t.heartbeat = .expired)) htbu]
  rw [← htarget]
  refine Chip.serveRoutes_only _ i x k' (hsame.lccItems.1.trans hl) horder (by rw [hentries]; exact h.entry) hr hcls
    fun j y hji hj => ?_
  rw [hentries, h.others j hji] at hj
  exact halone j y hji hj

/-- What the link does in RUNNING when the entry is alone and a class has been applied to it. -/
theorem Chip.OrderLeft.sent (h : c.OrderLeft i x k c1) (k' : RouteClass) (hl : c.lcc.lifecycle = .running)
    (halone : c.Alone i) (hk : k = some k') :
    (x.applied = x.wanted c.fallback c.settings.fallbackSource → (c1.servedAfter i).lue.order = none ∧
      (c1.servedAfter i).routeLink = c.routeLink ∧ ∃ e', (c1.servedAfter i).lue.entries[i]? = some e' ∧
        e'.route = .settled ∧ e'.cls = none) ∧
    (x.applied ≠ x.wanted c.fallback c.settings.fallbackSource →
      c.orderSent i (x.wanted c.fallback c.settings.fallbackSource) k' (c1.servedAfter i) ∧
        ∃ e', (c1.servedAfter i).lue.entries[i]? = some e' ∧ e'.route = .inFlight ∧ e'.cls = none ∧ e'.attempts = 1) := by
  obtain ⟨hsame, hentries, horder, htag⟩ := h.serves
  have hlink : (c1.checkTake [i]).routeLink = c.routeLink := hsame .routeLink (by decide)
  have hx : (c1.checkTake [i]).lue.entries[i]? = some x := by rw [hentries]; exact h.entry
  rw [h.served k' hl halone hk]
  refine ⟨fun heq => ?_, fun hne => ?_⟩
  · obtain ⟨ho, -, hr⟩ := (Chip.linkUse_iff _ _).1 ((c1.checkTake [i]).linkUse_routeSettled i)
    rw [if_pos heq]
    refine ⟨ho.trans horder, hr.trans hlink, x.settledByLink, ?_, rfl, rfl⟩
    rw [Chip.getElem?_routeSettled, hx, Option.map_some, if_pos rfl]
  · rw [if_neg hne]
    refine ⟨⟨?_, ?_, ?_⟩, { x with route := .inFlight, cls := none, attempts := 1, dirty := true }, ?_, rfl, rfl, rfl⟩
    · have htbu : (c1.checkTake [i]).tbu = c.tbu := hsame .tbu (by decide)
      have hset : (c1.checkTake [i]).settings = c.settings := hsame .settings (by decide)
      rw [← htag, ← htbu, ← hset]
      rfl
    · rw [← htag]
      rfl
    · rw [← htag, ← hlink]
      rfl
    · rw [Chip.entries_startRoute, List.getElem?_modify, hx]
      simp [Entry.touch]

/-- What follows the end of an order (R62, R64, R65, R72). -/
theorem Chip.OrderLeft.linkFreed (h : c.OrderLeft i x k c1) :
    ∃ e', (c1.servedAfter i).lue.entries[i]? = some e' ∧ x.Served e' ∧ (k = none → e' = x) ∧
      c.linkFreed i e' k (c1.servedAfter i) := by
  obtain ⟨hsame, hentries, horder, htag⟩ := h.serves
  have hlink : (c1.checkTake [i]).routeLink = c.routeLink := hsame .routeLink (by decide)
  have hx : (c1.checkTake [i]).lue.entries[i]? = some x := by rw [hentries]; exact h.entry
  obtain ⟨e', he', hserved⟩ := (c1.checkTake [i]).linkServed_serveRoutes.entry i x hx
  have hsame_target : e'.wanted c.fallback c.settings.fallbackSource = x.wanted c.fallback c.settings.fallbackSource ∧
      e'.applied = x.applied := by
    obtain ⟨r, k', n, b, rfl, -⟩ := hserved
    exact ⟨rfl, rfl⟩
  obtain ⟨htarget, happlied⟩ := hsame_target
  refine ⟨e', he', hserved, fun hk => ?_, fun hl => ?_, fun o ho => ?_, fun hl halone hk => ?_, fun k' hl halone hk => ?_,
    h.take_ends⟩
  · exact Option.some.inj (he'.symm.trans (Chip.chooseRoute_not_waiting _ i x _ hx fun hw => h.idle hk hw.1))
  · have hd := h.not_served (Or.inl hl)
    rw [show (c1.checkTake [i]).serveRoutes = c1.checkTake [i] from hd, hx] at he'
    obtain rfl := Option.some.inj he'
    rw [hd, hlink]
    exact ⟨horder, rfl, h.waits⟩
  · have htbu : (c1.checkTake [i]).tbu = c.tbu := hsame .tbu (by decide)
    have hset : (c1.checkTake [i]).settings = c.settings := hsame .settings (by decide)
    rw [← htag, ← htbu, ← hset]
    exact Chip.chooseRoute_order _ o _ horder ho
  · cases hcls : k with
    | none =>
      rw [h.not_served (Or.inr ⟨halone, hcls⟩), hlink]
      exact ⟨horder, rfl⟩
    | some k' =>
      have heq := hk.resolve_left (by simp [hcls])
      rw [happlied, htarget] at heq
      obtain ⟨ho, hr, -⟩ := (h.sent k' hl halone hcls).1 heq
      exact ⟨ho, congrArg Link.sent hr⟩
  · rw [happlied, htarget]
    obtain ⟨hsettled, hsent⟩ := h.sent k' hl halone hk
    refine ⟨fun heq => ?_, fun hne => ?_⟩
    · obtain ⟨-, -, y, hy, hyr, hyk⟩ := hsettled heq
      obtain rfl := Option.some.inj (he'.symm.trans hy)
      exact ⟨hyr, hyk⟩
    · obtain ⟨ho, y, hy, hyr, hyk, hya⟩ := hsent hne
      obtain rfl := Option.some.inj (he'.symm.trans hy)
      exact ⟨ho, hyr, hyk, hya⟩

end

/-! ### Completion and failure (R64 to R66) -/

/-- An entry when its order has been done (R64). -/
def Entry.completed (source : BitVec 7) (fallback : Bool) (fallbackSource : BitVec 7) (e : Entry) : Entry :=
  if e.live = true ∧ source ≠ e.wanted fallback fallbackSource ∧ e.cls ≠ none then
    { e with applied := source, route := .pending, dirty := true }
  else { e with applied := source, route := .settled, cls := none, dirty := true }

/-- The part when an order has been done, before the take is found without work and the link is served. -/
def Chip.orderCompleted (o : RouteOrder) (c : Chip) : Chip :=
  { c with lue := { c.lue with
      entries := c.lue.entries.modify o.slot (Entry.completed o.source c.fallback c.settings.fallbackSource)
      order := none
      owesTime := if c.lue.owesTime.contains o.slot then c.lue.owesTime else c.lue.owesTime ++ [o.slot] } }

theorem Chip.completeRoute_eq (o : RouteOrder) (c : Chip) :
    c.completeRoute o = (c.orderCompleted o).servedAfter o.slot := by
  have hfinish : (fun e : Entry =>
      let e1 := { e with applied := o.source }
      match e1.cls with
      | some k =>
        if e1.live && e1.applied != c.target e1 then { e1 with route := .pending, cls := some k }.touch
        else { e1 with route := .settled, cls := none }.touch
      | none => { e1 with route := .settled }.touch) = Entry.completed o.source c.fallback c.settings.fallbackSource := by
    funext e
    obtain ⟨w0, w1, w2, w3, aside, applied, route, cls, phase, attempts, unset, unlocked, dirty⟩ := e
    rcases cls with _ | k
    · simp [Entry.completed, Entry.touch]
    · refine if_congr ?_ rfl rfl
      simp only [Chip.target_eq_wanted, Bool.and_eq_true, bne_iff_ne, ne_eq, reduceCtorEq, not_false_eq_true, and_true]
      exact Iff.rfl
  unfold Chip.completeRoute Chip.orderCompleted
  rw [← hfinish]
  rfl

/-- An entry when its order has failed (R65). -/
def Entry.orderFailed (e : Entry) : Entry :=
  if e.live = true then
    { e with route := if e.cls = none then .failed else .pending, dirty := true }
  else { e with route := .settled, cls := none, dirty := true }

/-- The part when an order has failed, before the take is found without work and the link is served. -/
def Chip.orderLost (o : RouteOrder) (c : Chip) : Chip :=
  { c with lue := { c.lue with
      entries := c.lue.entries.modify o.slot Entry.orderFailed
      order := none
      takeFailed := if c.lue.take = .applying ∧ o.cls = .take then c.lue.takeFailed + 1 else c.lue.takeFailed
      owedCauses := c.lue.owedCauses ++ [⟨.routeFailed, [o.slot]⟩] } }

theorem Chip.failRoute_eq (o : RouteOrder) (c : Chip) : c.failRoute o = (c.orderLost o).servedAfter o.slot := by
  have hfail : (fun e : Entry =>
      if e.live then
        let e1 := { e with route := .failed, cls := none }.touch
        match e.cls with
        | some k => e1.request k
        | none => e1
      else { e with route := .settled, cls := none }.touch) = Entry.orderFailed := by
    funext e
    unfold Entry.orderFailed
    split
    · rename_i hlive
      have hrequest : ∀ k, Entry.request (Entry.touch { e with route := .failed, cls := none }) k =
          { e with route := .pending, cls := some k, dirty := true } := fun k =>
        if_neg (by simpa [Entry.live, Entry.inUse, Entry.touch] using hlive)
      cases hk : e.cls with
      | none => simp [Entry.touch]
      | some k =>
        simp only [hrequest, ← hk]
        simp [hk]
    · rfl
  unfold Chip.failRoute Chip.orderLost
  rw [← hfail]
  rfl

theorem Chip.takeKept_servedAfter (i : Nat) (c : Chip) : Chip.TakeKept c (c.servedAfter i) :=
  (c.takeKept_checkTake [i]).trans (Chip.takeKept_serveRoutes _)

theorem Entry.Served.applied {x y : Entry} (h : x.Served y) : y.applied = x.applied := by
  obtain ⟨r, k, n, b, rfl, -⟩ := h
  rfl

/-- A completed order leaves the link with its entry in use for a noted class, or SETTLED. -/
theorem Chip.orderLeft_completed (o : RouteOrder) (e : Entry) (k : Option RouteClass) (c : Chip)
    (he : c.lue.entries[o.slot]? = some e)
    (hk : k = if e.live = true ∧ o.source ≠ e.wanted c.fallback c.settings.fallbackSource then e.cls else none) :
    c.OrderLeft o.slot (e.completed o.source c.fallback c.settings.fallbackSource) k (c.orderCompleted o) where
  same := by intro x hx; cases x <;> first | exact absurd (by decide) hx | rfl | exact ⟨rfl, rfl⟩
  entry := by
    show (c.lue.entries.modify _ _)[o.slot]? = _
    rw [List.getElem?_modify, he]
    simp
  others j hj := by
    show (c.lue.entries.modify _ _)[j]? = _
    rw [List.getElem?_modify]
    simp [Ne.symm hj]
  order := rfl
  tag := rfl
  take := rfl
  waits k' hk' := by
    rw [hk] at hk'
    split at hk'
    · rename_i hagain
      rw [Entry.completed, if_pos ⟨hagain.1, hagain.2, by simp [hk']⟩]
      exact ⟨rfl, hk'⟩
    · cases hk'
  idle hn := by
    have hnot : ¬(e.live = true ∧ o.source ≠ e.wanted c.fallback c.settings.fallbackSource ∧ e.cls ≠ none) := by
      rintro ⟨h1, h2, h3⟩
      rw [hk, if_pos ⟨h1, h2⟩] at hn
      exact h3 hn
    rw [Entry.completed, if_neg hnot]
    simp

/-- A completed order (R64). -/
theorem Chip.orderDone_completeRoute (o : RouteOrder) (e : Entry) (c : Chip) (he : c.lue.entries[o.slot]? = some e) :
    ∃ e', (c.completeRoute o).lue.entries[o.slot]? = some e' ∧ c.orderDone o e e' (c.completeRoute o) := by
  have hleft := c.orderLeft_completed o e _ he rfl
  obtain ⟨e', he', hserved, hkeeps, hfreed⟩ := hleft.linkFreed
  have hkept := (c.orderCompleted o).takeKept_servedAfter o.slot
  rw [c.completeRoute_eq]
  refine ⟨e', he', ?_, ?_, hkept.failed, fun hn => ?_, fun hagain hcls => ?_⟩
  · rw [hserved.applied, Entry.completed]
    split <;> rfl
  · rw [hkept.time]
    show o.slot ∈ if _ then _ else _
    split
    · rename_i hin
      exact List.contains_iff_mem.1 hin
    · exact List.mem_append_right _ (List.mem_singleton.2 rfl)
  · have hnone : (if e.live = true ∧ o.source ≠ e.wanted c.fallback c.settings.fallbackSource then e.cls else none) =
        none := by
      split
      · rename_i hagain
        exact hn.resolve_left (not_not.2 hagain)
      · rfl
    rw [hnone] at hfreed
    have hx : e' = { e with applied := o.source, route := .settled, cls := none, dirty := true } := by
      rw [hkeeps hnone, Entry.completed, if_neg]
      rintro ⟨h1, h2, h3⟩
      rw [if_pos ⟨h1, h2⟩] at hnone
      exact h3 hnone
    refine ⟨?_, ?_, ?_, hfreed⟩ <;> rw [hx]
  · rw [if_pos hagain] at hfreed
    exact hfreed

/-- A failed order leaves the link with its entry waiting for a noted class, FAILED, or SETTLED out of use. -/
theorem Chip.orderLeft_failed (o : RouteOrder) (e : Entry) (c : Chip) (he : c.lue.entries[o.slot]? = some e) :
    c.OrderLeft o.slot e.orderFailed (if e.live = true then e.cls else none) (c.orderLost o) where
  same := by intro x hx; cases x <;> first | exact absurd (by decide) hx | rfl | exact ⟨rfl, rfl⟩
  entry := by
    show (c.lue.entries.modify _ _)[o.slot]? = _
    rw [List.getElem?_modify, he]
    simp
  others j hj := by
    show (c.lue.entries.modify _ _)[j]? = _
    rw [List.getElem?_modify]
    simp [Ne.symm hj]
  order := rfl
  tag := rfl
  take := rfl
  waits k hk := by
    split at hk
    · rename_i hlive
      rw [Entry.orderFailed, if_pos hlive]
      exact ⟨by simp [hk], hk⟩
    · cases hk
  idle hn := by
    unfold Entry.orderFailed
    split
    · rename_i hlive
      rw [if_pos hlive] at hn
      simp [hn]
    · simp

/-- A failed order (R65, R66). -/
theorem Chip.orderFailed_failRoute (o : RouteOrder) (e : Entry) (c : Chip) (he : c.lue.entries[o.slot]? = some e) :
    ∃ e', (c.failRoute o).lue.entries[o.slot]? = some e' ∧ c.orderFailed o e e' (c.failRoute o) := by
  obtain ⟨e', he', hserved, hkeeps, hfreed⟩ := (c.orderLeft_failed o e he).linkFreed
  have hkept := (c.orderLost o).takeKept_servedAfter o.slot
  rw [c.failRoute_eq]
  refine ⟨e', he', ?_, ⟨⟨.routeFailed, [o.slot]⟩, hkept.causes _ ?_, rfl, rfl⟩, hkept.failed, fun hlive => ?_,
    fun hlive hcls => ?_, fun hlive hcls => ?_⟩
  · rw [hserved.applied, Entry.orderFailed]
    split <;> rfl
  · exact List.mem_append_right _ (List.mem_singleton.2 rfl)
  · rw [if_neg (by simp [hlive])] at hfreed hkeeps
    have hx := hkeeps rfl
    rw [Entry.orderFailed, if_neg (by simp [hlive])] at hx
    refine ⟨?_, ?_, hfreed⟩ <;> rw [hx]
  · rw [if_pos hlive, hcls] at hfreed hkeeps
    have hx := hkeeps rfl
    rw [Entry.orderFailed, if_pos hlive, if_pos hcls] at hx
    refine ⟨?_, ?_, hfreed⟩ <;> rw [hx]
    exact hcls
  · rw [if_pos hlive] at hfreed
    exact hfreed

/-- What the end of an order says is about the line-up and the route link. -/
theorem Chip.orderDone_congr {o : RouteOrder} {e e' : Entry} {c d d' : Chip} (h : c.orderDone o e e' d)
    (hl : d'.lue = d.lue) (hr : d'.routeLink = d.routeLink) : c.orderDone o e e' d' := by
  unfold Chip.orderDone Chip.linkFreed Chip.orderSent at h ⊢
  rw [hl, hr]
  exact h

theorem Chip.orderFailed_congr {o : RouteOrder} {e e' : Entry} {c d d' : Chip} (h : c.orderFailed o e e' d)
    (hl : d'.lue = d.lue) (hr : d'.routeLink = d.routeLink) : c.orderFailed o e e' d' := by
  unfold Chip.orderFailed Chip.linkFreed Chip.orderSent at h ⊢
  rw [hl, hr]
  exact h

end Sys2Proof.Machine
end

section
/-! The route link's receiver (R176) and the statement on route orders (O28). -/

namespace Sys2Proof.Machine

/-! ### Bytes on the route link -/

/-- A byte taken in this unit leaves no frame late. -/
theorem Receiver.late_now (got : List Byte) (now : Tick) : (Receiver.mk got now).late now = false := by
  have h : decide (Config.byteGap ≤ 0#32) = false := by decide
  rw [Receiver.late, BitVec.sub_self, h, Bool.and_false]

theorem Receiver.late_hunting (r : Receiver) (now : Tick) (h : r.got = []) : r.late now = false := by
  simp [Receiver.late, h]

/-- A byte on a receiver that is not late: it is hunted for or collected. -/
theorem Chip.routeByte_on_time (b : LineByte) (c : Chip) (h : c.routeLink.receiver.late c.tbu.mono = false) :
    c.routeByte b =
      (match (if c.routeLink.receiver.got.isEmpty then Receiver.hunt 0xE2 c.tbu.mono b
          else c.routeLink.receiver.collect 4 c.tbu.mono b) with
        | (r, .nothing) => c.withRouteReceiver r
        | (r, .dropped) => (c.withRouteReceiver r).count .routeLineErrors
        | (r, .frame bytes) => (c.withRouteReceiver r).routeFrameIn bytes) := by
  unfold Chip.routeByte
  rw [h]
  dsimp only [Bool.false_eq_true, if_false]
  simp only [Bool.false_eq_true, if_false]
  generalize (if c.routeLink.receiver.got.isEmpty = true then Receiver.hunt 0xE2 c.tbu.mono b
    else c.routeLink.receiver.collect 4 c.tbu.mono b) = x
  obtain ⟨r, x⟩ := x
  cases x <;> rfl

/-- The route link's receiver has taken these bytes of a frame in this unit; with none it hunts. -/
def Chip.collecting (got : List Byte) (c : Chip) : Chip := c.withRouteReceiver ⟨got, c.tbu.mono⟩

/-- A byte with a good stop bit. -/
abbrev goodByte (b : Byte) : LineByte := ⟨b, true⟩

theorem Chip.routeByte_start (c : Chip) (h : c.routeLink.receiver.got = []) :
    c.routeByte (goodByte 0xE2) = c.collecting [0xE2] := by
  rw [c.routeByte_on_time _ (Receiver.late_hunting _ _ h), h]
  rfl

/-- A byte that begins no frame is discarded (R176). -/
theorem Chip.routeByte_discarded (b : LineByte) (c : Chip) (h : c.routeLink.receiver.got = []) (hb : b.value ≠ 0xE2) :
    c.routeByte b = c.collecting [] := by
  rw [c.routeByte_on_time _ (Receiver.late_hunting _ _ h), h]
  simp only [List.isEmpty_nil, if_true, Receiver.hunt, hb, if_false]
  rfl

theorem Chip.routeByte_collects (got : List Byte) (b : Byte) (c : Chip) (hg : got ≠ []) (h : got.length < 3) :
    (c.collecting got).routeByte (goodByte b) = c.collecting (got ++ [b]) := by
  rw [Chip.routeByte_on_time _ _ (Receiver.late_now got c.tbu.mono)]
  have hcollect : Receiver.collect ⟨got, c.tbu.mono⟩ 4 c.tbu.mono (goodByte b) =
      (⟨got ++ [b], c.tbu.mono⟩, .nothing) := by
    simp [Receiver.collect]
    omega
  show (match (if got.isEmpty then _ else Receiver.collect ⟨got, c.tbu.mono⟩ 4 c.tbu.mono (goodByte b)) with
    | (r, .nothing) => _ | (r, .dropped) => _ | (r, .frame bytes) => _) = _
  rw [if_neg (by simpa using hg), hcollect]
  rfl

/-- The fourth byte completes a frame. -/
theorem Chip.routeByte_completes (got : List Byte) (b : Byte) (c : Chip) (h : got.length = 3) :
    (c.collecting got).routeByte (goodByte b) = (c.collecting []).routeFrameIn (got ++ [b]) := by
  rw [Chip.routeByte_on_time _ _ (Receiver.late_now got c.tbu.mono)]
  have hcollect : Receiver.collect ⟨got, c.tbu.mono⟩ 4 c.tbu.mono (goodByte b) =
      (⟨[], c.tbu.mono⟩, .frame (got ++ [b])) := by
    simp [Receiver.collect, h]
  have hg : got ≠ [] := List.ne_nil_of_length_pos (by omega)
  show (match (if got.isEmpty then _ else Receiver.collect ⟨got, c.tbu.mono⟩ 4 c.tbu.mono (goodByte b)) with
    | (r, .nothing) => _ | (r, .dropped) => _ | (r, .frame bytes) => _) = _
  rw [if_neg (by simpa using hg), hcollect]
  rfl

/-- A bad stop bit drops the frame (R176). -/
theorem Chip.routeByte_badStop (got : List Byte) (b : Byte) (c : Chip) (hg : got ≠ []) :
    (c.collecting got).routeByte ⟨b, false⟩ = (c.collecting []).count .routeLineErrors := by
  rw [Chip.routeByte_on_time _ _ (Receiver.late_now got c.tbu.mono)]
  show (match (if got.isEmpty then _ else Receiver.collect ⟨got, c.tbu.mono⟩ 4 c.tbu.mono ⟨b, false⟩) with
    | (r, .nothing) => _ | (r, .dropped) => _ | (r, .frame bytes) => _) = _
  rw [if_neg (by simpa using hg)]
  rfl

/-- The start of a frame and at most two bytes more are collected. -/
theorem Chip.foldl_routeByte_collects (l : List Byte) (c : Chip) (h : c.routeLink.receiver.got = []) (hl : l.length ≤ 2) :
    ((0xE2 :: l).map goodByte).foldl Chip.routeByte c = c.collecting (0xE2 :: l) := by
  have key : ∀ (l got : List Byte), got ≠ [] → got.length + l.length ≤ 3 →
      (l.map goodByte).foldl Chip.routeByte (c.collecting got) = c.collecting (got ++ l) := by
    intro l
    induction l with
    | nil => exact fun got _ _ => by rw [List.append_nil]; rfl
    | cons b l ih =>
      intro got hg hlen
      rw [List.length_cons] at hlen
      rw [List.map_cons, List.foldl_cons, c.routeByte_collects got b hg (by omega), ih _ (by simp) (by simp; omega),
        List.append_assoc, List.singleton_append]
  rw [List.map_cons, List.foldl_cons, c.routeByte_start h]
  exact key l [0xE2] (by simp) (by simp; omega)

/-- Four bytes from the start byte on are a frame taken. -/
theorem Chip.foldl_routeByte_frame (b1 b2 b3 : Byte) (c : Chip) (h : c.routeLink.receiver.got = []) :
    ([0xE2, b1, b2, b3].map goodByte).foldl Chip.routeByte c = (c.collecting []).routeFrameIn [0xE2, b1, b2, b3] := by
  have hthree := c.foldl_routeByte_collects [b1, b2] h (by simp)
  rw [show [0xE2, b1, b2, b3].map goodByte = [0xE2, b1, b2].map goodByte ++ [goodByte b3] from rfl, List.foldl_append,
    hthree]
  exact c.routeByte_completes _ b3 rfl

theorem Chip.foldl_routeByte_discards (l : List LineByte) (c : Chip) (h : c.routeLink.receiver.got = [])
    (hl : ∀ b ∈ l, b.value ≠ 0xE2) :
    l.foldl Chip.routeByte c = c ∨ l.foldl Chip.routeByte c = c.collecting [] := by
  induction l generalizing c with
  | nil => exact Or.inl rfl
  | cons b l ih =>
    rw [List.foldl_cons, c.routeByte_discarded b h (hl b List.mem_cons_self)]
    right
    rcases ih (c.collecting []) rfl fun b hb => hl b (List.mem_cons_of_mem _ hb) with hd | hd <;> rw [hd]
    rfl

/-! ### Route reply frames -/

theorem routeReplyFrame_eq (slot : Byte) (tag : BitVec 3) (code : BitVec 2) : ∃ b2 b3 : Byte,
    routeReplyFrame slot tag code = [0xE2, slot, b2, b3].map goodByte ∧ byteSum [0xE2, slot, b2, b3] = 0 ∧
      b2.extractLsb' 0 3 = tag ∧ b2.extractLsb' 4 2 = code := by
  refine ⟨_, _, rfl, ?_, ?_, ?_⟩
  · simp [byteSum]
  · revert tag code
    decide
  · revert tag code
    decide

theorem routeResultOfCode_eq (code : BitVec 2) (h : code ≠ 3) :
    routeResultOfCode code = some (if code = 0 then .done else if code = 1 then .noSource else .slotFault) := by
  revert code
  decide

/-- A reply frame is read as it was made. -/
theorem parseRouteReply_frame (b1 b2 b3 : Byte) :
    parseRouteReply [0xE2, b1, b2, b3] = if byteSum [0xE2, b1, b2, b3] = 0 then
      (routeResultOfCode (b2.extractLsb' 4 2)).map fun r => ⟨b1.toNat, b2.extractLsb' 0 3, r⟩ else none := rfl

/-- A good reply frame taken while hunting is matched against the order in flight (R68). -/
theorem Chip.routeReplyFrame_taken (slot : Byte) (tag : BitVec 3) (code : BitVec 2) (c : Chip)
    (h : c.routeLink.receiver.got = []) (hc : code ≠ 3) :
    (routeReplyFrame slot tag code).foldl Chip.routeByte c = (c.collecting []).routeReply ⟨slot.toNat, tag,
      if code = 0 then .done else if code = 1 then .noSource else .slotFault⟩ := by
  obtain ⟨b2, b3, hframe, hsum, htag, hcode⟩ := routeReplyFrame_eq slot tag code
  rw [hframe, c.foldl_routeByte_frame slot b2 b3 h]
  unfold Chip.routeFrameIn
  rw [parseRouteReply_frame, if_pos hsum, htag, hcode, routeResultOfCode_eq code hc]
  rfl

theorem Chip.routeReply_matched (r : RouteReply) (o : RouteOrder) (c : Chip) (ho : c.lue.order = some o)
    (hs : r.slot = o.slot) (ht : r.tag = o.tag) :
    c.routeReply r = if r.result = .done then c.completeRoute o else c.failRoute o := by
  unfold Chip.routeReply
  rw [ho]
  dsimp only
  rw [if_pos ⟨hs, ht⟩]
  cases r.result <;> rfl

theorem Chip.routeReply_stale (r : RouteReply) (c : Chip)
    (h : ∀ o, c.lue.order = some o → ¬(r.slot = o.slot ∧ r.tag = o.tag)) :
    c.routeReply r = c.count .staleRouteReplies := by
  unfold Chip.routeReply
  cases ho : c.lue.order with
  | none => rfl
  | some o => exact if_neg (h o ho)

/-! ### The deadline (R66, R67) -/

theorem higherClass_eq (a : RouteClass) (b : Option RouteClass) :
    some (higherClass a b) = if classRank (some a) < classRank b then b else some a := by
  cases b with
  | none => simp [higherClass]
  | some k =>
    simp only [higherClass, classRank_some]
    split <;> rfl

theorem Chip.routeDue_iff (o : RouteOrder) (c : Chip) (ho : c.lue.order = some o) :
    c.routeDue = true ↔ c.tbu.mono = o.deadline := by
  simp [Chip.routeDue, ho]

theorem Chip.routeExpiry_eq (o : RouteOrder) (e : Entry) (c : Chip) (ho : c.lue.order = some o)
    (he : c.lue.entries[o.slot]? = some e) : c.routeExpiry =
      if e.attempts.toNat < c.settings.routeAttempts then
        if c.lcc.lifecycle = .running then c.resendRoute o else c.returnRoute o
      else c.failRoute o := by
  simp only [Chip.routeExpiry, ho, Chip.expireRoute, he, Option.map_some, Option.getD_some]

/-! ### The statement -/

theorem Chip.same_collecting (got : List Byte) (c : Chip) : Chip.Same [.routeLink] c (c.collecting got) :=
  c.same_withRouteReceiver _

/-- Bytes on the route link's receive line, in a quiet part: what they leave, when all has settled. -/
theorem State.routeReply_happens (s : State) (bytes : List LineByte) (L : List Piece) (d : Chip)
    (hq : s.chip.quiet = true) (hd : bytes.foldl Chip.routeByte s.chip = d) (hs : Chip.Same L s.chip d)
    (hL : .resetLine ∉ L ∧ .portA ∉ L ∧ .portB ∉ L ∧ .arbiter ∉ L := by decide) :
    ∃ t, exec (.routeReply bytes) s = .next t ∧ State.happened L s t ∧
      Chip.Same [.requests, .jobs, .arbiter] d t.chip := by
  subst hd
  obtain ⟨ht, hh⟩ := s.event_happened true (fun c => bytes.foldl Chip.routeByte c) L rfl hq hs hL
  exact ⟨_, ht, hh, (Chip.quiet_settles hq hs hL).1⟩

/-- A reply that matches the order in flight ends it. -/
theorem State.routeReply_ends (s : State) (slot : Byte) (tag : BitVec 3) (code : BitVec 2) (o : RouteOrder) (e : Entry)
    (hq : s.chip.quiet = true) (hg : s.chip.routeLink.receiver.got = []) (ho : s.chip.lue.order = some o)
    (hslot : slot.toNat = o.slot) (htag : tag = o.tag) (he : s.chip.lue.entries[o.slot]? = some e) (hc : code ≠ 3) :
    ∃ t e', exec (.routeReply (routeReplyFrame slot tag code)) s = .next t ∧ State.happened lineUpPieces s t ∧
      t.chip.lue.entries[o.slot]? = some e' ∧
      (code = 0 → s.chip.orderDone o e e' t.chip) ∧ (code ≠ 0 → s.chip.orderFailed o e e' t.chip) := by
  have htaken := s.chip.routeReplyFrame_taken slot tag code hg hc
  rw [Chip.routeReply_matched _ o (s.chip.collecting []) ho hslot htag] at htaken
  have hcoll : Chip.Same lineUpPieces s.chip (s.chip.collecting []) := (s.chip.same_collecting []).mono (by decide)
  by_cases h0 : code = 0
  · rw [if_pos (by simp [h0])] at htaken
    obtain ⟨t, ht, hh, hsame⟩ := s.routeReply_happens _ lineUpPieces _ hq htaken (hcoll.then (Chip.same_completeRoute _ _))
    obtain ⟨e', he', hdone⟩ := (s.chip.collecting []).orderDone_completeRoute o e he
    have hlue : t.chip.lue = _ := hsame .lue (by decide)
    exact ⟨t, e', ht, hh, by rw [hlue]; exact he',
      fun _ => Chip.orderDone_congr (c := s.chip) hdone hlue (hsame .routeLink (by decide)), fun hn => absurd h0 hn⟩
  · rw [if_neg (by rw [if_neg h0]; split <;> simp)] at htaken
    obtain ⟨t, ht, hh, hsame⟩ := s.routeReply_happens _ lineUpPieces _ hq htaken (hcoll.then (Chip.same_failRoute _ _))
    obtain ⟨e', he', hfailed⟩ := (s.chip.collecting []).orderFailed_failRoute o e he
    have hlue : t.chip.lue = _ := hsame .lue (by decide)
    exact ⟨t, e', ht, hh, by rw [hlue]; exact he', fun hn => absurd hn h0,
      fun _ => Chip.orderFailed_congr (c := s.chip) hfailed hlue (hsame .routeLink (by decide))⟩

/-- Bytes that count one error and leave the receiver hunting. -/
theorem State.routeReply_counted (s : State) (bytes : List LineByte) (k : Counter) (hq : s.chip.quiet = true)
    (hd : bytes.foldl Chip.routeByte s.chip = (s.chip.collecting []).count k) :
    ∃ t, exec (.routeReply bytes) s = .next t ∧ State.happened [.rpu, .routeLink] s t ∧
      t.chip.routeLink.sent = s.chip.routeLink.sent ∧ t.chip.routeLink.receiver.got = [] ∧
      t.chip.rpu.counters = s.chip.rpu.counters.modify k.index (· + 1) := by
  have hs : Chip.Same [.rpu, .routeLink] s.chip ((s.chip.collecting []).count k) :=
    ((s.chip.same_collecting []).mono (by decide)).then ((Chip.same_count _ _).mono (by decide))
  obtain ⟨t, ht, hh, hsame⟩ := s.routeReply_happens bytes _ _ hq hd hs
  have hlink : t.chip.routeLink = _ := hsame .routeLink (by decide)
  refine ⟨t, ht, hh, ?_, ?_, ?_⟩
  · rw [hlink]
    rfl
  · rw [hlink]
    rfl
  · rw [hsame.rpu]
    rfl

/-- A frame whose sum is wrong or whose result is unlisted, and one with a bad stop bit, is dropped (R176). -/
theorem Chip.foldl_routeByte_bad (bytes : List LineByte) (c : Chip) (h : c.routeLink.receiver.got = [])
    (hbad : (∃ b1 b2 b3, bytes = [0xE2, b1, b2, b3].map goodByte ∧
        (0xE2 + b1 + b2 + b3 ≠ 0 ∨ b2.extractLsb' 4 2 = 3)) ∨
      ∃ l b, l.length ≤ 2 ∧ bytes = (0xE2 :: l).map goodByte ++ [⟨b, false⟩]) :
    bytes.foldl Chip.routeByte c = (c.collecting []).count .routeLineErrors := by
  rcases hbad with ⟨b1, b2, b3, rfl, hwrong⟩ | ⟨l, b, hl, rfl⟩
  · have hnone : parseRouteReply [0xE2, b1, b2, b3] = none := by
      rw [parseRouteReply_frame]
      rcases hwrong with hsum | hcode
      · exact if_neg (by simpa [byteSum] using hsum)
      · rw [hcode]
        exact ite_self none
    rw [c.foldl_routeByte_frame b1 b2 b3 h, Chip.routeFrameIn, hnone]
  · rw [List.foldl_append, c.foldl_routeByte_collects l h hl]
    exact c.routeByte_badStop _ b (by simp)

/-- The deadline of the order in flight (R66, R67). -/
theorem State.routeDeadline_expires (s : State) (o : RouteOrder) (hq : s.chip.quiet = true)
    (ho : s.chip.lue.order = some o) (hdue : s.chip.tbu.mono = o.deadline) :
    ∃ t, exec .routeDeadline s = .next t ∧ State.happened lineUpPieces s t ∧
      t.chip.lue = s.chip.routeExpiry.lue ∧ t.chip.routeLink = s.chip.routeExpiry.routeLink := by
  obtain ⟨ht, hh⟩ := s.event_happened s.chip.routeDue Chip.routeExpiry lineUpPieces ((s.chip.routeDue_iff o ho).2 hdue) hq
    s.chip.same_routeExpiry (by decide)
  obtain ⟨hset, -⟩ := Chip.quiet_settles hq s.chip.same_routeExpiry
  exact ⟨_, ht, hh, hset .lue (by decide), hset .routeLink (by decide)⟩

/-- Settles O28: matched replies by `Chip.orderDone_completeRoute` and `Chip.orderFailed_failRoute`, other bytes by what the
receiver makes of them, the deadline by its three branches. -/
theorem routeOrdersEnd : Obligations.RouteOrdersEnd := by
  refine ⟨⟨fun s bytes hq => ?_, fun s slot tag code o e hq hg ho hslot htag he hc =>
    s.routeReply_ends slot tag code o e hq hg ho hslot htag he hc, fun s slot tag code hq hg hc hstale => ?_,
    fun s bytes hq hg => ⟨fun hbad => ?_, fun hother => ?_⟩⟩, fun s o e hq ho he => ⟨fun hn => ?_, fun hdue => ?_⟩⟩
  · obtain ⟨t, ht, hh, -⟩ := s.routeReply_happens bytes lineUpPieces _ hq rfl
      (Chip.Same.foldl _ (fun c b => c.same_routeByte b) bytes s.chip)
    exact ⟨t, ht, hh⟩
  · have hd := s.chip.routeReplyFrame_taken slot tag code hg hc
    rw [Chip.routeReply_stale _ _ hstale] at hd
    obtain ⟨t, ht, hh, -, -, hcount⟩ := s.routeReply_counted _ _ hq hd
    exact ⟨t, ht, hh, hcount⟩
  · exact s.routeReply_counted bytes _ hq (s.chip.foldl_routeByte_bad bytes hg hbad)
  · have hsame : Chip.Same [.routeLink] s.chip (bytes.foldl Chip.routeByte s.chip) ∧
        (bytes.foldl Chip.routeByte s.chip).routeLink.sent = s.chip.routeLink.sent ∧
        (bytes.foldl Chip.routeByte s.chip).routeLink.receiver.got = [] := by
      rcases s.chip.foldl_routeByte_discards bytes hg hother with hd | hd <;> rw [hd]
      · exact ⟨.refl _ _, rfl, hg⟩
      · exact ⟨s.chip.same_collecting [], rfl, rfl⟩
    obtain ⟨hd, hsent, hgot⟩ := hsame
    obtain ⟨t, ht, hh, hset⟩ := s.routeReply_happens bytes _ _ hq rfl hd
    have hlink : t.chip.routeLink = _ := hset .routeLink (by decide)
    exact ⟨t, ht, hh, by rw [hlink, hsent], by rw [hlink, hgot]⟩
  · exact if_neg fun hx => hn ((s.chip.routeDue_iff o ho).1 hx.1)
  · obtain ⟨t, ht, hh, hlue, hlink⟩ := s.routeDeadline_expires o hq ho hdue
    rw [s.chip.routeExpiry_eq o e ho he] at hlue hlink
    by_cases hleft : e.attempts.toNat < s.chip.settings.routeAttempts
    · rw [if_pos hleft] at hlue hlink
      by_cases hl : s.chip.lcc.lifecycle = .running
      · rw [if_pos hl] at hlue hlink
        refine ⟨t, { e with attempts := e.attempts + 1, dirty := true }, ht, hh, ?_, rfl, fun _ _ => ?_,
          fun _ hn => absurd hl hn, fun hn => absurd hleft (Nat.not_lt.2 hn)⟩
        · rw [hlue]
          show (s.chip.lue.entries.modify _ _)[o.slot]? = _
          rw [List.getElem?_modify, he]
          simp [Entry.touch]
        · rw [hlue, hlink]
          exact ⟨rfl, rfl, rfl, rfl⟩
      · rw [if_neg hl] at hlue hlink
        refine ⟨t, if e.live then { e with route := .pending, cls := some (higherClass o.cls e.cls), dirty := true }
          else { e with route := .settled, cls := none, dirty := true }, ht, hh, ?_, ?_, fun _ hr => absurd hr hl,
          fun _ _ => ⟨?_, ?_, fun hlive => ?_, fun hlive => ?_⟩, fun hn => absurd hleft (Nat.not_lt.2 hn)⟩
        · rw [hlue]
          show (s.chip.lue.entries.modify _ _)[o.slot]? = _
          rw [List.getElem?_modify, he]
          simp [Entry.touch]
        · split <;> rfl
        · rw [hlue]
          rfl
        · rw [hlink]
          rfl
        · rw [if_pos hlive]
          exact ⟨rfl, higherClass_eq _ _⟩
        · rw [if_neg (by simp [hlive])]
          exact ⟨rfl, rfl⟩
    · rw [if_neg hleft] at hlue hlink
      obtain ⟨e', he', hfailed⟩ := s.chip.orderFailed_failRoute o e he
      exact ⟨t, e', ht, hh, by rw [hlue]; exact he', hfailed.1, fun hx => absurd hx hleft, fun hx => absurd hx hleft,
        fun _ => Chip.orderFailed_congr hfailed hlue hlink⟩

end Sys2Proof.Machine
end

section
/-! The mirror tenure (O30): the writes that it puts down, entry after entry. -/

namespace Sys2Proof.Machine

/-! ### The grant of a tenure -/

/-- Closing a grant and presenting the next requests leave the line-up, the sweep queue and the causes that the body leaves. -/
theorem Chip.lineUp_granted (c : Chip) : c.closeGrant.present.lue = c.lue ∧ c.closeGrant.present.swe = c.swe := by
  have h : Chip.Same [.requests, .jobs, .tenure, .low, .statusMark] c c.closeGrant.present :=
    (c.same_closeGrant.mono (by decide)).then (Chip.same_present _ |>.mono (by decide))
  exact ⟨h .lue (by decide), h .swe (by decide)⟩

/-- What the body of a tenure owes is owed when its grant is closed. -/
theorem Chip.owes_granted (o : Owed) (t : Tenure) (c : Chip) (hr : c.tau.running = some t) (ho : o ∈ t.owed) :
    c.closeGrant.present.owes o := by
  obtain ⟨l, hl⟩ := c.closeGrant_running t hr
  exact ⟨_, by rw [Chip.running_present, hl], List.mem_append_left _ ho⟩

/-! ### The writes of the tenure (R63) -/

/-- A change that appends writes to the running tenure, one item after the other, where no item's writes hang on an
earlier one. -/
theorem Chip.running_foldl_writes (step : Chip → Nat → Chip) (w : Chip → Nat → List (Addr × Word))
    (hstep : ∀ c i x, c.tau.running = some x → (step c i).tau.running = some { x with writes := x.writes ++ w c i })
    (hkeep : ∀ c i j, w (step c i) j = w c j) (l : List Nat) (c : Chip) (x : Tenure) (hx : c.tau.running = some x) :
    (l.foldl step c).tau.running = some { x with writes := x.writes ++ l.flatMap (w c) } := by
  induction l generalizing c x with
  | nil => simpa using hx
  | cons i l ih =>
    rw [List.foldl_cons, ih _ _ (hstep c i x hx), List.flatMap_cons, List.append_assoc,
      show w (step c i) = w c from funext (hkeep c i)]

/-- A change of one element that a reading does not see. -/
theorem map_getElem?_modify {α β : Type} (g : α → β) (f : α → α) (l : List α) (i j : Nat)
    (h : i = j → ∀ x, g (f x) = g x) : ((l.modify i f)[j]?).map g = (l[j]?).map g := by
  rw [List.getElem?_modify]
  cases l[j]? with
  | none => rfl
  | some x =>
    by_cases hij : i = j
    · simp [hij, h hij]
    · simp [hij]

/-- An entry with the flags of a stamp. -/
abbrev Entry.stamped (s : Stamp) (e : Entry) : Entry := { e with unset := s.unset, unlocked := s.unlocked }

/-- The write of w4 of entry `i`, if there is one. -/
def Chip.entryWrites (c : Chip) (i : Nat) : List (Addr × Word) :=
  ((c.lue.entries[i]?).map fun e => (c.recordAddr .channelMap i 4, e.w4)).toList

/-- The writes of w5 and w4 of an entry that owes its time. -/
def Chip.completionWrites (c : Chip) (i : Nat) : List (Addr × Word) :=
  (c.recordAddr .channelMap i 5, c.tbu.wall) ::
    ((c.lue.entries[i]?).map fun e => (c.recordAddr .channelMap i 4, (e.stamped c.stamp).w4)).toList

theorem Chip.running_writeRecord (t : Table) (i w : Nat) (v : Word) (c : Chip) (x : Tenure) (hx : c.tau.running = some x) :
    (c.writeRecord t i w v).tau.running = some { x with writes := x.writes ++ [(c.recordAddr t i w, v)] } := by
  simp [Chip.writeRecord, Chip.write, hx]

theorem Chip.entries_mirrorEntry (i : Nat) (c : Chip) :
    (c.mirrorEntry i).lue.entries = c.lue.entries.modify i fun e => { e with dirty := false } := by
  unfold Chip.mirrorEntry
  cases he : c.lue.entries[i]? with
  | none => exact (List.modify_eq_self (List.getElem?_eq_none_iff.1 he)).symm
  | some e => rfl

theorem Chip.entries_mirrorCompletion (i : Nat) (c : Chip) :
    (c.mirrorCompletion i).lue.entries = c.lue.entries.modify i fun e => { e.stamped c.stamp with dirty := false } := by
  unfold Chip.mirrorCompletion
  rw [Chip.entries_mirrorEntry]
  exact List.modify_modify_eq ..

/-- Mirroring one entry leaves what is owed, the map and the timebase. -/
theorem Chip.mirrorEntry_rest (i : Nat) (c : Chip) :
    (c.mirrorEntry i).lue.owesTime = c.lue.owesTime ∧ (c.mirrorEntry i).map = c.map ∧ (c.mirrorEntry i).tbu = c.tbu := by
  unfold Chip.mirrorEntry
  split <;> exact ⟨rfl, rfl, rfl⟩

theorem Chip.mirrorCompletion_rest (i : Nat) (c : Chip) : (c.mirrorCompletion i).lue.owesTime = c.lue.owesTime ∧
    (c.mirrorCompletion i).map = c.map ∧ (c.mirrorCompletion i).tbu = c.tbu := Chip.mirrorEntry_rest i _

theorem Chip.running_mirrorEntry (c : Chip) (i : Nat) (x : Tenure) (hx : c.tau.running = some x) :
    (c.mirrorEntry i).tau.running = some { x with writes := x.writes ++ c.entryWrites i } := by
  unfold Chip.mirrorEntry Chip.entryWrites
  cases he : c.lue.entries[i]? with
  | none => simpa using hx
  | some e => exact Chip.running_writeRecord _ _ _ _ _ x hx

theorem Chip.running_mirrorCompletion (c : Chip) (i : Nat) (x : Tenure) (hx : c.tau.running = some x) :
    (c.mirrorCompletion i).tau.running = some { x with writes := x.writes ++ c.completionWrites i } := by
  have hcompleted := Chip.running_mirrorEntry _ i _ (Chip.running_writeRecord .channelMap i 5 c.stamp.wall
    { c with lue := c.lue.modify i (Entry.stamped c.stamp) } x hx)
  refine hcompleted.trans ?_
  unfold Chip.entryWrites Chip.completionWrites
  rw [Chip.writeRecord_lue]
  dsimp only [Lue.modify]
  rw [List.getElem?_modify_eq, Option.map_eq_map, Option.map_map, List.append_assoc]
  rfl

/-- Writes of other entries do not hang on the entry mirrored. -/
theorem Chip.entryWrites_congr {c d : Chip} (j : Nat) (hm : d.map = c.map)
    (h : (d.lue.entries[j]?).map Entry.w4 = (c.lue.entries[j]?).map Entry.w4) : d.entryWrites j = c.entryWrites j := by
  unfold Chip.entryWrites
  rw [Chip.recordAddr_congr _ _ hm]
  have hmap : ∀ l : List Entry, ((l[j]?).map fun e => (c.recordAddr .channelMap j 4, e.w4)) =
      ((l[j]?).map Entry.w4).map fun v => (c.recordAddr .channelMap j 4, v) := fun l => by
    rw [Option.map_map]
    rfl
  rw [hmap, hmap, h]

theorem Chip.entryWrites_mirrorEntry (c : Chip) (i j : Nat) : (c.mirrorEntry i).entryWrites j = c.entryWrites j := by
  refine Chip.entryWrites_congr j (c.mirrorEntry_rest i).2.1 ?_
  rw [Chip.entries_mirrorEntry]
  exact map_getElem?_modify _ _ _ i j fun _ _ => rfl

theorem Chip.completionWrites_mirrorCompletion (c : Chip) (i j : Nat) :
    (c.mirrorCompletion i).completionWrites j = c.completionWrites j := by
  obtain ⟨-, hm, ht⟩ := c.mirrorCompletion_rest i
  have hs : (c.mirrorCompletion i).stamp = c.stamp := by rw [Chip.stamp, Chip.stamp, ht]
  unfold Chip.completionWrites
  rw [Chip.recordAddr_congr _ _ hm, Chip.recordAddr_congr _ _ hm, ht, hs, Chip.entries_mirrorCompletion]
  exact congrArg (fun o : Option (Addr × Word) => _ :: o.toList) (map_getElem?_modify _ _ _ i j fun _ _ => rfl)

/-- The completions leave what is owed, the map, the timebase and the w4 of the entries that do not owe their time. -/
theorem Chip.mirrorCompletions_rest (l : List Nat) (c : Chip) :
    (l.foldl (fun c i => c.mirrorCompletion i) c).lue.owesTime = c.lue.owesTime ∧
      ∀ j, j ∉ l → (l.foldl (fun c i => c.mirrorCompletion i) c).entryWrites j = c.entryWrites j := by
  induction l generalizing c with
  | nil => exact ⟨rfl, fun _ _ => rfl⟩
  | cons i l ih =>
    obtain ⟨howes, hm, -⟩ := c.mirrorCompletion_rest i
    obtain ⟨htime, hwrites⟩ := ih (c.mirrorCompletion i)
    refine ⟨htime.trans howes, fun j hj => ?_⟩
    obtain ⟨hji, hjl⟩ := not_or.1 (List.mem_cons.not.1 hj)
    refine (hwrites j hjl).trans (Chip.entryWrites_congr j hm ?_)
    rw [Chip.entries_mirrorCompletion]
    exact map_getElem?_modify _ _ _ i j fun hij => absurd hij.symm hji

theorem Chip.mirrorEntries_owesTime (l : List Nat) (c : Chip) :
    (l.foldl (fun c i => c.mirrorEntry i) c).lue.owesTime = c.lue.owesTime := by
  induction l generalizing c with
  | nil => rfl
  | cons i l ih => exact (ih _).trans (c.mirrorEntry_rest i).1

/-- The entries whose w4 a mirror tenure writes after the completions. -/
def Lue.mirrorOthers (l : Lue) : List Nat :=
  ((l.indexes fun e => e.dirty).filter fun i => !(l.owesTime.take 12).contains i).take
    (24 - 2 * (l.owesTime.take 12).length)

theorem Lue.mirrorChoice_eq (l : Lue) : l.mirrorChoice = (l.owesTime.take 12, l.mirrorOthers) := rfl

/-- What a mirror tenure decides (R63). -/
theorem Chip.mirrorBody_leaves (c : Chip) (x : Tenure) (hx : c.tau.running = some x) :
    c.mirrorBody.lue.owesTime = c.lue.owesTime.drop 12 ∧
      c.mirrorBody.tau.running = some { x with
        writes := x.writes ++ ((c.lue.owesTime.take 12).flatMap c.completionWrites ++
          c.lue.mirrorOthers.flatMap c.entryWrites)
        owed := x.owed ++ [.mirrored] } := by
  obtain ⟨htime, hothers⟩ := c.mirrorCompletions_rest (c.lue.owesTime.take 12)
  have hfirst := Chip.running_foldl_writes (fun c i => c.mirrorCompletion i) Chip.completionWrites
    Chip.running_mirrorCompletion Chip.completionWrites_mirrorCompletion (c.lue.owesTime.take 12) c x hx
  have hsecond := Chip.running_foldl_writes (fun c i => c.mirrorEntry i) Chip.entryWrites
    Chip.running_mirrorEntry Chip.entryWrites_mirrorEntry c.lue.mirrorOthers _ _ hfirst
  have hkeep := Chip.mirrorEntries_owesTime c.lue.mirrorOthers
    ((c.lue.owesTime.take 12).foldl (fun c i => c.mirrorCompletion i) c)
  have hflat : c.lue.mirrorOthers.flatMap
      ((c.lue.owesTime.take 12).foldl (fun c i => c.mirrorCompletion i) c).entryWrites =
      c.lue.mirrorOthers.flatMap c.entryWrites := by
    refine List.flatMap_congr fun j hj => hothers j ?_
    have hin := (List.mem_filter.1 (List.mem_of_mem_take hj)).2
    simpa using hin
  rw [hflat, List.append_assoc] at hsecond
  unfold Chip.mirrorBody
  rw [Lue.mirrorChoice_eq]
  refine ⟨?_, ?_⟩
  · show List.drop (c.lue.owesTime.take 12).length _ = _
    rw [hkeep, htime, List.length_take]
    rcases Nat.le_total 12 c.lue.owesTime.length with h | h
    · rw [Nat.min_eq_left h]
    · rw [Nat.min_eq_right h, List.drop_length, List.drop_eq_nil_of_le h]
  · show Option.map _ _ = _
    rw [hsecond]
    rfl

/-- MIRROR_TENURE, granted. -/
theorem State.mirror_granted (s : State) (h : s.chip.offers .mirror = true) :
    ∃ t, exec .mirrorTenure s = .next t ∧ State.granted [.lue] s t ∧ t.chip.owes .mirrored ∧
      t.chip.lue.owesTime = s.chip.lue.owesTime.drop 12 ∧
      t.chip.runs .mirror ((s.chip.lue.owesTime.take 12).flatMap s.chip.completionWrites ++
        s.chip.lue.mirrorOthers.flatMap s.chip.entryWrites) := by
  obtain ⟨ht, hm, hp, hg⟩ := s.tenure_granted .mirror (fun _ j => j = .mirror) (fun _ _ c => c.mirrorBody) [.lue, .tenure]
    h rfl (fun j hj => by rw [of_decide_eq_true hj]) (Chip.same_mirrorBody _) (by decide)
  obtain ⟨htime, hrun⟩ := (s.chip.atGrant .mirror).mirrorBody_leaves _ rfl
  exact ⟨_, ht, ⟨hm, hp, hg.mono (by decide)⟩, Chip.owes_granted _ _ _ hrun (by simp),
    (congrArg Lue.owesTime (Chip.lineUp_granted _).1).trans htime, Chip.runs_granted .mirror _ _ _ hrun rfl rfl⟩

end Sys2Proof.Machine
end

section
/-! The load walk of the map (O30): what one entry adds, and what four of them leave. -/

namespace Sys2Proof.Machine

/-! ### One entry (R52, R57, R61, R75) -/

/-- The phase with which the walk takes in an entry: CLOSING where w4 records it or the window is past (R57, R75). -/
def Entry.walkPhase (wall : Word) (recorded : BitVec 3) (e : Entry) : Option Phase :=
  if bit e.w0 12 = true then
    some (if recorded = 4 ∨ e.phaseFound wall = .after then .closing else e.phaseFound wall)
  else none

/-- A walked entry asks for its route where its applied source differs from its target (R61). -/
def Entry.walkRouted (fallbackSource : BitVec 7) (e : Entry) : Entry :=
  if e.applied = e.wanted false fallbackSource then e else { e with route := .pending, cls := some .take }

/-- Entry `i` as the walk takes it in, against the numbers bound so far. -/
def Chip.walked (m : Memory) (i : Nat) (c : Chip) : Entry :=
  if bit (c.entryInMemory m i).w0 31 = false then c.entryInMemory m i
  else if (c.entryInMemory m i).whole c.lue.eventMap i then
    Entry.walkRouted c.settings.fallbackSource { c.entryInMemory m i with
      phase := (c.entryInMemory m i).walkPhase c.tbu.wall (field (c.recordWord m .channelMap i 4) 12 3) }
  else { c.entryInMemory m i with aside := true, route := .failed }

/-- The sweep queue after the walk of an entry taken in as `y`: CLOSING hands its close. -/
def Chip.sweWalked (y : Entry) (c : Chip) : Swe :=
  if y.event = true ∧ y.phase = some .closing ∧ c.takesSweeps = true then c.swe.handClose y.number else c.swe

/-- The numbers bound after the walk of entry `i`, taken in as `y`. -/
def Lue.boundWalked (i : Nat) (y : Entry) (l : Lue) : List (BitVec 8 × Nat) :=
  if y.event = true then (l.eventMap.filter fun b => b.2 != i) ++ [(y.number, i)] else l.eventMap

theorem Entry.walkRouted_rest (f : BitVec 7) (e : Entry) : (e.walkRouted f).w0 = e.w0 ∧ (e.walkRouted f).w1 = e.w1 ∧
    (e.walkRouted f).w2 = e.w2 ∧ (e.walkRouted f).w3 = e.w3 ∧ (e.walkRouted f).aside = e.aside ∧
    (e.walkRouted f).applied = e.applied ∧ (e.walkRouted f).phase = e.phase ∧ (e.walkRouted f).attempts = e.attempts ∧
    (e.walkRouted f).dirty = e.dirty := by
  unfold Entry.walkRouted
  split <;> exact ⟨rfl, rfl, rfl, rfl, rfl, rfl, rfl, rfl, rfl⟩

theorem Entry.walkPhase_closing (wall : Word) (recorded : BitVec 3) (e : Entry) :
    e.walkPhase wall recorded = some .closing ↔
      bit e.w0 12 = true ∧ (recorded = 4 ∨ e.phaseFound wall = .after) := by
  have hne := e.phaseFound_ne_closing wall
  unfold Entry.walkPhase
  split
  · rename_i hk
    simp only [hk, true_and, Option.some.injEq]
    split
    · rename_i hc
      exact iff_of_true rfl hc
    · rename_i hc
      exact iff_of_false hne hc
  · rename_i hk
    simp [hk]

theorem Entry.target_eq_wanted (e : Entry) (f : Bool) (v : BitVec 7) : e.target f v = e.wanted f v := by
  simp only [Entry.target, Entry.wanted, Entry.fallbackFlag, Entry.kindEvent, Entry.eventSource, Entry.desired,
    Bool.and_eq_true, decide_eq_true_eq]

/-- The walk of an entry in use that passes its tests takes it in, binds its number and hands its close. -/
theorem Chip.walkLive_eq (i : Nat) (e : Entry) (recorded : BitVec 3) (c : Chip) (hu : bit e.w0 31 = true)
    (ha : e.aside = false) (y : Entry)
    (hy : y = Entry.walkRouted c.settings.fallbackSource { e with phase := e.walkPhase c.tbu.wall recorded }) :
    c.walkLive i e recorded = { c with
      lue := { c.lue with entries := c.lue.entries ++ [y], eventMap := c.lue.boundWalked i y }
      swe := c.sweWalked y } := by
  obtain ⟨h0, h1, -, -, hya, -, hyp, -, -⟩ :=
    Entry.walkRouted_rest c.settings.fallbackSource { e with phase := e.walkPhase c.tbu.wall recorded }
  rw [← hy] at h0 h1 hya hyp
  have hphase : (if e.kindEvent = true then
      some (if (e.kindEvent && (decide (recorded = 4) || decide (e.phaseAt c.tbu.wall = .after))) = true then Phase.closing
        else e.phaseAt c.tbu.wall) else none) = e.walkPhase c.tbu.wall recorded := by
    unfold Entry.walkPhase
    refine if_ctx_congr Iff.rfl (fun hk => congrArg some (if_congr ?_ rfl rfl)) fun _ => rfl
    have hk' : e.kindEvent = true := hk
    rw [hk', Bool.true_and, Bool.or_eq_true, decide_eq_true_iff, decide_eq_true_iff]
    rfl
  have hroute : (if Entry.applied { e with phase := e.walkPhase c.tbu.wall recorded } =
      Entry.target { e with phase := e.walkPhase c.tbu.wall recorded } false c.settings.fallbackSource then
        { e with phase := e.walkPhase c.tbu.wall recorded }
      else { e with phase := e.walkPhase c.tbu.wall recorded, route := .pending, cls := some .take }) = y := by
    rw [hy, Entry.target_eq_wanted]
    rfl
  have hevent : y.event = e.kindEvent := by
    simp [Entry.event, Entry.live, Entry.inUse, Entry.kindEvent, h0, hya, hu, ha]
  have hnumber : y.number = e.number := congrArg (fun w => field w 0 8) h1
  have hclosing : (e.kindEvent && (decide (recorded = 4) || decide (e.phaseAt c.tbu.wall = .after))) = true ↔
      y.phase = some .closing := by
    rw [hyp]
    refine Iff.trans ?_ (e.walkPhase_closing c.tbu.wall recorded).symm
    rw [Bool.and_eq_true, Bool.or_eq_true, decide_eq_true_iff, decide_eq_true_iff]
    rfl
  have hevent_closing : y.phase = some .closing → y.event = true := fun hc => by
    rw [hevent]
    exact ((e.walkPhase_closing c.tbu.wall recorded).1 (hyp.symm.trans hc)).1
  unfold Chip.walkLive
  dsimp only
  rw [hphase, hroute]
  have hlue : (if e.kindEvent = true then Lue.bind { c.lue with entries := c.lue.entries ++ [y] } e.number i
      else { c.lue with entries := c.lue.entries ++ [y] }) =
      { c.lue with entries := c.lue.entries ++ [y], eventMap := c.lue.boundWalked i y } := by
    rw [Lue.boundWalked, ← hevent, ← hnumber]
    split <;> rfl
  rw [hlue, Chip.sweWalked]
  by_cases hc : y.phase = some .closing
  · rw [if_pos (hclosing.2 hc), ← hnumber]
    by_cases ht : c.takesSweeps = true
    · rw [if_pos ⟨hevent_closing hc, hc, ht⟩]
      exact if_pos ht
    · rw [if_neg fun h => ht h.2.2]
      exact if_neg ht
  · rw [if_neg (hclosing.not.2 hc), if_neg fun h => hc h.2.1]

theorem Chip.walkEntry_eq (m : Memory) (i : Nat) (c : Chip) : c.walkEntry m i =
    { c with
      lue := { c.lue with
        entries := c.lue.entries ++ [c.walked m i]
        eventMap := c.lue.boundWalked i (c.walked m i) }
      swe := c.sweWalked (c.walked m i) } := by
  have hidle : ∀ y : Entry, y.event = false → c.lue.boundWalked i y = c.lue.eventMap ∧ c.sweWalked y = c.swe :=
    fun y hy => ⟨if_neg (by simp [hy]), if_neg (by simp [hy])⟩
  unfold Chip.walkEntry
  dsimp only
  cases hu : bit (c.entryInMemory m i).w0 31 with
  | false =>
    have hy : c.walked m i = c.entryInMemory m i := if_pos hu
    obtain ⟨hb, hs⟩ := hidle (c.entryInMemory m i) (by simp [Entry.event, Entry.live, Entry.inUse, hu])
    rw [if_pos (by simp [Entry.inUse, hu]), hy, hb, hs]
  | true =>
    rw [if_neg (by simp [Entry.inUse, hu])]
    by_cases hw : (c.entryInMemory m i).whole c.lue.eventMap i = true
    · rw [if_pos hw]
      exact c.walkLive_eq i _ _ hu rfl _ ((if_neg (by simp [hu])).trans (if_pos hw))
    · have hy : c.walked m i = { c.entryInMemory m i with aside := true, route := .failed } :=
        (if_neg (by simp [hu])).trans (if_neg hw)
      obtain ⟨hb, hs⟩ := hidle { c.entryInMemory m i with aside := true, route := .failed }
        (by simp [Entry.event, Entry.live])
      rw [if_neg hw, hy, hb, hs]

/-! ### Four entries -/

/-- The part when the walk has taken in `k` entries from `first` on. -/
def Chip.afterWalk (m : Memory) (first : Nat) (c : Chip) (k : Nat) : Chip :=
  (List.range k).foldl (fun c k => c.walkEntry m (first + k)) c

/-- The `k`-th entry that the walk takes in. -/
def Chip.walkedAt (m : Memory) (first : Nat) (c : Chip) (k : Nat) : Entry := (c.afterWalk m first k).walked m (first + k)

section
variable (m : Memory) (first : Nat) (c : Chip)

theorem Chip.afterWalk_succ (k : Nat) : c.afterWalk m first (k + 1) = (c.afterWalk m first k).walkEntry m (first + k) := by
  simp only [Chip.afterWalk, List.range_succ, List.foldl_append, List.foldl_cons, List.foldl_nil]

theorem Chip.same_afterWalk (k : Nat) : Chip.Same [.lue, .swe] c (c.afterWalk m first k) := by
  refine Chip.Same.foldl _ (fun c k => ?_) _ c
  rw [Chip.walkEntry_eq]
  intro x hx; cases x <;> first | exact absurd (by decide) hx | rfl | exact ⟨rfl, rfl⟩

theorem Chip.afterWalk_entries (k : Nat) : (c.afterWalk m first k).lue.entries =
    c.lue.entries ++ (List.range k).map (c.walkedAt m first) := by
  induction k with
  | zero => exact (List.append_nil _).symm
  | succ k ih =>
    rw [c.afterWalk_succ, Chip.walkEntry_eq]
    dsimp only
    rw [ih, List.range_succ, List.map_append, List.append_assoc]
    rfl

/-- What is bound when `k` entries have been taken in: what was bound, but for the entries taken in since, and their numbers
(R56). -/
theorem Chip.mem_afterWalk_eventMap (k : Nat) (b : BitVec 8 × Nat) : b ∈ (c.afterWalk m first k).lue.eventMap ↔
    (b ∈ c.lue.eventMap ∧ ∀ j, j < k → (c.walkedAt m first j).event = true → b.2 ≠ first + j) ∨
      ∃ j, j < k ∧ (c.walkedAt m first j).event = true ∧ b = ((c.walkedAt m first j).number, first + j) := by
  induction k with
  | zero => simp [Chip.afterWalk]
  | succ k ih =>
    rw [c.afterWalk_succ, Chip.walkEntry_eq]
    dsimp only
    unfold Lue.boundWalked
    show b ∈ (if (c.walkedAt m first k).event = true then _ ++ [((c.walkedAt m first k).number, first + k)] else _) ↔ _
    by_cases hev : (c.walkedAt m first k).event = true
    · rw [if_pos hev, List.mem_append, List.mem_filter, ih, List.mem_singleton, bne_iff_ne]
      constructor
      · rintro (⟨⟨hb, hj⟩ | ⟨j, hj, he, rfl⟩, hne⟩ | rfl)
        · refine Or.inl ⟨hb, fun j hjk he => ?_⟩
          rcases Nat.lt_succ_iff_lt_or_eq.1 hjk with h | rfl
          · exact hj j h he
          · exact hne
        · exact Or.inr ⟨j, Nat.lt_succ_of_lt hj, he, rfl⟩
        · exact Or.inr ⟨k, Nat.lt_succ_self k, hev, rfl⟩
      · rintro (⟨hb, hj⟩ | ⟨j, hj, he, rfl⟩)
        · exact Or.inl ⟨Or.inl ⟨hb, fun j hjk => hj j (Nat.lt_succ_of_lt hjk)⟩, hj k (Nat.lt_succ_self k) hev⟩
        · rcases Nat.lt_succ_iff_lt_or_eq.1 hj with h | rfl
          · exact Or.inl ⟨Or.inr ⟨j, h, he, rfl⟩, by simp; omega⟩
          · exact Or.inr rfl
    · rw [if_neg hev, ih]
      refine or_congr (and_congr_right fun _ => ⟨fun h j hj he => ?_, fun h j hj => h j (Nat.lt_succ_of_lt hj)⟩)
        ⟨fun ⟨j, hj, h⟩ => ⟨j, Nat.lt_succ_of_lt hj, h⟩, fun ⟨j, hj, he, h⟩ => ⟨j, ?_, he, h⟩⟩
      · rcases Nat.lt_succ_iff_lt_or_eq.1 hj with h' | rfl
        · exact h j h' he
        · exact absurd he hev
      · rcases Nat.lt_succ_iff_lt_or_eq.1 hj with h' | rfl
        · exact h'
        · exact absurd he hev

/-- A close that is handed joins the tail, if anything. -/
theorem Swe.handClose_grows (s : Swe) (n : BitVec 8) :
    (s.handClose n).queue.length ≤ s.queue.length + 1 ∧ ∀ x ∈ s.queue, x ∈ (s.handClose n).queue := by
  rcases s.handClose_cases n with ⟨-, h⟩ | ⟨-, h⟩ | ⟨-, h⟩ <;> rw [h]
  · exact ⟨Nat.le_succ _, fun _ hx => hx⟩
  · exact ⟨Nat.le_succ _, fun _ hx => hx⟩
  · exact ⟨by simp, fun _ hx => List.mem_append_left _ hx⟩

/-- The sweep queue when `k` entries have been taken in: at most one close for each, and with room those of all that are
CLOSING (R58, R75). -/
theorem Chip.afterWalk_swe (k : Nat) : (c.afterWalk m first k).swe.queue.length ≤ c.swe.queue.length + k ∧
    (c.takesSweeps = true → c.swe.queue.length + k ≤ 192 → ∀ j, j < k → (c.walkedAt m first j).event = true →
      (c.walkedAt m first j).phase = some .closing →
      ∃ x ∈ (c.afterWalk m first k).swe.queue, x.kind = .eventClose (c.walkedAt m first j).number) := by
  induction k with
  | zero => exact ⟨Nat.le_refl _, fun _ _ j hj => absurd hj (Nat.not_lt_zero j)⟩
  | succ k ih =>
    obtain ⟨hlen, hall⟩ := ih
    have hswe : (c.afterWalk m first (k + 1)).swe = (c.afterWalk m first k).sweWalked (c.walkedAt m first k) := by
      rw [c.afterWalk_succ, Chip.walkEntry_eq]
      rfl
    have hgrows : (c.afterWalk m first (k + 1)).swe.queue.length ≤ (c.afterWalk m first k).swe.queue.length + 1 ∧
        ∀ x ∈ (c.afterWalk m first k).swe.queue, x ∈ (c.afterWalk m first (k + 1)).swe.queue := by
      rw [hswe, Chip.sweWalked]
      split
      · exact Swe.handClose_grows _ _
      · exact ⟨Nat.le_succ _, fun _ hx => hx⟩
    refine ⟨by omega, fun ht hroom j hj he hp => ?_⟩
    rcases Nat.lt_succ_iff_lt_or_eq.1 hj with hjk | rfl
    · obtain ⟨x, hx, hk⟩ := hall ht (by omega) j hjk he hp
      exact ⟨x, hgrows.2 x hx, hk⟩
    · have htakes : (c.afterWalk m first j).takesSweeps = true := by
        rw [← ht]
        simp only [Chip.takesSweeps, (c.same_afterWalk m first j).lccItems.1]
      rw [hswe, Chip.sweWalked, if_pos ⟨he, hp, htakes⟩]
      exact Swe.handClose_mem _ _ (by omega)

end

end Sys2Proof.Machine
end

section
/-! MAP_LOAD_WALK (O30): the tests of the entries taken in, and the end of the walk. -/

namespace Sys2Proof.Machine

/-! ### An entry taken in, by its tests -/

theorem Entry.breaks_iff (e : Entry) (i : Nat) (bound : List (BitVec 8 × Nat)) : e.breaks i bound ↔
    e.breaks i [] ∨ (bit e.w0 12 = true ∧ ∃ b ∈ bound, b.1 = field e.w1 0 8 ∧ b.2 ≠ i) := by
  simp only [Entry.breaks, List.not_mem_nil, false_and, exists_false, or_false]
  tauto

theorem Entry.breaks_congr {e y : Entry} (h0 : y.w0 = e.w0) (h1 : y.w1 = e.w1) (h2 : y.w2 = e.w2) (h3 : y.w3 = e.w3)
    (i : Nat) (bound : List (BitVec 8 × Nat)) : y.breaks i bound ↔ e.breaks i bound := by
  simp only [Entry.breaks, h0, h1, h2, h3]

/-- The image and the applied source are those of memory. -/
theorem Chip.walked_words (m : Memory) (i : Nat) (c : Chip) :
    (c.walked m i).w0 = c.recordWord m .channelMap i 0 ∧ (c.walked m i).w1 = c.recordWord m .channelMap i 1 ∧
      (c.walked m i).w2 = c.recordWord m .channelMap i 2 ∧ (c.walked m i).w3 = c.recordWord m .channelMap i 3 ∧
      (c.walked m i).applied = field (c.recordWord m .channelMap i 4) 0 7 ∧ (c.walked m i).dirty = true ∧
      (c.walked m i).attempts = 0 := by
  unfold Chip.walked
  split
  · exact ⟨rfl, rfl, rfl, rfl, rfl, rfl, rfl⟩
  · split
    · obtain ⟨h0, h1, h2, h3, -, ha, -, hn, hd⟩ := Entry.walkRouted_rest c.settings.fallbackSource
        { c.entryInMemory m i with
          phase := (c.entryInMemory m i).walkPhase c.tbu.wall (field (c.recordWord m .channelMap i 4) 12 3) }
      exact ⟨h0, h1, h2, h3, ha, hd, hn⟩
    · exact ⟨rfl, rfl, rfl, rfl, rfl, rfl, rfl⟩

theorem Chip.walked_breaks_iff (m : Memory) (i : Nat) (c : Chip) (hu : bit (c.walked m i).w0 31 = true) :
    (c.entryInMemory m i).whole c.lue.eventMap i = true ↔ ¬(c.walked m i).breaks i c.lue.eventMap := by
  obtain ⟨h0, h1, h2, h3, -⟩ := c.walked_words m i
  rw [Entry.whole_iff _ _ _ (by rw [h0] at hu; exact hu), Entry.breaks_congr (e := c.entryInMemory m i) h0 h1 h2 h3]

/-- An entry out of use is taken in as memory holds it. -/
theorem Chip.walked_unused (m : Memory) (i : Nat) (c : Chip) (hu : bit (c.walked m i).w0 31 = false) :
    c.walked m i = c.entryInMemory m i :=
  if_pos (by rw [(c.walked_words m i).1] at hu; exact hu)

/-- An entry that fails a test is set aside. -/
theorem Chip.walked_aside (m : Memory) (i : Nat) (c : Chip) (hu : bit (c.walked m i).w0 31 = true)
    (hb : (c.walked m i).breaks i c.lue.eventMap) :
    c.walked m i = { c.entryInMemory m i with aside := true, route := .failed } := by
  have hin : bit (c.entryInMemory m i).w0 31 = true := by rw [(c.walked_words m i).1] at hu; exact hu
  exact (if_neg (by simp [hin])).trans (if_neg fun hw => (c.walked_breaks_iff m i hu).1 hw hb)

/-- An entry in use that fails none takes its phase and asks for its route. -/
theorem Chip.walked_live (m : Memory) (i : Nat) (c : Chip) (hu : bit (c.walked m i).w0 31 = true)
    (hb : ¬(c.walked m i).breaks i c.lue.eventMap) :
    c.walked m i = Entry.walkRouted c.settings.fallbackSource { c.entryInMemory m i with
      phase := (c.entryInMemory m i).walkPhase c.tbu.wall (field (c.recordWord m .channelMap i 4) 12 3) } := by
  have hin : bit (c.entryInMemory m i).w0 31 = true := by rw [(c.walked_words m i).1] at hu; exact hu
  exact (if_neg (by simp [hin])).trans (if_pos ((c.walked_breaks_iff m i hu).2 hb))

/-- A window is past from its end on. -/
theorem Entry.phaseFound_eq_after (e : Entry) (wall : Word) (h : e.w2.toNat < e.w3.toNat) :
    e.phaseFound wall = .after ↔ e.w3.toNat ≤ wall.toNat := by
  unfold Entry.phaseFound
  split
  · simp only [reduceCtorEq, false_iff]
    omega
  · split
    · simp only [reduceCtorEq, false_iff]
      omega
    · simp only [true_iff]
      omega

/-- The phase of a walked EVENT entry, by w4 and the window (R57, R75). -/
theorem Entry.walkPhase_event (wall : Word) (recorded : BitVec 3) (e : Entry) (hk : bit e.w0 12 = true)
    (h : e.w2.toNat < e.w3.toNat) :
    (recorded = 4 ∨ e.w3.toNat ≤ wall.toNat → e.walkPhase wall recorded = some .closing) ∧
    (¬(recorded = 4 ∨ e.w3.toNat ≤ wall.toNat) →
      e.walkPhase wall recorded = some (if wall.toNat < e.w2.toNat then .before else .inside)) := by
  rw [← e.phaseFound_eq_after wall h, Entry.walkPhase, if_pos hk]
  refine ⟨fun hc => congrArg some (if_pos hc), fun hc => congrArg some ((if_neg hc).trans ?_)⟩
  have hnot : ¬e.w3.toNat ≤ wall.toNat := fun hle => hc (Or.inr ((e.phaseFound_eq_after wall h).2 hle))
  unfold Entry.phaseFound
  rw [if_pos (show wall.toNat < e.w3.toNat by omega)]

theorem Entry.walkRouted_route (f : BitVec 7) (e : Entry) (hr : e.route = .settled) (hc : e.cls = none) :
    (e.applied = e.wanted false f → (e.walkRouted f).route = .settled ∧ (e.walkRouted f).cls = none) ∧
    (e.applied ≠ e.wanted false f → (e.walkRouted f).route = .pending ∧ (e.walkRouted f).cls = some .take) := by
  unfold Entry.walkRouted
  refine ⟨fun h => ?_, fun h => ?_⟩
  · rw [if_pos h]
    exact ⟨hr, hc⟩
  · rw [if_neg h]
    exact ⟨rfl, rfl⟩

/-- The target of R60 without fallback. -/
theorem Entry.wanted_false (e : Entry) (f : BitVec 7) : e.wanted false f =
    if bit e.w0 12 = true ∧ e.phase = some .inside then field e.w1 8 7 else field e.w0 16 7 :=
  if_neg (by simp)

/-- What the walk makes of an entry in use that passes its tests. -/
theorem Chip.walked_live_spec (m : Memory) (i : Nat) (c : Chip) (y : Entry) (hy : c.walked m i = y)
    (hu : bit y.w0 31 = true) (hb : ¬y.breaks i c.lue.eventMap) :
    y.aside = false ∧ (bit y.w0 12 = false → y.phase = none) ∧
    (bit y.w0 12 = true → y.event = true ∧
      (field (c.recordWord m .channelMap i 4) 12 3 = 4 ∨ y.w3.toNat ≤ c.tbu.wall.toNat → y.phase = some .closing) ∧
      (¬(field (c.recordWord m .channelMap i 4) 12 3 = 4 ∨ y.w3.toNat ≤ c.tbu.wall.toNat) →
        y.phase = some (if c.tbu.wall.toNat < y.w2.toNat then .before else .inside))) ∧
    (y.applied = (if bit y.w0 12 = true ∧ y.phase = some .inside then field y.w1 8 7 else field y.w0 16 7) →
      y.route = .settled ∧ y.cls = none) ∧
    (y.applied ≠ (if bit y.w0 12 = true ∧ y.phase = some .inside then field y.w1 8 7 else field y.w0 16 7) →
      y.route = .pending ∧ y.cls = some .take) := by
  subst hy
  have heq := c.walked_live m i hu hb
  obtain ⟨h0, h1, h2, h3, ha, happ, hp, -, -⟩ := Entry.walkRouted_rest c.settings.fallbackSource
    { c.entryInMemory m i with
      phase := (c.entryInMemory m i).walkPhase c.tbu.wall (field (c.recordWord m .channelMap i 4) 12 3) }
  rw [← heq] at h0 h1 h2 h3 ha happ hp
  have hroute := Entry.walkRouted_route c.settings.fallbackSource
    { c.entryInMemory m i with
      phase := (c.entryInMemory m i).walkPhase c.tbu.wall (field (c.recordWord m .channelMap i 4) 12 3) } rfl rfl
  rw [← heq, Entry.wanted_false, ← h0, ← h1, ← hp, ← happ] at hroute
  have haside : (c.walked m i).aside = false := ha
  refine ⟨haside, fun hk => ?_, fun hk => ?_, hroute⟩
  · refine hp.trans (if_neg ?_)
    rw [h0] at hk
    simp [hk]
  · have hwindow : (c.entryInMemory m i).w2.toNat < (c.entryInMemory m i).w3.toNat := by
      by_contra hn
      exact hb (Or.inr (Or.inr (Or.inr (Or.inr ⟨hk, Or.inr (Or.inl (by rw [h2, h3]; exact Nat.le_of_not_lt hn))⟩))))
    have hphase := Entry.walkPhase_event c.tbu.wall (field (c.recordWord m .channelMap i 4) 12 3) (c.entryInMemory m i)
      (by rw [← h0]; exact hk) hwindow
    rw [h2, h3, hp]
    exact ⟨by simp [Entry.event, Entry.live, Entry.inUse, Entry.kindEvent, hu, hk, haside], hphase⟩

/-! ### The tenure -/

theorem Lue.mem_indexes (l : Lue) (p : Entry → Bool) (i : Nat) :
    i ∈ l.indexes p ↔ ∃ e, l.entries[i]? = some e ∧ p e = true := by
  unfold Lue.indexes
  rw [List.mem_filter, List.mem_range]
  cases he : l.entries[i]? with
  | none => simp
  | some e => simp [(List.getElem?_eq_some_iff.1 he).1]

theorem Chip.oweRoute_leaves (k : Cause) (l : List Nat) (c : Chip) : Chip.Same [.lue, .rpu] c (c.oweRoute k l) ∧
    (c.oweRoute k l).lue.entries = c.lue.entries ∧ (c.oweRoute k l).lue.eventMap = c.lue.eventMap ∧
    (c.oweRoute k l).lue.walk = c.lue.walk ∧ (l ≠ [] → (⟨k, l⟩ : OwedCause) ∈ (c.oweRoute k l).lue.owedCauses) := by
  unfold Chip.oweRoute
  split
  · rename_i hl
    exact ⟨(c.same_raise k).mono (by decide), rfl, rfl, rfl, fun hn => absurd hl hn⟩
  · refine ⟨?_, rfl, rfl, rfl, fun _ => List.mem_append_right _ (List.mem_singleton.2 rfl)⟩
    intro x hx; cases x <;> first | exact absurd (by decide) hx | rfl | exact ⟨rfl, rfl⟩

/-- How many entries a tenure of the walk takes in. -/
def Chip.walkSize (first : Nat) (c : Chip) : Nat := min 4 (c.mapCount - first)

/-- What a tenure of the walk leaves (R75): the entries it has taken in, and after the last of them what a set-aside entry
owes. -/
structure Chip.WalkLeaves (m : Memory) (first : Nat) (c d : Chip) : Prop where
  same : Chip.Same [.lue, .swe, .rpu] c d
  entries : d.lue.entries = c.lue.entries ++ (List.range (c.walkSize first)).map (c.walkedAt m first)
  eventMap : d.lue.eventMap = (c.afterWalk m first (c.walkSize first)).lue.eventMap
  walk : d.lue.walk = some (first + c.walkSize first)
  swe : d.swe = (c.afterWalk m first (c.walkSize first)).swe
  owed : first < c.mapCount → c.mapCount ≤ first + 4 → (∃ e ∈ d.lue.entries, e.aside = true) →
    ∃ x ∈ d.lue.owedCauses, x.cause = .routeFailed ∧
      ∀ i, i ∈ x.entries ↔ ∃ e, d.lue.entries[i]? = some e ∧ e.dirty = true

theorem Chip.mapWalkBody_leaves (m : Memory) (first : Nat) (c : Chip) (h : c.lue.walk = some first) :
    c.WalkLeaves m first (c.mapWalkBody m) := by
  have hbody : c.mapWalkBody m =
      (if c.mapCount ≤ first + c.walkSize first ∧
          (c.afterWalk m first (c.walkSize first)).lue.entries.any (fun e => e.aside) = true then
        Chip.oweRoute .routeFailed ((c.afterWalk m first (c.walkSize first)).lue.indexes fun e => e.dirty)
          { c.afterWalk m first (c.walkSize first) with lue := { (c.afterWalk m first (c.walkSize first)).lue with
            walk := some (first + c.walkSize first) } }
      else { c.afterWalk m first (c.walkSize first) with lue := { (c.afterWalk m first (c.walkSize first)).lue with
            walk := some (first + c.walkSize first) } }) := by
    unfold Chip.mapWalkBody
    rw [h]
    rfl
  have hentries := c.afterWalk_entries m first (c.walkSize first)
  have hwalked : Chip.Same [.lue, .swe, .rpu] c
      { c.afterWalk m first (c.walkSize first) with lue := { (c.afterWalk m first (c.walkSize first)).lue with
            walk := some (first + c.walkSize first) } } := by
    refine ((c.same_afterWalk m first (c.walkSize first)).mono (by decide)).then ?_
    intro x hx; cases x <;> first | exact absurd (by decide) hx | rfl | exact ⟨rfl, rfl⟩
  rw [hbody]
  split
  · rename_i hlast
    obtain ⟨hsame, he, hm, hw, howed⟩ := Chip.oweRoute_leaves .routeFailed
      ((c.afterWalk m first (c.walkSize first)).lue.indexes fun e => e.dirty)
      { c.afterWalk m first (c.walkSize first) with lue := { (c.afterWalk m first (c.walkSize first)).lue with
            walk := some (first + c.walkSize first) } }
    refine ⟨hwalked.then (hsame.mono (by decide)), he.trans hentries, hm, hw, hsame .swe (by decide), fun h1 _ _ => ?_⟩
    refine ⟨_, howed ?_, rfl, fun i => ?_⟩
    · have hsize : 0 < c.walkSize first := by unfold Chip.walkSize; omega
      have hfirst : (c.afterWalk m first (c.walkSize first)).lue.entries[c.lue.entries.length]? =
          some (c.walkedAt m first 0) := by
        rw [hentries, List.getElem?_append_right (Nat.le_refl _), Nat.sub_self, List.getElem?_map,
          List.getElem?_range hsize]
        rfl
      exact List.ne_nil_of_mem ((Lue.mem_indexes _ _ _).2 ⟨_, hfirst, (Chip.walked_words _ _ _).2.2.2.2.2.1⟩)
    · rw [he]
      exact Lue.mem_indexes _ _ _
  · rename_i hlast
    refine ⟨hwalked, hentries, rfl, rfl, rfl, fun h1 h2 h3 => absurd ⟨?_, ?_⟩ hlast⟩
    · unfold Chip.walkSize
      omega
    · simpa using h3

/-! ### The statement -/

/-- MAP_LOAD_WALK, granted. -/
theorem State.mapWalk_granted (s : State) (first : Nat) (h : s.chip.offers .mapWalk = true)
    (hw : s.chip.lue.walk = some first) :
    ∃ (t : State) (d : Chip), exec .mapLoadWalk s = .next t ∧ State.granted [.lue, .swe, .rpu] s t ∧
      t.chip.runs .mapWalk [] ∧ (s.chip.atGrant .mapWalk).WalkLeaves s.mem first d ∧ t.chip.lue = d.lue ∧
      t.chip.swe = d.swe := by
  have hleaves := (s.chip.atGrant .mapWalk).mapWalkBody_leaves s.mem first hw
  obtain ⟨ht, hg⟩ := s.tenure_granted .mapWalk (fun _ j => j = .mapWalk) (fun m _ c => c.mapWalkBody m)
    [.lue, .swe, .rpu] h rfl (fun j hj => by rw [of_decide_eq_true hj]) hleaves.same (by decide)
  have hrun : ((s.chip.atGrant .mapWalk).mapWalkBody s.mem).tau.running = some ⟨.mapWalk, [], [], s.chip.free⟩ :=
    hleaves.same .tenure (by decide)
  obtain ⟨hlue, hswe⟩ := Chip.lineUp_granted ((s.chip.atGrant .mapWalk).mapWalkBody s.mem)
  exact ⟨_, _, ht, hg, Chip.runs_granted .mapWalk [] _ _ hrun rfl rfl, hleaves, hlue, hswe⟩


theorem Chip.WalkLeaves.entry {m : Memory} {first : Nat} {c d : Chip} (h : c.WalkLeaves m first d) (k : Nat)
    (hk : k < c.walkSize first) : d.lue.entries[c.lue.entries.length + k]? = some (c.walkedAt m first k) := by
  rw [h.entries, List.getElem?_append_right (Nat.le_add_right _ _), Nat.add_sub_cancel_left, List.getElem?_map,
    List.getElem?_range hk]
  rfl

theorem Chip.WalkLeaves.old_entry {m : Memory} {first : Nat} {c d : Chip} (h : c.WalkLeaves m first d) (i : Nat)
    (hi : i < c.lue.entries.length) : d.lue.entries[i]? = c.lue.entries[i]? := by
  rw [h.entries, List.getElem?_append_left hi]

/-- An entry walked before entry `k`, as the line-up shows it. -/
theorem Chip.WalkLeaves.before_iff {m : Memory} {first : Nat} {c d : Chip} (h : c.WalkLeaves m first d) (k : Nat)
    (hk : k ≤ c.walkSize first) (j : Nat) (x : Entry) :
    (j < k ∧ d.lue.entries[c.lue.entries.length + j]? = some x ∧ x.event = true) ↔
      j < k ∧ x = c.walkedAt m first j ∧ (c.walkedAt m first j).event = true := by
  refine and_congr_right fun hj => ?_
  rw [h.entry j (by omega), Option.some.injEq]
  exact ⟨fun ⟨he, hx⟩ => ⟨he.symm, he ▸ hx⟩, fun ⟨he, hx⟩ => ⟨he.symm, he ▸ hx⟩⟩

/-- The number of entry `k` is bound elsewhere when the walk comes to it: by an entry walked before it, or since before
the tenure. -/
theorem Chip.WalkLeaves.doubled_iff {m : Memory} {first : Nat} {c d : Chip} (h : c.WalkLeaves m first d) (k : Nat)
    (hk : k ≤ c.walkSize first) (number : BitVec 8) :
    (∃ b ∈ (c.afterWalk m first k).lue.eventMap, b.1 = number ∧ b.2 ≠ first + k) ↔
      (∃ j x, (j < k ∧ d.lue.entries[c.lue.entries.length + j]? = some x ∧ x.event = true) ∧ field x.w1 0 8 = number) ∨
      ∃ b ∈ c.lue.eventMap, b.1 = number ∧ b.2 ≠ first + k ∧
        ∀ j x, (j < k ∧ d.lue.entries[c.lue.entries.length + j]? = some x ∧ x.event = true) → b.2 ≠ first + j := by
  simp only [h.before_iff k hk, c.mem_afterWalk_eventMap]
  constructor
  · rintro ⟨b, ⟨hb, hold⟩ | ⟨j, hj, he, rfl⟩, hn, hne⟩
    · refine Or.inr ⟨b, hb, hn, hne, ?_⟩
      rintro j x ⟨hj, -, he⟩
      exact hold j hj he
    · exact Or.inl ⟨j, _, ⟨hj, rfl, he⟩, hn⟩
  · rintro (⟨j, x, ⟨hj, rfl, he⟩, hn⟩ | ⟨b, hb, hn, hne, hold⟩)
    · exact ⟨_, Or.inr ⟨j, hj, he, rfl⟩, hn, show first + j ≠ first + k by omega⟩
    · exact ⟨b, Or.inl ⟨hb, fun j hj he => hold j _ ⟨hj, rfl, he⟩⟩, hn, hne⟩

/-- The number of a walked EVENT entry is bound to it. -/
theorem Chip.WalkLeaves.bound {m : Memory} {first : Nat} {c d : Chip} (h : c.WalkLeaves m first d) (k : Nat)
    (hk : k < c.walkSize first) (he : (c.walkedAt m first k).event = true) :
    (field (c.walkedAt m first k).w1 0 8, first + k) ∈ d.lue.eventMap := by
  rw [h.eventMap]
  exact (c.mem_afterWalk_eventMap m first _ _).2 (Or.inr ⟨k, hk, he, rfl⟩)

/-- The close of a walked CLOSING entry is queued while the map is loading, where the queue has room (R58, R75). -/
theorem Chip.WalkLeaves.close_queued {m : Memory} {first : Nat} {c d : Chip} (h : c.WalkLeaves m first d) (k : Nat)
    (hk : k < c.walkSize first) (he : (c.walkedAt m first k).event = true)
    (hp : (c.walkedAt m first k).phase = some .closing) (hl : c.lcc.lifecycle = .loading)
    (hroom : c.swe.queue.length + 4 ≤ 192) :
    ∃ x ∈ d.swe.queue, x.kind = .eventClose (field (c.walkedAt m first k).w1 0 8) := by
  have hsize : c.walkSize first ≤ 4 := Nat.min_le_left _ _
  rw [h.swe]
  exact (c.afterWalk_swe m first (c.walkSize first)).2 (by simp [Chip.takesSweeps, hl]) (by omega) k hk he hp

/-- The words in memory from which the walk takes an entry are those that the part sees at the grant. -/
theorem Chip.recordWord_afterWalk (m : Memory) (first k : Nat) (c : Chip) (i w : Nat) :
    (c.afterWalk m first k).recordWord m .channelMap i w = c.recordWord m .channelMap i w := by
  unfold Chip.recordWord
  rw [Chip.recordAddr_congr _ _ ((c.same_afterWalk m first k) .map (by decide))]

/-- Settles O30: a mirror tenure writes the entries it chose, and a tenure of the load walk takes in at most four entries,
each by the tests against the numbers that the walk has bound before it. -/
theorem lineUpTenures : Obligations.LineUpTenures := by
  unfold Obligations.LineUpTenures
  refine ⟨fun s h => s.mirror_granted h, fun s first h hw => ?_⟩
  obtain ⟨t, d, ht, hg, hrun, hd, hlue, hswe⟩ := s.mapWalk_granted first h hw
  refine ⟨t, ht, hg, hrun, ?_⟩
  rw [hlue, hswe]
  refine ⟨hd.walk, ?_, fun i hi => hd.old_entry i hi, fun h1 h2 h3 => hd.owed h1 h2 h3, fun k hk => ?_⟩
  · rw [hd.entries, List.length_append, List.length_map, List.length_range]
    rfl
  obtain ⟨y, hy⟩ : ∃ y, (s.chip.atGrant .mapWalk).walkedAt s.mem first k = y := ⟨_, rfl⟩
  have hwords := ((s.chip.atGrant .mapWalk).afterWalk s.mem first k).walked_words s.mem (first + k)
  simp only [Chip.recordWord_afterWalk] at hwords
  have hwalked : ((s.chip.atGrant .mapWalk).afterWalk s.mem first k).walked s.mem (first + k) = y := hy
  rw [hwalked] at hwords
  obtain ⟨h0, h1, h2, h3, happ, hdirty, hatt⟩ := hwords
  refine ⟨y, hy ▸ hd.entry k hk, h0, h1, h2, h3, happ, hdirty, hatt, ?_⟩
  have hfails := (y.breaks_iff (first + k) ((s.chip.atGrant .mapWalk).afterWalk s.mem first k).lue.eventMap).trans
    (or_congr_right (and_congr_right fun _ => hd.doubled_iff k (Nat.le_of_lt hk) (field y.w1 0 8)))
  refine ⟨fun hu => ?_, fun hu hf => ?_, fun hu hf => ?_⟩
  · have hunused := Chip.walked_unused s.mem (first + k) ((s.chip.atGrant .mapWalk).afterWalk s.mem first k)
      (by rw [hwalked]; exact hu)
    rw [← hwalked, hunused]
    exact ⟨rfl, rfl, rfl, rfl⟩
  · have haside := Chip.walked_aside s.mem (first + k) ((s.chip.atGrant .mapWalk).afterWalk s.mem first k)
      (by rw [hwalked]; exact hu) (by rw [hwalked]; exact hfails.2 hf)
    rw [← hwalked, haside]
    exact ⟨rfl, rfl, rfl, rfl⟩
  · obtain ⟨haside, hchannel, hevent, hroute⟩ := Chip.walked_live_spec s.mem (first + k) _ y hwalked hu
      fun hb => hf (hfails.1 hb)
    have hwall : ((s.chip.atGrant .mapWalk).afterWalk s.mem first k).tbu = s.chip.tbu :=
      (s.chip.atGrant .mapWalk).same_afterWalk s.mem first k .tbu (by decide)
    rw [Chip.recordWord_afterWalk, hwall] at hevent
    refine ⟨haside, hchannel, fun hk12 => ?_, hroute⟩
    obtain ⟨hev, hclose, hopen⟩ := hevent hk12
    refine ⟨hy ▸ hd.bound k hk (hy ▸ hev), fun hc => ⟨hclose hc, fun hl hroom => ?_⟩, hopen⟩
    exact hy ▸ hd.close_queued k hk (hy ▸ hev) (hy ▸ hclose hc) hl hroom

end Sys2Proof.Machine
end

section
/-! The temporary event set of the subscriber walk (O38): the numbers that six entries add. -/

namespace Sys2Proof.Machine

/-- Entry `i` in memory is an in-use EVENT entry that passes the tests of R52, its number's uniqueness apart. -/
def Chip.namesEvent (m : Memory) (i : Nat) (c : Chip) : Prop :=
  bit (c.entryInMemory m i).w0 31 = true ∧ bit (c.entryInMemory m i).w0 12 = true ∧ ¬(c.entryInMemory m i).breaks i []

/-- An entry adds its number where it names an event whose number no other entry has taken; it adds none where it names no
event or its number is in the set. -/
theorem Chip.walkNumber_cases (m : Memory) (events : List (BitVec 8 × Nat)) (i : Nat) (c : Chip) :
    (c.walkNumber m events i = events ++ [(field (c.entryInMemory m i).w1 0 8, i)] ∧ c.namesEvent m i ∧
      ∀ b ∈ events, b.1 = field (c.entryInMemory m i).w1 0 8 → b.2 = i) ∨
    (c.walkNumber m events i = events ∧
      (c.namesEvent m i → ∃ b ∈ events, b.1 = field (c.entryInMemory m i).w1 0 8)) := by
  by_cases hu : bit (c.entryInMemory m i).w0 31 = true
  · by_cases hk : bit (c.entryInMemory m i).w0 12 = true
    · have hwhole := (Entry.whole_iff _ events i hu).trans ((c.entryInMemory m i).breaks_iff i events).not
      by_cases hw : (c.entryInMemory m i).whole events i = true
      · obtain ⟨htests, hfree⟩ := not_or.1 (hwhole.1 hw)
        refine Or.inl ⟨if_pos (by simp [Entry.inUse, Entry.kindEvent, hu, hk, hw]), ⟨hu, hk, htests⟩, fun b hb hn => ?_⟩
        by_contra hne
        exact hfree ⟨hk, b, hb, hn, hne⟩
      · refine Or.inr ⟨if_neg (by simp [hw]), fun ⟨_, _, htests⟩ => ?_⟩
        rcases not_not.1 (hwhole.not.1 hw) with h | ⟨-, b, hb, hn, -⟩
        · exact absurd h htests
        · exact ⟨b, hb, hn⟩
    · exact Or.inr ⟨if_neg (by simp [Entry.kindEvent, hk]), fun h => absurd h.2.1 hk⟩
  · exact Or.inr ⟨if_neg (by simp [Entry.inUse, hu]), fun h => absurd h.1 hu⟩

/-- What `n` entries from `first` on add to the set: numbers of events, each at one entry, and of every event one. -/
structure Chip.NumbersAdded (m : Memory) (events : List (BitVec 8 × Nat)) (first n : Nat) (c : Chip)
    (added : List (BitVec 8 × Nat)) : Prop where
  walked : (List.range n).foldl (fun s k => c.walkNumber m s (first + k)) events = events ++ added
  member : ∀ b ∈ added, first ≤ b.2 ∧ b.2 < first + n ∧ c.namesEvent m b.2 ∧
    b.1 = field (c.entryInMemory m b.2).w1 0 8 ∧ ∀ b' ∈ events ++ added, b'.1 = b.1 → b'.2 = b.2
  covers : ∀ i, first ≤ i → i < first + n → c.namesEvent m i →
    ∃ b ∈ events ++ added, b.1 = field (c.entryInMemory m i).w1 0 8

theorem Chip.numbersAdded_zero (m : Memory) (events : List (BitVec 8 × Nat)) (first : Nat) (c : Chip) :
    c.NumbersAdded m events first 0 [] :=
  ⟨(List.append_nil _).symm, fun b hb => absurd hb (by simp), fun i h1 h2 => absurd h2 (Nat.not_lt.2 h1)⟩

theorem Chip.numbersAdded_succ {m : Memory} {events : List (BitVec 8 × Nat)} {first n : Nat} {c : Chip}
    {added : List (BitVec 8 × Nat)} (h : c.NumbersAdded m events first n added) :
    ∃ added', c.NumbersAdded m events first (n + 1) added' := by
  have hstep : (List.range (n + 1)).foldl (fun s k => c.walkNumber m s (first + k)) events =
      c.walkNumber m (events ++ added) (first + n) := by
    rw [List.range_succ, List.foldl_append, h.walked]
    rfl
  have hlast : ∀ i, i < first + (n + 1) → i < first + n ∨ i = first + n := fun i hi => by omega
  rcases c.walkNumber_cases m (events ++ added) (first + n) with ⟨heq, hnames, hunique⟩ | ⟨heq, hhas⟩
  · refine ⟨added ++ [(field (c.entryInMemory m (first + n)).w1 0 8, first + n)], ?_, fun b hb => ?_, fun i h1 h2 hi => ?_⟩
    · rw [hstep, heq, List.append_assoc]
    · rw [← List.append_assoc]
      rcases List.mem_append.1 hb with hb | hb
      · obtain ⟨hlo, hhi, hn, hnum, hb'⟩ := h.member b hb
        refine ⟨hlo, by omega, hn, hnum, fun b' hmem hsame => ?_⟩
        rcases List.mem_append.1 hmem with hold | hnew
        · exact hb' b' hold hsame
        · rw [List.mem_singleton] at hnew
          subst hnew
          exact (hunique b (List.mem_append_right _ hb) hsame.symm).symm
      · rw [List.mem_singleton] at hb
        subst hb
        refine ⟨by simp, by simp, hnames, rfl, fun b' hmem hsame => ?_⟩
        rcases List.mem_append.1 hmem with hold | hnew
        · exact hunique b' hold hsame
        · rw [List.mem_singleton] at hnew
          rw [hnew]
    · rw [← List.append_assoc]
      rcases hlast i h2 with hi' | rfl
      · obtain ⟨b, hb, hn⟩ := h.covers i h1 hi' hi
        exact ⟨b, List.mem_append_left _ hb, hn⟩
      · exact ⟨_, List.mem_append_right _ (List.mem_singleton.2 rfl), rfl⟩
  · refine ⟨added, hstep.trans heq, fun b hb => ?_, fun i h1 h2 hi => ?_⟩
    · obtain ⟨hlo, hhi, hrest⟩ := h.member b hb
      exact ⟨hlo, by omega, hrest⟩
    · rcases hlast i h2 with hi' | rfl
      · exact h.covers i h1 hi' hi
      · exact hhas hi

theorem Chip.exists_numbersAdded (m : Memory) (events : List (BitVec 8 × Nat)) (first n : Nat) (c : Chip) :
    ∃ added, c.NumbersAdded m events first n added := by
  induction n with
  | zero => exact ⟨[], c.numbersAdded_zero m events first⟩
  | succ n ih =>
    obtain ⟨_, h⟩ := ih
    exact Chip.numbersAdded_succ h

/-- Closing a grant and presenting the next requests leave the queue block, the reservations and the log copy that the body
leaves. -/
theorem Chip.taps_granted (c : Chip) : c.closeGrant.present.toe = c.toe ∧
    c.closeGrant.present.clu.reserved = c.clu.reserved ∧ c.closeGrant.present.clu.copy = c.clu.copy := by
  have h : Chip.Same [.requests, .jobs, .tenure, .low, .statusMark] c c.closeGrant.present :=
    (c.same_closeGrant.mono (by decide)).then (Chip.same_present _ |>.mono (by decide))
  have hclu : { c.closeGrant.present.clu with low := false } = { c.clu with low := false } := h .clu (by decide)
  have hreserved := congrArg Clu.reserved hclu
  have hcopy := congrArg Clu.copy hclu
  exact ⟨h .toe (by decide), hreserved, hcopy⟩

/-- SUBSCRIBER_LOAD_WALK, granted to one of its two jobs. -/
theorem State.subscriberLoadWalk_granted (s : State) (j : Job) (L : List Piece) (d : Chip)
    (hj : j = .eventSet ∨ j = .subscriberWalk) (h : s.chip.offers j = true)
    (hd : (if j = .eventSet then (s.chip.atGrant j).eventSetBody s.mem else (s.chip.atGrant j).subscriberWalkBody s.mem) = d)
    (hs : Chip.Same L (s.chip.atGrant j) d) (hL : .arbiter ∉ L) :
    ∃ t, exec .subscriberLoadWalk s = .next t ∧ State.granted L s t ∧ t.chip = d.closeGrant.present := by
  have hblock : ∀ k : Job, k = .eventSet ∨ k = .subscriberWalk → k.block = .toe := by
    rintro k (rfl | rfl) <;> rfl
  subst hd
  obtain ⟨ht, hg⟩ := s.tenure_granted j (fun _ j => j = .eventSet || j = .subscriberWalk)
    (fun m j c => if j = .eventSet then c.eventSetBody m else c.subscriberWalkBody m) L h (by simpa using hj)
    (fun k hk => (hblock k (by simpa using hk)).trans (hblock j hj).symm) hs hL
  exact ⟨_, ht, hg, rfl⟩

/-- The tenure of six map entries. -/
theorem State.eventSet_granted (s : State) (w : TapWalk) (hw : s.chip.toe.walk = some w)
    (h : s.chip.offers .eventSet = true) :
    ∃ t events, exec .subscriberLoadWalk s = .next t ∧ State.granted [.toe] s t ∧ t.chip.runs .eventSet [] ∧
      t.chip.toe = { s.chip.toe with
        walk := some ⟨w.entry + min 6 (s.chip.mapCount - w.entry), w.events ++ events, w.subscriber⟩ } ∧
      s.chip.NumbersAdded s.mem w.events w.entry (min 6 (s.chip.mapCount - w.entry)) events := by
  obtain ⟨events, hadded⟩ := s.chip.exists_numbersAdded s.mem w.events w.entry (min 6 (s.chip.mapCount - w.entry))
  have hbody : (s.chip.atGrant .eventSet).eventSetBody s.mem = { s.chip.atGrant .eventSet with toe := { s.chip.toe with
      walk := some ⟨w.entry + min 6 (s.chip.mapCount - w.entry), w.events ++ events, w.subscriber⟩ } } := by
    rw [← hadded.walked, Chip.eventSetBody, show (s.chip.atGrant .eventSet).toe.walk = some w from hw]
    rfl
  obtain ⟨t, ht, hg, hchip⟩ := s.subscriberLoadWalk_granted .eventSet [.toe] _ (Or.inl rfl) h (if_pos rfl)
    (by rw [hbody]; exact Chip.same_withToe _ _) (by decide)
  rw [hbody] at hchip
  refine ⟨t, events, ht, hg, ?_, ?_, hadded⟩
  · rw [hchip]
    exact Chip.runs_granted .eventSet [] ⟨.eventSet, [], [], s.chip.free⟩ _ rfl rfl rfl
  · rw [hchip]
    exact (Chip.taps_granted _).1

end Sys2Proof.Machine
end

section
/-! The walk of one subscriber record (O38): what becomes of its demand, its collection and its words. -/

namespace Sys2Proof.Machine

/-! ### The gate demand (R104, R105) -/

/-- The walk closes the demand: it is not kept, or it is not delivered and no slot is free for it. -/
def TapDraft.closes (kept : Prop) (free : Nat) (d : TapDraft) : Prop :=
  d.demand ≠ 0 ∧ (¬kept ∨ (d.delivered = false ∧ free = 0))

/-- The walk refunds the demand. -/
def TapDraft.refunds (kept : Prop) (free : Nat) (d : TapDraft) : Prop :=
  d.demand ≠ 0 ∧ d.delivered = false ∧ 0 < free ∧ ¬kept

/-- The walk reserves a slot for the demand. -/
def TapDraft.reserves (kept : Prop) (free : Nat) (d : TapDraft) : Prop :=
  d.demand ≠ 0 ∧ d.delivered = false ∧ 0 < free ∧ kept

/-- The draft with the demand closed. -/
abbrev TapDraft.closed (d : TapDraft) : TapDraft := { d with demand := 0, delivered := false, changed := true }

/-- The ways of a demand through the walk: refunded and closed, closed without a record, kept with a reservation, and left
as it is. -/
theorem Chip.walkDemand_cases (sub : Nat) (keep : Bool) (kept : Prop) (hk : keep = true ↔ kept) (d : TapDraft) (c : Chip) :
    (d.closes kept c.free ∧ d.refunds kept c.free ∧ ¬d.reserves kept c.free ∧
      c.walkDemand sub keep d = (true, d.closed, c.reserve.append (refundRecord c.stamp sub d.demand 3 0) true)) ∨
    (d.closes kept c.free ∧ ¬d.refunds kept c.free ∧ ¬d.reserves kept c.free ∧
      c.walkDemand sub keep d = (true, d.closed, c)) ∨
    (¬d.closes kept c.free ∧ ¬d.refunds kept c.free ∧ d.reserves kept c.free ∧
      c.walkDemand sub keep d = (false, d, c.reserve)) ∨
    (¬d.closes kept c.free ∧ ¬d.refunds kept c.free ∧ ¬d.reserves kept c.free ∧
      c.walkDemand sub keep d = (false, d, c)) := by
  unfold TapDraft.closes TapDraft.refunds TapDraft.reserves Chip.walkDemand
  rw [← hk]
  by_cases hdemand : d.demand = 0#8
  · simp [hdemand]
  · cases hdelivered : d.delivered with
    | true => cases keep <;> simp [hdemand]
    | false =>
      by_cases hfree : c.free = 0
      · simp [hdemand, hfree]
      · cases keep <;> simp [hdemand, hfree, Nat.pos_of_ne_zero hfree]

/-- What the walk leaves of the demand: the reservation, the log copy and its writes. -/
structure Chip.DemandLeaves (sub : Nat) (kept : Prop) (d : TapDraft) (c : Chip) (clu : Clu) (ws : List (Addr × Word)) :
    Prop where
  reserved : d.reserves kept c.free → clu.reserved = c.clu.reserved + 1
  unreserved : ¬d.reserves kept c.free → clu.reserved = c.clu.reserved
  copy : ¬d.refunds kept c.free → clu.copy = c.clu.copy
  open_writes : ¬d.refunds kept c.free → ¬d.closes kept c.free → ws = []
  closed_writes : ¬d.refunds kept c.free → d.closes kept c.free → ws = [(c.recordAddr .subscribers sub 3, 0)]
  refund : ∀ l, d.refunds kept c.free → c.clu.copy = some l →
    ws = c.appendWrites l (refundRecord c.stamp sub d.demand 3 0) ++ [(c.recordAddr .subscribers sub 3, 0)] ∧
      clu.copy = some (l.appended (refundRecord c.stamp sub d.demand 3 0))

theorem Chip.DemandLeaves.congr {sub : Nat} {kept : Prop} {d : TapDraft} {c : Chip} {k l : Clu} {ws : List (Addr × Word)}
    (h : c.DemandLeaves sub kept d k ws) (hreserved : l.reserved = k.reserved) (hcopy : l.copy = k.copy) :
    c.DemandLeaves sub kept d l ws :=
  ⟨fun hr => hreserved.trans (h.reserved hr), fun hr => hreserved.trans (h.unreserved hr),
    fun hr => hcopy.trans (h.copy hr), h.open_writes, h.closed_writes, fun y hr hy =>
      ⟨(h.refund y hr hy).1, hcopy.trans (h.refund y hr hy).2⟩⟩

/-- The grant of a tenure touches nothing of this. -/
theorem Chip.DemandLeaves.of_atGrant {j : Job} {sub : Nat} {kept : Prop} {d : TapDraft} {c : Chip} {k : Clu}
    {ws : List (Addr × Word)} (h : (c.atGrant j).DemandLeaves sub kept d k ws) : c.DemandLeaves sub kept d k ws :=
  ⟨h.reserved, h.unreserved, h.copy, h.open_writes, h.closed_writes, h.refund⟩

/-- The write of w3 that a draft asks for. -/
def Chip.draftWrites (sub : Nat) (d : TapDraft) (c : Chip) : List (Addr × Word) :=
  if d.changed then [(c.recordAddr .subscribers sub 3, subW3 d.demand d.delivered)] else []

theorem Chip.walkDemand_leaves (sub : Nat) (keep : Bool) (kept : Prop) (hk : keep = true ↔ kept) (d : TapDraft) (c : Chip)
    (x : Tenure) (hx : c.tau.running = some x) (hd : d.changed = false) :
    ∃ vs, (c.walkDemand sub keep d).2.2.tau.running = some { x with writes := x.writes ++ vs } ∧
      Chip.Same [.tenure, .clu] c (c.walkDemand sub keep d).2.2 ∧
      c.DemandLeaves sub kept d (c.walkDemand sub keep d).2.2.clu
        (vs ++ c.draftWrites sub (c.walkDemand sub keep d).2.1) := by
  have hopen : c.draftWrites sub d = [] := if_neg (by simp [hd])
  have hclosed : c.draftWrites sub d.closed = [(c.recordAddr .subscribers sub 3, 0)] :=
    congrArg (fun v => [(c.recordAddr .subscribers sub 3, v)]) (show subW3 0 false = 0 by decide)
  have hkeep : some x = some { x with writes := x.writes ++ [] } := by rw [List.append_nil]
  rcases c.walkDemand_cases sub keep kept hk d with ⟨hcl, hre, hrs, heq⟩ | ⟨hcl, hre, hrs, heq⟩ | ⟨hcl, hre, hrs, heq⟩ |
    ⟨hcl, hre, hrs, heq⟩ <;> rw [heq] <;> dsimp only
  · obtain ⟨l, hl⟩ := c.copy_of_free hre.2.2.1
    have hclu := c.reserve.append_copy (refundRecord c.stamp sub d.demand 3 0) true l hl
    have hrun := c.reserve.append_running (refundRecord c.stamp sub d.demand 3 0) true l x hl hx
    refine ⟨_, hrun, (c.same_reserve.mono (by decide)).then (Chip.same_append _ _ _), ?_⟩
    rw [hclosed, hclu]
    refine ⟨fun h => absurd h hrs, fun _ => Nat.add_sub_cancel _ 1, fun h => absurd hre h, fun h => absurd hre h,
      fun h => absurd hre h, fun l' _ hl' => ?_⟩
    obtain rfl : l = l' := Option.some.inj (hl.symm.trans hl')
    exact ⟨rfl, rfl⟩
  · refine ⟨[], hx.trans hkeep, Chip.Same.refl _ c, ?_⟩
    rw [hclosed]
    exact ⟨fun h => absurd h hrs, fun _ => rfl, fun _ => rfl, fun _ h => absurd hcl h, fun _ _ => rfl,
      fun _ h => absurd h hre⟩
  · refine ⟨[], hx.trans hkeep, c.same_reserve.mono (by decide), ?_⟩
    rw [hopen]
    exact ⟨fun _ => rfl, fun h => absurd hrs h, fun _ => rfl, fun _ _ => rfl, fun _ h => absurd h hcl,
      fun _ h => absurd h hre⟩
  · refine ⟨[], hx.trans hkeep, Chip.Same.refl _ c, ?_⟩
    rw [hopen]
    exact ⟨fun h => absurd h hrs, fun _ => rfl, fun _ => rfl, fun _ _ => rfl, fun _ h => absurd h hcl,
      fun _ h => absurd h hre⟩

/-- The draft after the walk of its demand, and whether it was closed. -/
theorem Chip.walkDemand_draft (sub : Nat) (keep : Bool) (kept : Prop) (hk : keep = true ↔ kept) (d : TapDraft) (c : Chip) :
    (d.closes kept c.free ∧ (c.walkDemand sub keep d).1 = true ∧ (c.walkDemand sub keep d).2.1 = d.closed) ∨
    (¬d.closes kept c.free ∧ (c.walkDemand sub keep d).1 = false ∧ (c.walkDemand sub keep d).2.1 = d) := by
  rcases c.walkDemand_cases sub keep kept hk d with ⟨hcl, -, -, heq⟩ | ⟨hcl, -, -, heq⟩ | ⟨hcl, -, -, heq⟩ |
    ⟨hcl, -, -, heq⟩ <;> rw [heq]
  · exact Or.inl ⟨hcl, rfl, rfl⟩
  · exact Or.inl ⟨hcl, rfl, rfl⟩
  · exact Or.inr ⟨hcl, rfl, rfl⟩
  · exact Or.inr ⟨hcl, rfl, rfl⟩

/-- After the walk a change is needed where the level wanted differs, or the gate, which is wanted open for a demand that
was not closed. -/
theorem Chip.walkDemand_needsChange (sub : Nat) (keep : Bool) (kept : Prop) (hk : keep = true ↔ kept) (d : TapDraft)
    (c : Chip) (wanted : Bool) (hwanted : wanted = true ↔ d.demand ≠ 0 ∧ ¬d.closes kept c.free) :
    (c.walkDemand sub keep d).2.1.needsChange = true ↔ d.desired ≠ d.status.level ∨ wanted ≠ d.status.gate := by
  have hneeds : ∀ y : TapDraft, y.needsChange = true ↔
      y.desired ≠ y.status.level ∨ y.gateWanted ≠ y.status.gate := fun y => by simp [TapDraft.needsChange]
  rw [hneeds]
  rcases c.walkDemand_draft sub keep kept hk d with ⟨hcl, -, hdraft⟩ | ⟨hcl, -, hdraft⟩ <;> rw [hdraft]
  · have hshut : wanted = false := Bool.eq_false_iff.2 fun h => (hwanted.1 h).2 hcl
    rw [hshut]
    rfl
  · have hgate : d.gateWanted = wanted := Bool.eq_iff_iff.2 (by simp [hwanted, hcl, TapDraft.gateWanted])
    rw [hgate]

/-! ### The record (R103, R80) -/

/-- The write before w2 for a draft that is not timed: w3 where it has changed. -/
theorem Chip.writeDraft_leaves (sub : Nat) (d : TapDraft) (c : Chip) (x : Tenure) (hx : c.tau.running = some x)
    (hd : d.timed = false) :
    (c.writeDraft sub d).tau.running = some { x with writes := x.writes ++ c.draftWrites sub d } ∧
    (c.writeDraft sub d).toe = c.toe ∧ (c.writeDraft sub d).clu = c.clu := by
  unfold Chip.writeDraft Chip.draftWrites
  rw [hd]
  cases d.changed with
  | false => exact ⟨by simpa using hx, rfl, rfl⟩
  | true => exact ⟨Chip.running_writeRecord _ _ _ _ _ x hx, rfl, rfl⟩

/-- The block's writes for a draft that is not timed: w3 where it has changed, and w2. -/
theorem Chip.commitTap_leaves (sub : Nat) (rest : OrderState) (used : BitVec 4) (d : TapDraft) (c : Chip) (x : Tenure)
    (hx : c.tau.running = some x) (hd : d.timed = false) :
    (c.commitTap sub rest used d).tau.running = some { x with writes := x.writes ++ (c.draftWrites sub d ++
      [(c.recordAddr .subscribers sub 2, (c.toe.shown sub rest used d.status).word)]) } ∧
    (c.commitTap sub rest used d).toe = c.toe ∧ (c.commitTap sub rest used d).clu = c.clu := by
  obtain ⟨hrun, htoe, hclu⟩ := c.writeDraft_leaves sub d x hx hd
  refine ⟨?_, htoe, hclu⟩
  refine (Chip.running_writeRecord .subscribers sub 2 _ _ _ hrun).trans ?_
  rw [Chip.recordAddr_congr _ _ (c.same_writeDraft sub d .map (by decide)), htoe, List.append_assoc]

theorem Chip.draftWrites_congr {c e : Chip} (h : e.map = c.map) (sub : Nat) (d : TapDraft) :
    e.draftWrites sub d = c.draftWrites sub d := by
  unfold Chip.draftWrites
  rw [Chip.recordAddr_congr _ _ h]

/-- A RESTORE sweep in the queue reaches a held subscriber. -/
theorem Chip.sweepReaches_iff (node sub : Nat) (c : Chip) : c.sweepReaches node sub = true ↔
    ∃ e ∈ c.swe.queue, ∃ n, e.kind = .restore node n ∧ e.resume ≤ sub := by
  unfold Chip.sweepReaches
  rw [List.any_eq_true]
  refine exists_congr fun e => and_congr_right fun _ => ?_
  cases e.kind <;> simp

/-- The walk keeps a demand: its record is in use, and its number is in the temporary set. -/
def Chip.walkKeeps (m : Memory) (events : List (BitVec 8 × Nat)) (sub : Nat) (c : Chip) : Prop :=
  subInUse (c.recordWord m .subscribers sub 0) = true ∧ ∃ b ∈ events, b.1 = (c.tapDraft m sub).demand

/-- The walk closes the demand of a record. -/
def Chip.walkCloses (m : Memory) (events : List (BitVec 8 × Nat)) (sub : Nat) (c : Chip) : Prop :=
  (c.tapDraft m sub).closes (c.walkKeeps m events sub) c.free

/-- The walk finds an in-use record in state `o`: that of memory, or IDLE where its demand was closed. -/
def Chip.walkFinds (m : Memory) (events : List (BitVec 8 × Nat)) (sub : Nat) (c : Chip) (o : OrderState) : Prop :=
  subInUse (c.recordWord m .subscribers sub 0) = true ∧
    (¬c.walkCloses m events sub ∧ (c.tapDraft m sub).status.order = o ∨ c.walkCloses m events sub ∧ o = .idle)

/-- An in-use record is found in one state. -/
theorem Chip.exists_walkFinds (m : Memory) (events : List (BitVec 8 × Nat)) (sub : Nat) (c : Chip)
    (hu : subInUse (c.recordWord m .subscribers sub 0) = true) :
    ∃ o, c.walkFinds m events sub o ∧ (c.walkFinds m events sub .failed ↔ o = .failed) := by
  by_cases hcl : c.walkCloses m events sub
  · exact ⟨.idle, ⟨hu, Or.inr ⟨hcl, rfl⟩⟩, by simp [Chip.walkFinds, hcl]⟩
  · exact ⟨_, ⟨hu, Or.inl ⟨hcl, rfl⟩⟩, by simp [Chip.walkFinds, hu, hcl]⟩

/-- The demand of the record is in the temporary set. -/
def Chip.walkListed (m : Memory) (events : List (BitVec 8 × Nat)) (sub : Nat) (c : Chip) : Bool :=
  events.any fun b => b.1 = (c.tapDraft m sub).demand

/-- A change is needed after the walk of an in-use record's demand. -/
def Chip.walkChange (m : Memory) (events : List (BitVec 8 × Nat)) (sub : Nat) (c : Chip) : Bool :=
  (c.walkDemand sub (c.walkListed m events sub) (c.tapDraft m sub)).2.1.needsChange

theorem Chip.walkListed_iff (m : Memory) (events : List (BitVec 8 × Nat)) (sub : Nat) (c : Chip)
    (hu : subInUse (c.recordWord m .subscribers sub 0) = true) :
    c.walkListed m events sub = true ↔ c.walkKeeps m events sub := by
  simp [Chip.walkListed, Chip.walkKeeps, hu]

theorem Chip.walkChange_iff (m : Memory) (events : List (BitVec 8 × Nat)) (sub : Nat) (c : Chip)
    (hu : subInUse (c.recordWord m .subscribers sub 0) = true) (wanted : Bool)
    (hwanted : wanted = true ↔ (c.tapDraft m sub).demand ≠ 0 ∧ ¬c.walkCloses m events sub) :
    c.walkChange m events sub = true ↔ (c.tapDraft m sub).desired ≠ (c.tapDraft m sub).status.level ∨
      wanted ≠ (c.tapDraft m sub).status.gate :=
  c.walkDemand_needsChange sub _ _ (c.walkListed_iff m events sub hu) _ wanted hwanted

/-- What the walk of a record leaves (R103, R104): of its demand, and for a record in use its collection and its w2. -/
structure Chip.SubscriberLeaves (m : Memory) (events : List (BitVec 8 × Nat)) (sub : Nat) (c : Chip) (x : Tenure)
    (ws : List (Addr × Word)) (e : Chip) : Prop where
  same : Chip.Same [.toe, .clu, .tenure] c e
  demand : c.DemandLeaves sub (c.walkKeeps m events sub) (c.tapDraft m sub) e.clu ws
  unused : subInUse (c.recordWord m .subscribers sub 0) = false →
    e.toe = c.toe ∧ e.tau.running = some { x with writes := x.writes ++ ws }
  used : ∀ o, c.walkFinds m events sub o →
    e.toe = c.toe.walked sub o (c.walkChange m events sub)
      (c.sweepReaches (subNode (c.recordWord m .subscribers sub 0)) sub) ∧
    e.tau.running = some { x with writes := x.writes ++ (ws ++ [(c.recordAddr .subscribers sub 2,
      (e.toe.shown sub (if o = .failed then .failed else .idle) 0 (c.tapDraft m sub).status).word)]) }

theorem Chip.walkSubscriber_unused (m : Memory) (events : List (BitVec 8 × Nat)) (sub : Nat) (c : Chip) (x : Tenure)
    (hx : c.tau.running = some x) (hu : subInUse (c.recordWord m .subscribers sub 0) = false) :
    ∃ ws, c.SubscriberLeaves m events sub x ws (c.walkSubscriber m events sub) := by
  have hk : false = true ↔ c.walkKeeps m events sub := by simp [Chip.walkKeeps, hu]
  obtain ⟨vs, hrun, hsame, hdemand⟩ := c.walkDemand_leaves sub false _ hk (c.tapDraft m sub) x hx rfl
  have hdraft := c.walkDemand_draft sub false _ hk (c.tapDraft m sub)
  have htimed : (c.walkDemand sub false (c.tapDraft m sub)).2.1.timed = false := by
    rcases hdraft with ⟨-, -, h⟩ | ⟨-, -, h⟩ <;> rw [h] <;> rfl
  have hbody : c.walkSubscriber m events sub =
      (c.walkDemand sub false (c.tapDraft m sub)).2.2.writeDraft sub (c.walkDemand sub false (c.tapDraft m sub)).2.1 := by
    unfold Chip.walkSubscriber
    dsimp only
    rw [if_neg (by simp [hu])]
    rcases hdraft with ⟨-, -, h⟩ | ⟨-, -, h⟩ <;> rw [h] <;> rfl
  obtain ⟨hwrite, htoe, hclu⟩ := Chip.writeDraft_leaves sub _ _ _ hrun htimed
  rw [Chip.draftWrites_congr (hsame .map (by decide)), List.append_assoc] at hwrite
  rw [hbody]
  refine ⟨_, (hsame.mono (by decide)).then ((Chip.same_writeDraft _ _ _).mono (by decide)), hclu ▸ hdemand,
    fun _ => ⟨htoe.trans (hsame .toe (by decide)), hwrite⟩, fun o h => absurd (hu.symm.trans h.1) (by decide)⟩

theorem Chip.walkSubscriber_eq (m : Memory) (events : List (BitVec 8 × Nat)) (sub : Nat) (c : Chip)
    (hu : subInUse (c.recordWord m .subscribers sub 0) = true) :
    let r := c.walkDemand sub (c.walkListed m events sub) (c.tapDraft m sub)
    let found := if r.1 = true then .idle else (c.tapDraft m sub).status.order
    c.walkSubscriber m events sub = Chip.commitTap sub (if found = .failed then .failed else .idle) 0 r.2.1
      { r.2.2 with
        toe := r.2.2.toe.walked sub found r.2.1.needsChange
          (c.sweepReaches (subNode (c.recordWord m .subscribers sub 0)) sub) } :=
  if_pos hu

theorem Chip.walkSubscriber_used (m : Memory) (events : List (BitVec 8 × Nat)) (sub : Nat) (c : Chip) (x : Tenure)
    (hx : c.tau.running = some x) (hu : subInUse (c.recordWord m .subscribers sub 0) = true) :
    ∃ ws, c.SubscriberLeaves m events sub x ws (c.walkSubscriber m events sub) := by
  have hk := c.walkListed_iff m events sub hu
  obtain ⟨vs, hrun, hsame, hdemand⟩ := c.walkDemand_leaves sub _ _ hk (c.tapDraft m sub) x hx rfl
  have hdraft := c.walkDemand_draft sub _ _ hk (c.tapDraft m sub)
  have hbody := c.walkSubscriber_eq m events sub hu
  dsimp only at hbody
  rw [show (c.walkDemand sub (c.walkListed m events sub) (c.tapDraft m sub)).2.1.needsChange =
    c.walkChange m events sub from rfl] at hbody
  revert hrun hsame hdemand hdraft hbody
  generalize c.walkDemand sub (c.walkListed m events sub) (c.tapDraft m sub) = r
  intro hrun hsame hdemand hdraft hbody
  have hkeeps : r.2.1.timed = false ∧ r.2.1.status = (c.tapDraft m sub).status := by
    rcases hdraft with ⟨-, -, h⟩ | ⟨-, -, h⟩ <;> rw [h] <;> exact ⟨rfl, rfl⟩
  have hfound : ∀ o, c.walkFinds m events sub o → (if r.1 = true then .idle else (c.tapDraft m sub).status.order) = o := by
    rintro o ⟨-, ho⟩
    rcases hdraft with ⟨hcl, h, -⟩ | ⟨hcl, h, -⟩ <;> rw [h]
    · exact (ho.resolve_left fun hn => hn.1 hcl).2.symm
    · exact (ho.resolve_right fun hn => hcl hn.1).2
  generalize (if r.1 = true then OrderState.idle else (c.tapDraft m sub).status.order) = found at hbody hfound
  rw [hbody]
  generalize hwalked : r.2.2.toe.walked sub found (c.walkChange m events sub)
    (c.sweepReaches (subNode (c.recordWord m .subscribers sub 0)) sub) = toe
  obtain ⟨hwrite, htoe, hclu⟩ := Chip.commitTap_leaves sub (if found = .failed then .failed else .idle) 0 r.2.1
    { r.2.2 with toe := toe } _ hrun hkeeps.1
  refine ⟨_, ?_, hclu ▸ hdemand, fun h => absurd (hu.symm.trans h) (by decide), fun o ho => ?_⟩
  · exact ((hsame.mono (by decide)).then ((Chip.same_withToe _ _).mono (by decide))).then
      ((Chip.same_commitTap _ _ _ _ _).mono (by decide))
  · have hmap : { r.2.2 with toe := toe }.map = c.map := hsame .map (by decide)
    obtain rfl := hfound o ho
    rw [hwrite, htoe, Chip.draftWrites_congr hmap, Chip.recordAddr_congr _ _ hmap, hkeeps.2]
    dsimp only
    refine ⟨?_, by rw [List.append_assoc, List.append_assoc]⟩
    rw [← hwalked, show r.2.2.toe = c.toe from hsame .toe (by decide)]

end Sys2Proof.Machine
end

section
/-! SUBSCRIBER_LOAD_WALK (O38): the tenure of one subscriber, and the statement. -/

namespace Sys2Proof.Machine

/-- The place of the walk is not read by a subscriber's joining a collection. -/
theorem Toe.walked_withWalk (t : Toe) (sub : Nat) (o : OrderState) (change reached : Bool) (v : Option TapWalk) :
    { t.walked sub o change reached with walk := v } = Toe.walked { t with walk := v } sub o change reached := by
  have hjoin : ∀ b, { t.join sub b with walk := v } = Toe.join { t with walk := v } sub b := fun b => by
    unfold Toe.join
    dsimp only
    split <;> rfl
  cases o with
  | inFlight | queued | deferred => exact hjoin _
  | held =>
    cases reached with
    | true => rfl
    | false => exact hjoin false
  | idle =>
    cases change with
    | true => exact hjoin false
    | false => rfl
  | failed => rfl

/-- The order state that a w2 shows (R80). -/
theorem Toe.shown_order (t : Toe) (sub : Nat) (rest : OrderState) (used : BitVec 4) (y : TapStatus) :
    (t.shown sub rest used y).order = (t.whereIs sub).getD rest := by
  unfold Toe.shown
  cases t.whereIs sub with
  | none => rfl
  | some o => cases o <;> rfl

/-- The order state and the attempts apart, a w2 shows what it showed. -/
theorem Toe.shown_rest (t : Toe) (sub : Nat) (rest : OrderState) (used : BitVec 4) (y : TapStatus) :
    (t.shown sub rest used y).level = y.level ∧ (t.shown sub rest used y).gate = y.gate ∧
      (t.shown sub rest used y).result = y.result ∧ (t.shown sub rest used y).lowSignal = y.lowSignal ∧
      (t.shown sub rest used y).unset = y.unset ∧ (t.shown sub rest used y).unlocked = y.unlocked := by
  unfold Toe.shown
  cases t.whereIs sub with
  | none => exact ⟨rfl, rfl, rfl, rfl, rfl, rfl⟩
  | some o => cases o <;> exact ⟨rfl, rfl, rfl, rfl, rfl, rfl⟩

/-- The fields of a w2 as it is shown. -/
theorem Toe.shown_word (t : Toe) (sub : Nat) (rest : OrderState) (used : BitVec 4) (y : TapStatus) :
    field (t.shown sub rest used y).word 0 2 = y.level ∧ bit (t.shown sub rest used y).word 2 = y.gate ∧
      field (t.shown sub rest used y).word 8 3 = y.result ∧ bit (t.shown sub rest used y).word 16 = y.lowSignal ∧
      bit (t.shown sub rest used y).word 20 = y.unset ∧ bit (t.shown sub rest used y).word 21 = y.unlocked ∧
      field (t.shown sub rest used y).word 12 4 = t.attemptsUsed sub used ∧
      field (t.shown sub rest used y).word 4 3 = ((t.whereIs sub).getD rest).code := by
  obtain ⟨hlevel, hgate, hattempts, hlow, hunset, hunlocked⟩ := (t.shown sub rest used y).word_rest
  obtain ⟨slevel, sgate, sresult, slow, sunset, sunlocked⟩ := t.shown_rest sub rest used y
  exact ⟨hlevel.trans slevel, hgate.trans sgate, (TapStatus.word_result _).trans sresult, hlow.trans slow,
    hunset.trans sunset, hunlocked.trans sunlocked, hattempts.trans (t.shown_attempts ..),
    (TapStatus.word_order _).trans (congrArg OrderState.code (t.shown_order ..))⟩

theorem Chip.walkSubscriber_leaves (m : Memory) (events : List (BitVec 8 × Nat)) (sub : Nat) (c : Chip) (x : Tenure)
    (hx : c.tau.running = some x) : ∃ ws, c.SubscriberLeaves m events sub x ws (c.walkSubscriber m events sub) := by
  cases hu : subInUse (c.recordWord m .subscribers sub 0) with
  | false => exact c.walkSubscriber_unused m events sub x hx hu
  | true => exact c.walkSubscriber_used m events sub x hx hu

/-- The tenure of one subscriber record: what it runs and leaves, by the part before it. -/
theorem State.subscriberWalk_granted (s : State) (w : TapWalk) (hw : s.chip.toe.walk = some w)
    (h : s.chip.offers .subscriberWalk = true) :
    ∃ t ws, exec .subscriberLoadWalk s = .next t ∧ State.granted [.toe, .clu] s t ∧
      t.chip.toe.walk = some { w with subscriber := w.subscriber + 1 } ∧
      s.chip.DemandLeaves w.subscriber (s.chip.walkKeeps s.mem w.events w.subscriber) (s.chip.tapDraft s.mem w.subscriber)
        t.chip.clu ws ∧
      (subInUse (s.chip.recordWord s.mem .subscribers w.subscriber 0) = false →
        t.chip.toe = { s.chip.toe with walk := some { w with subscriber := w.subscriber + 1 } } ∧
        t.chip.runs .subscriberWalk ws) ∧
      (∀ o, s.chip.walkFinds s.mem w.events w.subscriber o →
        t.chip.toe = Toe.walked { s.chip.toe with walk := some { w with subscriber := w.subscriber + 1 } } w.subscriber o
          ((s.chip.atGrant .subscriberWalk).walkChange s.mem w.events w.subscriber)
          (s.chip.sweepReaches (subNode (s.chip.recordWord s.mem .subscribers w.subscriber 0)) w.subscriber) ∧
        t.chip.runs .subscriberWalk (ws ++ [(s.chip.recordAddr .subscribers w.subscriber 2,
          (t.chip.toe.shown w.subscriber (if o = .failed then .failed else .idle) 0
            (s.chip.tapDraft s.mem w.subscriber).status).word)])) := by
  obtain ⟨ws, hsame, hdemand, hunused, hused⟩ := (s.chip.atGrant .subscriberWalk).walkSubscriber_leaves s.mem w.events
    w.subscriber ⟨.subscriberWalk, [], [], s.chip.free⟩ rfl
  have hbody : (s.chip.atGrant .subscriberWalk).subscriberWalkBody s.mem =
      { (s.chip.atGrant .subscriberWalk).walkSubscriber s.mem w.events w.subscriber with
        toe := { ((s.chip.atGrant .subscriberWalk).walkSubscriber s.mem w.events w.subscriber).toe with
          walk := some { w with subscriber := w.subscriber + 1 } } } := by
    rw [Chip.subscriberWalkBody, show (s.chip.atGrant .subscriberWalk).toe.walk = some w from hw]
  revert hsame hdemand hunused hused hbody
  generalize (s.chip.atGrant .subscriberWalk).walkSubscriber s.mem w.events w.subscriber = e
  intro hsame hdemand hunused hused hbody
  obtain ⟨t, ht, hg, hchip⟩ := s.subscriberLoadWalk_granted .subscriberWalk [.toe, .clu, .tenure] _ (Or.inr rfl) h
    ((if_neg (by decide)).trans hbody) (hsame.then ((Chip.same_withToe _ _).mono (by decide))) (by decide)
  obtain ⟨htoe, hreserved, hcopy⟩ := Chip.taps_granted { e with
    toe := { e.toe with walk := some { w with subscriber := w.subscriber + 1 } } }
  rw [← hchip] at htoe hreserved hcopy
  have hruns : ∀ l, e.tau.running = some ⟨.subscriberWalk, [] ++ l, [], s.chip.free⟩ → t.chip.runs .subscriberWalk l :=
    fun l hl => by
      rw [hchip]
      exact Chip.runs_granted .subscriberWalk l _ _ hl rfl (List.nil_append l)
  have hwalk : t.chip.toe.walk = some { w with subscriber := w.subscriber + 1 } := congrArg Toe.walk htoe
  refine ⟨t, ws, ht, ⟨hg.1, hg.2.1, hg.2.2.mono (by decide)⟩, hwalk, hdemand.of_atGrant.congr hreserved hcopy, fun hu => ?_,
    fun o ho => ?_⟩
  · obtain ⟨hold, hrun⟩ := hunused hu
    exact ⟨by rw [htoe, hold]; rfl, hruns ws hrun⟩
  · obtain ⟨hold, hrun⟩ := hused o ho
    rw [htoe]
    exact ⟨(congrArg (fun y : Toe => { y with walk := some { w with subscriber := w.subscriber + 1 } }) hold).trans
      (Toe.walked_withWalk ..), hruns _ hrun⟩

/-- Settles O38: the tenures of the event set add the numbers of events, and the tenure of a subscriber does by its demand
and its order state what the walk says. -/
theorem subscriberWalkRederives : Obligations.SubscriberWalkRederives := by
  unfold Obligations.SubscriberWalkRederives
  refine fun s w hw => ⟨fun h => ?_, fun h => ?_⟩
  · obtain ⟨t, events, ht, hg, hrun, htoe, hadded⟩ := s.eventSet_granted w hw h
    exact ⟨t, events, ht, hg, hrun, htoe, hadded.member, hadded.covers⟩
  obtain ⟨t, ws, ht, hg, hwalk, hdemand, hunused, hused⟩ := s.subscriberWalk_granted w hw h
  refine ⟨t, ht, hg, hwalk, ?_⟩
  have hchange := (s.chip.atGrant .subscriberWalk).walkChange_iff s.mem w.events w.subscriber
  have hreached := s.chip.sweepReaches_iff (subNode (s.chip.recordWord s.mem .subscribers w.subscriber 0)) w.subscriber
  refine ⟨fun hu h0 => ?_, fun hu => (hunused (Bool.eq_false_iff.2 hu)).1, fun hf => (hused _ hf).1,
    fun hf => hf.elim (fun hq => (hused _ hq).1) fun hd => (hused _ hd).1,
    fun hf hr => (hused _ hf).1.trans (if_pos (hreached.2 hr)),
    fun hf hr => (hused _ hf).1.trans (if_neg (hreached.not.2 hr)),
    fun hf hc => (hused _ hf).1.trans (if_pos (by refine (hchange hf.1 _ ?_).2 hc; exact decide_eq_true_iff)),
    fun hf hc => (hused _ hf).1.trans (if_neg (by refine (hchange hf.1 _ ?_).not.2 hc; exact decide_eq_true_iff)),
    fun hf => (hused _ hf).1, hdemand.reserved, hdemand.unreserved, hdemand.copy, ?_⟩
  · have hrun := (hunused (Bool.eq_false_iff.2 hu)).2
    rwa [hdemand.open_writes (fun hr => hr.1 h0) fun hc => hc.1 h0] at hrun
  by_cases hu : subInUse (s.chip.recordWord s.mem .subscribers w.subscriber 0) = true
  · obtain ⟨o, ho, hfailed⟩ := s.chip.exists_walkFinds s.mem w.events w.subscriber hu
    obtain ⟨hlevel, hgate, hresult, hlow, hunset, hunlocked, hattempts, horder⟩ := t.chip.toe.shown_word w.subscriber
      (if o = .failed then .failed else .idle) 0 (s.chip.tapDraft s.mem w.subscriber).status
    refine ⟨ws, _, (hused o ho).2, hdemand.open_writes, hdemand.closed_writes, hdemand.refund, fun hn => absurd hu hn,
      fun _ => ⟨_, rfl, hlevel, hgate, hresult, hlow, hunset, hunlocked, fun hf hout => ?_, hattempts, fun hf => ?_⟩⟩
    · rw [horder, hout, if_pos (hfailed.1 hf)]
      rfl
    · rw [horder, if_neg (hfailed.not.1 hf)]
  · exact ⟨ws, [], by rw [List.append_nil]; exact (hunused (Bool.eq_false_iff.2 hu)).2, hdemand.open_writes,
      hdemand.closed_writes, hdemand.refund, fun _ => rfl, fun hn => absurd hn hu⟩

end Sys2Proof.Machine
end

section
/-! The work of a tenure at its grant, in one form: the writes laid down, what is owed, the collections and the charge log's
items. Each operation of the Tap Order Engine takes that form to itself, so that a body is read off in one. -/

namespace Sys2Proof.Machine

/-! ### The form -/

/-- The part with these writes and debts added to its running tenure, these collections and these items of the charge log. -/
def Chip.atWork (ws : List (Addr × Word)) (os : List Owed) (t : Toe) (k : Clu) (c : Chip) : Chip :=
  { c with
    tau := { c.tau with
      running := c.tau.running.map fun x => { x with writes := x.writes ++ ws, owed := x.owed ++ os } }
    toe := t
    clu := k }

theorem Chip.atWork_nil (c : Chip) : c.atWork [] [] c.toe c.clu = c := by
  obtain ⟨_, _, _, _, _, ⟨orders, running⟩⟩ := c
  cases running <;> simp [Chip.atWork]

theorem Chip.withToe_eq (t : Toe) (c : Chip) : { c with toe := t } = c.atWork [] [] t c.clu := by
  conv_lhs => rw [← c.atWork_nil]
  rfl

@[simp] theorem Chip.atWork_atWork (ws ws' : List (Addr × Word)) (os os' : List Owed) (t t' : Toe) (k k' : Clu) (c : Chip) :
    (c.atWork ws os t k).atWork ws' os' t' k' = c.atWork (ws ++ ws') (os ++ os') t' k' := by
  simp [Chip.atWork, Function.comp_def]

theorem Chip.same_atWork (ws : List (Addr × Word)) (os : List Owed) (t : Toe) (k : Clu) (c : Chip)
    (hk : k.low = c.clu.low) : Chip.Same [.tenure, .toe, .clu] c (c.atWork ws os t k) := by
  intro x hx; cases x <;> first | exact absurd (by decide) hx | rfl | exact ⟨rfl, rfl⟩ | exact hk

/-! ### The operations in that form -/

@[simp] theorem Chip.atWork_withToe (ws : List (Addr × Word)) (os : List Owed) (t u : Toe) (k : Clu) (c : Chip) :
    { c.atWork ws os t k with toe := u } = c.atWork ws os u k := rfl

@[simp] theorem Chip.atWork_toe (ws : List (Addr × Word)) (os : List Owed) (t : Toe) (k : Clu) (c : Chip) :
    (c.atWork ws os t k).toe = t := rfl

theorem Chip.write_atWork (a : Addr) (v : Word) (ws : List (Addr × Word)) (os : List Owed) (t : Toe) (k : Clu) (c : Chip) :
    (c.atWork ws os t k).write a v = c.atWork (ws ++ [(a, v)]) os t k := by
  simp [Chip.atWork, Chip.write, Function.comp_def]

@[simp] theorem Chip.writeRecord_atWork (b : Table) (i n : Nat) (v : Word) (ws : List (Addr × Word)) (os : List Owed)
    (t : Toe) (k : Clu) (c : Chip) :
    (c.atWork ws os t k).writeRecord b i n v = c.atWork (ws ++ [(c.recordAddr b i n, v)]) os t k :=
  c.write_atWork _ _ _ _ _ _

@[simp] theorem Chip.owe_atWork (o : Owed) (ws : List (Addr × Word)) (os : List Owed) (t : Toe) (k : Clu) (c : Chip) :
    (c.atWork ws os t k).owe o = c.atWork ws (os ++ [o]) t k := by
  simp [Chip.atWork, Chip.owe, Function.comp_def]

@[simp] theorem Chip.reserve_atWork (ws : List (Addr × Word)) (os : List Owed) (t : Toe) (k : Clu) (c : Chip) :
    (c.atWork ws os t k).reserve = c.atWork ws os t { k with reserved := k.reserved + 1 } := rfl

@[simp] theorem Chip.unreserve_atWork (ws : List (Addr × Word)) (os : List Owed) (t : Toe) (k : Clu) (c : Chip) :
    (c.atWork ws os t k).unreserve = c.atWork ws os t { k with reserved := k.reserved - 1 } := rfl

/-- The items of the charge log after an append, which does nothing while the copy is not loaded (R154). -/
def Clu.logged (k : Clu) (r : LogRecord) (useReservation : Bool) : Clu :=
  match k.copy with
  | none => k
  | some l =>
    { k with copy := some (l.appended r), reserved := if useReservation then k.reserved - 1 else k.reserved }

/-- The writes of that append. -/
def Chip.logs (k : Clu) (r : LogRecord) (c : Chip) : List (Addr × Word) :=
  match k.copy with
  | none => []
  | some l => c.appendWrites l r

theorem Clu.logged_some {k : Clu} {l : LogCopy} (h : k.copy = some l) (r : LogRecord) (b : Bool) :
    k.logged r b = { k with copy := some (l.appended r), reserved := if b then k.reserved - 1 else k.reserved } := by
  rw [Clu.logged, h]

theorem Chip.logs_some {k : Clu} {l : LogCopy} (h : k.copy = some l) (r : LogRecord) (c : Chip) :
    c.logs k r = c.appendWrites l r := by
  rw [Chip.logs, h]

@[simp] theorem Clu.logged_low (k : Clu) (r : LogRecord) (b : Bool) : (k.logged r b).low = k.low := by
  unfold Clu.logged
  split <;> rfl

@[simp] theorem Chip.append_atWork (r : LogRecord) (b : Bool) (ws : List (Addr × Word)) (os : List Owed) (t : Toe) (k : Clu)
    (c : Chip) : (c.atWork ws os t k).append r b = c.atWork (ws ++ c.logs k r) os t (k.logged r b) := by
  cases h : k.copy with
  | none =>
    rw [Chip.append_none _ _ _ h, Clu.logged, Chip.logs, h]
    simp
  | some l =>
    rw [Clu.logged_some h, Chip.logs_some h]
    unfold Chip.append Chip.appendWith
    rw [show (c.atWork ws os t k).clu.copy = some l from h]
    simp only [Chip.writeStation, Chip.writeRecord_atWork, Chip.write_atWork, List.append_assoc]
    rfl

/-- The writes of a draft before w2: the confirmation time where it is stamped, w3 where it has changed (R80). -/
def Chip.draftLog (sub : Nat) (d : TapDraft) (c : Chip) : List (Addr × Word) :=
  (if d.timed then [(c.recordAddr .subscribers sub 4, c.tbu.wall)] else []) ++ c.draftWrites sub d

@[simp] theorem Chip.writeDraft_atWork (sub : Nat) (d : TapDraft) (ws : List (Addr × Word)) (os : List Owed) (t : Toe)
    (k : Clu) (c : Chip) : (c.atWork ws os t k).writeDraft sub d = c.atWork (ws ++ c.draftLog sub d) os t k := by
  have hwall : (c.atWork ws os t k).tbu = c.tbu := rfl
  unfold Chip.writeDraft Chip.draftLog Chip.draftWrites
  cases d.timed <;> cases d.changed <;> simp [hwall]

/-- The write of a subscriber's w2 as the collections show it (R80). -/
def Chip.statusWrite (sub : Nat) (rest : OrderState) (used : BitVec 4) (y : TapStatus) (t : Toe) (c : Chip) : Addr × Word :=
  (c.recordAddr .subscribers sub 2, (t.shown sub rest used y).word)

@[simp] theorem Chip.writeCommit_atWork (sub : Nat) (rest : OrderState) (used : BitVec 4) (d : TapDraft)
    (ws : List (Addr × Word)) (os : List Owed) (t : Toe) (k : Clu) (c : Chip) :
    (c.atWork ws os t k).writeCommit sub rest used d =
      c.atWork (ws ++ [c.statusWrite sub rest used d.status t]) os t k :=
  c.write_atWork _ _ _ _ _ _

@[simp] theorem Chip.writeMoved_atWork (m : Memory) (sub : Nat) (ws : List (Addr × Word)) (os : List Owed) (t : Toe) (k : Clu)
    (c : Chip) : (c.atWork ws os t k).writeMoved m sub =
      c.atWork (ws ++ [c.statusWrite sub .idle 0 (c.tapDraft m sub).status t]) os t k :=
  c.write_atWork _ _ _ _ _ _

@[simp] theorem Chip.commitTap_atWork (sub : Nat) (rest : OrderState) (used : BitVec 4) (d : TapDraft)
    (ws : List (Addr × Word)) (os : List Owed) (t : Toe) (k : Clu) (c : Chip) :
    (c.atWork ws os t k).commitTap sub rest used d =
      c.atWork (ws ++ (c.draftLog sub d ++ [c.statusWrite sub rest used d.status t])) os t k := by
  simp [Chip.commitTap]

/-- The items of the charge log once a reservation is given up where `b` holds. -/
def Clu.released (k : Clu) (b : Bool) : Clu := { k with reserved := k.reserved - if b then 1 else 0 }

@[simp] theorem Chip.leaveFlight_atWork (sub : Nat) (b : Bool) (ws : List (Addr × Word)) (os : List Owed) (t : Toe) (k : Clu)
    (c : Chip) : (c.atWork ws os t k).leaveFlight sub b = c.atWork ws os (t.landed sub) (k.released b) := by
  cases b <;> rfl

@[simp] theorem Chip.rejoin_atWork (f : Flight) (d : TapDraft) (ws : List (Addr × Word)) (os : List Owed) (t : Toe) (k : Clu)
    (c : Chip) :
    Chip.rejoin f d (c.atWork ws os t k) = c.atWork ws os (t.rechecked f d.needsChange) k := by
  unfold Chip.rejoin Toe.rechecked
  cases f.recheck with
  | none => rfl
  | reassert => rfl
  | change => cases d.needsChange <;> rfl

/-! ### The grant of such a tenure -/

theorem Chip.atWork_markStatus (ws : List (Addr × Word)) (os : List Owed) (t : Toe) (k : Clu) (c : Chip) :
    c.markStatus.atWork ws os t k = (c.atWork ws os t k).markStatus := rfl

/-- Closing a grant never clears the mark of the status word. -/
theorem Chip.statusDirty_granted (c : Chip) (h : c.rpu.statusDirty = true) : c.closeGrant.present.rpu.statusDirty = true := by
  have hlow : c.findLow.rpu.statusDirty = true := by
    unfold Chip.findLow
    split
    · exact h
    · dsimp only
      split
      · exact h
      · rfl
  have htest : c.testLow.rpu.statusDirty = true := by
    unfold Chip.testLow
    split <;> exact hlow
  have hclose : c.closeGrant.rpu.statusDirty = true := by
    unfold Chip.closeGrant
    dsimp only
    split
    · split <;> exact htest
    · exact htest
  exact (c.closeGrant.same_present .statusMark (by decide)).trans hclose

/-- A tenure granted to a job whose body takes that form, over the part as the grant finds it or with the status word
marked: what runs, what is owed, the collections and the log's items. -/
theorem State.atWork_granted (s : State) (j : Job) (pick : Chip → Job → Bool) (body : Memory → Job → Chip → Chip)
    (base : Chip) (ws : List (Addr × Word)) (os : List Owed) (toe : Toe) (k : Clu) (h : s.chip.offers j = true)
    (hp : pick s.chip j = true) (hb : ∀ i, pick s.chip i = true → i.block = j.block)
    (hbase : base = s.chip.atGrant j ∨ base = (s.chip.atGrant j).markStatus)
    (hbody : body s.mem j (s.chip.atGrant j) = base.atWork ws os toe k) (hk : k.low = s.chip.clu.low) :
    ∃ t, s.tenure pick body = .next t ∧ State.granted [.toe, .clu] s t ∧ (k = s.chip.clu → State.granted [.toe] s t) ∧
      t.chip.runs j ws ∧ (∀ o ∈ os, t.chip.owes o) ∧ t.chip.toe = toe ∧
      { t.chip.clu with low := false } = { k with low := false } ∧
      (base = (s.chip.atGrant j).markStatus → t.chip.rpu.statusDirty = true) := by
  have hmark : Chip.Same [.statusMark] (s.chip.atGrant j) base := by
    rcases hbase with rfl | rfl
    · exact Chip.Same.refl _ _
    · exact Chip.same_markStatus _
  have hsame : Chip.Same [.tenure, .toe, .clu, .statusMark] (s.chip.atGrant j) (body s.mem j (s.chip.atGrant j)) := by
    rw [hbody]
    refine (hmark.mono (by decide)).then ((Chip.same_atWork _ _ _ _ _ (hk.trans ?_)).mono (by decide))
    rcases hbase with rfl | rfl <;> rfl
  obtain ⟨ht, hg⟩ := s.tenure_granted j pick body [.tenure, .toe, .clu, .statusMark] h hp hb hsame (by decide)
  have hrun : (body s.mem j (s.chip.atGrant j)).tau.running = some ⟨j, [] ++ ws, [] ++ os, s.chip.free⟩ := by
    rw [hbody]
    rcases hbase with rfl | rfl <;> rfl
  have hclosed : Chip.Same [.requests, .jobs, .tenure, .low, .statusMark] (body s.mem j (s.chip.atGrant j))
      (body s.mem j (s.chip.atGrant j)).closeGrant.present :=
    ((Chip.same_closeGrant _).mono (by decide)).then ((Chip.same_present _).mono (by decide))
  refine ⟨_, ht, ⟨hg.1, hg.2.1, hg.2.2.mono (by decide)⟩, fun hkeep => ⟨hg.1, hg.2.1, fun x hx => ?_⟩,
    Chip.runs_granted j ws _ _ hrun rfl rfl, fun o ho => Chip.owes_granted o _ _ hrun (by simpa using ho),
    (hclosed .toe (by decide)).trans (by rw [hbody]; rfl), (hclosed .clu (by decide)).trans (by rw [hbody]; rfl),
    fun hm => Chip.statusDirty_granted _ (by rw [hbody, hm]; rfl)⟩
  by_cases hclu : x = .clu
  · subst hclu
    refine (hclosed .clu (by decide)).trans ?_
    rw [hbody, ← hkeep]
    rfl
  · exact hg.2.2 x fun hmem => hx (by revert hmem hclu; cases x <;> decide)

end Sys2Proof.Machine
end

section
/-! The tenures of a record in flight, each body in one form: what taking a level, a gate and a waiting reply lays down, and
the reply tenure and the five endings made of them. -/

namespace Sys2Proof.Machine

/-! ### Confirmed values taken (R92, R93) -/

/-- The writes of the LEVEL record, where the tenure appends one. -/
def Chip.levelLog (sub : Nat) (reserved : Bool) (level result : BitVec 2) (d : TapDraft) (c : Chip) : List (Addr × Word) :=
  if c.appendsLevel d reserved level then c.logs c.clu (levelRecord c.stamp sub d.status.level level result) else []

/-- The items of the charge log after it. -/
def Chip.levelClu (sub : Nat) (reserved : Bool) (level result : BitVec 2) (d : TapDraft) (c : Chip) : Clu :=
  if c.appendsLevel d reserved level then c.clu.logged (levelRecord c.stamp sub d.status.level level result) reserved
  else c.clu

/-- The level can be taken: it is no change, the order holds a reservation, or a slot is free (R91). -/
def Chip.takes (d : TapDraft) (reserved : Bool) (level : BitVec 2) (c : Chip) : Bool :=
  decide (level = d.status.level) || reserved || decide (0 < c.free)

/-- A draft with these confirmed values taken. -/
def TapDraft.took (d : TapDraft) (level : BitVec 2) (gate : Bool) (s : Stamp) : TapDraft :=
  { d with
    status := { d.status with level := level, gate := gate, unset := s.unset, unlocked := s.unlocked }
    delivered := d.delivered || d.delivers gate
    timed := true
    changed := d.changed || d.delivers gate }

theorem Chip.takeLevel_eq (sub : Nat) (reserved : Bool) (level result : BitVec 2) (d : TapDraft) (c : Chip) :
    c.takeLevel sub reserved level result d =
      ⟨c.takes d reserved level, reserved && level == d.status.level,
        { d with status := { d.status with level := c.levelLeft d reserved level } },
        c.atWork (c.levelLog sub reserved level result d) [] c.toe (c.levelClu sub reserved level result d)⟩ := by
  have happend : ∀ (r : LogRecord) (b : Bool), c.append r b = c.atWork (c.logs c.clu r) [] c.toe (c.clu.logged r b) :=
    fun r b => by
      have h := Chip.append_atWork r b [] [] c.toe c.clu c
      rwa [c.atWork_nil] at h
  unfold Chip.takeLevel Chip.levelLog Chip.levelClu Chip.levelLeft Chip.appendsLevel Chip.takes
  by_cases hsame : level = d.status.level
  · simp [hsame, c.atWork_nil]
  · cases reserved with
    | true => simp [hsame, happend]
    | false => by_cases hfree : 0 < c.free <;> simp [hsame, hfree, happend, c.atWork_nil]

theorem Chip.takeGate_eq (gate : Bool) (d : TapDraft) (c : Chip) :
    c.takeGate gate d = ({ d with
      status := { d.status with gate := gate }
      delivered := d.delivered || d.delivers gate
      changed := d.changed || d.delivers gate },
      c.atWork [] [] c.toe (c.clu.released (d.delivers gate))) := by
  have hkeep := c.atWork_nil
  have hrelease : c.unreserve = c.atWork [] [] c.toe (c.clu.released true) := by
    conv_lhs => rw [← hkeep]
    rfl
  unfold Chip.takeGate
  show (if d.delivers gate = true then _ else _) = _
  cases d.delivers gate with
  | true => simp [hrelease]
  | false =>
    refine Prod.ext ?_ hkeep.symm
    simp

/-- What is taken of confirmed values. -/
theorem Chip.takeValues_eq (sub : Nat) (reserved : Bool) (level result : BitVec 2) (gate : Bool) (d : TapDraft) (c : Chip) :
    c.takeValues sub reserved level result gate d =
      ⟨c.takes d reserved level, reserved && level == d.status.level,
        d.took (c.levelLeft d reserved level) gate c.stamp,
        c.atWork (c.levelLog sub reserved level result d) [] c.toe
          ((c.levelClu sub reserved level result d).released (d.delivers gate))⟩ := by
  unfold Chip.takeValues
  dsimp only
  rw [c.takeLevel_eq, Chip.takeGate_eq]
  simp only [Chip.atWork_toe, Chip.atWork_atWork, List.append_nil]
  rfl

/-- The result code of a level taken from a reply (R92). -/
abbrev TapReport.resultFor (r : TapReport) (f : Flight) : BitVec 2 := if r.level = f.level then 1 else 3

theorem Chip.takeReply_none (f : Flight) (d : TapDraft) (c : Chip) (h : f.reply = none) :
    c.takeReply f d = ⟨true, f.levelReserved, d, c⟩ := by
  rw [Chip.takeReply, h]

/-- The draft with a reply's values taken. -/
def TapDraft.replied (d : TapDraft) (level : BitVec 2) (r : TapReport) (s : Stamp) : TapDraft :=
  { d.took level r.gate s with
    status := { (d.took level r.gate s).status with lowSignal := r.lowSignal } }

theorem Chip.takeReply_some (f : Flight) (r : TapReport) (d : TapDraft) (c : Chip) (h : f.reply = some r) :
    c.takeReply f d =
      ⟨c.takes d f.levelReserved r.level, f.levelReserved && r.level == d.status.level,
        d.replied (c.levelLeft d f.levelReserved r.level) r c.stamp,
        c.atWork (c.levelLog f.subscriber f.levelReserved r.level (r.resultFor f) d) [] c.toe
          ((c.levelClu f.subscriber f.levelReserved r.level (r.resultFor f) d).released (d.delivers r.gate))⟩ := by
  rw [Chip.takeReply, h]
  dsimp only
  rw [c.takeValues_eq]
  rfl

theorem Chip.levelClu_low (sub : Nat) (reserved : Bool) (level result : BitVec 2) (d : TapDraft) (c : Chip) :
    (c.levelClu sub reserved level result d).low = c.clu.low := by
  unfold Chip.levelClu
  split
  · exact Clu.logged_low _ _ _
  · rfl

/-- Taking a waiting reply, or none, lays down writes and releases reservations; the collections stay. -/
theorem Chip.exists_takeReply (f : Flight) (d : TapDraft) (c : Chip) : ∃ ws k, k.low = c.clu.low ∧
    (c.takeReply f d).chip = c.atWork ws [] c.toe k := by
  cases h : f.reply with
  | none =>
    refine ⟨[], c.clu, rfl, ?_⟩
    rw [c.takeReply_none f d h, c.atWork_nil]
  | some r =>
    rw [c.takeReply_some f r d h]
    refine ⟨_, _, ?_, rfl⟩
    exact c.levelClu_low ..

/-! ### The bodies -/

section
variable {m : Memory} {f : Flight} {c : Chip} {l : LevelTaken} {ws : List (Addr × Word)} {k : Clu}

/-- A record whose waiting reply has been taken (R92). -/
def Flight.answered (b : Bool) (f : Flight) : Flight := { f with reply := none, levelReserved := b }

/-- The reply tenure, by the reply taken (R92). -/
theorem Chip.replyBody_eq (hl : c.takeReply f (c.tapDraft m f.subscriber) = l) (hc : l.chip = c.atWork ws [] c.toe k) :
    c.replyBody m f =
      (let toe := c.toe.modifyFlight f.subscriber (Flight.answered l.reserved)
      c.atWork (ws ++ (c.draftLog f.subscriber l.draft ++ [c.statusWrite f.subscriber .idle 0 l.draft.status toe])) []
        toe k) := by
  unfold Chip.replyBody
  rw [hl]
  dsimp only
  rw [hc]
  simp only [Chip.atWork_withToe, Chip.atWork_toe, Chip.commitTap_atWork]
  rfl

/-- The demand of an order that fails is refunded: the order was to open the gate, and the demand is not delivered (R95). -/
def TapDraft.refundedBy (d : TapDraft) (f : Flight) : Bool := f.gate && d.demand != 0 && !d.delivered

/-- The draft of an order that has failed (R95). -/
def TapDraft.failedBy (d : TapDraft) (f : Flight) : TapDraft :=
  { d with
    status := { d.status with result := if f.anyReply then 5 else 4 }
    demand := if d.refundedBy f then 0 else d.demand
    changed := d.refundedBy f || d.changed }

/-- The REFUND record of an order that fails (R95). -/
def Chip.failRefund (sub : Nat) (d : TapDraft) (c : Chip) : LogRecord :=
  refundRecord c.stamp sub d.demand 2 (c.priceOf d.demand)

/-- Ending FAILED (R95). -/
theorem Chip.failBody_eq (hl : c.takeReply f (c.tapDraft m f.subscriber) = l) (hc : l.chip = c.atWork ws [] c.toe k) :
    c.failBody m f =
      (let d := l.draft.failedBy f
      let refund := c.failRefund f.subscriber l.draft
      let toe := (c.toe.landed f.subscriber).rechecked f d.needsChange
      c.atWork (ws ++ (if l.draft.refundedBy f then c.logs k refund else []) ++
          (c.draftLog f.subscriber d ++ [c.statusWrite f.subscriber .failed (BitVec.ofNat 4 f.sent) d.status toe]))
        [.cause .tapFailed, .tapFailure] toe
        ((if l.draft.refundedBy f then k.logged refund true else k).released l.reserved)) := by
  unfold Chip.failBody
  rw [hl]
  dsimp only
  rw [show (f.gate && l.draft.demand != 0 && !l.draft.delivered) = l.draft.refundedBy f from rfl, hc]
  cases hr : l.draft.refundedBy f with
  | true =>
    simp only [if_true, Chip.append_atWork, Chip.leaveFlight_atWork, Chip.rejoin_atWork, Chip.commitTap_atWork,
      Chip.owe_atWork]
    simp [TapDraft.failedBy, hr, Chip.failRefund]
  | false =>
    simp only [Bool.false_eq_true, if_false, Chip.leaveFlight_atWork, Chip.rejoin_atWork, Chip.commitTap_atWork,
      Chip.owe_atWork, List.append_nil]
    simp [TapDraft.failedBy, hr]

/-- Ending HELD (R96). -/
theorem Chip.heldBody_eq (hl : c.takeReply f (c.tapDraft m f.subscriber) = l) (hc : l.chip = c.atWork ws [] c.toe k) :
    c.heldBody m f =
      (let toe := { c.toe.landed f.subscriber with held := insertNat f.subscriber (c.toe.landed f.subscriber).held }
      c.atWork (ws ++ (c.draftLog f.subscriber l.draft ++ [c.statusWrite f.subscriber .idle 0 l.draft.status toe])) []
        toe (k.released l.reserved)) := by
  unfold Chip.heldBody
  rw [hl]
  dsimp only
  rw [hc]
  simp only [Chip.atWork_withToe, Chip.atWork_toe, Chip.leaveFlight_atWork, Chip.commitTap_atWork]

/-- The w2 of the tail entry that a return to a full queue puts into the deferred set (R97). -/
def Chip.displacedWrite (m : Memory) (before after : Toe) (c : Chip) : List (Addr × Word) :=
  match before.displaced with
  | none => []
  | some other => [c.statusWrite other .idle 0 (c.tapDraft m other).status after]

/-- The entry with which an order returns to the queue (R97). -/
abbrev Flight.returnEntry (f : Flight) : QueueEntry := ⟨f.subscriber, decide (f.recheck = Recheck.reassert), f.sent⟩

/-- Ending RETURNED (R97). -/
theorem Chip.returnedBody_eq (hl : c.takeReply f (c.tapDraft m f.subscriber) = l) (hc : l.chip = c.atWork ws [] c.toe k) :
    c.returnedBody m f =
      (let toe := (c.toe.landed f.subscriber).joinHead f.returnEntry
      c.atWork (ws ++ c.draftLog f.subscriber l.draft ++ c.displacedWrite m (c.toe.landed f.subscriber) toe ++
          [c.statusWrite f.subscriber .idle 0 l.draft.status toe]) []
        toe (k.released l.reserved)) := by
  unfold Chip.returnedBody Chip.displacedWrite
  rw [hl]
  dsimp only
  rw [hc]
  simp only [Chip.atWork_toe, Chip.leaveFlight_atWork, Chip.atWork_withToe, Chip.writeDraft_atWork]
  cases (c.toe.landed f.subscriber).displaced with
  | none => simp
  | some other => simp

/-- The completion of an order (R99). -/
theorem Chip.finishOrder_eq (result : BitVec 3) (os : List Owed) (t : Toe) (hc : l.chip = c.atWork ws os t k) :
    Chip.finishOrder f result l =
      (let d : TapDraft := { l.draft with status := { l.draft.status with result := result } }
      let toe := (t.landed f.subscriber).rechecked f l.draft.needsChange
      c.atWork (ws ++ (c.draftLog f.subscriber d ++
          [c.statusWrite f.subscriber .idle (BitVec.ofNat 4 f.sent) d.status toe])) os
        toe (k.released l.reserved)) := by
  unfold Chip.finishOrder
  dsimp only
  rw [hc]
  simp only [Chip.leaveFlight_atWork, Chip.rejoin_atWork, Chip.commitTap_atWork]
  rfl

/-- Ending CONFIRMED where the level is taken (R99). -/
theorem Chip.confirmedBody_taken (hl : c.takeReply f (c.tapDraft m f.subscriber) = l) (ht : l.taken = true) :
    c.confirmedBody m f = Chip.finishOrder f 1 l := by
  unfold Chip.confirmedBody
  rw [hl]
  exact if_pos ht

/-- A record whose ending is withdrawn (R91). -/
def Flight.withdrawn (b : Bool) (f : Flight) : Flight := { f with reply := none, ending := none, levelReserved := b }

/-- Ending CONFIRMED withdrawn (R91). -/
theorem Chip.confirmedBody_withdrawn (hl : c.takeReply f (c.tapDraft m f.subscriber) = l)
    (hc : l.chip = c.atWork ws [] c.toe k) (ht : l.taken = false) :
    c.confirmedBody m f =
      (let toe := c.toe.modifyFlight f.subscriber (Flight.withdrawn l.reserved)
      c.atWork (ws ++ (c.draftLog f.subscriber l.draft ++ [c.statusWrite f.subscriber .idle 0 l.draft.status toe]))
        [.redeadline f.subscriber] toe k) := by
  unfold Chip.confirmedBody
  rw [hl]
  dsimp only
  rw [if_neg (by simp [ht]), hc]
  simp only [Chip.atWork_withToe, Chip.atWork_toe, Chip.commitTap_atWork, Chip.owe_atWork, List.nil_append]
  rfl

/-- Ending UNCONFIRMED (R98, R99): the ordered values are taken after those of a waiting reply. -/
theorem Chip.unconfirmedBody_eq (hl : c.takeReply f (c.tapDraft m f.subscriber) = l) :
    c.unconfirmedBody m f = Chip.finishOrder f 2
      (l.chip.takeValues f.subscriber l.reserved f.level 2 f.gate l.draft) := by
  unfold Chip.unconfirmedBody
  rw [hl]

end

end Sys2Proof.Machine
end

section
/-! The tenure of a record in flight, granted, and the reply tenure (O36). -/

namespace Sys2Proof.Machine

/-! ### The tenure of a record in flight -/

theorem Toe.flight_subscriber {t : Toe} {sub : Nat} {f : Flight} (h : t.flight sub = some f) : f.subscriber = sub := by
  simpa using List.find?_some h

/-- A subscriber whose record is in flight is shown IN_FLIGHT with the attempts sent (R80). -/
theorem Toe.whereIs_of_flight {t : Toe} {sub : Nat} {f : Flight} (h : t.flight sub = some f) :
    t.whereIs sub = some .inFlight := by
  have hany : (t.flights.any fun f => decide (f.subscriber = sub)) = true :=
    List.any_eq_true.2 ⟨f, List.mem_of_find?_eq_some h, decide_eq_true (Toe.flight_subscriber h)⟩
  exact if_pos hany

theorem Toe.attemptsUsed_of_flight {t : Toe} {sub : Nat} {f : Flight} (h : t.flight sub = some f) (rest : BitVec 4) :
    t.attemptsUsed sub rest = BitVec.ofNat 4 f.sent := by
  rw [Toe.attemptsUsed, h]

/-- A tenure of a record in flight has been granted, its w2 the last of its writes: what it leaves. -/
structure State.LinkLeaves (s t : State) (sub : Nat) (pre : List (Addr × Word)) (rest : OrderState) (used : BitVec 4)
    (y : TapStatus) (toe : Toe) (k : Clu) : Prop where
  granted : State.granted [.toe, .clu] s t
  runs : t.chip.runs (.tapLink sub)
    (pre ++ [(s.chip.recordAddr .subscribers sub 2, (t.chip.toe.shown sub rest used y).word)])
  toe : t.chip.toe = toe
  copy : t.chip.clu.copy = k.copy
  reserved : t.chip.clu.reserved = k.reserved

/-- The tenure of a record in flight, granted: its writes with w2 last, what it owes, and what it leaves. -/
theorem State.link_granted (s : State) (sub : Nat) (f : Flight) (pre : List (Addr × Word)) (os : List Owed)
    (rest : OrderState) (used : BitVec 4) (y : TapStatus) (toe : Toe) (k : Clu) (h : s.chip.offers (.tapLink sub) = true)
    (hf : s.chip.toe.flight sub = some f)
    (hbody : (s.chip.atGrant (.tapLink sub)).tapLinkBody s.mem sub = (s.chip.atGrant (.tapLink sub)).atWork
      (pre ++ [s.chip.statusWrite sub rest used y toe]) os toe k) (hk : k.low = s.chip.clu.low) :
    ∃ t, s.tenure (Chip.linkPick f.ending) Chip.linkBody = .next t ∧ s.LinkLeaves t sub pre rest used y toe k ∧
      ∀ o ∈ os, t.chip.owes o := by
  have hpick : Chip.linkPick f.ending s.chip (.tapLink sub) = true := by simp [Chip.linkPick, hf]
  have hblock : ∀ i, Chip.linkPick f.ending s.chip i = true → i.block = (Job.tapLink sub).block := by
    intro i hi
    cases i <;> first | rfl | cases hi
  obtain ⟨t, ht, hg, -, hrun, howes, htoe, hclu, -⟩ := s.atWork_granted (.tapLink sub) _ Chip.linkBody _ _ os toe k h hpick
    hblock (Or.inl rfl) hbody hk
  exact ⟨t, ht, ⟨hg, htoe ▸ hrun, htoe, (Clu.mk.inj hclu).1, (Clu.mk.inj hclu).2.1⟩, howes⟩

/-- What such a tenure decides, by the ending of the record. -/
theorem Chip.tapLinkBody_eq {m : Memory} {sub : Nat} {f : Flight} {c : Chip} (hf : c.toe.flight sub = some f) :
    (f.ending = none → c.tapLinkBody m sub = c.replyBody m f) ∧
    (f.ending = some .failed → c.tapLinkBody m sub = c.failBody m f) ∧
    (f.ending = some .held → c.tapLinkBody m sub = c.heldBody m f) ∧
    (f.ending = some .returned → c.tapLinkBody m sub = c.returnedBody m f) ∧
    (f.ending = some .unconfirmed → c.tapLinkBody m sub = c.unconfirmedBody m f) ∧
    (f.ending = some .confirmed → c.tapLinkBody m sub = c.confirmedBody m f) := by
  refine ⟨?_, ?_, ?_, ?_, ?_, ?_⟩ <;> (intro he; simp only [Chip.tapLinkBody, hf, he])

/-- The level that is left is the one reported where it can be taken (R92). -/
theorem Chip.levelLeft_eq (d : TapDraft) (reserved : Bool) (level : BitVec 2) (c : Chip) :
    c.levelLeft d reserved level =
      if level = d.status.level ∨ reserved = true ∨ 0 < c.free then level else d.status.level := by
  unfold Chip.levelLeft Chip.appendsLevel
  by_cases hsame : level = d.status.level
  · simp [hsame]
  · simp [hsame]

/-- The writes of confirmed values taken, where the log copy is loaded. -/
theorem Chip.valueLog_eq {l : LogCopy} {c : Chip} (hl : c.clu.copy = some l) (sub : Nat) (reserved : Bool)
    (level result : BitVec 2) (d : TapDraft) :
    c.levelLog sub reserved level result d = (c.levelWrites l sub d reserved level result).1 := by
  unfold Chip.levelLog Chip.levelWrites
  rw [Chip.logs_some hl]
  split <;> rfl

/-- The items of the charge log after it: the copy, and the reservation that the order held, where the level changes. -/
theorem Chip.levelClu_eq {l : LogCopy} {c : Chip} (hl : c.clu.copy = some l) (sub : Nat) (reserved : Bool)
    (level result : BitVec 2) (d : TapDraft) :
    c.levelClu sub reserved level result d = { c.clu with
      copy := some (c.levelWrites l sub d reserved level result).2
      reserved := c.clu.reserved - if reserved = true ∧ level ≠ d.status.level then 1 else 0 } := by
  unfold Chip.levelClu Chip.levelWrites
  rw [Clu.logged_some hl]
  unfold Chip.appendsLevel
  by_cases hsame : level = d.status.level
  · simp [hsame, ← hl]
  · cases reserved with
    | true => simp [hsame]
    | false => by_cases hfree : 0 < c.free <;> simp [hsame, hfree, ← hl]

/-- The writes before w2 of a draft that is stamped: the confirmation time, and w3 where the demand is delivered. -/
theorem Chip.draftLog_stamped (sub : Nat) (e : TapDraft) (given : Bool) (c : Chip) (ht : e.timed = true)
    (hc : e.changed = given) (hd : given = true → e.delivered = true) :
    c.draftLog sub e = (c.recordAddr .subscribers sub 4, c.tbu.wall) ::
      (if given then [(c.recordAddr .subscribers sub 3, subW3 e.demand true)] else []) := by
  unfold Chip.draftLog Chip.draftWrites
  rw [ht, hc]
  cases given with
  | true => simp [hd rfl]
  | false => rfl

/-! ### The reply tenure -/

/-- A reply tenure over the draft that memory holds: what it lays down, and the record that it leaves. -/
theorem State.reply_granted (s : State) (sub : Nat) (f : Flight) (r : TapReport) (h : s.chip.offers (.tapLink sub) = true)
    (hf : s.chip.toe.flight sub = some f) (he : f.ending = none) (hr : f.reply = some r) :
    (let d := s.chip.tapDraft s.mem sub
    let f' := { f with reply := none, levelReserved := f.levelReserved && r.level == d.status.level }
    ∃ t, exec .replyTenure s = .next t ∧ State.granted [.toe, .clu] s t ∧ t.chip.toe.flight sub = some f' ∧
      t.chip.runs (.tapLink sub) (s.chip.levelLog sub f.levelReserved r.level (r.resultFor f) d ++
          (s.chip.recordAddr .subscribers sub 4, s.chip.tbu.wall) ::
            (if d.delivers r.gate then [(s.chip.recordAddr .subscribers sub 3, subW3 d.demand true)] else []) ++
        [(s.chip.recordAddr .subscribers sub 2, (t.chip.toe.shown sub .idle 0
          (d.replied (s.chip.levelLeft d f.levelReserved r.level) r s.chip.stamp).status).word)]) ∧
      t.chip.clu.copy = (s.chip.levelClu sub f.levelReserved r.level (r.resultFor f) d).copy ∧
      t.chip.clu.reserved = (s.chip.levelClu sub f.levelReserved r.level (r.resultFor f) d).reserved -
        if d.delivers r.gate then 1 else 0) := by
  obtain rfl := Toe.flight_subscriber hf
  have htake := (s.chip.atGrant (.tapLink f.subscriber)).takeReply_some f r
    ((s.chip.atGrant (.tapLink f.subscriber)).tapDraft s.mem f.subscriber) hr
  have hbody := Chip.replyBody_eq htake rfl
  have hlink : ∀ c : Chip, c.toe.flight f.subscriber = some f → c.tapLinkBody s.mem f.subscriber = c.replyBody s.mem f :=
    fun c hc => (Chip.tapLinkBody_eq hc).1 he
  dsimp only at hbody
  rw [← List.append_assoc] at hbody
  obtain ⟨t, ht, ⟨hg, hrun, htoe, hcopy, hreserved⟩, -⟩ := s.link_granted f.subscriber f _ _ _ _ _ _ _ h hf
    ((hlink (s.chip.atGrant _) hf).trans hbody) (Chip.levelClu_low ..)
  rw [he] at ht
  refine ⟨t, ht, hg, ?_, ?_, hcopy, hreserved⟩
  · rw [htoe]
    exact Toe.flight_modifyFlight_same (Flight.answered _) hf fun _ => rfl
  · have hmid := Chip.draftLog_stamped f.subscriber ((s.chip.tapDraft s.mem f.subscriber).replied
      (s.chip.levelLeft (s.chip.tapDraft s.mem f.subscriber) f.levelReserved r.level) r s.chip.stamp)
      ((s.chip.tapDraft s.mem f.subscriber).delivers r.gate) (s.chip.atGrant (.tapLink f.subscriber)) rfl rfl
      fun hd => by simp [TapDraft.replied, TapDraft.took, hd]
    refine (congrArg (t.chip.runs (.tapLink f.subscriber)) ?_).mp hrun
    exact congrArg (fun x => _ ++ x ++ _) hmid

/-- Settles O36: the writes of the reply taken, in their order, and the record in flight without it. -/
theorem replyTenureWritesTheReport : Obligations.ReplyTenureWritesTheReport := by
  unfold Obligations.ReplyTenureWritesTheReport
  intro s sub f r h hf he hr
  obtain ⟨t, ht, hg, hflight, hrun, hcopy, hreserved⟩ := s.reply_granted sub f r h hf he hr
  obtain ⟨hlevel, hgate, hresult, hlow, hunset, hunlocked, hattempts, horder⟩ := t.chip.toe.shown_word sub .idle 0
    ((s.chip.tapDraft s.mem sub).replied (s.chip.levelLeft (s.chip.tapDraft s.mem sub) f.levelReserved r.level) r
      s.chip.stamp).status
  rw [Toe.whereIs_of_flight hflight] at horder
  rw [Toe.attemptsUsed_of_flight hflight] at hattempts
  refine ⟨t, _, _, _, ht, hg, hrun, by simp, hflight, rfl, he, hgate, hlow, horder,
    hlevel.trans (s.chip.levelLeft_eq _ _ _), hresult, hattempts, hunset, hunlocked, rfl, fun l hl => ⟨?_, ?_, ?_⟩⟩
  · rw [s.chip.valueLog_eq hl]
    rfl
  · rw [hreserved, s.chip.levelClu_eq hl]
  · rw [hcopy, s.chip.levelClu_eq hl]
    dsimp only
    unfold Chip.levelWrites
    split <;> rfl

end Sys2Proof.Machine
end

section
/-! The tenures of the five endings, by the reply that each takes first, and what they leave in any case (O37). -/

namespace Sys2Proof.Machine

/-! ### The reply taken first -/

/-- The tenure of a record in flight takes its waiting reply, or none, at its grant: what is taken, the writes that this
lays down, and the items of the charge log. -/
structure State.Takes (s : State) (sub : Nat) (f : Flight) (l : LevelTaken) (ws : List (Addr × Word)) (k : Clu) : Prop where
  offers : s.chip.offers (.tapLink sub) = true
  flight : s.chip.toe.flight sub = some f
  takes : (s.chip.atGrant (.tapLink sub)).takeReply f (s.chip.tapDraft s.mem sub) = l
  chip : l.chip = (s.chip.atGrant (.tapLink sub)).atWork ws [] s.chip.toe k
  low : k.low = s.chip.clu.low

section
variable {s : State} {sub : Nat} {f : Flight} {l : LevelTaken} {ws : List (Addr × Word)} {k : Clu}

theorem State.exists_takes (h : s.chip.offers (.tapLink sub) = true) (hf : s.chip.toe.flight sub = some f) :
    ∃ l ws k, s.Takes sub f l ws k := by
  obtain ⟨ws, k, hk, hc⟩ := (s.chip.atGrant (.tapLink sub)).exists_takeReply f (s.chip.tapDraft s.mem sub)
  exact ⟨_, ws, k, h, hf, rfl, hc, hk⟩

theorem State.takes_none (h : s.chip.offers (.tapLink sub) = true) (hf : s.chip.toe.flight sub = some f)
    (hr : f.reply = none) : s.Takes sub f
      ⟨true, f.levelReserved, s.chip.tapDraft s.mem sub, s.chip.atGrant (.tapLink sub)⟩ [] s.chip.clu :=
  ⟨h, hf, Chip.takeReply_none f _ _ hr, (Chip.atWork_nil _).symm, rfl⟩

theorem State.takes_some {r : TapReport} (h : s.chip.offers (.tapLink sub) = true)
    (hf : s.chip.toe.flight sub = some f) (hr : f.reply = some r) :
    (let d := s.chip.tapDraft s.mem sub
    let ws := s.chip.levelLog sub f.levelReserved r.level (r.resultFor f) d
    let k := (s.chip.levelClu sub f.levelReserved r.level (r.resultFor f) d).released (d.delivers r.gate)
    s.Takes sub f
      ⟨s.chip.takes d f.levelReserved r.level, f.levelReserved && r.level == d.status.level,
        d.replied (s.chip.levelLeft d f.levelReserved r.level) r s.chip.stamp,
        (s.chip.atGrant (.tapLink sub)).atWork ws [] s.chip.toe k⟩ ws k) := by
  obtain rfl := Toe.flight_subscriber hf
  exact ⟨h, hf, Chip.takeReply_some f r _ _ hr, rfl, Chip.levelClu_low ..⟩

/-! ### The endings -/

theorem State.Takes.failed (h : s.Takes sub f l ws k) (he : f.ending = some .failed) :
    (let d := l.draft.failedBy f
    let refund := s.chip.failRefund sub l.draft
    ∃ t, exec .endingFailed s = .next t ∧ s.LinkLeaves t sub
        (ws ++ (if l.draft.refundedBy f then s.chip.logs k refund else []) ++ s.chip.draftLog sub d) .failed
        (BitVec.ofNat 4 f.sent) d.status ((s.chip.toe.landed sub).rechecked f d.needsChange)
        ((if l.draft.refundedBy f then k.logged refund true else k).released l.reserved) ∧
      t.chip.owes (.cause .tapFailed) ∧ t.chip.owes .tapFailure) := by
  obtain rfl := Toe.flight_subscriber h.flight
  have hbody := Chip.failBody_eq h.takes h.chip
  dsimp only at hbody
  rw [← List.append_assoc] at hbody
  obtain ⟨-, hfail, -⟩ := Chip.tapLinkBody_eq (m := s.mem) (c := s.chip.atGrant (.tapLink f.subscriber)) h.flight
  have hlow : ((if l.draft.refundedBy f then k.logged (s.chip.failRefund f.subscriber l.draft) true else k).released
      l.reserved).low = s.chip.clu.low := by
    rw [← h.low]
    unfold Clu.released
    split
    · exact Clu.logged_low _ _ _
    · rfl
  obtain ⟨t, ht, hl, howes⟩ := s.link_granted f.subscriber f _ _ _ _ _ _ _ h.offers h.flight ((hfail he).trans hbody) hlow
  rw [he] at ht
  exact ⟨t, ht, hl, howes _ (by simp), howes _ (by simp)⟩

theorem State.Takes.held (h : s.Takes sub f l ws k) (he : f.ending = some .held) :
    ∃ t, exec .endingHeld s = .next t ∧ s.LinkLeaves t sub (ws ++ s.chip.draftLog sub l.draft) .idle 0 l.draft.status
      { s.chip.toe.landed sub with held := insertNat sub (s.chip.toe.landed sub).held } (k.released l.reserved) := by
  obtain rfl := Toe.flight_subscriber h.flight
  have hbody := Chip.heldBody_eq h.takes h.chip
  dsimp only at hbody
  rw [← List.append_assoc] at hbody
  obtain ⟨-, -, hheld, -⟩ := Chip.tapLinkBody_eq (m := s.mem) (c := s.chip.atGrant (.tapLink f.subscriber)) h.flight
  obtain ⟨t, ht, hl, -⟩ := s.link_granted f.subscriber f _ _ _ _ _ _ _ h.offers h.flight ((hheld he).trans hbody) h.low
  rw [he] at ht
  exact ⟨t, ht, hl⟩

theorem State.Takes.returned (h : s.Takes sub f l ws k) (he : f.ending = some .returned) :
    (let toe := (s.chip.toe.landed sub).joinHead f.returnEntry
    ∃ t, exec .endingReturned s = .next t ∧ s.LinkLeaves t sub
      (ws ++ s.chip.draftLog sub l.draft ++ s.chip.displacedWrite s.mem (s.chip.toe.landed sub) toe) .idle 0
      l.draft.status toe (k.released l.reserved)) := by
  obtain rfl := Toe.flight_subscriber h.flight
  obtain ⟨-, -, -, hreturned, -⟩ := Chip.tapLinkBody_eq (m := s.mem) (c := s.chip.atGrant (.tapLink f.subscriber)) h.flight
  obtain ⟨t, ht, hl, -⟩ := s.link_granted f.subscriber f _ _ _ _ _ _ _ h.offers h.flight
    ((hreturned he).trans (Chip.returnedBody_eq h.takes h.chip)) h.low
  rw [he] at ht
  exact ⟨t, ht, hl⟩

/-- An order completed: with its result, over the values taken. -/
theorem State.finished_granted {e : Ending} {result : BitVec 3} (h : s.chip.offers (.tapLink sub) = true)
    (hf : s.chip.toe.flight sub = some f) (he : f.ending = some e)
    (hbody : (s.chip.atGrant (.tapLink sub)).tapLinkBody s.mem sub = Chip.finishOrder f result l)
    (hc : l.chip = (s.chip.atGrant (.tapLink sub)).atWork ws [] s.chip.toe k) (hk : k.low = s.chip.clu.low) :
    (let d : TapDraft := { l.draft with status := { l.draft.status with result := result } }
    ∃ t, s.tenure (Chip.linkPick (some e)) Chip.linkBody = .next t ∧ s.LinkLeaves t sub (ws ++ s.chip.draftLog sub d) .idle
      (BitVec.ofNat 4 f.sent) d.status ((s.chip.toe.landed sub).rechecked f l.draft.needsChange)
      (k.released l.reserved)) := by
  obtain rfl := Toe.flight_subscriber hf
  have hfinish := Chip.finishOrder_eq (f := f) result [] s.chip.toe hc
  dsimp only at hfinish
  rw [← List.append_assoc] at hfinish
  obtain ⟨t, ht, hl, -⟩ := s.link_granted f.subscriber f _ _ _ _ _ _ _ h hf (hbody.trans hfinish) hk
  rw [he] at ht
  exact ⟨t, ht, hl⟩

theorem State.Takes.confirmed (h : s.Takes sub f l ws k) (he : f.ending = some .confirmed) (ht : l.taken = true) :
    (let d : TapDraft := { l.draft with status := { l.draft.status with result := 1 } }
    ∃ t, exec .endingConfirmed s = .next t ∧ s.LinkLeaves t sub (ws ++ s.chip.draftLog sub d) .idle
      (BitVec.ofNat 4 f.sent) d.status ((s.chip.toe.landed sub).rechecked f l.draft.needsChange)
      (k.released l.reserved)) := by
  obtain rfl := Toe.flight_subscriber h.flight
  obtain ⟨-, -, -, -, -, hbody⟩ := Chip.tapLinkBody_eq (m := s.mem) (c := s.chip.atGrant (.tapLink f.subscriber)) h.flight
  exact State.finished_granted h.offers h.flight he ((hbody he).trans (Chip.confirmedBody_taken h.takes ht)) h.chip h.low

theorem State.Takes.withdrawn (h : s.Takes sub f l ws k) (he : f.ending = some .confirmed) (ht : l.taken = false) :
    ∃ t, exec .endingConfirmed s = .next t ∧ s.LinkLeaves t sub (ws ++ s.chip.draftLog sub l.draft) .idle 0 l.draft.status
      (s.chip.toe.modifyFlight sub (Flight.withdrawn l.reserved)) k ∧ t.chip.owes (.redeadline sub) := by
  obtain rfl := Toe.flight_subscriber h.flight
  have hwithdrawn := Chip.confirmedBody_withdrawn h.takes h.chip ht
  dsimp only at hwithdrawn
  rw [← List.append_assoc] at hwithdrawn
  obtain ⟨-, -, -, -, -, hbody⟩ := Chip.tapLinkBody_eq (m := s.mem) (c := s.chip.atGrant (.tapLink f.subscriber)) h.flight
  obtain ⟨t, ht', hl, howes⟩ := s.link_granted f.subscriber f _ _ _ _ _ _ _ h.offers h.flight
    ((hbody he).trans hwithdrawn) h.low
  rw [he] at ht'
  exact ⟨t, ht', hl, howes _ (by simp)⟩

/-- The ordered values are taken after those of a waiting reply (R98). -/
theorem State.Takes.unconfirmed (h : s.Takes sub f l ws k) (he : f.ending = some .unconfirmed) :
    (let v := l.chip.takeValues sub l.reserved f.level 2 f.gate l.draft
    let d : TapDraft := { v.draft with status := { v.draft.status with result := 2 } }
    ∃ t, exec .endingUnconfirmed s = .next t ∧ s.LinkLeaves t sub
      (ws ++ l.chip.levelLog sub l.reserved f.level 2 l.draft ++ s.chip.draftLog sub d) .idle
      (BitVec.ofNat 4 f.sent) d.status ((s.chip.toe.landed sub).rechecked f v.draft.needsChange)
      (((l.chip.levelClu sub l.reserved f.level 2 l.draft).released (l.draft.delivers f.gate)).released v.reserved)) := by
  obtain rfl := Toe.flight_subscriber h.flight
  obtain ⟨-, -, -, -, hbody, -⟩ := Chip.tapLinkBody_eq (m := s.mem) (c := s.chip.atGrant (.tapLink f.subscriber)) h.flight
  refine State.finished_granted h.offers h.flight he ((hbody he).trans (Chip.unconfirmedBody_eq h.takes)) ?_ ?_
  · rw [l.chip.takeValues_eq]
    dsimp only
    rw [h.chip]
    exact Chip.atWork_atWork ..
  · exact (Chip.levelClu_low ..).trans (by rw [h.chip]; exact h.low)

end

/-! ### The collections after an ending -/

@[simp] theorem Toe.tailed_flights (t : Toe) (sub : Nat) (b : Bool) : (t.tailed sub b).flights = t.flights := by
  unfold Toe.tailed
  split <;> rfl

@[simp] theorem Toe.rechecked_flights (t : Toe) (f : Flight) (needed : Bool) :
    (t.rechecked f needed).flights = t.flights := by
  unfold Toe.rechecked
  cases f.recheck with
  | none => rfl
  | reassert => exact t.tailed_flights _ _
  | change =>
    cases needed with
    | true => exact t.tailed_flights _ _
    | false => rfl

@[simp] theorem Toe.joinHead_flights (t : Toe) (q : QueueEntry) : (t.joinHead q).flights = t.flights := by
  unfold Toe.joinHead
  split
  · rfl
  · split <;> rfl

/-- A subscriber that has landed is not in flight. -/
theorem Toe.landed_flights (t : Toe) (sub : Nat) : ∀ x ∈ (t.landed sub).flights, x.subscriber ≠ sub := by
  simp [Toe.landed]

/-- An order that returns to a queue with room stands at its head (R97). -/
theorem Toe.joinHead_room (t : Toe) (q : QueueEntry) (h : t.queue.length < 64) :
    t.joinHead q = { t with queue := q :: t.queue } := if_pos h

/-- A full queue gives its tail entry to the deferred set (R97). -/
theorem Toe.joinHead_full (t : Toe) (q last : QueueEntry) (h : 64 ≤ t.queue.length) (hl : t.queue.getLast? = some last) :
    t.joinHead q = { t with
      queue := q :: t.queue.dropLast, deferred := t.deferred ++ [⟨last.subscriber, last.reassert⟩] } := by
  have hfull : ¬t.queue.length < Config.tapQueueLimit := Nat.not_lt.2 h
  rw [Toe.joinHead, if_neg hfull, hl]

theorem Toe.joinHead_mem (t : Toe) (q : QueueEntry) : q ∈ (t.joinHead q).queue := by
  unfold Toe.joinHead
  split
  · exact List.mem_cons_self
  · split <;> exact List.mem_cons_self

theorem mem_insertNat (n : Nat) (l : List Nat) : n ∈ insertNat n l := by
  induction l with
  | nil => exact List.mem_singleton.2 rfl
  | cons k l ih =>
    unfold insertNat
    split
    · exact List.mem_cons_self
    · split
      · exact List.mem_cons.2 (Or.inl ‹_›)
      · exact List.mem_cons_of_mem _ ih

/-- The attempts used of a subscriber in the queue or the held set are those of its collection (R80). -/
theorem Toe.attemptsUsed_of_queue {t : Toe} {sub : Nat} {q : QueueEntry} (hq : q ∈ t.queue) (hs : q.subscriber = sub)
    (a b : BitVec 4) : t.attemptsUsed sub a = t.attemptsUsed sub b := by
  have hfind : t.queue.find? (fun q => q.subscriber = sub) ≠ none := fun h =>
    absurd (List.find?_eq_none.1 h q hq) (by simpa using hs)
  unfold Toe.attemptsUsed
  cases t.flight sub with
  | some f => rfl
  | none =>
    cases hf : t.queue.find? (fun q => q.subscriber = sub) with
    | none => exact absurd hf hfind
    | some q => rfl

theorem Toe.attemptsUsed_of_held {t : Toe} {sub : Nat} (h : sub ∈ t.held) (a b : BitVec 4) :
    t.attemptsUsed sub a = t.attemptsUsed sub b := by
  unfold Toe.attemptsUsed
  cases t.flight sub with
  | some f => rfl
  | none =>
    cases t.queue.find? (fun q => q.subscriber = sub) with
    | none => dsimp only; rw [if_pos (Or.inl h), if_pos (Or.inl h)]
    | some q => rfl

/-! ### The statement -/

/-- The level of a waiting reply that cannot be taken: it changes the confirmed one, without a reservation or space (R91). -/
theorem State.Takes.not_taken {s : State} {sub : Nat} {f : Flight} {r : TapReport}
    (h : s.chip.offers (.tapLink sub) = true) (hf : s.chip.toe.flight sub = some f) (hr : f.reply = some r)
    (hv : f.levelReserved = false) (hl : r.level ≠ (s.chip.tapDraft s.mem sub).status.level) (hfree : s.chip.free = 0) :
    ∃ l ws k, s.Takes sub f l ws k ∧ l.taken = false := by
  refine ⟨_, _, _, State.takes_some h hf hr, ?_⟩
  simp [Chip.takes, hv, hl, hfree]

/-- At CONFIRMED with no reply waiting, or with a reservation held, the level can be taken (R91). -/
theorem State.exists_takes_taken {s : State} {sub : Nat} {f : Flight} (h : s.chip.offers (.tapLink sub) = true)
    (hf : s.chip.toe.flight sub = some f) (hr : f.reply = none ∨ f.levelReserved = true) :
    ∃ l ws k, s.Takes sub f l ws k ∧ l.taken = true := by
  cases hreply : f.reply with
  | none => exact ⟨_, _, _, State.takes_none h hf hreply, rfl⟩
  | some r =>
    refine ⟨_, _, _, State.takes_some h hf hreply, ?_⟩
    have hv : f.levelReserved = true := hr.resolve_left (by simp [hreply])
    simp [Chip.takes, hv]

/-- Settles O37: each ending takes the record out of flight, and a confirmation whose level cannot be taken keeps it. -/
theorem endingTenures : Obligations.EndingTenures := by
  unfold Obligations.EndingTenures
  constructor
  · intro s sub f i e h hf he hi
    obtain ⟨l, ws, k, hl⟩ := State.exists_takes h hf
    have hland := s.chip.toe.landed_flights sub
    rcases hi with ⟨rfl, rfl⟩ | ⟨rfl, rfl⟩ | ⟨rfl, rfl⟩ | ⟨rfl, rfl⟩ | ⟨rfl, rfl, hr⟩
    · obtain ⟨t, ht, hx, hcause, hcount⟩ := hl.failed he
      obtain ⟨-, -, hresult, -, -, -, hattempts, -⟩ := t.chip.toe.shown_word sub .failed (BitVec.ofNat 4 f.sent)
        (l.draft.failedBy f).status
      refine ⟨t, _, _, ht, hx.granted, hx.runs, ?_, hattempts, fun _ => ⟨hcause, hcount, hresult⟩, nofun, nofun, nofun, nofun⟩
      rwa [hx.toe, Toe.rechecked_flights]
    · obtain ⟨t, ht, hx⟩ := hl.held he
      obtain ⟨-, -, -, -, -, -, hattempts, -⟩ := t.chip.toe.shown_word sub .idle 0 l.draft.status
      have hmem : sub ∈ t.chip.toe.held := by rw [hx.toe]; exact mem_insertNat _ _
      refine ⟨t, _, _, ht, hx.granted, hx.runs, ?_, hattempts.trans (Toe.attemptsUsed_of_held hmem _ _), nofun,
        fun _ => hmem, nofun, nofun, nofun⟩
      rwa [hx.toe]
    · obtain ⟨t, ht, hx⟩ := hl.returned he
      obtain ⟨-, -, -, -, -, -, hattempts, -⟩ := t.chip.toe.shown_word sub .idle 0 l.draft.status
      have hmem : f.returnEntry ∈ t.chip.toe.queue := by rw [hx.toe]; exact Toe.joinHead_mem _ _
      refine ⟨t, _, _, ht, hx.granted, hx.runs, ?_,
        hattempts.trans (Toe.attemptsUsed_of_queue hmem (Toe.flight_subscriber hf) _ _), nofun, nofun, fun _ hroom => ?_,
        nofun, nofun⟩
      · rwa [hx.toe, Toe.joinHead_flights]
      · rw [hx.toe, Toe.joinHead_room (s.chip.toe.landed sub) _ hroom, Flight.returnEntry, Toe.flight_subscriber hf]
        rfl
    · obtain ⟨t, ht, hx⟩ := hl.unconfirmed he
      obtain ⟨-, hgate, hresult, -, -, -, hattempts, -⟩ := t.chip.toe.shown_word sub .idle (BitVec.ofNat 4 f.sent)
        { (l.chip.takeValues sub l.reserved f.level 2 f.gate l.draft).draft.status with result := 2 }
      refine ⟨t, _, _, ht, hx.granted, hx.runs, ?_, hattempts, nofun, nofun, nofun, fun _ => ⟨hresult, hgate.trans ?_⟩, nofun⟩
      · rwa [hx.toe, Toe.rechecked_flights]
      · rw [l.chip.takeValues_eq]
        rfl
    · obtain ⟨l, ws, k, hl, htaken⟩ := State.exists_takes_taken h hf hr
      obtain ⟨t, ht, hx⟩ := hl.confirmed he htaken
      obtain ⟨-, -, hresult, -, -, -, hattempts, -⟩ := t.chip.toe.shown_word sub .idle (BitVec.ofNat 4 f.sent)
        { l.draft.status with result := 1 }
      refine ⟨t, _, _, ht, hx.granted, hx.runs, ?_, hattempts, nofun, nofun, nofun, nofun, fun _ => hresult⟩
      rwa [hx.toe, Toe.rechecked_flights]
  · intro s sub f r h hf he hr hv hl hfree
    obtain ⟨l, ws, k, hx, ht⟩ := State.Takes.not_taken h hf hr hv hl hfree
    obtain ⟨t, ht, hx, howes⟩ := hx.withdrawn he ht
    refine ⟨t, f.withdrawn l.reserved, ht, hx.granted, ?_, rfl, rfl, howes⟩
    rw [hx.toe]
    exact Toe.flight_modifyFlight_same (Flight.withdrawn _) hf fun _ => rfl

end Sys2Proof.Machine
end

section
/-! The evaluation of requests (O34): what a request does to the collections, and the tenures of EVALUATE, REQUEUE and
RETIRE. -/

namespace Sys2Proof.Machine

/-! ### Bodies -/

/-- A draft as memory holds it writes nothing before w2. -/
theorem Chip.draftLog_tapDraft (m : Memory) (sub : Nat) (c d : Chip) : d.draftLog sub (c.tapDraft m sub) = [] := rfl

/-- The collections after the decision of an EVALUATE or REQUEUE request on its record (R83, R84). -/
def Chip.evaluatedToe (m : Memory) (r : EvalRequest) (t : Toe) (c : Chip) : Toe :=
  if subInUse (c.recordWord m .subscribers r.subscriber 0) then
    t.evaluated r ((c.tapDraft m r.subscriber).needsChange || r.reassert)
  else t

theorem Chip.evaluateRecord_atWork (m : Memory) (r : EvalRequest) (t : Toe) (c : Chip) :
    Chip.evaluateRecord m r { c with toe := t } =
      c.atWork [c.statusWrite r.subscriber (c.tapDraft m r.subscriber).status.order
        (c.tapDraft m r.subscriber).status.attempts (c.tapDraft m r.subscriber).status (c.evaluatedToe m r t)] []
        (c.evaluatedToe m r t) c.clu := by
  have hdraft : Chip.tapDraft { c with toe := t } m r.subscriber = c.tapDraft m r.subscriber := rfl
  unfold Chip.evaluateRecord Chip.evaluatedToe
  dsimp only
  rw [hdraft, show Chip.recordWord { c with toe := t } m .subscribers r.subscriber 0 =
    c.recordWord m .subscribers r.subscriber 0 from rfl]
  split
  · rw [Chip.withToe_eq, Chip.commitTap_atWork]
    rfl
  · rw [Chip.withToe_eq, Chip.commitTap_atWork]
    rfl

/-! ### What a request does to the collections -/

section
variable {t : Toe} {r : EvalRequest} {change : Bool}

theorem Toe.evaluated_none (h : t.whereIs r.subscriber = none) :
    t.evaluated r change = if change then t.tailed r.subscriber r.reassert else t := by
  rw [Toe.evaluated, h]
  rfl

theorem Toe.evaluated_queued (h : t.whereIs r.subscriber = some .queued) : t.evaluated r change = { t with
    queue := t.queue.map fun q =>
      if q.subscriber = r.subscriber then { q with reassert := q.reassert || r.reassert } else q } := by
  rw [Toe.evaluated, h]
  cases r.reassert <;> simp

theorem Toe.evaluated_deferred (h : t.whereIs r.subscriber = some .deferred) : t.evaluated r change = { t with
    deferred := t.deferred.map fun d =>
      if d.subscriber = r.subscriber then { d with reassert := d.reassert || r.reassert } else d } := by
  rw [Toe.evaluated, h]
  cases r.reassert <;> simp

theorem Toe.evaluated_held (h : t.whereIs r.subscriber = some .held) : t.evaluated r change =
    if r.kind = .requeue then Toe.tailed { t with held := t.held.erase r.subscriber } r.subscriber r.reassert else t := by
  rw [Toe.evaluated, h]
  rfl

theorem Toe.evaluated_inFlight (h : t.whereIs r.subscriber = some .inFlight) : t.evaluated r change = { t with
    flights := t.flights.map fun f =>
      if f.subscriber = r.subscriber then { f with
        recheck := if r.reassert then .reassert else if f.recheck = .none then .change else f.recheck }
      else f } := by
  rw [Toe.evaluated, h]
  rfl

/-- The collections that may hold a subscriber. -/
theorem Toe.whereIs_cases (t : Toe) (sub : Nat) : t.whereIs sub = none ∨ t.whereIs sub = some .queued ∨
    t.whereIs sub = some .deferred ∨ t.whereIs sub = some .held ∨ t.whereIs sub = some .inFlight := by
  unfold Toe.whereIs
  split
  · simp
  · split
    · simp
    · split
      · simp
      · split <;> simp

theorem Toe.tailed_evals (t : Toe) (sub : Nat) (b : Bool) : (t.tailed sub b).evals = t.evals := by
  unfold Toe.tailed
  split <;> rfl

theorem Toe.evaluated_evals : (t.evaluated r change).evals = t.evals := by
  rcases t.whereIs_cases r.subscriber with h | h | h | h | h
  · rw [Toe.evaluated_none h]
    split
    · exact t.tailed_evals _ _
    · rfl
  · rw [Toe.evaluated_queued h]
  · rw [Toe.evaluated_deferred h]
  · rw [Toe.evaluated_held h]
    split
    · exact Toe.tailed_evals _ _ _
    · rfl
  · rw [Toe.evaluated_inFlight h]

end

/-! ### The tenure -/

/-- A tenure whose job is granted. -/
theorem State.tenure_of_grant {s : State} {pick : Chip → Job → Bool} {body : Memory → Job → Chip → Chip} {j : Job} {c : Chip}
    (h : s.chip.grant (pick s.chip) = some (j, c)) :
    s.tenure pick body = .next { s with chip := ((body s.mem j c).closeGrant).settle } := by
  unfold State.tenure
  rw [h]

theorem Chip.block_of_evalPick {k : EvalKind} {c : Chip} {i : Job} (h : Chip.evalPick k c i = true) :
    i.block = Job.block .evaluation := by
  obtain ⟨rfl, -⟩ : i = .evaluation ∧ _ := by simpa [Chip.evalPick] using h
  rfl

/-- The grant of an evaluation, by the body on the oldest request. -/
theorem State.evaluation_next {s : State} {r : EvalRequest} {rest : List EvalRequest}
    (h : s.chip.offers .evaluation = true) (hr : s.chip.toe.evals = r :: rest) :
    (s.tenure (Chip.evalPick r.kind) fun m _ c => c.evaluationBody m) = .next { s with
      chip := (((s.chip.atGrant .evaluation).evaluationBody s.mem).closeGrant).settle } :=
  State.tenure_of_grant (s.chip.grant_offers .evaluation _ h (by simp [Chip.evalPick, hr]) fun _ => Chip.block_of_evalPick)

/-- A request that is not RETIRE, or one on a record in use, is decided as EVALUATE and REQUEUE are (R78, R83, R84). -/
theorem Chip.evaluationBody_decides {m : Memory} {r : EvalRequest} {rest : List EvalRequest} {c : Chip}
    (hr : c.toe.evals = r :: rest)
    (hdecides : r.kind = .retire → subInUse (c.recordWord m .subscribers r.subscriber 0) = true) :
    c.evaluationBody m = Chip.evaluateRecord m r { c with toe := { c.toe with evals := rest } } := by
  rw [Chip.evaluationBody, hr]
  dsimp only
  split
  · exact if_pos (hdecides ‹_›)
  · rfl

/-- An evaluation that is granted, by the body's form. -/
theorem State.evaluation_granted (s : State) (kind : EvalKind) (r : EvalRequest) (rest : List EvalRequest)
    (ws : List (Addr × Word)) (toe : Toe) (k : Clu) (h : s.chip.offers .evaluation = true)
    (hr : s.chip.toe.evals = r :: rest) (hk : r.kind = kind)
    (hbody : (s.chip.atGrant .evaluation).evaluationBody s.mem = (s.chip.atGrant .evaluation).atWork ws [] toe k)
    (hlow : k.low = s.chip.clu.low) :
    ∃ t, (s.tenure (Chip.evalPick kind) fun m _ c => c.evaluationBody m) = .next t ∧ State.granted [.toe, .clu] s t ∧
      (k = s.chip.clu → State.granted [.toe] s t) ∧ t.chip.runs .evaluation ws ∧ t.chip.toe = toe ∧
      { t.chip.clu with low := false } = { k with low := false } := by
  have hpick : Chip.evalPick kind s.chip .evaluation = true := by simp [Chip.evalPick, hr, hk]
  obtain ⟨t, ht, hg, hg', hrun, -, htoe, hclu, -⟩ := s.atWork_granted .evaluation _ (fun m _ c => c.evaluationBody m) _ ws []
    toe k h hpick (fun _ => Chip.block_of_evalPick) (Or.inl rfl) hbody hlow
  exact ⟨t, ht, hg, hg', hrun, htoe, hclu⟩

/-- The tenure of a request decided on a record: its one write is w2, over the collections as the request leaves them. -/
theorem State.evaluate_granted (s : State) (kind : EvalKind) (r : EvalRequest) (rest : List EvalRequest)
    (h : s.chip.offers .evaluation = true) (hr : s.chip.toe.evals = r :: rest) (hk : r.kind = kind)
    (hdecides : r.kind = .retire → subInUse (s.chip.recordWord s.mem .subscribers r.subscriber 0) = true) :
    (let y := (s.chip.tapDraft s.mem r.subscriber).status
    ∃ t, (s.tenure (Chip.evalPick kind) fun m _ c => c.evaluationBody m) = .next t ∧ State.granted [.toe] s t ∧
      t.chip.runs .evaluation [(s.chip.recordAddr .subscribers r.subscriber 2,
        (t.chip.toe.shown r.subscriber y.order y.attempts y).word)] ∧
      t.chip.toe = s.chip.evaluatedToe s.mem r { s.chip.toe with evals := rest }) := by
  obtain ⟨t, ht, -, hg, hrun, htoe, -⟩ := s.evaluation_granted kind r rest _ _ _ h hr hk
    ((Chip.evaluationBody_decides (c := s.chip.atGrant .evaluation) hr hdecides).trans (Chip.evaluateRecord_atWork ..)) rfl
  refine ⟨t, ht, hg rfl, ?_, htoe⟩
  rw [htoe]
  exact hrun

/-! ### RETIRE -/

/-- RETIRE and EVALUATE do the same to the collections. -/
theorem Chip.evaluateRecord_retire (m : Memory) (r : EvalRequest) (c : Chip) (hk : r.kind = .retire) :
    c.evaluateRecord m r = c.evaluateRecord m { r with kind := .evaluate } := by
  have htoe : ∀ (t : Toe) (b : Bool), t.evaluated r b = t.evaluated { r with kind := .evaluate } b := fun t b => by
    simp [Toe.evaluated, hk]
  unfold Chip.evaluateRecord
  dsimp only
  rw [htoe]

/-- The part with other requests in the evaluation list. -/
def Chip.withEvals (l : List EvalRequest) (c : Chip) : Chip := { c with toe := { c.toe with evals := l } }

/-- A RETIRE request on a record in use is decided as EVALUATE is (R78). -/
theorem State.retire_eq_evaluate (s : State) (r : EvalRequest) (rest : List EvalRequest)
    (h : s.chip.offers .evaluation = true) (hr : s.chip.toe.evals = r :: rest) (hk : r.kind = .retire)
    (hu : subInUse (s.chip.recordWord s.mem .subscribers r.subscriber 0) = true) :
    exec .retire s = exec .evaluate { s with chip := s.chip.withEvals ({ r with kind := .evaluate } :: rest) } := by
  have hleft := State.evaluation_next h hr
  have hright := State.evaluation_next (s := { s with chip := s.chip.withEvals ({ r with kind := .evaluate } :: rest) })
    (r := { r with kind := .evaluate }) (rest := rest) h rfl
  rw [hk] at hleft
  refine hleft.trans (Eq.trans ?_ hright.symm)
  rw [Chip.evaluationBody_decides (c := s.chip.atGrant .evaluation) hr fun _ => hu,
    Chip.evaluationBody_decides
      (c := (s.chip.withEvals ({ r with kind := .evaluate } :: rest)).atGrant .evaluation) rfl fun _ => hu,
    Chip.evaluateRecord_retire _ _ _ hk]
  rfl

/-- The tenure of a RETIRE request on a record out of use: its demand is closed (R78). -/
theorem State.retire_granted (s : State) (r : EvalRequest) (rest : List EvalRequest)
    (h : s.chip.offers .evaluation = true) (hr : s.chip.toe.evals = r :: rest) (hk : r.kind = .retire)
    (hu : subInUse (s.chip.recordWord s.mem .subscribers r.subscriber 0) = false) :
    (let d := s.chip.tapDraft s.mem r.subscriber
    let refund := refundRecord s.chip.stamp r.subscriber d.demand 3 (s.chip.priceOf d.demand)
    let closed := (s.chip.recordAddr .subscribers r.subscriber 3, (0 : Word))
    ∃ t ws k, exec .retire s = .next t ∧ State.granted [.toe, .clu] s t ∧ t.chip.runs .evaluation ws ∧
      t.chip.toe = { s.chip.toe with evals := rest } ∧ { t.chip.clu with low := false } = { k with low := false } ∧
      (d.demand = 0 → ws = []) ∧ (d.demand ≠ 0 → d.delivered = true → ws = [closed] ∧ k = s.chip.clu) ∧
      (d.demand ≠ 0 → d.delivered = false →
        ws = s.chip.logs s.chip.clu refund ++ [closed] ∧ k = s.chip.clu.logged refund true)) := by
  have hbody : (s.chip.atGrant .evaluation).evaluationBody s.mem = Chip.retireRecord s.mem r
      { s.chip.atGrant .evaluation with toe := { s.chip.toe with evals := rest } } := by
    rw [Chip.evaluationBody, show (s.chip.atGrant .evaluation).toe.evals = r :: rest from hr]
    exact if_pos hk
  have hnil : { s.chip.atGrant .evaluation with toe := { s.chip.toe with evals := rest } } =
      (s.chip.atGrant .evaluation).atWork [] [] { s.chip.toe with evals := rest } s.chip.clu := rfl
  have hzero : subW3 0 false = 0 := by decide
  rw [Chip.retireRecord] at hbody
  dsimp only at hbody
  rw [if_neg (by rw [Bool.not_eq_true]; exact hu)] at hbody
  dsimp only
  generalize hd : s.chip.tapDraft s.mem r.subscriber = d
  rw [show Chip.tapDraft { s.chip.atGrant .evaluation with toe := { s.chip.toe with evals := rest } } s.mem r.subscriber = d
    from hd, hnil] at hbody
  by_cases hdemand : d.demand = 0
  · rw [if_pos hdemand] at hbody
    obtain ⟨t, ht, hg, -, hrun, htoe, hclu⟩ := s.evaluation_granted .retire r rest _ _ _ h hr hk hbody rfl
    exact ⟨t, _, _, ht, hg, hrun, htoe, hclu, fun _ => rfl, fun hn => absurd hdemand hn, fun hn => absurd hdemand hn⟩
  rw [if_neg hdemand, hzero] at hbody
  cases hdelivered : d.delivered with
  | true =>
    rw [hdelivered, if_pos rfl, Chip.writeRecord_atWork] at hbody
    obtain ⟨t, ht, hg, -, hrun, htoe, hclu⟩ := s.evaluation_granted .retire r rest _ _ _ h hr hk hbody rfl
    exact ⟨t, _, _, ht, hg, hrun, htoe, hclu, fun hn => absurd hn hdemand, fun _ _ => ⟨rfl, rfl⟩, fun _ => nofun⟩
  | false =>
    rw [hdelivered, if_neg (by decide), Chip.append_atWork, Chip.writeRecord_atWork] at hbody
    obtain ⟨t, ht, hg, -, hrun, htoe, hclu⟩ := s.evaluation_granted .retire r rest _ _ _ h hr hk hbody (Clu.logged_low ..)
    exact ⟨t, _, _, ht, hg, hrun, htoe, hclu, fun hn => absurd hn hdemand, fun _ => nofun, fun _ _ => ⟨rfl, rfl⟩⟩

/-! ### The statement -/

theorem TapDraft.gateWanted_eq (d : TapDraft) : d.gateWanted = decide (d.demand ≠ 0) := by
  rw [Bool.eq_iff_iff]
  simp [TapDraft.gateWanted]

/-- A change of a record is asked for where the level or the gate wanted differs from the confirmed one, or for its own sake
(R83). -/
theorem TapDraft.needsChange_iff (d : TapDraft) (b : Bool) : (d.needsChange || b) = true ↔
    d.desired ≠ d.status.level ∨ decide (d.demand ≠ 0) ≠ d.status.gate ∨ b = true := by
  simp [TapDraft.needsChange, d.gateWanted_eq, or_assoc]

/-- Settles O34: EVALUATE and REQUEUE by the collection that holds the subscriber, RETIRE by the demand of its record. -/
theorem evaluationsAreDecided : Obligations.EvaluationsAreDecided := by
  unfold Obligations.EvaluationsAreDecided
  constructor
  · intro s i r rest h hr hi
    have hnext : exec i s = s.tenure (Chip.evalPick r.kind) fun m _ c => c.evaluationBody m := by
      rcases hi with ⟨rfl, hk⟩ | ⟨rfl, hk⟩ <;> rw [hk] <;> rfl
    have hkind : r.kind ≠ .retire := by
      rcases hi with ⟨-, hk⟩ | ⟨-, hk⟩ <;> rw [hk] <;> decide
    obtain ⟨t, ht, hg, hrun, htoe⟩ := s.evaluate_granted r.kind r rest h hr rfl fun hk => absurd hk hkind
    obtain ⟨hlevel, hgate, hresult, hlow, hunset, hunlocked, hattempts, horder⟩ := t.chip.toe.shown_word r.subscriber
      (s.chip.tapDraft s.mem r.subscriber).status.order (s.chip.tapDraft s.mem r.subscriber).status.attempts
      (s.chip.tapDraft s.mem r.subscriber).status
    have hchange := (s.chip.tapDraft s.mem r.subscriber).needsChange_iff r.reassert
    have hused : subInUse (s.chip.recordWord s.mem .subscribers r.subscriber 0) = true → t.chip.toe =
        Toe.evaluated { s.chip.toe with evals := rest } r
          ((s.chip.tapDraft s.mem r.subscriber).needsChange || r.reassert) := fun hu => htoe.trans (if_pos hu)
    refine ⟨t, _, hnext.trans ht, hg, hrun, hlevel, hgate, hresult, hlow, hunset, hunlocked, horder, hattempts,
      fun hu => htoe.trans (if_neg hu), fun hu hw hc => ?_, fun hu hw hc => ?_, fun hu hw => ?_, fun hu hw => ?_,
      fun hu hw hk => ?_, fun hu hw hk => ?_, fun hu hw => ?_⟩
    · rw [hused hu, Toe.evaluated_none hw, if_pos (hchange.2 hc)]
    · rw [hused hu, Toe.evaluated_none hw, if_neg fun hn => hc (hchange.1 hn)]
    · rw [hused hu, Toe.evaluated_queued hw]
    · rw [hused hu, Toe.evaluated_deferred hw]
    · rw [hused hu, Toe.evaluated_held hw, if_pos hk]
    · rw [hused hu, Toe.evaluated_held hw, if_neg (by rw [hk]; decide)]
    · rw [hused hu, Toe.evaluated_inFlight hw]
  · intro s r rest h hr hk
    cases hu : subInUse (s.chip.recordWord s.mem .subscribers r.subscriber 0) with
    | true =>
      have hbit : bit (s.chip.recordWord s.mem .subscribers r.subscriber 0) 31 ≠ false := by
        rw [show bit (s.chip.recordWord s.mem .subscribers r.subscriber 0) 31 = true from hu]
        decide
      obtain ⟨t, ht, hg, -, htoe⟩ := s.evaluate_granted .retire r rest h hr hk fun _ => hu
      refine ⟨t, ht, ⟨hg.1, hg.2.1, hg.2.2.mono (by decide)⟩, ?_, fun _ => s.retire_eq_evaluate r rest h hr hk hu,
        fun hn => absurd hn hbit⟩
      rw [htoe, Chip.evaluatedToe, if_pos hu]
      exact Toe.evaluated_evals
    | false =>
      have hbit : bit (s.chip.recordWord s.mem .subscribers r.subscriber 0) 31 ≠ true := by
        rw [show bit (s.chip.recordWord s.mem .subscribers r.subscriber 0) 31 = false from hu]
        decide
      obtain ⟨t, ws, k, ht, hg, hrun, htoe, hclu, hnone, hclosed, hrefund⟩ := s.retire_granted r rest h hr hk hu
      refine ⟨t, ht, hg, by rw [htoe], fun hn => absurd hn hbit, fun _ => ⟨htoe, fun hd => ?_, fun hd hv => ?_,
        fun l hd hv hl => ?_⟩⟩
      · obtain rfl := hnone hd
        exact hrun
      · obtain ⟨rfl, rfl⟩ := hclosed hd hv
        exact ⟨hrun, hclu⟩
      · obtain ⟨rfl, rfl⟩ := hrefund hd hv
        rw [Chip.logs_some hl] at hrun
        rw [Clu.logged_some hl] at hclu
        exact ⟨hrun, hclu⟩

end Sys2Proof.Machine
end

section
/-! What the endings write and leave, with the log copy loaded (O59): each by whether a reply waits. -/

namespace Sys2Proof.Machine

/-! ### What an ending leaves -/

/-- The tenure of an ending has been granted: the collections, the values and the state that its w2 shows, its writes with w2
last, the log copy and the reservations. -/
structure State.Ended (s t : State) (sub : Nat) (f : Flight) (w2 : Word) (toe : Toe) (rest : OrderState) (y : TapStatus)
    (pre : List (Addr × Word)) (copy : LogCopy) (reserved : Nat) : Prop where
  granted : State.granted [.toe, .clu] s t
  toe : t.chip.toe = toe
  values : field w2 0 2 = y.level ∧ bit w2 2 = y.gate ∧ bit w2 16 = y.lowSignal ∧ bit w2 20 = y.unset ∧
    bit w2 21 = y.unlocked
  shows : field w2 4 3 = ((t.chip.toe.whereIs sub).getD rest).code ∧
    field w2 12 4 = t.chip.toe.attemptsUsed sub (BitVec.ofNat 4 f.sent)
  result : field w2 8 3 = y.result
  runs : t.chip.runs (.tapLink sub) (pre ++ [(s.chip.recordAddr .subscribers sub 2, w2)])
  copy : t.chip.clu.copy = some copy
  reserved : t.chip.clu.reserved = reserved

/-- An ending's tenure in that form, its writes, log copy and reservations spelled out. -/
theorem State.LinkLeaves.ended {s t : State} {sub : Nat} {pre pre' : List (Addr × Word)} {rest : OrderState}
    {used : BitVec 4} {y : TapStatus} {toe : Toe} {k : Clu} {l : LogCopy} {n : Nat} (f : Flight)
    (h : s.LinkLeaves t sub pre rest used y toe k)
    (hused : t.chip.toe.attemptsUsed sub used = t.chip.toe.attemptsUsed sub (BitVec.ofNat 4 f.sent)) (hpre : pre = pre')
    (hcopy : k.copy = some l) (hreserved : k.reserved = n) :
    s.Ended t sub f (t.chip.toe.shown sub rest used y).word toe rest y pre' l n := by
  obtain ⟨hlevel, hgate, hresult, hlow, hunset, hunlocked, hattempts, horder⟩ := t.chip.toe.shown_word sub rest used y
  exact ⟨h.granted, h.toe, ⟨hlevel, hgate, hlow, hunset, hunlocked⟩, ⟨horder, hattempts.trans hused⟩, hresult, hpre ▸ h.runs,
    h.copy.trans hcopy, h.reserved.trans hreserved⟩

/-! ### Writes, copy and reservations -/

/-- A record appended in a reservation, or none. -/
theorem Clu.logged_if {k : Clu} {l : LogCopy} (h : k.copy = some l) (r : LogRecord) (b : Bool) :
    (if b then k.logged r true else k).copy = some (if b then l.appended r else l) ∧
      (if b then k.logged r true else k).reserved = k.reserved - if b then 1 else 0 := by
  rw [Clu.logged_some h]
  cases b
  · exact ⟨h, rfl⟩
  · exact ⟨rfl, rfl⟩

theorem Chip.logs_if {k : Clu} {l : LogCopy} (h : k.copy = some l) (r : LogRecord) (b : Bool) (c : Chip) :
    (if b then c.logs k r else []) = if b then c.appendWrites l r else [] := by
  rw [Chip.logs_some h]

/-- An order that held a reservation holds none once it has ended: its LEVEL record took it, or it is released. -/
theorem reservation_ended (n given refund : Nat) (held : Bool) (level old : BitVec 2) :
    n - (if held = true ∧ level ≠ old then 1 else 0) - given - refund - (if (held && level == old) = true then 1 else 0) =
      n - refund - (if held = true then 1 else 0) - given := by
  cases held with
  | false => simp only [Bool.false_eq_true, false_and, Bool.false_and, if_false]; omega
  | true =>
    by_cases h : level = old
    · simp [h]; omega
    · simp [h]; omega

/-- The writes before w2 of an order that has failed. -/
theorem Chip.draftLog_failedBy (sub : Nat) (e : TapDraft) (f : Flight) (c : Chip) :
    c.draftLog sub (e.failedBy f) = (if e.timed then [(c.recordAddr .subscribers sub 4, c.tbu.wall)] else []) ++
      if e.refundedBy f then [(c.recordAddr .subscribers sub 3, 0)] else c.draftWrites sub e := by
  have hzero : subW3 0 false = 0 := by decide
  unfold Chip.draftLog
  congr 1
  cases hr : e.refundedBy f with
  | false => simp [Chip.draftWrites, TapDraft.failedBy, hr]
  | true =>
    have hdelivered : e.delivered = false := by
      simp only [TapDraft.refundedBy, Bool.and_eq_true, Bool.not_eq_true'] at hr
      exact hr.2
    simp only [Chip.draftWrites, TapDraft.failedBy, hr, hdelivered, Bool.true_or, if_true, hzero]

/-- A change is still needed after a failure (R95). -/
theorem TapDraft.needsChange_failedBy (e : TapDraft) (f : Flight) : (e.failedBy f).needsChange =
    (e.desired != e.status.level || (e.demand != 0 && !e.refundedBy f) != e.status.gate) := by
  unfold TapDraft.needsChange TapDraft.gateWanted TapDraft.failedBy
  cases e.refundedBy f <;> simp

/-- A demand is refunded at a failure after a reply where the reply did not deliver it. -/
theorem TapDraft.refundedBy_replied (d : TapDraft) (level : BitVec 2) (r : TapReport) (y : Stamp) (f : Flight) :
    (d.replied level r y).refundedBy f = (f.gate && d.demand != 0 && !d.delivered && !r.gate) := by
  unfold TapDraft.refundedBy TapDraft.replied TapDraft.took TapDraft.delivers
  dsimp only
  cases f.gate <;> cases d.demand != 0 <;> cases d.delivered <;> cases r.gate <;> rfl

/-- A reply that delivers a demand leaves none to be refunded. -/
theorem TapDraft.not_delivers_of_refund {d : TapDraft} {f : Flight} {r : TapReport}
    (h : (f.gate && d.demand != 0 && !d.delivered && !r.gate) = true) : d.delivers r.gate = false := by
  simp only [Bool.and_eq_true, Bool.not_eq_true'] at h
  simp [TapDraft.delivers, h.2]

/-- The writes of a delivery, w3 with the demand and the delivered flag. -/
def Chip.deliveryWrites (sub : Nat) (d : TapDraft) (gate : Bool) (c : Chip) : List (Addr × Word) :=
  if d.delivers gate then [(c.recordAddr .subscribers sub 3, subW3 d.demand true)] else []

theorem Chip.draftWrites_took (sub : Nat) (d : TapDraft) (level : BitVec 2) (gate : Bool) (y : Stamp) (c : Chip)
    (hd : d.changed = false) : c.draftWrites sub (d.took level gate y) = c.deliveryWrites sub d gate := by
  unfold Chip.draftWrites Chip.deliveryWrites TapDraft.took
  cases hg : d.delivers gate <;> simp [hd]

/-! ### The endings, with no reply waiting -/

section
variable {s : State} {sub : Nat} {f : Flight} {l : LogCopy}

theorem State.failed_none (h : s.chip.offers (.tapLink sub) = true) (hf : s.chip.toe.flight sub = some f)
    (he : f.ending = some .failed) (hl : s.chip.clu.copy = some l) (hr : f.reply = none) :
    (let d := s.chip.tapDraft s.mem sub
    let refund := s.chip.failRefund sub d
    ∃ t w2, exec .endingFailed s = .next t ∧ s.Ended t sub f w2
      ((s.chip.toe.landed sub).rechecked f
        (d.desired != d.status.level || (d.demand != 0 && !d.refundedBy f) != d.status.gate)) .failed
      { d.status with result := if f.anyReply then 5 else 4 }
      (if d.refundedBy f then s.chip.appendWrites l refund ++ [(s.chip.recordAddr .subscribers sub 3, 0)] else [])
      (if d.refundedBy f then l.appended refund else l)
      (s.chip.clu.reserved - (if d.refundedBy f then 1 else 0) - if f.levelReserved then 1 else 0)) := by
  obtain ⟨t, ht, hx, -⟩ := (State.takes_none h hf hr).failed he
  have hlog := Clu.logged_if hl (s.chip.failRefund sub (s.chip.tapDraft s.mem sub)) ((s.chip.tapDraft s.mem sub).refundedBy f)
  rw [TapDraft.needsChange_failedBy] at hx
  refine ⟨t, _, ht, hx.ended f rfl ?_ hlog.1 ?_⟩
  · rw [Chip.logs_if hl, Chip.draftLog_failedBy]
    show _ ++ ([] ++ _) = _
    cases (s.chip.tapDraft s.mem sub).refundedBy f with
    | true => rw [List.nil_append]; rfl
    | false => rfl
  · exact congrArg (· - if f.levelReserved then 1 else 0) hlog.2

theorem State.held_none (h : s.chip.offers (.tapLink sub) = true) (hf : s.chip.toe.flight sub = some f)
    (he : f.ending = some .held) (hl : s.chip.clu.copy = some l) (hr : f.reply = none) :
    ∃ t w2, exec .endingHeld s = .next t ∧ s.Ended t sub f w2
      { s.chip.toe.landed sub with held := insertNat sub (s.chip.toe.landed sub).held } .idle
      (s.chip.tapDraft s.mem sub).status [] l (s.chip.clu.reserved - if f.levelReserved then 1 else 0) := by
  obtain ⟨t, ht, hx⟩ := (State.takes_none h hf hr).held he
  have hmem : sub ∈ t.chip.toe.held := by rw [hx.toe]; exact mem_insertNat _ _
  exact ⟨t, _, ht, hx.ended f (Toe.attemptsUsed_of_held hmem _ _) rfl hl rfl⟩

theorem State.returned_none (h : s.chip.offers (.tapLink sub) = true) (hf : s.chip.toe.flight sub = some f)
    (he : f.ending = some .returned) (hl : s.chip.clu.copy = some l) (hr : f.reply = none) :
    (let toe := (s.chip.toe.landed sub).joinHead f.returnEntry
    ∃ t w2, exec .endingReturned s = .next t ∧ s.Ended t sub f w2 toe .idle (s.chip.tapDraft s.mem sub).status
      (s.chip.displacedWrite s.mem (s.chip.toe.landed sub) toe) l
      (s.chip.clu.reserved - if f.levelReserved then 1 else 0)) := by
  obtain ⟨t, ht, hx⟩ := (State.takes_none h hf hr).returned he
  have hmem : f.returnEntry ∈ t.chip.toe.queue := by rw [hx.toe]; exact Toe.joinHead_mem _ _
  exact ⟨t, _, ht, hx.ended f (Toe.attemptsUsed_of_queue hmem (Toe.flight_subscriber hf) _ _) rfl hl rfl⟩

theorem State.confirmed_none (h : s.chip.offers (.tapLink sub) = true) (hf : s.chip.toe.flight sub = some f)
    (he : f.ending = some .confirmed) (hl : s.chip.clu.copy = some l) (hr : f.reply = none) :
    (let d := s.chip.tapDraft s.mem sub
    ∃ t w2, exec .endingConfirmed s = .next t ∧ s.Ended t sub f w2 ((s.chip.toe.landed sub).rechecked f d.needsChange) .idle
      { d.status with result := 1 } [] l (s.chip.clu.reserved - if f.levelReserved then 1 else 0)) := by
  obtain ⟨t, ht, hx⟩ := (State.takes_none h hf hr).confirmed he rfl
  exact ⟨t, _, ht, hx.ended f rfl rfl hl rfl⟩

/-! ### The endings, over a waiting reply -/

/-- The log copy and the reservations after a level and a gate are taken. -/
theorem Chip.levelClu_released (hl : s.chip.clu.copy = some l) (reserved : Bool) (level result : BitVec 2) (d : TapDraft)
    (given : Bool) :
    ((s.chip.levelClu sub reserved level result d).released given).copy =
        some (s.chip.levelWrites l sub d reserved level result).2 ∧
      ((s.chip.levelClu sub reserved level result d).released given).reserved =
        s.chip.clu.reserved - (if reserved = true ∧ level ≠ d.status.level then 1 else 0) - if given then 1 else 0 := by
  rw [s.chip.levelClu_eq hl]
  exact ⟨rfl, rfl⟩

/-- The writes of a reply taken, w2 apart. -/
theorem Chip.replied_writes (hl : s.chip.clu.copy = some l) (r : TapReport) (result : BitVec 2) :
    (let d := s.chip.tapDraft s.mem sub
    s.chip.levelLog sub f.levelReserved r.level result d ++
        s.chip.draftLog sub (d.replied (s.chip.levelLeft d f.levelReserved r.level) r s.chip.stamp) =
      s.chip.valueWrites l sub d f.levelReserved r.level result r.gate) := by
  dsimp only
  rw [s.chip.valueLog_eq hl, Chip.draftLog_stamped _ _ ((s.chip.tapDraft s.mem sub).delivers r.gate) _ rfl rfl
    fun hd => by simp [TapDraft.replied, TapDraft.took, hd]]
  rfl

theorem State.failed_some {r : TapReport} (h : s.chip.offers (.tapLink sub) = true) (hf : s.chip.toe.flight sub = some f)
    (he : f.ending = some .failed) (hl : s.chip.clu.copy = some l) (hr : f.reply = some r) :
    (let d := s.chip.tapDraft s.mem sub
    let refund := s.chip.failRefund sub d
    let taken := s.chip.levelWrites l sub d f.levelReserved r.level (r.resultFor f)
    let level := s.chip.levelLeft d f.levelReserved r.level
    let refunds := f.gate && d.demand != 0 && !d.delivered && !r.gate
    ∃ t w2, exec .endingFailed s = .next t ∧ s.Ended t sub f w2
      ((s.chip.toe.landed sub).rechecked f (d.desired != level || (d.demand != 0 && !refunds) != r.gate)) .failed
      { (d.replied level r s.chip.stamp).status with result := if f.anyReply then 5 else 4 }
      (if refunds then taken.1 ++ s.chip.appendWrites taken.2 refund ++
          [(s.chip.recordAddr .subscribers sub 4, s.chip.tbu.wall), (s.chip.recordAddr .subscribers sub 3, 0)]
        else s.chip.valueWrites l sub d f.levelReserved r.level (r.resultFor f) r.gate)
      (if refunds then taken.2.appended refund else taken.2)
      (s.chip.clu.reserved - (if refunds then 1 else 0) - (if f.levelReserved then 1 else 0) -
        if d.delivers r.gate then 1 else 0)) := by
  obtain ⟨t, ht, hx, -⟩ := (State.takes_some h hf hr).failed he
  generalize hd : s.chip.tapDraft s.mem sub = d at hx ⊢
  obtain ⟨hcopy, hreserved⟩ := Chip.levelClu_released (sub := sub) hl f.levelReserved r.level (r.resultFor f) d
    (d.delivers r.gate)
  have hlog := Clu.logged_if hcopy (s.chip.failRefund sub d) (f.gate && d.demand != 0 && !d.delivered && !r.gate)
  have hwrites := Chip.replied_writes (sub := sub) (f := f) hl r (r.resultFor f)
  rw [hd] at hwrites
  rw [TapDraft.needsChange_failedBy, TapDraft.refundedBy_replied] at hx
  refine ⟨t, _, ht, hx.ended f rfl ?_ hlog.1 ?_⟩
  · rw [Chip.logs_if hcopy, Chip.draftLog_failedBy, TapDraft.refundedBy_replied]
    cases hrefunds : (f.gate && d.demand != 0 && !d.delivered && !r.gate) with
    | true =>
      rw [s.chip.valueLog_eq hl]
      rfl
    | false =>
      rw [← hwrites, Chip.draftLog]
      simp
  · exact (congrArg (· - _) (hlog.2.trans (congrArg (· - _) hreserved))).trans (reservation_ended _ _ _ _ _ _)

theorem State.held_some {r : TapReport} (h : s.chip.offers (.tapLink sub) = true) (hf : s.chip.toe.flight sub = some f)
    (he : f.ending = some .held) (hl : s.chip.clu.copy = some l) (hr : f.reply = some r) :
    (let d := s.chip.tapDraft s.mem sub
    ∃ t w2, exec .endingHeld s = .next t ∧ s.Ended t sub f w2
      { s.chip.toe.landed sub with held := insertNat sub (s.chip.toe.landed sub).held } .idle
      (d.replied (s.chip.levelLeft d f.levelReserved r.level) r s.chip.stamp).status
      (s.chip.valueWrites l sub d f.levelReserved r.level (r.resultFor f) r.gate)
      (s.chip.levelWrites l sub d f.levelReserved r.level (r.resultFor f)).2
      (s.chip.clu.reserved - (if f.levelReserved then 1 else 0) - if d.delivers r.gate then 1 else 0)) := by
  obtain ⟨t, ht, hx⟩ := (State.takes_some h hf hr).held he
  have hmem : sub ∈ t.chip.toe.held := by rw [hx.toe]; exact mem_insertNat _ _
  obtain ⟨hcopy, hreserved⟩ := Chip.levelClu_released (sub := sub) hl f.levelReserved r.level (r.resultFor f)
    (s.chip.tapDraft s.mem sub) ((s.chip.tapDraft s.mem sub).delivers r.gate)
  refine ⟨t, _, ht, hx.ended f (Toe.attemptsUsed_of_held hmem _ _) (Chip.replied_writes hl r _) hcopy ?_⟩
  exact (congrArg (· - _) hreserved).trans (reservation_ended _ _ 0 _ _ _)

theorem State.returned_some {r : TapReport} (h : s.chip.offers (.tapLink sub) = true)
    (hf : s.chip.toe.flight sub = some f) (he : f.ending = some .returned) (hl : s.chip.clu.copy = some l)
    (hr : f.reply = some r) :
    (let d := s.chip.tapDraft s.mem sub
    let toe := (s.chip.toe.landed sub).joinHead f.returnEntry
    ∃ t w2, exec .endingReturned s = .next t ∧ s.Ended t sub f w2 toe .idle
      (d.replied (s.chip.levelLeft d f.levelReserved r.level) r s.chip.stamp).status
      (s.chip.valueWrites l sub d f.levelReserved r.level (r.resultFor f) r.gate ++
        s.chip.displacedWrite s.mem (s.chip.toe.landed sub) toe)
      (s.chip.levelWrites l sub d f.levelReserved r.level (r.resultFor f)).2
      (s.chip.clu.reserved - (if f.levelReserved then 1 else 0) - if d.delivers r.gate then 1 else 0)) := by
  obtain ⟨t, ht, hx⟩ := (State.takes_some h hf hr).returned he
  have hmem : f.returnEntry ∈ t.chip.toe.queue := by rw [hx.toe]; exact Toe.joinHead_mem _ _
  obtain ⟨hcopy, hreserved⟩ := Chip.levelClu_released (sub := sub) hl f.levelReserved r.level (r.resultFor f)
    (s.chip.tapDraft s.mem sub) ((s.chip.tapDraft s.mem sub).delivers r.gate)
  refine ⟨t, _, ht, hx.ended f (Toe.attemptsUsed_of_queue hmem (Toe.flight_subscriber hf) _ _)
    (congrArg (· ++ _) (Chip.replied_writes hl r _)) hcopy ?_⟩
  exact (congrArg (· - _) hreserved).trans (reservation_ended _ _ 0 _ _ _)

/-! ### The completions that take values (R98, R99) -/

/-- The log copy after a level is taken, by the record appended. -/
theorem Chip.levelWrites_copy (c : Chip) (d : TapDraft) (reserved : Bool) (level result : BitVec 2) :
    (c.levelWrites l sub d reserved level result).2 = if c.appendsLevel d reserved level then
      l.appended (levelRecord c.stamp sub d.status.level level result) else l := by
  unfold Chip.levelWrites
  split <;> rfl

theorem State.unconfirmed_none (h : s.chip.offers (.tapLink sub) = true) (hf : s.chip.toe.flight sub = some f)
    (he : f.ending = some .unconfirmed) (hl : s.chip.clu.copy = some l) (hr : f.reply = none) :
    (let d := s.chip.tapDraft s.mem sub
    let level := s.chip.levelLeft d f.levelReserved f.level
    ∃ t w2, exec .endingUnconfirmed s = .next t ∧ s.Ended t sub f w2
      ((s.chip.toe.landed sub).rechecked f (d.desired != level || (d.demand != 0) != f.gate)) .idle
      { (d.took level f.gate s.chip.stamp).status with result := 2 }
      (s.chip.valueWrites l sub d f.levelReserved f.level 2 f.gate)
      (s.chip.levelWrites l sub d f.levelReserved f.level 2).2
      (s.chip.clu.reserved - (if f.levelReserved then 1 else 0) - if d.delivers f.gate then 1 else 0)) := by
  obtain ⟨t, ht, hx⟩ := (State.takes_none h hf hr).unconfirmed he
  obtain ⟨hcopy, hreserved⟩ := Chip.levelClu_released (sub := sub) hl f.levelReserved f.level 2
    (s.chip.tapDraft s.mem sub) ((s.chip.tapDraft s.mem sub).delivers f.gate)
  have hvalues := (s.chip.atGrant (.tapLink sub)).takeValues_eq sub f.levelReserved f.level 2 f.gate (s.chip.tapDraft s.mem sub)
  dsimp only at hx
  rw [hvalues] at hx
  refine ⟨t, _, ht, hx.ended f rfl ?_ hcopy ((congrArg (· - _) hreserved).trans (reservation_ended _ _ 0 _ _ _))⟩
  rw [List.nil_append, Chip.draftLog_stamped sub _ ((s.chip.tapDraft s.mem sub).delivers f.gate) _ rfl rfl
    fun hd => by simp [TapDraft.took, hd]]
  exact congrArg (· ++ _) (s.chip.valueLog_eq hl sub f.levelReserved f.level 2 (s.chip.tapDraft s.mem sub))

theorem State.confirmed_some {r : TapReport} (h : s.chip.offers (.tapLink sub) = true)
    (hf : s.chip.toe.flight sub = some f) (he : f.ending = some .confirmed) (hl : s.chip.clu.copy = some l)
    (hr : f.reply = some r)
    (ht : r.level = (s.chip.tapDraft s.mem sub).status.level ∨ f.levelReserved = true ∨ 0 < s.chip.free) :
    (let d := s.chip.tapDraft s.mem sub
    let level := s.chip.levelLeft d f.levelReserved r.level
    ∃ t w2, exec .endingConfirmed s = .next t ∧ s.Ended t sub f w2
      ((s.chip.toe.landed sub).rechecked f (d.desired != level || (d.demand != 0) != r.gate)) .idle
      { (d.replied level r s.chip.stamp).status with result := 1 }
      (s.chip.valueWrites l sub d f.levelReserved r.level (r.resultFor f) r.gate)
      (s.chip.levelWrites l sub d f.levelReserved r.level (r.resultFor f)).2
      (s.chip.clu.reserved - (if f.levelReserved then 1 else 0) - if d.delivers r.gate then 1 else 0)) := by
  obtain ⟨t, ht, hx⟩ := (State.takes_some h hf hr).confirmed he (by simpa [Chip.takes, or_assoc] using ht)
  obtain ⟨hcopy, hreserved⟩ := Chip.levelClu_released (sub := sub) hl f.levelReserved r.level (r.resultFor f)
    (s.chip.tapDraft s.mem sub) ((s.chip.tapDraft s.mem sub).delivers r.gate)
  exact ⟨t, _, ht, hx.ended f rfl (Chip.replied_writes hl r _) hcopy
    ((congrArg (· - _) hreserved).trans (reservation_ended _ _ 0 _ _ _))⟩

end

/-! ### The statement -/

/-- What the w2 of a displaced tail entry shows (R97). -/
theorem State.displaced_write {s t : State} {m : Memory} {before : Toe} {q : QueueEntry} (hfull : 64 ≤ before.queue.length)
    (hq : before.queue.getLast? = some q) :
    ∃ w, s.chip.displacedWrite m before t.chip.toe = [(s.chip.recordAddr .subscribers q.subscriber 2, w)] ∧
      field w 4 3 = ((t.chip.toe.whereIs q.subscriber).getD .idle).code ∧
      field w 12 4 = t.chip.toe.attemptsUsed q.subscriber 0 := by
  have hnot : ¬before.queue.length < Config.tapQueueLimit := Nat.not_lt.2 hfull
  have hdisplaced : before.displaced = some q.subscriber := by
    rw [Toe.displaced, if_neg hnot, hq]
    rfl
  obtain ⟨-, -, -, -, -, -, hattempts, horder⟩ := t.chip.toe.shown_word q.subscriber .idle 0
    (s.chip.tapDraft m q.subscriber).status
  exact ⟨_, by rw [Chip.displacedWrite, hdisplaced]; rfl, horder, hattempts⟩

theorem Chip.displacedWrite_room (m : Memory) (before after : Toe) (c : Chip) (h : before.queue.length < 64) :
    c.displacedWrite m before after = [] := by
  have hdisplaced : before.displaced = none := if_pos h
  rw [Chip.displacedWrite, hdisplaced]

/-- What RETURNED does to the queue, and the w2 of the entry that it displaces (R97). -/
theorem State.Ended.returns {s t : State} {sub : Nat} {f : Flight} {w2 : Word} {y : TapStatus} {pre : List (Addr × Word)}
    {copy : LogCopy} {n : Nat} {before : Toe}
    (h : s.Ended t sub f w2 (before.joinHead f.returnEntry) .idle y
      (pre ++ s.chip.displacedWrite s.mem before (before.joinHead f.returnEntry)) copy n) (hs : f.subscriber = sub) :
    (let entry : QueueEntry := ⟨sub, decide (f.recheck = .reassert), f.sent⟩
    let last := (s.chip.recordAddr .subscribers sub 2, w2)
    (before.queue.length < 64 →
      t.chip.toe = { before with queue := entry :: before.queue } ∧ t.chip.runs (.tapLink sub) (pre ++ [last])) ∧
    (∀ q, 64 ≤ before.queue.length → before.queue.getLast? = some q →
      t.chip.toe = { before with
        queue := entry :: before.queue.dropLast, deferred := before.deferred ++ [⟨q.subscriber, q.reassert⟩] } ∧
      ∃ w2', t.chip.runs (.tapLink sub) (pre ++ [(s.chip.recordAddr .subscribers q.subscriber 2, w2'), last]) ∧
        field w2' 4 3 = ((t.chip.toe.whereIs q.subscriber).getD .idle).code ∧
        field w2' 12 4 = t.chip.toe.attemptsUsed q.subscriber 0)) := by
  obtain rfl := hs
  have hruns := h.runs
  refine ⟨fun hroom => ⟨h.toe.trans (Toe.joinHead_room _ _ hroom), ?_⟩, fun q hfull hq => ?_⟩
  · rwa [Chip.displacedWrite_room _ _ _ _ hroom, List.append_nil] at hruns
  · obtain ⟨w, hw, horder, hattempts⟩ := State.displaced_write (s := s) (t := t) (m := s.mem) hfull hq
    refine ⟨h.toe.trans (Toe.joinHead_full _ _ _ hfull hq), w, ?_, horder, hattempts⟩
    rwa [← h.toe, hw, List.append_assoc] at hruns

/-- A subscriber that RETURNED has put into the queue shows the attempts sent. -/
theorem State.Ended.returned_attempts {s t : State} {sub : Nat} {f : Flight} {w2 : Word} {toe : Toe} {rest : OrderState}
    {y : TapStatus} {pre : List (Addr × Word)} {copy : LogCopy} {n : Nat} (h : s.Ended t sub f w2 toe rest y pre copy n)
    (hland : ∀ x ∈ toe.flights, x.subscriber ≠ sub) (hhead : toe.queue.head? = some f.returnEntry) (hs : f.subscriber = sub) :
    field w2 12 4 = BitVec.ofNat 4 f.sent := by
  obtain ⟨-, hattempts⟩ := h.shows
  have hnone : toe.flight sub = none := List.find?_eq_none.2 fun x hx => by simpa using hland x hx
  have hfind : toe.queue.find? (fun q => q.subscriber = sub) = some f.returnEntry := by
    cases hq : toe.queue with
    | nil => rw [hq] at hhead; cases hhead
    | cons a l =>
      rw [hq] at hhead
      obtain rfl : a = f.returnEntry := Option.some.inj hhead
      exact List.find?_cons_of_pos (by simpa using hs)
  rw [hattempts, h.toe, Toe.attemptsUsed, hnone, hfind]

theorem Toe.joinHead_head (t : Toe) (q : QueueEntry) : (t.joinHead q).queue.head? = some q := by
  unfold Toe.joinHead
  split
  · rfl
  · split <;> rfl

/-- Settles O59: each ending by whether a reply waits; the clauses of the other endings ask nothing of it. -/
theorem endingsWriteTheirRecords : Obligations.EndingsWriteTheirRecords := by
  unfold Obligations.EndingsWriteTheirRecords
  intro s sub f l e i h hf he hl hi
  have hs := Toe.flight_subscriber hf
  have hland : ∀ x ∈ ((s.chip.toe.landed sub).joinHead f.returnEntry).flights, x.subscriber ≠ sub := by
    rw [Toe.joinHead_flights]
    exact s.chip.toe.landed_flights sub
  have hhead := (s.chip.toe.landed sub).joinHead_head f.returnEntry
  cases hr : f.reply with
  | none =>
    rcases hi with ⟨rfl, rfl⟩ | ⟨rfl, rfl⟩ | ⟨rfl, rfl⟩ | ⟨rfl, rfl⟩ | ⟨rfl, rfl⟩
    · obtain ⟨t, w2, ht, hx⟩ := State.failed_none h hf he hl hr
      refine ⟨t, w2, ht, hx.granted, fun _ _ => ⟨hx.toe, hx.values, hx.shows, hx.result, hx.runs, hx.copy, hx.reserved⟩,
        fun _ => nofun, fun _ => nofun, nofun, ?_, fun _ => nofun⟩
      rintro _ _ _ _ _ (⟨-, ⟨⟩, -⟩ | ⟨-, ⟨⟩, -⟩)
    · obtain ⟨t, w2, ht, hx⟩ := State.held_none h hf he hl hr
      refine ⟨t, w2, ht, hx.granted, fun _ => nofun,
        fun _ _ => ⟨hx.toe, hx.values, hx.shows, hx.result, hx.runs, hx.copy, hx.reserved⟩, fun _ => nofun, nofun, ?_,
        fun _ => nofun⟩
      rintro _ _ _ _ _ (⟨-, ⟨⟩, -⟩ | ⟨-, ⟨⟩, -⟩)
    · obtain ⟨t, w2, ht, hx⟩ := State.returned_none h hf he hl hr
      obtain ⟨hroom, hfull⟩ := State.Ended.returns (pre := []) hx hs
      refine ⟨t, w2, ht, hx.granted, fun _ => nofun, fun _ => nofun, fun _ _ => ⟨⟨hroom, hfull⟩, hx.values, hx.shows,
        hx.result, fun _ => hx.returned_attempts hland hhead hs, hx.copy, hx.reserved⟩, nofun, ?_, fun _ => nofun⟩
      rintro _ _ _ _ _ (⟨-, ⟨⟩, -⟩ | ⟨-, ⟨⟩, -⟩)
    · obtain ⟨t, w2, ht, hx⟩ := State.unconfirmed_none h hf he hl hr
      refine ⟨t, w2, ht, hx.granted, fun _ => nofun, fun _ => nofun, fun _ => nofun, nofun, ?_, fun _ => nofun⟩
      rintro _ _ _ _ _ (⟨-, -, rfl, rfl, rfl, rfl⟩ | ⟨⟨⟩, -⟩)
      obtain ⟨hlevel, hgate, hlow, hunset, hunlocked⟩ := hx.values
      exact ⟨hx.toe, hx.runs, by rw [hx.copy, Chip.levelWrites_copy], hx.reserved, hlevel, hgate, hlow, hunset, hunlocked,
        hx.shows, hx.result⟩
    · obtain ⟨t, w2, ht, hx⟩ := State.confirmed_none h hf he hl hr
      refine ⟨t, w2, ht, hx.granted, fun _ => nofun, fun _ => nofun, fun _ => nofun, nofun, ?_,
        fun _ _ => ⟨hx.toe, hx.values, hx.shows, hx.result, hx.runs, hx.copy, hx.reserved⟩⟩
      rintro _ _ _ _ _ (⟨-, ⟨⟩, -⟩ | ⟨⟨⟩, -⟩)
  | some r =>
    rcases hi with ⟨rfl, rfl⟩ | ⟨rfl, rfl⟩ | ⟨rfl, rfl⟩ | ⟨rfl, rfl⟩ | ⟨rfl, rfl⟩
    · obtain ⟨t, w2, ht, hx⟩ := State.failed_some h hf he hl hr
      have hruns := hx.runs
      refine ⟨t, w2, ht, hx.granted, nofun, nofun, nofun, ?_, ?_, nofun⟩
      · rintro _ ⟨⟩
        refine ⟨fun _ => ⟨hx.toe, hx.values, hx.shows, hx.result, ?_, hx.copy, hx.reserved⟩, nofun, nofun⟩
        split at hruns
        · rw [if_pos ‹_›]
          rwa [List.append_assoc] at hruns
        · rwa [if_neg ‹_›]
      · rintro _ _ _ _ _ (⟨⟨⟩, -⟩ | ⟨-, ⟨⟩, -⟩)
    · obtain ⟨t, w2, ht, hx⟩ := State.held_some h hf he hl hr
      refine ⟨t, w2, ht, hx.granted, nofun, nofun, nofun, ?_, ?_, nofun⟩
      · rintro _ ⟨⟩
        exact ⟨nofun, fun _ => ⟨hx.toe, hx.values, hx.shows, hx.result, hx.runs, hx.copy, hx.reserved⟩, nofun⟩
      · rintro _ _ _ _ _ (⟨⟨⟩, -⟩ | ⟨-, ⟨⟩, -⟩)
    · obtain ⟨t, w2, ht, hx⟩ := State.returned_some h hf he hl hr
      obtain ⟨hroom, hfull⟩ := hx.returns hs
      refine ⟨t, w2, ht, hx.granted, nofun, nofun, nofun, ?_, ?_, nofun⟩
      · rintro _ ⟨⟩
        exact ⟨nofun, nofun, fun _ => ⟨⟨hroom, hfull⟩, hx.values, hx.shows, hx.result,
          fun _ => hx.returned_attempts hland hhead hs, hx.copy, hx.reserved⟩⟩
      · rintro _ _ _ _ _ (⟨⟨⟩, -⟩ | ⟨-, ⟨⟩, -⟩)
    · obtain ⟨v, ws, k, hv⟩ := State.exists_takes h hf
      obtain ⟨t, ht, hx⟩ := hv.unconfirmed he
      refine ⟨t, 0, ht, hx.granted, nofun, nofun, nofun, fun _ _ => ⟨nofun, nofun, nofun⟩, ?_, nofun⟩
      rintro _ _ _ _ _ (⟨⟨⟩, -⟩ | ⟨-, ⟨⟩, -⟩)
    · by_cases htaken : r.level = (s.chip.tapDraft s.mem sub).status.level ∨ f.levelReserved = true ∨ 0 < s.chip.free
      · obtain ⟨t, w2, ht, hx⟩ := State.confirmed_some h hf he hl hr htaken
        refine ⟨t, w2, ht, hx.granted, nofun, nofun, nofun, fun _ _ => ⟨nofun, nofun, nofun⟩, ?_, nofun⟩
        rintro _ _ _ _ _ (⟨⟨⟩, -⟩ | ⟨⟨⟩, -, rfl, rfl, rfl, rfl, -⟩)
        obtain ⟨hlevel, hgate, hlow, hunset, hunlocked⟩ := hx.values
        exact ⟨hx.toe, hx.runs, by rw [hx.copy, Chip.levelWrites_copy], hx.reserved, hlevel, hgate, hlow, hunset, hunlocked,
          hx.shows, hx.result⟩
      · obtain ⟨t, ht, hx, -⟩ := (State.takes_some h hf hr).withdrawn he (by
          simpa only [Chip.takes, or_assoc, Bool.or_eq_true, decide_eq_true_eq, ← Bool.not_eq_true] using htaken)
        refine ⟨t, 0, ht, hx.granted, nofun, nofun, nofun, fun _ _ => ⟨nofun, nofun, nofun⟩, ?_, nofun⟩
        rintro _ _ _ _ _ (⟨⟨⟩, -⟩ | ⟨⟨⟩, -, rfl, -, -, -, hn⟩)
        exact absurd hn htaken

end Sys2Proof.Machine
end

section
/-! The send tenure (O35), body by body: the head of the queue that departs, is sent, blocks the queue or stays, and the
deferred member that takes its room. -/

namespace Sys2Proof.Machine

/-! ### The deferred member of lowest index (R85) -/

/-- Of a member and one more, the one of lower index. -/
def DeferredEntry.lower (best : Option DeferredEntry) (d : DeferredEntry) : Option DeferredEntry :=
  match best with
  | none => some d
  | some b => if d.subscriber < b.subscriber then some d else some b

theorem Toe.nextDeferred_eq (t : Toe) : t.nextDeferred = t.deferred.foldl DeferredEntry.lower none := rfl

theorem DeferredEntry.foldl_lower (l : List DeferredEntry) (b : DeferredEntry) :
    ∃ x, l.foldl DeferredEntry.lower (some b) = some x ∧ x ∈ b :: l ∧ ∀ y ∈ b :: l, x.subscriber ≤ y.subscriber := by
  induction l generalizing b with
  | nil => exact ⟨b, rfl, by simp, by simp⟩
  | cons d l ih =>
    rw [List.foldl_cons, DeferredEntry.lower]
    by_cases hlt : d.subscriber < b.subscriber
    · obtain ⟨x, hx, hmem, hle⟩ := ih d
      rw [if_pos hlt]
      refine ⟨x, hx, List.mem_cons_of_mem _ hmem, List.forall_mem_cons.2 ⟨?_, hle⟩⟩
      exact (hle d List.mem_cons_self).trans hlt.le
    · obtain ⟨x, hx, hmem, hle⟩ := ih b
      rw [if_neg hlt]
      obtain ⟨hb, hl⟩ := List.forall_mem_cons.1 hle
      refine ⟨x, hx, ?_, List.forall_mem_cons.2 ⟨hb, List.forall_mem_cons.2 ⟨hb.trans (Nat.not_lt.1 hlt), hl⟩⟩⟩
      rcases List.mem_cons.1 hmem with h | h
      · simp [h]
      · simp [h]

theorem Toe.nextDeferred_nil {t : Toe} (h : t.deferred = []) : t.nextDeferred = none := by
  rw [t.nextDeferred_eq, h]
  rfl

/-- A deferred set that is not empty has a member of lowest index. -/
theorem Toe.nextDeferred_spec {t : Toe} (h : t.deferred ≠ []) :
    ∃ x, t.nextDeferred = some x ∧ x ∈ t.deferred ∧ ∀ y ∈ t.deferred, x.subscriber ≤ y.subscriber := by
  rw [t.nextDeferred_eq]
  cases hd : t.deferred with
  | nil => exact absurd hd h
  | cons d l => exact DeferredEntry.foldl_lower l d

/-- A member below all others is the one of lowest index. -/
theorem Toe.nextDeferred_of_lowest {t : Toe} {x : DeferredEntry} (hx : x ∈ t.deferred)
    (hlow : ∀ y ∈ t.deferred, y = x ∨ x.subscriber < y.subscriber) : t.nextDeferred = some x := by
  obtain ⟨y, hy, hmem, hle⟩ := t.nextDeferred_spec (List.ne_nil_of_mem hx)
  rcases hlow y hmem with rfl | hlt
  · exact hy
  · exact absurd (hle x hx) (Nat.not_le.2 hlt)

theorem Toe.mem_of_nextDeferred {t : Toe} {x : DeferredEntry} (h : t.nextDeferred = some x) : x ∈ t.deferred := by
  obtain ⟨y, hy, hmem, -⟩ := t.nextDeferred_spec fun hnil => by rw [Toe.nextDeferred_nil hnil] at h; cases h
  rw [h] at hy
  obtain rfl := Option.some.inj hy
  exact hmem

/-! ### The head departs -/

/-- The collections once the head has left the queue, `rest` behind it (R85). -/
def Toe.departed (t : Toe) (rest : List QueueEntry) : Toe := Toe.moveDeferred { t with queue := rest }

/-- The w2 of the deferred member that joins. -/
def Chip.joinedWrite (m : Memory) (t : Toe) (rest : List QueueEntry) (c : Chip) : List (Addr × Word) :=
  match t.nextDeferred with
  | none => []
  | some d => [c.statusWrite d.subscriber .idle 0 (c.tapDraft m d.subscriber).status (t.departed rest)]

theorem Toe.nextDeferred_withQueue (t : Toe) (rest : List QueueEntry) :
    Toe.nextDeferred { t with queue := rest } = t.nextDeferred := rfl

@[simp] theorem Chip.departHead_atWork (m : Memory) (rest : List QueueEntry) (ws : List (Addr × Word)) (os : List Owed)
    (t : Toe) (k : Clu) (c : Chip) :
    (c.atWork ws os t k).departHead m rest = c.atWork (ws ++ c.joinedWrite m t rest) os (t.departed rest) k := by
  unfold Chip.departHead Chip.joinedWrite Toe.departed Toe.moveDeferred
  dsimp only [Chip.atWork_toe]
  rw [Toe.nextDeferred_withQueue]
  cases t.nextDeferred with
  | none => simp only [Chip.atWork_withToe, List.append_nil]
  | some d => simp only [Chip.atWork_withToe, Chip.writeMoved_atWork]

theorem Toe.departed_nil {t : Toe} {rest : List QueueEntry} (h : t.deferred = []) :
    t.departed rest = { t with queue := rest } := by
  rw [Toe.departed, Toe.moveDeferred, Toe.nextDeferred_withQueue, Toe.nextDeferred_nil h]

theorem Toe.departed_room {t : Toe} {rest : List QueueEntry} {x : DeferredEntry} (h : t.nextDeferred = some x)
    (hroom : rest.length < 64) : t.departed rest = { t with
      queue := rest ++ [⟨x.subscriber, x.reassert, 0⟩], deferred := t.deferred.erase x } := by
  rw [Toe.departed, Toe.moveDeferred, Toe.nextDeferred_withQueue, h]
  exact if_pos hroom

theorem Toe.departed_full {t : Toe} {rest : List QueueEntry} (hfull : ¬rest.length < 64) :
    t.departed rest = { t with queue := rest } := by
  rw [Toe.departed, Toe.moveDeferred, Toe.nextDeferred_withQueue]
  cases t.nextDeferred with
  | none => rfl
  | some x => exact if_neg hfull

/-- A departure from the queue leaves what is not the queue and the deferred set. -/
theorem Toe.departed_rest (t : Toe) (rest : List QueueEntry) : (t.departed rest).flights = t.flights ∧
    (t.departed rest).held = t.held ∧ (t.departed rest).tag = t.tag ∧ (t.departed rest).evals = t.evals ∧
      (t.departed rest).walk = t.walk := by
  by_cases hroom : rest.length < 64
  · cases hd : t.nextDeferred with
    | some x =>
      rw [Toe.departed_room hd hroom]
      exact ⟨rfl, rfl, rfl, rfl, rfl⟩
    | none =>
      have hnil : t.deferred = [] := by
        by_contra hne
        obtain ⟨x, hx, -⟩ := t.nextDeferred_spec hne
        rw [hd] at hx
        cases hx
      rw [Toe.departed_nil hnil]
      exact ⟨rfl, rfl, rfl, rfl, rfl⟩
  · rw [Toe.departed_full hroom]
    exact ⟨rfl, rfl, rfl, rfl, rfl⟩

/-! ### The bodies -/

/-- The record with which the order of a queue entry goes in flight (R87). -/
def Chip.flightOf (m : Memory) (q : QueueEntry) (d : TapDraft) (c : Chip) : Flight :=
  let w0 := c.recordWord m .subscribers q.subscriber 0
  { subscriber := q.subscriber
    tag := freeTag c.toe.flights 16 c.toe.tag
    level := d.desired
    gate := decide (d.demand ≠ 0)
    sent := q.kept + 1
    deadline := none
    oneWay := c.nodeIsOneWay (subNode w0)
    matched := false
    anyReply := false
    levelReserved := decide (d.desired ≠ d.status.level)
    recheck := .none
    reply := none
    ending := none
    workAt := c.tbu.mono
    tapAddress := subTapAddress w0
    tapPort := subTapPort w0
    node := field w0 24 5 }

/-- The collections with an order sent (R87). -/
def Toe.launched (t : Toe) (f : Flight) : Toe := { t with flights := t.flights ++ [f], tag := f.tag + 1 }

/-- The items of the charge log with one reservation more where `b` holds. -/
def Clu.withReservation (k : Clu) (b : Bool) : Clu := { k with reserved := if b then k.reserved + 1 else k.reserved }

theorem Chip.commitTap_eq (m : Memory) (sub : Nat) (rest : OrderState) (used : BitVec 4) (y : TapStatus) (c : Chip) :
    c.commitTap sub rest used { c.tapDraft m sub with status := y } =
      c.atWork [c.statusWrite sub rest used y c.toe] [] c.toe c.clu := by
  conv_lhs => rw [← c.atWork_nil]
  rw [Chip.commitTap_atWork]
  rfl

/-- The head leaves the queue and its w2 is written, with the held set as `held` gives it. -/
theorem Chip.departs_eq (m : Memory) (q : QueueEntry) (rest : List QueueEntry) (o : OrderState) (used : BitVec 4)
    (y : TapStatus) (held : List Nat → List Nat) (c : Chip) :
    Chip.commitTap q.subscriber o used { c.tapDraft m q.subscriber with status := y }
        { c.departHead m rest with
          toe := { (c.departHead m rest).toe with held := held (c.departHead m rest).toe.held } } =
      (let toe := { c.toe.departed rest with held := held (c.toe.departed rest).held }
      c.atWork (c.joinedWrite m c.toe rest ++ [c.statusWrite q.subscriber o used y toe]) [] toe c.clu) := by
  have hdepart := Chip.departHead_atWork m rest [] [] c.toe c.clu c
  rw [c.atWork_nil] at hdepart
  rw [hdepart]
  dsimp only [Chip.atWork_toe]
  rw [Chip.atWork_withToe, Chip.commitTap_atWork]
  rfl

theorem Chip.sendHead_eq (m : Memory) (q : QueueEntry) (rest : List QueueEntry) (c : Chip) :
    c.sendHead m q rest (c.tapDraft m q.subscriber) =
      (let d := c.tapDraft m q.subscriber
      let launched := c.toe.launched (c.flightOf m q d)
      let toe := launched.departed rest
      c.atWork (c.joinedWrite m launched rest ++ [c.statusWrite q.subscriber .idle 0 d.status toe])
        [.attempt q.subscriber] toe (c.clu.withReservation (decide (d.desired ≠ d.status.level)))) := by
  have hreserve : ∀ b : Bool, (if b then c.reserve else c) = c.atWork [] [] c.toe (c.clu.withReservation b) := fun b => by
    cases b with
    | false => exact c.atWork_nil.symm
    | true =>
      conv_lhs => rw [← c.atWork_nil]
      rfl
  have hlevel : ((c.tapDraft m q.subscriber).desired != (c.tapDraft m q.subscriber).status.level) =
      decide ((c.tapDraft m q.subscriber).desired ≠ (c.tapDraft m q.subscriber).status.level) := by
    rw [Bool.eq_iff_iff]
    simp
  unfold Chip.sendHead
  dsimp only
  rw [hreserve, hlevel, TapDraft.gateWanted_eq]
  simp only [Chip.atWork_withToe, Chip.departHead_atWork, Chip.commitTap_atWork, Chip.owe_atWork]
  rfl

/-! ### The decision on the head (R87, log 15) -/

section
variable {m : Memory} {q : QueueEntry} {rest : List QueueEntry} {c : Chip}

/-- The head is wanted: a change is needed, or re-assert is asked (R87). -/
def QueueEntry.wanted (q : QueueEntry) (d : TapDraft) : Prop :=
  d.desired ≠ d.status.level ∨ decide (d.demand ≠ 0) ≠ d.status.gate ∨ q.reassert = true

theorem QueueEntry.wanted_iff (q : QueueEntry) (d : TapDraft) :
    (!d.needsChange && !q.reassert) = true ↔ ¬q.wanted d := by
  rw [QueueEntry.wanted, ← d.needsChange_iff]
  simp

/-- A head out of use leaves (R87). -/
theorem Chip.sendBody_unused (hq : c.toe.queue = q :: rest)
    (hu : subInUse (c.recordWord m .subscribers q.subscriber 0) = false) :
    c.sendBody m = (let d := c.tapDraft m q.subscriber
      c.atWork (c.joinedWrite m c.toe rest ++
        [c.statusWrite q.subscriber .idle d.status.attempts d.status (c.toe.departed rest)]) [] (c.toe.departed rest)
        c.clu) := by
  rw [Chip.sendBody, hq]
  dsimp only
  rw [if_pos (by rw [hu]; rfl)]
  exact Chip.departs_eq m q rest .idle _ (c.tapDraft m q.subscriber).status id c

/-- A head whose node is out is HELD (R87). -/
theorem Chip.sendBody_out (hq : c.toe.queue = q :: rest)
    (hu : subInUse (c.recordWord m .subscribers q.subscriber 0) = true)
    (ho : c.nodeOut (subNode (c.recordWord m .subscribers q.subscriber 0)) = true) :
    c.sendBody m = (let d := c.tapDraft m q.subscriber
      let toe := { c.toe.departed rest with held := insertNat q.subscriber (c.toe.departed rest).held }
      c.atWork (c.joinedWrite m c.toe rest ++ [c.statusWrite q.subscriber .idle 0 d.status toe]) [] toe c.clu) := by
  rw [Chip.sendBody, hq]
  dsimp only
  rw [if_neg (by rw [hu]; decide), if_pos ho]
  exact Chip.departs_eq m q rest .idle 0 (c.tapDraft m q.subscriber).status (insertNat q.subscriber) c

/-- A head with nothing to change leaves with the result NO_CHANGE (R87). -/
theorem Chip.sendBody_unwanted (hq : c.toe.queue = q :: rest)
    (hu : subInUse (c.recordWord m .subscribers q.subscriber 0) = true)
    (ho : c.nodeOut (subNode (c.recordWord m .subscribers q.subscriber 0)) ≠ true)
    (hw : ¬q.wanted (c.tapDraft m q.subscriber)) :
    c.sendBody m = (let d := c.tapDraft m q.subscriber
      c.atWork (c.joinedWrite m c.toe rest ++
        [c.statusWrite q.subscriber .idle d.status.attempts { d.status with result := 3 } (c.toe.departed rest)]) []
        (c.toe.departed rest) c.clu) := by
  rw [Chip.sendBody, hq]
  dsimp only
  rw [if_neg (by rw [hu]; decide), if_neg ho, if_pos ((q.wanted_iff _).2 hw)]
  exact Chip.departs_eq m q rest .idle _ { (c.tapDraft m q.subscriber).status with result := 3 } id c

/-- A change of level blocks the queue while no slot is free (R88). -/
abbrev Chip.levelBlocked (d : TapDraft) (c : Chip) : Prop := d.desired ≠ d.status.level ∧ c.free = 0

/-- A head whose change of level finds no log space blocks the queue (R88). -/
theorem Chip.sendBody_blocked (hq : c.toe.queue = q :: rest)
    (hu : subInUse (c.recordWord m .subscribers q.subscriber 0) = true)
    (ho : c.nodeOut (subNode (c.recordWord m .subscribers q.subscriber 0)) ≠ true)
    (hw : q.wanted (c.tapDraft m q.subscriber)) (hb : c.levelBlocked (c.tapDraft m q.subscriber)) :
    c.sendBody m = (let toe := { c.toe with blocked := true }
      c.markStatus.atWork [c.statusWrite q.subscriber .idle 0 (c.tapDraft m q.subscriber).status toe] [] toe c.clu) := by
  rw [Chip.sendBody, hq]
  dsimp only
  rw [if_neg (by rw [hu]; decide), if_neg ho, if_neg fun h => (q.wanted_iff _).1 h hw, if_pos (by simpa using hb)]
  exact (congrArg (Chip.commitTap _ _ _ _) (congrArg Chip.markStatus (c.withToe_eq _))).trans
    (Chip.commitTap_atWork q.subscriber .idle 0 (c.tapDraft m q.subscriber) [] [] _ _ c.markStatus)

/-- The head is sent while sending is allowed (R87), and stays while it is not (log 15). -/
theorem Chip.sendBody_free (hq : c.toe.queue = q :: rest)
    (hu : subInUse (c.recordWord m .subscribers q.subscriber 0) = true)
    (ho : c.nodeOut (subNode (c.recordWord m .subscribers q.subscriber 0)) ≠ true)
    (hw : q.wanted (c.tapDraft m q.subscriber)) (hb : ¬c.levelBlocked (c.tapDraft m q.subscriber)) :
    (c.sendAllowed = true → c.sendBody m = c.sendHead m q rest (c.tapDraft m q.subscriber)) ∧
    (c.sendAllowed ≠ true → c.sendBody m =
      c.atWork [c.statusWrite q.subscriber .idle 0 (c.tapDraft m q.subscriber).status c.toe] [] c.toe c.clu) := by
  have hbody : c.sendBody m = if c.sendAllowed then c.sendHead m q rest (c.tapDraft m q.subscriber)
      else c.commitTap q.subscriber .idle 0 (c.tapDraft m q.subscriber) := by
    rw [Chip.sendBody, hq]
    dsimp only
    rw [if_neg (by rw [hu]; decide), if_neg ho, if_neg fun h => (q.wanted_iff _).1 h hw, if_neg (by simpa using hb)]
  rw [hbody]
  refine ⟨fun ha => if_pos ha, fun ha => (if_neg ha).trans ?_⟩
  exact Chip.commitTap_eq m q.subscriber .idle 0 (c.tapDraft m q.subscriber).status c

theorem Chip.sendAllowed_iff (hq : c.toe.queue = q :: rest) : c.sendAllowed = true ↔
    c.lcc.lifecycle = .running ∧ (c.fallback = false ∨ c.settings.freeze = false) ∧
      c.toe.flights.length < c.settings.window ∧ c.toe.blocked = false := by
  simp only [Chip.sendAllowed, Chip.frozen, hq, List.isEmpty_cons, Bool.not_false, Bool.and_true, Bool.and_eq_true,
    decide_eq_true_eq, Bool.not_eq_true', Bool.and_eq_false_iff, and_assoc]

end

end Sys2Proof.Machine
end

section
/-! The send tenure, granted, and its statement (O35). -/

namespace Sys2Proof.Machine

/-! ### The free tag (R87) -/

/-- The search for a tag passes over tags in use, and stops short of its fuel at one that is free. -/
theorem freeTag_spec (flights : List Flight) (fuel : Nat) (tag : BitVec 4) :
    ∃ k ≤ fuel, freeTag flights fuel tag = tag + BitVec.ofNat 4 k ∧
      (∀ n < k, ∃ g ∈ flights, g.tag = tag + BitVec.ofNat 4 n) ∧
      (k < fuel → ∀ g ∈ flights, g.tag ≠ freeTag flights fuel tag) := by
  induction fuel generalizing tag with
  | zero => exact ⟨0, le_rfl, by simp [freeTag], by simp, by simp⟩
  | succ fuel ih =>
    rw [freeTag]
    split
    next hused =>
      obtain ⟨k, hk, htag, hpassed, hfree⟩ := ih (tag + 1)
      have hnext : ∀ n, tag + 1 + BitVec.ofNat 4 n = tag + BitVec.ofNat 4 (n + 1) := fun n => by
        rw [Nat.add_comm, BitVec.ofNat_add, BitVec.add_assoc]
        rfl
      refine ⟨k + 1, Nat.succ_le_succ hk, htag.trans (hnext k), fun n hn => ?_, fun h => hfree (Nat.lt_of_succ_lt_succ h)⟩
      cases n with
      | zero => simpa using hused
      | succ n =>
        rw [← hnext]
        exact hpassed n (Nat.lt_of_succ_lt_succ hn)
    next hfree => exact ⟨0, Nat.zero_le _, by simp, by simp, fun _ => by simpa using hfree⟩

/-- Fewer than 16 orders in flight leave one of the 16 tags free. -/
theorem exists_unused_tag (flights : List Flight) (tag : BitVec 4) (h : flights.length < 16) :
    ∃ n < 16, ∀ g ∈ flights, g.tag ≠ tag + BitVec.ofNat 4 n := by
  by_contra hall
  push Not at hall
  have hinj : ∀ n ∈ List.range 16, ∀ m ∈ List.range 16, tag + BitVec.ofNat 4 n = tag + BitVec.ofNat 4 m → n = m := by
    intro n hn m hm heq
    have hnat := congrArg BitVec.toNat (BitVec.add_right_inj tag |>.1 heq)
    simp only [List.mem_range] at hn hm
    simpa [Nat.mod_eq_of_lt hn, Nat.mod_eq_of_lt hm] using hnat
  have hsub : (List.range 16).map (fun n => tag + BitVec.ofNat 4 n) ⊆ flights.map fun g => g.tag := by
    intro x hx
    obtain ⟨n, hn, rfl⟩ := List.mem_map.1 hx
    obtain ⟨g, hg, hgt⟩ := hall n (List.mem_range.1 hn)
    exact List.mem_map.2 ⟨g, hg, hgt⟩
  have hlen := ((List.nodup_range.map_on hinj).subperm hsub).length_le
  simp only [List.length_map, List.length_range] at hlen
  omega

/-- The tag that an order takes is free, and the first such from the one that the engine holds. -/
theorem freeTag_first (flights : List Flight) (tag : BitVec 4) (h : flights.length < 16) :
    (∀ g ∈ flights, g.tag ≠ freeTag flights 16 tag) ∧
      ∃ k : Nat, k < 16 ∧ freeTag flights 16 tag = tag + BitVec.ofNat 4 k ∧
        ∀ n < k, ∃ g ∈ flights, g.tag = tag + BitVec.ofNat 4 n := by
  obtain ⟨k, -, htag, hpassed, hfree⟩ := freeTag_spec flights 16 tag
  obtain ⟨n, hn, hunused⟩ := exists_unused_tag flights tag h
  have hk : k < 16 := by
    by_contra hge
    obtain ⟨g, hg, hgt⟩ := hpassed n (by omega)
    exact hunused g hg hgt
  exact ⟨hfree hk, k, hk, htag, hpassed⟩

/-! ### What the departure leaves to be seen -/

/-- A subscriber with no order in flight whose entry is the first of its in the queue is QUEUED, with the attempts kept. -/
theorem Toe.queued_of_find {t : Toe} {sub : Nat} {q : QueueEntry} (hf : ∀ g ∈ t.flights, g.subscriber ≠ sub)
    (hq : t.queue.find? (fun q => q.subscriber = sub) = some q) (rest : BitVec 4) :
    t.whereIs sub = some .queued ∧ t.attemptsUsed sub rest = BitVec.ofNat 4 q.kept := by
  have hflight : t.flight sub = none := List.find?_eq_none.2 fun g hg => by simpa using hf g hg
  have hany : ¬(t.flights.any fun f => decide (f.subscriber = sub)) = true := by simpa using hf
  have hqueue : (t.queue.any fun q => decide (q.subscriber = sub)) = true :=
    List.any_eq_true.2 ⟨q, List.mem_of_find?_eq_some hq, by simpa using List.find?_some hq⟩
  constructor
  · rw [Toe.whereIs, if_neg hany, if_pos hqueue]
  · rw [Toe.attemptsUsed, hflight, hq]

/-- The queue, the deferred set and the moved member's w2 after a departure. `sub` is the head's subscriber, which alone may
be in flight besides `flights`. -/
theorem Chip.departed_decides (m : Memory) (T : Toe) (rest : List QueueEntry) (sub : Nat) (flights : List Flight) (c : Chip)
    (hflights : ∀ g ∈ T.flights, g.subscriber = sub ∨ g ∈ flights) :
    (T.deferred = [] → (T.departed rest).queue = rest ∧ (T.departed rest).deferred = [] ∧ c.joinedWrite m T rest = []) ∧
    ∀ x ∈ T.deferred, (∀ y ∈ T.deferred, y = x ∨ x.subscriber < y.subscriber) → rest.length < 64 →
      (T.departed rest).queue = rest ++ [⟨x.subscriber, x.reassert, 0⟩] ∧
      (T.departed rest).deferred = T.deferred.erase x ∧
      ∃ w, c.joinedWrite m T rest = [(c.recordAddr .subscribers x.subscriber 2, w)] ∧
        keepsConfirmed (c.recordWord m .subscribers x.subscriber 2) w ∧
        field w 8 3 = field (c.recordWord m .subscribers x.subscriber 2) 8 3 ∧
        (x.subscriber ≠ sub → (∀ g ∈ flights, g.subscriber ≠ x.subscriber) → (∀ y ∈ rest, y.subscriber ≠ x.subscriber) →
          field w 4 3 = OrderState.queued.code ∧ field w 12 4 = 0) := by
  constructor
  · intro hnil
    refine ⟨?_, ?_, ?_⟩
    · rw [Toe.departed_nil hnil]
    · rw [Toe.departed_nil hnil]
      exact hnil
    · rw [Chip.joinedWrite, Toe.nextDeferred_nil hnil]
  · intro x hx hlow hroom
    have hnext := Toe.nextDeferred_of_lowest hx hlow
    have hdeparted := Toe.departed_room hnext hroom
    obtain ⟨hlevel, hgate, hresult, hsignal, hunset, hunlocked, hattempts, horder⟩ := (T.departed rest).shown_word
      x.subscriber .idle 0 (c.tapDraft m x.subscriber).status
    refine ⟨by rw [hdeparted], by rw [hdeparted], _, by rw [Chip.joinedWrite, hnext]; rfl,
      ⟨hlevel, hgate, hsignal, hunset, hunlocked⟩, hresult, fun hne hfly hrest => ?_⟩
    have hfind : (T.departed rest).queue.find? (fun q => q.subscriber = x.subscriber) =
        some ⟨x.subscriber, x.reassert, 0⟩ := by
      rw [hdeparted, List.find?_append, List.find?_eq_none.2 fun y hy => by simpa using hrest y hy]
      simp
    have hnone : ∀ g ∈ (T.departed rest).flights, g.subscriber ≠ x.subscriber := by
      rw [(T.departed_rest rest).1]
      intro g hg
      rcases hflights g hg with h | h
      · rw [h]
        exact hne.symm
      · exact hfly g h
    obtain ⟨hwhere, hused⟩ := Toe.queued_of_find hnone hfind 0
    exact ⟨horder.trans (congrArg (fun o => (Option.getD o .idle).code) hwhere), hattempts.trans hused⟩

/-! ### The tenure, granted -/

/-- A send tenure has been granted, the head's w2 the last of its writes: what it leaves. -/
structure State.Sends (s t : State) (sub : Nat) (joined : List (Addr × Word)) (w2 : Word) (result : BitVec 3)
    (used : BitVec 4) (toe : Toe) (reserved : Nat) : Prop where
  granted : State.granted [.toe, .clu] s t
  runs : t.chip.runs .send (joined ++ [(s.chip.recordAddr .subscribers sub 2, w2)])
  confirmed : keepsConfirmed (s.chip.recordWord s.mem .subscribers sub 2) w2
  result : field w2 8 3 = result
  order : field w2 4 3 = ((t.chip.toe.whereIs sub).getD .idle).code
  attempts : field w2 12 4 = t.chip.toe.attemptsUsed sub used
  toe : t.chip.toe = toe
  reserved : t.chip.clu.reserved = reserved

/-- The send tenure, granted, by its body's form. -/
theorem State.send_granted (s : State) (sub : Nat) (base : Chip) (joined : List (Addr × Word)) (os : List Owed)
    (result : BitVec 3) (used : BitVec 4) (toe : Toe) (k : Clu) (h : s.chip.offers .send = true)
    (hbase : base = s.chip.atGrant .send ∨ base = (s.chip.atGrant .send).markStatus)
    (hbody : (s.chip.atGrant .send).sendBody s.mem = base.atWork (joined ++ [s.chip.statusWrite sub .idle used
      { (s.chip.tapDraft s.mem sub).status with result := result } toe]) os toe k) (hk : k.low = s.chip.clu.low) :
    ∃ t w2, exec .sendTenure s = .next t ∧ s.Sends t sub joined w2 result used toe k.reserved ∧ (∀ o ∈ os, t.chip.owes o) ∧
      (base = (s.chip.atGrant .send).markStatus → t.chip.rpu.statusDirty = true) := by
  obtain ⟨t, ht, hg, -, hruns, howes, htoe, hclu, hmark⟩ := s.atWork_granted .send (fun _ j => j = .send)
    (fun m _ c => c.sendBody m) base _ os toe k h rfl (fun i hi => by rw [of_decide_eq_true hi]) hbase hbody hk
  obtain ⟨hlevel, hgate, hresult, hlow, hunset, hunlocked, hattempts, horder⟩ := t.chip.toe.shown_word sub .idle used
    { (s.chip.tapDraft s.mem sub).status with result := result }
  exact ⟨t, _, ht, ⟨hg, by rw [htoe]; exact hruns, ⟨hlevel, hgate, hlow, hunset, hunlocked⟩, hresult, horder, hattempts, htoe,
    (Clu.mk.inj hclu).2.1⟩, howes, hmark⟩

/-! ### The statement -/

/-- The attempts used of a subscriber in flight are those of its record (R80). -/
theorem Toe.attemptsUsed_of_member {t : Toe} {f : Flight} (hf : f ∈ t.flights) (a b : BitVec 4) :
    t.attemptsUsed f.subscriber a = t.attemptsUsed f.subscriber b := by
  have hfound : t.flight f.subscriber ≠ none := fun h => absurd (List.find?_eq_none.1 h f hf) (by simp)
  obtain ⟨g, hg⟩ := Option.ne_none_iff_exists'.1 hfound
  rw [Toe.attemptsUsed_of_flight hg, Toe.attemptsUsed_of_flight hg]

/-- An order sent for a subscriber that has none in flight shows its attempts. -/
theorem Toe.attemptsUsed_launched {t : Toe} {f : Flight} (rest : List QueueEntry)
    (h : ∀ g ∈ t.flights, g.subscriber ≠ f.subscriber) (a : BitVec 4) :
    ((t.launched f).departed rest).attemptsUsed f.subscriber a = BitVec.ofNat 4 f.sent := by
  refine Toe.attemptsUsed_of_flight ?_ a
  unfold Toe.flight
  rw [((t.launched f).departed_rest rest).1]
  show (t.flights ++ [f]).find? _ = some f
  rw [List.find?_append, List.find?_eq_none.2 fun g hg => by simpa using h g hg]
  simp

/-- What a departure leaves besides the queue and the deferred set, in a granted send tenure. -/
theorem State.Sends.departed {s t : State} {sub : Nat} {joined : List (Addr × Word)} {w2 : Word} {result : BitVec 3}
    {used : BitVec 4} {rest : List QueueEntry} (h : s.Sends t sub joined w2 result used (s.chip.toe.departed rest)
      s.chip.clu.reserved) : t.chip.toe.flights = s.chip.toe.flights ∧ t.chip.toe.tag = s.chip.toe.tag ∧
        t.chip.clu.reserved = s.chip.clu.reserved ∧ t.chip.toe.held = s.chip.toe.held := by
  obtain ⟨hflights, hheld, htag, -⟩ := s.chip.toe.departed_rest rest
  rw [h.toe]
  exact ⟨hflights, htag, h.reserved, hheld⟩

/-- Settles O35: the head out of use, of a node that is out, with nothing to change, blocked, sent or staying. -/
theorem sendTenureDecidesTheHead : Obligations.SendTenureDecidesTheHead := by
  unfold Obligations.SendTenureDecidesTheHead
  intro s q rest h hq
  have hleaves := Chip.departed_decides s.mem s.chip.toe rest q.subscriber s.chip.toe.flights s.chip fun _ hg => Or.inr hg
  by_cases hu : bit (s.chip.recordWord s.mem .subscribers q.subscriber 0) 31 = true
  case neg =>
    obtain ⟨t, w2, ht, hx, -⟩ := s.send_granted q.subscriber _ _ _ _ _ _ _ h (Or.inl rfl)
      (Chip.sendBody_unused (m := s.mem) (c := s.chip.atGrant .send) hq (Bool.not_eq_true _ ▸ hu)) rfl
    obtain ⟨hflights, htag, hreserved, hheld⟩ := hx.departed
    refine ⟨t, _, w2, ht, hx.granted, hx.runs, hx.confirmed, hx.result.trans (if_neg fun hn => hu hn.1).symm, hx.order,
      hx.attempts, fun _ => by rw [hx.toe]; exact hleaves, fun _ => ⟨hflights, htag, hreserved⟩, fun _ => hheld,
      fun hn => absurd hn hu, fun hn => absurd hn hu, fun hn => absurd hn hu, fun hn => absurd hn.1 hu⟩
  by_cases ho : s.chip.nodeOut (fieldNat (s.chip.recordWord s.mem .subscribers q.subscriber 0) 24 5) = true
  case pos =>
    obtain ⟨t, w2, ht, hx, -⟩ := s.send_granted q.subscriber _ _ _ _ _ _ _ h (Or.inl rfl)
      (Chip.sendBody_out (m := s.mem) (c := s.chip.atGrant .send) hq hu ho) rfl
    obtain ⟨hflights, hheld, htag, -⟩ := s.chip.toe.departed_rest rest
    have hmem : q.subscriber ∈ t.chip.toe.held := by rw [hx.toe]; exact mem_insertNat _ _
    refine ⟨t, _, w2, ht, hx.granted, hx.runs, hx.confirmed, hx.result.trans (if_neg fun hn => hn.2.1 ho).symm, hx.order,
      hx.attempts.trans (Toe.attemptsUsed_of_held hmem _ _), fun _ => by rw [hx.toe]; exact hleaves,
      fun _ => by rw [hx.toe]; exact ⟨hflights, htag, hx.reserved⟩, fun hn => absurd ho (hn.resolve_left fun hn => hn hu),
      fun _ _ => by rw [hx.toe]; exact congrArg _ hheld, fun _ hn => absurd ho hn, fun _ hn => absurd ho hn,
      fun hn => absurd ho hn.2.1⟩
  by_cases hw : q.wanted (s.chip.tapDraft s.mem q.subscriber)
  case neg =>
    obtain ⟨t, w2, ht, hx, -⟩ := s.send_granted q.subscriber _ _ _ _ _ _ _ h (Or.inl rfl)
      (Chip.sendBody_unwanted (m := s.mem) (c := s.chip.atGrant .send) hq hu ho hw) rfl
    obtain ⟨hflights, htag, hreserved, hheld⟩ := hx.departed
    refine ⟨t, _, w2, ht, hx.granted, hx.runs, hx.confirmed, hx.result.trans (if_pos ⟨hu, ho, hw⟩).symm, hx.order,
      hx.attempts, fun _ => by rw [hx.toe]; exact hleaves, fun _ => ⟨hflights, htag, hreserved⟩, fun _ => hheld,
      fun _ hn => absurd hn ho, fun _ _ hn => absurd hn hw, fun _ _ hn => absurd hn hw, fun ⟨_, _, hn, _⟩ => absurd hn hw⟩
  have hqueued : ∀ toe : Toe, toe.queue = q :: rest → ∀ a b, toe.attemptsUsed q.subscriber a =
      toe.attemptsUsed q.subscriber b := fun toe ht =>
    Toe.attemptsUsed_of_queue (q := q) (by rw [ht]; exact List.mem_cons_self) rfl
  by_cases hb : s.chip.levelBlocked (s.chip.tapDraft s.mem q.subscriber)
  case pos =>
    obtain ⟨t, w2, ht, hx, -, hmark⟩ := s.send_granted q.subscriber _ [] _ _ _ _ _ h (Or.inr rfl)
      (Chip.sendBody_blocked (m := s.mem) (c := s.chip.atGrant .send) hq hu ho hw hb) rfl
    refine ⟨t, [], w2, ht, hx.granted, hx.runs, hx.confirmed, hx.result.trans (if_neg fun hn => hn.2.2 hw).symm, hx.order,
      hx.attempts.trans (hqueued _ (by rw [hx.toe]; exact hq) _ _), ?_,
      fun _ => by rw [hx.toe]; exact ⟨rfl, rfl, hx.reserved⟩, fun _ => by rw [hx.toe]; rfl, fun _ hn => absurd hn ho, fun _ _ _ hn => absurd hb hn,
      fun _ _ _ _ => ⟨rfl, hx.toe, hmark rfl⟩, fun ⟨_, _, _, hn, _⟩ => absurd hb hn⟩
    rintro (hn | hn | hn | ⟨-, -, -, hn, -⟩)
    · exact absurd hu hn
    · exact absurd hn ho
    · exact absurd hw hn
    · exact absurd hb hn
  obtain ⟨hsent, hstays⟩ := Chip.sendBody_free (m := s.mem) (c := s.chip.atGrant .send) hq hu ho hw hb
  have hallowed := Chip.sendAllowed_iff (c := s.chip.atGrant .send) hq
  by_cases ha : (s.chip.atGrant .send).sendAllowed = true
  case neg =>
    obtain ⟨t, w2, ht, hx, -⟩ := s.send_granted q.subscriber _ [] _ _ _ _ _ h (Or.inl rfl) (hstays ha) rfl
    refine ⟨t, [], w2, ht, hx.granted, hx.runs, hx.confirmed, hx.result.trans (if_neg fun hn => hn.2.2 hw).symm, hx.order,
      hx.attempts.trans (hqueued _ (by rw [hx.toe]; exact hq) _ _), ?_,
      fun _ => by rw [hx.toe]; exact ⟨rfl, rfl, hx.reserved⟩, fun _ => by rw [hx.toe]; rfl, fun _ hn => absurd hn ho, fun _ _ _ _ _ => ⟨rfl, hx.toe⟩,
      fun _ _ _ hn => absurd hn hb, fun ⟨_, _, _, _, hn⟩ => absurd (hallowed.2 hn) ha⟩
    rintro (hn | hn | hn | ⟨-, -, -, -, hn⟩)
    · exact absurd hu hn
    · exact absurd hn ho
    · exact absurd hw hn
    · exact absurd (hallowed.2 hn) ha
  obtain ⟨t, w2, ht, hx, howes, -⟩ := s.send_granted q.subscriber _ _ _ _ _ _ _ h (Or.inl rfl)
    ((hsent ha).trans (Chip.sendHead_eq s.mem q rest (s.chip.atGrant .send))) rfl
  let f := s.chip.flightOf s.mem q (s.chip.tapDraft s.mem q.subscriber)
  have htoe : t.chip.toe = (s.chip.toe.launched f).departed rest := hx.toe
  obtain ⟨hflights, hheld, htag, -⟩ := (s.chip.toe.launched f).departed_rest rest
  have hmem : f ∈ t.chip.toe.flights := by
    rw [htoe, hflights]
    exact List.mem_append_right _ (List.mem_singleton.2 rfl)
  have hlaunched := Chip.departed_decides s.mem (s.chip.toe.launched f) rest q.subscriber s.chip.toe.flights s.chip
    fun g hg => (List.mem_append.1 hg).symm.imp_left fun h => congrArg Flight.subscriber (List.mem_singleton.1 h)
  have hgoes : _ ∧ _ ∧ _ ∧ _ ∧ _ := ⟨hu, ho, hw, hb, hallowed.1 ha⟩
  refine ⟨t, _, w2, ht, hx.granted, hx.runs, hx.confirmed, hx.result.trans (if_neg fun hn => hn.2.2 hw).symm, hx.order,
    hx.attempts.trans (Toe.attemptsUsed_of_member hmem _ _), fun _ => by rw [htoe]; exact hlaunched,
    fun hn => absurd hgoes hn, fun _ => by rw [htoe]; exact hheld, fun _ hn => absurd hn ho,
    fun _ _ _ _ hn => absurd (hallowed.1 ha) hn, fun _ _ _ hn => absurd hn hb, fun _ =>
      ⟨f.tag, ?_, by rw [htoe]; exact htag, freeTag_first _ _, fun hn => ?_, howes _ (List.mem_singleton.2 rfl), ?_⟩⟩
  · rw [htoe, hflights]
    rfl
  · exact hx.attempts.trans ((congrArg (Toe.attemptsUsed · q.subscriber _) htoe).trans
      (Toe.attemptsUsed_launched (f := f) rest hn _))
  · exact hx.reserved.trans (ite_congr (decide_eq_true_eq) (fun _ => rfl) fun _ => rfl)

end Sys2Proof.Machine
end

section
/-! The deadline of an order in flight (O33). -/

namespace Sys2Proof.Machine

/-! ### Events in a quiet part -/

/-- An event that happens in a quiet part: what it leaves differs from its effect in the requests and the arbiter alone. -/
theorem State.event_settled (s : State) (b : Bool) (f : Chip → Chip) (L : List Piece) (hb : b = true)
    (hq : s.chip.quiet = true) (hf : Chip.Same L s.chip (f s.chip))
    (hL : .resetLine ∉ L ∧ .portA ∉ L ∧ .portB ∉ L ∧ .arbiter ∉ L) :
    ∃ t, s.event b f = .next t ∧ State.happened L s t ∧ Chip.Same [.requests, .jobs, .arbiter] (f s.chip) t.chip := by
  obtain ⟨ht, hh⟩ := s.event_happened b f L hb hq hf hL
  exact ⟨_, ht, hh, (Chip.quiet_settles hq hf hL).1⟩

/-! ### What an expiry decides (R94) -/

/-- The tests of an expiry, in their order. -/
inductive Chip.Expires (f : Flight) (c : Chip) : Chip → Prop
  | unconfirmed (ho : f.oneWay = true) (hm : c.settings.minAttempts ≤ f.sent) :
      c.Expires f (c.decideEnding f.subscriber .unconfirmed)
  | failed (ho : f.oneWay = false) (hm : c.settings.maxAttempts ≤ f.sent) :
      c.Expires f (c.decideEnding f.subscriber .failed)
  | held (hu : ¬(f.oneWay = true ∧ c.settings.minAttempts ≤ f.sent))
      (hf : ¬(f.oneWay = false ∧ c.settings.maxAttempts ≤ f.sent)) (ho : c.nodeOut f.node.toNat = true) :
      c.Expires f (c.decideEnding f.subscriber .held)
  | returned (hu : ¬(f.oneWay = true ∧ c.settings.minAttempts ≤ f.sent))
      (hf : ¬(f.oneWay = false ∧ c.settings.maxAttempts ≤ f.sent)) (ho : ¬c.nodeOut f.node.toNat = true)
      (hs : c.lcc.lifecycle = .stopping ∨ c.frozen = true) : c.Expires f (c.decideEnding f.subscriber .returned)
  | retries (hu : ¬(f.oneWay = true ∧ c.settings.minAttempts ≤ f.sent))
      (hf : ¬(f.oneWay = false ∧ c.settings.maxAttempts ≤ f.sent)) (ho : ¬c.nodeOut f.node.toNat = true)
      (hs : ¬c.lcc.lifecycle = .stopping) (hz : ¬c.frozen = true) : c.Expires f (c.retry f)

theorem Chip.tapExpiry_expires (f : Flight) (c : Chip) : c.Expires f (c.tapExpiry f) := by
  have hun : (f.oneWay && decide (c.settings.minAttempts ≤ f.sent)) = true ↔
      f.oneWay = true ∧ c.settings.minAttempts ≤ f.sent := by simp
  have hfail : (!f.oneWay && decide (c.settings.maxAttempts ≤ f.sent)) = true ↔
      f.oneWay = false ∧ c.settings.maxAttempts ≤ f.sent := by simp
  unfold Chip.tapExpiry
  split
  next h => exact .unconfirmed (hun.1 h).1 (hun.1 h).2
  next hu =>
    rw [hun] at hu
    split
    next h => exact .failed (hfail.1 h).1 (hfail.1 h).2
    next hf =>
      rw [hfail] at hf
      split
      next ho => exact .held hu hf ho
      next ho =>
        split
        next hs => exact .returned hu hf ho (Or.inl hs)
        next hs =>
          split
          next hz => exact .returned hu hf ho (Or.inr hz)
          next hz => exact .retries hu hf ho hs hz

/-- An expiry changes the collections and the link. -/
theorem Chip.Expires.same {f : Flight} {c d : Chip} (h : c.Expires f d) : Chip.Same [.toe, .tapLink] c d := by
  have hlink : Chip.Same [.toe, .tapLink] c (c.retry f) := by
    intro x hx
    cases x <;> first | exact absurd (by decide) hx | rfl | exact ⟨rfl, rfl⟩
  cases h with
  | retries => exact hlink
  | _ => exact (c.same_withToe _).mono (by decide)

/-- The record with which the next attempt of an order goes out (R94). -/
def Chip.retried (f : Flight) (c : Chip) : Flight :=
  { f with sent := f.sent + 1, matched := false, deadline := some (c.tbu.mono + c.settings.tapTimeout) }

theorem Chip.flight_retry {f : Flight} {c : Chip} (hf : c.toe.flight f.subscriber = some f) :
    (c.retry f).toe.flight f.subscriber = some (c.retried f) :=
  Toe.flight_modifyFlight_same (fun x => { x with deadline := some (c.tbu.mono + c.settings.tapTimeout) })
    (Toe.flight_modifyFlight_same (fun x => { x with sent := x.sent + 1, matched := false }) hf fun _ => rfl) fun _ => rfl

/-- Settles O33: before its deadline a record waits; at it, the first of the tests that holds decides. -/
theorem tapDeadlineDecides : Obligations.TapDeadlineDecides := by
  unfold Obligations.TapDeadlineDecides
  intro s sub f hq hf
  have hdue : s.chip.tapDue sub = f.due s.chip.tbu.mono := by rw [Chip.tapDue, hf]
  constructor
  · intro hd
    have hnot : s.chip.tapDue sub = false := by rw [hdue, Flight.due, decide_eq_false hd, Bool.and_false]
    show s.event _ _ = _
    rw [State.event, if_neg (by simp [hnot])]
  · intro hd he
    obtain rfl := Toe.flight_subscriber hf
    have hexpires : s.chip.Expires f (s.chip.tapTimeout f.subscriber) := by
      rw [Chip.tapTimeout, hf]
      exact s.chip.tapExpiry_expires f
    obtain ⟨t, ht, hh, hsame⟩ := s.event_settled (s.chip.tapDue f.subscriber) (Chip.tapTimeout f.subscriber) _
      (by simp [hdue, Flight.due, he, hd]) hq hexpires.same (by decide)
    have hlink : t.chip.tapLink = (s.chip.tapTimeout f.subscriber).tapLink := hsame .tapLink (by decide)
    have htoe : t.chip.toe = (s.chip.tapTimeout f.subscriber).toe := hsame .toe (by decide)
    have hdecided : ∀ e, s.chip.tapTimeout f.subscriber = s.chip.decideEnding f.subscriber e →
        t.chip.toe.flight f.subscriber = some (f.decided e s.chip.tbu.mono) ∧ t.chip.tapLink = s.chip.tapLink := fun e h => by
      rw [htoe, hlink, h]
      exact ⟨s.chip.flight_decideEnding _ e f hf, rfl⟩
    generalize hd : s.chip.tapTimeout f.subscriber = d at hexpires
    cases hexpires with
    | unconfirmed ho hm =>
      obtain ⟨hflight, hl⟩ := hdecided _ hd
      exact ⟨t, _, ht, hh, hflight, fun _ => ⟨rfl, hl⟩, fun hn => absurd ho (by simp [hn.1]), fun hn => absurd ⟨ho, hm⟩ hn,
        fun hn => absurd ⟨ho, hm⟩ hn, fun hn => absurd ⟨ho, hm⟩ hn⟩
    | failed ho hm =>
      obtain ⟨hflight, hl⟩ := hdecided _ hd
      exact ⟨t, _, ht, hh, hflight, fun hn => absurd ho (by simp [hn.1]), fun _ => ⟨rfl, hl⟩,
        fun _ hn => absurd ⟨ho, hm⟩ hn, fun _ hn => absurd ⟨ho, hm⟩ hn, fun _ hn => absurd ⟨ho, hm⟩ hn⟩
    | held hu hfa ho =>
      obtain ⟨hflight, hl⟩ := hdecided _ hd
      exact ⟨t, _, ht, hh, hflight, fun hn => absurd hn hu, fun hn => absurd hn hfa, fun _ _ _ => ⟨rfl, hl⟩,
        fun _ _ hn => absurd ho hn, fun _ _ hn => absurd ho hn⟩
    | returned hu hfa ho hs =>
      obtain ⟨hflight, hl⟩ := hdecided _ hd
      exact ⟨t, _, ht, hh, hflight, fun hn => absurd hn hu, fun hn => absurd hn hfa, fun _ _ hn => absurd hn ho,
        fun _ _ _ _ => ⟨rfl, hl⟩, fun _ _ _ hn hz => absurd hs (not_or.2 ⟨hn, hz⟩)⟩
    | retries hu hfa ho hs hz =>
      refine ⟨t, s.chip.retried f, ht, hh, ?_, fun hn => absurd hn hu, fun hn => absurd hn hfa, fun _ _ hn => absurd hn ho,
        fun _ _ _ hn => absurd hn (not_or.2 ⟨hs, hz⟩), fun _ _ _ _ _ => ⟨rfl, ?_⟩⟩
      · rw [htoe, hd]
        exact Chip.flight_retry hf
      · rw [hlink, hd]
        rfl

end Sys2Proof.Machine
end

section
/-! The tap link's receiver (R176) and the replies that reach their records (O32). -/

namespace Sys2Proof.Machine

/-! ### Bytes on the tap link -/

/-- A byte on a receiver that is not late: it is hunted for or collected. -/
theorem Chip.tapByte_on_time (m : Memory) (b : LineByte) (c : Chip) (h : c.tapLink.receiver.late c.tbu.mono = false) :
    c.tapByte m b =
      (match (if c.tapLink.receiver.got.isEmpty then Receiver.hunt 0xD2 c.tbu.mono b
          else c.tapLink.receiver.collect 7 c.tbu.mono b) with
        | (r, .nothing) => c.withTapReceiver r
        | (r, .dropped) => (c.withTapReceiver r).count .tapLineErrors
        | (r, .frame bytes) => (c.withTapReceiver r).tapFrameIn m bytes) := by
  unfold Chip.tapByte
  rw [h]
  dsimp only [Bool.false_eq_true, if_false]
  simp only [Bool.false_eq_true, if_false]
  generalize (if c.tapLink.receiver.got.isEmpty = true then Receiver.hunt 0xD2 c.tbu.mono b
    else c.tapLink.receiver.collect 7 c.tbu.mono b) = x
  obtain ⟨r, x⟩ := x
  cases x <;> rfl

/-- The tap link's receiver has taken these bytes of a frame in this unit; with none it hunts. -/
def Chip.tapCollecting (got : List Byte) (c : Chip) : Chip := c.withTapReceiver ⟨got, c.tbu.mono⟩

theorem Chip.tapByte_hunting (m : Memory) (b : LineByte) (c : Chip) (h : c.tapLink.receiver.got = []) :
    c.tapByte m b = (match Receiver.hunt 0xD2 c.tbu.mono b with
      | (r, .nothing) => c.withTapReceiver r
      | (r, .dropped) => (c.withTapReceiver r).count .tapLineErrors
      | (r, .frame bytes) => (c.withTapReceiver r).tapFrameIn m bytes) := by
  rw [c.tapByte_on_time m _ (Receiver.late_hunting _ _ h), h]
  rfl

theorem Chip.tapByte_collecting (m : Memory) (got : List Byte) (b : LineByte) (c : Chip) (hg : got ≠ []) :
    (c.tapCollecting got).tapByte m b = (match Receiver.collect ⟨got, c.tbu.mono⟩ 7 c.tbu.mono b with
      | (r, .nothing) => c.withTapReceiver r
      | (r, .dropped) => (c.withTapReceiver r).count .tapLineErrors
      | (r, .frame bytes) => (c.withTapReceiver r).tapFrameIn m bytes) := by
  rw [Chip.tapByte_on_time m _ _ (Receiver.late_now got c.tbu.mono)]
  show (match (if got.isEmpty then _ else Receiver.collect ⟨got, c.tbu.mono⟩ 7 c.tbu.mono b) with
    | (r, .nothing) => _ | (r, .dropped) => _ | (r, .frame bytes) => _) = _
  rw [if_neg (by simpa using hg)]
  rfl

theorem Chip.tapByte_start (m : Memory) (c : Chip) (h : c.tapLink.receiver.got = []) :
    c.tapByte m (goodByte 0xD2) = c.tapCollecting [0xD2] :=
  c.tapByte_hunting m _ h

/-- A byte that begins no frame is discarded (R176). -/
theorem Chip.tapByte_discarded (m : Memory) (b : LineByte) (c : Chip) (h : c.tapLink.receiver.got = [])
    (hb : b.value ≠ 0xD2) : c.tapByte m b = c.tapCollecting [] := by
  rw [c.tapByte_hunting m b h, Receiver.hunt, if_neg hb]
  rfl

theorem Chip.tapByte_collects (m : Memory) (got : List Byte) (b : Byte) (c : Chip) (hg : got ≠ []) (h : got.length < 6) :
    (c.tapCollecting got).tapByte m (goodByte b) = c.tapCollecting (got ++ [b]) := by
  have hcollect : Receiver.collect ⟨got, c.tbu.mono⟩ 7 c.tbu.mono (goodByte b) =
      (⟨got ++ [b], c.tbu.mono⟩, .nothing) := by
    simp [Receiver.collect]
    omega
  rw [c.tapByte_collecting m got _ hg, hcollect]
  rfl

/-- The seventh byte completes a frame. -/
theorem Chip.tapByte_completes (m : Memory) (got : List Byte) (b : Byte) (c : Chip) (h : got.length = 6) :
    (c.tapCollecting got).tapByte m (goodByte b) = (c.tapCollecting []).tapFrameIn m (got ++ [b]) := by
  have hcollect : Receiver.collect ⟨got, c.tbu.mono⟩ 7 c.tbu.mono (goodByte b) =
      (⟨[], c.tbu.mono⟩, .frame (got ++ [b])) := by
    simp [Receiver.collect, h]
  rw [c.tapByte_collecting m got _ (List.ne_nil_of_length_pos (by omega)), hcollect]
  rfl

/-- A bad stop bit drops the frame (R176). -/
theorem Chip.tapByte_badStop (m : Memory) (got : List Byte) (b : Byte) (c : Chip) (hg : got ≠ []) :
    (c.tapCollecting got).tapByte m ⟨b, false⟩ = (c.tapCollecting []).count .tapLineErrors := by
  rw [c.tapByte_collecting m got _ hg]
  rfl

/-- The start of a frame and at most five bytes more are collected. -/
theorem Chip.foldl_tapByte_collects (m : Memory) (l : List Byte) (c : Chip) (h : c.tapLink.receiver.got = [])
    (hl : l.length ≤ 5) : ((0xD2 :: l).map goodByte).foldl (Chip.tapByte m) c = c.tapCollecting (0xD2 :: l) := by
  have key : ∀ (l got : List Byte), got ≠ [] → got.length + l.length ≤ 6 →
      (l.map goodByte).foldl (Chip.tapByte m) (c.tapCollecting got) = c.tapCollecting (got ++ l) := by
    intro l
    induction l with
    | nil => exact fun got _ _ => by rw [List.append_nil]; rfl
    | cons b l ih =>
      intro got hg hlen
      rw [List.length_cons] at hlen
      rw [List.map_cons, List.foldl_cons, c.tapByte_collects m got b hg (by omega), ih _ (by simp) (by simp; omega),
        List.append_assoc, List.singleton_append]
  rw [List.map_cons, List.foldl_cons, c.tapByte_start m h]
  exact key l [0xD2] (by simp) (by simp; omega)

/-- Seven bytes from the start byte on are a frame taken. -/
theorem Chip.foldl_tapByte_frame (m : Memory) (b1 b2 b3 b4 b5 b6 : Byte) (c : Chip) (h : c.tapLink.receiver.got = []) :
    ([0xD2, b1, b2, b3, b4, b5, b6].map goodByte).foldl (Chip.tapByte m) c =
      (c.tapCollecting []).tapFrameIn m [0xD2, b1, b2, b3, b4, b5, b6] := by
  have hsix := c.foldl_tapByte_collects m [b1, b2, b3, b4, b5] h (by simp)
  rw [show [0xD2, b1, b2, b3, b4, b5, b6].map goodByte = [0xD2, b1, b2, b3, b4, b5].map goodByte ++ [goodByte b6] from rfl,
    List.foldl_append, hsix]
  exact c.tapByte_completes m _ b6 rfl

theorem Chip.foldl_tapByte_discards (m : Memory) (l : List LineByte) (c : Chip) (h : c.tapLink.receiver.got = [])
    (hl : ∀ b ∈ l, b.value ≠ 0xD2) :
    l.foldl (Chip.tapByte m) c = c ∨ l.foldl (Chip.tapByte m) c = c.tapCollecting [] := by
  induction l generalizing c with
  | nil => exact Or.inl rfl
  | cons b l ih =>
    rw [List.foldl_cons, c.tapByte_discarded m b h (hl b List.mem_cons_self)]
    right
    rcases ih (c.tapCollecting []) rfl fun b hb => hl b (List.mem_cons_of_mem _ hb) with hd | hd <;> rw [hd]
    rfl

/-- A frame whose sum is wrong or whose gate or health is unlisted, and one with a bad stop bit, is dropped (R176). -/
theorem Chip.foldl_tapByte_bad (m : Memory) (bytes : List LineByte) (c : Chip) (h : c.tapLink.receiver.got = [])
    (hbad : (∃ b1 b2 b3 b4 b5 b6 : Byte, bytes = [0xD2, b1, b2, b3, b4, b5, b6].map goodByte ∧
        (0xD2 + b1 + b2 + b3 + b4 + b5 + b6 ≠ 0 ∨ 2 ≤ (b5.extractLsb' 2 2).toNat ∨ 2 ≤ (b5.extractLsb' 4 2).toNat)) ∨
      ∃ l b, l.length ≤ 5 ∧ bytes = (0xD2 :: l).map goodByte ++ [⟨b, false⟩]) :
    bytes.foldl (Chip.tapByte m) c = (c.tapCollecting []).count .tapLineErrors := by
  rcases hbad with ⟨b1, b2, b3, b4, b5, b6, rfl, hwrong⟩ | ⟨l, b, hl, rfl⟩
  · have hnone : parseTapReply [0xD2, b1, b2, b3, b4, b5, b6] = none := by
      refine if_neg fun ⟨hsum, hgate, hhealth⟩ => ?_
      rcases hwrong with hs | hg | hh
      · exact hs (by simpa [byteSum] using hsum)
      · exact absurd hgate (Nat.not_lt.2 hg)
      · exact absurd hhealth (Nat.not_lt.2 hh)
    rw [c.foldl_tapByte_frame m b1 b2 b3 b4 b5 b6 h, Chip.tapFrameIn, hnone]
  · rw [List.foldl_append, c.foldl_tapByte_collects m l h hl]
    exact c.tapByte_badStop m _ b (by simp)

/-! ### Tap reply frames -/

/-- A reply frame is read as it was made. -/
theorem tapReplyFrame_eq (r : TapReply) : ∃ b1 b2 b3 b4 b5 b6 : Byte,
    tapReplyFrame r = [0xD2, b1, b2, b3, b4, b5, b6].map goodByte ∧
      parseTapReply [0xD2, b1, b2, b3, b4, b5, b6] = some r := by
  obtain ⟨address, port, tag, level, gate, lowSignal⟩ := r
  have hhigh : ∀ (x : BitVec 4) (y : BitVec 2), (x.setWidth 8 ||| (y.setWidth 8 <<< 4)).extractLsb' 0 4 = x ∧
      (x.setWidth 8 ||| (y.setWidth 8 <<< 4)).extractLsb' 4 2 = y := by decide
  have htag : ∀ x : BitVec 4, (x.setWidth 8).extractLsb' 0 4 = x := by decide
  have hreport : ∀ (x : BitVec 2) (g h : Bool),
      (let b : Byte := x.setWidth 8 ||| (if g then 4 else 0) ||| (if h then 16 else 0)
      b.extractLsb' 0 2 = x ∧ (b.extractLsb' 2 2 == 1) = g ∧ (b.extractLsb' 4 2 == 1) = h ∧
        (b.extractLsb' 2 2).toNat < 2 ∧ (b.extractLsb' 4 2).toNat < 2) := by decide
  have haddress : (address.extractLsb' 16 4 ++ address.extractLsb' 8 8 ++ address.extractLsb' 0 8 : BitVec 20) =
      address := by
    rw [BitVec.extractLsb'_append_extractLsb'_eq_extractLsb' (by rfl),
      BitVec.extractLsb'_append_extractLsb'_eq_extractLsb' (by rfl)]
    exact BitVec.extractLsb'_eq_self
  obtain ⟨hb3, hport⟩ := hhigh (address.extractLsb' 16 4) port
  obtain ⟨hlevel, hgate, hlow, hgates, hhealths⟩ := hreport level gate lowSignal
  refine ⟨_, _, _, _, _, _, rfl, (if_pos ⟨by simp [byteSum], hgates, hhealths⟩).trans ?_⟩
  rw [hb3, hport, htag, hlevel, hgate, hlow, haddress]

/-! ### The reply taken (R90, R91) -/

theorem Toe.modifyFlight_modifyFlight (t : Toe) (n : Nat) (g h : Flight → Flight)
    (hg : ∀ x, (g x).subscriber = x.subscriber) :
    (t.modifyFlight n g).modifyFlight n h = t.modifyFlight n (h ∘ g) := by
  have hmap : ∀ x : Flight, (if (if x.subscriber = n then g x else x).subscriber = n
      then h (if x.subscriber = n then g x else x) else if x.subscriber = n then g x else x) =
        if x.subscriber = n then h (g x) else x := fun x => by
    by_cases hx : x.subscriber = n
    · rw [if_pos hx, if_pos ((hg x).trans hx), if_pos hx]
    · rw [if_neg hx, if_neg hx, if_neg hx]
  unfold Toe.modifyFlight
  simp only [List.map_map, Function.comp_def, hmap]

/-- The record with a reply that matches it (R90). -/
def Flight.heard (f : Flight) (r : TapReport) (now : Tick) : Flight :=
  { f with matched := true, anyReply := true, reply := some r, workAt := now }

/-- The record with a reply that matches it, its ending decided where the reply succeeds (R91). -/
def Chip.hears (m : Memory) (f : Flight) (r : TapReport) (c : Chip) (x : Flight) : Flight :=
  if c.replySucceeds m f r then { x.heard r c.tbu.mono with ending := some .confirmed, deadline := none }
  else x.heard r c.tbu.mono

theorem Chip.tapReply_stale (m : Memory) (r : TapReply) (c : Chip) (h : ∀ f ∈ c.toe.flights, f.matches r = false) :
    c.tapReply m r = c.count .staleTapReplies := by
  rw [Chip.tapReply, List.find?_eq_none.2 fun f hf => by simp [h f hf]]

theorem Chip.tapReply_matched (m : Memory) (r : TapReply) (f : Flight) (c : Chip)
    (h : c.toe.flights.find? (fun f => f.matches r) = some f) :
    c.tapReply m r = { c with toe := c.toe.modifyFlight f.subscriber (c.hears m f r.report) } := by
  rw [Chip.tapReply, h]
  unfold Chip.hears
  dsimp only
  cases c.replySucceeds m f r.report with
  | false => rfl
  | true =>
    exact congrArg (fun t => { c with toe := t }) (Toe.modifyFlight_modifyFlight c.toe f.subscriber
      (fun x => x.heard r.report c.tbu.mono) (fun x => x.decided .confirmed c.tbu.mono) fun _ => rfl)

/-- The word last written at an address: the running tenure's last write there, or what memory holds (log 25). -/
theorem Chip.peek_eq (m : Memory) (a : Addr) (c : Chip) : c.peek m a = match c.tau.running with
    | none => m.readWord a
    | some x => ((x.writes.reverse.find? fun w => w.1 = a).map fun w => w.2).getD (m.readWord a) := by
  unfold Chip.peek
  cases c.tau.running with
  | none => rfl
  | some x =>
    dsimp only
    cases x.writes.reverse.find? fun w => w.1 = a <;> rfl

theorem Chip.replySucceeds_iff (m : Memory) (f : Flight) (r : TapReport) (c : Chip) : c.replySucceeds m f r = true ↔
    r.level = f.level ∧ r.gate = f.gate ∧ c.settings.minAttempts ≤ f.sent ∧
      (f.levelReserved = true ∨ field (c.peek m (c.recordAddr .subscribers f.subscriber 2)) 0 2 = r.level ∨ 0 < c.free) := by
  have hlevel : ∀ w : Word, (tapStatusOf w).level = field w 0 2 := fun _ => rfl
  simp only [Chip.replySucceeds, Chip.levelTakable, hlevel, Bool.and_eq_true, Bool.or_eq_true, decide_eq_true_eq, and_assoc,
    or_assoc]

/-! ### Bytes in a quiet part -/

theorem Chip.same_tapReply_few (m : Memory) (r : TapReply) (c : Chip) : Chip.Same [.toe, .rpu] c (c.tapReply m r) := by
  cases h : c.toe.flights.find? fun f => f.matches r with
  | none =>
    rw [Chip.tapReply, h]
    exact (c.same_count _).mono (by decide)
  | some f =>
    rw [c.tapReply_matched m r f h]
    exact (c.same_withToe _).mono (by decide)

theorem Chip.same_tapByte_few (m : Memory) (b : LineByte) (c : Chip) :
    Chip.Same [.toe, .rpu, .tapLink] c (c.tapByte m b) := by
  have hframe : ∀ (l : List Byte) (d : Chip), Chip.Same [.toe, .rpu, .tapLink] d (d.tapFrameIn m l) := fun l d => by
    unfold Chip.tapFrameIn
    split
    · exact (d.same_tapReply_few m _).mono (by decide)
    · exact (d.same_count _).mono (by decide)
  have hlate : Chip.Same [.toe, .rpu, .tapLink] c (if c.tapLink.receiver.late c.tbu.mono = true then c.dropTap else c) :=
    Chip.Same.ite (c.same_dropTap.mono (by decide)) (Chip.Same.refl _ c)
  unfold Chip.tapByte
  dsimp only
  generalize (if c.tapLink.receiver.late c.tbu.mono = true then c.dropTap else c) = d at hlate
  have htaken : ∀ r, Chip.Same [.toe, .rpu, .tapLink] c (d.withTapReceiver r) :=
    fun r => hlate.then ((d.same_withTapReceiver r).mono (by decide))
  split
  · exact htaken _
  · exact (htaken _).then ((Chip.same_count _ _).mono (by decide))
  · exact (htaken _).then (hframe _ _)

theorem Chip.same_tapCollecting (got : List Byte) (c : Chip) : Chip.Same [.tapLink] c (c.tapCollecting got) :=
  c.same_withTapReceiver _

/-- Bytes on the tap link's receive line, in a quiet part: what they leave, when all has settled. -/
theorem State.tapReply_happens (s : State) (bytes : List LineByte) (L : List Piece) (d : Chip)
    (hq : s.chip.quiet = true) (hd : bytes.foldl (Chip.tapByte s.mem) s.chip = d) (hs : Chip.Same L s.chip d)
    (hL : .resetLine ∉ L ∧ .portA ∉ L ∧ .portB ∉ L ∧ .arbiter ∉ L := by decide) :
    ∃ t, exec (.tapReply bytes) s = .next t ∧ State.happened L s t ∧
      Chip.Same [.requests, .jobs, .arbiter] d t.chip := by
  subst hd
  exact s.event_settled true (fun c => bytes.foldl (Chip.tapByte s.mem) c) L rfl hq hs hL

/-- Bytes that count one error or one stale reply and leave the receiver hunting. -/
theorem State.tapReply_counted (s : State) (bytes : List LineByte) (k : Counter) (hq : s.chip.quiet = true)
    (hd : bytes.foldl (Chip.tapByte s.mem) s.chip = (s.chip.tapCollecting []).count k) :
    ∃ t, exec (.tapReply bytes) s = .next t ∧ State.happened [.rpu, .tapLink] s t ∧
      t.chip.tapLink.sent = s.chip.tapLink.sent ∧ t.chip.tapLink.receiver.got = [] ∧
      t.chip.rpu.counters = s.chip.rpu.counters.modify k.index (· + 1) := by
  have hs : Chip.Same [.rpu, .tapLink] s.chip ((s.chip.tapCollecting []).count k) :=
    ((s.chip.same_tapCollecting []).mono (by decide)).then ((Chip.same_count _ _).mono (by decide))
  obtain ⟨t, ht, hh, hsame⟩ := s.tapReply_happens bytes _ _ hq hd hs
  have hlink : t.chip.tapLink = ((s.chip.tapCollecting []).count k).tapLink := hsame .tapLink (by decide)
  refine ⟨t, ht, hh, ?_, ?_, ?_⟩
  · rw [hlink]
    rfl
  · rw [hlink]
    rfl
  · rw [hsame.rpu]
    rfl

/-- A good reply frame taken while hunting is matched against the orders in flight (R90). -/
theorem Chip.tapReplyFrame_taken (m : Memory) (r : TapReply) (c : Chip) (h : c.tapLink.receiver.got = []) :
    (tapReplyFrame r).foldl (Chip.tapByte m) c = (c.tapCollecting []).tapReply m r := by
  obtain ⟨b1, b2, b3, b4, b5, b6, hframe, hparse⟩ := tapReplyFrame_eq r
  rw [hframe, c.foldl_tapByte_frame m b1 b2 b3 b4 b5 b6 h, Chip.tapFrameIn, hparse]

/-- Settles O32: a reply matched, a stale one, and other bytes by what the receiver makes of them. -/
theorem tapReplyReachesItsRecord : Obligations.TapReplyReachesItsRecord := by
  unfold Obligations.TapReplyReachesItsRecord
  refine ⟨fun s bytes hq => ?_, fun s r f hq hg hf => ?_, fun s r hq hg hstale => ?_,
    fun s bytes hq hg => ⟨fun hbad => ?_, fun hother => ?_⟩⟩
  · obtain ⟨t, ht, hh, -⟩ := s.tapReply_happens bytes _ _ hq rfl
      (Chip.Same.foldl (Chip.tapByte s.mem) (fun c b => c.same_tapByte_few s.mem b) bytes s.chip)
    exact ⟨t, ht, hh⟩
  · have htaken := (s.chip.tapReplyFrame_taken s.mem r hg).trans
      (Chip.tapReply_matched s.mem r f (s.chip.tapCollecting []) hf)
    obtain ⟨t, ht, hh, hsame⟩ := s.tapReply_happens _ [.toe, .tapLink] _ hq htaken
      (((s.chip.same_tapCollecting []).mono (by decide)).then ((Chip.same_withToe _ _).mono (by decide)))
    have htoe : t.chip.toe = _ := hsame .toe (by decide)
    have hhears : (s.chip.tapCollecting []).hears s.mem f r.report = s.chip.hears s.mem f r.report := rfl
    have hsucceeds := s.chip.replySucceeds_iff s.mem f r.report
    rw [Chip.peek_eq] at hsucceeds
    refine ⟨t, ht, hh, fun hyes => ?_, fun hno => ?_⟩
    · have hfun : s.chip.hears s.mem f r.report = fun x => { x.heard r.report s.chip.tbu.mono with
          ending := some .confirmed, deadline := none } := funext fun _ => if_pos (hsucceeds.2 hyes)
      rw [htoe, hhears, hfun]
      rfl
    · have hfun : s.chip.hears s.mem f r.report = fun x => x.heard r.report s.chip.tbu.mono :=
        funext fun _ => if_neg fun h => hno (hsucceeds.1 h)
      rw [htoe, hhears, hfun]
      rfl
  · obtain ⟨t, ht, hh, -, -, hcount⟩ := s.tapReply_counted _ .staleTapReplies hq
      ((s.chip.tapReplyFrame_taken s.mem r hg).trans (Chip.tapReply_stale s.mem r (s.chip.tapCollecting []) hstale))
    exact ⟨t, ht, hh, hcount⟩
  · exact s.tapReply_counted bytes .tapLineErrors hq (s.chip.foldl_tapByte_bad s.mem bytes hg hbad)
  · rcases s.chip.foldl_tapByte_discards s.mem bytes hg hother with hd | hd
    · obtain ⟨t, ht, hh, hsame⟩ := s.tapReply_happens bytes [.tapLink] _ hq hd (Chip.Same.refl _ _)
      have hlink : t.chip.tapLink = s.chip.tapLink := hsame .tapLink (by decide)
      exact ⟨t, ht, hh, by rw [hlink], by rw [hlink]; exact hg⟩
    · obtain ⟨t, ht, hh, hsame⟩ := s.tapReply_happens bytes [.tapLink] _ hq hd (s.chip.same_tapCollecting [])
      have hlink : t.chip.tapLink = (s.chip.tapCollecting []).tapLink := hsame .tapLink (by decide)
      exact ⟨t, ht, hh, by rw [hlink]; rfl, by rw [hlink]; rfl⟩

end Sys2Proof.Machine
end

section
/-! What the operations on the collections of the TOE keep (R79, R85): the bound of the queue, a subscriber in one place,
the tags in flight. -/

namespace Sys2Proof.Machine

/-! ### Collections that hold no more than others -/

theorem Toe.count_members (t : Toe) (a : Nat) : t.members.count a =
    (t.queue.map fun q => q.subscriber).count a + (t.deferred.map fun d => d.subscriber).count a + t.held.count a +
      (t.flights.map fun f => f.subscriber).count a := by
  simp only [Toe.members, List.count_append]

/-- The collections `u` hold every subscriber at most as often as `t`, with the queue in its bound, no new request and the
same walk. -/
structure Toe.Holds (t u : Toe) : Prop where
  queue : t.queue.length ≤ 64 → u.queue.length ≤ 64
  members : ∀ a, u.members.count a ≤ t.members.count a
  evals : t.evals = [] → u.evals = []
  walk : u.walk = t.walk

/-- They moreover put no order in flight. -/
structure Toe.Keeps (t u : Toe) : Prop extends t.Holds u where
  tags : (u.flights.map fun f => f.tag).Sublist (t.flights.map fun f => f.tag)

/-- The collections `u` hold one subscriber perhaps once more than `t`, and nothing else does. -/
structure Toe.Adds (t : Toe) (sub : Nat) (u : Toe) : Prop where
  queue : t.queue.length ≤ 64 → u.queue.length ≤ 64
  members : ∀ a, u.members.count a ≤ t.members.count a + if a = sub then 1 else 0
  flights : u.flights = t.flights
  evals : u.evals = t.evals
  walk : u.walk = t.walk

theorem Toe.Keeps.refl (t : Toe) : t.Keeps t := ⟨⟨id, fun _ => le_rfl, id, rfl⟩, List.Sublist.refl _⟩

theorem Toe.Holds.trans {t u v : Toe} (h : t.Holds u) (g : u.Holds v) : t.Holds v :=
  ⟨g.queue ∘ h.queue, fun a => (g.members a).trans (h.members a), g.evals ∘ h.evals, g.walk.trans h.walk⟩

theorem Toe.Keeps.trans {t u v : Toe} (h : t.Keeps u) (g : u.Keeps v) : t.Keeps v :=
  ⟨h.toHolds.trans g.toHolds, g.tags.trans h.tags⟩

/-- A subscriber that has left a collection may join another. -/
theorem Toe.Keeps.adds {t u v : Toe} {sub : Nat} (h : t.Keeps u) (hleft : u.members.count sub < t.members.count sub)
    (g : u.Adds sub v) : t.Keeps v := by
  refine ⟨⟨g.queue ∘ h.queue, fun a => (g.members a).trans ?_, fun he => g.evals.trans (h.evals he),
    g.walk.trans h.walk⟩, ?_⟩
  · by_cases ha : a = sub
    · subst ha
      rw [if_pos rfl]
      exact hleft
    · rw [if_neg ha]
      exact h.members a
  · rw [g.flights]
    exact h.tags

theorem Toe.Adds.nodup {t u : Toe} {sub : Nat} (h : t.Adds sub u) (ht : t.members.Nodup) (hnot : sub ∉ t.members) :
    u.members.Nodup :=
  List.nodup_iff_count_le_one.2 fun a => (h.members a).trans <| by
    by_cases ha : a = sub
    · rw [if_pos ha, ha, List.count_eq_zero.2 hnot]
    · rw [if_neg ha]
      exact List.nodup_iff_count_le_one.1 ht a

/-- What joins is the subscriber. -/
theorem Toe.Adds.mem {t u : Toe} {sub a : Nat} (h : t.Adds sub u) (ha : a ∈ u.members) : a = sub ∨ a ∈ t.members := by
  have hpos := (List.count_pos_iff.2 ha).trans_le (h.members a)
  by_cases hs : a = sub
  · exact Or.inl hs
  · rw [if_neg hs] at hpos
    exact Or.inr (List.count_pos_iff.1 hpos)

/-! ### One collection changed -/

/-- The queue changed alone. -/
theorem Toe.adds_queue {t : Toe} {l : List QueueEntry} {sub : Nat} (hlen : t.queue.length ≤ 64 → l.length ≤ 64)
    (hcount : ∀ a, (l.map fun q => q.subscriber).count a ≤
      (t.queue.map fun q => q.subscriber).count a + if a = sub then 1 else 0) :
    t.Adds sub { t with queue := l } := by
  refine ⟨hlen, fun a => ?_, rfl, rfl, rfl⟩
  have := hcount a
  simp only [Toe.count_members]
  omega

theorem count_singleton_eq (a b : Nat) : [b].count a = if a = b then 1 else 0 := by
  rw [List.count_singleton]
  by_cases h : a = b
  · simp [h]
  · simp [h, Ne.symm h]

theorem Toe.adds_refl (t : Toe) (sub : Nat) : t.Adds sub t := ⟨id, fun _ => Nat.le_add_right _ _, rfl, rfl, rfl⟩

theorem Toe.adds_tailed (t : Toe) (sub : Nat) (b : Bool) : t.Adds sub (t.tailed sub b) := by
  unfold Toe.tailed
  split
  next hroom =>
    refine Toe.adds_queue (fun _ => by simp; omega) fun a => ?_
    rw [List.map_append, List.count_append, List.map_singleton, count_singleton_eq]
  next =>
    refine ⟨id, fun a => ?_, rfl, rfl, rfl⟩
    simp only [Toe.count_members, List.map_append, List.count_append, List.map_singleton, count_singleton_eq]
    omega

theorem count_insertNat (n a : Nat) (l : List Nat) : (insertNat n l).count a ≤ l.count a + if a = n then 1 else 0 := by
  induction l with
  | nil => simp [insertNat, count_singleton_eq]
  | cons k l ih =>
    unfold insertNat
    split
    · have := count_singleton_eq a n
      rw [List.count_cons (l := k :: l)]
      simp only [List.count_singleton] at this
      omega
    · split
      · exact Nat.le_add_right _ _
      · rw [List.count_cons, List.count_cons]
        omega

theorem Toe.adds_held (t : Toe) (sub : Nat) : t.Adds sub { t with held := insertNat sub t.held } := by
  refine ⟨id, fun a => ?_, rfl, rfl, rfl⟩
  have := count_insertNat sub a t.held
  simp only [Toe.count_members]
  omega

theorem Toe.adds_joinHead (t : Toe) (q : QueueEntry) : t.Adds q.subscriber (t.joinHead q) := by
  have hcons : ∀ (l : List QueueEntry) (a : Nat), ((q :: l).map fun q => q.subscriber).count a =
      (l.map fun q => q.subscriber).count a + if a = q.subscriber then 1 else 0 := fun l a => by
    rw [List.map_cons, List.count_cons, ← count_singleton_eq, List.count_singleton]
  unfold Toe.joinHead
  split
  next hroom => exact Toe.adds_queue (fun _ => hroom) fun a => (hcons _ a).le
  next hfull =>
    split
    next hnone =>
      have hnil : t.queue = [] := List.getLast?_eq_none_iff.1 hnone
      exact Toe.adds_queue (fun _ => by simp [hnil]) fun a => (hcons _ a).le
    next last hlast =>
      have hsplit : t.queue = t.queue.dropLast ++ [last] := (List.dropLast_append_getLast? last hlast).symm
      refine ⟨fun hlen => ?_, fun a => ?_, rfl, rfl, rfl⟩
      · show t.queue.dropLast.length + 1 ≤ 64
        rw [List.length_dropLast]
        omega
      · have hqueue : (t.queue.map fun q => q.subscriber).count a =
            (t.queue.dropLast.map fun q => q.subscriber).count a + [last.subscriber].count a := by
          conv_lhs => rw [hsplit]
          rw [List.map_append, List.count_append, List.map_singleton]
        simp only [Toe.count_members, hcons, List.map_append, List.count_append, List.map_singleton]
        omega

theorem Toe.adds_rechecked (t : Toe) (f : Flight) (needed : Bool) : t.Adds f.subscriber (t.rechecked f needed) := by
  unfold Toe.rechecked
  cases f.recheck with
  | none => exact t.adds_refl _
  | reassert => exact t.adds_tailed _ _
  | change =>
    cases needed with
    | true => exact t.adds_tailed _ _
    | false => exact t.adds_refl _

/-- Blocking the queue, or releasing it, moves nothing (R88). -/
theorem Toe.keeps_blocked (t : Toe) (b : Bool) : t.Keeps { t with blocked := b } :=
  ⟨⟨id, fun _ => le_rfl, id, rfl⟩, List.Sublist.refl _⟩

/-! ### The in-flight set -/

theorem Toe.keeps_modifyFlight (t : Toe) (n : Nat) (g : Flight → Flight) (hs : ∀ x, (g x).subscriber = x.subscriber)
    (ht : ∀ x, (g x).tag = x.tag) : t.Keeps (t.modifyFlight n g) := by
  have hsame : ∀ {α : Type} (p : Flight → α), (∀ x, p (g x) = p x) →
      (t.modifyFlight n g).flights.map p = t.flights.map p := fun p hp => by
    rw [Toe.modifyFlight, List.map_map]
    refine List.map_congr_left fun x _ => ?_
    show p (if x.subscriber = n then g x else x) = p x
    split
    · exact hp x
    · rfl
  refine ⟨⟨id, fun a => ?_, id, rfl⟩, ?_⟩
  · simp only [Toe.count_members, hsame _ hs]
    exact le_rfl
  · rw [hsame _ ht]

theorem Toe.keeps_landed (t : Toe) (sub : Nat) : t.Keeps (t.landed sub) := by
  have hsub : (t.landed sub).flights.Sublist t.flights := List.filter_sublist
  refine ⟨⟨id, fun a => ?_, id, rfl⟩, hsub.map _⟩
  have := (hsub.map fun f => f.subscriber).count_le a
  simp only [Toe.count_members]
  exact Nat.add_le_add_left this _

/-- A subscriber that was in flight is held once less when it has landed. -/
theorem Toe.landed_left {t : Toe} {f : Flight} (hf : f ∈ t.flights) :
    (t.landed f.subscriber).members.count f.subscriber < t.members.count f.subscriber := by
  have hnone : ((t.landed f.subscriber).flights.map fun f => f.subscriber).count f.subscriber = 0 :=
    List.count_eq_zero.2 fun h => by
      obtain ⟨x, hx, hs⟩ := List.mem_map.1 h
      exact t.landed_flights f.subscriber x hx hs
  have hsome : 0 < (t.flights.map fun f => f.subscriber).count f.subscriber :=
    List.count_pos_iff.2 (List.mem_map.2 ⟨f, hf, rfl⟩)
  rw [Toe.count_members, Toe.count_members, hnone]
  exact Nat.add_lt_add_left hsome _

/-- An order that has landed may put its subscriber into another collection. -/
theorem Toe.keeps_landed_adds {t u : Toe} {f : Flight} (hf : f ∈ t.flights) (h : (t.landed f.subscriber).Adds f.subscriber u) :
    t.Keeps u :=
  (t.keeps_landed f.subscriber).adds (Toe.landed_left hf) h

/-! ### The queue and the deferred set -/

/-- The member of lowest index moves from the deferred set to the queue (R85). -/
theorem Toe.keeps_moveDeferred (t : Toe) : t.Keeps t.moveDeferred := by
  unfold Toe.moveDeferred
  split
  next => exact Toe.Keeps.refl t
  next d hd =>
    split
    next hroom =>
      refine ⟨⟨fun _ => ?_, fun a => ?_, id, rfl⟩, List.Sublist.refl _⟩
      · show (t.queue ++ [_]).length ≤ 64
        rw [List.length_append]
        exact hroom
      · have hperm := ((List.perm_cons_erase (Toe.mem_of_nextDeferred hd)).map fun d => d.subscriber).count_eq a
        rw [List.map_cons, List.count_cons] at hperm
        have hone := count_singleton_eq a d.subscriber
        rw [List.count_singleton] at hone
        simp only [Toe.count_members, List.map_append, List.count_append, List.map_singleton, count_singleton_eq]
        omega
    next => exact Toe.Keeps.refl t

/-- The head leaves the queue. -/
theorem Toe.keeps_headless {t : Toe} {q : QueueEntry} {rest : List QueueEntry} (hq : t.queue = q :: rest) :
    t.Keeps { t with queue := rest } ∧
      (Toe.members { t with queue := rest }).count q.subscriber < t.members.count q.subscriber := by
  have hcount : ∀ a, t.members.count a = (Toe.members { t with queue := rest }).count a + [q.subscriber].count a :=
    fun a => by
      simp only [Toe.count_members, hq, List.map_cons, List.count_cons, List.count_nil]
      omega
  refine ⟨⟨⟨fun h => ?_, fun a => ?_, id, rfl⟩, List.Sublist.refl _⟩, ?_⟩
  · rw [hq] at h
    exact (Nat.le_succ _).trans h
  · rw [hcount a]
    exact Nat.le_add_right _ _
  · rw [hcount, count_singleton_eq, if_pos rfl]
    exact Nat.lt_succ_self _

theorem Toe.keeps_departed {t : Toe} {q : QueueEntry} {rest : List QueueEntry} (hq : t.queue = q :: rest) :
    t.Keeps (t.departed rest) ∧ (t.departed rest).members.count q.subscriber < t.members.count q.subscriber := by
  obtain ⟨hkeeps, hleft⟩ := Toe.keeps_headless hq
  have hmoved := Toe.keeps_moveDeferred { t with queue := rest }
  exact ⟨hkeeps.trans hmoved, (hmoved.members _).trans_lt hleft⟩

/-- The head goes in flight: its subscriber changes the collection. -/
theorem Toe.holds_launched {t : Toe} {q : QueueEntry} {rest : List QueueEntry} {f : Flight} (hq : t.queue = q :: rest)
    (hf : f.subscriber = q.subscriber) : t.Holds ((t.launched f).departed rest) := by
  refine Toe.Holds.trans (u := { t.launched f with queue := rest }) ⟨fun h => ?_, fun a => ?_, id, rfl⟩
    (Toe.keeps_moveDeferred _).toHolds
  · rw [hq] at h
    exact (Nat.le_succ _).trans h
  · simp only [Toe.count_members, Toe.launched, hq, List.map_append, List.map_cons, List.map_nil, List.count_append,
      List.count_cons, List.count_nil, hf]
    omega

/-! ### Requests -/

theorem Toe.mem_held_of_whereIs {t : Toe} {sub : Nat} (h : t.whereIs sub = some .held) : sub ∈ t.held := by
  unfold Toe.whereIs at h
  split at h
  · cases h
  · split at h
    · cases h
    · split at h
      next hc => simpa using hc
      next => split at h <;> cases h

theorem Toe.not_mem_of_whereIs {t : Toe} {sub : Nat} (h : t.whereIs sub = none) : sub ∉ t.members := by
  unfold Toe.whereIs at h
  split at h
  · cases h
  next hflights =>
    split at h
    · cases h
    next hqueue =>
      split at h
      · cases h
      next hheld =>
        split at h
        · cases h
        next hdeferred =>
          simp only [List.any_eq_true, decide_eq_true_eq, not_exists, not_and] at hflights hqueue hdeferred
          simpa [Toe.members, hheld] using ⟨hqueue, hdeferred, by simpa using hheld, hflights⟩

/-- The requests taken from the list. -/
theorem Toe.keeps_withEvals (t : Toe) (r : EvalRequest) (rest : List EvalRequest) (h : t.evals = r :: rest) :
    t.Keeps { t with evals := rest } :=
  ⟨⟨id, fun _ => le_rfl, fun he => absurd (h.symm.trans he) (List.cons_ne_nil _ _), rfl⟩, List.Sublist.refl _⟩

/-- A request moves a subscriber, marks it, or lets one join that no collection holds (R83, R84). -/
theorem Toe.evaluated_cases (t : Toe) (r : EvalRequest) (change : Bool) :
    t.Keeps (t.evaluated r change) ∨ t.whereIs r.subscriber = none ∧ t.Adds r.subscriber (t.evaluated r change) := by
  rcases t.whereIs_cases r.subscriber with h | h | h | h | h
  · refine Or.inr ⟨h, ?_⟩
    rw [Toe.evaluated_none h]
    cases change with
    | true => exact t.adds_tailed _ _
    | false => exact t.adds_refl _
  · refine Or.inl ?_
    rw [Toe.evaluated_queued h]
    refine ⟨⟨fun hlen => by simpa using hlen, fun a => ?_, id, rfl⟩, List.Sublist.refl _⟩
    have hmap : ∀ q : QueueEntry, (if q.subscriber = r.subscriber then { q with reassert := q.reassert || r.reassert }
        else q).subscriber = q.subscriber := fun q => by split <;> rfl
    simp only [Toe.count_members, List.map_map, Function.comp_def, hmap]
    exact le_rfl
  · refine Or.inl ?_
    rw [Toe.evaluated_deferred h]
    refine ⟨⟨id, fun a => ?_, id, rfl⟩, List.Sublist.refl _⟩
    have hmap : ∀ d : DeferredEntry, (if d.subscriber = r.subscriber then { d with reassert := d.reassert || r.reassert }
        else d).subscriber = d.subscriber := fun q => by split <;> rfl
    simp only [Toe.count_members, List.map_map, Function.comp_def, hmap]
    exact le_rfl
  · refine Or.inl ?_
    rw [Toe.evaluated_held h]
    split
    next =>
      have hmem : r.subscriber ∈ t.held := Toe.mem_held_of_whereIs h
      have hcount := List.count_erase_self (a := r.subscriber) (l := t.held)
      have hpos : 0 < t.held.count r.subscriber := List.count_pos_iff.2 hmem
      refine Toe.Keeps.adds (u := { t with held := t.held.erase r.subscriber })
        ⟨⟨id, fun a => ?_, id, rfl⟩, List.Sublist.refl _⟩ ?_ (Toe.adds_tailed _ _ _)
      · have := (List.erase_sublist (a := r.subscriber) (l := t.held)).count_le a
        simp only [Toe.count_members]
        omega
      · simp only [Toe.count_members]
        omega
    next => exact Toe.Keeps.refl t
  · refine Or.inl ?_
    rw [Toe.evaluated_inFlight h]
    refine Toe.keeps_modifyFlight t r.subscriber _ (fun _ => rfl) fun _ => rfl

end Sys2Proof.Machine
end

section
/-! The collections of the TOE under what its tenures and events decide (O57). -/

namespace Sys2Proof.Machine

/-! ### When the collections stay in order -/

section
variable {L : List Piece} {c d : Chip}

theorem Chip.collected_congr (hc : c.collected) (ht : d.toe = c.toe) (hs : d.settings = c.settings)
    (hl : d.lcc.lifecycle = c.lcc.lifecycle) (hp : d.lcc.phase = c.lcc.phase) : d.collected := by
  unfold Chip.collected at hc ⊢
  rw [ht, hs, hl, hp, Chip.working_congr hl]
  exact hc

/-- What leaves the TOE, the lifecycle and the settings leaves the collections in order. -/
theorem Chip.Same.collected (h : Chip.Same L c d) (hc : c.collected)
    (hL : .toe ∉ L ∧ .lcc ∉ L ∧ .settings ∉ L := by decide) : d.collected := by
  obtain ⟨htoe, hlcc, hset⟩ := hL
  obtain ⟨hl, hp, -⟩ := h.lccItems hlcc
  exact Chip.collected_congr hc (h .toe htoe) (h .settings hset) hl hp

theorem Toe.Holds.members_nil {t u : Toe} (h : t.Holds u) (ht : t.members = []) : u.members = [] :=
  List.eq_nil_iff_forall_not_mem.2 fun a ha => by
    have hcount := h.members a
    rw [ht, List.count_nil] at hcount
    exact absurd (List.count_pos_iff.2 ha) (Nat.not_lt.2 hcount)

theorem Toe.Holds.mem {t u : Toe} (h : t.Holds u) {a : Nat} (ha : a ∈ u.members) : a ∈ t.members :=
  List.count_pos_iff.1 ((List.count_pos_iff.2 ha).trans_le (h.members a))

theorem Toe.Holds.nodup {t u : Toe} (h : t.Holds u) (ht : t.members.Nodup) : u.members.Nodup :=
  List.nodup_iff_count_le_one.2 fun a => (h.members a).trans (List.nodup_iff_count_le_one.1 ht a)

/-- Collections that hold no more stay in order, with distinct tags and the window kept. -/
theorem Chip.collected.holds (hc : c.collected) (h : c.toe.Holds d.toe) (htags : (d.toe.flights.map fun f => f.tag).Nodup)
    (hwin : d.toe.flights.length ≤ c.settings.window) (hs : Chip.Same L c d)
    (hL : .lcc ∉ L ∧ .settings ∉ L := by decide) : d.collected := by
  obtain ⟨hqueue, hmembers, -, -, hfour, hevals, hload, hwalk⟩ := hc
  obtain ⟨hl, hp, -⟩ := hs.lccItems hL.1
  have hset : d.settings = c.settings := hs .settings hL.2
  refine ⟨h.queue hqueue, h.nodup hmembers, htags, by rwa [hset], by rwa [hset], fun hw => h.evals (hevals ?_),
    fun hl' hp' => h.members_nil (hload (hl ▸ hl') (hp ▸ hp')), fun w hw => ?_⟩
  · rw [← Chip.working_congr hl]
    exact hw
  · obtain ⟨hloading, hphase, hbelow⟩ := hwalk w (h.walk ▸ hw)
    exact ⟨hl.trans hloading, hp.trans hphase, fun m hm => hbelow m (h.mem hm)⟩

/-- Collections that hold no more and put nothing in flight stay in order. -/
theorem Chip.collected.keeps (hc : c.collected) (h : c.toe.Keeps d.toe) (hs : Chip.Same L c d)
    (hL : .lcc ∉ L ∧ .settings ∉ L := by decide) : d.collected := by
  have hparts := hc
  obtain ⟨-, -, htags, hwin, -⟩ := hparts
  have hlen := h.tags.length_le
  rw [List.length_map, List.length_map] at hlen
  exact Chip.collected.holds hc h.toHolds (htags.sublist h.tags) (hlen.trans hwin) hs hL

/-- A subscriber that no collection holds may join one, in RUNNING and STOPPING. -/
theorem Chip.collected.adds {sub : Nat} (hc : c.collected) (h : c.toe.Adds sub d.toe) (hnot : sub ∉ c.toe.members)
    (hw : c.working = true) (hs : Chip.Same L c d) (hL : .lcc ∉ L ∧ .settings ∉ L := by decide) : d.collected := by
  obtain ⟨hqueue, hmembers, htags, hwin, hfour, -, -, hwalk⟩ := hc
  obtain ⟨hl, -⟩ := hs.lccItems hL.1
  have hset : d.settings = c.settings := hs .settings hL.2
  have hloading : c.lcc.lifecycle ≠ .loading := fun hl => by simp [Chip.working, hl] at hw
  refine ⟨h.queue hqueue, h.nodup hmembers hnot, by rwa [h.flights], by rwa [h.flights, hset], by rwa [hset],
    fun hn => absurd hw (by simp [← Chip.working_congr hl, hn]), fun hl' => absurd (hl ▸ hl') hloading,
    fun w hw => absurd (hwalk w (h.walk ▸ hw)).1 hloading⟩

end

section
variable {c : Chip}

/-! ### Evaluation -/

theorem Chip.toe_retireRecord (m : Memory) (r : EvalRequest) (c : Chip)
    (hu : subInUse (c.recordWord m .subscribers r.subscriber 0) ≠ true) : (c.retireRecord m r).toe = c.toe := by
  unfold Chip.retireRecord
  rw [if_neg hu]
  dsimp only
  split
  · rfl
  · refine (Chip.same_writeRecord .subscribers r.subscriber 3 _ _ .toe (by decide)).trans ?_
    split
    · rfl
    · exact Chip.same_append _ _ _ .toe (by decide)

/-- A request decided keeps the collections in order: a subscriber joins where none holds it. -/
theorem Chip.collected_evaluateRecord (m : Memory) (r : EvalRequest) (hc : c.collected) (hw : c.working = true) :
    (c.evaluateRecord m r).collected := by
  have hsame := c.same_evaluateRecord m r
  have htoe : (c.evaluateRecord m r).toe = c.evaluatedToe m r c.toe :=
    congrArg Chip.toe (Chip.evaluateRecord_atWork m r c.toe c)
  unfold Chip.evaluatedToe at htoe
  split at htoe
  next =>
    rcases c.toe.evaluated_cases r ((c.tapDraft m r.subscriber).needsChange || r.reassert) with hkeeps | ⟨hnone, hadds⟩
    · exact Chip.collected.keeps hc (htoe ▸ hkeeps) hsame
    · exact Chip.collected.adds hc (htoe ▸ hadds) (Toe.not_mem_of_whereIs hnone) hw hsame
  next => exact Chip.collected.keeps hc (htoe ▸ Toe.Keeps.refl c.toe) hsame

theorem Chip.collected_retireRecord (m : Memory) (r : EvalRequest) (hc : c.collected) (hw : c.working = true) :
    (c.retireRecord m r).collected := by
  by_cases hu : subInUse (c.recordWord m .subscribers r.subscriber 0) = true
  · rw [Chip.retireRecord, if_pos hu]
    exact Chip.collected_evaluateRecord m r hc hw
  · exact Chip.collected.keeps hc (c.toe_retireRecord m r hu ▸ Toe.Keeps.refl c.toe) (c.same_retireRecord m r)

/-- Requests wait only in RUNNING and STOPPING (R82). -/
theorem Chip.collected.working_of_evals {r : EvalRequest} {rest : List EvalRequest} (hc : c.collected)
    (hr : c.toe.evals = r :: rest) : c.working = true := by
  obtain ⟨-, -, -, -, -, hevals, -⟩ := hc
  by_contra hw
  exact absurd (hr.symm.trans (hevals (Bool.eq_false_iff.2 hw))) (List.cons_ne_nil _ _)

theorem Chip.collected_evaluationBody (m : Memory) (hc : c.collected) : (c.evaluationBody m).collected := by
  cases hr : c.toe.evals with
  | nil =>
    rw [Chip.evaluationBody, hr]
    exact hc
  | cons r rest =>
    have hw := Chip.collected.working_of_evals hc hr
    have htaken : Chip.collected { c with toe := { c.toe with evals := rest } } :=
      Chip.collected.keeps hc (Toe.keeps_withEvals c.toe r rest hr) (c.same_withToe _)
    rw [Chip.evaluationBody, hr]
    dsimp only
    split
    · exact Chip.collected_retireRecord m r htaken hw
    · exact Chip.collected_evaluateRecord m r htaken hw

/-! ### Sending -/

/-- An order sent takes a free tag and a place in the window (R87, R89). -/
theorem Chip.collected_sendHead (m : Memory) (q : QueueEntry) (rest : List QueueEntry) (hc : c.collected)
    (hq : c.toe.queue = q :: rest) (ha : c.toe.flights.length < c.settings.window) :
    (c.sendHead m q rest (c.tapDraft m q.subscriber)).collected := by
  have hsame := c.same_sendHead m q rest (c.tapDraft m q.subscriber)
  have htoe := congrArg Chip.toe (Chip.sendHead_eq m q rest c)
  dsimp only [Chip.atWork_toe] at htoe
  have hparts := hc
  obtain ⟨-, -, htags, -, hfour, -⟩ := hparts
  obtain ⟨hflights, -⟩ := (c.toe.launched (c.flightOf m q (c.tapDraft m q.subscriber))).departed_rest rest
  obtain ⟨hfree, -⟩ := freeTag_first c.toe.flights c.toe.tag (ha.trans (by omega))
  refine Chip.collected.holds hc (htoe ▸ Toe.holds_launched hq rfl) ?_ ?_ hsame
  · rw [htoe, hflights, Toe.launched, List.map_append, List.map_singleton]
    refine htags.append (List.nodup_singleton _) (List.disjoint_singleton.2 fun hmem => ?_)
    obtain ⟨g, hg, hgt⟩ := List.mem_map.1 hmem
    exact hfree g hg hgt
  · rw [htoe, hflights, Toe.launched, List.length_append]
    exact ha

/-- The send tenure keeps the collections in order: its head departs, is sent, or stays. -/
theorem Chip.collected_sendBody (m : Memory) (hc : c.collected) : (c.sendBody m).collected := by
  have hsame := c.same_sendBody m
  have hkeeps : ∀ t, (c.sendBody m).toe = t → c.toe.Keeps t → (c.sendBody m).collected := fun t ht h =>
    Chip.collected.keeps hc (ht ▸ h) hsame
  cases hq : c.toe.queue with
  | nil =>
    rw [Chip.sendBody, hq]
    exact hc
  | cons q rest =>
    obtain ⟨hdeparted, hleft⟩ := Toe.keeps_departed hq
    cases hu : subInUse (c.recordWord m .subscribers q.subscriber 0) with
    | false => exact hkeeps _ (congrArg Chip.toe (Chip.sendBody_unused hq hu)) hdeparted
    | true =>
      by_cases ho : c.nodeOut (subNode (c.recordWord m .subscribers q.subscriber 0)) = true
      · exact hkeeps _ (congrArg Chip.toe (Chip.sendBody_out hq hu ho)) (hdeparted.adds hleft (Toe.adds_held _ _))
      by_cases hw : q.wanted (c.tapDraft m q.subscriber)
      · by_cases hb : c.levelBlocked (c.tapDraft m q.subscriber)
        · exact hkeeps _ (congrArg Chip.toe (Chip.sendBody_blocked hq hu ho hw hb)) (c.toe.keeps_blocked true)
        · obtain ⟨hsent, hstays⟩ := Chip.sendBody_free hq hu ho hw hb
          by_cases ha : c.sendAllowed = true
          · obtain ⟨-, -, hwindow, -⟩ := (Chip.sendAllowed_iff hq).1 ha
            rw [hsent ha]
            exact Chip.collected_sendHead m q rest hc hq hwindow
          · exact hkeeps _ (congrArg Chip.toe (hstays ha)) (Toe.Keeps.refl c.toe)
      · exact hkeeps _ (congrArg Chip.toe (Chip.sendBody_unwanted hq hu ho hw)) hdeparted

/-! ### Orders in flight -/

/-- What a tenure of a record in flight does to the collections. -/
theorem Chip.keeps_tapLinkBody (m : Memory) (sub : Nat) (c : Chip) : c.toe.Keeps (c.tapLinkBody m sub).toe := by
  cases hf : c.toe.flight sub with
  | none =>
    rw [Chip.tapLinkBody, hf]
    exact Toe.Keeps.refl c.toe
  | some f =>
    have hmem : f ∈ c.toe.flights := List.mem_of_find?_eq_some hf
    obtain ⟨hreply, hfailed, hheld, hreturned, hunconfirmed, hconfirmed⟩ := Chip.tapLinkBody_eq (m := m) hf
    obtain ⟨ws, k, -, hl⟩ := c.exists_takeReply f (c.tapDraft m f.subscriber)
    cases he : f.ending with
    | none =>
      rw [hreply he, Chip.replyBody_eq rfl hl]
      exact Toe.keeps_modifyFlight _ _ _ (fun _ => rfl) fun _ => rfl
    | some e =>
      cases e with
      | failed =>
        rw [hfailed he, Chip.failBody_eq rfl hl]
        exact Toe.keeps_landed_adds hmem (Toe.adds_rechecked _ _ _)
      | held =>
        rw [hheld he, Chip.heldBody_eq rfl hl]
        exact Toe.keeps_landed_adds hmem (Toe.adds_held _ _)
      | returned =>
        rw [hreturned he, Chip.returnedBody_eq rfl hl]
        exact Toe.keeps_landed_adds hmem (Toe.adds_joinHead _ f.returnEntry)
      | unconfirmed =>
        rw [hunconfirmed he, Chip.unconfirmedBody_eq rfl, Chip.finishOrder_eq (f := f) 2 [] c.toe (c := c) (by
          rw [Chip.takeValues_eq, hl, Chip.atWork_atWork]; rfl)]
        exact Toe.keeps_landed_adds hmem (Toe.adds_rechecked _ _ _)
      | confirmed =>
        rw [hconfirmed he]
        cases ht : (c.takeReply f (c.tapDraft m f.subscriber)).taken with
        | true =>
          rw [Chip.confirmedBody_taken rfl ht, Chip.finishOrder_eq (f := f) 1 [] c.toe hl]
          exact Toe.keeps_landed_adds hmem (Toe.adds_rechecked _ _ _)
        | false =>
          rw [Chip.confirmedBody_withdrawn rfl hl ht]
          exact Toe.keeps_modifyFlight _ _ _ (fun _ => rfl) fun _ => rfl

theorem Chip.collected_linkBody (m : Memory) (j : Job) (hc : c.collected) : (Chip.linkBody m j c).collected := by
  refine Chip.collected.keeps hc ?_ (c.same_linkBody m j)
  unfold Chip.linkBody
  split
  · exact c.keeps_tapLinkBody m _
  · exact Toe.Keeps.refl c.toe

end

end Sys2Proof.Machine
end

section
/-! The collections of the TOE under events, owed work and the load walk (O57). -/

namespace Sys2Proof.Machine

/-! ### Events of orders in flight -/

theorem Chip.keeps_startAttempt (f : Flight) (c : Chip) : c.toe.Keeps (c.startAttempt f).toe :=
  Toe.keeps_modifyFlight _ _ _ (fun _ => rfl) fun _ => rfl

theorem Chip.keeps_decideEnding (sub : Nat) (e : Ending) (c : Chip) : c.toe.Keeps (c.decideEnding sub e).toe :=
  Toe.keeps_modifyFlight _ _ _ (fun _ => rfl) fun _ => rfl

theorem Chip.keeps_firstAttempt (sub : Nat) (c : Chip) : c.toe.Keeps (c.firstAttempt sub).toe := by
  unfold Chip.firstAttempt
  split
  next => exact Toe.Keeps.refl c.toe
  next f hf =>
    split
    next => exact Toe.Keeps.refl c.toe
    next =>
      split
      next => exact c.keeps_decideEnding sub .held
      next =>
        split
        next =>
          exact (Toe.keeps_modifyFlight c.toe sub (fun x => { x with sent := x.sent - 1 }) (fun _ => rfl) fun _ => rfl).trans
            (Toe.keeps_modifyFlight _ _ _ (fun _ => rfl) fun _ => rfl)
        next => exact c.keeps_startAttempt f

theorem Chip.keeps_redeadline (sub : Nat) (c : Chip) : c.toe.Keeps (c.redeadline sub).toe := by
  refine Toe.keeps_modifyFlight c.toe sub _ (fun x => ?_) fun x => ?_
  · split <;> rfl
  · split <;> rfl

theorem Chip.Expires.keeps {f : Flight} {c d : Chip} (h : c.Expires f d) : c.toe.Keeps d.toe := by
  cases h with
  | retries =>
    exact (Toe.keeps_modifyFlight c.toe f.subscriber (fun x => { x with sent := x.sent + 1, matched := false })
      (fun _ => rfl) fun _ => rfl).trans (Toe.keeps_modifyFlight _ _ _ (fun _ => rfl) fun _ => rfl)
  | _ => exact c.keeps_decideEnding _ _

theorem Chip.keeps_tapTimeout (sub : Nat) (c : Chip) : c.toe.Keeps (c.tapTimeout sub).toe := by
  unfold Chip.tapTimeout
  split
  · exact (c.tapExpiry_expires _).keeps
  · exact Toe.Keeps.refl c.toe

theorem Chip.keeps_tapReply (m : Memory) (r : TapReply) (c : Chip) : c.toe.Keeps (c.tapReply m r).toe := by
  cases h : c.toe.flights.find? fun f => f.matches r with
  | none =>
    rw [Chip.tapReply, h]
    exact Toe.Keeps.refl c.toe
  | some f =>
    rw [c.tapReply_matched m r f h]
    exact Toe.keeps_modifyFlight _ _ _ (fun x => by unfold Chip.hears; split <;> rfl)
      fun x => by unfold Chip.hears; split <;> rfl

theorem Chip.keeps_tapByte (m : Memory) (b : LineByte) (c : Chip) : c.toe.Keeps (c.tapByte m b).toe := by
  have hframe : ∀ (l : List Byte) (r : Receiver) (d : Chip), d.toe.Keeps ((d.withTapReceiver r).tapFrameIn m l).toe :=
    fun l r d => by
      unfold Chip.tapFrameIn
      split
      · exact (d.withTapReceiver r).keeps_tapReply m _
      · exact Toe.Keeps.refl d.toe
  have hlate : (if c.tapLink.receiver.late c.tbu.mono = true then c.dropTap else c).toe = c.toe := by split <;> rfl
  unfold Chip.tapByte
  dsimp only
  generalize (if c.tapLink.receiver.late c.tbu.mono = true then c.dropTap else c) = d at hlate
  rw [← hlate]
  split
  · exact Toe.Keeps.refl d.toe
  · exact Toe.Keeps.refl d.toe
  · exact hframe _ _ d

theorem Chip.keeps_spaceNotice (c : Chip) : c.toe.Keeps c.spaceNotice.toe := by
  have hrelease : c.toe.Keeps c.releaseBlock.toe := by
    unfold Chip.releaseBlock
    split
    · exact c.toe.keeps_blocked false
    · exact Toe.Keeps.refl c.toe
  unfold Chip.spaceNotice
  split
  · exact hrelease
  · exact Toe.Keeps.refl c.toe

section
variable {c : Chip}

theorem Chip.collected_tapBytes (m : Memory) (bytes : List LineByte) (hc : c.collected) :
    (bytes.foldl (Chip.tapByte m) c).collected := by
  induction bytes generalizing c with
  | nil => exact hc
  | cons b bytes ih => exact ih (Chip.collected.keeps hc (c.keeps_tapByte m b) (c.same_tapByte_few m b))

/-! ### Requests and owed work -/

/-- A request is placed in RUNNING and STOPPING alone (R82). -/
theorem Chip.collected_request (r : EvalRequest) (hc : c.collected) : (c.request r).collected := by
  unfold Chip.request
  split
  next hw =>
    obtain ⟨hqueue, hmembers, htags, hwin, hfour, -, hload, hwalk⟩ := hc
    exact ⟨hqueue, hmembers, htags, hwin, hfour, fun hn => absurd hw (Bool.eq_false_iff.1 hn), hload, hwalk⟩
  next => exact hc

theorem Chip.collected_payOwed (o : Owed) (hc : c.collected) : (c.payOwed o).collected := by
  cases o with
  | request r => exact Chip.collected_request r hc
  | attempt n => exact Chip.collected.keeps hc (c.keeps_firstAttempt n) (c.same_firstAttempt n)
  | redeadline n => exact Chip.collected.keeps hc (c.keeps_redeadline n) (c.same_redeadline n)
  | space => exact Chip.collected.keeps hc c.keeps_spaceNotice c.same_spaceNotice
  | _ => exact (c.same_payOwed_pieces _).collected hc (by simp [payPieces])

/-! ### The load walk of the subscribers (R103) -/

theorem Chip.collected_eventSetBody (m : Memory) (hc : c.collected) : (c.eventSetBody m).collected := by
  unfold Chip.eventSetBody
  split
  next => exact hc
  next w hw =>
    obtain ⟨hqueue, hmembers, htags, hwin, hfour, hevals, hload, hwalk⟩ := hc
    obtain ⟨hloading, hphase, hbelow⟩ := hwalk w hw
    refine ⟨hqueue, hmembers, htags, hwin, hfour, hevals, hload, fun v hv => ?_⟩
    obtain rfl := Option.some.inj hv
    exact ⟨hloading, hphase, hbelow⟩

theorem Chip.toe_walkDemand (sub : Nat) (keep : Bool) (d : TapDraft) (c : Chip) :
    (c.walkDemand sub keep d).2.2.toe = c.toe := by
  rcases c.walkDemand_cases sub keep (keep = true) Iff.rfl d with ⟨-, -, -, h⟩ | ⟨-, -, -, h⟩ | ⟨-, -, -, h⟩ | ⟨-, -, -, h⟩
  all_goals rw [h]
  · exact Chip.same_append _ _ _ .toe (by decide)
  · rfl

theorem Toe.adds_walked (t : Toe) (sub : Nat) (o : OrderState) (change reached : Bool) :
    t.Adds sub (t.walked sub o change reached) := by
  cases o with
  | idle => cases change with
    | true => exact t.adds_tailed sub false
    | false => exact t.adds_refl sub
  | held => cases reached with
    | true => exact t.adds_held sub
    | false => exact t.adds_tailed sub false
  | failed => exact t.adds_refl sub
  | inFlight => exact t.adds_tailed sub true
  | queued => exact t.adds_tailed sub false
  | deferred => exact t.adds_tailed sub false

/-- The walk of a record puts at most its subscriber into a collection. -/
theorem Chip.adds_walkSubscriber (m : Memory) (events : List (BitVec 8 × Nat)) (sub : Nat) (c : Chip) :
    c.toe.Adds sub (c.walkSubscriber m events sub).toe := by
  unfold Chip.walkSubscriber
  dsimp only
  split
  · rw [show ∀ (o : OrderState) (u : BitVec 4) (d : TapDraft) (x : Chip), (x.commitTap sub o u d).toe = x.toe from
      fun o u d x => x.same_commitTap sub o u d .toe (by decide)]
    dsimp only
    rw [Chip.toe_walkDemand]
    exact Toe.adds_walked _ _ _ _ _
  · split
    · refine Eq.mpr (congrArg _ ((Chip.same_writeRecord _ _ _ _ _ .toe (by decide)).trans
        (c.toe_walkDemand sub false _))) (c.toe.adds_refl sub)
    · rw [Chip.toe_walkDemand]
      exact c.toe.adds_refl sub

/-- The walk has passed only the subscribers that the collections hold. -/
theorem Chip.collected_subscriberWalkBody (m : Memory) (hc : c.collected) : (c.subscriberWalkBody m).collected := by
  have hsame := c.same_subscriberWalkBody m
  obtain ⟨hl, hp, -⟩ := hsame.lccItems
  have hset : (c.subscriberWalkBody m).settings = c.settings := hsame .settings (by decide)
  cases hw : c.toe.walk with
  | none =>
    rw [Chip.subscriberWalkBody, hw]
    exact hc
  | some w =>
    have htoe : (c.subscriberWalkBody m).toe = { (c.walkSubscriber m w.events w.subscriber).toe with
        walk := some { w with subscriber := w.subscriber + 1 } } := by
      rw [Chip.subscriberWalkBody, hw]
    obtain ⟨hqueue, hmembers, htags, hwin, hfour, hevals, -, hwalk⟩ := hc
    obtain ⟨hloading, hphase, hbelow⟩ := hwalk w hw
    have hadds := c.adds_walkSubscriber m w.events w.subscriber
    have hnot : w.subscriber ∉ c.toe.members := fun hmem => absurd (hbelow _ hmem) (Nat.lt_irrefl _)
    have hmem : ∀ {a : Nat}, a ∈ (c.subscriberWalkBody m).toe.members →
        a ∈ (c.walkSubscriber m w.events w.subscriber).toe.members := fun h => by
      rw [htoe] at h
      exact h
    have hflights : (c.subscriberWalkBody m).toe.flights = c.toe.flights := by rw [htoe]; exact hadds.flights
    refine ⟨?_, ?_, by rwa [hflights], by rwa [hflights, hset], by rwa [hset], fun hn => ?_, fun _ hlow => ?_, fun v hv => ?_⟩
    · rw [htoe]
      exact hadds.queue hqueue
    · rw [htoe]
      exact hadds.nodup hmembers hnot
    · rw [htoe]
      refine hadds.evals.trans (hevals ?_)
      rw [← Chip.working_congr hl]
      exact hn
    · rw [hp, hphase] at hlow
      exact absurd hlow (Nat.lt_irrefl _)
    · rw [htoe] at hv
      obtain rfl := Option.some.inj hv
      refine ⟨hl.trans hloading, hp.trans hphase, fun a ha => Nat.lt_succ_iff.2 ?_⟩
      rcases hadds.mem (hmem ha) with rfl | ha
      · exact le_rfl
      · exact (hbelow a ha).le

end

end Sys2Proof.Machine
end

section
/-! The collections of the TOE from LOADING to STOPPED (O57). -/

namespace Sys2Proof.Machine

section
variable {c d : Chip}

/-! ### Changes of the lifecycle -/

/-- No walk is in progress outside phase 5 of a load. -/
theorem Chip.collected.walk_none (hc : c.collected) (h : ¬(c.lcc.lifecycle = .loading ∧ c.lcc.phase = 5)) :
    c.toe.walk = none := by
  obtain ⟨-, -, -, -, -, -, -, hwalk⟩ := hc
  cases hw : c.toe.walk with
  | none => rfl
  | some w =>
    obtain ⟨hloading, hphase, -⟩ := hwalk w hw
    exact absurd ⟨hloading, hphase⟩ h

/-- A change of the lifecycle that leaves the collections: no walk is in progress, no request waits where none may, and a
load finds no member. -/
theorem Chip.collected.moves (hc : c.collected) (ht : d.toe = c.toe) (hs : d.settings = c.settings) (hk : c.toe.walk = none)
    (he : d.working = false → c.toe.evals = [])
    (hm : d.lcc.lifecycle = .loading → d.lcc.phase < 5 → c.toe.members = []) : d.collected := by
  obtain ⟨hqueue, hmembers, htags, hwin, hfour, -⟩ := hc
  unfold Chip.collected
  rw [ht, hs]
  exact ⟨hqueue, hmembers, htags, hwin, hfour, he, hm, fun w hw => absurd (hk.symm.trans hw) (Option.some_ne_none w).symm⟩

/-- Empty collections are in order. -/
theorem Chip.collected_of_empty (hm : c.toe.members = []) (he : c.toe.evals = []) (hk : c.toe.walk = none)
    (hw : c.settings.window ≤ 4) : c.collected := by
  have hparts := hm
  simp only [Toe.members, List.append_eq_nil_iff, List.map_eq_nil_iff] at hparts
  obtain ⟨⟨⟨hqueue, -⟩, -⟩, hflights⟩ := hparts
  refine ⟨by simp [hqueue], by simp [hm], by simp [hflights], by simp [hflights], hw, fun _ => he, fun _ _ => hm,
    fun w hv => absurd (hk.symm.trans hv) (Option.some_ne_none w).symm⟩

theorem Chip.collected.window (hc : c.collected) : c.settings.window ≤ 4 := by
  obtain ⟨-, -, -, -, hw, -⟩ := hc
  exact hw

theorem Chip.collected_enterLoading (hw : c.settings.window ≤ 4) : c.enterLoading.collected :=
  Chip.collected_of_empty rfl rfl rfl hw

theorem Chip.collected_enterStopped (hw : c.settings.window ≤ 4) : c.enterStopped.collected := by
  have hset : c.stopTaps.settings = c.settings := c.same_stopTaps .settings (by decide)
  unfold Chip.enterStopped
  exact (Chip.same_findLow _).collected (Chip.collected_of_empty rfl rfl rfl (by rw [← hset] at hw; exact hw))

theorem Chip.collected_endStopping (hc : c.collected) : c.endStopping.collected := by
  unfold Chip.endStopping
  split
  · exact Chip.collected_enterStopped (Chip.collected.window hc)
  · exact hc

/-- A STOP is taken in RUNNING (R23, R32). -/
theorem Chip.collected_enterStopping (hc : c.collected) (hr : c.lcc.lifecycle = .running) : c.enterStopping.collected := by
  have hsame := c.same_beginStopping_few
  have hlcc := c.lcc_beginStopping
  refine Chip.collected_endStopping (Chip.collected.moves hc (hsame .toe (by decide)) (hsame .settings (by decide))
    (Chip.collected.walk_none hc (by simp [hr])) (fun hw => ?_) fun hl => ?_)
  · simp [Chip.working, hlcc] at hw
  · simp [hlcc] at hl

/-! ### The phases of a load -/

/-- In phases 1 to 4 of a load nothing is collected, no request waits and no walk is in progress. -/
theorem Chip.collected.loading {n : Nat} (hc : c.collected) (h : c.loadingPhase n = true) (hn : n < 5) :
    c.toe.members = [] ∧ c.toe.evals = [] ∧ c.toe.walk = none := by
  obtain ⟨hl, hp⟩ := (c.loadingPhase_iff n).1 h
  have hk := Chip.collected.walk_none hc fun hn5 => by omega
  obtain ⟨-, -, -, -, -, hevals, hload, -⟩ := hc
  exact ⟨hload hl (by omega), hevals (by simp [Chip.working, hl]), hk⟩

/-- A change that leaves the collections empty, the settings as they were. -/
theorem Chip.collected.stays_empty {n : Nat} {L : List Piece} (hc : c.collected) (h : c.loadingPhase n = true) (hn : n < 5)
    (hs : Chip.Same L c d) (hL : .toe ∉ L ∧ .settings ∉ L := by decide) : d.collected := by
  obtain ⟨hm, he, hk⟩ := Chip.collected.loading hc h hn
  have ht : d.toe = c.toe := hs .toe hL.1
  have hset : d.settings = c.settings := hs .settings hL.2
  exact Chip.collected_of_empty (ht ▸ hm) (ht ▸ he) (ht ▸ hk) (hset ▸ Chip.collected.window hc)

/-- A profile without a fault has a window of 1 to 4 (R27, R89). -/
theorem Profile.window_of_faults (p : Profile) (h : p.faults = 0) : p.settings.window ≤ 4 := by
  have hc : p.countFails = false := by
    unfold Profile.faults at h
    split at h
    · change p.fieldFaults = 0#11 at h
      simp only [Profile.fieldFaults, BitVec.or_eq_zero_iff, LoadFault.setIf_eq_zero] at h
      obtain ⟨⟨⟨⟨⟨⟨⟨_, _⟩, hc⟩, _⟩, _⟩, _⟩, _⟩, _⟩ := h
      exact hc
    · exact absurd h (by decide)
  simp only [Profile.countFails, Bool.or_eq_false_iff, Bool.not_eq_false'] at hc
  obtain ⟨⟨_, hwindow⟩, _⟩ := hc
  simp only [within, Bool.and_eq_true, decide_eq_true_eq] at hwindow
  exact hwindow.2

theorem Chip.collected_endPhase1 (hc : c.collected) (h : c.loadingPhase 1 = true) : c.endPhase1.collected := by
  obtain ⟨hm, he, hk⟩ := Chip.collected.loading hc h (by decide)
  unfold Chip.endPhase1
  dsimp only
  split
  next hf => exact Chip.collected_of_empty hm he hk (Profile.window_of_faults _ hf)
  next =>
    refine Chip.collected.stays_empty hc h (by decide) (L := [.map, .rpu, .jobs, .lcc, .statusMark])
      (Chip.Same.then ?_ ((Chip.same_enterLoadFault _ _).mono (by decide)))
    intro x hx
    cases x <;> first | exact absurd (by decide) hx | rfl

theorem Chip.collected_beginPhase4 (hc : c.collected) : c.beginPhase4.collected := by
  have hsame := c.same_beginPhase4
  cases h : c.loadingPhase 3 with
  | true => exact Chip.collected.stays_empty hc h (by decide) hsame
  | false =>
    rw [Chip.beginPhase4, h]
    exact hc

/-- Phase 5 begins its walk before the first subscriber (R103). -/
theorem Chip.collected_endPhase4 (hc : c.collected) : c.endPhase4.collected := by
  unfold Chip.endPhase4
  split
  next hend =>
    simp only [Bool.and_eq_true] at hend
    obtain ⟨⟨⟨hphase, -⟩, -⟩, -⟩ := hend
    obtain ⟨hm, he, -⟩ := Chip.collected.loading hc hphase (by decide)
    obtain ⟨hl, -⟩ := (c.loadingPhase_iff 4).1 hphase
    obtain ⟨hqueue, hmembers, htags, hwin, hfour, -⟩ := hc
    exact ⟨hqueue, hmembers, htags, hwin, hfour, fun _ => he, fun _ hlow => absurd hlow (Nat.lt_irrefl 5),
      fun w hw => ⟨hl, rfl, fun a ha => absurd (hm ▸ ha : a ∈ []) List.not_mem_nil⟩⟩
  next => exact hc

theorem Chip.collected_endPhase5 (hc : c.collected) : c.endPhase5.collected := by
  unfold Chip.endPhase5
  split
  next => exact hc
  next w hw =>
    split
    next =>
      obtain ⟨hqueue, hmembers, htags, hwin, hfour, hevals, -⟩ := hc
      exact ⟨hqueue, hmembers, htags, hwin, hfour, hevals, fun _ hlow => absurd (show (6 : Nat) < 5 from hlow) (by decide),
        nofun⟩
    next => exact hc

theorem Chip.collected_enterRunning (hc : c.collected) (h : c.loadingPhase 6 = true) : c.enterRunning.collected := by
  obtain ⟨hl, hp⟩ := (c.loadingPhase_iff 6).1 h
  unfold Chip.enterRunning
  refine (Chip.same_serveRoutes _).collected (Chip.collected.moves hc rfl rfl
    (Chip.collected.walk_none hc (by simp [hp])) (fun hw => absurd hw (by simp [Chip.working])) nofun)

theorem Chip.collected_autostart (m : Memory) (hc : c.collected) : (c.autostart m).collected := by
  unfold Chip.autostart
  split
  · exact Chip.collected_enterLoading (Chip.collected.window hc)
  · exact hc

end

end Sys2Proof.Machine
end

section
/-! Every step keeps the collections of the TOE in order (O57): accesses, the arbiter, the ends of tenures, and the
commands. -/

namespace Sys2Proof.Machine

section
variable {c : Chip}

/-! ### Accesses -/

theorem Chip.collected_takeCommand (n : Nat) (p : Port) (v : Word) (hc : c.collected) (ht : c.commandRefusal n v = none) :
    (c.takeCommand n p v).collected := by
  unfold Chip.takeCommand
  split
  · unfold Chip.takeControl
    split
    next => exact Chip.collected_enterLoading (Chip.collected.window hc)
    next hv =>
      refine Chip.collected_enterStopping hc ?_
      change c.controlRefusal v = none at ht
      unfold Chip.controlRefusal at ht
      rw [hv] at ht
      by_contra hr
      simp [Chip.isRunning, hr] at ht
    next => exact Chip.collected_congr hc rfl rfl rfl rfl
  · unfold Chip.takeHeartbeat
    split
    · exact (c.same_heartbeat _ _).collected hc
    · exact hc
  · unfold Chip.takeTake
    split
    · exact c.same_takeWalk.collected hc
    · exact c.same_cancelTake.collected hc
  · exact (c.same_beginEvaluation _ _).collected hc
  · exact (c.same_setTime _).collected hc
  · unfold Chip.takeRelease
    split
    · split
      · exact hc
      · exact Chip.collected_congr hc rfl rfl rfl rfl
    · exact hc
  · exact Chip.collected_congr hc rfl rfl rfl rfl
  · exact hc

theorem Chip.collected_withPort (p : Port) (x : PortState) (hc : c.collected) : (c.withPort p x).collected :=
  (c.same_withPort p x).collected hc (by cases p <;> decide)

theorem Chip.collected_endAccess (p : Port) (e : Bool) (v : Word) (hc : c.collected) :
    (Chip.endAccess p e v c).collected :=
  (Chip.same_endAccess p e v c).collected hc (by cases p <;> decide)

/-- An access carried out as it was classified in the same part (R19). -/
theorem Chip.collected_carryOut (p : Port) (a : Access) (hc : c.collected) :
    (c.carryOut p a (c.classify p a)).collected := by
  cases hv : c.classify p a with
  | refuse k => exact Chip.collected_endAccess p true 0 ((c.same_noteRefusal k p a.addr).collected hc)
  | pass t => exact Chip.collected_withPort p _ hc
  | answer v drop =>
    cases drop with
    | true => exact Chip.collected_endAccess p false v (Chip.collected_congr hc rfl rfl rfl rfl)
    | false => exact Chip.collected_endAccess p false v hc
  | hold =>
    have hput : (c.putAccess p a .held).collected := Chip.collected_withPort p _ hc
    exact Chip.collected_congr hput rfl rfl rfl rfl
  | take n => exact Chip.collected_endAccess p false 0 (Chip.collected_takeCommand n p a.data hc (Chip.classify_take hv))

theorem Chip.collected_breakLock (p : Port) (a : Access) (hc : c.collected) : (c.breakLock p a).collected := by
  unfold Chip.breakLock Chip.refuseAccess
  dsimp only
  refine Chip.collected_endAccess p true 0 ((Chip.same_noteRefusal _ _ _ _).collected ((Chip.same_raise _ _).collected
    ((Chip.same_count _ _).collected (Chip.collected_withPort p _ (Chip.collected_congr hc rfl rfl rfl rfl)))))

theorem Chip.collected_presented (p : Port) (a : Access) (hc : c.collected) : (c.presented p a).collected := by
  have hw : (c.withWaiting p a).collected := Chip.collected_withPort p _ hc
  unfold Chip.presented
  split
  · split
    · unfold Chip.lockedAccess
      split
      · exact Chip.collected_carryOut p a (Chip.collected_congr hw rfl rfl rfl rfl)
      · exact Chip.collected_breakLock p a hw
    · exact hw
  · exact hw

/-! ### The arbiter -/

theorem Chip.collected_grantPort (p : Port) (hc : c.collected) : (c.grantPort p).collected := by
  unfold Chip.grantPort
  split
  · exact hc
  · exact Chip.collected_carryOut p _ (Chip.collected_congr hc rfl rfl rfl rfl)

theorem Chip.collected_present (hc : c.collected) : c.present.collected := c.same_present.collected hc

theorem Chip.collected_arbitrate (n : Nat) (hc : c.collected) : (c.arbitrate n).collected := by
  induction n generalizing c with
  | zero => exact hc
  | succ n ih =>
    unfold Chip.arbitrate
    split
    · split
      · exact hc
      · exact Chip.collected_congr hc rfl rfl rfl rfl
      · exact ih (Chip.collected_present (Chip.collected_grantPort .a hc))
      · exact ih (Chip.collected_present (Chip.collected_grantPort .b hc))
    · exact hc

theorem Chip.collected_settle (hc : c.collected) : c.settle.collected :=
  Chip.collected_arbitrate 3 (Chip.collected_present hc)

/-! ### The end of a memory cycle and of a tenure -/

theorem Chip.collected_handTrigger (t : Trigger) (hc : c.collected) : (c.handTrigger t).collected := by
  unfold Chip.handTrigger
  split
  · split
    · exact (c.same_mapTrigger _ _ _).collected hc
    · split
      · split
        · exact Chip.collected_request _ hc
        · exact Chip.collected_request _ hc
      · exact Chip.collected_request _ hc
    · exact hc
  · exact hc

theorem Chip.collected_cycleEnded (p : Port) (v : Word) (t : Option Trigger) (hc : c.collected) :
    (c.cycleEnded p v t).collected := by
  have hend := Chip.collected_endAccess p false v hc
  cases t with
  | none => exact hend
  | some t => exact Chip.collected_handTrigger t hend

theorem Chip.collected_jobEnded (j : Job) (hc : c.collected) : (c.jobEnded j).collected := by
  unfold Chip.jobEnded
  split
  case h_4 => exact (Chip.same_takeHeld _ c).collected hc
  case h_5 => exact Chip.collected_beginPhase4 hc
  case h_9 => exact hc
  all_goals first
    | exact (Chip.same_sweepTenureEnded _ c).collected hc
    | exact c.same_outageTenureEnded.collected hc

theorem Chip.collected_tenureEnded (t : Tenure) (hc : c.collected) : (c.tenureEnded t).collected := by
  have howed : ∀ (l : List Owed) {d : Chip}, d.collected → (l.foldl Chip.payOwed d).collected := by
    intro l
    induction l with
    | nil => exact fun h => h
    | cons o l ih => exact fun h => ih (Chip.collected_payOwed o h)
  exact Chip.collected_endStopping (Chip.collected_endPhase5 (Chip.collected_endPhase4
    (Chip.collected_jobEnded t.job (howed t.owed (c.same_tauFreed.collected hc)))))

end

/-! ### The tenures of the load phases -/

section
variable {c : Chip}

theorem Chip.collected_phase1Body (m : Memory) (j : Job) (hc : c.collected) : (c.phase1Body m j).collected := by
  unfold Chip.phase1Body
  split
  · exact Chip.collected_congr hc rfl rfl rfl rfl
  · exact (c.same_writeStation _ _).collected hc

theorem Chip.collected_phase2Body (m : Memory) (j : Job) (hc : c.collected) : (c.phase2Body m j).collected := by
  unfold Chip.phase2Body
  split
  · exact Chip.collected_congr hc rfl rfl rfl rfl
  · exact hc

theorem Chip.collected_phase3Body (m : Memory) (j : Job) (hc : c.collected) : (c.phase3Body m j).collected := by
  unfold Chip.phase3Body
  split
  · exact Chip.collected_congr hc rfl rfl rfl rfl
  · exact (c.same_writeStation _ _).collected hc

end

/-! ### Events and grants -/

section
variable {s t : State}

theorem State.event_collected {b : Bool} {f : Chip → Chip} (h : s.event b f = .next t) (hs : s.chip.collected)
    (hf : b = true → (f s.chip).collected) : t.chip.collected := by
  unfold State.event at h
  split at h
  next hb =>
    cases h
    exact Chip.collected_settle (hf hb.1)
  next =>
    cases h
    exact hs

theorem State.event_same_collected {b : Bool} {f : Chip → Chip} {L : List Piece} (h : s.event b f = .next t)
    (hs : s.chip.collected) (hf : Chip.Same L s.chip (f s.chip))
    (hL : .toe ∉ L ∧ .lcc ∉ L ∧ .settings ∉ L := by decide) : t.chip.collected :=
  State.event_collected h hs fun _ => hf.collected hs hL

theorem State.tenure_collected {pick : Chip → Job → Bool} {body : Memory → Job → Chip → Chip}
    (h : s.tenure pick body = .next t) (hs : s.chip.collected)
    (hf : ∀ j c, c.collected → (body s.mem j c).collected) : t.chip.collected := by
  rcases State.tenure_next h with rfl | ⟨j, c, hc, rfl⟩
  · exact hs
  · exact Chip.collected_settle ((Chip.same_closeGrant _).collected (hf j c (hc.collected hs)))

theorem State.tenure_same_collected {pick : Chip → Job → Bool} {body : Memory → Job → Chip → Chip} {L : List Piece}
    (h : s.tenure pick body = .next t) (hs : s.chip.collected) (hf : ∀ j c, Chip.Same L c (body s.mem j c))
    (hL : .toe ∉ L ∧ .lcc ∉ L ∧ .settings ∉ L := by decide) : t.chip.collected :=
  State.tenure_collected h hs fun j c hc => (hf j c).collected hc hL

theorem State.access_collected {p : Port} {a : Access} (h : s.access p a = .next t) (hs : s.chip.collected) :
    t.chip.collected := by
  unfold State.access at h
  split at h
  · cases h
  · cases h
    rw [Chip.presentAccess_eq]
    exact Chip.collected_settle (Chip.collected_presented p a hs)

/-! ### The commands with a shape of their own -/

theorem execResetAssert_collected {k : Nat} (h : execResetAssert k s = .next t) (hs : s.chip.collected) :
    t.chip.collected := by
  unfold execResetAssert at h
  split at h
  next =>
    cases h
    exact hs
  next =>
    cases h
    exact Chip.collected_of_empty rfl rfl rfl (Nat.zero_le 4)

theorem execResetRelease_collected (h : execResetRelease s = .next t) (hs : s.chip.collected) : t.chip.collected := by
  unfold execResetRelease at h
  split at h
  next =>
    cases h
    exact Chip.collected_settle (Chip.collected_congr hs rfl rfl rfl rfl)
  next =>
    cases h
    exact hs

theorem execMemoryCycleComplete_collected (h : execMemoryCycleComplete s = .next t) (hs : s.chip.collected) :
    t.chip.collected := by
  unfold execMemoryCycleComplete at h
  split at h
  next p a x hm =>
    cases h
    rw [Chip.finishCycle_eq]
    exact Chip.collected_settle (Chip.collected_cycleEnded p _ x hs)
  next =>
    cases h
    exact hs

theorem execTauTenureEnd_collected (h : execTauTenureEnd s = .next t) (hs : s.chip.collected) : t.chip.collected := by
  unfold execTauTenureEnd at h
  split at h
  next x hh hx =>
    cases h
    rw [Chip.finishTenure_eq]
    exact Chip.collected_settle (Chip.collected_tenureEnded x hs)
  next =>
    cases h
    exact hs

theorem execStatusLineChange_collected {v : Word} (h : execStatusLineChange v s = .next t) (hs : s.chip.collected) :
    t.chip.collected :=
  State.event_same_collected (s := { s with chip := { s.chip with lines := v } }) h (Chip.collected_congr hs rfl rfl rfl rfl)
    (Chip.same_sample v _)

theorem execLoadPhase1_collected (h : execLoadPhase1 s = .next t) (hs : s.chip.collected) : t.chip.collected := by
  unfold execLoadPhase1 at h
  split at h
  next hb =>
    obtain ⟨hphase, -⟩ := (Bool.and_eq_true _ _).mp hb
    exact State.event_collected h hs fun _ => Chip.collected_endPhase1 hs hphase
  next => exact State.tenure_collected h hs fun j c hc => Chip.collected_phase1Body s.mem j hc

theorem execLoadPhase2_collected (h : execLoadPhase2 s = .next t) (hs : s.chip.collected) : t.chip.collected := by
  unfold execLoadPhase2 at h
  split at h
  next hb =>
    obtain ⟨hphase, -⟩ := (Bool.and_eq_true _ _).mp hb
    exact State.event_collected h hs fun _ => Chip.collected.stays_empty hs hphase (by decide) (Chip.same_endPhase2 _)
  next => exact State.tenure_collected h hs fun j c hc => Chip.collected_phase2Body s.mem j hc

theorem execLoadPhase3_collected (h : execLoadPhase3 s = .next t) (hs : s.chip.collected) : t.chip.collected := by
  unfold execLoadPhase3 at h
  split at h
  next hb =>
    obtain ⟨hphase, -⟩ := (Bool.and_eq_true _ _).mp hb
    exact State.event_collected h hs fun _ => Chip.collected.stays_empty hs hphase (by decide) (Chip.same_endPhase3 _)
  next => exact State.tenure_collected h hs fun j c hc => Chip.collected_phase3Body s.mem j hc

theorem execRunningEntry_collected (h : execRunningEntry s = .next t) (hs : s.chip.collected) : t.chip.collected :=
  State.event_collected h hs fun hb => by
    obtain ⟨hphase, -⟩ := (Bool.and_eq_true _ _).mp hb
    exact Chip.collected_enterRunning hs hphase

theorem execSubscriberLoadWalk_collected (h : execSubscriberLoadWalk s = .next t) (hs : s.chip.collected) :
    t.chip.collected :=
  State.tenure_collected h hs fun j c hc => by
    split
    · exact Chip.collected_eventSetBody s.mem hc
    · exact Chip.collected_subscriberWalkBody s.mem hc

/-! ### Every command, every step -/

theorem exec_collected {i : Instr} (h : exec i s = .next t) (hs : s.chip.collected) : t.chip.collected := by
  cases i <;> simp only [exec] at h
  case portAccess p a => exact State.access_collected h hs
  case lockRelease p => exact State.event_same_collected h hs (Chip.same_releaseLock p _) (by cases p <;> decide)
  case memoryCycleComplete => exact execMemoryCycleComplete_collected h hs
  case resetAssert n => exact execResetAssert_collected h hs
  case resetRelease => exact execResetRelease_collected h hs
  case autostartCheck => exact State.tenure_collected h hs fun j c hc => Chip.collected_autostart s.mem hc
  case logClear q =>
    cases q <;> simp only [execLogClear] at h
    case command u => exact State.access_collected h hs
    case tenure => exact State.tenure_same_collected h hs (fun j c => c.same_logClearBody _)
  case heartbeatCountdownExpiry => exact State.event_same_collected h hs (Chip.same_enterExpired _)
  case wallSecondBoundary => exact State.event_same_collected h hs (Chip.same_advanceWall _)
  case referencePulse => exact State.event_same_collected h hs (Chip.same_pulse _)
  case lossWatchExpiry => exact State.event_same_collected h hs (Chip.same_loseSync _)
  case routeReply bs => exact State.event_same_collected h hs (Chip.Same.foldl _ (fun c b => c.same_routeByte b) bs _)
  case routeByteTimeout => exact State.event_same_collected h hs (Chip.same_dropRoute _)
  case routeDeadline => exact State.event_same_collected h hs (Chip.same_routeExpiry _)
  case mirrorTenure => exact State.tenure_same_collected h hs (fun j c => c.same_mirrorBody)
  case tauTenureEnd => exact execTauTenureEnd_collected h hs
  case tapReply bs => exact State.event_collected h hs fun _ => Chip.collected_tapBytes s.mem bs hs
  case tapByteTimeout => exact State.event_same_collected h hs (Chip.same_dropTap _)
  case tapDeadline n =>
    exact State.event_collected h hs fun _ => Chip.collected.keeps hs (Chip.keeps_tapTimeout n _) (Chip.same_tapTimeout n _)
  case evaluate | requeue | retire => exact State.tenure_collected h hs fun j c hc => Chip.collected_evaluationBody s.mem hc
  case sendTenure => exact State.tenure_collected h hs fun j c hc => Chip.collected_sendBody s.mem hc
  case replyTenure | endingFailed | endingHeld | endingReturned | endingUnconfirmed | endingConfirmed =>
    exact State.tenure_collected h hs fun j c hc => Chip.collected_linkBody s.mem j hc
  case statusLineChange v => exact execStatusLineChange_collected h hs
  case onsetDeadline n => exact State.event_same_collected h hs (Chip.same_enterDown n _)
  case holdDeadline n => exact State.event_same_collected h hs (Chip.same_enterUp n _)
  case slmWriteTenure => exact State.tenure_same_collected h hs (fun j c => c.same_slmWriteBody)
  case sweepStart => exact State.event_same_collected h hs (Chip.same_startSweep _)
  case sweepStartTenure => exact State.tenure_same_collected h hs (fun j c => c.same_sweepStartBody _)
  case restoreStep | eventCloseStep => exact State.tenure_same_collected h hs (fun j c => c.same_sweepStepBody _)
  case sweepEndTenure => exact State.tenure_same_collected h hs (fun j c => c.same_sweepEndBody)
  case evaluationTenure => exact State.tenure_same_collected h hs (fun j c => c.same_purchaseBody _)
  case releaseTenure => exact State.tenure_same_collected h hs (fun j c => c.same_releaseBody)
  case closeTenure => exact State.tenure_same_collected h hs (fun j c => c.same_closeBody)
  case reportTenure => exact State.tenure_same_collected h hs (fun j c => c.same_reportBody)
  case loadPhase1 => exact execLoadPhase1_collected h hs
  case loadPhase2 => exact execLoadPhase2_collected h hs
  case loadPhase3 => exact execLoadPhase3_collected h hs
  case logCopyLoad => exact State.tenure_same_collected h hs (fun j c => c.same_logLoadBody _)
  case outageReconciliation => exact State.tenure_same_collected h hs (fun j c => c.same_outageBody _ j)
  case subscriberLoadWalk => exact execSubscriberLoadWalk_collected h hs
  case mapLoadWalk => exact State.tenure_same_collected h hs (fun j c => c.same_mapWalkBody _)
  case runningEntry => exact execRunningEntry_collected h hs
  case stoppedEntry =>
    exact State.event_collected h hs fun _ => Chip.collected_enterStopped (Chip.collected.window hs)
  case firstSample => exact State.event_same_collected h hs (Chip.same_sample _ _)
  -- The commands that remain are accesses to the command words.
  all_goals exact State.access_collected h hs

theorem State.idle_collected (h : s.idle = .next t) (hs : s.chip.collected) : t.chip.collected := by
  unfold State.idle at h
  split at h
  next =>
    cases h
    exact hs
  next =>
    split at h
    next => exact exec_collected h hs
    next =>
      split at h
      next => exact State.event_same_collected h hs (Chip.same_serveRoutes _)
      next =>
        cases h
        exact Chip.collected_congr hs rfl rfl rfl rfl

end

/-- Settles O57: every command and the passing of time keep the collections in order. -/
theorem stepKeepsTheCollections : Obligations.StepKeepsTheCollections := by
  unfold Obligations.StepKeepsTheCollections
  intro s t hs h
  unfold step at h
  split at h
  next => exact State.idle_collected h hs
  next i rest _ => exact exec_collected (s := { s with pending := rest }) h hs

end Sys2Proof.Machine
end
